-- ==== Sys2Proof/Word.lean ====
section
/-!
DEFINITION. The word types of the ZWL-4A model and the type of sparse tables.
-/
namespace Sys2Proof

/-- A 32-bit register or instruction word (R73). -/
abbrev Word := BitVec 32

/-- A 64-bit value: a uniform register, a pair, an address, a counter (R73, R74). -/
abbrev DWord := BitVec 64

/-- A byte of memory (R8). -/
abbrev Byte := BitVec 8

/-- One bit per thread of a group, bit t for thread t (R81). -/
abbrev Mask := BitVec 64

/-- A finite table from numbers, held as pairs with strictly rising keys and no entry equal to the
value that an unlisted key reads as. -/
abbrev Sparse (α : Type) := List (Nat × α)

end Sys2Proof
end

