-- ==== Sys2Proof/Config.lean ====
section
/-!
DEFINITION. What the spec leaves to the part: free values, of which nothing can be proved but what the model
builds around them.
-/
namespace Sys2Proof.Config

/-- The k-th free value taken in a run: promises (R262), the units that an MMA saw of a fill under way (R177, R232),
and the others that log 7 lists. State.freeCtr counts them. DESIGN CHOICE, safe (log 7). -/
opaque free : Nat → Nat

/-- Where within its bound the result of an approximate function of an operand lies (R140): the same on every part,
in every lane and at every clock. DESIGN CHOICE, safe (log 8). -/
opaque approx : Nat → Word → Nat

/-- Word n of the attestation report: measurements, signature and layout are not in the spec (R406). DESIGN CHOICE,
safe (log 67). -/
opaque attest : Nat → DWord

/-- The static drop calibrated at start-up in a column, in mV (R415). DESIGN CHOICE, safe (log 67). -/
opaque staticDrop : Nat → Nat

/-- Spill slots of the package beyond the first (R321). DESIGN CHOICE, unsafe (log 54). -/
opaque furtherSpillSlots : Nat

/-- Spill slots of the package for displaced insole regions (R321). DESIGN CHOICE, unsafe (log 54). -/
def spillSlots : Nat := furtherSpillSlots + 1

end Sys2Proof.Config
end

