-- ==== Sys2Proof/Syntax.lean ====
section
/-!
DEFINITION. The instructions and steps of the ZWL-4A: one constructor of Instr for each row of
spec/opcode_table.json. Rows with an instruction word carry the word's fields (R57, R58); the rows of
the device's own steps carry the operands that say which unit acts (spec/95_what_each_step_holds.md).
-/
namespace Sys2Proof

/-- The four instruction forms of Table 3.1, named by LEN. -/
inductive Form where
  | short      -- LEN 0b00
  | ext        -- LEN 0b01
  | shortLit   -- LEN 0b10
  | extLit     -- LEN 0b11
  deriving DecidableEq, Repr

/-- The fields of an instruction word but for OP, in the places of Tables 3.2 and 3.3 and the literal of
Table 3.1. A form that lacks a field holds the value of R59 in it (and zero in an absent literal). -/
structure Fields where
  form : Form
  /-- `ys` -/
  y : Bool
  /-- uniform -/
  u : Bool
  f : BitVec 4
  a : BitVec 8
  d : BitVec 8
  b : BitVec 8
  c : BitVec 8
  /-- guard predicate, 127 unguarded (R63) -/
  g : BitVec 7
  gn : Bool
  m : BitVec 8
  stl : BitVec 3
  seq : BitVec 3
  x : BitVec 26
  lit : BitVec 64
  deriving DecidableEq, Repr

/-- The seven MMA families of Table 3.7, opcodes 0xF4 to 0xFA. -/
inductive MmaFamily where
  | fp64 | single | half | fp8 | block | integer | complex
  deriving DecidableEq, Repr

/-- A team: launch sequence number and linear team index (R15, R255). -/
structure TeamRef where
  seq : Nat
  idx : Nat
  deriving DecidableEq, Repr

/-- A fibre: its team, `%gid` and `%fid`. -/
structure FibreRef where
  team : TeamRef
  gid : Nat
  fid : Nat
  deriving DecidableEq, Repr

/-- One 128-byte store of a lodge hart to a submission line (R255), with the satp of the hart (R159). -/
structure LaunchSignalOp where
  col : Nat
  page : Nat
  line : Nat
  data : BitVec 1024
  satp : DWord
  deriving DecidableEq, Repr

/-- Where the dispatcher puts one group: core, lane, slot and first lane register (R16, R84). -/
structure Seat where
  core : Nat
  lane : Nat
  slot : Nat
  base : Nat
  deriving DecidableEq, Repr

/-- A placement: the team, the core (the lower one of a pair) and one seat per group in `%gid` order. -/
structure Placement where
  team : TeamRef
  core : Nat
  seats : List Seat
  deriving DecidableEq, Repr

/-- What scrub finds in a unit (R420). -/
inductive ScrubFinding where
  | clean | correctable | uncorrectable
  deriving DecidableEq, Repr

/-- The level that scrub visits, coded as in the error-log record (R421). -/
inductive ScrubLevel where
  | arrays | scratchpad | slice | insole | hbm
  deriving DecidableEq, Repr

/-- One memory operation of an agent outside the compute cores, on a physical address: local, or, for a lodge hart, of
a peer package or behind a PCIe port (R170, R197, R334, R335, R399). -/
inductive OuterOp where
  /-- a load of n bytes -/
  | load (n : Nat)
  /-- a store of bytes, lowest address first -/
  | store (bytes : List Byte)
  /-- AMOADD.D, or a counter add of a peer -/
  | amoAdd (value : DWord)
  /-- any other 8-byte AMO: the value it leaves -/
  | amoSet (value : DWord)
  /-- a 4-byte AMO: the value it leaves -/
  | amoWord (value : BitVec 32)
  /-- LR.D -/
  | loadReserved
  /-- SC.D of a value -/
  | storeConditional (value : DWord)
  /-- LR.W -/
  | loadReservedWord
  /-- SC.W of a value -/
  | storeConditionalWord (value : BitVec 32)
  /-- FENCE: predecessor and successor sets do not change a value -/
  | fence
  /-- a peer's wait on a counter word, which it names by a tag -/
  | wait (threshold : DWord) (tag : Nat)
  /-- a peer withdraws the wait of a tag -/
  | withdraw (tag : Nat)
  /-- a peer tells that waiter k of this package has ended with killed status at its counter word (R337) -/
  | waitKilled (k : Nat)
  /-- CINIT of a peer: the value it gives the counter word -/
  | counterInit (value : DWord)
  deriving DecidableEq, Repr

/-- A register of the device page region that has no row of its own (R394, R395, R410, R422, Table 24.4). -/
inductive DeviceReg where
  | spt (col n : Nat)
  | fcmd (col : Nat)
  | lsel (col : Nat)
  | evbase (col : Nat) | scbase (col : Nat)
  | evprod (col : Nat) | scprod (col : Nat)
  | evcons (col : Nat) | sccons (col : Nat)
  | evirq (col : Nat)
  /-- column power register 0x30 to 0x39 of a column -/
  | power (col num : Nat)
  | lostto
  | pciewin (port : Nat)
  /-- checkpoint-engine register of a sole by offset (Table 25.6) -/
  | ckpt (sole off : Nat)
  /-- owner fields OWN and OV of an insole map entry (R319) -/
  | insoleOwner (region : Nat)
  /-- a replay entry's command word (Table 14.7) -/
  | replayCmd (core entry : Nat)
  /-- a user-event CSR of a hart other than uevasid (Table 24.3) -/
  | uevCsr (hart num : Nat)
  deriving DecidableEq, Repr

/-- A hello of the election (R407). -/
structure Hello where
  sender : Nat
  leader : Nat
  gen : Nat
  /-- the sender passed the SPDM challenge -/
  verified : Bool
  /-- switch hops from this package -/
  hops : Nat
  deriving DecidableEq, Repr

/-- A scope-table entry without its valid bit (R314): hop count, generation, member set. -/
structure ScopeDraft where
  hops : Nat
  gen : Nat
  members : BitVec 1024
  deriving DecidableEq, Repr

/-- What the start sequence meets on its way (Table 24.5): step 1, step 3 and step 4 outcomes, with
the boot-report reason of a failed step (R406). -/
structure StartFacts where
  pavilionOk : Bool
  imagesOk : Bool
  imageReason : Nat
  selfTestOk : Bool
  selfTestReason : Nat
  /-- lowest-numbered sole that passes self-test, for minimal mode -/
  goodSole : Nat
  deriving DecidableEq, Repr

/-- Every instruction and step of spec/opcode_table.json. -/
inductive Instr where
  /-- Short-form no-operation whose only effect is its hash (R302). -/
  | nopShort (u : Bool) (y : Bool)
  /-- Extended no-operation that carries a guard or a sequencing clause and has no other effect (R302). -/
  | nop (w : Fields)
  /-- Short-form yield: marks the running split YLD and passes the slot as R21 gives (R302). -/
  | yieldShort (y : Bool)
  /-- Extended yield with sequencing: a yield point that sets YLD and passes the slot (R302). -/
  | yield (w : Fields)
  /-- Short-form exit that removes its participants from the fibre and frees emptied splits (R295). -/
  | exitShort (y : Bool)
  /-- Guarded exit that removes its participants from the fibre, with split accounting and fibre exit (R295). -/
  | exit (w : Fields)
  /-- Writes the return address to sD, transfers to the target and resets FSIG (R306). -/
  | call (w : Fields)
  /-- Indirect call through a permitted-target table, splitting threads by target (R307). -/
  | callx (w : Fields)
  /-- Indirect jump through a permitted-target table, splitting threads by target (R307). -/
  | jx (w : Fields)
  /-- Short-form return to the address held in sA, which resets FSIG (R306). -/
  | retShort (a : BitVec 8) (y : Bool)
  /-- Extended return to the address held in sA (R306). -/
  | ret (w : Fields)
  /-- Compares FSIG with the literal when signatures are enabled, then resets FSIG or raises a mismatch (R308). -/
  | sigck (w : Fields)
  /-- Raises cause 12 with code n for its participants (R360). -/
  | trap (w : Fields)
  /-- Short-form trap return: discards the handler splits, restores the frozen table and resumes at TPC or skips the trapped instruction (R361). -/
  | tretShort (s : Bool) (y : Bool)
  /-- Extended trap return (R361). -/
  | tret (w : Fields)
  /-- Writes one syscall entry per participant and waits for every result (R364). -/
  | sysc (w : Fields)
  /-- Short-form breakpoint that raises cause 13 with the code held in F (R360). -/
  | brkShort (n : BitVec 4) (y : Bool)
  /-- Extended breakpoint that raises cause 13 (R360). -/
  | brk (w : Fields)
  /-- Short-form sleep that parks the running split until an absolute or relative deadline (R303). -/
  | sleepShort (a : BitVec 8) (r : Bool) (y : Bool)
  /-- Extended sleep with sequencing that parks the split until its deadline (R303). -/
  | sleep (w : Fields)
  /-- Short-form set of the fibre priority from an immediate (R304). -/
  | fprioImmShort (p : BitVec 4) (y : Bool)
  /-- Short-form set of the fibre priority from sA, saturated to 15 (R304). -/
  | fprioRegShort (a : BitVec 8) (y : Bool)
  /-- Extended set of the fibre priority (R304). -/
  | fprio (w : Fields)
  /-- Short-form read of a system register into a register (R363). -/
  | srdShort (a : BitVec 8) (d : BitVec 8) (u : Bool) (y : Bool)
  /-- Extended read of a system register (R363). -/
  | srd (w : Fields)
  /-- Short-form write of sA to a system register, under its access codes (R363). -/
  | swrShort (a : BitVec 8) (d : BitVec 8) (y : Bool)
  /-- Extended write of a system register (R363). -/
  | swr (w : Fields)
  /-- Short-form checkpoint: waits for every fibre of the team and then opens a checkpoint interval (R369). -/
  | tckptShort (y : Bool)
  /-- Extended checkpoint with sequencing (R369). -/
  | tckpt (w : Fields)
  /-- Privileged TLB shoot-down, by page, by ASID or of every entry, in every column (R365). -/
  | tlbinv (w : Fields)
  /-- Integer add, wrapping or saturating (R115). -/
  | iadd (w : Fields)
  /-- Integer subtract (R115). -/
  | isub (w : Fields)
  /-- Add with the carry held in a predicate, writing the carry out (R119). -/
  | iaddc (w : Fields)
  /-- Subtract with the borrow held in a predicate, writing the borrow out (R119). -/
  | isubb (w : Fields)
  /-- Integer multiply, low half (R115). -/
  | imul (w : Fields)
  /-- High half of the exact integer product (R115). -/
  | imulh (w : Fields)
  /-- Integer multiply-add (R115). -/
  | imad (w : Fields)
  /-- 32-bit multiply-add widened to 64 bits (R117). -/
  | imadw (w : Fields)
  /-- Integer quotient with defined results for zero and overflow, variable latency (R118). -/
  | idiv (w : Fields)
  /-- Integer remainder, variable latency (R118). -/
  | irem (w : Fields)
  /-- Integer minimum (R115). -/
  | imin (w : Fields)
  /-- Integer maximum (R115). -/
  | imax (w : Fields)
  /-- Short-form .i32 absolute value (R116). -/
  | iabsShort (a : BitVec 8) (d : BitVec 8) (u : Bool) (y : Bool)
  /-- Extended integer absolute value (R116). -/
  | iabs (w : Fields)
  /-- Short-form .i32 negation (R116). -/
  | inegShort (a : BitVec 8) (d : BitVec 8) (u : Bool) (y : Bool)
  /-- Extended integer negation (R116). -/
  | ineg (w : Fields)
  /-- Sum of an absolute difference and an addend (R115). -/
  | isad (w : Fields)
  /-- Integer compare to a predicate or a uniform register (R120). -/
  | icmp (w : Fields)
  /-- Forms a 64-bit address from base, scaled index and displacement (R121). -/
  | lea (w : Fields)
  /-- Bitwise and (R122). -/
  | and (w : Fields)
  /-- Bitwise or (R122). -/
  | or (w : Fields)
  /-- Bitwise exclusive or (R122). -/
  | xor (w : Fields)
  /-- A and not B (R122). -/
  | andn (w : Fields)
  /-- Any bitwise function of three inputs, chosen by a mix code (R122). -/
  | bmix (w : Fields)
  /-- Left shift with a saturating amount (R123). -/
  | shl (w : Fields)
  /-- Logical right shift (R123). -/
  | shr (w : Fields)
  /-- Arithmetic right shift (R123). -/
  | sar (w : Fields)
  /-- Left rotation by an amount taken modulo w (R123). -/
  | rot (w : Fields)
  /-- Funnel shift left (R123). -/
  | fshl (w : Fields)
  /-- Funnel shift right (R123). -/
  | fshr (w : Fields)
  /-- Bit-field extract, optionally sign-extended (R124). -/
  | bfx (w : Fields)
  /-- Bit-field insert (R124). -/
  | bfi (w : Fields)
  /-- Short-form 32-bit population count (R125). -/
  | popcShort (a : BitVec 8) (d : BitVec 8) (u : Bool) (y : Bool)
  /-- Extended population count (R125). -/
  | popc (w : Fields)
  /-- Short-form 32-bit count of leading zeros (R125). -/
  | clzShort (a : BitVec 8) (d : BitVec 8) (u : Bool) (y : Bool)
  /-- Extended count of leading zeros (R125). -/
  | clz (w : Fields)
  /-- Short-form 32-bit count of trailing zeros (R125). -/
  | ctzShort (a : BitVec 8) (d : BitVec 8) (u : Bool) (y : Bool)
  /-- Extended count of trailing zeros (R125). -/
  | ctz (w : Fields)
  /-- Short-form 32-bit bit reversal (R125). -/
  | brevShort (a : BitVec 8) (d : BitVec 8) (u : Bool) (y : Bool)
  /-- Extended bit reversal (R125). -/
  | brev (w : Fields)
  /-- Byte permutation from a pool formed of A and C (R126). -/
  | bperm (w : Fields)
  /-- Packed 16-bit add (R127). -/
  | iadd2 (w : Fields)
  /-- Packed 16-bit subtract (R127). -/
  | isub2 (w : Fields)
  /-- Packed 16-bit minimum (R127). -/
  | imin2 (w : Fields)
  /-- Packed 16-bit maximum (R127). -/
  | imax2 (w : Fields)
  /-- Packed 16-bit compare to a pair of predicates (R127). -/
  | icmp2 (w : Fields)
  /-- Two add-compare-select trellis steps with survivor bits (R128). -/
  | iacs2 (w : Fields)
  /-- FP32 add, rounded once (R134). -/
  | fadd (w : Fields)
  /-- FP32 subtract (R134). -/
  | fsub (w : Fields)
  /-- FP32 multiply (R134). -/
  | fmul (w : Fields)
  /-- FP32 fused multiply-add (R134). -/
  | ffma (w : Fields)
  /-- FP32 minimumNumber (R135). -/
  | fmin (w : Fields)
  /-- FP32 maximumNumber (R135). -/
  | fmax (w : Fields)
  /-- FP32 compare under a condition code (R137). -/
  | fcmp (w : Fields)
  /-- Tests the class of an FP32 value against a mask (R138). -/
  | fclass (w : Fields)
  /-- Short-form correctly rounded FP32 reciprocal, RNE (R139). -/
  | frcpShort (a : BitVec 8) (d : BitVec 8) (u : Bool) (y : Bool)
  /-- Extended FP32 reciprocal (R139). -/
  | frcp (w : Fields)
  /-- Short-form approximate reciprocal square root (R140). -/
  | frsqShort (a : BitVec 8) (d : BitVec 8) (u : Bool) (y : Bool)
  /-- Extended approximate reciprocal square root (R140). -/
  | frsq (w : Fields)
  /-- Short-form correctly rounded FP32 square root (R139). -/
  | fsqrtShort (a : BitVec 8) (d : BitVec 8) (u : Bool) (y : Bool)
  /-- Extended FP32 square root (R139). -/
  | fsqrt (w : Fields)
  /-- Correctly rounded FP32 division (R134). -/
  | fdiv (w : Fields)
  /-- Short-form approximate 2 to the power A (R140). -/
  | fex2Short (a : BitVec 8) (d : BitVec 8) (u : Bool) (y : Bool)
  /-- Extended approximate 2 to the power A (R140). -/
  | fex2 (w : Fields)
  /-- Short-form approximate base-2 logarithm (R140). -/
  | flg2Short (a : BitVec 8) (d : BitVec 8) (u : Bool) (y : Bool)
  /-- Extended approximate base-2 logarithm (R140). -/
  | flg2 (w : Fields)
  /-- Short-form approximate sine (R140). -/
  | fsinShort (a : BitVec 8) (d : BitVec 8) (u : Bool) (y : Bool)
  /-- Extended approximate sine (R140). -/
  | fsin (w : Fields)
  /-- Short-form approximate cosine (R140). -/
  | fcosShort (a : BitVec 8) (d : BitVec 8) (u : Bool) (y : Bool)
  /-- Extended approximate cosine (R140). -/
  | fcos (w : Fields)
  /-- Rounds an FP32 value to an integral value (R136). -/
  | frnd (w : Fields)
  /-- FP64 add (R134). -/
  | dadd (w : Fields)
  /-- FP64 subtract (R134). -/
  | dsub (w : Fields)
  /-- FP64 multiply (R134). -/
  | dmul (w : Fields)
  /-- FP64 fused multiply-add (R134). -/
  | dfma (w : Fields)
  /-- FP64 minimumNumber (R135). -/
  | dmin (w : Fields)
  /-- FP64 maximumNumber (R135). -/
  | dmax (w : Fields)
  /-- FP64 compare (R137). -/
  | dcmp (w : Fields)
  /-- FP64 class test against a mask (R138). -/
  | dclass (w : Fields)
  /-- Short-form FP64 reciprocal (R139). -/
  | drcpShort (a : BitVec 8) (d : BitVec 8) (u : Bool) (y : Bool)
  /-- Extended FP64 reciprocal (R139). -/
  | drcp (w : Fields)
  /-- Short-form FP64 square root (R139). -/
  | dsqrtShort (a : BitVec 8) (d : BitVec 8) (u : Bool) (y : Bool)
  /-- Extended FP64 square root (R139). -/
  | dsqrt (w : Fields)
  /-- FP64 division (R134). -/
  | ddiv (w : Fields)
  /-- Rounds an FP64 value to an integral value (R136). -/
  | drnd (w : Fields)
  /-- Packed BF16 or FP16 add (R141). -/
  | fadd2 (w : Fields)
  /-- Packed multiply (R141). -/
  | fmul2 (w : Fields)
  /-- Packed fused multiply-add (R141). -/
  | ffma2 (w : Fields)
  /-- Packed minimum (R141). -/
  | fmin2 (w : Fields)
  /-- Packed maximum (R141). -/
  | fmax2 (w : Fields)
  /-- Converts between integer and floating-point formats (R143). -/
  | cvt (w : Fields)
  /-- Packs twenty trits into four bytes (R144). -/
  | tripck (w : Fields)
  /-- Unpacks four ternary bytes into twenty trits (R144). -/
  | triunp (w : Fields)
  /-- Short-form copy of register A to D (R148). -/
  | movShort (a : BitVec 8) (d : BitVec 8) (u : Bool) (y : Bool)
  /-- Extended move from a register, a uniform source or an immediate (R148). -/
  | mov (w : Fields)
  /-- Writes the literal to the destination (R149). -/
  | movi (w : Fields)
  /-- Selects A or B by a predicate (R150). -/
  | sel (w : Fields)
  /-- Any function of three predicates (R152). -/
  | pmix (w : Fields)
  /-- Writes n predicates from the bits of a value (R151). -/
  | pset (w : Fields)
  /-- Gathers n predicates into a register (R151). -/
  | pget (w : Fields)
  /-- Collects a predicate over the participants into a uniform register (R153). -/
  | pcol (w : Fields)
  /-- Reads each participant's value from another thread's register (R154). -/
  | gswz (w : Fields)
  /-- Reads one thread's register into a uniform register (R155). -/
  | rdth (w : Fields)
  /-- Writes a uniform value to one thread's register (R155). -/
  | wrth (w : Fields)
  /-- Reduction over the participants in thread order (R156). -/
  | gred (w : Fields)
  /-- Inclusive or exclusive scan over the participants (R157). -/
  | gscan (w : Fields)
  /-- Per-thread load from generic addresses, including the .split miss form of R214 (R213). -/
  | ld (w : Fields)
  /-- Per-thread store to generic addresses (R213). -/
  | st (w : Fields)
  /-- Per-thread load from the team's scratchpad offset (R215). -/
  | lds (w : Fields)
  /-- Per-thread store to the team's scratchpad offset (R215). -/
  | sts (w : Fields)
  /-- One load for the fibre into uniform registers (R216). -/
  | ldu (w : Fields)
  /-- One store for the fibre from uniform registers (R216). -/
  | stu (w : Fields)
  /-- Atomic add at the home that returns the old value (R218). -/
  | aadd (w : Fields)
  /-- Atomic minimum (R218). -/
  | amin (w : Fields)
  /-- Atomic maximum (R218). -/
  | amax (w : Fields)
  /-- Atomic and, or or exclusive or (R218). -/
  | alog (w : Fields)
  /-- Atomic exchange (R218). -/
  | axchg (w : Fields)
  /-- Atomic compare-and-swap (R218). -/
  | acas (w : Fields)
  /-- Atomic floating-point add, rounded at the home (R218). -/
  | afadd (w : Fields)
  /-- Release, acquire or full fence at a scope, which drains the write-combining buffer at package scope or wider (R220). -/
  | fence (w : Fields)
  /-- Prefetches lines into L1 and never faults (R221). -/
  | pf (w : Fields)
  /-- Invalidates a range of the core's L1, or all of it (R222). -/
  | cctl (w : Fields)
  /-- Invalidates instruction-cache blocks of a range, or all of them (R223). -/
  | icinv (w : Fields)
  /-- Release add to a counter at its home, which re-evaluates the home's waiters (R345). -/
  | cadd (w : Fields)
  /-- Waits until a counter satisfies a threshold (R346). -/
  | cwait (w : Fields)
  /-- Uniform counter wait with a deadline on the timebase (R347). -/
  | cwaitd (w : Fields)
  /-- Tests a counter threshold once, without waiting (R348). -/
  | cpoll (w : Fields)
  /-- Reads a counter's 64-bit value (R348). -/
  | cread (w : Fields)
  /-- Arms a host waiter on a local memory counter (R350). -/
  | carm (w : Fields)
  /-- Sets a counter when no waiter is registered on it, and otherwise traps counter-busy (R349). -/
  | cinit (w : Fields)
  /-- Waits until at most n operations of an engine class are outstanding (R351). -/
  | ewait (w : Fields)
  /-- Reads the engine counts of a class (R351). -/
  | eread (w : Fields)
  /-- Copies a tensor box between a handle and scratchpad or a tile (R280). -/
  | cpt (w : Fields)
  /-- Copies bytes between endpoints (R281). -/
  | cpl (w : Fields)
  /-- Gathers indexed rows into scratchpad (R282). -/
  | cpg (w : Fields)
  /-- Scatters scratchpad rows to indexed rows (R282). -/
  | cps (w : Fields)
  /-- Expands ternary rows to scaled BF16 (R283). -/
  | cpx (w : Fields)
  /-- Reads out an accumulator rectangle, converts it and writes it (R284). -/
  | cpa (w : Fields)
  /-- Copies local bytes to a destination address in any aperture (R285). -/
  | cpr (w : Fields)
  /-- Fills a destination with a 64-bit pattern (R286). -/
  | cpz (w : Fields)
  /-- Invalidates record-cache entries of a handle, or of the whole launch, across a scope (R287). -/
  | rflush (w : Fields)
  /-- Claims a range of free tiles (R242). -/
  | tclaim (w : Fields)
  /-- Releases a range of claimed tiles once no queued MMA reads them (R242). -/
  | trel (w : Fields)
  /-- Claims a range of accumulator regions with a tag (R242). -/
  | aclaim (w : Fields)
  /-- Releases a range of regions once the operations on them and any CPA read phase have ended (R242). -/
  | arel (w : Fields)
  /-- Queues a tile product that is added into an accumulator rectangle (R245). -/
  | mma (fam : MmaFamily) (w : Fields)
  /-- Queues a scaled accumulate of a partial rectangle into an output rectangle (R247). -/
  | asa (w : Fields)
  /-- Queues the zeroing of a range of regions (R248). -/
  | azero (w : Fields)
  /-- Reads accumulator cells into registers (R252). -/
  | ard (w : Fields)
  /-- Writes registers into accumulator cells (R252). -/
  | awr (w : Fields)
  /-- Queues a row reduction of a rectangle into a destination column (R250). -/
  | ared (w : Fields)
  /-- A fetched word with an unassigned opcode takes a precise illegal-instruction trap (R71). -/
  | illegalInstruction (bits : BitVec 160)
  /-- A slot whose starvation count reaches 2^16 is raised above all priorities for its next instruction (R25). -/
  | starvationRaise (core lane slot : Nat)
  /-- The slot watchdog count reaches 2^WDT and the holding fibre traps at its next boundary (R31). -/
  | watchdog (core lane slot : Nat)
  /-- A variable-latency result arrives at its register, readying waiting readers and miss splits (R29). -/
  | variableLatencyResult (fib : FibreRef) (k : Nat)
  /-- Fibre-command action 1 re-issues the frozen instruction (R359). -/
  | fibreResume (col token : Nat)
  /-- Fibre-command action 2 converts the fault into handler entry (R359). -/
  | fibreConvert (col token : Nat)
  /-- Fibre-command action 3 terminates the launch (R359). -/
  | fibreTerminate (col token : Nat)
  /-- A 128-byte submission store is checked and answered with a receipt (R258). -/
  | launchSignal (op : LaunchSignalOp)
  /-- The dispatcher places a team whole once it fits (R33). -/
  | teamPlacement (p : Placement)
  /-- A lower-priority team is stopped and saved to the save pool (R38). -/
  | preEmption (team : TeamRef)
  /-- A saved team is reloaded on a core and its waits are re-registered (R39). -/
  | teamRestore (p : Placement)
  /-- A copy takes a request-queue entry when one frees, writes its promise and starts (R261). -/
  | copyRequestStart (core : Nat)
  /-- Once every source byte has been read, the copy's release counter is added to (R263). -/
  | copyReleaseAdd (core req : Nat)
  /-- Once every write is visible, the completion counter is added to and the promise miss is counted (R263). -/
  | copyCompletion (core req : Nat)
  /-- The next copy-schedule entry issues when its stage-counter gate is satisfied (R265). -/
  | scheduleEntryIssue (team : TeamRef)
  /-- Replay command 1 re-translates and replays the parked elements (R268). -/
  | replayRelease (core entry : Nat)
  /-- Replay command 2 terminates the launch (R268). -/
  | replayTerminate (core entry : Nat)
  /-- CPA reads its rectangle into staging after the prior operations on those cells (R236). -/
  | cpaReadPhase (core req : Nat)
  /-- The matrix engine starts the next queued entry (R232). -/
  | engineOpStart (core : Nat)
  /-- A queued engine operation makes its last cell write and counts as completed (R233). -/
  | engineOpComplete (core : Nat)
  /-- A write-combining line reaches its ageing time and drains (R269). -/
  | wcAgeingDrain (core : Nat)
  /-- The answer word rises and the result reaches the thread's register (R364). -/
  | syscAnswer (fib : FibreRef) (thread : Nat)
  /-- A held event of kind 1, 2 or 3 is written once the ring has room (R273). -/
  | heldEventWrite (col : Nat)
  /-- A satisfied wait's wake-up reaches the waiting fibre or split, which becomes ready (R328). -/
  | waitWakeup (k : Nat)
  /-- A waiter left unregistered by a full list reads the counter again after its backoff (R329). -/
  | pollRetry (k : Nat)
  /-- A CWAITD's deadline is reached before its wake-up and the fibre traps (R347). -/
  | promiseMissed (fib : FibreRef)
  /-- A sleeping split's deadline is reached and it becomes ready (R303). -/
  | sleepWake (fib : FibreRef) (split : Nat)
  /-- A hart takes a user event into uevp or into the user-event table (R397). -/
  | userEventDelivery (hart : Nat)
  /-- A U-mode hart with a pending enabled event jumps to uevt (R397). -/
  | userEventInterrupt (hart : Nat)
  /-- Atomically exchanges the pending events between the old ASID's entry and the new ASID's entry (R397). -/
  | uevasidWrite (hart : Nat) (value : DWord)
  /-- A lodge-hart access to a poisoned sector raises a hardware-error exception (R398). -/
  | lodgePoisonConsumption (hart : Nat) (pa : Nat)
  /-- A walk that missed both TLBs completes and fills its waiting accesses (R172). -/
  | translationWalk (core : Nat) (asid : Nat) (root : Nat) (va : DWord)
  /-- A lodge SFENCE.VMA shoots down device TLB entries and waits for in-flight accesses (R174). -/
  | sfenceVma (asid : Option Nat) (va : Option DWord)
  /-- An insole bank idle for BIDLE ticks enters retention sleep (R417). -/
  | insoleBankSleep (col bank : Nat)
  /-- A core idle for GIDLE ticks is power-gated (R416). -/
  | coreGate (core : Nat)
  /-- Scrub reads a unit through its code and corrects or poisons it (R420). -/
  | scrubVisit (col : Nat) (level : ScrubLevel) (place : Nat) (found : ScrubFinding)
  /-- The background tester checks a shank row and moves failing rows to spares (R418). -/
  | shankTestRow (col shank : Nat) (failing : Bool)
  /-- The tester resumes a shank 10 µs after the last demand access to it (R418). -/
  | shankTestResume (col : Nat)
  /-- The spare path fails, NOSP is set and the tester halts (R418). -/
  | sparePathFailure (col : Nat)
  /-- Every 5,000 ticks, permits are granted or refused and operating points are set (R412). -/
  | boostBoundary (drawMilliwatt : Nat)
  /-- At the end of a 50,000-tick window, one permit may return to the pool (R413). -/
  | permitRefill (meanDrawMilliwatt : Nat)
  /-- The column governor samples temperature once per µs and may step (R414). -/
  | governorSample (col temp : Nat)
  /-- A write to GOVCTL sets the boost request and the throttle floor, stepping L up to LMIN at once (R414). -/
  | govctlWrite (col : Nat) (value : DWord)
  /-- A write to TTRIP is ignored whole unless TDN < TUP < TCRIT (R411). -/
  | ttripWrite (col : Nat) (value : DWord)
  /-- A droop sample; 16 consecutive excess samples cap the column to intermediate (R415). -/
  | supplyDroopSample (col drop : Nat)
  /-- A write to EVSIZE or SCSIZE stores illegal sizes as 0, which disables the ring (R395). -/
  | ringSizeWrite (col : Nat) (sysc : Bool) (value : DWord)
  /-- A write to SPBASE or SPSIZE takes effect only while the pool is empty (R395). -/
  | savePoolWrite (col : Nat) (size : Bool) (value : DWord)
  /-- A write to a register with no row of its own, under its access codes (R10). -/
  | registerWrite (reg : DeviceReg) (value : DWord)
  /-- Checkpoint command 1 schedules a capture at T0 (R424). -/
  | ckcmdCapture (sole : Nat)
  /-- Checkpoint command 2 restores the images to their homes (R426). -/
  | ckcmdRestore (sole : Nat)
  /-- At T0 every page of every valid range becomes protected (R424). -/
  | captureT0 (sole : Nat)
  /-- An NVMe command completes; the last one adds 1 to CKCNT (R424). -/
  | nvmeCommandCompletion (sole : Nat) (ok : Bool) (data : List Byte)
  /-- An NVMe command not complete within 10 s fails the operation (R425). -/
  | nvmeTimeout (sole : Nat)
  /-- An inbound PCIe memory request reaches HBM through its home slice (R399). -/
  | pcieInboundRequest (port addr : Nat) (op : OuterOp)
  /-- A remote request from another package is performed at this package's home (R170). -/
  | peerRequest (pkg addr : Nat) (op : OuterOp)
  /-- A wake-up message from a peer home satisfies a remote wait (R335). -/
  | remoteWakeup (k : Nat)
  /-- A port goes down and its classes move to another route (R401). -/
  | ualinkPortDown (port : Nat)
  /-- LOSTTO passes, and outstanding requests on the old route are declared lost (R401). -/
  | lostTimeout (port : Nat)
  /-- A lodge-hart load, store, AMO, LR/SC or FENCE acts on device-visible memory: an AMOADD.D on a counter word is a package-scope CADD, and any other write sets the value and re-evaluates waiters (R334). -/
  | lodgeHartMemoryAccess (hart addr : Nat) (op : OuterOp)
  /-- A wait on device counter 0 (timebase) or 1 (core cycles) becomes satisfied as the counter advances by itself (R352). -/
  | timebaseWaitSatisfied (k : Nat)
  /-- A copy finishes writing a 128-byte scratchpad line and clears its pending bit, releasing the accesses that wait on that line (R163). -/
  | pendingBitClear (core req : Nat)
  /-- A PCIe port's link goes down, so that outbound accesses through it fault not backed and checkpoint commands on it fail with code 4 (R399). -/
  | pcieLinkDown (port : Nat)
  /-- A PCIe port's link returns to service, so that accesses through it proceed again (R399). -/
  | pcieLinkUp (port : Nat)
  /-- When the owning process's address space is torn down, its host waiters are withdrawn (R336). -/
  | addressSpaceTeardown (asid : Nat)
  /-- A hello is verified and recorded, possibly causing abdication or a new election (R407). -/
  | helloReceived (h : Hello)
  /-- A follower stores its entries invalid and acknowledges them (R407). -/
  | entriesReceived (leader : Nat) (entries : List ScopeDraft)
  /-- The leader sends a commit once every member has acknowledged (R407). -/
  | entryAckReceived (pkg : Nat)
  /-- A pavilion sets its scope-entry valid bits and GEN (R407). -/
  | commitReceived (gen : Nat)
  /-- A follower clears its entries on its leader's abdication (R408). -/
  | abdicationReceived (leader : Nat)
  /-- A leader that receives a merge request starts an election (R408). -/
  | mergeRequestReceived (pkg : Nat) (members : List Nat)
  /-- The pavilion runs the start sequence, or enters minimal mode (R404). -/
  | packageReset (facts : StartFacts)
  /-- The pavilions re-attest and install a new key pair, unlocking the port (R402). -/
  | linkReattest (port : Nat)
  /-- A GCM tag failure replays the flit once; a second failure locks the port (R402). -/
  | flitTagFailure (port : Nat) (replayed : Bool)
  /-- A port comes back and its classes move back (R401). -/
  | portRestored (port : Nat)
  /-- The checkpoint engine finishes copying a protected page into the reserve, which ends its protection, and the waiting writes proceed (R424). -/
  | reserveCopyComplete (sole page : Nat)
  /-- The pavilion copies a region to a spill slot and switches its map entry (R321). -/
  | regionDisplacement (region : Nat)
  /-- A region with no free spill slot is marked lost (R321). -/
  | regionLoss (region : Nat)
  /-- The copy of a displacing insole region ends, and its map entry switches from 01 to 10, releasing the copies that waited (R176). -/
  | displacementSwitch (region : Nat)
  /-- Returns from a user-event handler (R397). -/
  | uevret
  /-- A pavilion clears its scope entries and starts electing (R407). -/
  | electionStart
  /-- The leader's heartbeat has been missing for 1 s, which starts an election (R407). -/
  | heartbeatTimeout
  /-- No commit has arrived within 5 s of the election start, which restarts it (R407). -/
  | commitTimeout
  /-- After 2 s the lowest verified ID becomes leader and builds and sends the entries (R407). -/
  | helloPeriodEnd
  /-- The start watchdog expires before BOOTDONE, which is a failed start (R404). -/
  | startWatchdogExpiry
  /-- A write of 1 completes the start and clears FSC (R404). -/
  | bootdone
  /-- A follower's pavilion receives its leader's heartbeat, which restarts the 1 s missing-heartbeat timer (R407). -/
  | leaderHeartbeat
  deriving DecidableEq, Repr

end Sys2Proof
end

