-- ==== Sys2Proof/Machine/State.lean ====
section
/-!
DEFINITION. The state of a ZWL-4A package as plain data, the reasons a step can stop, and the state after
package reset. Sizes and reset values are those of the rule each field cites; a field marked "model" is the
model's own (NOTES.md, Assumptions).
-/
namespace Sys2Proof.Machine

/-- Why a step of the machine stops for good. DEDUCED, safe (log 11). -/
inductive Fault where
  /-- The package is held in reset and its pavilion has stopped (R404, step 1). Raised by every step of that
  package. Safe: nothing runs on the hardware either. -/
  | packageHeld
  deriving DecidableEq, Repr

/-- Why the model gives a step no meaning. DEDUCED, safe (log 11). -/
inductive Refusal where
  /-- A row of the opcode table without a meaning in Dispatch.lean. Safe. -/
  | notModelled (mnemonic : String)
  /-- Raised by a lodge hart's own step at a word of the base RISC-V set, which Table 0.1 names and the spec does not
  contain. Safe: the run stops where the hardware goes on. -/
  | lodgeBaseIsa
  deriving DecidableEq, Repr

/-! ## Fibres -/

/-- A register of a fibre, or of its slot. -/
inductive RegRef where
  /-- vector register n of thread t -/
  | vec (n t : Nat)
  | uni (n : Nat)
  /-- predicate n of thread t -/
  | pred (n t : Nat)
  deriving DecidableEq, Repr

/-- A value on its way to a register; a vector register takes its low 32 bits, a predicate its bit 0. -/
structure RegWrite where
  reg : RegRef
  value : DWord
  deriving DecidableEq, Repr

/-- What a load of a peer's bytes needs to be issued again when it is lost (R401): opcode and fields, by thread the locations
and lengths that it reads, the bytes among them that its core's own stores gave it, and CPOLL's thresholds. -/
structure Reload where
  op : Nat
  w : Fields
  runs : List (Nat × List (Nat × Nat))
  own : Sparse (Option Byte) := []
  thr : Sparse DWord := []
  deriving DecidableEq, Repr

/-- A variable-latency result that has not reached its registers (R29). -/
structure Pending where
  id : Nat
  writes : List RegWrite
  /-- flags that the result ORs into FFLAGS when it is written (R82) -/
  flags : BitVec 5
  /-- of a floating-point or conversion instruction (R82) -/
  float : Bool := false
  /-- its requests to peers: location, and whether it changes memory there (R400, R401) -/
  remote : List (Nat × Bool) := []
  /-- core cycle at which a fixed-latency result raises its flags; none: the latency is variable (R82, R132) -/
  due : Option Nat := none
  /-- address of its instruction (R366) -/
  pc : DWord := 0
  /-- of a load of peers' bytes -/
  reload : Option Reload := none
  deriving DecidableEq, Repr

/-- The value a register held before a fixed-latency producer whose issue distance a reader has not reached
(R28). Thread 64 stands for the uniform stream. -/
structure Early where
  reg : RegRef
  old : DWord
  /-- issue distance still missing -/
  left : Nat
  deriving DecidableEq, Repr

/-- A fixed-latency result on its way to a shared register (R75). -/
structure Arrival where
  cycle : Nat
  write : RegWrite
  deriving DecidableEq, Repr

/-- ST of a split entry (Table 16.1); free entries are not listed. -/
inductive SplitState where
  | ready | running | parked | arrived | parent
  deriving DecidableEq, Repr

/-- What a parked split waits for. -/
inductive Park where
  | none
  /-- outstanding results by number (R29, R214) -/
  | results (ids : List Nat)
  /-- a per-thread CWAIT: threads not yet satisfied, killed ones, and the instruction (R330, R346) -/
  | threads (left : Mask) (killed : Mask) (op : Nat) (w : Fields)
  /-- SLEEP (R303) -/
  | sleep
  /-- a fence or release, until the remote stores of some cores are all acknowledged (R196, R220) -/
  | acks (cores : List Nat)
  /-- model: a wait that has ended, whose SPLIT the split has still to make: the threads that take the branch, and the
  instruction (R297, R330) -/
  | finished (yes : Mask) (op : Nat) (w : Fields)
  deriving DecidableEq, Repr

/-- A split entry (Table 16.1). The list of a tree is in order of creation, oldest first (R290). -/
structure Split where
  idx : Nat
  mask : Mask
  pc : DWord
  /-- all ones: none -/
  rpc : DWord
  /-- 127: none -/
  par : Nat
  st : SplitState
  miss : Bool
  yld : Bool
  slp : Bool
  kids : Nat
  sig : Word
  dl : DWord
  /-- model: what ends a park -/
  park : Park
  /-- hardware entry 0 to 15, none while spilled (R291) -/
  hw : Option Nat
  /-- the instruction at pc has been hashed already, and its distance tested (R309, R358, R372) -/
  again : Bool
  /-- its CWAITD has met the promise-missed trap since, so that its distances are tested anew (R347) -/
  missed : Bool := false
  deriving DecidableEq, Repr

/-- The divergence state that a trap freezes (R83, R309, R357). -/
structure Frozen where
  splits : List Split
  fsig : Word
  /-- index of the interrupted split -/
  run : Nat
  /-- entries that exits inside the handler have left without a thread (R362) -/
  emptied : List Nat := []
  deriving DecidableEq, Repr

/-- The uniform wait of a fibre (R89, R330): kind 1 CWAIT, 2 CWAITD, 3 EWAIT. -/
structure UniformWait where
  kind : Nat
  counterKind : Nat
  operand : DWord
  threshold : DWord
  deadline : DWord
  op : Nat
  w : Fields
  /-- FSIG before the instruction was hashed; none when it is issued again -/
  sig : Option Word
  deriving DecidableEq, Repr

/-- Why the running split of a fibre cannot issue, beside its splits' own parks. -/
inductive Hold where
  | none
  /-- a uniform wait (R330) -/
  | wait (u : UniformWait)
  /-- the matrix queue is full (R232), or operations must end first (R234) -/
  | engine
  /-- the copy request queue is full (R261) -/
  | copyQueue
  /-- no room in the save pool (R291) -/
  | savePool
  /-- arrived at TCKPT (R369) -/
  | checkpoint
  /-- SYSC with results missing (R364) -/
  | syscall
  /-- CARM: the list at the counter's home is full (R350) -/
  | homeList
  /-- a remote request whose class moves to another port (R401) -/
  | fabric
  deriving DecidableEq, Repr

/-- What a trap reports: cause, TINFO, threads, addresses by thread, and the address of the instruction (R357). -/
structure TrapInfo where
  cause : Nat
  info : DWord := 0
  mask : Mask := 0
  addrs : Sparse DWord := []
  pc : DWord
  deriving DecidableEq, Repr

/-- A SYSC under way: its address, its signature before it was hashed, participants without an entry yet,
and the entries that wait for their answers by thread and location (R270, R364, R367). -/
structure SyscRun where
  pc : DWord
  sig : Word
  todo : Mask
  entries : List (Nat × Nat)
  w : Fields
  number : BitVec 16
  deriving DecidableEq, Repr

/-- A fibre frozen for the lodge core (R359). -/
structure LodgeFreeze where
  token : Nat
  cause : Nat
  info : DWord
  mask : Mask
  /-- faulting address by thread -/
  addrs : Sparse DWord
  pc : DWord
  deriving DecidableEq, Repr

/-- Engine counters of a fibre (R322). -/
structure EngineCounts where
  copyI : DWord := 0
  copyC : DWord := 0
  matI : DWord := 0
  matC : DWord := 0
  remI : DWord := 0
  remC : DWord := 0
  sysI : DWord := 0
  sysC : DWord := 0
  deriving DecidableEq, Repr

/-- A fibre (R19, R73, R81, R289, R322). -/
structure Fibre where
  fid : Nat
  /-- private vector registers, register n of thread t at key 64 n + t (R20) -/
  v : Sparse Word := []
  /-- s0 to s31 -/
  s : Sparse DWord := []
  /-- p0 to p95, one mask each -/
  p : Sparse Mask := []
  fpri : BitVec 4
  fsig : Word := 0
  fflags : BitVec 5 := 0
  tvec : DWord
  tpc : DWord := 0
  tcause : DWord := 0
  tinfo : DWord := 0
  tmask : DWord := 0
  taddr : Sparse DWord := []
  splits : List Split
  /-- index of the split that ran last (R358) -/
  last : Nat := 0
  /-- present: HND = 1 (R357) -/
  frozen : Option Frozen := none
  /-- spill block and handler spill block (R291) -/
  spill : Option Nat := none
  hspill : Option Nat := none
  counts : EngineCounts := {}
  hold : Hold := .none
  lodge : Option LodgeFreeze := none
  /-- a handler entry that waits for room in the save pool (R291) -/
  entering : Option TrapInfo := none
  sysc : Option SyscRun := none
  /-- an opened checkpoint lets the waiting TCKPT pass (R369); the second flag: after a rollback (R372) -/
  ckptPass : Bool := false
  ckptBack : Bool := false
  outstanding : List Pending := []
  early : List Early := []
  /-- `%ccyc` when the column counted `ccycFrom` core cycles (R77) -/
  ccycBase : Nat := 0
  ccycFrom : Nat := 0
  /-- a parity error was found in the instruction that issues next; consecutive failures (R374) -/
  replays : Nat := 0
  exited : Bool := false
  deriving DecidableEq, Repr

/-- A group in its slot (R16, R20, R84). -/
structure Group where
  gid : Nat
  core : Nat
  lane : Nat
  slot : Nat
  base : Nat
  holder : Option Nat := some 0
  /-- core cycle from which its holder may issue (R21) -/
  since : Nat := 0
  fibres : List Fibre
  /-- shared vector window, register 192 + k of thread t at key 64 k + t -/
  sv : Sparse Word := []
  /-- s32 to s63 at their own numbers -/
  ss : Sparse DWord := []
  /-- slot counters c0 to c3 (R322) -/
  ctr : Sparse DWord := []
  arrivals : List Arrival := []
  /-- R25 -/
  starve : Nat := 0
  raised : Bool := false
  /-- R31 -/
  watch : Nat := 0
  retired : Bool := false
  deriving DecidableEq, Repr

/-! ## Teams -/

/-- Tag of a claimed region (R87, R229). -/
inductive Tag where
  | fp32 | fp64 | int32
  deriving DecidableEq, Repr

/-- A unit of a team that the journal and the error marks name (R370, R375). -/
inductive UnitRef where
  /-- shared or private vector register n of fibre fid in group gid, all threads -/
  | vec (gid fid n : Nat)
  /-- 128-byte scratchpad line at an offset -/
  | line (off : Nat)
  /-- 128-byte unit of an operand slot; units 64 to 71 are the exponent plane -/
  | slotUnit (slot unit : Nat)
  /-- 64-cell accumulator row of a region -/
  | row (region row : Nat)
  /-- global counter word at a location -/
  | word (loc : Nat)
  /-- uniform register n of fibre fid in group gid (fibre 4: shared), and predicate n of a fibre (R375) -/
  | uni (gid fid n : Nat)
  | pred (gid fid n : Nat)
  /-- split entry of a fibre (R419) -/
  | split (gid fid idx : Nat)
  /-- the undo journal (R373) -/
  | journal
  /-- a line of the write-combining buffer of a core, and an entry of the launch queue (R419) -/
  | wcLine (core loc : Nat)
  | launchEntry (seq : Nat)
  /-- entries of the copy request queue, the replay queue and the matrix queue of a core (R375) -/
  | copyEntry (core idx : Nat)
  | replayEntry (core idx : Nat)
  | engineEntry (core num : Nat)
  deriving DecidableEq, Repr

/-- A journal entry: a unit and its old contents, lowest first (R370). -/
structure JournalEntry where
  unit : UnitRef
  old : List (BitVec 64)
  deriving DecidableEq, Repr

/-- The opening record of one group (R369). -/
structure OpeningGroup where
  gid : Nat
  fibres : List Fibre
  ss : Sparse DWord
  ctr : Sparse DWord
  deriving DecidableEq, Repr

/-- A checkpoint interval (R369 to R372). -/
structure Interval where
  unsafeMark : Bool := false
  /-- an entry did not fit: journalling has stopped -/
  stopped : Bool := false
  used : Nat := 0
  /-- newest first -/
  entries : List JournalEntry := []
  groups : List OpeningGroup
  slots : List Nat
  regions : Sparse Tag
  rollbacks : Nat := 0
  deriving DecidableEq, Repr

/-- A claim or release instruction that waits: its fibre, whether it names regions, first item, count (R242). -/
structure Release where
  fib : FibreRef
  region : Bool
  first : Nat
  count : Nat
  /-- the wait has ended and the items are free, though the instruction has not issued again (R242) -/
  freed : Bool := false
  deriving DecidableEq, Repr

/-- A resident team (R14 to R16, R160, R225, R229). -/
structure Team where
  ref : TeamRef
  /-- lower core of its core or pair -/
  core : Nat
  groups : List Group
  /-- scratchpad bytes of the window, journal excluded (R160); unlisted zero (R162) -/
  scratch : List Host.Cell := []
  /-- scratchpad lines with their pending bit set (R163) -/
  pendingLines : List Nat := []
  /-- byte b of slot n at 16384 n + b: data plane from 0, exponent plane from 8192 (R177) -/
  slotBytes : List Host.Cell := []
  /-- claimed tiles (R225), a releasing one included -/
  tiles : List Nat := []
  /-- TREL and AREL that wait (R242) -/
  releases : List Release := []
  /-- TCLAIM and ACLAIM that wait, in the order in which they issued (R243) -/
  claims : List Release := []
  /-- copy-schedule entries that the replay has reached, as they were fetched (R265) -/
  schedule : Sparse (List Byte) := []
  /-- accumulator cell [row, col] at 256 row + col (R229) -/
  cells : Sparse Word := []
  /-- claimed regions with their tags -/
  regions : Sparse Tag := []
  interval : Option Interval := none
  /-- units marked by an uncorrectable error (R375, R419) -/
  marked : List UnitRef := []
  /-- a rollback waits for the team's copies (R372) -/
  rolling : Bool := false
  deriving DecidableEq, Repr

/-! ## Launches -/

/-- A fibre-table entry (R19, R259). -/
structure FibreEntry where
  entry : DWord
  priv : Nat
  pri : Nat
  deriving DecidableEq, Repr

/-- What a launch takes from its record and its line (R256, R259). -/
structure Kernel where
  width : Nat
  groups : Nat
  fibres : List FibreEntry
  /-- shared window size in registers -/
  shared : Nat
  coresident : Bool
  pair : Bool
  check : Bool
  rollback : Bool
  signatures : Bool
  ntx : Nat
  nty : Nat
  ntz : Nat
  scratchBytes : Nat
  slots : Nat
  regions : Nat
  policy : Nat
  policyCol : Nat
  tvec : DWord
  recTable : DWord
  recCount : Nat
  schedCount : Nat
  sched : DWord
  pttDir : DWord
  pttCount : Nat
  args : DWord
  pri : Nat
  evc : Bool
  npe : Bool
  deriving DecidableEq, Repr

/-- A launch in its launch-queue entry (R260). -/
structure Launch where
  seq : Nat
  /-- submitting column -/
  col : Nat
  kernel : Kernel
  asid : Nat
  /-- physical page number of the page-table root (R159) -/
  root : Nat
  privileged : Bool
  /-- location and threshold of the gate; none: no gate or satisfied -/
  gate : Option (Nat × DWord)
  /-- location, address and increment of the completion counter -/
  done : Option Nat
  cadr : DWord
  cinc : BitVec 32
  /-- teams placed so far, in team order (R33) -/
  placed : Nat := 0
  /-- column of the team placed last (policy ANY) -/
  lastCol : Option Nat := none
  /-- cores on which its teams have been placed (R198) -/
  cores : List Nat := []
  retired : Nat := 0
  /-- device counters 6 to 8 (R324) -/
  substitutions : DWord := 0
  formatErrors : DWord := 0
  promiseMisses : DWord := 0
  /-- its entry is marked by an uncorrectable error (R419) -/
  marked : Bool := false
  deriving DecidableEq, Repr

/-! ## Cores -/

/-- A queued matrix-engine operation (R232). -/
structure EngineOp where
  /-- number in the order of the queue -/
  num : Nat
  fib : FibreRef
  op : Nat
  w : Fields
  /-- address of its instruction (R366) -/
  pc : DWord := 0
  /-- core cycle and lane of its issue: entries of one cycle stand in order of lanes (R232) -/
  cycle : Nat := 0
  lane : Nat := 0
  started : Bool := false
  /-- issued before the open interval's TCKPT: its writes are not journalled (R370) -/
  old : Bool := false
  /-- core cycle at which its occupancy ends, once started -/
  endCycle : Nat := 0
  /-- bytes of the tile slots as the occupancy found them: A (or ASA's scale tile), then B -/
  tileA : List Host.Cell := []
  tileB : List Host.Cell := []
  /-- units of the A and B tiles that a fill changed meanwhile, with what it wrote -/
  fresh : List (Nat × Nat × List Host.Cell) := []
  deriving DecidableEq, Repr

/-- A copy command, from an instruction or a schedule entry (R264, R274 to R287). -/
structure CopyCmd where
  op : Nat
  f : BitVec 4
  /-- M[2:0] -/
  m : BitVec 3
  scope : BitVec 3
  w0 : DWord
  w1 : DWord
  w2 : DWord
  /-- counter addresses, 0: none -/
  rel : DWord
  comp : DWord
  relInc : BitVec 32
  compInc : BitVec 32
  deriving DecidableEq, Repr

/-- Where a run of a copy lies: a virtual address, scratchpad, the insole store, a slot; `beyond` lies past the
tensor's length (R281). -/
inductive Place where
  | va (a : Nat)
  | scratch (off : Nat)
  | insole (o : Nat)
  | slotByte (slot off : Nat)
  | beyond (a : Nat)
  deriving DecidableEq, Repr

/-- A piece of a copy's destination: its bytes, the bits of each byte that it writes (empty: all), and whether it
carries poison on. -/
structure Piece where
  place : Place
  bytes : List Byte
  mask : List Byte := []
  poison : Bool := false
  /-- its place in the order of the request's pieces (R282) -/
  num : Nat := 0
  deriving DecidableEq, Repr

/-- A source run that has been read: its number, its bytes and the offsets of poisoned ones it carries. -/
structure ReadRun where
  num : Nat
  bytes : List Byte
  poison : List Nat := []
  deriving DecidableEq, Repr

/-- Who issued a copy. -/
inductive CopyOrigin where
  /-- a fibre, with its position in issue order within its class -/
  | fibre (f : FibreRef) (pos : Nat)
  | entry (k : Nat)
  deriving DecidableEq, Repr

/-- A request of the copy request queue (R261 to R263). -/
structure CopyReq where
  /-- entry of the queue, 0 to 31 -/
  idx : Nat
  team : TeamRef
  origin : CopyOrigin
  /-- address of the instruction that issued it; 0 for a schedule entry (R366) -/
  pc : DWord := 0
  cmd : CopyCmd
  /-- locations of the counters, found at issue -/
  relLoc : Option (Nat ⊕ Nat)
  compLoc : Option (Nat ⊕ Nat)
  /-- a shoot-down has ended the translation of one of them (R174) -/
  stale : Bool := false
  promise : Nat
  /-- layout records read at issue, in operand order -/
  recs : List (List Byte) := []
  /-- engine operations that took their entries before it: those with smaller numbers (R235) -/
  mark : Nat
  /-- CPA: the elements of its rectangle and their tag, once read into staging (R236) -/
  staged : Option (Tag × List DWord) := none
  /-- CPG, CPS: the index list, once read -/
  index : Option (List Byte) := none
  /-- source runs read so far, and those that are parked -/
  reads : List ReadRun := []
  held : List Nat := []
  /-- poisoned sectors already counted as substituted (R179) -/
  counted : List Nat := []
  /-- every source byte has been read and the release add made -/
  released : Bool := false
  /-- pieces still to write -/
  pieces : List Piece := []
  /-- numbers of the pieces that have become ready before every source byte was read (R267) -/
  early : List Nat := []
  /-- regions of the insole store it has touched (R320) -/
  owned : List Nat := []
  /-- issued before the open interval's TCKPT (R370) -/
  old : Bool := false
  completed : Bool := false
  /-- an element of it faulted while all 16 replay entries were taken (R267) -/
  halted : Bool := false
  deriving DecidableEq, Repr

/-- A fibre's copy or a schedule entry that waits for a request-queue entry; `granted`: an entry has freed for it
(R261). -/
structure CopyWaiter where
  team : TeamRef
  fib : Option FibreRef
  k : Nat
  since : Nat
  granted : Bool := false
  deriving DecidableEq, Repr

/-- An entry of the replay queue (Table 14.7). -/
structure ReplayEntry where
  idx : Nat
  unrepairable : Bool
  cause : Nat
  reason : Nat
  opcode : Nat
  team : TeamRef
  addr : DWord
  origin : CopyOrigin
  core : Nat
  gid : Nat
  elements : Nat
  /-- page or region that its elements share -/
  unit : Nat
  /-- core and request-queue entry of its request; none: the fetch of a schedule entry -/
  req : Option (Nat × Nat)
  /-- source runs and destination pieces parked -/
  runs : List Nat := []
  pieces : List Piece := []
  /-- a counter add whose address does not translate any more -/
  counter : Bool := false
  deriving DecidableEq, Repr

/-- A byte of a buffered line: its offset, and the team whose store it comes from. -/
structure WcByte where
  off : Nat
  val : Byte
  team : TeamRef
  deriving DecidableEq, Repr

/-- A line of the write-combining buffer: location of its first byte, bytes held, the teams and numbers of the stores
merged into it (a store of several lines has one number, R403), tick of entry, ageing time in ticks (R269); once sent to
a peer, the port it went by, none while its class moves (R401). -/
structure WcLine where
  loc : Nat
  bytes : List WcByte := []
  stores : List (TeamRef × Nat) := []
  entered : Nat
  age : Nat
  port : Option Nat := none
  deriving DecidableEq, Repr

/-- A cached line or block: address of its first byte and its contents; of a line of L1 also its replacement treatment
(M[2:1] of R64) and its poisoned sectors (R56, R167, R179). -/
structure CacheLine where
  addr : Nat
  bytes : List Byte
  hint : Nat := 0
  bad : List Nat := []
  deriving DecidableEq, Repr

/-- A translation (R172): ASID, virtual page, size in address bits, the PTE and where it lies; a leaf, or a non-leaf entry
of the walk. -/
structure TlbEntry where
  asid : Nat
  root : Nat
  page : Nat
  bits : Nat
  pte : DWord
  pteLoc : Nat
  leaf : Bool := true
  deriving DecidableEq, Repr

/-- A 4 KiB frame of a slice: which of its 32 lines are valid and which are dirty (R166). The bytes of a line stand in
the memory of the package, the point of coherence; HBM's old copy of a dirty line is nowhere visible. -/
structure SliceFrame where
  frame : Nat
  valid : BitVec 32 := 0
  dirty : BitVec 32 := 0
  deriving DecidableEq, Repr

/-- A record-cache entry: launch, handle or table, and the bytes of the record or table (R315). -/
structure RecordEntry where
  seq : Nat
  table : Bool
  num : Nat
  bytes : List Byte
  deriving DecidableEq, Repr

/-- A lane: the slot that issued last and the core cycle until which it is held (R24, R26). -/
structure Lane where
  last : Option Nat := none
  busy : Nat := 0
  deriving DecidableEq, Repr

/-- A compute core. -/
structure Core where
  chk : Bool := false
  wdt : BitVec 6 := 26
  /-- core cycle of the last write of WDT and the exponent before it, in force to that cycle's end (R85) -/
  wdtOld : Option (Nat × BitVec 6) := none
  wcage : BitVec 6 := 3
  lanes : Sparse Lane := []
  engine : List EngineOp := []
  /-- entries taken so far -/
  engineSeq : Nat := 0
  /-- core cycle at which the engine becomes free -/
  engineFree : Nat := 0
  reqs : List CopyReq := []
  copyWaiters : List CopyWaiter := []
  replay : List ReplayEntry := []
  wcb : List WcLine := []
  /-- lines that have left the buffer for a peer and are not acknowledged (R196, R401) -/
  flight : List WcLine := []
  l1 : List CacheLine := []
  icache : List CacheLine := []
  tlb : List TlbEntry := []
  records : List RecordEntry := []
  /-- ASID of the process placed last (R174, R269, R315) -/
  asid : Option Nat := none
  gated : Bool := false
  /-- tick since which no slot was ready and no engine operation in flight (R416) -/
  idleFrom : Nat := 0
  /-- column cycle at which it was gated, and column cycles lost to gating before (R416) -/
  gatedAt : Nat := 0
  lost : Nat := 0
  deriving DecidableEq, Repr

/-! ## Columns and harts -/

/-- A 64-byte event record (R271) as its eight words. -/
structure EventRecord where
  kind : Nat
  sub : Nat := 0
  seq : Nat := 0
  team : Nat := 0
  addr : DWord := 0
  tick : Nat := 0
  d0 : DWord := 0
  d1 : DWord := 0
  d2 : DWord := 0
  deriving DecidableEq, Repr

/-- An entry of a cache that parity protects (R419): a line of L1, a block of the instruction cache, an entry of a TLB or of
the record cache. -/
inductive CacheUnit where
  | l1 (core addr : Nat)
  | icache (core addr : Nat)
  | tlb (core asid page : Nat)
  | l2Tlb (col asid page : Nat)
  | record (core seq num : Nat)
  deriving DecidableEq, Repr

/-- What an error lies in: a unit of a team, or an entry of a cache (R421). -/
inductive ErrorUnit where
  | team (r : TeamRef) (u : UnitRef)
  | cache (u : CacheUnit)
  deriving DecidableEq, Repr

/-- A record of a corrected error in the ring: level, place and unit of the error, tick and WIDX of the record, and where it
lies (R421). -/
structure RecentError where
  level : Nat
  place : Nat
  unit : Option ErrorUnit := none
  tick : Nat
  widx : BitVec 32
  loc : Nat
  deriving DecidableEq, Repr

/-- A column: its control page (Table 24.2), its power registers (Table 25.3), its queue and its pool. DESIGN CHOICE,
unsafe (log 6). -/
structure Column where
  spt : Sparse DWord := []
  lsel : DWord := 0
  evbase : DWord := 0
  scbase : DWord := 0
  evsize : Nat := 0
  scsize : Nat := 0
  evprod : DWord := 0
  scprod : DWord := 0
  evcons : DWord := 0
  sccons : DWord := 0
  evovf : DWord := 0
  evirq : DWord := 0
  spbase : DWord := 0
  spsize : DWord := 0
  /-- events of kinds 1 to 3 held while the ring is full (R273) -/
  held : List EventRecord := []
  /-- areas taken from the save pool: address and bytes -/
  pool : List (Nat × Nat) := []
  queue : List Launch := []
  tlb : List TlbEntry := []
  /-- frames of its slice, the one allocated last first (R166) -/
  slice : List SliceFrame := []
  /-- device counters 5, 9 and 10 (R323) -/
  throttles : DWord := 0
  corrected : DWord := 0
  uncorrected : DWord := 0
  lmin : BitVec 3 := 0
  level : Nat := 0
  temp : BitVec 16 := 0
  /-- microsecond of the governor's last sample (R414) -/
  lastSample : Option Nat := none
  /-- tick of the last throttle step (R414) -/
  lastStep : Option Nat := none
  tcrit : BitVec 16 := 1680
  tdn : BitVec 16 := 1360
  tup : BitVec 16 := 1520
  bidle : BitVec 32 := 100000
  gidle : BitVec 24 := 10000
  pgen : Bool := true
  supCap : Bool := false
  supEvt : Bool := false
  supDrop : BitVec 16 := 0
  supNsmp : BitVec 16 := 0
  /-- microsecond of the last droop sample; the run under way: samples and their sum (R415) -/
  lastDroop : Option Nat := none
  droopRun : Nat := 0
  droopSum : Nat := 0
  scrubHbm : BitVec 8 := 64
  scrubIns : BitVec 8 := 16
  scrubLlc : BitVec 8 := 4
  scrubSpd : BitVec 8 := 1
  scrubArr : BitVec 8 := 1
  elbase : DWord := 0
  ellsz : Nat := 0
  elwidx : BitVec 32 := 0
  elovf : BitVec 16 := 0
  elcons : BitVec 32 := 0
  /-- records of corrected errors less than 1 ms old, which further errors of the unit share (R421) -/
  elRecent : List RecentError := []
  shBusy : Option Nat := none
  /-- spare rows left on each shank (R418): SPR is the fewest -/
  spares : Sparse Nat := []
  shRate : BitVec 8 := 16
  shNosp : Bool := false
  shTen : Bool := true
  /-- shanks whose test a demand access has stopped, with the tick of the last demand access (R418) -/
  shStopped : Sparse Nat := []
  /-- millisecond of the last tested row of a shank, and the rows tested in it (R418) -/
  shRows : Sparse (Nat × Nat) := []
  /-- throttle steps that take effect at the next tick: new level and subcode (R414) -/
  steps : List (Nat × Nat) := []
  /-- units that the current sweep of their level has visited: level, place or unit of a team, and number of the sweep
  (R420) -/
  swept : List (ScrubLevel × (Nat ⊕ ErrorUnit) × Nat) := []
  /-- insole banks asleep (R176, R417) and the tick of the last access to each -/
  asleep : List Nat := []
  lastBank : Sparse Nat := []
  /-- core cycles counted up to the instant `clkFrom`, and the pulse number then (R409) -/
  clkBase : Nat := 0
  clkFrom : Nat := 0
  clkPulse : Nat := 0
  deriving DecidableEq, Repr

/-- Privilege mode of a lodge hart. -/
inductive Mode where
  | user | supervisor | machine
  deriving DecidableEq, Repr

/-- A user event on its way to a hart (R336, R397). -/
structure UserEvent where
  asid : Nat
  vector : Nat
  killed : Bool
  deriving DecidableEq, Repr

/-- A lodge hart: the state the spec gives it beside the base RISC-V set (R396 to R398). DESIGN CHOICE, unsafe (log
6); PRESUMED, unsafe (log 44); DEDUCED, unsafe (log 46). -/
structure Hart where
  pc : DWord := 0
  mode : Mode := .machine
  uevt : DWord := 0
  uevp : DWord := 0
  uevc : DWord := 0
  uevm : DWord := 0
  uevepc : DWord := 0
  uie : Bool := false
  pie : Bool := false
  uevasid : BitVec 16 := 0
  uevtab : DWord := 0
  /-- user events that have reached the hart and are not taken yet -/
  inbox : List UserEvent := []
  /-- identities pending in its supervisor-level interrupt file (R396) -/
  imsic : List Nat := []
  /-- LR reservation: location and size -/
  reservation : Option (Nat × Nat) := none
  /-- value that its last load or AMO read -/
  loaded : DWord := 0
  /-- exception raised last: code and stval (R397, R398) -/
  exception : Option (Nat × DWord) := none
  deriving DecidableEq, Repr

/-! ## Waiters -/

/-- A counter (R322, R323). -/
inductive CounterRef where
  | mem (loc : Nat)
  | scratch (team : TeamRef) (off : Nat)
  | slot (team : TeamRef) (gid : Nat) (n : Nat)
  /-- device counter n as the fibre reads it -/
  | device (f : FibreRef) (n : Nat)
  deriving DecidableEq, Repr

/-- Who waits. -/
inductive WaitAgent where
  /-- the uniform wait of a fibre -/
  | fibre (f : FibreRef)
  /-- a thread of a split of a fibre; the handler's splits are numbered from 128 -/
  | thread (f : FibreRef) (split t : Nat)
  /-- the gate of a launch (R260) -/
  | gate (seq : Nat)
  /-- a host waiter: ASID, hart and vector (R336) -/
  | host (asid hart vector : Nat)
  /-- a waiter of a peer package (R335) -/
  | peer (pkg tag : Nat)
  deriving DecidableEq, Repr

/-- A registered or polling wait (R328, R329). -/
structure Waiter where
  agent : WaitAgent
  counter : CounterRef
  threshold : DWord
  satisfied : Bool := false
  killed : Bool := false
  /-- list full: next tick at which it reads again, and the backoff (R329) -/
  poll : Option (Nat × Nat) := none
  /-- ASID and virtual address of the counter word, for R331 -/
  asid : Nat := 0
  va : DWord := 0
  deriving DecidableEq, Repr

/-! ## The package -/

/-- A UALink port (Table 24.4). -/
structure Port where
  up : Bool := false
  locked : Bool := false
  keyed : Bool := false
  errors : BitVec 32 := 0
  /-- tick at which it went down -/
  downAt : Option Nat := none
  /-- a flit has failed its tag once (R402) -/
  flitFailed : Bool := false
  deriving DecidableEq, Repr

/-- An insole map entry (Table 17.5). DESIGN CHOICE, unsafe (log 6). -/
structure Region where
  spill : BitVec 32 := 0
  own : BitVec 16 := 0
  ov : Bool := false
  row : BitVec 16 := 0
  die : Bool := false
  shank : BitVec 2 := 0
  /-- 0 native, 1 displacing, 2 displaced, 3 lost -/
  st : BitVec 2 := 0
  deriving DecidableEq, Repr

/-- A scope-table entry (Table 17.3). -/
structure ScopeEntry where
  valid : Bool := false
  hops : Nat := 0
  gen : Nat := 0
  members : BitVec 1024 := 0
  deriving DecidableEq, Repr

/-- A page of a capture or restore: kind (false HBM, true insole), its number, its range entry and its logical block on
storage; the slot of the reserve that holds it, and its image once taken (R423, R424). -/
structure CkPage where
  insole : Bool
  page : Nat
  entry : Nat
  block : Nat := 0
  slot : Option Nat := none
  image : Option (List Host.Cell) := none
  /-- poisoned sectors found when its image was taken (R423) -/
  bad : Nat := 0
  streamed : Bool := false
  deriving DecidableEq, Repr

/-- An NVMe command in flight: tick of its issue, whether it is a retry, Write or Read, the page it moves, its logical
block and, of a Write, its data (R422, R423). -/
structure NvmeCmd where
  issued : Nat
  retry : Bool
  write : Bool
  page : Nat
  block : Nat
  data : List Host.Cell
  deriving DecidableEq, Repr

/-- A checkpoint engine (Table 25.6). -/
structure Checkpoint where
  ckrt : DWord := 0
  ckrn : DWord := 0
  ckres : DWord := 0
  ckresz : DWord := 0
  ckcnt : DWord := 0
  cknvq : DWord := 0
  /-- 0 idle, 1 capturing, 2 restoring -/
  busy : Nat := 0
  ignored : Bool := false
  failed : Bool := false
  code : BitVec 8 := 0
  pagesDone : BitVec 32 := 0
  faults : BitVec 16 := 0
  /-- first tick at which T0 may fall -/
  t0 : Option Nat := none
  pages : List CkPage := []
  nvme : Option NvmeCmd := none
  /-- model: a step has met a full reserve, so that its write waits (R424) -/
  overrun : Bool := false
  deriving DecidableEq, Repr

/-- A message that the pavilion sends (R407, R408). -/
inductive PavMsg where
  /-- sender, its leader and its generation -/
  | hello (sender leader gen : Nat)
  | entries (l : List ScopeDraft)
  | ack
  | commit (gen : Nat)
  /-- the leader tells a follower to clear its entries, or abdicates -/
  | abdication
  | mergeRequest (members : List Nat)
  deriving DecidableEq, Repr

/-- The pavilion (R404 to R408). -/
structure Pavilion where
  fsc : Nat := 0
  minimal : Bool := false
  minimalSole : Nat := 0
  /-- lodge cores kept in reset in minimal mode (R405) -/
  lodgeHeld : Bool := false
  /-- step 1 failed -/
  held : Bool := false
  /-- tick at which the start watchdog expires -/
  watchdog : Option Nat := none
  /-- boot report: reason, tick, versions of the images -/
  reason : Nat := 0
  reportTick : Nat := 0
  versions : DWord × DWord × DWord := (0, 0, 0)
  fabstat : Nat := 0
  gen : Nat := 0
  leader : Option Nat := none
  /-- hellos heard since the election started -/
  heard : List Hello := []
  electStart : Option Nat := none
  heartbeat : Nat := 0
  members : List Nat := []
  acked : List Nat := []
  draftGen : Nat := 0
  draft : List ScopeDraft := []
  /-- messages the pavilion has sent, with their destinations; none: every package that its links reach -/
  sent : List (Option Nat × PavMsg) := []
  deriving DecidableEq, Repr

/-- A team in its save area (R86 to R90): what the layout does not hold is kept beside it. -/
structure SavedTeam where
  team : Team
  col : Nat
  addr : Nat
  bytes : Nat
  /-- fibre commands that arrived meanwhile: token and action (R359) -/
  commands : List (Nat × Nat) := []
  deriving DecidableEq, Repr

/-- A class that moves to another port once its outstanding requests have ended (R401). -/
structure Stalled where
  cls : Nat
  port : Nat
  deriving DecidableEq, Repr

/-- model: whose step comes next. DESIGN CHOICE, unsafe (log 2). -/
inductive Turn where
  /-- the lane issues (R24) -/
  | issue (core lane : Nat)
  /-- a step of the device -/
  | event (i : Instr)
  /-- time passes, in units of 1/504 tick -/
  | advance (n : Nat)
  /-- a lodge hart executes the word at its pc -/
  | lodge (hart : Nat)
  /-- a lodge hart claims an identity that pends in its interrupt file (R396) -/
  | claim (hart id : Nat)
  /-- an entry leaves its cache -/
  | evict (u : CacheUnit)
  | evictSlice (col frame : Nat)
  /-- a core's lines on their way to peers arrive and are acknowledged (R196) -/
  | land (core : Nat)
  /-- an uncorrectable error marks a unit of a team (R375), or poisons the sector of a location (R179) -/
  | markUnit (team : TeamRef) (u : UnitRef)
  | poisonSector (loc : Nat)
  /-- an uncorrectable error of a slice's tag poisons its frame (R419) -/
  | poisonFrame (frame : Nat)
  /-- an error is corrected as an access reads a place of a level; an entry of a cache fails its parity (R419) -/
  | correct (col : Nat) (level : ScrubLevel) (place : Nat)
  | cacheParity (u : CacheUnit)
  /-- a parity or residue error will be found in the next instruction of a fibre (R374) -/
  | parity (f : FibreRef)
  deriving DecidableEq, Repr

/-- The package. DESIGN CHOICE, safe (log 7). -/
structure State where
  /-- time since package reset, in units of 1/504 tick: the core-clock periods are 360, 315 and 280 (R9, R409) -/
  now : Nat
  /-- model: the steps to come, before the machine's own order -/
  agenda : List Turn
  /-- model: the fibre that issues -/
  cur : Option FibreRef
  /-- model: the lodge hart that acts -/
  hart : Nat
  /-- model: free values taken so far -/
  freeCtr : Nat
  /-- next launch sequence number (R255) -/
  nextSeq : Nat
  /-- model: next token of a frozen fibre (R359) -/
  nextToken : Nat
  /-- model: next number of an outstanding result -/
  nextId : Nat
  /-- every location, unlisted bytes read 0: local physical addresses, peers, PCIe, the insole store -/
  mem : List Host.Cell
  /-- poisoned 32-byte sectors, by location div 32 (R179) -/
  poison : List Nat
  teams : List Team
  saved : List SavedTeam
  cores : Sparse Core
  columns : Sparse Column
  harts : Sparse Hart
  waiters : List Waiter
  /-- boost boundaries and refill windows that have ended (R412, R413) -/
  boundaries : Nat
  windows : Nat
  /-- boost state (R412): pool, pointer, BREQ, operating point, refusals, counters 2, 3, 4 -/
  pool : Nat
  rotation : Nat
  breq : Sparse Bool
  opPoint : Sparse Nat
  refusals : Sparse Nat
  charged : DWord
  refilled : DWord
  clusterCharged : Sparse DWord
  pkgid : BitVec 10
  lostto : DWord
  ports : Sparse Port
  /-- port of each class where it differs from the class's own number (ROUTE) -/
  route : Sparse Nat
  stalled : List Stalled
  pciewin : Sparse Bool
  /-- PCIe links that are down -/
  pcieDown : List Nat
  scopes : Sparse ScopeEntry
  regions : Sparse Region
  /-- spill slots of displaced regions in use (R321) -/
  spillSlots : Nat
  ckpt : Sparse Checkpoint
  pav : Pavilion
  deriving DecidableEq, Repr

/-- The package right after package reset: nothing resident, every register at its reset value. Memory, the package
ID and the boot values are design choices. DESIGN CHOICE, unsafe (log 1, 6). -/
def State.reset : State where
  now := 0
  agenda := []
  cur := none
  hart := 0
  freeCtr := 0
  nextSeq := 1
  nextToken := 1
  nextId := 0
  mem := []
  poison := []
  teams := []
  saved := []
  cores := []
  columns := []
  harts := []
  waiters := []
  boundaries := 0
  windows := 0
  pool := 64
  rotation := 0
  breq := []
  opPoint := []
  refusals := []
  charged := 0
  refilled := 0
  clusterCharged := []
  pkgid := 0
  lostto := 100
  ports := []
  route := []
  stalled := []
  pciewin := []
  pcieDown := []
  scopes := []
  regions := []
  spillSlots := 0
  ckpt := []
  pav := {}

end Sys2Proof.Machine
end

