-- ==== Sys2Proof/Machine/Store.lean ====
section
/-!
DEFINITION. Sparse tables in canonical form, byte lists and masks: the plain data operations on which memory
and registers rest.
-/
namespace Sys2Proof.Machine

/-! ## Sparse tables -/

/-- The value at a key; d where the key is not listed. -/
def look {α : Type} (d : α) : Sparse α → Nat → α
  | [], _ => d
  | (k', v) :: rest, k => if k' = k then v else look d rest k

/-- Sets a key; setting it to d unlists it. Keys stay in rising order. -/
def put {α : Type} [DecidableEq α] (d : α) : Sparse α → Nat → α → Sparse α
  | [], k, v => if v = d then [] else [(k, v)]
  | (k', v') :: rest, k, v =>
    if k' = k then (if v = d then put d rest k v else (k, v) :: rest)
    else if k < k' ∧ v ≠ d then (k, v) :: (k', v') :: rest
    else (k', v') :: put d rest k v

/-- Canonical form: keys strictly rising, no value d listed. -/
def canonical {α : Type} [DecidableEq α] (d : α) (m : Sparse α) : Bool :=
  decide (m.Pairwise fun x y => x.1 < y.1) && m.all fun x => decide (x.2 ≠ d)

/-- Changes the value at a key. -/
def modify {α : Type} [DecidableEq α] (d : α) (m : Sparse α) (k : Nat) (f : α → α) : Sparse α :=
  put d m k (f (look d m k))

/-- Entries that values list at consecutive keys from k; those equal to d are not listed. -/
def listed {α : Type} [DecidableEq α] (d : α) (k : Nat) : List α → Sparse α
  | [] => []
  | v :: rest => if v = d then listed d (k + 1) rest else (k, v) :: listed d (k + 1) rest

/-- Sets consecutive keys from k. -/
def putAll {α : Type} [DecidableEq α] (d : α) (m : Sparse α) (k : Nat) (vs : List α) : Sparse α :=
  (m.filter fun x => x.1 < k) ++ listed d k vs ++ m.filter fun x => k + vs.length ≤ x.1

/-- The values at n consecutive keys from k. -/
def lookAll {α : Type} (d : α) (m : Sparse α) (k : Nat) : Nat → List α
  | 0 => []
  | n + 1 => look d m k :: lookAll d m (k + 1) n

/-- The entries with keys in [lo, lo + n), moved down by lo. -/
def slice {α : Type} (m : Sparse α) (lo n : Nat) : Sparse α :=
  (m.filter fun x => lo ≤ x.1 && x.1 < lo + n).map fun x => (x.1 - lo, x.2)

/-- The dense list of n values of a canonical table from key k on. -/
def dense {α : Type} (d : α) : Sparse α → Nat → Nat → List α
  | _, _, 0 => []
  | [], _, n => List.replicate n d
  | (k', v) :: rest, k, n + 1 =>
    if k' = k then v :: dense d rest (k + 1) n
    else d :: dense d ((k', v) :: rest) (k + 1) n

/-! ## Bytes (R8) -/

/-- The byte at an address of a canonical byte memory; an unlisted one is zero. DESIGN CHOICE, unsafe (log 1). -/
def byteAt (m : List Host.Cell) (a : Nat) : Byte := look 0 m a

/-- The bytes of an n-byte number, lowest address first. -/
def bytesLE (v : Nat) : Nat → List Byte
  | 0 => []
  | n + 1 => BitVec.ofNat 8 v :: bytesLE (v / 256) n

/-- The number in bytes, lowest address first. -/
def natLE : List Byte → Nat
  | [] => 0
  | b :: rest => b.toNat + 256 * natLE rest

/-- An n-byte number in a byte memory. -/
def numAt (m : List Host.Cell) (a n : Nat) : Nat := natLE (lookAll 0 m a n)

/-- A byte memory is in canonical form. DESIGN CHOICE, unsafe (log 1). -/
def Memory.wf (m : List Host.Cell) : Bool := canonical (0 : Byte) m

/-! ## Sorting -/

/-- Puts x before the first entry that may follow it. -/
def insertBy {α : Type} (le : α → α → Bool) (x : α) : List α → List α
  | [] => [x]
  | y :: rest => if le x y then x :: y :: rest else y :: insertBy le x rest

/-- The entries in order, equal ones as they stood. -/
def sortBy {α : Type} (le : α → α → Bool) (l : List α) : List α := l.foldr (insertBy le) []

/-! ## Masks -/

/-- Bit t of a mask. -/
abbrev bit (m : Mask) (t : Nat) : Bool := m.getLsbD t

/-- The threads of a mask in increasing order. -/
def threads (m : Mask) : List Nat := (List.range 64).filter fun t => m.getLsbD t

/-- The number of threads of a mask. -/
def countMask (m : Mask) : Nat := (threads m).length

/-- The mask of threads for which a test holds. -/
def maskOf (f : Nat → Bool) : Mask :=
  (List.range 64).foldl (fun acc t => if f t then acc ||| (1#64 <<< t) else acc) 0

/-- All threads of a group of width n. -/
def fullMask (n : Nat) : Mask := BitVec.ofNat 64 (2 ^ n - 1)

/-- Sets or clears bit t. -/
def setBit (m : Mask) (t : Nat) (b : Bool) : Mask :=
  if b then m ||| (1#64 <<< t) else m &&& ~~~(1#64 <<< t)

/-- Lowest thread of a mask, 0 if it is empty. -/
def lowest (m : Mask) : Nat := ((threads m).head?).getD 0

/-! ## Numbers -/

/-- All ones. -/
abbrev ones64 : DWord := 0xFFFFFFFFFFFFFFFF

/-- A signed field as a 64-bit offset of 32-bit words. -/
def wordOffset {n : Nat} (x : BitVec n) : DWord := 4 * x.signExtend 64

/-- Rounds up to a multiple. -/
def roundUp (n m : Nat) : Nat := (n + m - 1) / m * m

/-- Replaces the first element that satisfies a test. -/
def updateFirst {α : Type} (p : α → Bool) (f : α → α) : List α → List α
  | [] => []
  | x :: rest => if p x then f x :: rest else x :: updateFirst p f rest

end Sys2Proof.Machine
end

