-- ==== Sys2Proof/Machine/Numbers.lean ====
section
/-!
DEFINITION. Number formats and exact arithmetic: floating-point formats (R93, R94), rounding with its flags
(R95 to R97), the rounded operations (R134 to R139, R143), shared-exponent blocks (R100, R101) and ternary
bytes (R105).
-/
namespace Sys2Proof.Machine

/-! ## Flags (Table 4.6) -/

abbrev Flags := BitVec 5
def flagNV : Flags := 16
def flagDZ : Flags := 8
def flagOF : Flags := 4
def flagUF : Flags := 2
def flagNX : Flags := 1

/-! ## Formats (Table 5.2) -/

/-- A format: exponent bits, trailing significand bits, bias, position of its low bit in its container, and
whether it is E4M3, which has no infinity. -/
structure Fmt where
  eb : Nat
  fb : Nat
  bias : Nat
  low : Nat := 0
  e4m3 : Bool := false
  deriving DecidableEq, Repr

def fp64 : Fmt := { eb := 11, fb := 52, bias := 1023 }
def fp32 : Fmt := { eb := 8, fb := 23, bias := 127 }
def e8m10 : Fmt := { eb := 8, fb := 10, bias := 127, low := 13 }
def bf16 : Fmt := { eb := 8, fb := 7, bias := 127 }
def fp16 : Fmt := { eb := 5, fb := 10, bias := 15 }
def e4m3 : Fmt := { eb := 4, fb := 3, bias := 7, e4m3 := true }
def e5m2 : Fmt := { eb := 5, fb := 2, bias := 15 }

/-- A value: NaN (signalling or not), an infinity, or a signed dyadic number m × 2^e. -/
inductive FVal where
  | nan (signalling : Bool)
  | inf (neg : Bool)
  | fin (neg : Bool) (m : Nat) (e : Int)
  deriving DecidableEq, Repr

namespace Fmt

/-- All-ones exponent field. -/
def top (f : Fmt) : Nat := 2 ^ f.eb - 1

/-- Sign, exponent and trailing significand fields. -/
def sign (f : Fmt) (x : Nat) : Bool := (x >>> (f.low + f.fb + f.eb)) % 2 == 1
def expo (f : Fmt) (x : Nat) : Nat := (x >>> (f.low + f.fb)) % 2 ^ f.eb
def frac (f : Fmt) (x : Nat) : Nat := (x >>> f.low) % 2 ^ f.fb

/-- Bits of a sign, exponent field and trailing significand. -/
def pack (f : Fmt) (neg : Bool) (e m : Nat) : Nat :=
  ((if neg then 2 ^ (f.fb + f.eb) else 0) + e * 2 ^ f.fb + m) * 2 ^ f.low

/-- The canonical NaN (Table 5.2). -/
def canonNaN (f : Fmt) : Nat := if f.e4m3 then 0x7F else f.pack false f.top (2 ^ (f.fb - 1))

/-- Exponent of the lowest bit of subnormal numbers. -/
def qmin (f : Fmt) : Int := 1 - (f.bias : Int) - f.fb

/-- The value that bits encode (R93, R94). -/
def value (f : Fmt) (x : Nat) : FVal :=
  let s := f.sign x
  let e := f.expo x
  let m := f.frac x
  if e = f.top && (!f.e4m3 || m == 7) then
    if f.e4m3 then .nan false
    else if m = 0 then .inf s
    else .nan (m < 2 ^ (f.fb - 1))
  else if e = 0 then .fin s m f.qmin
  else .fin s (m + 2 ^ f.fb) (e - 1 + f.qmin)

/-- A subnormal encoding. -/
def subnormal (f : Fmt) (x : Nat) : Bool := f.expo x == 0 && f.frac x != 0

/-- The operand as .ftz reads it (R96). -/
def flushIn (f : Fmt) (ftz : Bool) (x : Nat) : Nat :=
  if ftz && f.subnormal x then f.pack (f.sign x) 0 0 else x

/-- Largest finite magnitude: its exponent field and trailing significand. -/
def maxField (f : Fmt) : Nat × Nat := if f.e4m3 then (15, 6) else (f.top - 1, 2 ^ f.fb - 1)

def maxFinite (f : Fmt) (neg : Bool) : Nat := f.pack neg f.maxField.1 f.maxField.2

/-- An infinity, or for E4M3 the canonical NaN in its place (R95). -/
def infinity (f : Fmt) (neg : Bool) : Nat := if f.e4m3 then f.canonNaN else f.pack neg f.top 0

end Fmt

/-! ## Rounding (R95 to R97) -/

/-- Bits of a number: floor(log2 m) + 1, 0 for 0. -/
def bitLength (m : Nat) : Nat := if m = 0 then 0 else Nat.log2 m + 1

/-- Whether a magnitude is rounded up: mode (Table 5.3), sign, odd quotient, remainder of 2^k. -/
def roundsUp (rm : Nat) (neg odd : Bool) (rem k : Nat) : Bool :=
  if rem = 0 then false
  else
    match rm with
    | 0 => let half := 2 ^ (k - 1); half < rem || (rem == half && odd)
    | 1 => false
    | 2 => !neg
    | _ => neg

/-- m × 2^e rounded to a multiple of 2^q: the multiple and whether it is exact. -/
def roundAt (rm : Nat) (neg : Bool) (m : Nat) (e q : Int) : Nat × Bool :=
  if q ≤ e then (m * 2 ^ (e - q).toNat, true)
  else
    let k := (q - e).toNat
    let r := m / 2 ^ k
    let rem := m % 2 ^ k
    (if roundsUp rm neg (r % 2 == 1) rem k then r + 1 else r, rem == 0)

/-- Compares m × 2^e with n × 2^f: m × 2^e < n × 2^f. -/
def dyLt (m : Nat) (e : Int) (n : Nat) (f : Int) : Bool :=
  if e ≤ f then m < n * 2 ^ (f - e).toNat else m * 2 ^ (e - f).toNat < n

/-- Options of a rounding. -/
structure Rounding where
  rm : Nat := 0
  ftz : Bool := false
  sat : Bool := false
  deriving DecidableEq, Repr

/-- The overflowing result (Table 5.3, R95). -/
def overflowed (f : Fmt) (r : Rounding) (neg : Bool) : Nat × Flags :=
  let big := r.sat || r.rm == 1 || (r.rm == 2 && neg) || (r.rm == 3 && !neg)
  (if big then f.maxFinite neg else f.infinity neg, flagOF ||| flagNX)

/-- Rounds (−1)^neg × m × 2^e, with m above zero, once to a format. A sticky low bit of m stands for what an
exact quotient or root leaves out. -/
def roundFin (f : Fmt) (r : Rounding) (neg : Bool) (m : Nat) (e : Int) : Nat × Flags :=
  let p := f.fb + 1
  let u : Int := e + bitLength m - p
  let (mu, exactU) := roundAt r.rm neg m e u
  let (maxE, maxM) := f.maxField
  if dyLt (2 ^ f.fb + maxM) (maxE - 1 + f.qmin) mu u then overflowed f r neg
  else if f.qmin ≤ u then
    -- normal, perhaps carried into the next binade
    let (mu, u) := if mu = 2 ^ p then (2 ^ f.fb, u + 1) else (mu, u)
    (f.pack neg (u - f.qmin + 1).toNat (mu - 2 ^ f.fb), if exactU then 0 else flagNX)
  else
    let (ms, exactS) := roundAt r.rm neg m e f.qmin
    let tiny := dyLt mu u (2 ^ f.fb) f.qmin
    let flags : Flags := if exactS then 0 else (if tiny then flagUF ||| flagNX else flagNX)
    if r.ftz && 0 < ms && ms < 2 ^ f.fb then (f.pack neg 0 0, flagUF ||| flagNX)
    else if ms < 2 ^ f.fb then (f.pack neg 0 ms, flags)
    else (f.pack neg 1 (ms - 2 ^ f.fb), flags)

/-- Rounds a finite value; a zero keeps its sign. -/
def roundTo (f : Fmt) (r : Rounding) (neg : Bool) (m : Nat) (e : Int) : Nat × Flags :=
  if m = 0 then (f.pack neg 0 0, 0) else roundFin f r neg m e

/-! ## Exact sums -/

/-- A signed dyadic number m × 2^e. -/
structure Dy where
  m : Int
  e : Int
  deriving DecidableEq, Repr

def Dy.add (a b : Dy) : Dy :=
  let e := min a.e b.e
  { m := a.m * 2 ^ (a.e - e).toNat + b.m * 2 ^ (b.e - e).toNat, e }
def Dy.mul (a b : Dy) : Dy := { m := a.m * b.m, e := a.e + b.e }
def Dy.sum (l : List Dy) : Dy := l.foldl Dy.add { m := 0, e := 0 }

/-- An addend of an exact sum: its value, and its sign when it is zero. -/
inductive Term where
  | nan
  | inf (neg : Bool)
  | num (neg : Bool) (d : Dy)
  deriving DecidableEq, Repr

def FVal.term : FVal → Term
  | .nan _ => .nan
  | .inf n => .inf n
  | .fin n m e => .num n { m := if n then -(m : Int) else m, e }

/-- The exact product of two terms; ∞ × 0 is NaN. -/
def Term.mul (a b : Term) : Term :=
  match a, b with
  | .nan, _ | _, .nan => .nan
  | .inf n, .inf k => .inf (n != k)
  | .inf n, .num k d | .num k d, .inf n => if d.m = 0 then .nan else .inf (n != k)
  | .num n x, .num k y => .num (n != k) (x.mul y)

def Term.negate : Term → Term
  | .nan => .nan
  | .inf n => .inf !n
  | .num n d => .num (!n) { d with m := -d.m }

/-- The exact sum of terms; NaN or infinities of both signs make it NaN (R108). Zero sums follow R96, and +0 + +0 under
RDN the IEEE addition (R134). -/
def Term.sum (rm : Nat) (l : List Term) : Term :=
  if l.contains .nan || (l.contains (.inf true) && l.contains (.inf false)) then .nan
  else if l.contains (.inf true) then .inf true
  else if l.contains (.inf false) then .inf false
  else
    let d := Dy.sum (l.map fun t => match t with
      | .num _ d => d
      | _ => { m := 0, e := 0 })
    if d.m = 0 then
      let isZero (neg : Bool) (t : Term) : Bool := match t with
        | .num n x => n == neg && x.m == 0
        | _ => false
      .num (l.all (isZero true) || (rm == 3 && !(l.all (isZero false)))) d
    else .num (d.m < 0) d

/-- Rounds a term to a format; NaN becomes the canonical one. -/
def Term.round (f : Fmt) (r : Rounding) : Term → Nat × Flags
  | .nan => (f.canonNaN, 0)
  | .inf n => (f.infinity n, 0)
  | .num n d => roundTo f r n d.m.natAbs d.e

/-! ## Rounded operations (R134 to R139) -/

/-- NV for a signalling NaN among operands (R94). -/
def nvOf (l : List FVal) : Flags := if l.contains (.nan true) then flagNV else 0

/-- NV when an operation without NaN operands gives NaN. -/
def invalid (l : List FVal) (t : Term) : Flags :=
  nvOf l ||| (if t == .nan && !(l.any fun v => v == .nan true || v == .nan false) then flagNV else 0)

def fAdd (f : Fmt) (r : Rounding) (a b : Nat) : Nat × Flags :=
  let x := f.value (f.flushIn r.ftz a)
  let y := f.value (f.flushIn r.ftz b)
  let t := Term.sum r.rm [x.term, y.term]
  let (v, fl) := t.round f r
  (v, fl ||| invalid [x, y] t)

/-- The sign bit turned over. -/
def fNeg (f : Fmt) (a : Nat) : Nat := if f.sign a then a - 2 ^ (f.low + f.fb + f.eb) else a + 2 ^ (f.low + f.fb + f.eb)

def fSub (f : Fmt) (r : Rounding) (a b : Nat) : Nat × Flags := fAdd f r a (fNeg f b)

def fMul (f : Fmt) (r : Rounding) (a b : Nat) : Nat × Flags :=
  let x := f.value (f.flushIn r.ftz a)
  let y := f.value (f.flushIn r.ftz b)
  let t := x.term.mul y.term
  let (v, fl) := t.round f r
  (v, fl ||| invalid [x, y] t)

/-- ∞ × 0 among two operands. -/
def infTimesZero (x y : FVal) : Bool :=
  match x, y with
  | .inf _, .fin _ 0 _ | .fin _ 0 _, .inf _ => true
  | _, _ => false

def fFma (f : Fmt) (r : Rounding) (a b c : Nat) : Nat × Flags :=
  let x := f.value (f.flushIn r.ftz a)
  let y := f.value (f.flushIn r.ftz b)
  let z := f.value (f.flushIn r.ftz c)
  let t := Term.sum r.rm [x.term.mul y.term, z.term]
  let (v, fl) := t.round f r
  (v, fl ||| invalid [x, y, z] t ||| (if infTimesZero x y then flagNV else 0))

/-- The quotient m / n of integers at a scale that leaves a sticky bit below every rounding position. -/
def quotient (f : Fmt) (m : Nat) (e : Int) (n : Nat) (k : Int) : Nat × Int :=
  let sh := f.fb + 4 + bitLength n
  let q := m * 2 ^ sh / n
  (2 * q + (if m * 2 ^ sh % n = 0 then 0 else 1), e - k - sh - 1)

def fDiv (f : Fmt) (r : Rounding) (a b : Nat) : Nat × Flags :=
  let x := f.value (f.flushIn r.ftz a)
  let y := f.value (f.flushIn r.ftz b)
  match x, y with
  | .nan _, _ | _, .nan _ => (f.canonNaN, nvOf [x, y])
  | .inf _, .inf _ => (f.canonNaN, flagNV)
  | .inf n, .fin k _ _ => (f.infinity (n != k), 0)
  | .fin n _ _, .inf k => (f.pack (n != k) 0 0, 0)
  | .fin n m e, .fin k d g =>
    if d = 0 then (if m = 0 then (f.canonNaN, flagNV) else (f.infinity (n != k), flagDZ))
    else if m = 0 then (f.pack (n != k) 0 0, 0)
    else
      let (q, e) := quotient f m e d g
      roundFin f r (n != k) q e

/-- Integer square root, rounded down, bit by bit from bit k. -/
def isqrtFrom (n : Nat) : Nat → Nat → Nat
  | 0, r => r
  | k + 1, r => let c := r + 2 ^ k; isqrtFrom n k (if c * c ≤ n then c else r)
def isqrt (n : Nat) : Nat := isqrtFrom n (bitLength n / 2 + 1) 0

def fSqrt (f : Fmt) (r : Rounding) (a : Nat) : Nat × Flags :=
  let x := f.value (f.flushIn r.ftz a)
  match x with
  | .nan s => (f.canonNaN, if s then flagNV else 0)
  | .inf n => if n then (f.canonNaN, flagNV) else (f.infinity false, 0)
  | .fin n m e =>
    if m = 0 then (f.pack n 0 0, 0)
    else if n then (f.canonNaN, flagNV)
    else
      let e2 : Int := if e % 2 = 0 then e else e - 1
      let m2 := if e % 2 = 0 then m else 2 * m
      let k := f.fb + 4
      let big := m2 * 2 ^ (2 * k)
      let q := isqrt big
      roundFin f r false (2 * q + (if q * q = big then 0 else 1)) (e2 / 2 - k - 1)

/-- 1.0 of a format. -/
def Fmt.one (f : Fmt) : Nat := f.pack false f.bias 0

def fRcp (f : Fmt) (r : Rounding) (a : Nat) : Nat × Flags := fDiv f r f.one a

/-- IEEE order on values that are not NaN, −0 below +0 when `zeros` says so. -/
def fLess (zeros : Bool) (x y : FVal) : Bool :=
  match x, y with
  | .inf n, .inf k => n && !k
  | .inf n, .fin _ _ _ => n
  | .fin _ _ _, .inf k => !k
  | .fin n m e, .fin k d g =>
    if m = 0 && d = 0 then zeros && n && !k
    else if m = 0 then !k
    else if d = 0 then n
    else if n != k then n
    else if n then dyLt d g m e else dyLt m e d g
  | _, _ => false

/-- minimumNumber and maximumNumber (R135). -/
def fMinMax (f : Fmt) (ftz isMax : Bool) (a b : Nat) : Nat × Flags :=
  let a := f.flushIn ftz a
  let b := f.flushIn ftz b
  let x := f.value a
  let y := f.value b
  let nv := nvOf [x, y]
  match x, y with
  | .nan _, .nan _ => (f.canonNaN, nv)
  | .nan _, _ => (b, nv)
  | _, .nan _ => (a, nv)
  | _, _ => (if isMax then (if fLess true x y then b else a) else (if fLess true y x then b else a), nv)

/-- roundToIntegralExact (R136). -/
def fRound (f : Fmt) (r : Rounding) (a : Nat) : Nat × Flags :=
  let a := f.flushIn r.ftz a
  match f.value a with
  | .nan s => (f.canonNaN, if s then flagNV else 0)
  | .inf _ => (a, 0)
  | .fin n m e =>
    let (i, exact) := roundAt r.rm n m e 0
    if exact then (a, 0) else ((roundTo f {} n i 0).1, flagNX)

/-- Comparison under a condition code (Table 7.4): the truth and NV. -/
def fCompare (f : Fmt) (ftz : Bool) (cc a b : Nat) : Bool × Flags :=
  let x := f.value (f.flushIn ftz a)
  let y := f.value (f.flushIn ftz b)
  let isNan (v : FVal) : Bool := v == .nan true || v == .nan false
  let un := isNan x || isNan y
  let lt := !un && fLess false x y
  let gt := !un && fLess false y x
  let eq := !un && !lt && !gt
  let truth := match cc with
    | 0 => eq | 1 => !eq | 2 => lt | 3 => lt || eq | 4 => gt | 5 => gt || eq | 6 => !un | 7 => un
    | 8 => eq || un | 9 => lt || gt | 10 => lt || un | 11 => lt || eq || un | 12 => gt || un | _ => gt || eq || un
  (truth, if un && 2 ≤ cc && cc ≤ 5 then flagNV else nvOf [x, y])

/-- The class of a value (Table 7.5). -/
def fClass (f : Fmt) (a : Nat) : Nat :=
  match f.value a with
  | .nan s => if s then 8 else 9
  | .inf n => if n then 0 else 7
  | .fin n m _ =>
    if m = 0 then (if n then 3 else 4)
    else if f.expo a = 0 then (if n then 2 else 5)
    else (if n then 1 else 6)

/-! ## Conversions (R98, R143) -/

/-- A floating value to a format (R143). -/
def fToF (src dst : Fmt) (r : Rounding) (a : Nat) : Nat × Flags :=
  match src.value (src.flushIn r.ftz a) with
  | .nan s => (dst.canonNaN, if s then flagNV else 0)
  | .inf n =>
    if r.sat then (dst.maxFinite n, flagOF ||| flagNX)
    else if dst.e4m3 then (dst.canonNaN, flagOF ||| flagNX)
    else (dst.infinity n, 0)
  | .fin n m e => roundTo dst r n m e

/-- A floating value to an integer range (R98). -/
def fToInt (src : Fmt) (r : Rounding) (lo hi : Int) (a : Nat) : Int × Flags :=
  match src.value (src.flushIn r.ftz a) with
  | .nan _ => (0, flagNV)
  | .inf n => (if n then lo else hi, flagNV)
  | .fin n m e =>
    let (i, exact) := roundAt r.rm n m e 0
    let v : Int := if n then -(i : Int) else i
    if v < lo then (lo, flagNV) else if hi < v then (hi, flagNV) else (v, if exact then 0 else flagNX)

/-- An exact integer to a format (R143). -/
def intToF (dst : Fmt) (r : Rounding) (v : Int) : Nat × Flags := roundTo dst r (v < 0) v.natAbs 0

/-! ## Integers (R91) -/

/-- An n-bit pattern as a signed or unsigned integer. -/
def toInt (signed : Bool) (n v : Nat) : Int :=
  let v := v % 2 ^ n
  if signed && 2 ^ (n - 1) ≤ v then (v : Int) - 2 ^ n else v

/-- wrap(v, n). -/
def wrapInt (n : Nat) (v : Int) : Nat := (v % (2 ^ n : Int)).toNat

/-- Range of an integer type. -/
def rangeOf (signed : Bool) (n : Nat) : Int × Int :=
  if signed then (-(2 ^ (n - 1) : Int), (2 ^ (n - 1) : Int) - 1) else (0, (2 ^ n : Int) - 1)

/-- sat(v, lo, hi). -/
def clampInt (lo hi v : Int) : Int := if v < lo then lo else if hi < v then hi else v

/-- Wraps, or clamps and then encodes. -/
def narrow (sat signed : Bool) (n : Nat) (v : Int) : Nat :=
  if sat then let (lo, hi) := rangeOf signed n; wrapInt n (clampInt lo hi v) else wrapInt n v

/-! ## Type codes (Table 3.6) -/

/-- The format of a floating type code. -/
def fmtOf (code : Nat) : Option Fmt :=
  match code with
  | 8 => some fp16 | 9 => some bf16 | 10 => some fp32 | 11 => some fp64 | 12 => some e8m10 | 13 => some e4m3
  | 14 => some e5m2 | _ => none

/-- Signedness and width of an integer type code. -/
def intOf (code : Nat) : Option (Bool × Nat) :=
  match code with
  | 0 => some (true, 8) | 1 => some (true, 16) | 2 => some (true, 32) | 3 => some (true, 64)
  | 4 => some (false, 8) | 5 => some (false, 16) | 6 => some (false, 32) | 7 => some (false, 64)
  | 18 => some (true, 4) | 19 => some (false, 4) | 20 => some (true, 2) | _ => none

/-- Bits of an element of a type in memory; 0 for the block and ternary types (R99, R103, R104). -/
def typeBits (code : Nat) : Nat :=
  match code with
  | 0 | 4 | 13 | 14 => 8
  | 1 | 5 | 8 | 9 => 16
  | 2 | 6 | 10 | 12 | 24 => 32
  | 3 | 7 | 11 | 23 => 64
  | 18 | 19 => 4
  | 20 => 2
  | 21 => 1
  | 22 => 128
  | _ => 0

/-! ## Shared-exponent blocks (R100, R101) -/

/-- Magnitude bits of SB8, SB5 and SB3 by type code. -/
def sbBits (code : Nat) : Nat := if code = 15 then 7 else if code = 16 then 4 else 2

/-- Bytes of a block. -/
def sbBytes (code : Nat) : Nat := 2 + 4 * (sbBits code + 1)

/-- Value of an element field under a shared exponent and a sub-scale; none in a NaN block. -/
def sbValue (m e sigma field : Nat) : Term :=
  if e = 0xFF then .nan
  else
    let mag := field % 2 ^ m
    let neg := (field >>> m) % 2 == 1
    .num neg { m := if neg then -(mag : Int) else mag, e := (e : Int) - 127 - sigma - (m - 1) }

/-- RNE of |x| / 2^q as an integer. -/
def sbTrial (mag : Nat) (e q : Int) : Nat := (roundAt 0 false mag e q).1

/-- Sub-scale and magnitudes of one group of eight under a shared exponent. -/
def sbGroup (m ee : Nat) (xs : List (Nat × Int)) : Nat × List Nat :=
  let at_ (s : Nat) := xs.map fun (mag, e) => sbTrial mag e ((ee : Int) - 127 - s - (m - 1))
  match ([3, 2, 1, 0] : List Nat).find? fun s => (at_ s).all fun v => v ≤ 2 ^ m - 1 with
  | some s => (s, at_ s)
  | none => (0, at_ 0)

/-- The four groups of 32 values. -/
def groupsOf (xs : List α) : List (List α) := [xs.take 8, (xs.drop 8).take 8, (xs.drop 16).take 8, xs.drop 24]

/-- Encodes 32 values: E, the sub-scale byte, 32 element fields, and whether it is a NaN block (R101). -/
def sbEncode (m : Nat) (xs : List FVal) : Nat × Nat × List Nat × Bool :=
  let bad := xs.any fun v => match v with
    | .fin _ _ _ => false
    | _ => true
  let parts := xs.map fun v => match v with
    | .fin n mag e => (n, mag, e)
    | _ => (false, 0, (0 : Int))
  let top := parts.foldl (fun (acc : Option Int) (_, mag, e) =>
    if mag = 0 then acc else
      let l : Int := e + bitLength mag - 1
      some (match acc with
        | some a => max a l
        | none => l)) none
  if bad then (0xFF, 0, List.replicate 32 0, true)
  else
    match top with
    | none => (0, 0, List.replicate 32 0, false)
    | some l =>
      let e0 := (clampInt 0 254 (l + 127)).toNat
      let run (e : Nat) := (groupsOf (parts.map fun (_, mag, x) => (mag, x))).map (sbGroup m e)
      let carry := (run e0).any fun (s, ms) => s == 0 && ms.any fun v => v == 2 ^ m
      let e := if e0 < 254 && carry then e0 + 1 else e0
      let gs := run e
      let sub := gs.zipIdx.foldl (fun acc ((s, _), i) => acc + s * 4 ^ i) 0
      let mags := gs.flatMap fun (_, ms) => ms.map fun v => min v (2 ^ m - 1)
      let fields := (mags.zip parts).map fun (v, (n, _, _)) => if v = 0 then 0 else v + (if n then 2 ^ m else 0)
      (e, sub, fields, false)

/-! ## Bit streams (R100, R103) -/

/-- Packs fields of k bits, the first lowest, into one number. -/
def packBits (k : Nat) : List Nat → Nat
  | [] => 0
  | v :: rest => v % 2 ^ k + 2 ^ k * packBits k rest

/-- The bytes of a block of 32 values, and whether it is a NaN block. -/
def sbBlock (code : Nat) (xs : List FVal) : List Byte × Bool :=
  let m := sbBits code
  let (e, sub, fields, bad) := sbEncode m xs
  (bytesLE (e + 256 * sub + 65536 * packBits (m + 1) fields) (sbBytes code), bad)

/-! ## Ternary (R105) -/

/-- The five trits of a byte as −1, 0, 1, and whether the code is reserved. -/
def tritsOf (b : Nat) : List Int × Bool :=
  if 243 ≤ b then ([0, 0, 0, 0, 0], true)
  else
    let t (i : Nat) : Int := match b / 3 ^ i % 3 with
      | 0 => 0 | 1 => 1 | _ => -1
    ([t 0, t 1, t 2, t 3, t 4], false)

end Sys2Proof.Machine
end

