-- ==== Sys2Proof/Machine/Approx.lean ====
section
/-!
DEFINITION. The approximate FP32 functions FRSQ, FEX2, FLG2, FSIN and FCOS (R140): exact cases and special
results as Table 7.6 lists them; every other result is a free value within the bound of the table.
-/
namespace Sys2Proof.Machine

/-- Fractional bits of the fixed-point evaluations below. -/
def fixBits : Nat := 320
/-- π and ln 2, times 2^fixBits, rounded down. -/
def fixPi : Nat := 0x3243F6A8885A308D313198A2E03707344A4093822299F31D0082EFA98EC4E6C89452821E638D01377
def fixLn2 : Nat := 0xB17217F7D1CF79ABC9E3B39803F2F6AF40F343267298B62D8A0D175B8BAAFA2BE7B876206DEBAC98

/-- Product of fixed-point numbers. -/
def fixMul (a b : Int) : Int := a * b / 2 ^ fixBits

/-- x + x/k·t + … : n terms of a power series whose k-th term is the one before times x / k. -/
def expTerms (x : Int) : Nat → Nat → Int → Int
  | 0, _, _ => 0
  | n + 1, k, term => term + expTerms x n (k + 1) (fixMul term x / k)

/-- e^x for x from 0 to ln 2. -/
def fixExp (x : Int) : Int := expTerms x 70 1 (2 ^ fixBits)

/-- Terms of sin or cos: each is the one before times −x² / (k (k + 1)). -/
def trigTerms (x2 : Int) : Nat → Nat → Int → Int
  | 0, _, _ => 0
  | n + 1, k, term => term + trigTerms x2 n (k + 2) (-(fixMul term x2) / (k * (k + 1)))

def fixSin (x : Int) : Int := trigTerms (fixMul x x) 40 2 x
def fixCos (x : Int) : Int := trigTerms (fixMul x x) 40 1 (2 ^ fixBits)

/-- Bits of log2 x, the highest first, for x from 1 to 2: x is squared and halved when it reaches 2. -/
def logBits : Nat → Nat → Nat → Nat
  | 0, _, acc => acc
  | n + 1, x, acc =>
    let y := x * x / 2 ^ fixBits
    if 2 * 2 ^ fixBits ≤ y then logBits n (y / 2) (2 * acc + 1) else logBits n y (2 * acc)

/-- sin (or cos) of m × 2^e, as a fixed-point number. -/
def trigOf (cosine neg : Bool) (m : Nat) (e : Int) : Int :=
  let x : Int := if 0 ≤ e then (m : Int) * 2 ^ (e.toNat + fixBits) else (m : Int) * 2 ^ fixBits / 2 ^ (-e).toNat
  let half : Int := (fixPi : Int) / 2
  let q := (x + half / 2) / half
  let r := x - q * (fixPi : Int) / 2
  let quarter := ((q + if cosine then 1 else 0) % 4).toNat
  let v := match quarter with
    | 0 => fixSin r
    | 1 => fixCos r
    | 2 => -(fixSin r)
    | _ => -(fixCos r)
  if neg && !cosine then -v else v

/-- A value within `bound` of v, both dyadic: the multiple of 2^-149 there that a free number picks, rounded to
FP32; the value nearest to v where the rounding leaves the interval. -/
def withinBound (v bound : Dy) (choice : Nat) : Nat :=
  let scale (d : Dy) : Int × Nat :=
    -- d as a fraction of 2^-149 with a denominator
    if -149 ≤ d.e then (d.m * 2 ^ (d.e + 149).toNat, 1) else (d.m, 2 ^ (-149 - d.e).toNat)
  let lo := scale (v.add { bound with m := -bound.m })
  let hi := scale (v.add bound)
  let l := -(-lo.1 / lo.2)
  let h := hi.1 / hi.2
  let nearest := (roundTo fp32 {} (v.m < 0) v.m.natAbs v.e).1
  if h < l then nearest
  else
    let i : Int := l + (choice % ((h - l).toNat + 1) : Nat)
    let (r, _) := roundTo fp32 {} (i < 0 || (i == 0 && v.m < 0)) i.natAbs (-149)
    match fp32.value r with
    | .fin n m e =>
      let d := Dy.add { m := if n then -(m : Int) else m, e } { v with m := -v.m }
      if dyLt bound.m.natAbs bound.e d.m.natAbs d.e then nearest else r
    | _ => nearest

/-- k ulp of FP32 at the magnitude of v. -/
def ulps (k : Nat) (v : Dy) : Dy :=
  let top : Int := v.e + bitLength v.m.natAbs - 1
  { m := k, e := max top (-126) - 23 }

/-- A finite result that is no exact case: NX, and UF when it is tiny, by the bits returned, of which a zero is tiny too
(R140). DESIGN CHOICE, unsafe (log 91). -/
def approxFlags (ftzFlush : Bool) (r : Nat) : Nat × Flags :=
  let tiny := fp32.expo r == 0
  if ftzFlush && fp32.subnormal r then (fp32.pack (fp32.sign r) 0 0, flagUF ||| flagNX)
  else (r, if tiny then flagUF ||| flagNX else flagNX)

/-- m is a power of two. -/
def isPow2 (m : Nat) : Bool := 0 < m && 2 ^ (bitLength m - 1) == m

/-- FRSQ, FEX2, FLG2, FSIN and FCOS by opcode, on FP32 bits. Table 7.6's bounds, their ulp and its |result| ≥ 2⁻²¹ are
taken at the exact value, and .ftz flushes every subnormal result (R96), those of FLG2 and FCOS too. DESIGN CHOICE, safe
(log 8); DEDUCED, unsafe (log 85). -/
def fApprox (op : Nat) (ftz : Bool) (a : Nat) : Nat × Flags :=
  let a := fp32.flushIn ftz a
  let choice := Config.approx op (BitVec.ofNat 32 a)
  match fp32.value a with
  | .nan s => (fp32.canonNaN, if s then flagNV else 0)
  | .inf n =>
    match op with
    | 0x69 => if n then (fp32.canonNaN, flagNV) else (0, 0)
    | 0x6C => if n then (0, 0) else (fp32.infinity false, 0)
    | 0x6D => if n then (fp32.canonNaN, flagNV) else (fp32.infinity false, 0)
    | _ => (fp32.canonNaN, flagNV)
  | .fin n m e =>
    match op with
    | 0x69 =>   -- FRSQ
      if m = 0 then (fp32.infinity n, flagDZ)
      else if n then (fp32.canonNaN, flagNV)
      else if isPow2 m && (e + bitLength m - 1) % 2 = 0 then roundTo fp32 {} false 1 (-((e + bitLength m - 1) / 2))
      else
        let e2 : Int := if e % 2 = 0 then e else e - 1
        let m2 := if e % 2 = 0 then m else 2 * m
        let v : Dy := { m := isqrt (2 ^ 400 / m2), e := -200 - e2 / 2 }
        approxFlags ftz (withinBound v (ulps 1 v) choice)
    | 0x6C =>   -- FEX2
      if m = 0 then (fp32.one, 0)
      else if !n && 128 ≤ (if 0 ≤ e then m * 2 ^ e.toNat else m / 2 ^ (-e).toNat) then
        (fp32.infinity false, flagOF ||| flagNX)
      else if 0 ≤ e || m % 2 ^ (-e).toNat = 0 then
        let k : Int := (if 0 ≤ e then m * 2 ^ e.toNat else m / 2 ^ (-e).toNat : Nat)
        let k := if n then -k else k
        if -149 ≤ k then
          let (r, _) := roundTo fp32 {} false 1 k
          if ftz && fp32.subnormal r then (0, flagUF ||| flagNX) else (r, 0)
        else
          let v : Dy := { m := 1, e := max k (-400) }
          approxFlags ftz (withinBound v (ulps 2 v) choice)
      else
        let den := 2 ^ (-e).toNat
        let x : Int := if n then -(m : Int) else m
        let k := x / den
        let frac := x % den
        let v : Dy := { m := fixExp (frac * fixLn2 / den), e := max k (-400) - fixBits }
        approxFlags ftz (withinBound v (ulps 2 v) choice)
    | 0x6D =>   -- FLG2
      if m = 0 then (fp32.infinity true, flagDZ)
      else if n then (fp32.canonNaN, flagNV)
      else
        let k : Int := e + bitLength m - 1
        if isPow2 m then intToF fp32 {} k
        else
          let x := m * 2 ^ fixBits / 2 ^ (bitLength m - 1)
          let v : Dy := { m := k * 2 ^ 160 + logBits 160 x 0, e := -160 }
          let inside := k == 0 || k == -1
          approxFlags ftz (withinBound v (if inside then { m := 1, e := -22 } else ulps 2 v) choice)
    | _ =>      -- FSIN, FCOS
      let cosine := op == 0x6F
      if m = 0 then (if cosine then fp32.one else a, 0)
      else
        let v : Dy := { m := trigOf cosine n m e, e := -(fixBits : Int) }
        let small := dyLt v.m.natAbs v.e 1 (-21)
        approxFlags ftz (withinBound v (if small then { m := 1, e := -24 } else ulps 2 v) choice)

end Sys2Proof.Machine
end

