-- ==== Sys2Proof/Machine/Encoding.lean ====
section
/-!
DEFINITION. What each opcode's description says of its fields (Tables 3.5 to 3.10 and the encoding table
of each instruction chapter), and the checks of an instruction word in the order of Table 3.11.
-/
namespace Sys2Proof

/-- The word holds a literal that is not its sequencing's (R60). -/
def Fields.hasImm (w : Fields) : Bool :=
  w.form == .shortLit || (w.form == .extLit && w.seq != 3)

/-- M[7] marks B as uniform under U = 0 (R62). -/
abbrev Fields.ub (w : Fields) : Bool := !w.u && w.m.getLsbD 7
/-- M[6] marks C as uniform under U = 0 (R62). -/
abbrev Fields.uc (w : Fields) : Bool := !w.u && w.m.getLsbD 6

end Sys2Proof

namespace Sys2Proof.Machine

/-- The operand kind a description gives for a register field (Table 3.4, R61). -/
inductive Kind where
  /-- the position is not used: the field is zero -/
  | unused
  /-- the field holds something the opcode's own checks decide -/
  | free
  /-- n consecutive vector registers (1 a register, 4 the arguments of SYSC) -/
  | vec (n : Nat)
  /-- vector pair -/
  | pair
  /-- uniform register or special as a source -/
  | uniSrc
  /-- n consecutive uniform registers; `even` when the first must be even -/
  | uniRun (n : Nat) (even : Bool)
  /-- uniform register as a destination -/
  | uniDst
  /-- n consecutive predicates -/
  | pred (n : Nat)
  /-- the even predicate of a pair -/
  | predPair
  /-- n consecutive tile slots -/
  | tile (n : Nat)
  /-- n consecutive accumulator regions -/
  | region (n : Nat)
  /-- slot counter c0 to c3 (R343) -/
  | slotCounter
  /-- device counter number (R343) -/
  | deviceCounter
  /-- system register number (R79) -/
  | sysReg
  deriving DecidableEq, Repr

/-- What an opcode's description gives for one word of it. -/
structure OpInfo where
  u0 : Bool := true
  u1 : Bool := true
  /-- any sequencing selector (Table 3.10), else NEXT only -/
  seqAny : Bool := true
  short : Bool := false
  shortLit : Bool := false
  /-- LEN 0b01 allowed -/
  ext : Bool := true
  /-- number of literal bits that the named immediate uses; none: no immediate -/
  imm : Option Nat := none
  /-- the literal supplies B -/
  immIsB : Bool := true
  d : Kind := .unused
  a : Kind := .unused
  b : Kind := .unused
  c : Kind := .unused
  /-- bits of M that are reserved (reason 3) -/
  mZero : BitVec 8 := 0xFF
  /-- bits of F that are zero (reason 3) -/
  fZero : BitVec 4 := 0
  /-- bits of X that are zero under NEXT (reason 3) -/
  xZero : BitVec 26 := 0x3FFFFFF
  /-- a further reserved field is non-zero (reason 3) -/
  bad3 : Bool := false
  /-- a reserved modifier, type, format or F value, or a forbidden mix (reason 9) -/
  bad9 : Bool := false
  /-- C names a uniform register that the instruction also writes -/
  writesC : Bool := false
  /-- needs privilege (R354) -/
  priv : Bool := false
  deriving DecidableEq, Repr

/-- Bits hi to lo of a value. -/
abbrev fld {n : Nat} (x : BitVec n) (hi lo : Nat) : Nat := (x.toNat >>> lo) % 2 ^ (hi + 1 - lo)

/-- A source or destination register of 32 or 64 bits in the per-thread or the uniform form (R111). -/
def vecKind (u is64 : Bool) : Kind := if u then .uniSrc else if is64 then .pair else .vec 1
def dstKind (u is64 : Bool) : Kind := if u then .uniDst else if is64 then .pair else .vec 1
/-- The B position: nothing beside a literal, a uniform source when flagged, else a register. -/
def bKind (w : Fields) (is64 : Bool) : Kind :=
  if w.hasImm then .unused else if w.u || w.ub then .uniSrc else if is64 then .pair else .vec 1
/-- The C position. -/
def cKind (w : Fields) (is64 : Bool) : Kind :=
  if w.u || w.uc then .uniSrc else if is64 then .pair else .vec 1

/-- Reserved bits of M: `keep` are the opcode's own bits below the flags, ub and uc say which flags the
per-thread form takes (R62). A flag of an operand that the opcode lacks (M[6] on IADD, ICMP, AND, SHL, IADD2, LEA), and
M[7] beside a literal that supplies B (stated by R112, R131 and R148 for their opcodes, and by no rule for SEL, PSET, GSWZ,
RDTH, WRTH, CADD, CWAIT, CPOLL and SYSC), count as reserved bits, reason 3. DESIGN CHOICE, unsafe (log 79). -/
def mRes (w : Fields) (keep : BitVec 8) (ub uc : Bool) : BitVec 8 :=
  let flags : BitVec 8 := (if !w.u && ub && !w.hasImm then 0x80 else 0) ||| (if !w.u && uc then 0x40 else 0)
  ~~~(keep ||| flags)

/-- Integer class (R110 to R121). -/
def integerInfo (op : Nat) (w : Fields) : OpInfo :=
  let is64 := w.m.getLsbD 5
  let sat := w.m.getLsbD 3
  let wb := if is64 then 64 else 32
  let f0 := w.f != 0
  let two (satOk : Bool) (sl : Bool := true) : OpInfo :=
    { shortLit := sl, imm := some wb, d := dstKind w.u is64, a := vecKind w.u is64, b := bKind w is64,
      mZero := mRes w 0x38 true false, bad9 := f0 || (sat && !satOk) }
  let three (satOk : Bool) : OpInfo :=
    { two satOk false with c := cKind w is64, mZero := mRes w 0x38 true true }
  let one (satOk : Bool) : OpInfo :=
    { short := true, d := dstKind w.u is64, a := vecKind w.u is64,
      mZero := mRes w 0x38 false false, bad9 := f0 || (sat && !satOk) }
  match op with
  | 0x20 | 0x21 | 0x24 => two true
  | 0x22 | 0x23 => { two false false with
      c := if w.u then .uniRun 1 false else .pred 1, writesC := w.u }
  | 0x25 => two false
  | 0x26 => three true
  | 0x27 =>
    { imm := some 32, d := dstKind w.u true, a := vecKind w.u false, b := bKind w false, c := cKind w true,
      mZero := mRes w 0x38 true true, bad9 := f0 || is64 }
  | 0x28 => two true
  | 0x29 => two false
  | 0x2A | 0x2B => two false
  | 0x2C => { one true with bad9 := f0 || w.m.getLsbD 4 }
  | 0x2D => one true
  | 0x2E => three true
  | 0x2F => { two false with d := if w.u then .uniDst else .pred 1, bad9 := 6 ≤ w.f.toNat || sat }
  | _ =>   -- 0x30 LEA
    { imm := some 64, immIsB := false, d := dstKind w.u true, a := vecKind w.u true,
      b := if w.u || w.ub then .uniSrc else if is64 then .pair else .vec 1,
      mZero := ~~~(0x38 ||| (if w.u then 0 else 0x80)), bad9 := sat }

/-- Bit class (R122 to R126). -/
def bitInfo (op : Nat) (w : Fields) : OpInfo :=
  let is64 := fld w.m 5 4 == 1
  let bad := w.m.getLsbD 5
  let wb := if is64 then 64 else 32
  let f0 := w.f != 0
  let two (bits : Nat) (b64 : Bool) : OpInfo :=
    { shortLit := true, imm := some bits, d := dstKind w.u is64, a := vecKind w.u is64, b := bKind w b64,
      mZero := mRes w 0x30 true false, bad9 := bad || f0 }
  let three (bits : Nat) (b64 : Bool) : OpInfo :=
    { two bits b64 with shortLit := false, c := cKind w is64, mZero := mRes w 0x30 true true }
  let one : OpInfo :=
    { short := true, d := dstKind w.u is64, a := vecKind w.u is64,
      mZero := mRes w 0x30 false false, bad9 := bad || f0 }
  match op with
  | 0x40 | 0x41 | 0x42 | 0x43 => two wb is64
  | 0x44 => { three wb is64 with seqAny := false, xZero := 0x3FFFF00 }
  | 0x45 | 0x46 | 0x47 | 0x48 => two 32 false
  | 0x49 | 0x4A => three 32 false
  | 0x4B => { two 32 false with bad9 := bad || 2 ≤ w.f.toNat }
  | 0x4C => three 32 false
  | 0x4D | 0x4E | 0x4F => { one with d := dstKind w.u false }
  | 0x50 => one
  | _ => three 32 false   -- 0x51 BPERM

/-- Packed integer class (R127, R128). -/
def packedInfo (op : Nat) (w : Fields) : OpInfo :=
  let sat := w.m.getLsbD 3
  let bad := w.m.getLsbD 5
  let two (satOk : Bool) : OpInfo :=
    { shortLit := true, imm := some 32, d := dstKind w.u false, a := vecKind w.u false, b := bKind w false,
      mZero := mRes w 0x38 true false, bad9 := bad || w.f != 0 || (sat && !satOk) }
  match op with
  | 0x52 | 0x53 => two true
  | 0x54 | 0x55 => two false
  | 0x56 => { two false with d := if w.u then .uniDst else .predPair, bad9 := bad || 6 ≤ w.f.toNat || sat }
  | _ => { two true with shortLit := false, c := if w.u then .uniRun 1 false else .vec 1, writesC := w.u,
                         bad9 := bad || 2 ≤ w.f.toNat }

/-- Floating-point class (R129 to R141). -/
def floatInfo (op : Nat) (w : Fields) : OpInfo :=
  let dbl := (0x78 ≤ op && op ≤ 0x83)
  let packed := 0x88 ≤ op
  let rounds := w.m.toNat % 4 != 0
  let keep : BitVec 8 := if packed then 0x33 else 0x23
  let f0 := w.f != 0
  let two (rm : Bool) : OpInfo :=
    { shortLit := true, imm := some (if dbl then 64 else 32), d := dstKind w.u dbl, a := vecKind w.u dbl,
      b := bKind w dbl, mZero := mRes w keep true false, bad9 := f0 || (rounds && !rm) }
  let three : OpInfo := { two true with shortLit := false, c := cKind w dbl, mZero := mRes w keep true true }
  let one (rm sh : Bool) : OpInfo :=
    { short := sh, d := dstKind w.u dbl, a := vecKind w.u dbl, mZero := mRes w keep false false,
      bad9 := f0 || (rounds && !rm) }
  match op with
  | 0x60 | 0x61 | 0x62 | 0x6B | 0x78 | 0x79 | 0x7A | 0x82 | 0x88 | 0x89 => two true
  | 0x63 | 0x7B | 0x8A => three
  | 0x64 | 0x65 | 0x7C | 0x7D | 0x8B | 0x8C => two false
  | 0x66 | 0x7E => { two false with d := if w.u then .uniDst else .pred 1, bad9 := 14 ≤ w.f.toNat || rounds }
  | 0x67 | 0x7F => { two false with d := if w.u then .uniDst else .pred 1, imm := some 32, b := bKind w false,
                                    bad9 := f0 || rounds || w.m.getLsbD 5 }
  | 0x68 | 0x6A | 0x80 | 0x81 => one true true
  | 0x70 | 0x83 => one true false
  | _ => one false true   -- FRSQ, FEX2, FLG2, FSIN, FCOS

/-- A type code that CVT takes (R142). -/
def cvtType (n : Nat) : Bool := n ≤ 14 || (18 ≤ n && n ≤ 20)
/-- Integer type codes of Table 3.6. `.b1`, which CVT does not take, is left out, so that it is reason 9 whatever X
holds. DESIGN CHOICE, unsafe (log 90). -/
def intType (n : Nat) : Bool := n ≤ 7 || (18 ≤ n && n ≤ 20)
/-- Types that fill 64 bits of a register (Table 5.4). -/
def wideType (n : Nat) : Bool := n == 3 || n == 7 || n == 11

/-- CVT, TRIPCK and TRIUNP (R142, R144). -/
def convInfo (op : Nat) (w : Fields) : OpInfo :=
  match op with
  | 0x90 =>
    let dst := w.m.toNat % 32
    let src := w.x.toNat % 32
    { seqAny := false, d := dstKind w.u (wideType dst), a := vecKind w.u (wideType src),
      mZero := 0xC0, xZero := if intType dst && intType src then 0x3FFFFE0 else 0x3FFFF00,
      bad9 := w.f != 0 || !cvtType dst || (w.seq == 0 && !cvtType src) }
  | 0x91 => { d := dstKind w.u false, a := vecKind w.u true, bad9 := w.f != 0 }
  | _ => { d := dstKind w.u true, a := vecKind w.u false, bad9 := w.f != 0 }

/-- Movement and group class (Table 8.1). `width` is W when known. MOV with F[0] = 0 ignores M[7]. DEDUCED, unsafe (log
15); DESIGN CHOICE, unsafe (log 92). -/
def moveInfo (op : Nat) (w : Fields) (width : Option Nat) : OpInfo :=
  let wid := fld w.m 5 4
  let is64 := wid == 1
  let badW := 2 ≤ wid || (w.u && wid != 0)
  let immBits := if is64 || w.u then 64 else 32
  let n := w.f.toNat + 1
  let ty := w.m.toNat % 32
  let ty64 := wideType ty
  let gTypeBad := !(ty == 2 || ty == 3 || ty == 6 || ty == 7 || ty == 10 || ty == 11)
  let gop := w.f.toNat % 8
  let gFloat := ty == 10 || ty == 11
  let gBad := gTypeBad || 6 ≤ gop || (gFloat && 3 ≤ gop) || (w.m.getLsbD 5 && (gFloat || gop != 0))
  match op with
  | 0xA0 =>
    let fromB := w.f.getLsbD 0
    { short := true, shortLit := true, imm := some immBits, d := dstKind w.u is64,
      a := if fromB then .unused else vecKind w.u is64, b := if fromB then bKind w is64 else .unused,
      mZero := mRes w 0x30 true false, fZero := 0xE, bad3 := w.hasImm && !fromB, bad9 := badW }
  | 0xA1 =>
    { shortLit := true, ext := false, imm := some immBits, d := dstKind w.u is64,
      mZero := ~~~(0x30 : BitVec 8), fZero := 0xF, bad9 := badW }
  | 0xA2 =>
    { shortLit := true, imm := some immBits, d := dstKind w.u is64, a := vecKind w.u is64, b := bKind w is64,
      c := if w.u then .uniSrc else .pred 1, mZero := mRes w 0x30 true false, fZero := 0xE, bad9 := badW }
  | 0xA3 =>
    { u1 := false, seqAny := false, d := .pred 1, a := .pred 1, b := .pred 1, c := .pred 1, fZero := 0xF,
      xZero := 0x3FFFF00 }
  | 0xA4 =>
    { u1 := false, shortLit := true, imm := some 32, d := .pred n, b := bKind w false,
      mZero := mRes w 0 true false }
  | 0xA5 => { u1 := false, d := .vec 1, a := .pred n }
  | 0xA6 => { u1 := false, d := .uniDst, a := .pred 1, mZero := 0xFE, bad9 := 5 ≤ w.f.toNat }
  | 0xA7 =>
    let seg := w.m.toNat % 8
    { u1 := false, shortLit := true, imm := some 32, d := dstKind false is64, a := vecKind false is64,
      b := bKind w false, mZero := mRes w 0x37 true false,
      bad9 := badW || 5 ≤ w.f.toNat || seg == 7 || (match width with | some W => W < 2 ^ seg && seg != 0 | none => false) }
  | 0xA8 =>
    { u1 := false, shortLit := true, imm := some 32, d := .uniDst, a := vecKind false is64, b := bKind w false,
      mZero := mRes w 0x30 true false, fZero := 0xF, bad9 := badW || !(w.hasImm || w.ub) }
  | 0xA9 =>
    { u1 := false, shortLit := true, imm := some 32, d := dstKind false is64, a := .uniSrc, b := bKind w false,
      mZero := mRes w 0x30 true false, fZero := 0xF, bad9 := badW || !(w.hasImm || w.ub) }
  | 0xAA =>
    { u1 := false, d := .uniDst, a := vecKind false ty64, mZero := 0xC0, fZero := 0x8, bad9 := gBad }
  | _ =>
    { u1 := false, d := dstKind false ty64, a := vecKind false ty64, mZero := 0xC0, bad9 := gBad }

/-- Memory class (R204 to R223). A and B of CCTL and ICINV with a reserved F count as unused, so that reason 3 comes
before 9. DEDUCED, unsafe (log 14); DESIGN CHOICE, unsafe (log 94). -/
def memoryInfo (op : Nat) (w : Fields) : OpInfo :=
  let own := w.seq == 0          -- X belongs to the opcode
  let ord := if own then fld w.x 25 24 else 0
  let ix := own && w.x.getLsbD 23
  let sz := w.f.toNat % 8
  let bk := w.f.getLsbD 3
  let split := w.m.getLsbD 0
  let scopeUsed : BitVec 8 := if ord != 0 then 0x38 else 0
  let sz64 := sz == 5
  let base (scratch : Bool) : Kind := if bk then (if scratch then .vec 1 else .pair) else .uniSrc
  let bIdx : Kind := if ix then .vec 1 else .unused
  let is64 := w.f.getLsbD 1
  let wb := if is64 then 64 else 32
  let atomic : OpInfo :=
    { shortLit := true, imm := some wb, d := dstKind w.u is64, a := vecKind w.u true,
      b := if w.hasImm then .unused else if w.u then .uniSrc else if is64 then .pair else .vec 1, mZero := ~~~(0x38 : BitVec 8) }
  let load (scratch : Bool) : OpInfo :=
    { u1 := false, seqAny := false, imm := if split then some 64 else none, immIsB := false,
      d := dstKind false sz64, a := base scratch, b := bIdx,
      mZero := ~~~(0x07 ||| scopeUsed), xZero := 0,
      bad9 := 6 ≤ sz || ord == 3 || ord == 2 || (split && ord == 1) }
  let store (scratch : Bool) : OpInfo :=
    { u1 := false, seqAny := false, a := base scratch, b := bIdx,
      c := if w.uc then .uniSrc else if sz64 then .pair else .vec 1,
      mZero := ~~~((if scratch then 0x40 else 0x46) ||| scopeUsed), xZero := 0,
      bad9 := 6 ≤ sz || ord == 3 || ord == 1 }
  match op with
  | 0xB0 => load false
  | 0xB1 => store false
  | 0xB2 => load true
  | 0xB3 => store true
  | 0xB4 =>
    { u0 := false, seqAny := false, d := if sz == 6 then .uniRun 2 true else .uniDst,
      a := .uniSrc, b := if ix then .uniSrc else .unused, mZero := ~~~(0x06 ||| scopeUsed), xZero := 0,
      bad9 := bk || sz == 7 || ord == 3 || ord == 2 }
  | 0xB5 =>
    { u0 := false, seqAny := false, a := .uniSrc, b := if ix then .uniSrc else .unused,
      c := if sz == 6 then .uniRun 2 true else .uniSrc, mZero := ~~~(0x06 ||| scopeUsed), xZero := 0,
      bad9 := bk || sz == 7 || ord == 3 || ord == 1 }
  | 0xB9 => { atomic with shortLit := false, c := .free, bad9 := 3 ≤ w.c.toNat }
  | 0xBB => { atomic with shortLit := false, c := cKind w is64, mZero := ~~~(0x38 ||| (if w.u then 0 else 0x40)) }
  | 0xBC => { atomic with bad9 := w.f.getLsbD 0 }
  | 0xBD => { u0 := false, mZero := ~~~(0x38 : BitVec 8), bad9 := 3 ≤ w.f.toNat }
  | 0xBE =>
    { u1 := false, seqAny := false, a := base false, b := bIdx, mZero := ~~~(0x06 : BitVec 8), fZero := 0x7, xZero := 0x3000000 }
  | 0xBF | 0xC0 =>
    let range := w.f == 0
    { u0 := false, a := if range then .uniSrc else .unused, b := if range then .uniSrc else .unused,
      bad9 := 2 ≤ w.f.toNat }
  | _ => atomic

/-- Counter class (Table 19.1, R342, R343). DEDUCED, unsafe (log 15). -/
def counterInfo (op : Nat) (w : Fields) : OpInfo :=
  let kind := w.f.toNat % 4
  let flag := w.m.getLsbD 0
  let aKind : Kind :=
    if w.u then (if kind == 0 then .uniSrc else if kind == 1 then .slotCounter else if kind == 2 then .deviceCounter else .free)
    else if kind == 0 then .pair else .free
  let kindBad := kind == 3 || (!w.u && kind != 0) ||
    (w.u && kind == 2 && 11 ≤ w.a.toNat && w.a.toNat ≤ 15)
  let scope : BitVec 8 := 0x38
  let bThr : Kind := bKind w true
  match op with
  | 0xD0 =>
    { shortLit := true, imm := some 32, d := if flag then dstKind w.u true else .unused, a := aKind, b := bKind w false,
      mZero := mRes w (scope ||| 1) true false, fZero := 0xC, bad9 := kindBad || kind == 2 }
  | 0xD1 =>
    { shortLit := true, imm := some 64, d := if flag then (if w.u then .uniDst else .pred 1) else .unused, a := aKind, b := bThr,
      mZero := mRes w (scope ||| 1) true false, fZero := 0xC, bad9 := kindBad }
  | 0xD2 =>
    { u0 := false, imm := some 64, d := if flag then .uniDst else .unused, a := aKind, b := bThr, c := .uniSrc,
      mZero := ~~~(scope ||| 1), fZero := 0x8, bad9 := kindBad }
  | 0xD3 =>
    { shortLit := true, imm := some 64, d := if w.u then .uniDst else .pred 1, a := aKind, b := bThr,
      mZero := mRes w scope true false, fZero := 0xC, bad9 := kindBad }
  | 0xD4 => { d := dstKind w.u true, a := aKind, fZero := 0xC, bad9 := kindBad }
  | 0xD5 =>
    { u0 := false, imm := some 64, a := .uniSrc, b := bThr, c := .uniSrc, fZero := 0xC, bad9 := kind != 0 }
  | 0xD6 =>
    { u0 := false, shortLit := true, imm := some 64, a := aKind, b := bThr, fZero := 0xC, bad9 := kindBad || kind == 2 }
  | 0xD7 => { u0 := false, shortLit := true, imm := some 64, b := bThr, fZero := 0xC }
  | _ => { u0 := false, d := .uniDst, bad9 := fld w.f 3 2 == 3 }

/-- Copy class (Tables 15.1 and 15.3). -/
def copyInfo (op : Nat) (w : Fields) : OpInfo :=
  let f := w.f.toNat
  let start (fz : BitVec 4) (bad : Bool) : OpInfo :=
    { u0 := false, seqAny := false, imm := some 64, immIsB := false, d := .uniDst, a := .uniRun 3 false,
      c := .uniRun 2 true, mZero := 0xC7, fZero := fz, bad9 := bad }
  match op with
  | 0xE0 => start 0x8 ((w.f.getLsbD 0 && w.f.getLsbD 1) || (w.f.getLsbD 2 && !w.f.getLsbD 1))
  | 0xE1 => start 0 (f % 4 == 3)
  | 0xE2 | 0xE3 | 0xE4 => start 0xC false
  | 0xE5 => { start 0x8 (f % 4 == 3) with mZero := 0xC6 }
  | 0xE6 => start 0xE false
  | 0xE7 => start 0xC false
  | _ =>
    { u0 := false, seqAny := false, a := if w.f.getLsbD 0 then .unused else .uniSrc, mZero := 0xC7, fZero := 0xE }

/-- Matrix class (Table 13.1). -/
def matrixInfo (op : Nat) (w : Fields) : OpInfo :=
  let n := w.f.toNat + 1
  let fa := fld w.m 5 3
  let fb := w.m.toNat % 8
  let extentBad := w.f.toNat % 4 == 3 || fld w.f 3 2 == 3
  let mma (bad : Bool) (fz : BitVec 4) (fBad : Bool) : OpInfo :=
    { u0 := false, seqAny := false, d := .region 1, a := .tile 1, b := .tile 1, mZero := 0xC0, fZero := fz,
      xZero := 0x3FFF000, bad9 := bad || fBad }
  let fBad := w.f != 0
  let is64 := w.f.getLsbD 0
  let idx : Kind := if w.u || w.ub then .uniSrc else .vec 1
  match op with
  | 0xF0 | 0xF1 => { u0 := false, d := .tile n }
  | 0xF2 => { u0 := false, d := .region n, mZero := 0xFC, bad9 := w.m.toNat % 4 == 0 }
  | 0xF3 | 0xFC => { u0 := false, d := .region n }
  | 0xF4 => mma (fa != 0 || fb != 0) 0 fBad
  | 0xF5 | 0xF6 => mma (2 ≤ fa || fa != fb) 0 fBad
  | 0xF7 => mma (2 ≤ fa || 2 ≤ fb) 0 fBad
  | 0xF8 => mma (3 ≤ fa || 3 ≤ fb) 0 fBad
  | 0xF9 =>
    let mix := (fa == 1 && fb == 2) || (fa == 2 && fb == 1) || (fa == 3 && fb == 4) || (fa == 4 && fb == 3)
    mma (fa == 7 || fb == 7 || !(fa == fb || mix)) 0xE false
  | 0xFA => mma (3 ≤ fa || fa != fb) 0 fBad
  | 0xFB =>
    { u0 := false, seqAny := false, d := .region 1, a := .region 1, b := .tile 1, mZero := 0xFE, xZero := 0x3000000,
      bad9 := extentBad }
  | 0xFD =>
    { seqAny := false, d := dstKind w.u is64, a := .region 1, b := idx, mZero := mRes w 0 true false, fZero := 0xE,
      xZero := 0x3FFF000 }
  | 0xFE =>
    { seqAny := false, d := .region 1, a := vecKind w.u is64, b := idx, mZero := mRes w 0 true false, fZero := 0xE,
      xZero := 0x3FFF000 }
  | _ =>
    { u0 := false, seqAny := false, d := .region 1, a := .region 1, mZero := 0xF8, xZero := 0x3000000,
      bad9 := extentBad || w.m.toNat % 4 == 3 || (w.m.getLsbD 2 && w.m.toNat % 4 != 0) }

/-- System registers marked P (Table 4.3). -/
def privilegedReg (n : Nat) : Bool := (0x20 ≤ n && n ≤ 0x22) || (0x30 ≤ n && n ≤ 0x39)
/-- System register numbers that exist (Tables 4.3 and 25.2). -/
def sysRegExists (n : Nat) : Bool := n ≤ 0x0A || n == 0x10 || privilegedReg n

/-- Control class (Table 16.3) and the system instructions of chapter 20. SYSC with neither a literal nor M[7] is reason 9
(R364) whatever its B field holds, which R61 and R62 would else check first. DEDUCED, unsafe (log 15). -/
def controlInfo (op : Nat) (w : Fields) : OpInfo :=
  match op with
  | 0x01 => { short := true, fZero := 0xF }
  | 0x02 => { u0 := false, short := true, fZero := 0xF }
  | 0x03 => { u1 := false, seqAny := false, short := true, fZero := 0xF }
  | 0x04 => { u0 := false, seqAny := false, d := .uniDst, fZero := 0xF, xZero := 0 }
  | 0x05 => { u1 := false, seqAny := false, d := .uniDst, a := .vec 1, fZero := 0xF, xZero := 0x3FFFFF8 }
  | 0x06 => { u1 := false, seqAny := false, a := .vec 1, fZero := 0xF, xZero := 0x3FFFFF8 }
  | 0x07 => { u0 := false, seqAny := false, short := true, a := .uniSrc, fZero := 0xF }
  | 0x08 => { u0 := false, shortLit := true, ext := false, imm := some 32, immIsB := false, fZero := 0xE }
  | 0x09 => { u1 := false, seqAny := false, fZero := 0xF, xZero := 0x3FF0000 }
  | 0x0A => { u0 := false, seqAny := false, short := true, fZero := 0xE }
  | 0x0B =>
    { u1 := false, shortLit := true, imm := some 16, d := .pair, a := .vec 4,
      b := if w.hasImm then .unused else if w.ub then .uniSrc else .free,
      mZero := mRes w 0 true false, fZero := 0xF, bad9 := !w.hasImm && !w.ub }
  | 0x0C => { u1 := false, seqAny := false, short := true }
  | 0x0D => { u0 := false, short := true, a := .uniSrc, fZero := 0xE }
  | 0x0E =>
    let reg := w.d == 1
    { u0 := false, short := true, d := .free, a := if reg then .uniSrc else .unused, fZero := if reg then 0xF else 0,
      bad9 := 2 ≤ w.d.toNat }
  | 0x0F =>
    let taddr := w.a == 0x0A
    { short := true, d := if w.u then .uniDst else .pair, a := .sysReg, fZero := 0xF,
      bad9 := (taddr && w.u) || (!taddr && !w.u), priv := privilegedReg w.a.toNat }
  | 0x10 => { short := true, d := .sysReg, a := .uniSrc, fZero := 0xF, bad9 := !w.u, priv := privilegedReg w.d.toNat }
  | 0x11 => { u0 := false, short := true, fZero := 0xF }
  | _ =>
    let form := w.f.toNat % 4
    { u0 := false, a := if form == 0 || form == 2 then .uniSrc else .unused, b := if form == 2 then .uniSrc else .unused,
      fZero := 0xC, priv := true }

/-- Table 3.9: the opcode is assigned. -/
def opAssigned (op : Nat) : Bool :=
  (0x01 ≤ op && op ≤ 0x12) || (0x20 ≤ op && op ≤ 0x30) || (0x40 ≤ op && op ≤ 0x57) ||
  (0x60 ≤ op && op ≤ 0x70) || (0x78 ≤ op && op ≤ 0x83) || (0x88 ≤ op && op ≤ 0x8C) ||
  (0x90 ≤ op && op ≤ 0x92) || (0xA0 ≤ op && op ≤ 0xAB) || (0xB0 ≤ op && op ≤ 0xC0) ||
  (0xD0 ≤ op && op ≤ 0xD8) || (0xE0 ≤ op && op ≤ 0xE8) || (0xF0 ≤ op && op ≤ 0xFF)

/-- The description of an assigned opcode for one word of it. -/
def opInfo (op : Nat) (w : Fields) (width : Option Nat := none) : OpInfo :=
  if op < 0x20 then controlInfo op w
  else if op < 0x40 then integerInfo op w
  else if op < 0x52 then bitInfo op w
  else if op < 0x60 then packedInfo op w
  else if op < 0x90 then floatInfo op w
  else if op < 0xA0 then convInfo op w
  else if op < 0xB0 then moveInfo op w width
  else if op < 0xD0 then memoryInfo op w
  else if op < 0xE0 then counterInfo op w
  else if op < 0xF0 then copyInfo op w
  else matrixInfo op w

/-- An opcode that cannot do without its literal (R70). -/
def needsLiteral (op : Nat) : Bool := op == 0x08 || op == 0xA1

/-- Reason 1: LEN not allowed, or a needed literal missing (R59, R70). -/
def badLen (op : Nat) (w : Fields) (i : OpInfo) : Bool :=
  match w.form with
  | .short => !i.short || (op == 0xA0 && w.f.getLsbD 0)
  | .ext => !i.ext
  | .shortLit => !i.shortLit
  | .extLit =>
    if w.seq == 3 then !(i.seqAny || i.imm.isSome) || needsLiteral op
    else i.imm.isNone

/-- A field of a kind that must be zero is not, or a predicate field has bit [7] set (reason 3). -/
def kindBad3 (k : Kind) (v : BitVec 8) : Bool :=
  match k with
  | .unused => v != 0
  | .pred _ | .predPair => v.getLsbD 7
  | _ => false

/-- Reason 3: reserved bits and fields. -/
def badReserved (w : Fields) (i : OpInfo) : Bool :=
  kindBad3 i.d w.d || kindBad3 i.a w.a || kindBad3 i.b w.b || kindBad3 i.c w.c ||
  (w.m &&& i.mZero) != 0 || (w.f &&& i.fZero) != 0 || i.bad3 ||
  (w.seq == 0 && (w.x &&& i.xZero) != 0) || (w.seq == 3 && 256 ≤ w.x.toNat) ||
  (w.hasImm && (match i.imm with | some n => 2 ^ n ≤ w.lit.toNat | none => false))

/-- A register field lies outside the range of its kind (Table 3.4, reason 7). -/
def kindBad7 (k : Kind) (v : BitVec 8) : Bool :=
  let n := v.toNat
  match k with
  | .unused | .free => false
  | .vec c => 256 < n + c
  | .pair => n % 2 == 1
  | .uniSrc => 79 ≤ n
  | .uniRun c even => 64 < n + c || (even && n % 2 == 1)
  | .uniDst => 64 ≤ n
  | .pred c => 96 < n % 128 + c
  | .predPair => 96 < n % 128 + 2 || n % 2 == 1
  | .tile c => 48 < n + c
  | .region c => 16 < n + c
  | .slotCounter => 4 ≤ n
  | .deviceCounter => 16 ≤ n
  | .sysReg => !sysRegExists n

/-- Reason 7: register and sequencing fields (R61, R68). -/
def badRange (w : Fields) (i : OpInfo) : Bool :=
  kindBad7 i.d w.d || kindBad7 i.a w.a || kindBad7 i.b w.b || kindBad7 i.c w.c ||
  (w.seq == 2 && (if fld w.x 9 8 == 3 then 64 ≤ w.x.toNat % 128 else 96 ≤ w.x.toNat % 128)) ||
  (w.seq == 3 && 96 ≤ w.x.toNat % 128)

/-- Reason 6: the guard (R63). -/
def badGuard (w : Fields) : Bool :=
  (96 ≤ w.g.toNat && w.g != 127) || (w.g == 127 && w.gn) || (w.g != 127 && w.u)

/-- The window sizes of the executing fibre and slot, its privilege and its launch's W: what reasons 8, 9
(for GSWZ) and 10 read beside the word (R72). -/
structure DecodeEnv where
  privWindow : Nat
  sharedWindow : Nat
  width : Nat
  privileged : Bool
  deriving DecidableEq, Repr

/-- R20: the vector name is mapped. -/
def vecMapped (e : DecodeEnv) (n : Nat) : Bool :=
  n < e.privWindow || (192 ≤ n && n < 192 + e.sharedWindow)

/-- Reason 8 for one field. -/
def kindUnmapped (e : DecodeEnv) (k : Kind) (v : BitVec 8) : Bool :=
  match k with
  | .vec c => (List.range c).any fun j => !vecMapped e (v.toNat + j)
  | .pair => !vecMapped e v.toNat || !vecMapped e (v.toNat + 1)
  | _ => false

def badUnmapped (e : DecodeEnv) (w : Fields) (i : OpInfo) : Bool :=
  kindUnmapped e i.d w.d || kindUnmapped e i.a w.a || kindUnmapped e i.b w.b || kindUnmapped e i.c w.c

/-- Uniform registers that a kind in the destination position writes. -/
def kindWrites (k : Kind) (v : BitVec 8) (r : Nat) : Bool :=
  match k with
  | .uniDst => v.toNat == r
  | .uniRun n _ => v.toNat ≤ r && r < v.toNat + n
  | _ => false

/-- Reason 11: LOOP names a register that the instruction writes (R68). -/
def badLoop (w : Fields) (i : OpInfo) : Bool :=
  w.seq == 4 && (kindWrites i.d w.d (w.x.toNat % 64) || (i.writesC && w.c.toNat == w.x.toNat % 64))

/-- The first reason of Table 3.11 that a word of an assigned opcode breaks (R71). Without an
environment only the reasons that the word alone decides are looked for. -/
def encodingReason (op : Nat) (w : Fields) (e : Option DecodeEnv) : Option Nat :=
  let i := opInfo op w (e.map (·.width))
  if badLen op w i then some 1
  else if (w.u && !i.u1) || (!w.u && !i.u0) then some 2
  else if badReserved w i then some 3
  else if 5 ≤ w.seq.toNat then some 4
  else if (w.seq != 0 && !i.seqAny) || (w.seq == 3 && w.form != .extLit) then some 5
  else if badGuard w then some 6
  else if badRange w i then some 7
  else if (match e with | some e => badUnmapped e w i | none => false) then some 8
  else if i.bad9 then some 9
  else if (match e with | some e => i.priv && !e.privileged | none => false) then some 10
  else if badLoop w i then some 11
  else none

/-- A form without a field holds the values of R59 there, and a form without a literal a zero one. -/
def fieldsCanonical (w : Fields) : Bool :=
  match w.form with
  | .short | .shortLit =>
    w.b == 0 && w.c == 0 && w.m == 0 && w.g == 127 && !w.gn && w.seq == 0 && w.stl == 0 && w.x == 0 &&
      (w.form == .shortLit || w.lit == 0)
  | .ext => w.lit == 0
  | .extLit => true

/-- The fields of a short word: the first word's own, and those of R59 in the rest. DEDUCED, unsafe (log 14). -/
def shortWord (u y : Bool) (a d : BitVec 8) (f : BitVec 4) : Fields :=
  { form := .short, y, u, f, a, d, b := 0, c := 0, g := 127, gn := false, m := 0, stl := 0, seq := 0, x := 0,
    lit := 0 }

/-- A one-bit F sub-function. -/
def bit4 (b : Bool) : BitVec 4 := if b then 1 else 0

/-- The major opcode of an MMA family (Table 3.7). -/
def mmaOp : MmaFamily → Nat
  | .fp64 => 0xF4 | .single => 0xF5 | .half => 0xF6 | .fp8 => 0xF7 | .block => 0xF8 | .integer => 0xF9 | .complex => 0xFA

/-- The major opcode and the fields of an instruction that has words; none for a step of the device. -/
def opFields (i : Instr) : Option (Nat × Fields) :=
  match i with
  | .nopShort u y => some (0x01, shortWord u y 0 0 0)
  | .nop w => some (0x01, w)
  | .yieldShort y => some (0x02, shortWord true y 0 0 0)
  | .yield w => some (0x02, w)
  | .exitShort y => some (0x03, shortWord false y 0 0 0)
  | .exit w => some (0x03, w)
  | .call w => some (0x04, w)
  | .callx w => some (0x05, w)
  | .jx w => some (0x06, w)
  | .retShort a y => some (0x07, shortWord true y a 0 0)
  | .ret w => some (0x07, w)
  | .sigck w => some (0x08, w)
  | .trap w => some (0x09, w)
  | .tretShort s y => some (0x0A, shortWord true y 0 0 (bit4 s))
  | .tret w => some (0x0A, w)
  | .sysc w => some (0x0B, w)
  | .brkShort n y => some (0x0C, shortWord false y 0 0 n)
  | .brk w => some (0x0C, w)
  | .sleepShort a r y => some (0x0D, shortWord true y a 0 (bit4 r))
  | .sleep w => some (0x0D, w)
  | .fprioImmShort p y => some (0x0E, shortWord true y 0 0 p)
  | .fprioRegShort a y => some (0x0E, shortWord true y a 1 0)
  | .fprio w => some (0x0E, w)
  | .srdShort a d u y => some (0x0F, shortWord u y a d 0)
  | .srd w => some (0x0F, w)
  | .swrShort a d y => some (0x10, shortWord true y a d 0)
  | .swr w => some (0x10, w)
  | .tckptShort y => some (0x11, shortWord true y 0 0 0)
  | .tckpt w => some (0x11, w)
  | .tlbinv w => some (0x12, w)
  | .iadd w => some (0x20, w)
  | .isub w => some (0x21, w)
  | .iaddc w => some (0x22, w)
  | .isubb w => some (0x23, w)
  | .imul w => some (0x24, w)
  | .imulh w => some (0x25, w)
  | .imad w => some (0x26, w)
  | .imadw w => some (0x27, w)
  | .idiv w => some (0x28, w)
  | .irem w => some (0x29, w)
  | .imin w => some (0x2A, w)
  | .imax w => some (0x2B, w)
  | .iabsShort a d u y => some (0x2C, shortWord u y a d 0)
  | .iabs w => some (0x2C, w)
  | .inegShort a d u y => some (0x2D, shortWord u y a d 0)
  | .ineg w => some (0x2D, w)
  | .isad w => some (0x2E, w)
  | .icmp w => some (0x2F, w)
  | .lea w => some (0x30, w)
  | .and w => some (0x40, w)
  | .or w => some (0x41, w)
  | .xor w => some (0x42, w)
  | .andn w => some (0x43, w)
  | .bmix w => some (0x44, w)
  | .shl w => some (0x45, w)
  | .shr w => some (0x46, w)
  | .sar w => some (0x47, w)
  | .rot w => some (0x48, w)
  | .fshl w => some (0x49, w)
  | .fshr w => some (0x4A, w)
  | .bfx w => some (0x4B, w)
  | .bfi w => some (0x4C, w)
  | .popcShort a d u y => some (0x4D, shortWord u y a d 0)
  | .popc w => some (0x4D, w)
  | .clzShort a d u y => some (0x4E, shortWord u y a d 0)
  | .clz w => some (0x4E, w)
  | .ctzShort a d u y => some (0x4F, shortWord u y a d 0)
  | .ctz w => some (0x4F, w)
  | .brevShort a d u y => some (0x50, shortWord u y a d 0)
  | .brev w => some (0x50, w)
  | .bperm w => some (0x51, w)
  | .iadd2 w => some (0x52, w)
  | .isub2 w => some (0x53, w)
  | .imin2 w => some (0x54, w)
  | .imax2 w => some (0x55, w)
  | .icmp2 w => some (0x56, w)
  | .iacs2 w => some (0x57, w)
  | .fadd w => some (0x60, w)
  | .fsub w => some (0x61, w)
  | .fmul w => some (0x62, w)
  | .ffma w => some (0x63, w)
  | .fmin w => some (0x64, w)
  | .fmax w => some (0x65, w)
  | .fcmp w => some (0x66, w)
  | .fclass w => some (0x67, w)
  | .frcpShort a d u y => some (0x68, shortWord u y a d 0)
  | .frcp w => some (0x68, w)
  | .frsqShort a d u y => some (0x69, shortWord u y a d 0)
  | .frsq w => some (0x69, w)
  | .fsqrtShort a d u y => some (0x6A, shortWord u y a d 0)
  | .fsqrt w => some (0x6A, w)
  | .fdiv w => some (0x6B, w)
  | .fex2Short a d u y => some (0x6C, shortWord u y a d 0)
  | .fex2 w => some (0x6C, w)
  | .flg2Short a d u y => some (0x6D, shortWord u y a d 0)
  | .flg2 w => some (0x6D, w)
  | .fsinShort a d u y => some (0x6E, shortWord u y a d 0)
  | .fsin w => some (0x6E, w)
  | .fcosShort a d u y => some (0x6F, shortWord u y a d 0)
  | .fcos w => some (0x6F, w)
  | .frnd w => some (0x70, w)
  | .dadd w => some (0x78, w)
  | .dsub w => some (0x79, w)
  | .dmul w => some (0x7A, w)
  | .dfma w => some (0x7B, w)
  | .dmin w => some (0x7C, w)
  | .dmax w => some (0x7D, w)
  | .dcmp w => some (0x7E, w)
  | .dclass w => some (0x7F, w)
  | .drcpShort a d u y => some (0x80, shortWord u y a d 0)
  | .drcp w => some (0x80, w)
  | .dsqrtShort a d u y => some (0x81, shortWord u y a d 0)
  | .dsqrt w => some (0x81, w)
  | .ddiv w => some (0x82, w)
  | .drnd w => some (0x83, w)
  | .fadd2 w => some (0x88, w)
  | .fmul2 w => some (0x89, w)
  | .ffma2 w => some (0x8A, w)
  | .fmin2 w => some (0x8B, w)
  | .fmax2 w => some (0x8C, w)
  | .cvt w => some (0x90, w)
  | .tripck w => some (0x91, w)
  | .triunp w => some (0x92, w)
  | .movShort a d u y => some (0xA0, shortWord u y a d 0)
  | .mov w => some (0xA0, w)
  | .movi w => some (0xA1, w)
  | .sel w => some (0xA2, w)
  | .pmix w => some (0xA3, w)
  | .pset w => some (0xA4, w)
  | .pget w => some (0xA5, w)
  | .pcol w => some (0xA6, w)
  | .gswz w => some (0xA7, w)
  | .rdth w => some (0xA8, w)
  | .wrth w => some (0xA9, w)
  | .gred w => some (0xAA, w)
  | .gscan w => some (0xAB, w)
  | .ld w => some (0xB0, w)
  | .st w => some (0xB1, w)
  | .lds w => some (0xB2, w)
  | .sts w => some (0xB3, w)
  | .ldu w => some (0xB4, w)
  | .stu w => some (0xB5, w)
  | .aadd w => some (0xB6, w)
  | .amin w => some (0xB7, w)
  | .amax w => some (0xB8, w)
  | .alog w => some (0xB9, w)
  | .axchg w => some (0xBA, w)
  | .acas w => some (0xBB, w)
  | .afadd w => some (0xBC, w)
  | .fence w => some (0xBD, w)
  | .pf w => some (0xBE, w)
  | .cctl w => some (0xBF, w)
  | .icinv w => some (0xC0, w)
  | .cadd w => some (0xD0, w)
  | .cwait w => some (0xD1, w)
  | .cwaitd w => some (0xD2, w)
  | .cpoll w => some (0xD3, w)
  | .cread w => some (0xD4, w)
  | .carm w => some (0xD5, w)
  | .cinit w => some (0xD6, w)
  | .ewait w => some (0xD7, w)
  | .eread w => some (0xD8, w)
  | .cpt w => some (0xE0, w)
  | .cpl w => some (0xE1, w)
  | .cpg w => some (0xE2, w)
  | .cps w => some (0xE3, w)
  | .cpx w => some (0xE4, w)
  | .cpa w => some (0xE5, w)
  | .cpr w => some (0xE6, w)
  | .cpz w => some (0xE7, w)
  | .rflush w => some (0xE8, w)
  | .tclaim w => some (0xF0, w)
  | .trel w => some (0xF1, w)
  | .aclaim w => some (0xF2, w)
  | .arel w => some (0xF3, w)
  | .mma fam w => some (mmaOp fam, w)
  | .asa w => some (0xFB, w)
  | .azero w => some (0xFC, w)
  | .ard w => some (0xFD, w)
  | .awr w => some (0xFE, w)
  | .ared w => some (0xFF, w)
  | _ => none

/-- What the decoder answers for the bits of one instruction. -/
inductive DecodeResult where
  /-- an instruction and its length in words -/
  | ok (i : Instr) (words : Nat)
  /-- Table 3.9 does not assign OP (R71 item 1) -/
  | unassigned (op : Nat)
  /-- the first reason of Table 3.11 that the words alone decide -/
  | illegalEncoding (op reason : Nat)
  /-- fewer bytes than the form has words (Table 3.1) -/
  | truncated
  deriving DecidableEq, Repr

end Sys2Proof.Machine
end

