-- ==== Sys2Proof/WellFormed.lean ====
section
/-!
DEFINITION. Well-formed instructions: those that the checks of Table 3.11 that depend on the words alone let
pass, written with the values of R59 where a form lacks a field, and device steps whose unit numbers exist.
-/
namespace Sys2Proof
open Sys2Proof.Machine

/-- The instruction is one of the LEN = 0b00 rows. -/
def Instr.isShortRow : Instr → Bool
  | .nopShort _ _ | .yieldShort _ | .exitShort _ | .retShort _ _ | .tretShort _ _ | .brkShort _ _
  | .sleepShort _ _ _ | .fprioImmShort _ _ | .fprioRegShort _ _ | .srdShort _ _ _ _ | .swrShort _ _ _
  | .tckptShort _ | .iabsShort _ _ _ _ | .inegShort _ _ _ _ | .popcShort _ _ _ _ | .clzShort _ _ _ _
  | .ctzShort _ _ _ _ | .brevShort _ _ _ _ | .frcpShort _ _ _ _ | .frsqShort _ _ _ _
  | .fsqrtShort _ _ _ _ | .fex2Short _ _ _ _ | .flg2Short _ _ _ _ | .fsinShort _ _ _ _
  | .fcosShort _ _ _ _ | .drcpShort _ _ _ _ | .dsqrtShort _ _ _ _ | .movShort _ _ _ _ => true
  | _ => false

/-- The units that a step of the device names exist (Table 0.1, R13, R14, R261, R267, R319). -/
def Instr.unitsExist : Instr → Bool
  | .starvationRaise core lane slot | .watchdog core lane slot => core < 512 && lane < 64 && slot < 4
  | .fibreResume col _ | .fibreConvert col _ | .fibreTerminate col _ | .heldEventWrite col
  | .insoleBankSleep col _ | .scrubVisit col _ _ _ | .shankTestResume col | .sparePathFailure col
  | .governorSample col _ | .govctlWrite col _ | .ttripWrite col _ | .supplyDroopSample col _
  | .ringSizeWrite col _ _ | .savePoolWrite col _ _ => col < 128
  | .shankTestRow col shank _ => col < 128 && shank < 4
  | .launchSignal op => op.col < 128 && op.page < 64 && op.line < 32
  | .copyRequestStart core | .engineOpStart core | .engineOpComplete core | .wcAgeingDrain core
  | .coreGate core | .translationWalk core _ _ _ => core < 512
  | .copyReleaseAdd core req | .copyCompletion core req | .cpaReadPhase core req
  | .pendingBitClear core req => core < 512 && req < 32
  | .replayRelease core entry | .replayTerminate core entry => core < 512 && entry < 16
  | .syscAnswer _ thread => thread < 64
  | .userEventDelivery hart | .userEventInterrupt hart | .uevasidWrite hart _
  | .lodgePoisonConsumption hart _ | .lodgeHartMemoryAccess hart _ _ => hart < 128
  | .regionDisplacement region | .displacementSwitch region | .regionLoss region => region < 12288
  | .ckcmdCapture sole | .ckcmdRestore sole | .captureT0 sole | .nvmeCommandCompletion sole _ _
  | .nvmeTimeout sole | .reserveCopyComplete sole _ => sole < 4
  | .pcieInboundRequest port _ _ | .pcieLinkDown port | .pcieLinkUp port => port < 4
  | .peerRequest pkg _ _ => pkg < 1024
  | .ualinkPortDown port | .lostTimeout port | .portRestored port | .flitTagFailure port _
  | .linkReattest port => port < 16
  | _ => true

/-- Well-formed: a word that decodes as it stands, or a step of units that exist. -/
def Instr.wf (i : Instr) : Bool :=
  match opFields i with
  | some (op, w) => i.isShortRow == (w.form == .short) && (encodingReason op w none).isNone && fieldsCanonical w
  | none => i.unitsExist

end Sys2Proof
end

