-- ==== Sys2Proof/Decode.lean ====
section
/-!
DEFINITION. The decoder of instruction words (R55 to R71), total on any bytes, and the encoder that writes a
word from the same tables.
-/
namespace Sys2Proof
open Sys2Proof.Machine

/-! ## The bits of an instruction -/

/-- The form that LEN names (Table 3.1). -/
def formOf (len : BitVec 2) : Form :=
  if len == 0 then .short else if len == 1 then .ext else if len == 2 then .shortLit else .extLit

/-- LEN of a form. -/
def Form.len : Form → BitVec 2
  | .short => 0 | .ext => 1 | .shortLit => 2 | .extLit => 3

/-- Words of a form (Table 3.1). -/
def Form.words : Form → Nat
  | .short => 1 | .ext => 3 | .shortLit => 3 | .extLit => 5

/-- OP, bits [11:4] of the first word. -/
def opOf (bits : BitVec 160) : BitVec 8 := bits.extractLsb' 4 8

/-- The fields of Tables 3.2 and 3.3 and the literal; what a form lacks is as R59 gives. -/
def fieldsOf (bits : BitVec 160) : Fields :=
  let form := formOf (bits.extractLsb' 0 2)
  let y := bits.getLsbD 2
  let u := bits.getLsbD 3
  let d := bits.extractLsb' 12 8
  let a := bits.extractLsb' 20 8
  let f := bits.extractLsb' 28 4
  let extended : Fields :=
    { form, y, u, f, a, d, b := bits.extractLsb' 32 8, c := bits.extractLsb' 40 8, g := bits.extractLsb' 48 7,
      gn := bits.getLsbD 55, m := bits.extractLsb' 56 8, seq := bits.extractLsb' 64 3,
      stl := bits.extractLsb' 67 3, x := bits.extractLsb' 70 26, lit := 0 }
  match form with
  | .short => shortWord u y a d f
  | .shortLit => { shortWord u y a d f with form := .shortLit, lit := bits.extractLsb' 32 64 }
  | .ext => extended
  | .extLit => { extended with lit := bits.extractLsb' 96 64 }

/-- The bits of the three words of an extended form, without a literal. -/
def extBits (op : BitVec 8) (w : Fields) : BitVec 96 :=
  w.x ++ w.stl ++ w.seq ++ w.m ++ BitVec.ofBool w.gn ++ w.g ++ w.c ++ w.b ++ w.f ++ w.a ++ w.d ++ op ++
    BitVec.ofBool w.u ++ BitVec.ofBool w.y ++ w.form.len

/-- The first word (Table 3.2). -/
def firstWord (op : BitVec 8) (w : Fields) : BitVec 32 :=
  w.f ++ w.a ++ w.d ++ op ++ BitVec.ofBool w.u ++ BitVec.ofBool w.y ++ w.form.len

/-- The bits of an instruction, zero above its last word. -/
def bitsOf (op : BitVec 8) (w : Fields) : BitVec 160 :=
  match w.form with
  | .short => (firstWord op w).setWidth 160
  | .ext => (extBits op w).setWidth 160
  | .shortLit => (w.lit ++ firstWord op w).setWidth 160
  | .extLit => w.lit ++ extBits op w

/-! ## Opcode tables (Table 3.9) -/

/-- Opcodes 0x01 to 0x12. -/
def ctorsControl : List (Nat × (Fields → Instr)) :=
  [(0x01, .nop), (0x02, .yield), (0x03, .exit), (0x04, .call), (0x05, .callx), (0x06, .jx), (0x07, .ret),
   (0x08, .sigck), (0x09, .trap), (0x0A, .tret), (0x0B, .sysc), (0x0C, .brk), (0x0D, .sleep), (0x0E, .fprio),
   (0x0F, .srd), (0x10, .swr), (0x11, .tckpt), (0x12, .tlbinv)]

/-- Opcodes 0x20 to 0x30. -/
def ctorsInteger : List (Nat × (Fields → Instr)) :=
  [(0x20, .iadd), (0x21, .isub), (0x22, .iaddc), (0x23, .isubb), (0x24, .imul), (0x25, .imulh),
   (0x26, .imad), (0x27, .imadw), (0x28, .idiv), (0x29, .irem), (0x2A, .imin), (0x2B, .imax), (0x2C, .iabs),
   (0x2D, .ineg), (0x2E, .isad), (0x2F, .icmp), (0x30, .lea)]

/-- Opcodes 0x40 to 0x57. -/
def ctorsBit : List (Nat × (Fields → Instr)) :=
  [(0x40, .and), (0x41, .or), (0x42, .xor), (0x43, .andn), (0x44, .bmix), (0x45, .shl), (0x46, .shr),
   (0x47, .sar), (0x48, .rot), (0x49, .fshl), (0x4A, .fshr), (0x4B, .bfx), (0x4C, .bfi), (0x4D, .popc),
   (0x4E, .clz), (0x4F, .ctz), (0x50, .brev), (0x51, .bperm), (0x52, .iadd2), (0x53, .isub2), (0x54, .imin2),
   (0x55, .imax2), (0x56, .icmp2), (0x57, .iacs2)]

/-- Opcodes 0x60 to 0x70. -/
def ctorsFloat : List (Nat × (Fields → Instr)) :=
  [(0x60, .fadd), (0x61, .fsub), (0x62, .fmul), (0x63, .ffma), (0x64, .fmin), (0x65, .fmax), (0x66, .fcmp),
   (0x67, .fclass), (0x68, .frcp), (0x69, .frsq), (0x6A, .fsqrt), (0x6B, .fdiv), (0x6C, .fex2),
   (0x6D, .flg2), (0x6E, .fsin), (0x6F, .fcos), (0x70, .frnd)]

/-- Opcodes 0x78 to 0x8C. -/
def ctorsDouble : List (Nat × (Fields → Instr)) :=
  [(0x78, .dadd), (0x79, .dsub), (0x7A, .dmul), (0x7B, .dfma), (0x7C, .dmin), (0x7D, .dmax), (0x7E, .dcmp),
   (0x7F, .dclass), (0x80, .drcp), (0x81, .dsqrt), (0x82, .ddiv), (0x83, .drnd), (0x88, .fadd2),
   (0x89, .fmul2), (0x8A, .ffma2), (0x8B, .fmin2), (0x8C, .fmax2)]

/-- Opcodes 0x90 to 0xAB. -/
def ctorsMove : List (Nat × (Fields → Instr)) :=
  [(0x90, .cvt), (0x91, .tripck), (0x92, .triunp), (0xA0, .mov), (0xA1, .movi), (0xA2, .sel), (0xA3, .pmix),
   (0xA4, .pset), (0xA5, .pget), (0xA6, .pcol), (0xA7, .gswz), (0xA8, .rdth), (0xA9, .wrth), (0xAA, .gred),
   (0xAB, .gscan)]

/-- Opcodes 0xB0 to 0xC0. -/
def ctorsMemory : List (Nat × (Fields → Instr)) :=
  [(0xB0, .ld), (0xB1, .st), (0xB2, .lds), (0xB3, .sts), (0xB4, .ldu), (0xB5, .stu), (0xB6, .aadd),
   (0xB7, .amin), (0xB8, .amax), (0xB9, .alog), (0xBA, .axchg), (0xBB, .acas), (0xBC, .afadd),
   (0xBD, .fence), (0xBE, .pf), (0xBF, .cctl), (0xC0, .icinv)]

/-- Opcodes 0xD0 to 0xE8. -/
def ctorsQueue : List (Nat × (Fields → Instr)) :=
  [(0xD0, .cadd), (0xD1, .cwait), (0xD2, .cwaitd), (0xD3, .cpoll), (0xD4, .cread), (0xD5, .carm),
   (0xD6, .cinit), (0xD7, .ewait), (0xD8, .eread), (0xE0, .cpt), (0xE1, .cpl), (0xE2, .cpg), (0xE3, .cps),
   (0xE4, .cpx), (0xE5, .cpa), (0xE6, .cpr), (0xE7, .cpz), (0xE8, .rflush)]

/-- Opcodes 0xF0 to 0xFF; MMA has one opcode per family (Table 3.7). -/
def ctorsMatrix : List (Nat × (Fields → Instr)) :=
  [(0xF0, .tclaim), (0xF1, .trel), (0xF2, .aclaim), (0xF3, .arel), (0xF4, .mma .fp64), (0xF5, .mma .single),
   (0xF6, .mma .half), (0xF7, .mma .fp8), (0xF8, .mma .block), (0xF9, .mma .integer), (0xFA, .mma .complex),
   (0xFB, .asa), (0xFC, .azero), (0xFD, .ard), (0xFE, .awr), (0xFF, .ared)]

/-- The opcodes with a LEN = 0b00 form (Table 3.10). -/
def ctorsShort : List (Nat × (Fields → Instr)) :=
  [(0x01, fun w => .nopShort w.u w.y),
   (0x02, fun w => .yieldShort w.y),
   (0x03, fun w => .exitShort w.y),
   (0x07, fun w => .retShort w.a w.y),
   (0x0A, fun w => .tretShort (w.f.getLsbD 0) w.y),
   (0x0C, fun w => .brkShort w.f w.y),
   (0x0D, fun w => .sleepShort w.a (w.f.getLsbD 0) w.y),
   (0x0E, fun w => if w.d == 1 then .fprioRegShort w.a w.y else .fprioImmShort w.f w.y),
   (0x0F, fun w => .srdShort w.a w.d w.u w.y),
   (0x10, fun w => .swrShort w.a w.d w.y),
   (0x11, fun w => .tckptShort w.y),
   (0x2C, fun w => .iabsShort w.a w.d w.u w.y),
   (0x2D, fun w => .inegShort w.a w.d w.u w.y),
   (0x4D, fun w => .popcShort w.a w.d w.u w.y),
   (0x4E, fun w => .clzShort w.a w.d w.u w.y),
   (0x4F, fun w => .ctzShort w.a w.d w.u w.y),
   (0x50, fun w => .brevShort w.a w.d w.u w.y),
   (0x68, fun w => .frcpShort w.a w.d w.u w.y),
   (0x69, fun w => .frsqShort w.a w.d w.u w.y),
   (0x6A, fun w => .fsqrtShort w.a w.d w.u w.y),
   (0x6C, fun w => .fex2Short w.a w.d w.u w.y),
   (0x6D, fun w => .flg2Short w.a w.d w.u w.y),
   (0x6E, fun w => .fsinShort w.a w.d w.u w.y),
   (0x6F, fun w => .fcosShort w.a w.d w.u w.y),
   (0x80, fun w => .drcpShort w.a w.d w.u w.y),
   (0x81, fun w => .dsqrtShort w.a w.d w.u w.y),
   (0xA0, fun w => .movShort w.a w.d w.u w.y)]

/-- Every opcode with an extended or literal form. -/
def ctors : List (Nat × (Fields → Instr)) :=
  ctorsControl ++ ctorsInteger ++ ctorsBit ++ ctorsFloat ++ ctorsDouble ++ ctorsMove ++ ctorsMemory ++ ctorsQueue ++
    ctorsMatrix

/-- The instruction of an opcode and its fields; none where the opcode is unassigned or lacks the form. -/
def instrOf (op : Nat) (w : Fields) : Option Instr :=
  ((if w.form = .short then ctorsShort else ctors).lookup op).map (· w)

/-! ## Decoding -/

/-- Decodes the bits of one instruction, in the order of R71. -/
def decodeBits (bits : BitVec 160) : DecodeResult :=
  let op := (opOf bits).toNat
  let w := fieldsOf bits
  if opAssigned op then
    match encodingReason op w none with
    | some r => .illegalEncoding op r
    | none =>
      match instrOf op w with
      | some i => .ok i w.form.words
      | none => .illegalEncoding op 1
  else .unassigned op

/-- The little-endian value of bytes, the lowest address first (R8). -/
def bytesValue : List Byte → Nat
  | [] => 0
  | b :: rest => b.toNat + 256 * bytesValue rest

/-- The form of the instruction whose first byte is b. -/
def formOfByte (b : Byte) : Form := formOf (b.extractLsb' 0 2)

/-- Decodes the instruction at the head of a list of bytes; bytes after it are not looked at. -/
def decode (bytes : List Byte) : DecodeResult :=
  match bytes with
  | [] => .truncated
  | b :: _ =>
    let n := 4 * (formOfByte b).words
    if bytes.length < n then .truncated
    else decodeBits (BitVec.ofNat 160 (bytesValue (bytes.take n)))

/-! ## Encoding -/

/-- The word of UEVRET, the one lodge-hart instruction of the spec (R397). -/
def uevretWord : BitVec 32 := 0x0000700B

/-- The bits of an instruction and its number of words; none for a step of the device that has no word. -/
def encodeBits (i : Instr) : Option (BitVec 160 × Nat) :=
  match i with
  | .uevret => some (uevretWord.setWidth 160, 1)
  | i => (opFields i).map fun (op, w) => (bitsOf (BitVec.ofNat 8 op) w, w.form.words)

/-- n words of bits, the lowest first. -/
def wordsOf (bits : BitVec 160) : Nat → List Word
  | 0 => []
  | n + 1 => bits.extractLsb' 0 32 :: wordsOf (bits >>> 32) n

/-- The words of an instruction, in increasing address order. -/
def encode (i : Instr) : List Word :=
  match encodeBits i with
  | some (bits, n) => wordsOf bits n
  | none => []

/-- The bytes of a word, lowest address first (R8). -/
def wordBytes (w : Word) : List Byte :=
  [w.extractLsb' 0 8, w.extractLsb' 8 8, w.extractLsb' 16 8, w.extractLsb' 24 8]

/-- The bytes of an instruction. -/
def encodeBytes (i : Instr) : List Byte := (encode i).flatMap wordBytes

/-! ## The opcode table's words -/

/-- The instruction whose bits, numbered as in spec/opcode_table.json, are the low nbits of w. The word of
UEVRET is a lodge hart's; every other word is a compute core's. -/
def decodeTableWord (nbits w : Nat) : Option Instr :=
  let bits := BitVec.ofNat 160 (w % 2 ^ nbits)
  if bits == uevretWord.setWidth 160 then some .uevret
  else
    match decode ((wordsOf bits 5).flatMap wordBytes) with
    | .ok i _ => some i
    | _ => none

end Sys2Proof
end

