-- ==== Sys2Proof/Machine/Clock.lean ====
section
/-!
DEFINITION. Time: the timebase in ticks and the core cycles of a column (R9, R409, R416), and access to
columns, cores and lanes.
-/
namespace Sys2Proof.Machine

/-- Units of time in a tick; the three core clocks have whole periods in these units. DEDUCED, unsafe (log 3). -/
def unitsPerTick : Nat := 504

/-- Ticks since package reset (R9, R352). -/
def State.tick (s : State) : Nat := s.now / unitsPerTick

def State.col (s : State) (c : Nat) : Column := look {} s.columns c
def State.setCol (s : State) (c : Nat) (x : Column) : State := { s with columns := put {} s.columns c x }
def State.modCol (s : State) (c : Nat) (f : Column → Column) : State := s.setCol c (f (s.col c))
def State.core (s : State) (k : Nat) : Core := look {} s.cores k
def State.setCore (s : State) (k : Nat) (x : Core) : State := { s with cores := put {} s.cores k x }
def State.modCore (s : State) (k : Nat) (f : Core → Core) : State := s.setCore k (f (s.core k))
def Core.lane (k : Core) (l : Nat) : Lane := look {} k.lanes l
def State.modLane (s : State) (k l : Nat) (f : Lane → Lane) : State :=
  s.modCore k fun x => { x with lanes := modify {} x.lanes l f }
def State.hartAt (s : State) (h : Nat) : Hart := look {} s.harts h
def State.modHart (s : State) (h : Nat) (f : Hart → Hart) : State :=
  { s with harts := modify {} s.harts h f }
def State.ckptAt (s : State) (i : Nat) : Checkpoint := look {} s.ckpt i
def State.modCkpt (s : State) (i : Nat) (f : Checkpoint → Checkpoint) : State :=
  { s with ckpt := modify {} s.ckpt i f }
def State.portAt (s : State) (q : Nat) : Port := look {} s.ports q
def State.modPort (s : State) (q : Nat) (f : Port → Port) : State :=
  { s with ports := modify {} s.ports q f }

/-- The column of a core (R13). -/
def colOf (core : Nat) : Nat := core / 4
/-- The lower core of a core's pair (R13). -/
def pairOf (core : Nat) : Nat := core / 2 * 2
/-- The cluster, one per sole, of a column (R13, R412). -/
def clusterOf (c : Nat) : Nat := c / 32

/-- A sole is out of reset (R404, R405). -/
def State.soleRuns (s : State) (sole : Nat) : Bool := !s.pav.held && (!s.pav.minimal || sole == s.pav.minimalSole)

/-- The harts that are out of reset (R404, R405). -/
def State.hartRuns (s : State) (hart : Nat) : Bool := s.soleRuns (clusterOf hart) && !s.pav.lodgeHeld

/-- The operating point of a column: 0 nominal, 1 intermediate, 2 boost, lowered by the supply cap (R409). -/
def State.point (s : State) (c : Nat) : Nat :=
  let p := look 0 s.opPoint (clusterOf c)
  if (s.col c).supCap then min p 1 else p

/-- Clock of an operating point in MHz (R409). -/
def pointMHz (p : Nat) : Nat := if p = 0 then 1400 else if p = 1 then 1600 else 1800
/-- Period of an operating point in units of time. -/
def pointPeriod (p : Nat) : Nat := if p = 0 then 360 else if p = 1 then 315 else 280

/-- GOVSTAT.CLK: the core clock of a column in MHz, rounded down (R409, R411). -/
def State.clkMHz (s : State) (c : Nat) : Nat := pointMHz (s.point c) * (8 - (s.col c).level) / 8

/-- Pulses not swallowed at level l among the pulses before pulse n (R409). -/
def keptPulses (l n : Nat) : Nat := n - n * l / 8

/-- Core cycles of a column since package reset. DEDUCED, unsafe (log 3). -/
def State.colCycle (s : State) (c : Nat) : Nat :=
  let x := s.col c
  let n := (s.now - x.clkFrom) / pointPeriod (s.point c)
  x.clkBase + (keptPulses x.level (x.clkPulse + n) - keptPulses x.level x.clkPulse)

/-- Core cycles of a core: those of its column but for the time it was gated (R416). -/
def State.coreCycle (s : State) (k : Nat) : Nat :=
  let x := s.core k
  if x.gated then x.gatedAt - x.lost else s.colCycle (colOf k) - x.lost

/-- Fixes the cycles counted so far before a column's clock changes. DEDUCED, unsafe (log 3). -/
def State.rebase (s : State) (c : Nat) : State :=
  let x := s.col c
  let n := (s.now - x.clkFrom) / pointPeriod (s.point c)
  s.setCol c { x with clkBase := s.colCycle c, clkFrom := s.now, clkPulse := (x.clkPulse + n) % 8 }

/-- Units of time to the next clock pulse of a column. -/
def State.toPulse (s : State) (c : Nat) : Nat :=
  let p := pointPeriod (s.point c)
  p - (s.now - (s.col c).clkFrom) % p

/-- Wakes a gated core (R416). -/
def State.wakeCore (s : State) (k : Nat) : State :=
  let x := s.core k
  if x.gated then
    s.setCore k { x with gated := false, lost := x.lost + (s.colCycle (colOf k) - x.gatedAt), idleFrom := s.tick }
  else s

/-- R325: a value satisfies a threshold. -/
def satisfies (v t : DWord) : Bool := (v - t).toNat < 2 ^ 63
/-- R325: a threshold is distant from a value. -/
def distant (v t : DWord) : Bool :=
  let d := (t - v).toNat
  2 ^ 62 < d && d ≤ 2 ^ 63

end Sys2Proof.Machine
end

