-- ==== Sys2Proof/Machine/Home.lean ====
section
/-!
DEFINITION. Memory at its homes: locations, protected pages, poison marks, counter values and the waiter lists
that every write of a counter evaluates; the event and error-log rings that the device writes.
-/
namespace Sys2Proof.Machine

/-- The next free value. DESIGN CHOICE, safe (log 7). -/
def State.takeFree (s : State) : Nat × State := (Config.free s.freeCtr, { s with freeCtr := s.freeCtr + 1 })

/-! ## Locations -/

/-- First location of the memory of peer package p (R170). -/
def peerLoc (p a : Nat) : Nat := 2 ^ 64 * (1 + p) + a
/-- First location of what PCIe port i reaches (R399). -/
def pcieLoc (i a : Nat) : Nat := 2 ^ 64 * (1025 + i) + a
/-- Location of a byte offset of the insole store (R175). -/
def insoleLoc (o : Nat) : Nat := 2 ^ 64 * 1029 + o
/-- Bytes of a region of the insole store (R175). -/
def regionBytes : Nat := 2 ^ 21
/-- Bytes of the insole store. -/
def insoleBytes : Nat := 12288 * regionBytes
/-- Location of byte o of slot k of the spill area, of which the spec gives no address (R321). DESIGN CHOICE, safe (log
80). -/
def spillLoc (k o : Nat) : Nat := 2 ^ 64 * 1030 + k * regionBytes + o

/-- Where byte o of the insole store lies now: in its region, or in the region's spill slot (R176). -/
def State.insoleNow (s : State) (o : Nat) : Nat :=
  let e := look {} s.regions (o / regionBytes)
  if e.st == 2 then spillLoc e.spill.toNat (o % regionBytes) else insoleLoc o

/-- The insole offset of a location, of a spill slot too. -/
def State.insoleOff (s : State) (loc : Nat) : Option Nat :=
  if insoleLoc 0 ≤ loc ∧ loc < insoleLoc insoleBytes then some (loc - insoleLoc 0)
  else if spillLoc 0 0 ≤ loc then
    let k := (loc - spillLoc 0 0) / regionBytes
    (s.regions.find? fun x => x.2.st == 2 && x.2.spill.toNat == k).map fun x =>
      x.1 * regionBytes + (loc - spillLoc 0 0) % regionBytes
  else none

/-- Base D of the device page region (R394). -/
def deviceBase : Nat := 2 ^ 40

/-- A location is HBM (R164). -/
def isHbm (a : Nat) : Bool := a < 2 ^ 40
/-- A location is local physical memory. -/
def isLocal (a : Nat) : Bool := a < 2 ^ 46
/-- A location belongs to a peer package. -/
def isPeer (a : Nat) : Bool := 2 ^ 64 ≤ a && a < 2 ^ 64 * 1025

/-- Home column of a local physical address (R165). -/
def homeColumn (loc : Nat) : Nat := loc / 4096 % 128

/-! ## Slices (R166) -/

/-- Frames of a slice: 64 MiB of 4 KiB. -/
def sliceFrames : Nat := 16384

/-- A line of a frame is accessed: the frame is allocated on its first miss, the line filled; a full slice evicts the frame
that it allocated earliest, for which the spec gives no order. DESIGN CHOICE, safe (log 75). -/
def touchFrame (frame line : Nat) (write : Bool) (l : List SliceFrame) : List SliceFrame :=
  let use (f : SliceFrame) : SliceFrame :=
    { f with valid := f.valid ||| (1#32 <<< line), dirty := if write then f.dirty ||| (1#32 <<< line) else f.dirty }
  if l.any fun f => f.frame == frame then l.map fun f => if f.frame == frame then use f else f
  else (use { frame } :: l).take sliceFrames

/-- 128-byte lines that n bytes from a touch, by number. -/
def linesAt (a n : Nat) : List Nat := if n = 0 then [] else (List.range ((a + n - 1) / 128 - a / 128 + 1)).map (a / 128 + ·)

/-- An access to n bytes of HBM goes through the home slices (R165, R166). -/
def State.throughSlice (s : State) (a n : Nat) (write : Bool) : State :=
  if isHbm a then (linesAt a n).foldl (fun s l =>
    s.modCol (homeColumn (128 * l)) fun c => { c with slice := touchFrame (l / 32) (l % 32) write c.slice }) s
  else s

/-- A frame leaves a slice; its dirty lines are written to HBM. -/
def State.evictFrame (s : State) (col frame : Nat) : State :=
  s.modCol col fun c => { c with slice := c.slice.filter fun f => f.frame != frame }

/-- n bytes at a location as they stand. -/
def State.bytesAt (s : State) (a n : Nat) : List Byte := lookAll 0 s.mem a n
/-- The 8-byte word at a location. -/
def State.wordAt (s : State) (a : Nat) : DWord := BitVec.ofNat 64 (numAt s.mem a 8)

/-! ## Poison (R179) -/

/-- 32-byte sectors that n bytes from a touch. -/
def sectorsOf (a n : Nat) : List Nat :=
  if n = 0 then [] else (List.range ((a + n - 1) / 32 - a / 32 + 1)).map (a / 32 + ·)

/-- Poisoned sectors among n bytes from a. -/
def State.poisoned (s : State) (a n : Nat) : List Nat := (sectorsOf a n).filter fun x => s.poison.contains x

/-- Marks a sector. -/
def State.mark (s : State) (sector : Nat) : State :=
  if s.poison.contains sector then s else { s with poison := sector :: s.poison }

/-! ## Insole banks (R176, R417) -/

/-- An access to an insole region wakes its bank and restarts the idle count; a displaced region lies in HBM. -/
def State.wakeRegion (s : State) (r : Nat) : State :=
  if (look {} s.regions r).st == 2 then s
  else s.modCol (r / 96) fun c => { c with
    asleep := c.asleep.filter (· != r % 96), lastBank := put 0 c.lastBank (r % 96) s.tick }

/-- A demand access to an insole region: its bank wakes, and the tester leaves that shank; a displaced region lies in HBM
(R176, R417, R418). -/
def State.demand (s : State) (o : Nat) : State :=
  let r := o / regionBytes
  let e := look {} s.regions r
  if e.st == 2 then s
  else
    (s.wakeRegion r).modCol (r / 96) fun c =>
      let shank := e.shank.toNat
      if c.shBusy == some shank || c.shStopped.any fun x => x.1 == shank then
        { c with shBusy := if c.shBusy == some shank then none else c.shBusy
                 shStopped := c.shStopped.filter (·.1 != shank) ++ [(shank, s.tick)] }
      else c

/-! ## Protected pages (R424) -/

/-- The checkpoint page of a location: insole flag and page number. -/
def State.ckPageOf (s : State) (a : Nat) : Option (Bool × Nat) :=
  if isHbm a then some (false, a / 4096) else (s.insoleOff a).map fun o => (true, o / 4096)

/-- Slots of the reserve area that hold pages. -/
def Checkpoint.slots (c : Checkpoint) : List Nat := (c.pages.filterMap (·.slot)).eraseDups

/-- The lowest slot of the reserve area that is free. -/
def Checkpoint.freeSlot (c : Checkpoint) : Option Nat :=
  (List.range (c.ckresz.toNat / 4096)).find? fun j => !c.slots.contains j

/-- A protected page is neither in the reserve nor streamed. -/
def CkPage.isProtected (p : CkPage) : Bool := p.image.isNone && !p.streamed

/-- The page of that number has reached storage, which frees its slot. -/
def Checkpoint.streamPage (c : Checkpoint) (n : Nat) : Checkpoint :=
  if (c.pages[n]?.map (·.streamed)).getD true then c
  else
    { c with
      pages := c.pages.zipIdx.map fun (p, i) => if i = n then { p with streamed := true, slot := none } else p
      pagesDone := c.pagesDone + 1 }

/-- First location of a checkpoint page now. -/
def State.pageLoc (s : State) (p : CkPage) : Nat := if p.insole then s.insoleNow (p.page * 4096) else p.page * 4096

/-- A page as it goes to storage, zeros for its poisoned sectors, and their number (R423). -/
def State.pageImage (s : State) (p : CkPage) : List Host.Cell × Nat :=
  let a := s.pageLoc p
  let bad := s.poisoned a 4096
  ((slice s.mem a 4096).filter fun x => !bad.contains ((a + x.1) / 32), bad.length)

/-! ## Counter values (R322, R323) -/

def State.team? (s : State) (r : TeamRef) : Option Team := s.teams.find? fun t => t.ref == r
def State.modTeam (s : State) (r : TeamRef) (f : Team → Team) : State :=
  { s with teams := s.teams.map fun t => if t.ref == r then f t else t }
def Team.group? (t : Team) (g : Nat) : Option Group := t.groups.find? fun x => x.gid == g
def Team.modGroup (t : Team) (g : Nat) (f : Group → Group) : Team :=
  { t with groups := t.groups.map fun x => if x.gid == g then f x else x }
def Group.fibre? (g : Group) (i : Nat) : Option Fibre := g.fibres.find? fun x => x.fid == i
def Group.modFibre (g : Group) (i : Nat) (f : Fibre → Fibre) : Group :=
  { g with fibres := g.fibres.map fun x => if x.fid == i then f x else x }
def State.group? (s : State) (r : FibreRef) : Option Group := (s.team? r.team).bind fun t => t.group? r.gid
def State.fibre? (s : State) (r : FibreRef) : Option Fibre := (s.group? r).bind fun g => g.fibre? r.fid
def State.modGroup (s : State) (r : TeamRef) (g : Nat) (f : Group → Group) : State :=
  s.modTeam r fun t => t.modGroup g f
def State.modFibre (s : State) (r : FibreRef) (f : Fibre → Fibre) : State :=
  s.modGroup r.team r.gid fun g => g.modFibre r.fid f

/-- The launch that holds a launch-queue entry under a sequence number (R260). -/
def State.launch? (s : State) (seq : Nat) : Option Launch :=
  s.columns.findSome? fun (_, c) => c.queue.find? fun l => l.seq == seq

def State.modLaunch (s : State) (seq : Nat) (f : Launch → Launch) : State :=
  { s with columns := s.columns.map fun (i, c) =>
      (i, { c with queue := c.queue.map fun l => if l.seq == seq then f l else l }) }

/-- `%ccyc` of a fibre on a core (R77). -/
def State.ccyc (s : State) (core : Nat) (f : Fibre) : Nat := f.ccycBase + (s.coreCycle core - f.ccycFrom)

/-- Device counter n as column c sees it; counters 6 to 8 are those of a launch (R323). -/
def State.columnCounter (s : State) (c n seq : Nat) : DWord :=
  let l := s.launch? seq
  match n with
  | 0 => BitVec.ofNat 64 s.tick
  | 2 => s.charged
  | 3 => s.refilled
  | 4 => look 0 s.clusterCharged (clusterOf c)
  | 5 => (s.col c).throttles
  | 6 => (l.map (·.substitutions)).getD 0
  | 7 => (l.map (·.formatErrors)).getD 0
  | 8 => (l.map (·.promiseMisses)).getD 0
  | 9 => (s.col c).corrected
  | 10 => (s.col c).uncorrected
  | _ => 0

/-- Device counter n as a fibre reads it. -/
def State.deviceCounter (s : State) (r : FibreRef) (n : Nat) : DWord :=
  match s.group? r with
  | none => 0
  | some g =>
    if n = 1 then ((g.fibre? r.fid).map fun f => BitVec.ofNat 64 (s.ccyc g.core f)).getD 0
    else s.columnCounter (colOf g.core) n r.team.seq

/-- The value of a counter. -/
def State.counter (s : State) : CounterRef → DWord
  | .mem a => s.wordAt a
  | .scratch t o => ((s.team? t).map fun x => BitVec.ofNat 64 (numAt x.scratch o 8)).getD 0
  | .slot t g n => (((s.team? t).bind fun x => x.group? g).map fun x => look 0 x.ctr n).getD 0
  | .device f n => s.deviceCounter f n

/-! ## Waiter lists (R328 to R336) -/

/-- A user event reaches a hart (R336). -/
def State.userEvent (s : State) (hart : Nat) (e : UserEvent) : State :=
  s.modHart hart fun h => { h with inbox := h.inbox ++ [e] }

/-- The waits that a write satisfied take their effect at the home: a gate opens and a host waiter is
removed and fires; a fibre's wait keeps its mark until the wake-up reaches it (R328, R336). -/
def fireOne (s : State) (w : Waiter) : State :=
  match w.agent with
  | .gate seq => s.modLaunch seq fun l => { l with gate := none }
  | .host asid hart v => s.userEvent hart { asid, vector := v, killed := w.killed }
  | _ => s

def Waiter.isGate (w : Waiter) : Bool :=
  match w.agent with
  | .gate _ => true
  | _ => false

/-- A waiter whose effect is complete once it is satisfied. -/
def Waiter.atHome (w : Waiter) : Bool :=
  match w.agent with
  | .gate _ | .host _ _ _ => true
  | _ => false

/-- Evaluates the registered waiters of the counters that a test picks, against the counters' values (R328). -/
def State.evaluate (s : State) (p : CounterRef → Bool) : State :=
  let marked := s.waiters.map fun w =>
    if p w.counter && w.poll.isNone && !w.satisfied then
      { w with satisfied := satisfies (s.counter w.counter) w.threshold }
    else w
  let fired := marked.filter fun w => w.satisfied && w.atHome
  fired.foldl fireOne { s with waiters := marked.filter fun w => !(w.satisfied && w.atHome) }

/-- The counters whose word n bytes from a location overlap. -/
def touchesLoc (a n : Nat) : CounterRef → Bool
  | .mem x => a < x + 8 && x < a + n
  | _ => false

/-- Bytes with those bits replaced that a mask names; an empty mask names all. -/
def mergeBytes (old new mask : List Byte) : List Byte :=
  if mask.isEmpty then new
  else (old.zip (new.zip mask)).map fun (o, n, m) => (o &&& ~~~m) ||| (n &&& m)

/-! ## Writes at the home -/

/-- The checkpoint engine reads or writes an insole page. -/
def State.wakePage (s : State) (insole : Bool) (page : Nat) : State := if insole then s.demand (page * 4096) else s

/-- A write to n bytes at a location ends the reservations of harts that it overlaps. PRESUMED, unsafe (log 40). -/
def Hart.overwritten (a n : Nat) (h : Hart) : Hart :=
  match h.reservation with
  | some (x, m) => if a < x + m && x < a + n then { h with reservation := none } else h
  | none => h

/-- The bytes of a write reach a location: sectors written whole lose their marks, reservations on it end, and counters that
it covers are evaluated (R179, R327). -/
def State.putLoc (s : State) (a : Nat) (bs : List Byte) : State :=
  let n := bs.length
  let s := s.throughSlice a n true
  let s := { s with
    mem := putAll 0 s.mem a bs
    harts := s.harts.map fun (x : Nat × Hart) => (x.1, x.2.overwritten a n)
    poison := s.poison.filter fun x => !(a ≤ 32 * x && 32 * x + 32 ≤ a + n) }
  s.evaluate (touchesLoc a n)

/-- Copies a protected page into the reserve, for every entry that names it. A full reserve takes no page: the step that
writes waits (`State.overrun`), or, where the device itself writes as time passes, the engine keeps the image (R424).
DEDUCED, unsafe (log 56, 57). -/
def State.copyAside (s : State) (sole : Nat) (insole : Bool) (page : Nat) : State :=
  let k := s.ckptAt sole
  let mine (p : CkPage) : Bool := p.isProtected && p.insole == insole && p.page == page
  match k.pages.find? mine with
  | some p =>
    let (img, bad) := s.pageImage p
    let s := s.wakePage insole page
    let s := match k.freeSlot with
      | some j => s.putLoc (k.ckres.toNat + 4096 * j) (dense 0 img 0 4096)
      | none => s
    s.modCkpt sole fun x => { x with
      overrun := x.overrun || k.freeSlot.isNone
      pages := x.pages.map fun p => if mine p then { p with image := some img, bad, slot := k.freeSlot } else p }
  | none => s

/-- A write reaches a page: each engine that protects it takes a capture fault. DEDUCED, unsafe (log 56, 57). -/
def captureFault (s : State) (a : Nat) : State :=
  match s.ckPageOf a with
  | none => s
  | some (ins, page) =>
    s.ckpt.foldl (fun s (i, c) =>
      if c.pages.any fun p => p.isProtected && p.insole == ins && p.page == page then
        (s.copyAside i ins page).modCkpt i fun c => { c with faults := if c.faults = 0xFFFF then c.faults else c.faults + 1 }
      else s) s

/-- Pages that n bytes from a touch, by their first touched location. -/
def pagesOf (a n : Nat) : List Nat :=
  if n = 0 then [] else (List.range ((a + n - 1) / 4096 - a / 4096 + 1)).map fun i => max a ((a / 4096 + i) * 4096)

/-- A write of bytes at a location: protected pages are copied aside first (R424). -/
def State.writeLoc (s : State) (a : Nat) (bs : List Byte) : State :=
  ((pagesOf a bs.length).foldl captureFault s).putLoc a bs

/-- A write of the bits that a mask names (empty: all); a sector of which it leaves bits keeps its mark (R179). -/
def State.writeBits (s : State) (a : Nat) (bs mask : List Byte) : State :=
  let whole (x : Nat) : Bool := (List.range 32).all fun i => decide (a ≤ 32 * x + i) && (mask.isEmpty || mask.getD (32 * x + i - a) 0 == 0xFF)
  let kept := (s.poisoned a bs.length).filter fun x => !whole x
  kept.foldl State.mark (s.writeLoc a (mergeBytes (s.bytesAt a bs.length) bs mask))

/-- Writes an n-byte number. -/
def State.writeNum (s : State) (a n v : Nat) : State := s.writeLoc a (bytesLE v n)

/-- One counter add at a location (R326). -/
def State.addLoc (s : State) (a : Nat) (inc : DWord) : State := s.writeNum a 8 (s.wordAt a + inc).toNat

/-- Adds to a per-launch device counter and evaluates its waiters (R352). -/
def State.addLaunchCounter (s : State) (seq n k : Nat) : State :=
  let d : DWord := BitVec.ofNat 64 k
  let s := s.modLaunch seq fun l =>
    if n = 6 then { l with substitutions := l.substitutions + d }
    else if n = 7 then { l with formatErrors := l.formatErrors + d }
    else { l with promiseMisses := l.promiseMisses + d }
  s.evaluate fun c => match c with
    | .device f m => m == n && f.team.seq == seq
    | _ => false

/-- Evaluates the waiters of device counter n (R352). -/
def State.evaluateDevice (s : State) (n : Nat) : State :=
  s.evaluate fun c => match c with
    | .device _ m => m == n
    | _ => false

/-- n corrected errors in a column (R352, R419). -/
def State.addCorrected (s : State) (col n : Nat) : State :=
  (s.modCol col fun c => { c with corrected := c.corrected + BitVec.ofNat 64 n }).evaluateDevice 9

/-- n uncorrected errors in a column (R352, R419). -/
def State.addUncorrected (s : State) (col n : Nat) : State :=
  (s.modCol col fun c => { c with uncorrected := c.uncorrected + BitVec.ofNat 64 n }).evaluateDevice 10

/-- The column that counts the errors of a location: its home, or that of its insole region. -/
def State.errorColumn (s : State) (loc : Nat) : Option Nat :=
  if isHbm loc then some (homeColumn loc) else (s.insoleOff loc).map fun o => o / regionBytes / 96

/-- A copy leaves poison in the sectors that n bytes touch: each newly poisoned one counts (R179, R352). `before` are
those that were poisoned already. -/
def State.poisonCopied (s : State) (before : List Nat) (loc n : Nat) : State :=
  let new := (sectorsOf loc n).filter fun x => !before.contains x
  let s := (sectorsOf loc n).foldl State.mark s
  match s.errorColumn loc with
  | some c => if new.isEmpty then s else s.addUncorrected c new.length
  | none => s

/-! ## Event ring (R271, R273, R396) -/

def EventRecord.bytes (e : EventRecord) : List Byte :=
  bytesLE (e.kind % 256 + 256 * (e.sub % 256)) 8 ++ bytesLE e.seq 8 ++ bytesLE e.team 8 ++ bytesLE e.addr.toNat 8 ++
    bytesLE e.tick 8 ++ bytesLE e.d0.toNat 8 ++ bytesLE e.d1.toNat 8 ++ bytesLE e.d2.toNat 8

/-- The column's event ring is disabled or full (R273, R395). -/
def State.eventRingFull (s : State) (c : Nat) : Bool :=
  let x := s.col c
  x.evsize == 0 || (s.wordAt x.evprod.toNat - x.evcons).toNat == 2 ^ x.evsize

/-- Writes a record to the ring, adds to its producer counter and raises the event interrupt. -/
def State.writeEvent (s : State) (c : Nat) (e : EventRecord) : State :=
  let x := s.col c
  let i := (s.wordAt x.evprod.toNat).toNat
  let s := s.writeLoc (x.evbase.toNat + 64 * (i % 2 ^ x.evsize)) e.bytes
  let s := s.addLoc x.evprod.toNat 1
  let id := x.evirq.toNat % 2048
  if x.evirq.getLsbD 63 && id != 0 then
    s.modHart c fun h => if h.imsic.contains id then h else { h with imsic := h.imsic ++ [id] }
  else s

/-- The device has an event for a column: it is written, held (kinds 1 to 3) or dropped (R273). DEDUCED, unsafe (log
46). -/
def State.event (s : State) (c : Nat) (e : EventRecord) : State :=
  let e := { e with tick := s.tick }
  let x := s.col c
  let lossless := e.kind ≤ 3
  if s.eventRingFull c || (lossless && !x.held.isEmpty) then
    if lossless then s.setCol c { x with held := x.held ++ [e] } else s.setCol c { x with evovf := x.evovf + 1 }
  else s.writeEvent c e

/-! ## Error-log ring (R421) -/

/-- An error to record: level, its flags, the affected place and the team's launch. -/
structure ErrorNote where
  level : Nat
  uncorrected : Bool := false
  byScrub : Bool := false
  poisoned : Bool := false
  place : Nat := 0
  seq : Nat := 0
  team : Nat := 0
  syndrome : Nat := 0
  count : Nat := 1
  /-- the unit of a team, or the cache entry, that the error lies in -/
  unit : Option ErrorUnit := none
  deriving DecidableEq, Repr

def ErrorNote.bytes (e : ErrorNote) (tick : Nat) : List Byte :=
  bytesLE (e.level + (if e.uncorrected then 256 else 0) + (if e.byScrub then 512 else 0) +
      (if e.poisoned then 1024 else 0)) 8 ++ bytesLE tick 8 ++ bytesLE e.place 8 ++ bytesLE e.seq 8 ++
    bytesLE e.team 8 ++ bytesLE e.syndrome 8 ++ bytesLE e.count 8 ++ bytesLE 0 8

/-- A record that still stands in a ring of 2^n records, WIDX being w, and is less than 1 ms old. -/
def RecentError.stands (r : RecentError) (w : BitVec 32) (n now : Nat) : Bool :=
  decide (now ≤ r.tick + 1000000) && decide ((w - r.widx).toNat ≤ 2 ^ n)

/-- Writes an error-log record, and the kind 9 event of an uncorrected error, a rollback or a supply-path event. A
corrected error of a unit whose record stands and is less than 1 ms old raises that record's count. DEDUCED, unsafe (log
52). -/
def State.logError (s : State) (c : Nat) (e : ErrorNote) : State :=
  let x := s.col c
  let on := x.elbase != 0 && x.ellsz != 0
  let recent := x.elRecent.filter fun r => r.stands x.elwidx x.ellsz s.tick
  let corrected := !e.uncorrected && e.level ≤ 5
  match (if corrected && on then recent.find? fun r => r.level == e.level && r.place == e.place && r.unit == e.unit else none) with
  | some r => s.writeNum (r.loc + 0x30) 8 (numAt s.mem (r.loc + 0x30) 8 + e.count)
  | none =>
    let full := (x.elwidx - x.elcons).toNat == 2 ^ x.ellsz
    let at_ := x.elbase.toNat / 64 * 64 + 64 * (x.elwidx.toNat % 2 ^ x.ellsz)
    let s' :=
      if !on then s
      else if full then s.setCol c { x with elovf := if x.elovf = 0xFFFF then x.elovf else x.elovf + 1 }
      else (s.writeLoc at_ (e.bytes s.tick)).modCol c fun y =>
        let r : RecentError := { level := e.level, place := e.place, unit := e.unit, tick := s.tick, widx := x.elwidx, loc := at_ }
        { y with elwidx := y.elwidx + 1, elRecent := if corrected then r :: recent else recent }
    if e.uncorrected || e.level == 8 || e.level == 6 || e.level == 9 then
      s'.event c { kind := 9, seq := e.seq, team := e.team, d0 := x.elwidx.setWidth 64, d1 := BitVec.ofNat 64 e.level }
    else s'

end Sys2Proof.Machine
end

