-- ==== Sys2Proof/Machine/Splits.lean ====
section
/-!
DEFINITION. The split table of a fibre: entries in hardware and in the spill area, choice, arrival, fusion and
exits (R289 to R295), signatures (R299) and the spill blocks in the save pool (R291).
-/
namespace Sys2Proof.Machine

/-! ## Signatures (R299) -/

/-- H of R299. -/
def hash (s w : Word) : Word := (((s <<< 7) ||| (s >>> 25)) ^^^ w) * 0x2545F491
/-- The reconvergence event E. -/
def joinWord : Word := 0x5EC00000
/-- H(0, E). -/
def joinSig : Word := hash 0 joinWord

/-! ## Entries -/

/-- PAR and RPC of a root. -/
def noParent : Nat := 127
def noRpc : DWord := ones64

/-- The root entry at fibre start and at handler entry (Table 16.1, R357). -/
def rootSplit (mask : Mask) (pc : DWord) (st : SplitState) : Split :=
  { idx := 0, mask, pc, rpc := noRpc, par := noParent, st, miss := false, yld := false, slp := false, kids := 0,
    sig := 0, dl := 0, park := .none, hw := some 0, again := false }

/-- ST as Table 16.1 codes it. -/
def SplitState.code : SplitState → Nat
  | .ready => 1 | .running => 2 | .parked => 3 | .arrived => 4 | .parent => 5

/-- The 48 bytes of an entry (Table 16.1). -/
def Split.bytes (x : Split) : List Byte :=
  bytesLE x.mask.toNat 8 ++ bytesLE x.pc.toNat 8 ++ bytesLE x.rpc.toNat 8 ++ bytesLE x.par 8 ++
    bytesLE (x.st.code + (if x.miss then 8 else 0) + (if x.yld then 16 else 0) + (if x.slp then 32 else 0) +
      256 * x.idx + 65536 * x.kids + 2 ^ 32 * x.sig.toNat) 8 ++ bytesLE x.dl.toNat 8

def findSplit (l : List Split) (i : Nat) : Option Split := l.find? fun x => x.idx == i
def modSplit (l : List Split) (i : Nat) (f : Split → Split) : List Split :=
  l.map fun x => if x.idx == i then f x else x

/-- The running split. -/
def runningOf (l : List Split) : Option Split := l.find? fun x => x.st == .running

/-- The lowest logical index not in use (R290). -/
def freeIndex (l : List Split) : Nat :=
  ((List.range 127).find? fun i => !(l.any fun x => x.idx == i)).getD 0

/-- The lowest hardware entry not in use. -/
def freeHw (l : List Split) : Option Nat :=
  (List.range 16).find? fun i => !(l.any fun x => x.hw == some i)

/-- The entry that leaves the hardware: the oldest parent or arrived one, else the oldest parked or ready one
(R291). -/
def victim (l : List Split) : Option Nat :=
  let inHw := l.filter fun x => x.hw.isSome
  ((inHw.find? fun x => x.st == .parent || x.st == .arrived).orElse fun _ =>
    inHw.find? fun x => x.st == .parked || x.st == .ready).map (·.idx)

/-- Frees a hardware entry if none is free. -/
def makeRoom (l : List Split) : List Split :=
  match freeHw l with
  | some _ => l
  | none =>
    match victim l with
    | some i => modSplit l i fun x => { x with hw := none }
    | none => l

/-- Brings an entry into the hardware, where it is to run or to fuse (R291). -/
def fetchBack (l : List Split) (i : Nat) : List Split :=
  match findSplit l i with
  | some x =>
    if x.hw.isSome then l
    else
      let l := makeRoom l
      modSplit l i fun x => { x with hw := freeHw l }
  | none => l

/-- Creates an entry, youngest, with the lowest free index (R290). -/
def addSplit (l : List Split) (x : Split) : List Split :=
  let l := makeRoom l
  l ++ [{ x with idx := freeIndex l, hw := freeHw l }]

/-- Creating n entries would move entries to the spill area. -/
def wouldSpill (l : List Split) (n : Nat) : Bool := 16 < (l.filter fun x => x.hw.isSome).length + n

/-- Some entry lies in the spill area: FSTAT.SPILL (R80). -/
def anySpilled (l : List Split) : Bool := l.any fun x => x.hw.isNone

/-! ## Which split runs (R292) -/

/-- HND. -/
def Fibre.hnd (f : Fibre) : Bool := f.frozen.isSome

def Fibre.run? (f : Fibre) : Option Split := runningOf f.splits

/-- What a split keeps of its park when it runs: a wait that has ended and has still to divide it. -/
def Park.kept : Park → Park
  | .finished yes op w => .finished yes op w
  | _ => .none

/-- Makes a split the running one: its signature becomes FSIG and every YLD is cleared. -/
def Fibre.start (f : Fibre) (i : Nat) : Fibre :=
  let l := fetchBack f.splits i
  match findSplit l i with
  | some x =>
    { f with
      fsig := x.sig
      last := i
      splits := l.map fun y =>
        if y.idx == i then { y with st := .running, yld := false, park := y.park.kept } else { y with yld := false } }
  | none => f

/-- A parent whose last child TRET has freed: it fuses or resumes when it is next chosen (R362). DESIGN CHOICE, unsafe
(log 69). -/
def Split.due (x : Split) : Bool := x.st == .parent && x.kids == 0

/-- The entry that is next when none runs: the oldest ready one, one with YLD only if no other is ready; a parent that
is due counts as ready. DEDUCED, unsafe (log 18, 69). -/
def Fibre.nextSplit (f : Fibre) : Option Split :=
  (f.splits.find? fun x => (x.st == .ready && !x.yld) || x.due).orElse fun _ => f.splits.find? fun x => x.st == .ready

/-- Chooses the next split when none runs; a parent that is due is left to `Fibre.settle` (R292). -/
def Fibre.choose (f : Fibre) : Fibre :=
  match f.run? with
  | some _ => f
  | none =>
    match f.nextSplit with
    | some x => if x.due then f else f.start x.idx
    | none => f

/-- The running split stops running, keeping its signature. -/
def Fibre.suspend (f : Fibre) (st : SplitState) (g : Split → Split := id) : Fibre :=
  match f.run? with
  | some x => { f with splits := modSplit f.splits x.idx fun y => g { y with st, sig := f.fsig } }
  | none => f

/-! ## Arrival, fusion and exit (R293 to R295) -/

/-- What a change of the table can end in: the fibre goes on, exits, or meets cause 25 or 26 (R294). -/
inductive SplitEnd where
  | ok (f : Fibre)
  | exited (f : Fibre)
  | error (cause : Nat) (f : Fibre)
  deriving DecidableEq, Repr

/-- Fewer children are awaited by a parent. -/
def oneLess (l : List Split) (par : Nat) : List Split := modSplit l par fun x => { x with kids := x.kids - 1 }

/-- Parent P has no child left to wait for; it follows at once, without a choice. The fuel bounds the cascade of R293
by the depth of the tree. DEDUCED, unsafe (log 20). -/
def Fibre.fuse (sige : Bool) : Nat → Fibre → Nat → SplitEnd
  | 0, f, _ => .ok f
  | fuel + 1, f, p =>
    match findSplit f.splits p with
    | none => .ok f
    | some x =>
      let kids := f.splits.filter fun y => y.par == p && y.st == .arrived
      let union := kids.foldl (fun m y => m ||| y.mask) 0
      if !kids.isEmpty && union != x.mask then .error 26 f
      else if !kids.isEmpty && x.miss && sige && kids.any (fun y => kids.any fun z => y.sig != z.sig) then .error 25 f
      else
        let sig := match x.miss, kids with
          | true, [k] => k.sig
          | true, _ :: _ => f.fsig
          | _, _ => joinSig
        let l := fetchBack (f.splits.filter fun y => !(y.par == p && y.st == .arrived)) p
        if x.pc == x.rpc then
          let l := oneLess (modSplit l p fun y => { y with st := .arrived, sig }) x.par
          let f := { f with splits := l, fsig := sig }
          match findSplit l x.par with
          | some y => if y.kids == 0 then Fibre.fuse sige fuel f x.par else .ok f.choose
          | none => .ok f.choose
        else
          .ok { f with splits := modSplit l p (fun y => { y with st := .running, sig, park := .none }), fsig := sig, last := p }

/-- A split arrives at its reconvergence address (R293). FSIG is the signature it arrives with. -/
def Fibre.arrive (sige : Bool) (f : Fibre) (i : Nat) : SplitEnd :=
  match findSplit f.splits i with
  | none => .ok f
  | some x =>
    let l := oneLess (modSplit f.splits i fun y => { y with st := .arrived, sig := f.fsig }) x.par
    let f := { f with splits := l }
    match findSplit l x.par with
    | some y => if y.kids == 0 then Fibre.fuse sige 128 f x.par else .ok f.choose
    | none => .ok f.choose

/-- The running split goes on at an address, or arrives there. -/
def Fibre.goTo (sige : Bool) (f : Fibre) (next : DWord) : SplitEnd :=
  match f.run? with
  | none => .ok f
  | some x =>
    let f := { f with splits := modSplit f.splits x.idx fun y => { y with pc := next, again := false } }
    if x.rpc != noRpc && next == x.rpc then f.arrive sige x.idx else .ok f

/-- Chooses a split if none runs; one that stands at its reconvergence address arrives, and a parent that is due fuses
or resumes (R292 to R295). -/
def Fibre.settle (sige : Bool) : Nat → Fibre → SplitEnd
  | 0, f => .ok f
  | fuel + 1, f =>
    let f := f.choose
    match f.run? with
    | none =>
      match f.nextSplit with
      | some p =>
        if p.due then
          match Fibre.fuse sige 128 f p.idx with
          | .ok f => Fibre.settle sige fuel f
          | e => e
        else .ok f
      | none => .ok f
    | some x =>
      if x.rpc != noRpc && x.pc == x.rpc then
        match f.arrive sige x.idx with
        | .ok f => Fibre.settle sige fuel f
        | e => e
      else .ok f

/-- Indices of a split and its ancestors. -/
def ancestors (l : List Split) : Nat → Nat → List Nat
  | 0, _ => []
  | fuel + 1, i =>
    match findSplit l i with
    | none => []
    | some x => i :: ancestors l fuel x.par

/-- A split whose threads have all exited is freed and its parent handled (R295). -/
def Fibre.freeEmpty (sige : Bool) (f : Fibre) (i : Nat) : SplitEnd :=
  match findSplit f.splits i with
  | none => .ok f
  | some x =>
    let l := f.splits.filter fun y => y.idx != i
    if x.par == noParent then .exited { f with splits := l }
    else
      let l := oneLess l x.par
      let f := { f with splits := l }
      match findSplit l x.par with
      | none => .ok f.choose
      | some p =>
        if p.mask == 0 && p.par == noParent then .exited f
        else if p.kids == 0 then Fibre.fuse sige 128 f p.idx
        else .ok f.choose

/-- Mask of every thread of a fibre that has not exited: that of its root. -/
def rootMask (l : List Split) : Mask := ((l.find? fun x => x.par == noParent).map (·.mask)).getD 0

/-- EXIT of some threads of the running split; in the handler the last thread's exit ends the fibre (R295, R362). -/
def Fibre.exitThreads (sige : Bool) (f : Fibre) (gone : Mask) (next : DWord) : SplitEnd :=
  match f.run? with
  | none => .ok f
  | some x =>
    let up := ancestors f.splits 128 x.idx
    let f := { f with
      splits := f.splits.map fun (y : Split) =>
        if up.contains y.idx then { y with mask := y.mask &&& ~~~gone } else y
      frozen := f.frozen.map fun (z : Frozen) =>
        { z with
          splits := z.splits.map fun (y : Split) => { y with mask := y.mask &&& ~~~gone }
          emptied := z.emptied ++
            (z.splits.filter fun (y : Split) => y.mask != 0 && y.mask &&& ~~~gone == 0).map Split.idx }
      tmask := if f.hnd then f.tmask &&& ~~~gone else f.tmask }
    if f.hnd && rootMask f.splits == 0 then .exited f
    else if x.mask &&& ~~~gone == 0 then f.freeEmpty sige x.idx
    else f.goTo sige next

/-! ## Children (R297, R298, R307) -/

/-- A child to be made: threads, first address, signature, and whether it starts parked. -/
structure Child where
  mask : Mask
  pc : DWord
  sig : Word
  park : Park := .none
  deriving DecidableEq, Repr

/-- The indices that new children take, in creation order. -/
def childIndices (l : List Split) : Nat → List Nat
  | 0 => []
  | n + 1 =>
    let i := freeIndex l
    i :: childIndices (l ++ [{ rootSplit 0 0 .ready with idx := i }]) n

/-- The running split becomes the parent of new children that meet again at an address; a child that starts
there arrives at once, and the first that has not arrived runs (R292, R293, R297). -/
def Fibre.divide (sige miss : Bool) (f : Fibre) (join rpc : DWord) (kids : List Child) : SplitEnd :=
  match f.run? with
  | none => .ok f
  | some x =>
    let ids := childIndices f.splits kids.length
    let f := f.suspend .parent fun (y : Split) =>
      { y with pc := join, kids := kids.length, miss := miss, again := false, park := .none }
    let l := kids.foldl (fun l k =>
      let st := if k.park == .none then SplitState.ready else .parked
      addSplit l { rootSplit k.mask k.pc st with rpc, par := x.idx, sig := k.sig, park := k.park }) f.splits
    let early := (ids.zip kids).filter fun (_, k) => k.pc == rpc && k.park == .none
    let l := l.map fun y => if early.any fun e => e.1 == y.idx then { y with st := .arrived } else y
    let l := modSplit l x.idx fun y => { y with kids := y.kids - early.length }
    let f := { f with splits := l }
    match (ids.zip kids).find? fun (_, k) => k.pc != rpc && k.park == .none with
    | some (i, _) => .ok (f.start i)
    | none =>
      match findSplit l x.idx with
      | some y =>
        if y.kids == 0 then Fibre.fuse sige 128 { f with fsig := ((kids.getLast?).map (·.sig)).getD f.fsig } x.idx
        else .ok f.choose
      | none => .ok f.choose

/-! ## Spill blocks (R291) -/

/-- The lowest address in the save pool of a column at which n bytes fit (R37, R291). -/
def poolFit (x : Column) (n : Nat) : Option Nat :=
  let fits (a : Nat) : Bool :=
    x.spbase.toNat ≤ a && a + n ≤ x.spbase.toNat + x.spsize.toNat &&
      x.pool.all fun (b, m) => a + n ≤ b || b + m ≤ a
  ((x.spbase.toNat :: x.pool.map fun (b, m) => roundUp (b + m) 256).filter fits).min?

/-- Takes an area of the save pool, at the lowest place that fits (R37, R291). DEDUCED, unsafe (log 34). -/
def takePool (s : State) (c n : Nat) : Option (Nat × State) :=
  if (s.col c).spsize == 0 then none
  else (poolFit (s.col c) n).map fun a => (a, s.modCol c fun x => { x with pool := x.pool ++ [(a, n)] })

/-- Returns an area to whichever pool it was taken from. -/
def freePool (s : State) (a : Nat) : State :=
  { s with columns := s.columns.map fun (i, c) => (i, { c with pool := c.pool.filter fun e => e.1 != a }) }

/-- Bytes of a spill block. -/
def spillBytes : Nat := 6144

/-- Gives a fibre the spill block that its tree in use needs; none where the pool has no room. DEDUCED, unsafe (log
32). -/
def needSpill (s : State) (r : FibreRef) (c : Nat) : Option State :=
  match s.fibre? r with
  | none => some s
  | some f =>
    if (if f.hnd then f.hspill else f.spill).isSome then some s
    else
      (takePool s c spillBytes).map fun (a, s) =>
        s.modFibre r fun f => if f.hnd then { f with hspill := some a } else { f with spill := some a }

/-- Writes the images of those of some entries that have left the hardware to a spill block, if there is one. -/
def writeEntries (s : State) (block : Option Nat) (l : List Split) : State :=
  match block with
  | none => s
  | some a => (l.filter fun x => x.hw.isNone).foldl (fun s x => s.writeLoc (a + 48 * x.idx) x.bytes) s

/-- Writes the images of the entries that have left the hardware to the spill block of the tree in use (R291). -/
def writeSpilled (s : State) (r : FibreRef) : State :=
  match s.fibre? r with
  | none => s
  | some f => writeEntries s (if f.hnd then f.hspill else f.spill) f.splits

/-- Writes both spill blocks of a fibre: the frozen table lies in the first (R291, R309). -/
def writeTables (s : State) (r : FibreRef) : State :=
  match s.fibre? r with
  | none => s
  | some f =>
    match f.frozen with
    | none => writeSpilled s r
    | some z => writeSpilled (writeEntries s f.spill z.splits) r

end Sys2Proof.Machine
end

