-- ==== Sys2Proof/Machine/Ops.lean ====
section
/-!
DEFINITION. The named operations over fibres, teams and launches: registers, team memories and their journal,
slot passing, exit and retirement, termination, the freeze for the lodge core, taking an exception and
returning from one.
-/
namespace Sys2Proof.Machine

/-! ## Registers (R20, R73 to R75) -/

/-- A vector register as it stands. -/
def rawVec (g : Group) (f : Fibre) (n t : Nat) : Word :=
  if n < 192 then look 0 f.v (64 * n + t) else look 0 g.sv (64 * (n - 192) + t)

/-- A uniform register as it stands. -/
def rawUni (g : Group) (f : Fibre) (n : Nat) : DWord := if n < 32 then look 0 f.s n else look 0 g.ss n

/-- The threads for which a predicate is 1. -/
def predMask (f : Fibre) (n : Nat) : Mask := look 0 f.p n

/-- What a register held before the producers whose issue distance has not been reached (R28). -/
def oldValue (f : Fibre) (r : RegRef) : Option DWord := ((f.early.filter fun e => e.reg == r).getLast?).map (·.old)

/-- The value that a reader sees with CHK off (R28). -/
def readVec (g : Group) (f : Fibre) (n t : Nat) : Word :=
  match oldValue f (.vec n t) with
  | some v => v.setWidth 32
  | none => rawVec g f n t

def readUni (g : Group) (f : Fibre) (n : Nat) : DWord := (oldValue f (.uni n)).getD (rawUni g f n)

/-- A register as it stands, as 64 bits. -/
def rawReg (g : Group) (f : Fibre) : RegRef → DWord
  | .vec n t => (rawVec g f n t).setWidth 64
  | .uni n => rawUni g f n
  | .pred n t => if bit (predMask f n) t then 1 else 0

/-- A register is one set for the slot (R20). -/
def RegRef.shared : RegRef → Bool
  | .vec n _ => 192 ≤ n
  | .uni n => 32 ≤ n
  | .pred _ _ => false

/-- Writes a register of a fibre. -/
def Fibre.write (f : Fibre) (w : RegWrite) : Fibre :=
  match w.reg with
  | .vec n t => { f with v := put 0 f.v (64 * n + t) (w.value.setWidth 32) }
  | .uni n => { f with s := put 0 f.s n w.value }
  | .pred n t => { f with p := modify 0 f.p n fun m => setBit m t (w.value.getLsbD 0) }

/-- Writes a register through the slot of a fibre. -/
def Group.write (g : Group) (fid : Nat) (w : RegWrite) : Group :=
  match w.reg with
  | .vec n t =>
    if n < 192 then g.modFibre fid fun f => f.write w
    else { g with sv := put 0 g.sv (64 * (n - 192) + t) (w.value.setWidth 32) }
  | .uni n => if n < 32 then g.modFibre fid fun f => f.write w else { g with ss := put 0 g.ss n w.value }
  | .pred _ _ => g.modFibre fid fun f => f.write w

/-! ## The journal (R160, R370) -/

def State.kernel? (s : State) (seq : Nat) : Option Kernel := (s.launch? seq).map (·.kernel)

/-- Bytes of the undo journal of a launch (R160). -/
def Kernel.journalBytes (k : Kernel) : Nat := if k.rollback then roundUp (max 4096 (k.scratchBytes / 4)) 128 else 0

/-- Teams of the grid (R14). -/
def Kernel.teams (k : Kernel) : Nat := k.ntx * k.nty * k.ntz

/-- Footprint of a slot in registers (R17). -/
def Kernel.regs (k : Kernel) : Nat := (k.fibres.map (·.priv)).sum + k.shared

/-- Bytes of a journal entry, its header included (R370); the last units have none. -/
def unitBytes (width : Nat) : UnitRef → Nat
  | .vec _ _ _ => 4 * width + 8
  | .line _ => 136
  | .slotUnit _ _ => 136
  | .row _ _ => 264
  | .word _ => 16
  | .uni _ _ _ | .pred _ _ _ | .split _ _ _ | .journal | .copyEntry _ _ | .replayEntry _ _ | .engineEntry _ _ | .wcLine _ _ | .launchEntry _ => 8

/-- First byte of a 128-byte slot unit in `slotBytes`; units from 64 lie in the exponent plane (R177). -/
def slotKey (slot off : Nat) : Nat := 16384 * slot + off

/-- Key of an accumulator cell (R78, R229). -/
def cellKey (row col : Nat) : Nat := 256 * row + col

/-- The contents of a unit, lowest first. -/
def unitContents (s : State) (t : Team) (width : Nat) : UnitRef → List (BitVec 64)
  | .vec g i n =>
    match (t.group? g).bind fun x => (x.fibre? (if n < 192 then i else 0)).map fun f => (x, f) with
    | some (x, f) => (List.range width).map fun th => (rawVec x f n th).setWidth 64
    | none => []
  | .line o => (lookAll 0 t.scratch o 128).map (·.setWidth 64)
  | .slotUnit k u => (lookAll 0 t.slotBytes (slotKey k (128 * u)) 128).map (·.setWidth 64)
  | .row r i => (lookAll 0 t.cells (cellKey (64 * (r / 4) + i) (64 * (r % 4))) 64).map (·.setWidth 64)
  | .word a => [s.wordAt a]
  | .uni _ _ _ | .pred _ _ _ | .split _ _ _ | .journal | .copyEntry _ _ | .replayEntry _ _ | .engineEntry _ _ | .wcLine _ _ | .launchEntry _ => []

/-- Journals the first write to a unit while the interval is open; an entry that does not fit makes the
interval unsafe and stops journalling (R370). -/
def State.journal (s : State) (r : TeamRef) (u : UnitRef) : State :=
  match s.team? r, s.kernel? r.seq with
  | some t, some k =>
    match t.interval with
    | some iv =>
      if iv.stopped || iv.entries.any fun e => e.unit == u then s
      else
        let n := unitBytes k.width u
        if k.journalBytes < iv.used + n then
          s.modTeam r fun t => { t with interval := some { iv with stopped := true, unsafeMark := true } }
        else
          s.modTeam r fun t => { t with
            interval := some { iv with used := iv.used + n, entries := { unit := u, old := unitContents s t k.width u } :: iv.entries } }
    | none => s
  | _, _ => s

/-- The open interval becomes unsafe (R371). -/
def State.makeUnsafe (s : State) (r : TeamRef) : State :=
  s.modTeam r fun t => { t with interval := t.interval.map fun iv => { iv with unsafeMark := true } }

/-- The vector registers that writes name, shared ones under fibre 4. -/
def journalRegs (r : FibreRef) (ws : List RegWrite) : List UnitRef :=
  (ws.filterMap fun w => match w.reg with
    | .vec n _ => some (UnitRef.vec r.gid (if n < 192 then r.fid else 4) n)
    | _ => none).eraseDups

/-- The fibre under which a marked register is named: 4 for one that the slot shares. -/
def ownerOf (r : FibreRef) (reg : RegRef) : Nat := if reg.shared then 4 else r.fid

/-- Writes give a register a new value whole, so that an error in it is never read (R375). -/
def overwrites (r : FibreRef) (width : Nat) (ws : List RegWrite) : UnitRef → Bool
  | .vec g i n => g == r.gid && i == ownerOf r (.vec n 0) && (List.range width).all fun t => ws.any fun w => w.reg == .vec n t
  | .uni g i n => g == r.gid && i == ownerOf r (.uni n) && ws.any fun w => w.reg == .uni n
  | .pred g i n => g == r.gid && i == r.fid && (List.range width).all fun t => ws.any fun w => w.reg == .pred n t
  | _ => false

/-- Marks that a test picks are gone. -/
def State.unmark (s : State) (r : TeamRef) (p : UnitRef → Bool) : State :=
  s.modTeam r fun t => { t with marked := t.marked.filter fun u => !p u }

/-- Registers of a fibre take values now, journalled first (R370). -/
def State.commit (s : State) (r : FibreRef) (ws : List RegWrite) : State :=
  let s := (journalRegs r ws).foldl (fun s u => s.journal r.team u) s
  let s := s.unmark r.team (overwrites r (((s.kernel? r.team.seq).map (·.width)).getD 64) ws)
  s.modGroup r.team r.gid fun g => ws.foldl (fun g w => g.write r.fid w) g

/-- A later write of the same fibre takes the place of results of private registers still outstanding. DEDUCED,
unsafe (log 12). -/
def dropPending (ws : List RegWrite) (l : List Pending) : List Pending :=
  l.map fun p => { p with writes := p.writes.filter fun x => x.reg.shared || !(ws.any fun w => w.reg == x.reg) }

/-- Fixed-latency results: `left` core cycles of issue distance are missing when the producer's hold ends (R28);
those to shared registers land at a core cycle, be it within the producer's own hold (R75). DESIGN CHOICE, safe (log 4). -/
def State.produce (s : State) (r : FibreRef) (ws : List RegWrite) (left cycle : Nat) : State :=
  match s.group? r with
  | none => s
  | some g =>
    match g.fibre? r.fid with
    | none => s
    | some f =>
      let olds : List Early := ws.map fun w => { reg := w.reg, old := rawReg g f w.reg, left }
      let clear (l : List Early) := l.filter fun e => !(ws.any fun w => w.reg == e.reg)
      let s := s.modFibre r fun f => { f with
        early := if left = 0 then clear f.early else olds ++ f.early
        outstanding := dropPending ws f.outstanding }
      let s := s.commit r (ws.filter fun w => !w.reg.shared)
      s.modGroup r.team r.gid fun g =>
        { g with arrivals := g.arrivals ++ (ws.filter fun w => w.reg.shared).map fun w => (⟨cycle, w⟩ : Arrival) }

/-- Results in the order in which they land, those of one core cycle in the order of their issue (R75). -/
def byCycle (l : List Arrival) : List Arrival := sortBy (fun a b => decide (a.cycle ≤ b.cycle)) l

/-- Shared registers take the fixed-latency results whose core cycle has come (R75). -/
def State.settleArrivals (s : State) (r : TeamRef) (gid : Nat) : State :=
  match (s.team? r).bind fun t => t.group? gid with
  | none => s
  | some g =>
    let now := s.coreCycle g.core
    let due := byCycle (g.arrivals.filter fun a => a.cycle ≤ now)
    if due.isEmpty then s
    else
      let s := s.commit { team := r, gid, fid := 4 } (due.map (·.write))
      s.modGroup r gid fun g => { g with arrivals := g.arrivals.filter fun a => !(a.cycle ≤ now) }

/-- Results that are written now, those to shared registers after what has reached them before. -/
def State.writeNow (s : State) (r : FibreRef) (ws : List RegWrite) : State :=
  ((s.settleArrivals r.team r.gid).produce r ws 0 0).settleArrivals r.team r.gid

/-- An operation has issued whose results wait in the scoreboard (R29), or whose flags are raised at a core cycle (R82). -/
def State.expect (s : State) (r : FibreRef) (ws : List RegWrite) (flags : BitVec 5 := 0)
    (remote : List (Nat × Bool) := []) (float : Bool := false) (due : Option Nat := none) (pc : DWord := 0)
    (reload : Option Reload := none) : State :=
  let id := s.nextId
  let s : State := { s with nextId := id + 1 }
  s.modFibre r fun f =>
    { f with outstanding := dropPending ws f.outstanding ++ [{ id, writes := ws, flags, float, remote, due, pc, reload }] }

/-! ## Team memories -/

/-- A counter of the team's scratchpad is covered by n bytes from an offset. -/
def touchesScratch (r : TeamRef) (o n : Nat) : CounterRef → Bool
  | .scratch t x => t == r && decide (o < x + 8) && decide (x < o + n)
  | _ => false

/-- Writes scratchpad bytes at an offset, journalling the lines and evaluating the counters (R161, R327). -/
def State.writeScratch (s : State) (r : TeamRef) (o : Nat) (bs : List Byte) (old : Bool := false) : State :=
  let n := bs.length
  let lines := if n = 0 then [] else (List.range ((o + n - 1) / 128 - o / 128 + 1)).map fun i => (o / 128 + i) * 128
  let s := if old then s else lines.foldl (fun s l => s.journal r (.line l)) s
  let s := s.modTeam r fun t => { t with
    scratch := putAll 0 t.scratch o bs
    marked := t.marked.filter fun u => match u with
      | .line l => !(o ≤ l && l + 128 ≤ o + n)
      | _ => true }
  s.evaluate (touchesScratch r o n)

/-- Writes bytes of an operand slot (R177). -/
def State.writeSlot (s : State) (r : TeamRef) (slot off : Nat) (bs : List Byte) (old : Bool := false) : State :=
  let n := bs.length
  let units := if n = 0 then [] else (List.range ((off + n - 1) / 128 - off / 128 + 1)).map fun i => off / 128 + i
  let s := if old then s else units.foldl (fun s u => s.journal r (.slotUnit slot u)) s
  s.modTeam r fun t => { t with
    slotBytes := putAll 0 t.slotBytes (slotKey slot off) bs
    marked := t.marked.filter fun u => match u with
      | .slotUnit k i => !(k == slot && off ≤ 128 * i && 128 * i + 128 ≤ off + n)
      | _ => true }

/-- Writes accumulator cells of the team's space, given by row, column and value (R229). -/
def State.writeCells (s : State) (r : TeamRef) (cs : List (Nat × Nat × Word)) (old : Bool := false) : State :=
  let rows := (cs.map fun (i, j, _) => UnitRef.row (4 * (i / 64) + j / 64) (i % 64)).eraseDups
  let s := if old then s else rows.foldl (fun s u => s.journal r u) s
  s.modTeam r fun t => { t with
    cells := cs.foldl (fun m (i, j, v) => put 0 m (cellKey i j) v) t.cells
    marked := t.marked.filter fun u => match u with
      | .row g i => !((List.range 64).all fun j => cs.any fun x => x.1 == 64 * (g / 4) + i && x.2.1 == 64 * (g % 4) + j)
      | _ => true }

/-- Writes a slot counter (R327). -/
def State.writeSlotCounter (s : State) (r : TeamRef) (g n : Nat) (v : DWord) : State :=
  (s.modGroup r g fun x => { x with ctr := put 0 x.ctr n v }).evaluate fun c => c == .slot r g n

/-! ## Readiness and slot passing (R21, R23) -/

/-- A fibre can issue: not exited, not frozen, not held, with a split that runs or is ready. -/
def Fibre.ready (f : Fibre) : Bool :=
  !f.exited && f.lodge.isNone && f.entering.isNone && f.hold == .none &&
    f.splits.any fun x => x.st == .running || x.st == .ready || x.due

/-- A fibre that may hold the slot though it is not ready. -/
def Fibre.live (f : Fibre) : Bool := !f.exited && f.lodge.isNone

/-- Fibre indices after i in round-robin order, i itself last. -/
def roundRobin (n i : Nat) : List Nat := (List.range n).map fun k => (i + 1 + k) % n

/-- The slot passes on from its holder, which `gone` says has exited or been frozen (R21). -/
def Group.pass (g : Group) (gone : Bool) : Group :=
  match g.holder with
  | none => g
  | some h =>
    let others := (roundRobin g.fibres.length h).filter fun i => i != h
    let ok (p : Fibre → Bool) (i : Nat) : Bool := ((g.fibre? i).map p).getD false
    match others.find? (ok Fibre.ready) with
    | some i => { g with holder := some i, watch := 0 }
    | none =>
      if gone then
        match (others ++ [h]).find? (ok Fibre.live) with
        | some i => { g with holder := some i, watch := if i = h then g.watch else 0 }
        | none => { g with holder := none }
      else g

/-- The fibre issues an instruction that is a yield point: the slot's watchdog count restarts (R31). -/
def State.yieldPoint (s : State) (r : FibreRef) : State := s.modGroup r.team r.gid fun g => { g with watch := 0 }

/-- The column on which a fibre runs. -/
def State.columnOf (s : State) (r : FibreRef) : Nat := ((s.group? r).map fun g => colOf g.core).getD 0

/-- The slot of a group passes at a core cycle: a new holder may issue from the following one (R21). -/
def Group.passAt (g : Group) (gone : Bool) (cycle : Nat) : Group :=
  let x := g.pass gone
  if x.holder == g.holder then x else { x with since := cycle + 1 }

/-- The fibre passes its slot, if it holds it (R21). DEDUCED, unsafe (log 16). -/
def State.passSlot (s : State) (r : FibreRef) (gone : Bool) : State :=
  s.modGroup r.team r.gid fun g => if g.holder == some r.fid then g.passAt gone (s.coreCycle g.core) else g

/-- A fibre that was frozen goes on; a slot without a holder is taken by it (R21). -/
def State.regain (s : State) (r : FibreRef) : State :=
  s.modGroup r.team r.gid fun g => if g.holder.isNone then { g with holder := some r.fid } else g

/-! ## Waits -/

/-- The core of a fibre wakes if it is gated (R416). -/
def State.wakeFibre (s : State) (r : FibreRef) : State :=
  match s.group? r with
  | some g => s.wakeCore g.core
  | none => s

/-- Withdraws the waits that a test picks (R331). -/
def State.withdraw (s : State) (p : WaitAgent → Bool) : State :=
  { s with waiters := s.waiters.filter fun w => !(p w.agent) }

def WaitAgent.ofFibre (r : FibreRef) : WaitAgent → Bool
  | .fibre f => f == r
  | .thread f _ _ => f == r
  | _ => false

def WaitAgent.ofTeam (r : TeamRef) : WaitAgent → Bool
  | .fibre f => f.team == r
  | .thread f _ _ => f.team == r
  | _ => false

def WaitAgent.ofLaunch (seq : Nat) : WaitAgent → Bool
  | .fibre f => f.team.seq == seq
  | .thread f _ _ => f.team.seq == seq
  | .gate q => q == seq
  | _ => false

/-- Fibres that a test of their holds picks try again, and wake the gated cores on which they lie (R416). -/
def State.retry (s : State) (p : Hold → Bool) : State :=
  let cores := s.teams.flatMap fun t => (t.groups.filter fun g => g.fibres.any fun f => p f.hold).map (·.core)
  let s : State := { s with teams := s.teams.map fun t => { t with groups := t.groups.map fun g =>
      { g with fibres := g.fibres.map fun f => if p f.hold then { f with hold := .none } else f } } }
  cores.foldl State.wakeCore s

/-! ## Handler entry and room in the save pool (R291, R357, R358) -/

/-- The split that ran last: the running one, else the last to run if it can run again, else the oldest that can
(R358). DEDUCED, unsafe (log 31). -/
def Fibre.lastSplit (f : Fibre) : Option Split :=
  let can (x : Split) : Bool := x.st == .ready || x.st == .parked
  (f.run?).orElse fun _ => (f.splits.find? fun x => x.idx == f.last && can x).orElse fun _ => f.splits.find? can

/-- The fibre's registers and split table at handler entry: the frozen table with the FSIG of the interrupted split (R309,
R357). -/
def Fibre.enter (f : Fibre) (t : TrapInfo) : Fibre :=
  { f with
    frozen := some {
      splits := f.splits.map fun (x : Split) => { x with hw := none, st := if x.st == .running then .ready else x.st },
      fsig := if f.run?.isSome then f.fsig else ((f.lastSplit).map (·.sig)).getD f.fsig
      run := ((f.lastSplit).map (·.idx)).getD 0 }
    splits := [rootSplit (rootMask f.splits) f.tvec .running]
    last := 0
    fsig := 0
    tcause := BitVec.ofNat 64 t.cause
    tinfo := t.info
    tpc := t.pc
    tmask := t.mask
    taddr := t.addrs.filter fun x => bit t.mask x.1
    hold := .none
    entering := none }

/-- The fibre enters its handler once the save pool has a block for its frozen table (R291, R357); until then it is not
ready (`State.poolFreed`). -/
def State.enterHandler (s : State) (r : FibreRef) (t : TrapInfo) : State :=
  match needSpill s r (s.columnOf r) with
  | none => s.modFibre r fun f => { f with hold := .savePool, entering := some t }
  | some s =>
    let s := s.modFibre r fun f => { f with splits := f.splits.map fun (x : Split) => { x with hw := none } }
    let s := writeSpilled s r
    s.modFibre r fun f => f.enter t

/-- A fibre whose handler entry waits makes it, if it is held by nothing else. -/
def State.enterWaiting (s : State) (r : FibreRef) : State :=
  match s.fibre? r with
  | some f =>
    match f.entering with
    | some t => if f.hold == .none then (s.modFibre r fun f => { f with entering := none }).enterHandler r t else s
    | none => s
  | none => s

/-- A save pool may have room again: handler entries that waited for it are made at once, whoever holds their slots, and
the other fibres that waited try again (R21, R23, R291). -/
def State.poolFreed (s : State) : State :=
  (s.retry fun h => h == .savePool).teams.foldl (fun s t => t.groups.foldl (fun s g =>
    g.fibres.foldl (fun s f => s.enterWaiting ⟨t.ref, g.gid, f.fid⟩) s) s) (s.retry fun h => h == .savePool)

def State.freeArea (s : State) (a : Option Nat) : State :=
  match a with
  | some a => (freePool s a).poolFreed
  | none => s

/-! ## Ports and the write-combining buffer (R196, R400, R401) -/

/-- Port that a class of peer lines uses (R400). -/
def State.portOf (s : State) (cls : Nat) : Nat := look cls s.route cls

/-- Class of the 128-byte line of a peer address (R400). -/
def lineClass (pa : Nat) : Nat :=
  (fld (BitVec.ofNat 64 pa) 10 7) ^^^ (fld (BitVec.ofNat 64 pa) 14 11) ^^^ (fld (BitVec.ofNat 64 pa) 22 19) ^^^
    (fld (BitVec.ofNat 64 pa) 33 30) ^^^ (fld (BitVec.ofNat 64 pa) 45 42)

/-- A port is up: its link runs and it is not locked (R401). -/
def Port.live (p : Port) : Bool := p.up && !p.locked

/-- Some port is live (R401). -/
def State.anyPort (s : State) : Bool := (List.range 16).any fun q => (s.portAt q).live

/-- The class of the line of a peer's location (R400). -/
def classOf (loc : Nat) : Nat := lineClass (loc % 2 ^ 64)

/-- A request of a class is outstanding (R401). -/
def State.classBusy (s : State) (cls : Nat) : Bool :=
  (s.teams.any fun t => t.groups.any fun g => g.fibres.any fun f => f.outstanding.any fun p =>
    p.remote.any fun x => classOf x.1 == cls) ||
  s.cores.any fun (_, k) => k.flight.any fun l => l.port.isSome && classOf l.loc == cls

/-- The port that a class should use: that of its boot route; else the one it uses, while that is live; else the other of
its plane, or one of the next live plane above; none without a live port (R401). -/
def State.wantedPort (s : State) (cls : Nat) : Option Nat :=
  ([cls, s.portOf cls, s.portOf cls / 2 * 2 + 1 - s.portOf cls % 2] ++ (List.range 8).flatMap fun i =>
    let p := (cls / 2 + i) % 8
    [2 * p + cls % 2, 2 * p + 1 - cls % 2]).find? fun q => (s.portAt q).live

/-- A class moves to the port that it should use, once nothing of it is outstanding. DEDUCED, unsafe (log 61). -/
def State.moveClass (s : State) (cls : Nat) : State :=
  let s : State := { s with stalled := s.stalled.filter fun x => x.cls != cls }
  match s.wantedPort cls with
  | none => s
  | some q =>
    if s.portOf cls = q then s
    else if s.classBusy cls then { s with stalled := s.stalled ++ [{ cls, port := q }] }
    else
      -- waits on counters of the class are withdrawn, and register again at their next reading; those that peers hold here
      -- by a plane that has failed are withdrawn, for the peers to issue again (R335)
      let again (w : Waiter) : Waiter := match w.counter with
        | .mem loc => if isPeer loc && classOf loc == cls && !w.satisfied then { w with poll := some (s.tick, 64) } else w
        | _ => w
      let failed := !(s.portAt (s.portOf cls)).live
      let gone (w : Waiter) : Bool := match w.agent, w.counter with
        | .peer _ _, .mem loc => failed && classOf loc == cls
        | _, _ => false
      { s with route := put cls s.route cls q, waiters := (s.waiters.filter fun w => !gone w).map again }

/-- Every class takes its way; requests that stalled proceed where they can. -/
def State.reroute (s : State) : State :=
  ((List.range 16).foldl State.moveClass s).retry fun h => h == .fabric

/-- Classes whose last outstanding request has ended move. -/
def State.settleRoutes (s : State) : State :=
  if s.stalled.any fun x => !s.classBusy x.cls then s.reroute else s

/-- A request to a location can leave now: it is not a peer's, or the port of its class is live and its class does not move
(R401). -/
def State.peerOpen (s : State) (loc : Nat) : Bool :=
  !isPeer loc || (!(s.stalled.any fun x => x.cls == classOf loc) && (s.portAt (s.portOf (classOf loc))).live)

/-- The event of a port with the stores that are lost (R403). -/
def portEvent (port reason addr stores adds : Nat) : EventRecord :=
  { kind := 8, addr := BitVec.ofNat 64 addr, d0 := BitVec.ofNat 64 (port + 256 * reason),
    d1 := BitVec.ofNat 64 stores, d2 := BitVec.ofNat 64 adds }

/-- Byte o of a buffered line. -/
def WcLine.byte? (l : WcLine) (o : Nat) : Option Byte := (l.bytes.find? fun b => b.off == o).map (·.val)

/-- A store is merged: later bytes replace earlier ones (R269). -/
def WcLine.merge (l : WcLine) (r : TeamRef) (id o : Nat) (bs : List Byte) : WcLine :=
  { l with
    bytes := (l.bytes.filter fun x => !(o ≤ x.off && x.off < o + bs.length)) ++
      bs.zipIdx.map fun (b, i) => { off := o + i, val := b, team := r }
    stores := l.stores ++ [(r, id)] }

/-- A line without the bytes of some teams, none where nothing is left (R201). -/
def WcLine.abandon (gone : TeamRef → Bool) (l : WcLine) : Option WcLine :=
  let x := { l with bytes := l.bytes.filter fun b => !gone b.team, stores := l.stores.filter fun x => !gone x.1 }
  if x.bytes.isEmpty then none else some x

/-- Runs of consecutive bytes of a line: first offset and bytes. -/
def WcLine.runs (l : WcLine) : List (Nat × List Byte) :=
  (List.range 128).foldr (fun o acc =>
    match l.byte? o, acc with
    | none, _ => acc
    | some b, (p, bs) :: rest => if p = o + 1 then (o, b :: bs) :: rest else (o, [b]) :: acc
    | some b, [] => [(o, [b])]) []

/-- A line address (location of its first byte). -/
def lineOf (loc : Nat) : Nat := loc / 128 * 128

/-- Updates the bytes of a line that a core's L1 holds; the bytes lie within the line (R167). -/
def State.l1Update (s : State) (core loc : Nat) (bs : List Byte) : State :=
  let change (l : CacheLine) : CacheLine :=
    if l.addr == lineOf loc then
      { l with
        bytes := l.bytes.take (loc % 128) ++ bs ++ l.bytes.drop (loc % 128 + bs.length)
        bad := l.bad.filter fun x => !(loc ≤ 32 * x && 32 * x + 32 ≤ loc + bs.length) }
    else l
  s.modCore core fun k => { k with l1 := k.l1.map change }

/-- The stores of a core's line are performed at its home, each run whole, and in the line of its L1, which may have been
filled after they entered the buffer (R185, R186, R191). -/
def State.landLine (s : State) (core : Nat) (l : WcLine) : State :=
  l.runs.foldl (fun s (o, bs) => (s.l1Update core (l.loc + o) bs).writeLoc (l.loc + o) bs) s

/-- A class of lines is moving to another port (R401). -/
def State.classMoves (s : State) (cls : Nat) : Bool := s.stalled.any fun x => x.cls == cls

/-- A buffered line leaves. Stores to a peer are sent by the port of their class, or stall while the class moves (R196,
R401); others are performed at their home. DEDUCED, unsafe (log 61). -/
def State.drainLine (s : State) (core : Nat) (l : WcLine) : State :=
  let s := s.modCore core fun k => { k with wcb := k.wcb.filter fun x => x.loc != l.loc }
  if isPeer l.loc then
    let port := if s.classMoves (classOf l.loc) then none else some (s.portOf (classOf l.loc))
    s.modCore core fun k => { k with flight := k.flight ++ [{ l with port }] }
  else s.landLine core l

/-- The whole buffer drains, oldest line first. DEDUCED, unsafe (log 22). -/
def State.drain (s : State) (core : Nat) : State := (s.core core).wcb.foldl (fun s l => s.drainLine core l) s

/-- A line on its way reaches its peer: the port it went by is live, or its class has moved to a live one (R401). -/
def State.lands (s : State) (l : WcLine) : Bool :=
  match l.port with
  | some q => (s.portAt q).live
  | none => s.peerOpen l.loc

/-- The lines of a core on their way that reach their peers are performed there and acknowledged. -/
def State.landAll (s : State) (core : Nat) : State :=
  (s.core core).flight.foldl (fun s l =>
    if s.lands l then (s.modCore core fun k => { k with flight := k.flight.erase l }).landLine core l else s) s

/-- Every remote store of a core has been acknowledged, or declared lost (R196). -/
def State.acked (s : State) (core : Nat) : Bool := (s.core core).flight.isEmpty

/-- The buffer drains and its stores are acknowledged where they can be. -/
def State.drainHome (s : State) (core : Nat) : State := (s.drain core).landAll core

/-- A release at a scope orders earlier stores for agents on other cores: from column scope up, at team scope for a pair
(R189, R190, R196). DEDUCED, unsafe (log 22). -/
def drains (pair : Bool) (scope : Nat) : Bool := 3 ≤ scope || (pair && scope == 2)

/-- A release by a core; it completes once its stores are acknowledged (`State.acked`). -/
def State.release (s : State) (core : Nat) (pair : Bool) (scope : Nat) : State :=
  if drains pair scope then s.drainHome core else s

/-- A release by a core may not complete yet. -/
def State.unreleased (s : State) (core : Nat) (pair : Bool) (scope : Nat) : Bool := drains pair scope && !s.acked core

/-- The stores of a core to the line of a location leave, so that what follows at the home comes after them (R185). -/
def State.drainAt (s : State) (core loc : Nat) : State :=
  let mine (l : WcLine) : Bool := l.loc == lineOf loc
  if !((s.core core).wcb.any mine || (s.core core).flight.any mine) then s
  else (((s.core core).wcb.filter mine).foldl (fun s l => s.drainLine core l) s).landAll core

/-- The byte that the core's buffered and unacknowledged stores have for a location. -/
def Core.ownByte (k : Core) (loc : Nat) : Option Byte :=
  ((k.flight ++ k.wcb).reverse.filter fun l => l.loc == lineOf loc).findSome? fun l => l.byte? (loc % 128)

/-- Bytes at a location with the core's buffered and unacknowledged bytes over them (R196, R211). -/
def State.overlay (s : State) (core loc : Nat) (bs : List Byte) : List Byte :=
  let k := s.core core
  if k.wcb.isEmpty && k.flight.isEmpty then bs else bs.zipIdx.map fun (b, i) => (k.ownByte (loc + i)).getD b

/-! ## Retirement (R22, R40) -/

/-- Spill blocks of a team. -/
def Team.areas (t : Team) : List Nat :=
  t.groups.flatMap fun g => g.fibres.flatMap fun f => f.spill.toList ++ f.hspill.toList

/-- Copies and matrix operations of a team still under way. -/
def State.teamBusy (s : State) (r : TeamRef) : Bool :=
  s.cores.any fun (_, k) => k.reqs.any (fun q => q.team == r) || k.engine.any (fun e => e.fib.team == r) ||
    k.replay.any fun e => e.team == r

/-- A line holds stores of a launch. -/
def WcLine.ofLaunch (seq : Nat) (l : WcLine) : Bool := l.stores.any fun x => x.1.seq == seq

/-- A core's stores come before the completion add of a launch: teams of the launch have run there, or stores of it stand
there (R198). -/
def State.coreOf (s : State) (seq core : Nat) : Bool :=
  ((s.launch? seq).any fun l => l.cores.contains core) ||
    ((s.core core).wcb ++ (s.core core).flight).any (WcLine.ofLaunch seq)

/-- The buffers of a launch's cores drain whole: its completion add is a cumulative release (R196, R198). -/
def State.drainLaunch (s : State) (seq : Nat) : State :=
  s.cores.foldl (fun s x => if s.coreOf seq x.1 then s.drainHome x.1 else s) s

/-- Every store of a launch's cores has been acknowledged. -/
def State.launchAcked (s : State) (seq : Nat) : Bool := s.cores.all fun x => !(s.coreOf seq x.1) || x.2.flight.isEmpty

/-- The launch has placed and retired every team: the completion add is made, once the port of a peer's counter is live, the
event written, and the launch-queue entry freed (R40, R260, R272, R401). -/
def State.completeLaunch (s : State) (seq : Nat) : State :=
  match s.launch? seq with
  | none => s
  | some l =>
    let t := if l.retired < l.kernel.teams then s else s.drainLaunch seq
    if l.retired < l.kernel.teams || !t.launchAcked seq || !(l.done.all t.peerOpen) then t
    else
      let s := t
      let s := match l.done with
        | some a => s.addLoc a (l.cinc.setWidth 64)
        | none => s
      let s := if l.kernel.evc then
          s.event l.col { kind := 4, seq, team := 0, d0 := l.cadr, d1 := l.cinc.setWidth 64 }
        else s
      s.modCol l.col fun c => { c with queue := c.queue.filter fun x => x.seq != seq }

/-- A team's copies that wait for a request-queue entry wait no more, on whichever core of its pair (R261). -/
def State.dropCopyWaiters (s : State) (r : TeamRef) (p : CopyWaiter → Bool) : State :=
  { s with cores := s.cores.map fun (i, k) =>
      (i, { k with copyWaiters := k.copyWaiters.filter fun w => !(w.team == r && p w) }) }

/-- A team retires when its groups have retired and its engine operations are done (R40). DEDUCED, unsafe (log 36). -/
def State.retireTeam (s : State) (r : TeamRef) : State :=
  match s.team? r with
  | none => s
  | some t =>
    if t.groups.all (·.retired) && !s.teamBusy r then
      let s := t.areas.foldl (fun s a => s.freeArea (some a)) s
      let s := { s with teams := s.teams.filter fun x => x.ref != r }
      let s := s.withdraw (WaitAgent.ofTeam r)
      let s := s.dropCopyWaiters r fun _ => true
      ((s.modLaunch r.seq fun l => { l with retired := l.retired + 1 }).completeLaunch r.seq).settleRoutes
    else s

/-! ## Checkpoint opening (R369) -/

/-- A split as an opening or a frozen table records it: a per-thread wait, and a fence or release that waits for its
stores, is ready at its instruction. DEDUCED, unsafe (log 31). -/
def recordSplit (x : Split) : Split :=
  match x.park with
  | .threads _ _ _ _ => { x with st := .ready, park := .none, again := true }
  | .acks _ => { x with st := .ready, park := .none }
  | _ => x

/-- FFLAGS once the instructions issued before have written their results (R82). -/
def Fibre.flagsDue (f : Fibre) : BitVec 5 := f.outstanding.foldl (fun x p => x ||| p.flags) f.fflags

/-- The opening record of a group: registers, split tables, counters and spill blocks; waits recorded as R369
says. -/
def recordGroup (g : Group) : OpeningGroup :=
  { gid := g.gid, ss := g.ss, ctr := g.ctr
    fibres := g.fibres.map fun f =>
      { f with v := [], taddr := [], fflags := f.flagsDue, splits := f.splits.map recordSplit, hold := .none } }

/-- Opens a team's interval: the fibres that wait at TCKPT go past it (R369). DEDUCED, unsafe (log 37). -/
def openInterval (t : Team) : Team :=
  let go (f : Fibre) : Fibre := if f.hold == .checkpoint then { f with hold := .none, ckptPass := true } else f
  let t := { t with groups := t.groups.map fun (g : Group) => { g with fibres := g.fibres.map go } }
  let iv : Interval := { groups := t.groups.map recordGroup, slots := t.tiles, regions := t.regions }
  { t with interval := some iv }

/-- Every fibre of the team that has not exited has arrived at TCKPT. -/
def Team.allArrived (t : Team) : Bool :=
  t.groups.all (fun g => g.fibres.all fun f => f.exited || f.hold == .checkpoint) &&
    t.groups.any fun g => g.fibres.any fun f => f.hold == .checkpoint

/-- The gated cores of a team wake (R416). -/
def State.wakeTeam (s : State) (t : Team) : State := t.groups.foldl (fun s g => s.wakeCore g.core) s

/-- The last arrival opens the interval (R369). -/
def State.openIfArrived (s : State) (r : TeamRef) : State :=
  match s.team? r with
  | none => s
  | some t =>
    if t.allArrived then
      let s := (s.modTeam r openInterval).wakeTeam t
      { s with cores := s.cores.map fun (i, k) => (i, { k with
          engine := k.engine.map fun e => if e.fib.team == r then { e with old := true } else e
          reqs := k.reqs.map fun q => if q.team == r then { q with old := true } else q }) }
    else s

/-- A split whose fence or release has waited for acknowledgements that have all come issues it again. -/
def State.ackSplit (s : State) (x : Split) : Split :=
  match x.park with
  | .acks cores => if cores.all s.acked then { x with st := .ready, park := .none } else x
  | _ => x

/-- Both trees of a fibre. -/
def Fibre.mapSplits (f : Fibre) (g : Split → Split) : Fibre :=
  { f with splits := f.splits.map g, frozen := f.frozen.map fun z => { z with splits := z.splits.map g } }

/-- A split of a fibre has waited for acknowledgements that have all come. -/
def State.hasAcks (s : State) (f : Fibre) : Bool :=
  (f.splits ++ (f.frozen.map (·.splits)).getD []).any fun x => match x.park with
    | .acks cores => cores.all s.acked
    | _ => false

/-- Fences and releases whose stores have all been acknowledged go on; their gated cores wake (R416). -/
def State.rouseAcks (s : State) : State :=
  let cores := s.teams.flatMap fun t => (t.groups.filter fun g => g.fibres.any s.hasAcks).map (·.core)
  let t : State := { s with teams := s.teams.map fun t => { t with groups := t.groups.map fun g =>
      { g with fibres := g.fibres.map fun f => if s.hasAcks f then f.mapSplits s.ackSplit else f } } }
  cores.foldl State.wakeCore t

/-- A core's lines reach their peers: fences and releases that waited for them go on, classes settle, and launches
complete whose last stores they were (R196, R198, R401). -/
def State.land (s : State) (core : Nat) : State :=
  let s := ((s.landAll core).settleRoutes).rouseAcks
  (s.columns.flatMap fun (_, c) => c.queue.map (·.seq)).foldl State.completeLaunch s

/-! ## Exit (R22, R362) -/

/-- A fibre exits: the slot passes, an empty group retires and so may its team. Its outstanding results still reach the
shared registers (R75). -/
def State.exitFibre (s : State) (r : FibreRef) : State :=
  let blk := s.fibre? r |>.bind (·.hspill)
  let s := s.modFibre r fun f =>
    { f with exited := true, splits := [], frozen := none, hspill := none, hold := .none }
  let s := (s.freeArea blk).withdraw (WaitAgent.ofFibre r)
  let s := s.passSlot r true
  let s := s.modGroup r.team r.gid fun g =>
    if g.fibres.all (·.exited) then { g with retired := true, holder := none } else g
  (s.openIfArrived r.team).retireTeam r.team

/-! ## Termination (R366, R337) -/

/-- The counters whose adds a terminated launch will never make. -/
def State.unmade (s : State) (seq : Nat) : List CounterRef :=
  let own := match (s.launch? seq).bind (·.done) with
    | some a => [CounterRef.mem a]
    | none => []
  let place (r : TeamRef) : Nat ⊕ Nat → CounterRef
    | .inl a => .mem a
    | .inr o => .scratch r o
  own ++ s.cores.flatMap fun (_, k) => (k.reqs.filter fun q => q.team.seq == seq).flatMap fun q =>
    (if q.released then [] else (q.relLoc.map (place q.team)).toList) ++
      (if q.completed then [] else (q.compLoc.map (place q.team)).toList)

/-- Other agents' waits on those counters complete with killed status; a gate stays closed (R337, R341). -/
def State.killWaits (s : State) (cs : List CounterRef) : State :=
  let marked := s.waiters.map fun w =>
    if cs.contains w.counter && !w.satisfied && !w.isGate then { w with satisfied := true, killed := true, poll := none } else w
  let fired := marked.filter fun w => w.satisfied && w.atHome
  fired.foldl fireOne { s with waiters := marked.filter fun w => !(w.satisfied && w.atHome) }

/-- Where in a fibre a termination arose. -/
structure Blame where
  reason : Nat
  cause : Nat := 0
  pc : DWord := 0
  fib : Option FibreRef := none
  deriving DecidableEq, Repr

/-- Terminates a launch (R366). DEDUCED, unsafe (log 36). -/
def State.terminate (s : State) (seq : Nat) (b : Blame) : State :=
  match s.launch? seq with
  | none => s
  | some l =>
    let core := (b.fib.bind fun r => (s.group? r).map (·.core)).getD 0
    let d2 : Nat := (b.fib.map fun r => r.fid + 256 * r.gid + 65536 * core).getD 0
    let s := s.event l.col
      { kind := 3, seq, team := (b.fib.map (·.team.idx)).getD 0, d0 := BitVec.ofNat 64 (b.reason + 256 * b.cause), d1 := b.pc,
        d2 := BitVec.ofNat 64 d2 }
    let s := s.withdraw (WaitAgent.ofLaunch seq)
    let s := s.killWaits (s.unmade seq)
    let mine (r : TeamRef) : Bool := r.seq == seq
    let s := (s.teams.filter fun t => mine t.ref).foldl (fun s t => t.areas.foldl (fun s a => s.freeArea (some a)) s) s
    let s := (s.saved.filter fun t => mine t.team.ref).foldl
      (fun s t => t.team.areas.foldl (fun s a => s.freeArea (some a)) (s.freeArea (some t.addr))) s
    let clean (k : Core) : Core := { k with
      engine := k.engine.filter fun e => !mine e.fib.team
      reqs := k.reqs.filter fun q => !mine q.team
      copyWaiters := k.copyWaiters.filter fun w => !mine w.team
      replay := k.replay.filter fun e => !mine e.team
      wcb := k.wcb.filterMap (WcLine.abandon mine)
      flight := k.flight.filterMap (WcLine.abandon mine) }
    let s := { s with
      teams := s.teams.filter fun t => !mine t.ref
      saved := s.saved.filter fun t => !mine t.team.ref
      cores := s.cores.map fun (i, k) => (i, clean k) }
    let s := s.retry fun h => match h with
      | .engine | .copyQueue => true
      | _ => false
    (s.modCol l.col fun c => { c with queue := c.queue.filter fun x => x.seq != seq }).settleRoutes

/-! ## Taking an exception and returning from one (R357, R358, R361) -/

/-- A cause whose destination is the handler (R357): termination without a handler or inside one; else the slot passes
as though the fibre had exited (R21, R23), the fibre's counter waits are withdrawn, to be issued again after TRET
(R358), and the fibre enters its handler. DEDUCED, unsafe (log 16, 31). -/
def State.takeTrap (s : State) (r : FibreRef) (t : TrapInfo) : State :=
  match s.fibre? r with
  | some f =>
    if f.tvec = 0 then s.terminate r.team.seq { reason := 1, cause := t.cause, pc := t.pc, fib := some r }
    else if f.hnd then s.terminate r.team.seq { reason := 2, cause := t.cause, pc := t.pc, fib := some r }
    else
      let s := (s.withdraw (WaitAgent.ofFibre r)).modFibre r fun f => { f with
        splits := f.splits.map fun x => let x := recordSplit x
          if t.cause == 6 && x.st == .running then { x with missed := true } else x }
      let s := s.modTeam r.team fun t => { t with claims := t.claims.filter fun x => x.fib != r }
      (s.passSlot r true).enterHandler r t
  | none => s

/-- Frees an entry of the frozen table whose threads have all exited inside the handler; the parents, emptied or not,
follow when they are next chosen (R362). -/
def freeExited (l : List Split) (i : Nat) : List Split :=
  match findSplit l i with
  | none => l
  | some x =>
    if x.st == .parent then l
    else
      let rest := l.filter fun y => y.idx != i
      if x.st == .arrived then rest else oneLess rest x.par

/-- TRET inside the handler (R361, R362): the frozen table is restored, entries emptied by exits inside the handler are
freed, and the interrupted split, if it is left, resumes at an address with a signature. DESIGN CHOICE, unsafe (log 69). -/
def Fibre.leave (f : Fibre) (z : Frozen) (pc : DWord) (sig : Word) : SplitEnd :=
  let f : Fibre := { f with frozen := none, hspill := none, splits := z.splits, fsig := z.fsig }
  if z.emptied.contains z.run then .ok { f with splits := z.emptied.foldl freeExited f.splits }
  else
    let l := fetchBack (z.emptied.foldl freeExited f.splits) z.run
    .ok { f with
      last := z.run, fsig := sig
      splits := modSplit l z.run fun (x : Split) =>
        let again := x.again && pc == x.pc
        if x.slp then { x with pc, again, sig }
        else { x with st := .running, pc, again, park := if pc = x.pc then x.park.kept else .none } }

/-! ## Translation faults at the lodge core (R359) -/

/-- What a translation fault reports: cause 16 to 18, its reason, OP, whether it is a fetch, and each faulting
thread's lowest failing address. -/
structure LodgeFault where
  cause : Nat
  reason : Nat
  op : Nat
  fetch : Bool := false
  mask : Mask
  addrs : Sparse DWord
  pc : DWord
  /-- the address reported where no thread is active (R56, R295) -/
  first : DWord := 0
  deriving DecidableEq, Repr

/-- TINFO of causes 16 to 18 (Table 20.1). -/
def LodgeFault.info (x : LodgeFault) : DWord :=
  BitVec.ofNat 64 ((if x.cause = 18 then 0 else x.reason) + 256 * x.op + (if x.fetch then 65536 else 0))

/-- The fibre freezes, an event of kind 1 is written and the slot passes (R23, R359). DESIGN CHOICE, unsafe (log 9);
DEDUCED, unsafe (log 66). -/
def State.freeze (s : State) (r : FibreRef) (x : LodgeFault) : State :=
  match s.group? r with
  | none => s
  | some g =>
    let token := s.nextToken
    let s := { s with nextToken := (token + 1) % 2 ^ 32 }
    let s := s.modFibre r fun f => { f with
      lodge := some { token, cause := x.cause, info := x.info, mask := x.mask, addrs := x.addrs, pc := x.pc }, hold := .none }
    let s := s.event (colOf g.core)
      { kind := 1, seq := r.team.seq, team := r.team.idx, addr := look x.first x.addrs (lowest x.mask)
        d0 := BitVec.ofNat 64 (r.fid + 256 * r.gid + 65536 * g.core + 2 ^ 32 * x.cause + 2 ^ 40 * x.reason)
        d1 := x.mask, d2 := BitVec.ofNat 64 token }
    s.passSlot r true

end Sys2Proof.Machine
end

