-- ==== Sys2Proof/Machine/Xlate.lean ====
section
/-!
DEFINITION. Address classes, the Sv57 walk with its faults, memory types, apertures, the device TLBs and the A and
D updates (R159, R168 to R174), and instruction fetch through the instruction cache (R56).
-/
namespace Sys2Proof.Machine

/-! ## Page table entries (Table 9.4) -/

def pteV (p : DWord) : Bool := p.getLsbD 0
def pteR (p : DWord) : Bool := p.getLsbD 1
def pteW (p : DWord) : Bool := p.getLsbD 2
def pteX (p : DWord) : Bool := p.getLsbD 3
def pteU (p : DWord) : Bool := p.getLsbD 4
def pteG (p : DWord) : Bool := p.getLsbD 5
def pteA (p : DWord) : Bool := p.getLsbD 6
def pteD (p : DWord) : Bool := p.getLsbD 7
def ptePpn (p : DWord) : Nat := fld p 53 10
def pteRap (p : DWord) : Bool := p.getLsbD 54
def pteEtp (p : DWord) : Bool := p.getLsbD 55
def pteStr (p : DWord) : Bool := p.getLsbD 56
def pteApt (p : DWord) : Nat := fld p 59 58
def ptePbmt (p : DWord) : Nat := fld p 62 61
def pteN (p : DWord) : Bool := p.getLsbD 63

/-- Memory types (Table 9.6). -/
inductive MemType where
  | normal | wc | device | strong
  deriving DecidableEq, Repr

def pteType (p : DWord) : MemType :=
  if ptePbmt p = 0 then .normal else if ptePbmt p = 1 then .wc else if pteStr p then .strong else .device

/-- What an access does, as Table 9.5 tells accesses apart. -/
inductive Use where
  | load | store | rmw | copyRead | copyWrite | fetch
  deriving DecidableEq, Repr

def Use.writes : Use → Bool
  | .store | .rmw | .copyWrite => true
  | _ => false

/-- Causes of translation faults (Table 20.1). -/
def causePage : Nat := 16
def causeAccess : Nat := 17
def causePermit : Nat := 18

/-- A translated byte: its location and the attributes of its page. -/
structure Phys where
  loc : Nat
  type : MemType
  etp : Bool
  /-- foreign package that homes it -/
  peer : Option Nat := none
  deriving DecidableEq, Repr

/-- Outcome of a translation: a byte, or cause and reason of Table 9.5. -/
inductive Xlate (α : Type) where
  | ok (x : α)
  | fault (cause reason : Nat)
  deriving DecidableEq, Repr

/-! ## The walk (R169, R172) -/

/-- A leaf, the place of its PTE and its level (0 for 4 KiB). -/
structure Leaf where
  pte : DWord
  loc : Nat
  level : Nat
  deriving DecidableEq, Repr

/-- The walk from a table at a level; a PTE that does not lie in HBM is not backed (R164). -/
def walkFrom (s : State) (va : Nat) : Nat → Nat → Xlate Leaf
  | level, table =>
    let loc := table * 4096 + 8 * ((va >>> (12 + 9 * level)) % 512)
    if !isHbm loc then .fault causeAccess 1
    else
      let p := s.wordAt loc
      let leaf := pteR p || pteX p
      if !pteV p || (pteW p && !pteR p) || (!leaf && fld p 63 54 != 0) then .fault causePage 1
      else if leaf then .ok { pte := p, loc, level }
      else
        match level with
        | 0 => .fault causePage 1
        | level + 1 => walkFrom s va level (ptePpn p)

/-- The non-leaf entries that such a walk reads: level, place and PTE. -/
def walkPath (s : State) (va : Nat) : Nat → Nat → List (Nat × Nat × DWord)
  | level, table =>
    let loc := table * 4096 + 8 * ((va >>> (12 + 9 * level)) % 512)
    let p := s.wordAt loc
    if !isHbm loc || !pteV p || pteR p || pteX p then []
    else
      match level with
      | 0 => []
      | n + 1 => (n + 1, loc, p) :: walkPath s va n (ptePpn p)

/-- The checks of Table 9.5 on a leaf, but for those on the physical address, in the model's order. DESIGN CHOICE,
unsafe (log 93). -/
def leafFault (use : Use) (l : Leaf) : Option (Nat × Nat) :=
  let p := l.pte
  let denied := match use with
    | .load | .copyRead => !pteR p
    | .store | .copyWrite => !pteW p
    | .rmw => !(pteR p && pteW p)
    | .fetch => !pteX p
  if p.getLsbD 57 || p.getLsbD 60 || ptePbmt p == 3 || (pteStr p && ptePbmt p != 2) ||
      (pteN p && ptePpn p % 16 != 8) then some (causePage, 2)
  else if pteApt p == 3 then some (causePage, 3)
  else if !pteU p || denied then some (causePage, 4)
  else if ptePpn p % 2 ^ (9 * l.level) != 0 then some (causePage, 1)
  else none

/-- Resolves the aperture of a leaf for an address (R164, R170, R399). DEDUCED, unsafe (log 63). -/
def resolveLeaf (s : State) (use : Use) (va : Nat) (l : Leaf) : Xlate Phys :=
  let p := l.pte
  let ppn := if pteN p then ptePpn p / 16 * 16 + (va >>> 12) % 16
    else ptePpn p + (va >>> 12) % 2 ^ (9 * l.level)
  let off := va % 4096
  let type := pteType p
  let own := pteApt p == 1 && ppn / 2 ^ 34 % 1024 == s.pkgid.toNat
  let remote := pteApt p == 1 && !own
  let pa := if pteApt p == 0 then ppn * 4096 + off
    else if pteApt p == 1 then ppn % 2 ^ 34 * 4096 + off
    else ppn % 2 ^ 42 * 4096 + off
  let port := ppn / 2 ^ 42 % 4
  -- Table 9.5's conditions come first, then those of the path to a peer or through a port
  let unbacked := if pteApt p == 2 then !(look false s.pciewin port) || s.pcieDown.contains port
    else remote && (!isHbm pa || !s.anyPort)
  if pteApt p != 2 && !remote && !isHbm pa then .fault causeAccess 1
  else if use == .rmw && (type != .normal || pteApt p == 2) then .fault causeAccess 2
  else if (use == .copyRead || use == .copyWrite) && (type == .device || type == .strong) then .fault causeAccess 2
  else if use == .rmw && remote && !pteRap p then .fault causePermit 0
  else if unbacked then .fault causeAccess 1
  else
    let loc := if remote then peerLoc (ppn / 2 ^ 34 % 1024) pa else if pteApt p == 2 then pcieLoc port pa else pa
    .ok { loc, type, etp := pteEtp p, peer := if remote then some (ppn / 2 ^ 34 % 1024) else none }

/-! ## TLBs (R172 to R174) -/

/-- A TLB entry covers an address for an ASID: of a non-leaf entry, the range of its table. -/
def TlbEntry.covers (e : TlbEntry) (asid va : Nat) : Bool :=
  (e.asid == asid || pteG e.pte) && va >>> e.bits == e.page

def Leaf.bits (l : Leaf) : Nat := if pteN l.pte then 16 else 12 + 9 * l.level

/-- Who translates: core, ASID and page-table root. -/
structure Space where
  core : Nat
  asid : Nat
  root : Nat
  deriving DecidableEq, Repr

/-- The translation of an address that the core's or the column's TLB holds. -/
def State.tlbFind (s : State) (w : Space) (va : Nat) : Option TlbEntry :=
  ((s.core w.core).tlb.find? fun e => e.leaf && e.covers w.asid va).orElse fun _ =>
    (s.col (colOf w.core)).tlb.find? fun e => e.leaf && e.covers w.asid va

/-- Where a walk for an address starts: level and table of the lowest non-leaf entry that the column's TLB holds for it,
else the root (R172). -/
def State.walkStart (s : State) (w : Space) (va : Nat) : Nat × Nat :=
  ((s.col (colOf w.core)).tlb.filter fun e => !e.leaf && e.covers w.asid va).foldl (fun best e =>
    let level := (e.bits - 12) / 9
    if level - 1 < best.1 then (level - 1, ptePpn e.pte) else best) (4, w.root)

/-- The walk for an address. -/
def State.walk (s : State) (w : Space) (va : Nat) : Xlate Leaf := walkFrom s va (s.walkStart w va).1 (s.walkStart w va).2

/-- Bits [63:57] equal to bit 56 (Table 9.2). -/
def canonicalVa (va : Nat) : Bool := va < 2 ^ 56 || 2 ^ 64 - 2 ^ 56 ≤ va

/-- The leaf that translates an address: a TLB entry, but one with D = 0 for a write, else a walk (R173). -/
def State.leaf (s : State) (w : Space) (use : Use) (va : Nat) : Xlate Leaf :=
  if !canonicalVa va then .fault causePage 5
  else
    match s.tlbFind w va with
    | some e =>
      if use.writes && !pteD e.pte then s.walk w va
      else .ok { pte := e.pte, loc := e.pteLoc, level := (e.bits - 12) / 9 }
    | none => s.walk w va

/-- Translates one address; nothing changes. -/
def State.xlate (s : State) (w : Space) (use : Use) (va : Nat) : Xlate Phys :=
  match s.leaf w use va with
  | .fault c r => .fault c r
  | .ok l =>
    match leafFault use l with
    | some (c, r) => .fault c r
    | none => resolveLeaf s use va l

/-- Puts a translation first in a TLB of a capacity; a full one loses the entry used least recently, of which R172 says
nothing. DESIGN CHOICE, unsafe (log 78). -/
def tlbPut (cap : Nat) (e : TlbEntry) (l : List TlbEntry) : List TlbEntry :=
  (e :: l.filter fun x => !(x.asid == e.asid && x.page == e.page && x.bits == e.bits && x.leaf == e.leaf)).take cap

/-- A walk for an address reads its PTEs through the slices, and its non-leaf entries enter the column's TLB (R172). -/
def State.keepPath (s : State) (w : Space) (va : Nat) : State :=
  let (level, table) := s.walkStart w va
  (walkPath s va level table).foldl (fun s (level, loc, pte) =>
    let bits := 12 + 9 * level
    let e : TlbEntry := { asid := w.asid, root := w.root, page := va >>> bits, bits, pte, pteLoc := loc, leaf := false }
    (s.throughSlice loc 8 false).modCol (colOf w.core) fun c => { c with tlb := tlbPut 4096 e c.tlb }) s

/-- An access uses its translation: A and D are set in the leaf at its home if it still equals the value used there,
and the TLBs hold it (R173). DEDUCED, unsafe (log 47). -/
def State.touch (s : State) (w : Space) (use : Use) (va : Nat) : State :=
  match s.leaf w use va with
  | .fault _ _ => s
  | .ok l =>
    let pte := l.pte ||| 0x40 ||| (if use.writes then 0x80 else 0)
    let s := if (s.tlbFind w va).isSome then s else (s.keepPath w va).throughSlice l.loc 8 false
    let s := if pte != l.pte && s.wordAt l.loc == l.pte then s.writeNum l.loc 8 pte.toNat else s
    let e : TlbEntry := { asid := w.asid, root := w.root, page := va >>> l.bits, bits := l.bits, pte, pteLoc := l.loc }
    let s := s.modCore w.core fun k => { k with tlb := tlbPut 128 e k.tlb }
    s.modCol (colOf w.core) fun c => { c with tlb := tlbPut 4096 e c.tlb }

/-- Drops every TLB entry that a test picks, in every core and column (R174). -/
def State.dropTlb (s : State) (p : TlbEntry → Bool) : State :=
  { s with
    cores := s.cores.map fun (i, k) => (i, { k with tlb := k.tlb.filter fun e => !p e })
    columns := s.columns.map fun (i, c) => (i, { c with tlb := c.tlb.filter fun e => !p e }) }

/-! ## Instruction fetch (R56) -/

/-- Where a core's instruction cache keeps the block of an address. -/
def blockTag (asid va : Nat) : Nat := 2 ^ 64 * asid + va / 32 * 32

/-- The block that holds an address: from the cache, else from memory with the core's own buffered stores (R196, R203). -/
def State.block (s : State) (w : Space) (va loc : Nat) : List Byte :=
  match (s.core w.core).icache.find? fun l => l.addr == blockTag w.asid va with
  | some l => l.bytes
  | none => s.overlay w.core (loc / 32 * 32) (s.bytesAt (loc / 32 * 32) 32)

/-- Keeps a fetched block. -/
def State.keepBlock (s : State) (w : Space) (va loc : Nat) : State :=
  let tag := blockTag w.asid va
  if (s.core w.core).icache.any fun l => l.addr == tag then s
  else (s.throughSlice (loc / 32 * 32) 32 false).modCore w.core fun k =>
    { k with icache := { addr := tag, bytes := s.block w va loc } :: k.icache }

/-- The word at an address and the state with its translation used, or the fault (R56). -/
def State.fetchWord (s : State) (w : Space) (va : Nat) : Xlate (Word × State) :=
  match s.xlate w .fetch va with
  | .fault c r => .fault c r
  | .ok p =>
    let b := s.block w va p.loc
    let s := (s.touch w .fetch va).keepBlock w va p.loc
    .ok (BitVec.ofNat 32 (natLE ((b.drop (va % 32)).take 4)), s)

/-- n words from an address, the first lowest. -/
def State.fetchWords (s : State) (w : Space) (va : Nat) : Nat → Xlate (List Word × State)
  | 0 => .ok ([], s)
  | n + 1 =>
    match s.fetchWord w va with
    | .fault c r => .fault c r
    | .ok (x, s) =>
      match s.fetchWords w ((va + 4) % 2 ^ 64) n with
      | .fault c r => .fault c r
      | .ok (xs, s) => .ok (x :: xs, s)

/-- Words of an instruction by LEN (Table 3.1). -/
def wordCount (x : Word) : Nat :=
  match fld x 1 0 with
  | 0 => 1
  | 3 => 5
  | _ => 3

/-- The bits of words, the first lowest. -/
def joinWords : List Word → Nat
  | [] => 0
  | x :: rest => x.toNat + 2 ^ 32 * joinWords rest

/-- Fetches the instruction at an address: its bits, its words and the state after the fetch. -/
def State.fetch (s : State) (w : Space) (va : Nat) : Xlate (BitVec 160 × State) :=
  match s.fetchWord w va with
  | .fault c r => .fault c r
  | .ok (x, s) =>
    match s.fetchWords w ((va + 4) % 2 ^ 64) (wordCount x - 1) with
    | .fault c r => .fault c r
    | .ok (xs, s) => .ok (BitVec.ofNat 160 (joinWords (x :: xs)), s)

end Sys2Proof.Machine
end

