-- ==== Sys2Proof/Machine/Access.lean ====
section
/-!
DEFINITION. Accesses of a fibre to generic addresses and to scratchpad: the checks of R209 in the order of R356,
loads through L1 and the write-combining buffer, stores, read-modify-writes at the home, poison (R179), and
the effect of releases and acquires on the core's buffers (R167, R196).
-/
namespace Sys2Proof.Machine

/-- What an instruction knows when it issues. -/
structure Ctx where
  r : FibreRef
  core : Nat
  asid : Nat
  root : Nat
  k : Kernel
  g : Group
  f : Fibre
  /-- the running split -/
  x : Split
  op : Nat
  w : Fields
  /-- first word -/
  word : Word
  pc : DWord
  /-- participants: active threads that are not guarded off (R146) -/
  parts : Mask
  deriving DecidableEq, Repr

def Ctx.col (c : Ctx) : Nat := colOf c.core
def Ctx.space (c : Ctx) : Space := { core := c.core, asid := c.asid, root := c.root }
/-- Active threads of the running split. -/
def Ctx.act (c : Ctx) : Mask := c.x.mask

/-- Why an instruction has no effect: a trap at the fibre, a translation fault for the lodge core, or an error of
the team (causes 24 to 26). -/
inductive Stop where
  | trap (cause : Nat) (info : DWord) (mask : Mask) (addrs : Sparse DWord)
  | lodge (cause reason : Nat) (mask : Mask) (addrs : Sparse DWord)
  | team (cause : Nat)
  deriving DecidableEq, Repr

/-! ## Addresses -/

/-- First address of the scratchpad window (Table 9.2). -/
def windowBase : Nat := 0x7E00000000000000
def windowBytes : Nat := 2 ^ 20

/-- The team offset of a window address. -/
def windowOff (va : Nat) : Option Nat :=
  if windowBase ≤ va ∧ va < windowBase + windowBytes then some (va - windowBase) else none

/-- One thread's access: thread, address, and the team offset where it goes to scratchpad. -/
structure Req where
  t : Nat
  va : Nat
  off : Option Nat
  /-- of LDS or STS, whose bytes all have team offsets (R206) -/
  byTeam : Bool := false
  deriving DecidableEq, Repr

/-- A generic address. -/
def Req.generic (t : Nat) (va : DWord) : Req := { t, va := va.toNat, off := windowOff va.toNat }
/-- A team offset (R206); its address is that of the window. -/
def Req.team (t : Nat) (off : Nat) : Req := { t, va := (windowBase + off) % 2 ^ 64, off := some off, byTeam := true }

/-- Where a run of bytes lies. -/
inductive Home where
  | mem (va : Nat) (p : Phys)
  | scratch (off : Nat)
  deriving DecidableEq, Repr

/-- A run of an access within one page: position in the access, bytes, home. -/
structure Span where
  pos : Nat
  len : Nat
  home : Home
  deriving DecidableEq, Repr

/-- Splits n bytes from an address at page boundaries: position, address, bytes. -/
def pageRuns (va n : Nat) : List (Nat × Nat × Nat) :=
  let k := min n (4096 - va % 4096)
  if n = 0 then [] else if k = n then [(0, va, n)] else [(0, va, k), (k, (va + k) % 2 ^ 64, n - k)]

/-! ## Checks (R209 step 2, R356) -/

/-- Mask and addresses of the threads of some accesses. -/
def blame (l : List Req) : Mask × Sparse DWord :=
  (maskOf fun t => l.any fun q => q.t == t, l.map fun q => (q.t, BitVec.ofNat 64 q.va))

/-- Misaligned access (R208, R344). DEDUCED, unsafe (log 25). -/
def misalignedTrap (op size : Nat) (l : List Req) : Stop :=
  let (m, a) := blame l
  .trap 3 (BitVec.ofNat 64 (op + 256 * size)) m a

/-- Cause 9 (Table 20.1): kind, position, first failing index, scratchpad offset. -/
def misuseInfo (kind pos idx : Nat) (off : Nat := 0) : DWord :=
  BitVec.ofNat 64 (kind + 16 * pos + 256 * (idx % 2 ^ 24) + 2 ^ 32 * (off % 2 ^ 20))

/-- Scratchpad misuse by some accesses (R161); the offset is that of the lowest thread. DEDUCED, unsafe (log 28). -/
def scratchTrap (l : List Req) : Stop :=
  let (m, a) := blame l
  .trap 9 (misuseInfo 2 8 0 (((l.head?).bind (·.off)).getD 0)) m a

/-- Bytes of an access at an offset that lie in the window; all of one that names a team offset. -/
def Req.inWindow (q : Req) (off n : Nat) : Nat := if q.byTeam then n else min n (windowBytes - off)

/-- Some byte of the access takes the misuse row of Table 9.3; `counter` adds offsets 0x10 to 0x3F. -/
def scratchBad (size : Nat) (counter : Bool) (n : Nat) (q : Req) : Bool :=
  match q.off with
  | some o => size < o + q.inWindow o n || (counter && 0x10 ≤ o && o < 0x40)
  | none => false

/-- The homes of an access, or its first failing address with cause and reason. -/
def State.locate (s : State) (w : Space) (use : Use) (n : Nat) (q : Req) : Except (Nat × Nat × Nat) (List Span) :=
  let direct := match q.off with
    | some o => q.inWindow o n
    | none => 0
  let first : List Span := match q.off with
    | some o => if direct = 0 then [] else [{ pos := 0, len := direct, home := .scratch o }]
    | none => []
  (pageRuns ((q.va + direct) % 2 ^ 64) (n - direct)).foldl (fun acc (pos, va, len) =>
    match acc with
    | .error e => .error e
    | .ok l =>
      match windowOff va with
      | some o => .ok (l ++ [{ pos := direct + pos, len, home := .scratch o }])
      | none =>
        match s.xlate w use va with
        | .fault c r => .error (c, r, va)
        | .ok p => .ok (l ++ [{ pos := direct + pos, len, home := .mem va p }])) (.ok first)

/-- Accesses with their homes. -/
abbrev Located := List (Req × List Span)

/-- Translates every access; the faults of some threads stop all (R209). Where they differ, cause and reason are those of the
lowest thread and the mask names every thread that faults, of which R209 says nothing. DESIGN CHOICE, unsafe (log 77). -/
def State.locateAll (s : State) (w : Space) (use : Use) (n : Nat) (l : List Req) : Except Stop Located :=
  let r := l.map fun q => (q, s.locate w use n q)
  let bad := r.filterMap fun (q, e) => match e with
    | .error e => some (q, e)
    | .ok _ => none
  match bad with
  | (_, c, rs, _) :: _ =>
    .error (.lodge c rs (maskOf fun t => bad.any fun b => b.1.t == t)
      (bad.map fun (q, _, _, va) => (q.t, BitVec.ofNat 64 va)))
  | [] => .ok (r.map fun (q, e) => (q, match e with
      | .ok l => l
      | .error _ => []))

/-- A run lies on a DEVICE or STRONG page (R171). -/
def Span.ordered (p : Span) : Bool :=
  match p.home with
  | .mem _ q => q.type == .device || q.type == .strong
  | .scratch _ => false

def Span.strong (p : Span) : Bool :=
  match p.home with
  | .mem _ q => q.type == .strong
  | .scratch _ => false

/-- Checks plain accesses of n bytes with size code `size`. -/
def State.checkPlain (s : State) (c : Ctx) (use : Use) (n size : Nat) (l : List Req) : Except Stop Located :=
  let bad := l.filter (scratchBad c.k.scratchBytes false n)
  if !bad.isEmpty then .error (scratchTrap bad)
  else
    match s.locateAll c.space use n l with
    | .error e => .error e
    | .ok r =>
      let bad := (r.filter fun (q, ps) => ps.any Span.ordered && (8 < n || q.va % n != 0)).map (·.1)
      if !bad.isEmpty then .error (misalignedTrap c.op size bad) else .ok r

/-- The traps of aligned accesses of n bytes that need no translation; a counter operation may not touch offsets
0x10 to 0x3F. -/
def alignStop (c : Ctx) (counter : Bool) (n size : Nat) (l : List Req) : Option Stop :=
  let mis := l.filter fun q => q.va % n != 0
  let bad := l.filter (scratchBad c.k.scratchBytes counter n)
  if !mis.isEmpty then some (misalignedTrap c.op size mis)
  else if !bad.isEmpty then some (scratchTrap bad) else none

/-- Checks aligned accesses of n bytes. -/
def State.checkAligned (s : State) (c : Ctx) (use : Use) (n size : Nat) (l : List Req) : Except Stop Located :=
  match alignStop c false n size l with
  | some e => .error e
  | none => s.locateAll c.space use n l

/-- A trap or fault of a U = 1 instruction concerns the running split's threads (R357). -/
def Stop.uniform (act : Mask) : Stop → Stop
  | .trap c i _ a => .trap c i act ((threads act).filterMap fun t => (a.head?).map fun x => (t, x.2))
  | .lodge c r _ a =>
    .lodge c r act (if act == 0 then a.take 1 else (threads act).filterMap fun t => (a.head?).map fun x => (t, x.2))
  | .team c => .team c

/-- A scope value names an unavailable scope-table entry (R183). -/
def State.scopeMissing (s : State) (scope : Nat) : Bool := 5 ≤ scope && !(look {} s.scopes (scope - 5)).valid

/-- The trap of an unavailable scope. -/
def scopeTrap (scope : Nat) (mask : Mask) : Stop := .trap 11 (BitVec.ofNat 64 scope) mask []

/-! ## Poison and marked units (R179, R375) -/

/-- A line that L1 holds (R167). -/
def State.l1Find (s : State) (core loc : Nat) : Option CacheLine := (s.core core).l1.find? fun l => l.addr == lineOf loc

/-- Poisoned sectors that a read of n bytes meets; a load of core `l1` reads held lines, with the marks they were fetched
with, from its L1. DEDUCED, unsafe (log 23). -/
def State.poisonMet (s : State) (l1 : Option Nat) (q : Phys) (n : Nat) : List Nat :=
  (sectorsOf q.loc n).filter fun x =>
    match l1.bind fun core => if q.type == .normal then s.l1Find core (32 * x) else none with
    | some l => l.bad.contains x
    | none => s.poison.contains x

/-- A read of these runs finds a poisoned sector that is consumed, or a marked scratchpad line. -/
def State.consumes (s : State) (l1 : Option Nat) (r : TeamRef) (etpCounts : Bool) (ps : List Span) : Bool :=
  ps.any fun p => match p.home with
    | .mem _ q => (etpCounts || !q.etp) && !(s.poisonMet l1 q p.len).isEmpty
    | .scratch o => ((s.team? r).map fun t => t.marked.any fun u => match u with
        | .line l => l < o + p.len && o < l + 128
        | _ => false).getD false

/-- Sectors that these runs read as zeros under ETP = 1. -/
def State.substituted (s : State) (l1 : Option Nat) (ps : List Span) : List Nat :=
  ps.flatMap fun p => match p.home with
    | .mem _ q => if q.etp then s.poisonMet l1 q p.len else []
    | .scratch _ => []

/-- Bytes with those of poisoned sectors zeroed. -/
def State.cleaned (s : State) (loc : Nat) (bs : List Byte) : List Byte :=
  if s.poison.isEmpty then bs
  else bs.zipIdx.map fun (b, i) => if s.poison.contains ((loc + i) / 32) then 0 else b

/-! ## The copy engine's pending lines (R163) -/

/-- A piece lies in scratchpad line `line`. -/
def pieceIn (line : Nat) (p : Piece) : Bool :=
  match p.place with
  | .scratch o => o / 128 * 128 == line
  | _ => false

/-- Writes a piece into scratchpad. -/
def State.putScratch (s : State) (r : TeamRef) (p : Piece) (old : Bool) : State :=
  match p.place, s.team? r with
  | .scratch o, some t => s.writeScratch r o (mergeBytes (lookAll 0 t.scratch o p.bytes.length) p.bytes p.mask) old
  | _, _ => s

/-- The scratchpad line that a request is writing: that of its first scratchpad piece. -/
def CopyReq.openLine (q : CopyReq) : Option Nat :=
  q.pieces.findSome? fun p => match p.place with
    | .scratch o => some (o / 128 * 128)
    | _ => none

/-- A piece that the copy engine may write to a scratchpad of a size (R161). -/
def Piece.inScratch (size : Nat) (p : Piece) : Bool :=
  match p.place with
  | .scratch o => 0x40 ≤ o && o + p.bytes.length ≤ size
  | _ => false

/-- A request of a team completes its pieces of the line that it is writing; one that Table 9.3 bars stays, to fault when
the request goes on (R161). -/
def State.settleReq (s : State) (core line : Nat) (q : CopyReq) : State :=
  if q.openLine == some line then
    let size := ((s.kernel? q.team.seq).map (·.scratchBytes)).getD 0
    let mine (p : Piece) : Bool := pieceIn line p && p.inScratch size
    let s := (q.pieces.filter mine).foldl (fun s p => s.putScratch q.team p q.old) s
    let cut (x : CopyReq) : CopyReq := if x.idx == q.idx then { x with pieces := x.pieces.filter fun p => !mine p } else x
    s.modCore core fun k => { k with reqs := k.reqs.map cut }
  else s

/-- Completes the copies' writes of a pending line, so that an access to it can be performed. -/
def State.settleLine (s : State) (r : TeamRef) (line : Nat) : State :=
  match s.team? r with
  | none => s
  | some t =>
    if !t.pendingLines.contains line then s
    else
      let s := s.cores.foldl (fun s (i, k) =>
        (k.reqs.filter fun q => q.team == r).foldl (fun s q => s.settleReq i line q) s) s
      s.modTeam r fun t => { t with pendingLines := t.pendingLines.filter (· != line) }

/-- The lines that bytes from an offset touch. -/
def linesOf (o n : Nat) : List Nat :=
  if n = 0 then [] else (List.range ((o + n - 1) / 128 - o / 128 + 1)).map fun i => (o / 128 + i) * 128

/-- Every pending line among bytes of scratchpad is completed. -/
def State.settleLines (s : State) (r : TeamRef) (o n : Nat) : State := (linesOf o n).foldl (fun s l => s.settleLine r l) s

/-- Scratchpad bytes as the team's program reads them: zero at 0x10 to 0x3F (R161). -/
def State.scratchRead (s : State) (r : TeamRef) (o n : Nat) : List Byte :=
  match s.team? r with
  | none => List.replicate n 0
  | some t => (List.range n).map fun i => if 0x10 ≤ o + i ∧ o + i < 0x40 then 0 else byteAt t.scratch (o + i)

/-- A program's store to scratchpad: bytes at 0x10 to 0x3F are dropped (R161). -/
def State.scratchStore (s : State) (r : TeamRef) (o : Nat) (bs : List Byte) : State :=
  let s := s.settleLines r o bs.length
  let low := bs.take (0x10 - o)
  let high := bs.drop (0x40 - o)
  let s := if low.isEmpty then s else s.writeScratch r o low
  if high.isEmpty then s else s.writeScratch r (max o 0x40) high

/-! ## L1 and the write-combining buffer (R167, R196, R269) -/

/-- Lines of 128 bytes in 256 KiB. -/
def l1Lines : Nat := 2048

/-- The line that a full L1 replaces: of stream lines, else of lines without a hint, else of keep lines, the one filled
earliest, of which R167 says nothing. DESIGN CHOICE, unsafe (log 76). -/
def l1Victim (l : List CacheLine) : Option CacheLine :=
  let last (h : Nat) : Option CacheLine := (l.filter fun x => x.hint == h).getLast?
  ((last 1).or (last 0)).or (last 2)

/-- Puts a line into L1 with its replacement treatment; its sectors keep their marks (R167, R179). -/
def State.l1Fill (s : State) (core hint loc : Nat) : State :=
  let a := lineOf loc
  (s.throughSlice a 128 false).modCore core fun k =>
    let old := k.l1.filter fun l => l.addr != a
    let old := if old.length < l1Lines then old else
      match l1Victim old with
      | some v => old.erase v
      | none => old
    { k with l1 := { addr := a, bytes := s.bytesAt a 128, hint, bad := s.poisoned a 128 } :: old }

/-- Bytes of a held line, those of its poisoned sectors as zeros. -/
def CacheLine.read (l : CacheLine) (a n : Nat) : List Byte :=
  ((l.bytes.drop (a % 128)).take n).zipIdx.map fun (b, i) => if l.bad.contains ((a + i) / 32) then 0 else b

/-- Drops a line from L1. -/
def State.l1Drop (s : State) (core loc : Nat) : State :=
  s.modCore core fun k => { k with l1 := k.l1.filter fun l => l.addr != lineOf loc }

/-- An acquire at a scope empties L1 from team scope up (R167). -/
def State.acquire (s : State) (core scope : Nat) : State :=
  if 2 ≤ scope then s.modCore core fun k => { k with l1 := [] } else s

/-- A store to a peer's NORMAL or WC page, or a WC store, enters the buffer (R171, R196); its bytes lie within one line. A
full buffer first loses its earliest line (R269); a line that becomes full drains the buffer wholly (R196). That local WC
stores combine in the same buffer is the model's. DEDUCED, unsafe (log 22). -/
def State.buffer (s : State) (core : Nat) (r : TeamRef) (id loc : Nat) (bs : List Byte) : State :=
  let a := lineOf loc
  let k := s.core core
  let put (s : State) : State :=
    match (s.core core).wcb.find? fun l => l.loc == a with
    | some _ => s.modCore core fun k => { k with wcb := k.wcb.map fun l => if l.loc == a then l.merge r id (loc - a) bs else l }
    | none => s.modCore core fun k =>
        let l : WcLine := { loc := a, entered := s.tick, age := (k.wcage.toNat + 1) * 1000 }
        { k with wcb := k.wcb ++ [l.merge r id (loc - a) bs] }
  let full := k.wcb.length ≥ 64 && !(k.wcb.any fun l => l.loc == a)
  let s := if full then
      match k.wcb with
      | l :: _ => s.drainLine core l
      | [] => s
    else s
  let s := put s
  match (s.core core).wcb.find? fun l => l.loc == a with
  | some l => if l.bytes.length = 128 then s.drain core else s
  | none => s

/-! ## Performing an access (R209 step 3) -/

/-- A run cut at 128-byte lines: location or offset, bytes. -/
def lineRuns (a n : Nat) : List (Nat × Nat) :=
  let k := min n (128 - a % 128)
  if n = 0 then [] else if k = n then [(a, n)] else [(a, k), (a + k, n - k)]

/-- A load from a run of memory: NORMAL local lines come from L1, which a miss fills unless `hint` is 3; any other page is
read at the home, and a line of it that an alias put into L1 is dropped, so that no later load goes back (R167, R171,
R185). The core's own buffered stores lie over what is read. -/
def State.loadMem (s : State) (core : Nat) (hint : Nat) (p : Phys) (n : Nat) : List Byte × State :=
  let cached := p.type == .normal && isLocal p.loc
  let (bs, s) := (lineRuns p.loc n).foldl (fun (acc, s) (a, k) =>
    match (if cached then s.l1Find core a else none) with
    | some l => (acc ++ l.read a k, s)
    | none =>
      let s := s.throughSlice a k false
      (acc ++ s.cleaned a (s.bytesAt a k),
        if !cached then s.l1Drop core a else if hint != 3 then s.l1Fill core hint a else s)) (([] : List Byte), s)
  (s.overlay core p.loc bs, s)

/-- A load of one thread. DEDUCED, unsafe (log 65). -/
def State.loadSpans (s : State) (c : Ctx) (hint : Nat) (ps : List Span) : List Byte × State :=
  ps.foldl (fun (acc, s) p =>
    match p.home with
    | .mem va q =>
      let s := s.touch c.space .load va
      let s := if q.type == .strong then s.acquire c.core 4 else s
      let (bs, s) := s.loadMem c.core hint q p.len
      (acc ++ bs, s)
    | .scratch o =>
      let s := s.settleLines c.r.team o p.len
      (acc ++ s.scratchRead c.r.team o p.len, s)) ([], s)

/-- A release by a fibre; one at a peer's home follows its earlier remote stores whatever its scope (R196). -/
def State.releaseFor (s : State) (c : Ctx) (remote : Bool) (scope : Nat) : State :=
  if remote then s.drainHome c.core else s.release c.core c.k.pair scope

/-- Such a release waits for acknowledgements (R196, R220). -/
def State.releaseWaits (s : State) (c : Ctx) (remote : Bool) (scope : Nat) : Bool :=
  (remote && !s.acked c.core) || s.unreleased c.core c.k.pair scope

/-- A store's place combines: a WC page, or a peer's NORMAL page (R171, R196, R212). -/
def Phys.combines (p : Phys) : Bool := p.type == .wc || (p.type == .normal && p.peer.isSome)

/-- A store to a peer that does not combine is sent at once, behind the core's other stores to its line (R185, R196,
R401). -/
def State.sendNow (s : State) (core : Nat) (r : TeamRef) (id loc : Nat) (bs : List Byte) : State :=
  let a := lineOf loc
  let l : WcLine := { loc := a, entered := s.tick, age := 0 }
  ((s.drainAt core loc).drainLine core (l.merge r id (loc - a) bs)).landAll core

/-- A store, numbered `id`, to a run of memory; one that does not combine follows the core's buffered stores to its lines
(R185, R212). -/
def State.storeMem (s : State) (c : Ctx) (id : Nat) (p : Phys) (bs : List Byte) : State :=
  (lineRuns p.loc bs.length).foldl (fun s (a, k) =>
    let part := (bs.drop (a - p.loc)).take k
    if p.combines then (s.l1Update c.core a part).buffer c.core c.r.team id a part
    else if p.peer.isSome then s.sendNow c.core c.r.team id a part
    else ((s.drainAt c.core a).l1Update c.core a part).writeLoc a part) s

/-- A store of one thread, which takes a number of its own. DEDUCED, unsafe (log 65). -/
def State.storeSpans (s : State) (c : Ctx) (ps : List Span) (bs : List Byte) : State :=
  let id := s.nextId
  ps.foldl (fun s p =>
    let part := (bs.drop p.pos).take p.len
    match p.home with
    | .mem va q =>
      let s := s.touch c.space .store va
      let s := if q.type == .strong then s.acquire c.core 4 else s
      s.storeMem c id q part
    | .scratch o => s.scratchStore c.r.team o part) { s with nextId := id + 1 }

/-- The home of an aligned access, which never spans two pages. -/
def homeOf (ps : List Span) : Home :=
  match ps with
  | p :: _ => p.home
  | [] => .scratch 0x10

/-- The value at a home, never from L1 (R218, R348). -/
def State.homeRead (s : State) (r : TeamRef) (h : Home) (n : Nat) : Nat :=
  match h with
  | .mem _ p => numAt s.mem p.loc n
  | .scratch o => natLE (s.scratchRead r o n)

/-- A read-modify-write reaches its home: it waits for pending lines, sets A and D, drops the core's L1 copy and follows the
core's buffered stores to its line (R163, R173, R185, R219). -/
def State.homeOpen (s : State) (c : Ctx) (use : Use) (h : Home) (n : Nat) : State :=
  match h with
  | .mem va p => (((s.touch c.space use va).l1Drop c.core p.loc).drainAt c.core p.loc).throughSlice p.loc n false
  | .scratch o => s.settleLines c.r.team o n

/-- Writes a value at a home. -/
def State.homeWrite (s : State) (r : TeamRef) (h : Home) (n v : Nat) : State :=
  match h with
  | .mem _ p => s.writeNum p.loc n v
  | .scratch o => s.scratchStore r o (bytesLE v n)

/-- The foreign package that homes an access. -/
def Home.peer : Home → Option Nat
  | .mem _ p => p.peer
  | .scratch _ => none

/-- The counter that a memory-kind operation names. -/
def Home.counter (h : Home) (r : TeamRef) : CounterRef :=
  match h with
  | .mem _ p => .mem p.loc
  | .scratch o => .scratch r o

/-- Some access goes to another package. -/
def anyRemote (l : Located) : Bool := l.any fun (_, ps) => ps.any fun p => p.home.peer.isSome

/-- Sectors that the accesses of a store's threads to local pages cover together: each line is accessed once for them all
(R179, R209). -/
def coveredSectors (l : Located) : List Nat :=
  let runs : List (Nat × Nat) := l.flatMap fun (_, ps) => ps.filterMap fun p => match p.home with
    | .mem _ q => if p.ordered || q.combines then none else some (q.loc, p.len)
    | .scratch _ => none
  ((runs.flatMap fun (a, n) => sectorsOf a n).eraseDups).filter fun x =>
    (List.range 32).all fun i => runs.any fun (a, n) => a ≤ 32 * x + i && 32 * x + i < a + n

/-- Sectors written whole lose their marks, in a core's L1 too. -/
def State.clearMarks (s : State) (core : Nat) (xs : List Nat) : State :=
  ({ s with poison := s.poison.filter fun x => !xs.contains x } : State).modCore core fun k =>
    { k with l1 := k.l1.map fun l => { l with bad := l.bad.filter fun x => !xs.contains x } }

/-- Peer locations that accesses go to, one for each run of an access, with whether they change memory (R400). -/
def remotePlaces (l : Located) (changes : Bool) : List (Nat × Bool) :=
  l.flatMap fun (_, ps) => ps.filterMap fun p => match p.home with
    | .mem _ q => if q.peer.isSome then some (q.loc, changes) else none
    | .scratch _ => none

/-- What a load of peers' bytes, or a read of their counters, needs to be issued again (R401). -/
def State.reloadOf (s : State) (c : Ctx) (l : Located) (thr : Sparse DWord := []) : Option Reload :=
  if !anyRemote l then none
  else
    let runs := l.map fun (q, ps) => (q.t, ps.filterMap fun p => match p.home with
      | .mem _ q => some (q.loc, p.len)
      | .scratch _ => none)
    let own := runs.foldl (fun m x => x.2.foldl (fun m (a, n) =>
      (List.range n).foldl (fun m i => put none m (a + i) ((s.core c.core).ownByte (a + i))) m) m) []
    some { op := c.op, w := c.w, runs, own, thr }

/-- Some access goes to a STRONG page: it comes after every earlier access of the thread (R171, R191). -/
def anyStrong (l : Located) : Bool := l.any fun (_, ps) => ps.any Span.strong

end Sys2Proof.Machine
end

