-- ==== Sys2Proof/Machine/Engine.lean ====
section
/-!
DEFINITION. Operand slots, accumulator regions and the matrix engine: claim states, rectangles, tile layouts, the
queue and its occupancies, and the arithmetic of MMA, ASA, AZERO and ARED (R107 to R109, R225 to R250).
-/
namespace Sys2Proof.Machine

/-! ## Claim states (Table 12.1, R242) -/

/-- Item n lies in the range of a claim instruction. -/
def Release.has (r : Release) (region : Bool) (n : Nat) : Bool := r.region == region && r.first ≤ n && n < r.first + r.count

/-- Item n lies in a range that a TREL or AREL waits to release. -/
def Team.releasing (t : Team) (region : Bool) (n : Nat) : Bool := t.releases.any fun r => !r.freed && r.has region n

/-- A backed tile that is claimed, releasing or not: a fill that was accepted before its release still writes it (Table
12.1). -/
def Team.tileHeld (t : Team) (k : Kernel) (n : Nat) : Bool := n < k.slots && t.tiles.contains n

/-- A claimed tile that is not releasing. -/
def Team.tileOk (t : Team) (k : Kernel) (n : Nat) : Bool := n < k.slots && t.tiles.contains n && !t.releasing false n

/-- The tag of a region; none where it is unclaimed. -/
def Team.tag? (t : Team) (n : Nat) : Option Tag := t.regions.lookup n

/-- The tag of a backed, claimed region that is not releasing. -/
def Team.regionOk (t : Team) (k : Kernel) (n : Nat) : Option Tag :=
  if n < k.regions && !t.releasing true n then t.tag? n else none

/-- Slot or region misuse (R241). -/
def misuse (kind pos idx : Nat) : Stop := .trap 9 (misuseInfo kind pos idx) 0 []

/-! ## Rectangles (R230) -/

/-- A rectangle of cells. -/
structure Rect where
  r0 : Nat
  c0 : Nat
  rows : Nat
  cols : Nat
  deriving DecidableEq, Repr

def Rect.has (x : Rect) (i j : Nat) : Bool := x.r0 ≤ i && i < x.r0 + x.rows && x.c0 ≤ j && j < x.c0 + x.cols

def Rect.overlaps (x y : Rect) : Bool :=
  x.r0 < y.r0 + y.rows && y.r0 < x.r0 + x.rows && x.c0 < y.c0 + y.cols && y.c0 < x.c0 + x.cols

/-- Origin of aN(row0, col0). -/
def rectAt (reg row0 col0 rows cols : Nat) : Rect :=
  { r0 := 64 * (reg / 4) + row0, c0 := 64 * (reg % 4) + col0, rows, cols }

/-- Regions that a rectangle touches, in row-major order. -/
def Rect.regions (x : Rect) : List Nat :=
  (List.range 4).flatMap fun i => (List.range 4).filterMap fun j =>
    if x.overlaps { r0 := 64 * i, c0 := 64 * j, rows := 64, cols := 64 } then some (4 * i + j) else none

/-- A region as a rectangle. -/
def regionRect (n : Nat) : Rect := rectAt n 0 0 64 64

/-- Checks a rectangle at operand position `pos`: `cols` gives its cells a row by the tag of its named region; `need`
are the tags allowed, `even` asks for an even col0. DEDUCED, unsafe (log 28). -/
def Team.checkRect (t : Team) (k : Kernel) (pos reg row0 col0 rows : Nat) (cols : Tag → Nat) (need : List Tag)
    (even : Bool) : Except Stop (Rect × Tag) :=
  match t.regionOk k reg with
  | none => .error (misuse 1 pos reg)
  | some tag =>
    let x := rectAt reg row0 col0 rows (cols tag)
    if !need.contains tag || 256 < x.r0 + x.rows || 256 < x.c0 + x.cols then .error (misuse 1 pos reg)
    else
      match x.regions.find? fun n => t.regionOk k n != some tag with
      | some n => .error (misuse 1 pos n)
      | none => if (even || tag == .fp64) && x.c0 % 2 == 1 then .error (misuse 1 pos reg) else .ok (x, tag)

/-! ## Formats and shapes (Tables 3.7, 5.7 and 12.2) -/

/-- A stored element of an operand tile. -/
inductive Elem where
  | float (f : Fmt) (bits : Nat)
  | block (code : Nat)
  | int (signed : Bool) (bits : Nat)
  | bit
  /-- two components of a format -/
  | complex (f : Fmt) (bits : Nat)
  deriving DecidableEq, Repr

/-- Element of a format code of an MMA opcode. -/
def mmaElem (op code : Nat) : Elem :=
  match op with
  | 0xF4 => .float fp64 64
  | 0xF5 => if code = 0 then .float fp32 32 else .float e8m10 32
  | 0xF6 => if code = 0 then .float bf16 16 else .float fp16 16
  | 0xF7 => if code = 0 then .float e4m3 8 else .float e5m2 8
  | 0xF8 => .block (15 + code)
  | 0xF9 =>
    match code with
    | 0 => .int true 16 | 1 => .int true 8 | 2 => .int false 8 | 3 => .int true 4 | 4 => .int false 4
    | 5 => .int true 2 | _ => .bit
  | _ => if code = 0 then .complex fp64 64 else if code = 1 then .complex fp32 32 else .complex fp16 16

/-- M, N and K. -/
def mmaShape (op fa fb : Nat) : Nat × Nat × Nat :=
  match op with
  | 0xF4 => (32, 32, 32)
  | 0xF5 => if fa = 0 then (64, 64, 16) else (64, 64, 32)
  | 0xF6 => (64, 64, 64)
  | 0xF7 => (64, 64, 128)
  | 0xF8 => if fa = 2 && fb = 2 then (64, 64, 256) else (64, 64, 128)
  | 0xF9 => (64, 64, if fa = 0 then 32 else if fa ≤ 2 then 128 else if fa ≤ 4 then 256 else 512)
  | _ => if fa = 0 then (16, 16, 32) else if fa = 1 then (32, 32, 16) else (64, 32, 32)

/-- Accumulator tag. -/
def mmaTag (op fa : Nat) : Tag :=
  match op with
  | 0xF4 => .fp64
  | 0xF9 => .int32
  | 0xFA => if fa = 0 then .fp64 else .fp32
  | _ => .fp32

/-- Cells a row of the output rectangle. -/
def mmaCols : Nat := 64

/-- Products summed before a rounding. -/
def mmaGroup (op fa : Nat) : Nat :=
  match op with
  | 0xF4 => 4
  | 0xF7 | 0xF8 => 32
  | 0xFA => if fa = 0 then 4 else 16
  | _ => 16

/-- A format code of M of an MMA. -/
def mmaA (w : Fields) : Nat := fld w.m 5 3
def mmaB (w : Fields) : Nat := w.m.toNat % 8

/-! ## Rectangles of an operation (Tables 13.1 to 13.3) -/

def row0Of (w : Fields) : Nat := fld w.x 5 0
def col0Of (w : Fields) : Nat := fld w.x 11 6
def row1Of (w : Fields) : Nat := fld w.x 17 12
def col1Of (w : Fields) : Nat := fld w.x 23 18

/-- Extent codes (Table 13.3). -/
def extent (n : Nat) : Nat := if n = 0 then 64 else if n = 1 then 32 else 16
def rowsOf (w : Fields) : Nat := extent (fld w.f 1 0)
def elsOf (w : Fields) : Nat := extent (fld w.f 3 2)

/-- Cells of an element under a tag. -/
def Tag.width : Tag → Nat
  | .fp64 => 2
  | _ => 1

/-- The tag of a claimed region, FP32 where it is none. -/
def Team.tagOr (t : Team) (n : Nat) : Tag := (t.tag? n).getD .fp32

/-- Regions first to first + count − 1 as rectangles. -/
def rangeRects (first count : Nat) : List Rect := (List.range count).map fun i => regionRect (first + i)

/-- Rectangles that a queued operation writes. -/
def opWrites (t : Team) (op : Nat) (w : Fields) : List Rect :=
  let d := w.d.toNat
  match op with
  | 0xFB =>
    rectAt d (row0Of w) (col0Of w) (rowsOf w) (elsOf w * (t.tagOr d).width) ::
      (if w.m.getLsbD 0 then [rectAt w.a.toNat (row1Of w) (col1Of w) (rowsOf w) (elsOf w)] else [])
  | 0xFC => rangeRects d (w.f.toNat + 1)
  | 0xFF => [rectAt d (row0Of w) (col0Of w) (rowsOf w) (t.tagOr d).width]
  | _ => [rectAt d (row0Of w) (col0Of w) (mmaShape op (mmaA w) (mmaB w)).1 mmaCols]

/-- Rectangles that it reads or writes. -/
def opTouches (t : Team) (op : Nat) (w : Fields) : List Rect :=
  let src := w.a.toNat
  match op with
  | 0xFB => opWrites t op w ++ [rectAt src (row1Of w) (col1Of w) (rowsOf w) (elsOf w)]
  | 0xFF => opWrites t op w ++ [rectAt src (row1Of w) (col1Of w) (rowsOf w) (elsOf w * (t.tagOr src).width)]
  | _ => opWrites t op w

/-- Slots that it reads. -/
def opTiles (op : Nat) (w : Fields) : List Nat :=
  if 0xF4 ≤ op ∧ op ≤ 0xFA then [w.a.toNat, w.b.toNat] else if op = 0xFB then [w.b.toNat] else []

/-- Rows, elements and rectangle of a CPA (Table 15.3). -/
def cpaReg (c : CopyCmd) : Nat := fld c.w0 3 0
def cpaRow0 (c : CopyCmd) : Nat := fld c.w0 9 4
def cpaCol0 (c : CopyCmd) : Nat := fld c.w0 15 10
def cpaRows (c : CopyCmd) : Nat := extent (fld c.w0 17 16)
def cpaEls (c : CopyCmd) : Nat := extent (fld c.w0 19 18)
def cpaType (c : CopyCmd) : Nat := fld c.w0 28 24
def cpaRect (c : CopyCmd) (tag : Tag) : Rect := rectAt (cpaReg c) (cpaRow0 c) (cpaCol0 c) (cpaRows c) (cpaEls c * tag.width)

/-- Its operands wait for the read phase of CPA (R236). -/
def CopyReq.waitsPhase (q : CopyReq) : Bool := q.cmd.op == 0xE5 && q.staged.isNone

/-- Occupancy (Table 12.3). -/
def occupancy (t : Team) (op : Nat) (w : Fields) : Nat :=
  match op with
  | 0xFB => max 1 ((rowsOf w * elsOf w + 255) / 256)
  | 0xFC => max 1 (4 * (w.f.toNat + 1))
  | 0xFF => max 1 ((rowsOf w * elsOf w * (t.tagOr w.a.toNat).width + 255) / 256)
  | _ => 64

/-! ## Tile contents (R226, R228) -/

/-- n bits at bit b of bytes. -/
def bitsAt (a : Array Byte) (b n : Nat) : Nat :=
  let lo := b / 8
  let count := (b + n - 1) / 8 - lo + 1
  (natLE ((List.range count).map fun i => a.getD (lo + i) 0) >>> (b % 8)) % 2 ^ n

/-- Element number e of a tile as exact terms: one, or real and imaginary part. -/
def tileTerm (x : Elem) (a : Array Byte) (e : Nat) : List Term :=
  match x with
  | .float f n => [(f.value (bitsAt a (n * e) n)).term]
  | .block code =>
    let m := sbBits code
    let b := e / 32
    let ee := (a.getD (8192 + 2 * b) 0).toNat
    let sigma := (a.getD (8193 + 2 * b) 0).toNat / 4 ^ (e % 32 / 8) % 4
    [sbValue m ee sigma (bitsAt a ((m + 1) * e) (m + 1))]
  | .int sg n =>
    let v := toInt sg n (bitsAt a (n * e) n)
    [.num (v < 0) { m := v, e := 0 }]
  | .bit => [.num false { m := if bitsAt a e 1 = 1 then 1 else -1, e := 0 }]
  | .complex f n => [(f.value (bitsAt a (2 * n * e) n)).term, (f.value (bitsAt a (2 * n * e + n) n)).term]

/-- The product lists of a cell, one for each component (R107). -/
def productLists (xa xb : Elem) (a b : Array Byte) (kk i j : Nat) : List (List Term) :=
  let pairs := (List.range kk).map fun k => (tileTerm xa a (i * kk + k), tileTerm xb b (j * kk + k))
  match xa with
  | .complex _ _ =>
    let re (p : List Term × List Term) : List Term := match p with
      | ([ar, ai], [br, bi]) => [ar.mul br, (ai.mul bi).negate]
      | _ => []
    let im (p : List Term × List Term) : List Term := match p with
      | ([ar, ai], [br, bi]) => [ar.mul bi, ai.mul br]
      | _ => []
    [pairs.flatMap re, pairs.flatMap im]
  | _ => [pairs.map fun p => match p with
      | ([x], [y]) => x.mul y
      | _ => .nan]

/-- Consecutive groups of n; the fuel is the length of the list. -/
def groupsBy {α : Type} (n : Nat) : Nat → List α → List (List α)
  | 0, _ => []
  | fuel + 1, l => if l.isEmpty then [] else l.take n :: groupsBy n fuel (l.drop n)

/-- R107's update of a floating value by its product list. -/
def accumulate (f : Fmt) (n c : Nat) (p : List Term) : Nat :=
  (groupsBy n p.length p).foldl (fun c g => ((Term.sum 0 [(f.value c).term, Term.sum 0 g]).round f {}).1) c

/-- The exact integer of a sum of integer terms. -/
def intSum (p : List Term) : Int :=
  match Term.sum 0 p with
  | .num _ d => d.m * 2 ^ d.e.toNat
  | _ => 0

/-! ## Cells under a tag (R229) -/

def Team.cell (t : Team) (i j : Nat) : Nat := (look 0 t.cells (cellKey i j)).toNat

/-- Bits of element (i, j) of a rectangle whose origin is (r0, c0). -/
def Team.element (t : Team) (tag : Tag) (r0 c0 i j : Nat) : Nat :=
  match tag with
  | .fp64 => t.cell (r0 + i) (c0 + 2 * j) + 2 ^ 32 * t.cell (r0 + i) (c0 + 2 * j + 1)
  | _ => t.cell (r0 + i) (c0 + j)

/-- The cells of an element's bits. -/
def elementCells (tag : Tag) (r0 c0 i j v : Nat) : List (Nat × Nat × Word) :=
  match tag with
  | .fp64 => [(r0 + i, c0 + 2 * j, BitVec.ofNat 32 v), (r0 + i, c0 + 2 * j + 1, BitVec.ofNat 32 (v / 2 ^ 32))]
  | _ => [(r0 + i, c0 + j, BitVec.ofNat 32 v)]

def Tag.fmt : Tag → Fmt
  | .fp64 => Sys2Proof.Machine.fp64
  | _ => Sys2Proof.Machine.fp32

/-- The exact value of an element. -/
def tagTerm (tag : Tag) (v : Nat) : Term :=
  match tag with
  | .int32 => .num (toInt true 32 v < 0) { m := toInt true 32 v, e := 0 }
  | _ => (tag.fmt.value v).term

/-- Rows i and columns j of an extent. -/
def gridOf (m n : Nat) : List (Nat × Nat) := (List.range m).flatMap fun i => (List.range n).map fun j => (i, j)

/-! ## What the operations write -/

/-- MMA (R245). -/
def mmaCells (t : Team) (op : Nat) (w : Fields) (a b : Array Byte) : List (Nat × Nat × Word) :=
  let (fa, fb) := (mmaA w, mmaB w)
  let (m, n, kk) := mmaShape op fa fb
  let x := rectAt w.d.toNat (row0Of w) (col0Of w) m mmaCols
  let tag := mmaTag op fa
  (gridOf m n).flatMap fun (i, j) =>
    let lists := productLists (mmaElem op fa) (mmaElem op fb) a b kk i j
    lists.zipIdx.flatMap fun (p, part) =>
      let e := lists.length * j + part
      let c := t.element tag x.r0 x.c0 i e
      let v := if op = 0xF9 then narrow (w.f.getLsbD 0) true 32 (toInt true 32 c + intSum p)
        else accumulate tag.fmt (mmaGroup op fa) c p
      elementCells tag x.r0 x.c0 i e v

/-- FP32 scale at a byte of the scale tile. -/
def scaleTerm (a : Array Byte) (o : Nat) : Term := (fp32.value (bitsAt a (8 * o) 32)).term

/-- ASA (R247). -/
def asaCells (t : Team) (w : Fields) (a : Array Byte) : List (Nat × Nat × Word) :=
  let (dt, pt) := (t.tagOr w.d.toNat, t.tagOr w.a.toNat)
  let x := rectAt w.d.toNat (row0Of w) (col0Of w) 0 0
  let y := rectAt w.a.toNat (row1Of w) (col1Of w) 0 0
  (gridOf (rowsOf w) (elsOf w)).flatMap fun (i, j) =>
    let p := tagTerm pt (t.element pt y.r0 y.c0 i j)
    let o := tagTerm dt (t.element dt x.r0 x.c0 i j)
    let prod := ((scaleTerm a (4 * i)).mul (scaleTerm a (256 + 4 * j))).mul p
    elementCells dt x.r0 x.c0 i j ((Term.sum 0 [o, prod]).round dt.fmt {}).1 ++
      (if w.m.getLsbD 0 then [(y.r0 + i, y.c0 + j, 0)] else [])

/-- AZERO (R248). -/
def azeroCells (w : Fields) : List (Nat × Nat × Word) :=
  (rangeRects w.d.toNat (w.f.toNat + 1)).flatMap fun x => (gridOf 64 64).map fun (i, j) => (x.r0 + i, x.c0 + j, 0)

/-- ARED of one row: destination d and sources xs (R250). -/
def aredValue (tag : Tag) (kind : Nat) (sat : Bool) (d : Nat) (xs : List Nat) : Nat :=
  match tag, kind with
  | .int32, 0 => narrow sat true 32 ((d :: xs).map (toInt true 32)).sum
  | .int32, k => wrapInt 32 (xs.foldl (fun acc x => if k = 1 then max acc (toInt true 32 x) else min acc (toInt true 32 x))
      (toInt true 32 d))
  | _, 0 => ((Term.sum 0 [(tag.fmt.value d).term, Term.sum 0 (xs.map fun x => (tag.fmt.value x).term)]).round tag.fmt {}).1
  | _, k => xs.foldl (fun acc x => (fMinMax tag.fmt false (k == 1) acc x).1) d

def aredCells (t : Team) (w : Fields) : List (Nat × Nat × Word) :=
  let tag := t.tagOr w.d.toNat
  let x := rectAt w.d.toNat (row0Of w) (col0Of w) 0 0
  let y := rectAt w.a.toNat (row1Of w) (col1Of w) 0 0
  (List.range (rowsOf w)).flatMap fun i =>
    let xs := (List.range (elsOf w)).map fun j => t.element tag y.r0 y.c0 i j
    elementCells tag x.r0 x.c0 i 0 (aredValue tag (w.m.toNat % 4) (w.m.getLsbD 2) (t.element tag x.r0 x.c0 i 0) xs)

/-! ## The queue (R232 to R235) -/

/-- Lanes of a core (R13). -/
def lanesPerCore : Nat := 64

/-- Entries of an engine queue. -/
def engineEntries : Nat := 4

/-- Bytes of a slot, both planes. -/
def slotBytesTotal : Nat := 9216

/-- A slot's contents as an array of bytes. -/
def slotArray (m : List Host.Cell) : Array Byte := (dense 0 m 0 slotBytesTotal).toArray

/-- Queued operations of a fibre. -/
def State.fibreOps (s : State) (core : Nat) (r : FibreRef) : List EngineOp := (s.core core).engine.filter fun e => e.fib == r
/-- Queued operations of a team. -/
def State.teamOps (s : State) (core : Nat) (r : TeamRef) : List EngineOp :=
  (s.core core).engine.filter fun e => e.fib.team == r

/-- The core whose engine serves a team (R231). -/
def State.engineCore (s : State) (r : TeamRef) (core : Nat) : Nat := ((s.team? r).map (·.core)).getD core

/-- An entry takes its place: behind all others, but before those of its core cycle from higher lanes (R232). -/
def EngineOp.place (e : EngineOp) : List EngineOp → List EngineOp
  | [] => [e]
  | x :: rest => if !x.started && x.cycle == e.cycle && e.lane < x.lane then e :: x :: rest else x :: e.place rest

/-- A queued operation takes its entry (R233): `lane` counts the lanes of the core, or of the pair, from its lower
core's. -/
def State.enqueue (s : State) (core : Nat) (r : FibreRef) (op : Nat) (w : Fields) (pc : DWord) (lane : Nat) : State :=
  let cycle := s.colCycle (colOf core)
  let s := s.modCore core fun k =>
    { k with
      engine := EngineOp.place { num := k.engineSeq, fib := r, op, w, pc, cycle, lane } k.engine
      engineSeq := k.engineSeq + 1 }
  s.modFibre r fun f => { f with counts := { f.counts with matI := f.counts.matI + 1 } }

/-- A release still waits: for queued operations that use an item, and for read phases of CPA (R234, R236). -/
def State.releaseBusy (s : State) (t : Team) (x : Release) : Bool :=
  let ops := s.teamOps t.core t.ref
  if x.region then
    let hit (y : Rect) : Bool := y.regions.any (x.has true)
    (ops.any fun e => (opTouches t e.op e.w).any hit) ||
      (s.cores.any fun (_, k) => k.reqs.any fun q => q.team == t.ref && q.waitsPhase && hit (cpaRect q.cmd (t.tagOr (cpaReg q.cmd))))
  else ops.any fun e => (opTiles e.op e.w).any (x.has false)

/-- The items of a release become unclaimed. -/
def Team.free (t : Team) (x : Release) : Team :=
  { t with
    tiles := t.tiles.filter fun n => !x.has false n
    regions := t.regions.filter fun (n, _) => !x.has true n }

/-- The releases of a team whose wait has ended free their items, whether or not their fibres can issue (R242). -/
def State.freeEnded (s : State) (t : Team) : Team :=
  t.releases.foldl (fun u x =>
    if x.freed || s.releaseBusy t x then u
    else { u.free x with releases := u.releases.map fun y => if y == x then { y with freed := true } else y }) t

/-- A fibre does not go back to a release whose items are free already. -/
def State.forgetFreed (s : State) (r : FibreRef) : State :=
  s.modTeam r.team fun t => { t with releases := t.releases.filter fun x => !(x.fib == r && x.freed) }

/-- Fibres of the teams on a core that wait for the engine try again, once the releases that have ended are made. -/
def State.retryEngine (s : State) (core : Nat) : State :=
  let go (f : Fibre) : Fibre := if f.hold == .engine then { f with hold := .none } else f
  { s with teams := s.teams.map fun t =>
      if t.core == core then
        let t := s.freeEnded t
        { t with groups := t.groups.map fun (g : Group) => { g with fibres := g.fibres.map go } }
      else t }

/-- Issued less completed operations of a class (R351). -/
def EngineCounts.left (c : EngineCounts) (cls : Nat) : DWord :=
  match cls with
  | 0 => c.copyI - c.copyC
  | 1 => c.matI - c.matC
  | 2 => c.remI - c.remC
  | _ => c.sysI - c.sysC

def EngineCounts.issued (c : EngineCounts) (cls : Nat) : DWord :=
  match cls with
  | 0 => c.copyI | 1 => c.matI | 2 => c.remI | _ => c.sysI
def EngineCounts.completed (c : EngineCounts) (cls : Nat) : DWord :=
  match cls with
  | 0 => c.copyC | 1 => c.matC | 2 => c.remC | _ => c.sysC

/-- One more completed operation of a class. -/
def EngineCounts.complete (c : EngineCounts) (cls : Nat) : EngineCounts :=
  match cls with
  | 0 => { c with copyC := c.copyC + 1 }
  | 1 => { c with matC := c.matC + 1 }
  | 2 => { c with remC := c.remC + 1 }
  | _ => { c with sysC := c.sysC + 1 }

/-- A fill writes a slot: operations whose occupancy has not ended and that read the slot note the units it changes (R177,
R232). -/
def State.noteFill (s : State) (core : Nat) (r : TeamRef) (slot off : Nat) (bs : List Byte) : State :=
  let note (e : EngineOp) : EngineOp :=
    if e.started && s.coreCycle core < e.endCycle && e.fib.team == r && (opTiles e.op e.w).contains slot then
      let which := (opTiles e.op e.w).zipIdx.filterMap fun (t, i) => if t == slot then some i else none
      { e with fresh := e.fresh ++ which.map fun i => (i, off, bs.zipIdx.map fun (b, j) => (off + j, b)) }
    else e
  s.modCore core fun k => { k with engine := k.engine.map note }

/-- An operation whose occupancy begins, its slots as they stand. -/
def EngineOp.begin (e : EngineOp) (t : Team) (stop : Nat) : EngineOp :=
  let slot (i : Nat) : List Host.Cell := match (opTiles e.op e.w)[i]? with
    | some n => slice t.slotBytes (slotKey n 0) slotBytesTotal
    | none => []
  { e with started := true, endCycle := stop, tileA := slot 0, tileB := slot 1 }

/-- ENGINE_OP_START: the first entry starts once the engine is free, in a core cycle after that of its issue, so that all
entries of one cycle stand in order; its slots are read as they stand. DEDUCED, unsafe (log 81). -/
def State.engineStart (s : State) (core : Nat) : State :=
  match (s.core core).engine with
  | [] => s
  | e :: rest =>
    match s.team? e.fib.team with
    | none => s
    | some t =>
      if e.started || s.coreCycle core < (s.core core).engineFree || s.colCycle (colOf core) ≤ e.cycle then s
      else
        let stop := s.coreCycle core + occupancy t e.op e.w
        s.modCore core fun k => { k with engine := e.begin t stop :: rest, engineFree := stop }

/-- The bytes that an operation saw: each 128-byte unit that fills changed meanwhile is read whole at one instant, so that
it shows those fills that came before it and no later one (R177, R232). -/
def seenTiles (s : State) (e : EngineOp) : Array Byte × Array Byte × Nat :=
  let units := (e.fresh.map fun x => (x.1, x.2.1 / 128)).eraseDups
  units.foldl (fun (a, b, n) (which, u) =>
    let fills := e.fresh.filter fun x => x.1 == which && x.2.1 / 128 == u
    let seen := fills.take (Config.free n % (fills.length + 1))
    let take (x : Array Byte) : Array Byte := seen.foldl (fun x f => f.2.2.foldl (fun x (i, v) => x.set! i v) x) x
    (if which = 0 then take a else a, if which = 1 then take b else b, n + 1))
    (slotArray e.tileA, slotArray e.tileB, s.freeCtr)

/-- Bytes of a tile of the A or B operand that an MMA reads in the data plane, and in the exponent plane (Table
12.2). -/
def mmaBytes (op fa fb : Nat) (second : Bool) : Nat × Nat :=
  let (m, n, k) := mmaShape op fa fb
  let count := (if second then n else m) * k
  match mmaElem op (if second then fb else fa) with
  | .float _ b | .int _ b => (count * b / 8, 0)
  | .bit => (count / 8, 0)
  | .complex _ b => (count * 2 * b / 8, 0)
  | .block code => (count * (sbBits code + 1) / 8, count / 16)

/-- 128-byte units of the slots that an operation reads; the exponent plane's start at 64. -/
def opUnits (op : Nat) (w : Fields) : List (Nat × Nat) :=
  let units (slot : Nat) (bytes : Nat × Nat) : List (Nat × Nat) :=
    ((List.range ((bytes.1 + 127) / 128)) ++ (List.range ((bytes.2 + 127) / 128)).map (64 + ·)).map fun u => (slot, u)
  if op = 0xFB then
    let (r, e) := (4 * rowsOf w, 4 * elsOf w)
    ((List.range ((r + 127) / 128)) ++ (List.range ((e + 127) / 128)).map (2 + ·)).map fun u => (w.b.toNat, u)
  else if 0xF4 ≤ op ∧ op ≤ 0xFA then
    units w.a.toNat (mmaBytes op (mmaA w) (mmaB w) false) ++ units w.b.toNat (mmaBytes op (mmaA w) (mmaB w) true)
  else []

/-- A cell row of these rectangles is marked by an uncorrectable error (R375). -/
def Team.rowsMarked (t : Team) (l : List Rect) : Bool :=
  t.marked.any fun u => match u with
    | .row g i => l.any fun x => x.overlaps { r0 := 64 * (g / 4) + i, c0 := 64 * (g % 4), rows := 1, cols := 64 }
    | _ => false

/-- The operation reads a marked unit: AZERO reads nothing (R375). -/
def Team.opMarked (t : Team) (e : EngineOp) : Bool :=
  !t.marked.isEmpty && ((opUnits e.op e.w).any (fun (n, u) => t.marked.contains (.slotUnit n u)) ||
    (e.op != 0xFC && t.rowsMarked (opTouches t e.op e.w)))

/-- The cells that an operation writes at the end of its occupancy. -/
def opCells (t : Team) (e : EngineOp) (a b : Array Byte) : List (Nat × Nat × Word) :=
  match e.op with
  | 0xFB => asaCells t e.w a
  | 0xFC => azeroCells e.w
  | 0xFF => aredCells t e.w
  | _ => mmaCells t e.op e.w a b

/-- An operation that has left the queue ends: cells, the fibre's completed count, and fibres that waited for the
engine. -/
def State.finishOp (s : State) (core : Nat) (e : EngineOp) : State :=
  match s.team? e.fib.team with
  | none => s
  | some t =>
    let (a, b, n) := seenTiles s e
    let s := { s with freeCtr := n }
    let s := s.writeCells e.fib.team (opCells t e a b) e.old
    let s := s.modFibre e.fib fun f => { f with counts := f.counts.complete 1 }
    s.retryEngine core

/-- The first entry ends. -/
def State.engineFinish (s : State) (core : Nat) : State :=
  match (s.core core).engine with
  | [] => s
  | e :: rest => (s.modCore core fun k => { k with engine := rest }).finishOp core e

/-- An operation meets an error: in a unit that it reads, or in its queue entry (R375). -/
def Team.opFails (t : Team) (core : Nat) (e : EngineOp) : Bool := t.opMarked e || t.marked.contains (.engineEntry core e.num)

/-- Every queued operation of a team completes, in queue order; those of other teams stay (R38, R372). Those that meet an
error are named by their fibres and instructions (R375). DEDUCED, unsafe (log 36). -/
def State.finishTeamOps (s : State) (core : Nat) (r : TeamRef) : State × List (Option FibreRef × DWord) :=
  (s.teamOps core r).foldl (fun (s, errs) e =>
    let s := s.modCore core fun k => { k with engine := k.engine.filter fun x => x.num != e.num }
    match s.team? r with
    | some t =>
      let s := s.unmark r fun u => u == .engineEntry core e.num
      (s.finishOp core (if e.started then e else e.begin t 0), if t.opFails core e then errs ++ [(some e.fib, e.pc)] else errs)
    | none => (s, errs)) (s, [])

end Sys2Proof.Machine
end

