-- ==== Sys2Proof/Machine/CopyPlan.lean ====
section
/-!
DEFINITION. What a copy command names: layout records and their limits (R315 to R318), endpoints (R276), the checks
made at issue (R277), the source runs of each command and the pieces it writes (R279 to R286).
-/
namespace Sys2Proof.Machine

/-! ## Layout records (Table 17.4) -/

/-- A layout record. -/
structure LayoutRec where
  insole : Bool
  type : Nat
  rank : Nat
  swizzle : Nat
  /-- address, or first region -/
  base : Nat
  len : Nat
  dims : List Nat
  /-- strides of dimensions 0 (unused, zero) to 5 -/
  strides : List Int
  box : List Nat
  fill : Nat
  /-- a field or value breaks a limit of R317 that the record alone shows -/
  bad : Bool
  deriving DecidableEq, Repr

/-- An n-byte field of a list of bytes. -/
def fieldLE (bs : List Byte) (o n : Nat) : Nat := natLE ((bs.drop o).take n)

/-- Shared-exponent type codes. -/
def isBlockType (n : Nat) : Bool := 15 ≤ n && n ≤ 17

def parseRec (bs : List Byte) : LayoutRec :=
  let w0 := fieldLE bs 0 4
  let type := w0 / 4 % 32
  let rank := w0 / 128 % 8
  let insole := w0 % 2 == 1
  let base := fieldLE bs 8 8
  let dims := (List.range 6).map fun d => fieldLE bs (0x18 + 8 * d) 8
  let strides := (0 : Int) :: (List.range 5).map fun d => toInt true 64 (fieldLE bs (0x48 + 8 * d) 8)
  let box := (List.range 6).map fun d => fieldLE bs (0x70 + 4 * d) 4
  let fill := fieldLE bs 0x88 8
  let bits := typeBits type
  let fillBits := if isBlockType type then sbBits type + 1 else bits
  let bad := w0 / 2 % 2 == 1 || w0 / 4096 != 0 || fieldLE bs 4 4 != 0 || rank == 0 || rank == 7 || 25 < type ||
    (insole && 12288 ≤ base) ||
    (dims.take rank).any (fun x => x == 0 || 2 ^ 40 < x) || (dims.drop rank).any (· != 0) ||
    (strides.drop rank).any (· != 0) || box.any (65535 < ·) || (box.drop rank).any (· != 0) ||
    (0 < fillBits && fillBits < 64 && fill / 2 ^ fillBits != 0) || fieldLE bs 0x90 8 / 2 ^ 36 != 0 ||
    (bs.drop 0x98).any (· != 0) || (!insole && 8 ≤ bits && base % (bits / 8) != 0) ||
    (isBlockType type && (dims.headD 1) % 32 != 0)
  { insole, type, rank, swizzle := w0 / 1024 % 4, base, len := fieldLE bs 0x10 8, dims, strides, box, fill, bad }

/-- Place of byte o of a tensor. -/
def LayoutRec.place (r : LayoutRec) (o : Int) : Place :=
  if r.insole then .insole ((r.base * regionBytes : Int) + o).toNat
  else .va (((r.base : Int) + o) % (2 ^ 64 : Int)).toNat

/-! ## Fields of a command (Table 15.3) -/

def CopyCmd.fbits (c : CopyCmd) (hi lo : Nat) : Nat := fld c.f hi lo

/-- The kind of each endpoint word: 0 g, 1 s, 2 h, 3 t, by operand position 4 to 6. -/
def CopyCmd.endpoints (c : CopyCmd) : List (Nat × Nat × DWord) :=
  match c.op with
  | 0xE1 => [(4, c.fbits 1 0, c.w0), (5, c.fbits 3 2, c.w1)]
  | 0xE2 | 0xE3 | 0xE4 => [(4, if c.fbits 0 0 = 1 then 2 else 0, c.w0)]
  | 0xE5 => [(5, c.fbits 1 0, c.w1)]
  | 0xE6 => [(4, c.fbits 0 0, c.w0)]
  | 0xE7 => [(4, c.fbits 1 0, c.w0)]
  | _ => []

/-- Length in W2. -/
def CopyCmd.length (c : CopyCmd) : Nat := fld c.w2 31 0

/-- The handles that a command names, with their operand positions. -/
def CopyCmd.handles (c : CopyCmd) : List (Nat × Nat) :=
  if c.op = 0xE0 then [(4, fld c.w0 23 0)]
  else (c.endpoints.filter fun e => e.2.1 == 2).map fun (pos, _, w) => (pos, fld w 23 0)

/-- Bytes of a row that a CPA writes. -/
def cpaRowBytes (c : CopyCmd) : Nat :=
  if isBlockType (cpaType c) then cpaEls c / 32 * sbBytes (cpaType c) else cpaEls c * typeBits (cpaType c) / 8

/-- Bytes from the first to the last byte that a CPA writes. -/
def cpaPitch (c : CopyCmd) : Nat := if c.length = 0 then cpaRowBytes c else c.length
def cpaReach (c : CopyCmd) : Nat := (cpaRows c - 1) * cpaPitch c + cpaRowBytes c

/-! ## The checks at issue that need no translation (R277, R356) -/

/-- A reserved bit or value in operand word `pos`. -/
def operandStop (pos : Nat) : Stop := misuse 4 pos 0

/-- A tile endpoint and n bytes from it; without a team, only what its state does not decide. -/
def tileStop (t : Option Team) (k : Kernel) (pos tile off n : Nat) : Option Stop :=
  if (t.any fun x => !x.tileOk k tile) || slotBytesTotal < off + n then some (misuse 0 pos tile) else none

/-- Checks an endpoint word of a kind that reaches n bytes. -/
def endpointStop (t : Option Team) (k : Kernel) (n : Nat) (e : Nat × Nat × DWord) : Option Stop :=
  let (pos, kind, w) := e
  match kind with
  | 1 => if w.toNat / 2 ^ 20 != 0 then some (operandStop pos) else none
  | 2 => if k.recCount ≤ fld w 23 0 then some (misuse 3 pos (fld w 23 0)) else none
  | 3 =>
    if fld w 15 6 != 0 || fld w 63 30 != 0 then some (operandStop pos)
    else tileStop t k pos (fld w 5 0) (fld w 29 16) n
  | _ => none

/-- The first failing check. -/
def firstStop (l : List (Option Stop)) : Option Stop := l.findSome? id

/-- A command whose operand words say that it moves no byte (R277). -/
def CopyCmd.movesNothing (c : CopyCmd) : Bool :=
  match c.op with
  | 0xE1 | 0xE6 | 0xE7 => c.length == 0
  | 0xE2 | 0xE3 => fld c.w2 31 0 == 0 || fld c.w2 47 32 == 0
  | 0xE4 => fld c.w2 31 16 == 0
  | _ => false

/-- The checks of a command's operand words, in operand order; without a team, those that its claims do not decide. -/
def CopyCmd.staticStop (c : CopyCmd) (t : Option Team) (k : Kernel) : Option Stop :=
  let ends := c.endpoints
  let check (n : Nat) (pos : Nat) : Option Stop := (ends.find? fun e => e.1 == pos).bind (endpointStop t k n)
  let bad (b : Bool) (pos : Nat) : Option Stop := if b then some (operandStop pos) else none
  let high2 := bad (fld c.w2 63 32 != 0) 6
  match c.op with
  | 0xE0 =>
    let local_ := c.fbits 1 1 == 1
    firstStop [bad (fld c.w0 31 24 != 0 || (if local_ then fld c.w0 63 38 else fld c.w0 63 52) != 0) 4,
      if k.recCount ≤ fld c.w0 23 0 then some (misuse 3 4 (fld c.w0 23 0)) else none,
      if local_ then tileStop t k 4 (fld c.w0 37 32) 0 0 else none]
  | 0xE1 => firstStop [check c.length 4, check c.length 5, high2]
  | 0xE2 | 0xE3 =>
    firstStop [check 0 4, bad (fld c.w1 31 20 != 0 || fld c.w1 63 52 != 0) 5,
      bad (2 ^ 20 < fld c.w2 31 0 || fld c.w2 63 48 != 0) 6]
  | 0xE4 =>
    let n := fld c.w2 15 0
    let rows := fld c.w2 31 16
    let tile := c.fbits 1 1 == 1
    firstStop [check 0 4, bad ((if tile then fld c.w1 31 6 else fld c.w1 31 20) != 0 || fld c.w1 63 52 != 0) 5,
      if tile then tileStop t k 5 (fld c.w1 5 0) 0 0 else none, bad (n == 0 || (tile && 4096 < n * rows)) 6]
  | 0xE5 =>
    let ty := cpaType c
    let form := fld c.w0 31 29 != 0 || fld c.w0 23 20 != 0 || fld c.w0 17 16 == 3 || fld c.w0 19 18 == 3 ||
      !((8 ≤ ty && ty ≤ 10) || (13 ≤ ty && ty ≤ 17)) || (isBlockType ty && cpaEls c % 32 != 0)
    let rect := t.bind fun t =>
      match t.checkRect k 4 (cpaReg c) (cpaRow0 c) (cpaCol0 c) (cpaRows c) (fun g => cpaEls c * g.width)
        [.fp32, .fp64, .int32] false with
      | .ok _ => none
      | .error e => some e
    firstStop [bad form 4, rect, check (cpaReach c) 5, high2]
  | 0xE6 => firstStop [check c.length 4, high2]
  | _ => firstStop [check c.length 4, high2]

/-! ## The limits that a record's contents show (R280, R315, R317) -/

/-- Elements of a box. -/
def LayoutRec.boxCount (r : LayoutRec) : Nat := (r.box.take r.rank).foldl (· * ·) 1

/-- Bits of a unit that CPT moves: an element, or a whole block. -/
def unitBits (type : Nat) : Nat := if isBlockType type then 8 * sbBytes type else typeBits type
/-- Elements of a unit. -/
def unitEls (type : Nat) : Nat := if isBlockType type then 32 else 1

/-- A record that a command cannot use: a copy operand error (R277). -/
def CopyCmd.recBad (c : CopyCmd) (r : LayoutRec) : Bool :=
  let tri := r.type == 25
  let block := isBlockType r.type
  let tile := c.op == 0xE0 && c.fbits 1 1 == 1
  let count := r.boxCount / unitEls r.type
  r.bad || tri != (c.op == 0xE4) ||
    (c.op == 0xE0 && block && (c.fbits 2 2 == 1 || r.box.headD 0 % 32 != 0)) ||
    (tile && (if block then 8192 < count * (sbBytes r.type - 2) || 512 < count else 8 * 8192 < count * unitBits r.type))

/-! ## Runs and pieces -/

/-- A run of bytes from a place. -/
abbrev Run := Place × Nat

/-- A place n bytes further. -/
def Place.plus (p : Place) (n : Nat) : Place :=
  match p with
  | .va a => .va ((a + n) % 2 ^ 64)
  | .scratch o => .scratch (o + n)
  | .insole o => .insole (o + n)
  | .slotByte k o => .slotByte k (o + n)
  | .beyond a => .beyond a

/-- A window address lies in scratchpad (Table 9.2). -/
def Place.norm (p : Place) : Place :=
  match p with
  | .va a => match windowOff a with
    | some o => .scratch o
    | none => p
  | _ => p

/-- Bytes from a place to the end of the unit in which it is read or written whole (Table 10.2). -/
def Place.room (p : Place) : Nat :=
  match p with
  | .va a => 32 - a % 32
  | .scratch o => 128 - o % 128
  | .insole o => 32 - o % 32
  | .slotByte _ o => 128 - o % 128
  | .beyond _ => 2 ^ 64

/-- Cuts a run at unit boundaries: places, offsets in the run, bytes. The fuel bounds the number of units. DEDUCED,
unsafe (log 39). -/
def cutRun : Nat → Place → Nat → Nat → List (Place × Nat × Nat)
  | 0, _, _, _ => []
  | fuel + 1, p, o, n =>
    if n = 0 then []
    else
      let k := min n p.norm.room
      (p.norm, o, k) :: cutRun fuel (p.plus k) (o + k) (n - k)

def cutAll (l : List Run) : List Run := l.flatMap fun (p, n) => (cutRun (n + 1) p 0 n).map fun (q, _, k) => (q, k)

/-- A place that is reached past a tensor's length (R281). -/
def Place.past (p : Place) : Place :=
  match p with
  | .va a => .beyond a
  | .insole o => .beyond o
  | q => q

/-- n bytes of a tensor from a byte offset. -/
def LayoutRec.bytesAt (r : LayoutRec) (off n : Nat) : Place := if r.len < off + n then (r.place off).past else r.place off

/-- The place of an endpoint word of kind 0, 1 or 3. -/
def endpointPlace (kind : Nat) (w : DWord) : Place :=
  match kind with
  | 0 => .va w.toNat
  | 1 => .scratch w.toNat
  | _ => .slotByte (fld w 5 0) (fld w 29 16)

/-- The record of the endpoint at an operand position. -/
def recAt (c : CopyCmd) (recs : List LayoutRec) (pos : Nat) : Option LayoutRec :=
  ((c.handles.zip recs).find? fun x => x.1.1 == pos).map (·.2)

/-- The place of endpoint `pos`, for n bytes from a byte offset. -/
def CopyCmd.at (c : CopyCmd) (recs : List LayoutRec) (pos off n : Nat) : Place :=
  match c.endpoints.find? fun e => e.1 == pos with
  | some (_, kind, w) =>
    if kind = 2 then
      match recAt c recs pos with
      | some r => r.bytesAt (fld w 63 24 + off) n
      | none => .beyond 0
    else (endpointPlace kind w).plus off
  | none => .beyond 0

/-! ## CPT (R280, R318) -/

/-- A row of the box along dimension 0: first unit number, byte offset of the tensor row (none: outside), and the
units in bounds. -/
structure BoxRow where
  first : Nat
  row : Option Int
  lo : Int
  hi : Int
  deriving DecidableEq, Repr

/-- Coordinates of a CPT. -/
def cptCoords (c : CopyCmd) : List Int :=
  [toInt true 32 (fld c.w1 31 0), toInt true 32 (fld c.w1 63 32)] ++
    (List.range 4).map fun k => toInt true 16 (fld c.w2 (16 * k + 15) (16 * k))

/-- Dimension 0 in units: coordinate, box extent, tensor extent. -/
def cptDim0 (c : CopyCmd) (r : LayoutRec) : Int × Nat × Nat :=
  let u := unitEls r.type
  (((cptCoords c).headD 0) / u, r.box.headD 0 / u, r.dims.headD 1 / u)

/-- The rows of the box. -/
def cptRows (c : CopyCmd) (r : LayoutRec) : List BoxRow :=
  let (x0, b0, n0) := cptDim0 c r
  let upper := (List.range r.rank).drop 1
  let count := upper.foldl (fun n d => n * r.box.getD d 0) 1
  if b0 = 0 then []
  else (List.range count).map fun q =>
    let (_, off, inside) := upper.foldl (fun (acc : Nat × Int × Bool) d =>
      let (q, off, ok) := acc
      let b := r.box.getD d 1
      let x : Int := (cptCoords c).getD d 0 + (q % b : Nat)
      (q / b, off + x * r.strides.getD d 0, ok && 0 ≤ x && x < r.dims.getD d 0)) (q, 0, true)
    let lo := max x0 0
    let hi := min (x0 + b0) n0
    if inside && lo < hi then { first := q * b0, row := some off, lo, hi } else { first := q * b0, row := none, lo := 0, hi := 0 }

/-- Bytes of a row's units in the tensor: offset and number. -/
def rowSpan (bits : Nat) (x : BoxRow) : Int × Nat :=
  match x.row with
  | some off =>
    let a := x.lo.toNat * bits / 8
    let b := (x.hi.toNat * bits + 7) / 8
    (off + a, b - a)
  | none => (0, 0)

/-- The tensor run of a row; one that reaches past the length lies beyond (R281). -/
def rowRun (r : LayoutRec) (x : BoxRow) : Run :=
  let (o, n) := rowSpan (unitBits r.type) x
  if (r.len : Int) < o + n then ((r.place o).past, max n 1)
  else (r.place o, n)

/-- Bytes of the packed box. -/
def packedBytes (r : LayoutRec) : Nat := (r.boxCount / unitEls r.type * unitBits r.type + 7) / 8

/-- The scratchpad runs of the packed box under the record's swizzle. -/
def packedRuns (c : CopyCmd) (r : LayoutRec) : List (Nat × Run) :=
  let n := packedBytes r
  let base := fld c.w0 51 32
  if r.swizzle = 0 then [(0, .scratch base, n)]
  else (List.range ((n + 15) / 16)).map fun i =>
    let o := 16 * i
    (o, .scratch (base + (o ^^^ (o / 128 % 2 ^ r.swizzle * 16))), min 16 (n - o))

/-- Unit number of box unit e under `.tr`. -/
def transposed (b0 b1 e : Nat) : Nat :=
  let x0 := e % b0
  let rest := e / b0
  x0 * b1 + rest % b1 + b0 * b1 * (rest / b1)

/-- The bits of the packed box of a load, from the rows' bytes in order. The high 64 bits of the fill of a .c128 element
are zero. DESIGN CHOICE, unsafe (log 98). -/
def packLoad (c : CopyCmd) (r : LayoutRec) (data : List Byte) : Nat :=
  let bits := unitBits r.type
  let (x0, b0, _) := cptDim0 c r
  let fillBits := if isBlockType r.type then packBits (sbBits r.type + 1) (List.replicate 32 r.fill) * 65536 else r.fill
  let fill := fillBits % 2 ^ bits
  let tr := c.fbits 2 2 == 1
  let b1 := if 1 < r.rank then r.box.getD 1 1 else 1
  let out := (cptRows c r).foldl (fun (acc : Nat × List Byte) x =>
    let (p, rest) := acc
    let n := (rowSpan bits x).2
    let v := natLE (rest.take n) >>> (x.lo.toNat * bits % 8)
    let p := (List.range b0).foldl (fun (p : Nat) (i : Nat) =>
      let g : Int := x0 + i
      let u : Nat := if x.row.isSome && x.lo ≤ g && g < x.hi then (v >>> ((g - x.lo).toNat * bits)) % 2 ^ bits else fill
      let e : Nat := x.first + i
      p + (u <<< (bits * (if tr then transposed b0 b1 e else e)))) p
    (p, rest.drop n)) (0, data)
  out.1

/-- A block's header and elements go to the two planes of a slot (R102). DEDUCED, unsafe (log 39). -/
def blockTile (type slot count : Nat) (bs : List Byte) : List (Run × List Byte) :=
  let n := sbBytes type
  let block (i : Nat) := (bs.drop (n * i)).take n
  let heads := (List.range count).flatMap fun i => (block i).take 2
  let els := (List.range count).flatMap fun i => (block i).drop 2
  [((.slotByte slot 0, els.length), els), ((.slotByte slot 8192, heads.length), heads)]

/-! ## Source runs -/

/-- Runs of the index list (CPG, CPS); rows of no bytes need none (R282). -/
def CopyCmd.indexRun (c : CopyCmd) : Run :=
  (.scratch (fld c.w1 51 32), if fld c.w2 47 32 = 0 then 0 else fld c.w2 31 0 * (if c.fbits 1 1 = 1 then 8 else 4))

/-- The far and near places of row j of a CPG or CPS. -/
def gatherRow (c : CopyCmd) (recs : List LayoutRec) (idx : List Byte) (j : Nat) : Place × Place :=
  let width := if c.fbits 1 1 = 1 then 8 else 4
  let rb := fld c.w2 47 32
  let x := fieldLE idx (j * width) width
  (c.at recs 4 (x * rb) rb, .scratch (fld c.w1 19 0 + j * rb))

/-- Rows of a CPX: source place and scale place. -/
def cpxRow (c : CopyCmd) (recs : List LayoutRec) (i : Nat) : Run × Run :=
  let n := fld c.w2 15 0
  let bytes := (n + 4) / 5
  let pitch := if fld c.w2 63 32 = 0 then bytes else fld c.w2 63 32
  ((c.at recs 4 (i * pitch) bytes, bytes), (.scratch (fld c.w1 51 32 + 2 * i), 2))

/-- The source runs of a command, in the order in which its bytes are used. -/
def CopyCmd.sources (c : CopyCmd) (recs : List LayoutRec) (idx : List Byte) : List Run :=
  match c.op with
  | 0xE0 =>
    match recs with
    | r :: _ =>
      if c.fbits 0 0 = 0 then ((cptRows c r).filter fun x => x.row.isSome).map (rowRun r)
      else (packedRuns c r).map (·.2)
    | [] => []
  | 0xE1 => [(c.at recs 4 0 c.length, c.length)]
  | 0xE2 => (List.range (fld c.w2 31 0)).map fun j => ((gatherRow c recs idx j).1, fld c.w2 47 32)
  | 0xE3 => (List.range (fld c.w2 31 0)).map fun j => ((gatherRow c recs idx j).2, fld c.w2 47 32)
  | 0xE4 =>
    let rows := (List.range (fld c.w2 31 16)).map (cpxRow c recs)
    rows.map (·.1) ++ rows.map (·.2)
  | 0xE6 => [(c.at recs 4 0 c.length, c.length)]
  | _ => []

/-- A place whose sectors carry poison marks: memory or the insole store (R179). -/
def Place.marks (p : Place) : Bool :=
  match p.norm with
  | .scratch _ | .slotByte _ _ => false
  | _ => true

/-- The destination carries poison marks and the copy moves bytes for bytes (R179). -/
def CopyCmd.carries (c : CopyCmd) (recs : List LayoutRec) : Bool :=
  match c.op with
  | 0xE1 => (c.at recs 5 0 0).marks
  | 0xE3 => (c.at recs 4 0 0).marks
  | 0xE6 => (Place.va c.w1.toNat).marks
  | _ => false

/-! ## What is written -/

/-- Destination runs with their bytes and bit masks. -/
structure Output where
  place : Place
  bytes : List Byte
  mask : List Byte := []
  /-- where its bytes lie in the source data, for poison that travels -/
  src : Option Nat := none

/-- Values of the trits of a row under a scale (R283). -/
def cpxValues (n : Nat) (scale : Nat) (bs : List Byte) : List Nat × Nat :=
  let trits := bs.flatMap fun b => (tritsOf b.toNat).1
  let errs := (bs.filter fun b => (tritsOf b.toNat).2).length
  let isNan := match bf16.value scale with
    | .nan _ => true
    | _ => false
  ((trits.take n).map fun t =>
    if t = 0 then 0 else if isNan then bf16.canonNaN else if t = 1 then scale else bf16.pack (!bf16.sign scale) 0 0 ^^^ (scale % 2 ^ 15),
    errs)

/-- A row of a CPA converted: its bytes and its NaN blocks (R284). -/
def cpaRow (c : CopyCmd) (tag : Tag) (xs : List DWord) : List Byte × Nat :=
  let scale := (fp32.value (fld c.w0 63 32)).term
  let ty := cpaType c
  let ys := xs.map fun x =>
    let t := tagTerm tag x.toNat
    if c.fbits 2 2 = 1 then t.mul scale else t
  if isBlockType ty then
    let vals := ys.map fun (y : Term) => match y with
      | .nan => FVal.nan false
      | .inf n => .inf n
      | .num n d => .fin n d.m.natAbs d.e
    (groupsBy 32 vals.length vals).foldl (fun (acc, n) g =>
      let (bs, bad) := sbBlock ty g
      (acc ++ bs, if bad then n + 1 else n)) ([], 0)
  else
    match fmtOf ty with
    | some f =>
      let one (y : Term) : Nat := match y with
        | .inf n => if c.m.getLsbD 0 then f.maxFinite n else f.infinity n
        | y => (y.round f { sat := c.m.getLsbD 0 }).1
      (ys.flatMap fun y => bytesLE (one y) (typeBits ty / 8), 0)
    | none => ([], 0)

/-- What a command writes, from its source bytes; the number of format errors. -/
def CopyCmd.outputs (c : CopyCmd) (recs : List LayoutRec) (idx data : List Byte) (staged : Option (Tag × List DWord)) :
    List Output × Nat :=
  match c.op with
  | 0xE0 =>
    match recs with
    | r :: _ =>
      let bits := unitBits r.type
      let n := packedBytes r
      if c.fbits 0 0 = 0 then
        let bs := bytesLE (packLoad c r data) n
        if c.fbits 1 1 = 1 then
          let slot := fld c.w0 37 32
          if isBlockType r.type then ((blockTile r.type slot (r.boxCount / 32) bs).map fun (p, b) => { place := p.1, bytes := b }, 0)
          else ([{ place := .slotByte slot 0, bytes := bs }], 0)
        else ((packedRuns c r).map fun (o, p, k) => { place := p, bytes := (bs.drop o).take k }, 0)
      else
        let all := natLE data
        let (x0, _, _) := cptDim0 c r
        (((cptRows c r).filter fun x => x.row.isSome).map fun x =>
          let (_, k) := rowSpan bits x
          let sh := x.lo.toNat * bits % 8
          let count := (x.hi - x.lo).toNat
          let v := (all >>> (bits * (x.first + (x.lo - x0).toNat))) % 2 ^ (bits * count)
          { place := (rowRun r x).1, bytes := bytesLE (v <<< sh) k
            mask := if bits % 8 = 0 then [] else bytesLE ((2 ^ (bits * count) - 1) <<< sh) k }, 0)
    | [] => ([], 0)
  | 0xE1 => ([{ place := c.at recs 5 0 c.length, bytes := data, src := some 0 }], 0)
  | 0xE2 =>
    let rb := fld c.w2 47 32
    ((List.range (fld c.w2 31 0)).map fun j =>
      { place := (gatherRow c recs idx j).2, bytes := (data.drop (j * rb)).take rb }, 0)
  | 0xE3 =>
    let rb := fld c.w2 47 32
    ((List.range (fld c.w2 31 0)).map fun j =>
      { place := (gatherRow c recs idx j).1, bytes := (data.drop (j * rb)).take rb, src := some (j * rb) }, 0)
  | 0xE4 =>
    let n := fld c.w2 15 0
    let rows := fld c.w2 31 16
    let bytes := (n + 4) / 5
    let scales := data.drop (rows * bytes)
    let parts := (List.range rows).map fun i =>
      cpxValues n (fieldLE scales (2 * i) 2) ((data.drop (i * bytes)).take bytes)
    let dst : Place := if c.fbits 1 1 = 1 then .slotByte (fld c.w1 5 0) 0 else .scratch (fld c.w1 19 0)
    ([{ place := dst, bytes := parts.flatMap fun p => p.1.flatMap fun v => bytesLE v 2 }], (parts.map (·.2)).sum)
  | 0xE5 =>
    match staged with
    | some (tag, xs) =>
      let rows := groupsBy (cpaEls c) xs.length xs
      let base := c.at recs 5 0 (cpaReach c)
      let parts := rows.map (cpaRow c tag)
      (parts.zipIdx.map fun (p, i) => { place := base.plus (i * cpaPitch c), bytes := p.1 }, (parts.map (·.2)).sum)
    | none => ([], 0)
  | 0xE6 => ([{ place := .va c.w1.toNat, bytes := data, src := some 0 }], 0)
  | _ =>
    let pat := bytesLE c.w1.toNat 8
    ([{ place := c.at recs 4 0 c.length, bytes := (List.range c.length).map fun i => pat.getD (i % 8) 0 }], 0)

/-- The pieces of an output: one for each unit it touches, poisoned where a source byte of it was. -/
def Output.pieces (x : Output) (poison : List Nat) : List Piece :=
  (cutRun (x.bytes.length + 1) x.place 0 x.bytes.length).map fun (p, o, k) =>
    { place := p, bytes := (x.bytes.drop o).take k, mask := (x.mask.drop o).take k
      poison := match x.src with
        | some b => poison.any fun q => b + o ≤ q && q < b + o + k
        | none => false }

/-- The pieces of outputs, numbered in their order. -/
def piecesOf (outs : List Output) (poison : List Nat) : List Piece :=
  (outs.flatMap fun o => o.pieces poison).zipIdx.map fun (p, i) => { p with num := i }

/-- Two pieces of a request write a common byte. -/
def Piece.overlaps (p q : Piece) : Bool :=
  let meets (a b : Nat) : Bool := a < b + q.bytes.length && b < a + p.bytes.length
  match p.place, q.place with
  | .va a, .va b => meets a b
  | .scratch a, .scratch b => meets a b
  | .insole a, .insole b => meets a b
  | .slotByte j a, .slotByte k b => j == k && meets a b
  | _, _ => false

/-! ## Elements that go on past parked ones (R267) -/

/-- What a command's outputs owe to source bytes: of each byte of an output, whether it depends on a source byte whose
byte in `unread` is 0xFF. -/
def CopyCmd.owes (c : CopyCmd) (recs : List LayoutRec) (idx unread : List Byte) : List Output :=
  if c.op = 0xE4 then
    let n := fld c.w2 15 0
    let rows := fld c.w2 31 16
    let bytes := (n + 4) / 5
    let scales := unread.drop (rows * bytes)
    let row (i : Nat) : List Byte :=
      let lost := ((unread.drop (i * bytes)).take bytes ++ (scales.drop (2 * i)).take 2).any (· != 0)
      List.replicate (2 * n) (if lost then 0xFF else 0)
    let dst : Place := if c.fbits 1 1 = 1 then .slotByte (fld c.w1 5 0) 0 else .scratch (fld c.w1 19 0)
    [{ place := dst, bytes := (List.range rows).flatMap row }]
  else (c.outputs (recs.map fun r => { r with fill := 0 }) idx unread none).1

/-- The pieces that neither an unread source byte nor an earlier piece which they overlap holds back. -/
def clearPieces (pieces owes : List Piece) : List Piece :=
  ((pieces.zip owes).foldl (fun (acc : List Piece × List Piece) x =>
    if x.2.bytes.any (· != 0) || acc.2.any x.1.overlaps then (acc.1, acc.2 ++ [x.1]) else (acc.1 ++ [x.1], acc.2)) ([], [])).1

end Sys2Proof.Machine
end

