-- ==== Sys2Proof/Machine/CopySem.lean ====
section
/-!
DEFINITION. The copy engine at work: the checks at issue with their record fetches (R277, R315), requests and their
two counter adds (R261 to R263), reading and writing of runs with parking in the replay queue (R267), poison
(R179), the insole map (R320) and the copy schedule (R264 to R266).
-/
namespace Sys2Proof.Machine

/-! ## Where a run lies now -/

/-- The address space of a launch, through a core's TLB. -/
def State.spaceOf (s : State) (core seq : Nat) : Space :=
  match s.launch? seq with
  | some l => { core, asid := l.asid, root := l.root }
  | none => { core, asid := 0, root := 0 }

/-- What an engine meets at a run: bytes of memory (with the page's ETP bit, none for the insole store), of
scratchpad or of a slot, a wait, or a fault with what its elements share. -/
inductive Reach where
  | mem (loc : Nat) (etp : Option Bool)
  | scratch (off : Nat)
  | slot (n off : Nat)
  | wait
  | fault (unrepairable : Bool) (cause reason unit addr : Nat)
  deriving DecidableEq, Repr

/-- Region of an insole offset as the unit that faulting elements share. -/
def regionUnit (r : Nat) : Nat := 2 ^ 60 + r

/-- The insole store for a request of a process that has touched some regions (R175, R176, R320). -/
def State.insoleReach (s : State) (asid : Nat) (owned : List Nat) (o : Nat) : Reach :=
  let r := o / regionBytes
  let e := look {} s.regions r
  if insoleBytes ≤ o || e.st == 3 then .fault true causeAccess 1 (regionUnit r) o
  else if !owned.contains r && !(e.ov && e.own.toNat == asid) then .fault false causeAccess 3 (regionUnit r) o
  else if e.st == 1 then .wait
  else .mem (s.insoleNow o) none

/-- A launch's teams lie on pairs. -/
def State.pairTeam (s : State) (seq : Nat) : Bool := ((s.kernel? seq).map (·.pair)).getD false

/-- The core that works for a request: that of its entry, or the core on which its team has been restored meanwhile (R268,
R272). DEDUCED, unsafe (log 35). -/
def State.workCore (s : State) (core : Nat) (q : CopyReq) : Nat :=
  match s.team? q.team with
  | some t => if core == t.core || (core == t.core + 1 && s.pairTeam q.team.seq) then core else t.core
  | none => core

/-- The address space of a request. -/
def State.reqSpace (s : State) (core : Nat) (q : CopyReq) : Space := s.spaceOf (s.workCore core q) q.team.seq

/-- The fault of a copy's access; a CPR's destination without W is of a wrong memory type (R285). -/
def State.copyFault (s : State) (w : Space) (remote : Bool) (a cause reason : Nat) : Nat × Nat :=
  match s.leaf w .copyWrite a with
  | .ok l =>
    if remote && leafFault .copyWrite l == some (causePage, 4) && pteU l.pte then (causeAccess, 2) else (cause, reason)
  | .fault _ _ => (cause, reason)

/-- The page that elements which fault at an address share: that of the leaf, whatever its size, else 4 KiB (R267). -/
def State.pageUnit (s : State) (w : Space) (use : Use) (a : Nat) : Nat :=
  let bits := match s.leaf w use a with
    | .ok l => l.bits
    | .fault _ _ => 12
  2 ^ 70 * bits + a >>> bits

/-- Resolves n bytes of a request at a place. -/
def State.reach (s : State) (core : Nat) (q : CopyReq) (use : Use) (p : Place) (n : Nat) : Reach :=
  let w := s.reqSpace core q
  let write := use == .copyWrite
  let remote := write && q.cmd.op == 0xE6
  match p with
  | .va a =>
    match s.xlate w use a with
    | .fault c r => .fault false (s.copyFault w remote a c r).1 (s.copyFault w remote a c r).2 (s.pageUnit w use a) a
    | .ok x =>
      if remote && x.type != .normal then .fault false causeAccess 2 (s.pageUnit w use a) a
      else if !s.peerOpen x.loc then .wait else .mem x.loc (some x.etp)
  | .scratch o =>
    let size := ((s.kernel? q.team.seq).map (·.scratchBytes)).getD 0
    if remote then .fault false causeAccess 2 ((windowBase + o) / 4096) (windowBase + o)
    else if size < o + n || (write && o < 0x40) then .fault true 9 0 0 (windowBase + o)
    else .scratch o
  | .insole o => s.insoleReach w.asid q.owned o
  | .slotByte k o =>
    match s.team? q.team, s.kernel? q.team.seq with
    | some t, some kn => if t.tileHeld kn k then .slot k o else .fault true 9 0 0 0
    | _, _ => .fault true 9 0 0 0
  | .beyond a => .fault true causeAccess 4 0 a

/-! ## Requests in the queue -/

def State.req? (s : State) (core i : Nat) : Option CopyReq := (s.core core).reqs.find? fun q => q.idx == i

/-- Changes a request, and the pending bits that follow from the lines under way (R163). -/
def State.modReq (s : State) (core i : Nat) (f : CopyReq → CopyReq) : State :=
  s.modCore core fun k => { k with reqs := k.reqs.map fun q => if q.idx == i then f q else q }

def State.refreshPending (s : State) (r : TeamRef) : State :=
  let lines := s.cores.flatMap fun (_, k) => (k.reqs.filter fun q => q.team == r).filterMap CopyReq.openLine
  s.modTeam r fun t => { t with pendingLines := lines.eraseDups }

/-- The team index that an event or entry names, and the fibre's part of Table 14.7's offset 0x20. -/
def CopyOrigin.gid : CopyOrigin → Nat
  | .fibre f _ => f.gid
  | .entry _ => 0

/-! ## Parking (R267) -/

/-- An element that faults: a source run by number or a destination piece. -/
inductive Element where
  | run (n : Nat)
  | piece (p : Piece)
  /-- a counter add -/
  | counter
  /-- a schedule entry that could not be issued -/
  | whole
  deriving DecidableEq, Repr

def ReplayEntry.add (e : ReplayEntry) (x : Element) : ReplayEntry :=
  let e := { e with elements := e.elements + 1 }
  match x with
  | .run n => { e with runs := e.runs ++ [n] }
  | .piece p => { e with pieces := e.pieces ++ [p] }
  | .counter => { e with counter := true }
  | .whole => e

/-- Physical address of replay entry e of a core (R272, R394). -/
def replayAddr (core e : Nat) : Nat := deviceBase + 0x2000000 + 0x80000 + core / 4 * 0x1000 + 0x400 * (core % 4) + 0x40 * e

/-- Parks an element of a request (or of a schedule entry, req none); none where all 16 entries are taken. An
unrepairable entry terminates the launch (R267, R366). -/
def State.park (s : State) (core : Nat) (team : TeamRef) (origin : CopyOrigin) (opcode : Nat) (req : Option (Nat × Nat))
    (x : Element) (unrepairable : Bool) (cause reason unit addr : Nat) : Option State :=
  let k := s.core core
  let share (e : ReplayEntry) : Bool :=
    req.isSome && e.req == req && e.team == team && e.cause == cause && e.reason == reason && e.unit == unit && !unrepairable
  if k.replay.any share then
    some (s.modCore core fun k => { k with replay := k.replay.map fun e => if share e then e.add x else e })
  else
    match (List.range 16).find? fun i => !(k.replay.any fun e => e.idx == i) with
    | none => none
    | some idx =>
      let e : ReplayEntry :=
        { idx, unrepairable, cause, reason, opcode, team, addr := BitVec.ofNat 64 addr, origin, core, gid := origin.gid,
          elements := 0, unit, req }
      let s := s.modCore core fun k => { k with replay := k.replay ++ [e.add x] }
      let s := s.event (colOf core)
        { kind := 2, seq := team.seq, team := team.idx, addr := BitVec.ofNat 64 addr
          d0 := BitVec.ofNat 64 (idx + 256 * core + 2 ^ 24 * cause + 2 ^ 32 * opcode)
          d1 := BitVec.ofNat 64 (replayAddr core idx), d2 := if unrepairable then 1 else 0 }
      some (if unrepairable then s.terminate team.seq { reason := 4, cause } else s)

def State.parkReq (s : State) (core : Nat) (q : CopyReq) (x : Element) (unrepairable : Bool)
    (cause reason unit addr : Nat) : Option State :=
  s.park (s.workCore core q) q.team q.origin q.cmd.op (some (core, q.idx)) x unrepairable cause reason unit addr

/-- Replay entries that hold elements of a request, on whatever cores its team has worked. -/
def State.parkedOf (s : State) (core : Nat) (q : CopyReq) : List ReplayEntry :=
  s.cores.flatMap fun (_, k) => k.replay.filter fun e => e.req == some (core, q.idx) && e.team == q.team

/-- The 64 bytes of an entry as the lodge core reads them (Table 14.7). -/
def ReplayEntry.bytes (e : ReplayEntry) : List Byte :=
  let who := match e.origin with
    | .fibre f _ => f.fid + 256 * f.gid + 65536 * e.core
    | .entry k => 65536 * e.core + 2 ^ 31 + 2 ^ 32 * k
  bytesLE (1 + (if e.unrepairable then 2 else 0) + 256 * e.cause + 65536 * e.opcode) 8 ++ bytesLE e.team.seq 8 ++
    bytesLE e.team.idx 8 ++ bytesLE e.addr.toNat 8 ++ bytesLE who 8 ++ bytesLE e.elements 8 ++ bytesLE 0 16

/-! ## Reading memory for the engine -/

/-- Reads n bytes at a virtual address that is no window address; poison is zeroed and counted under ETP = 1 and
is an error of the team under ETP = 0 (R179). -/
def State.fetchData (s : State) (w : Space) (seq : Nat) (use : Use) (va n : Nat) : Except Stop (List Byte × State) :=
  match s.locate w use n { t := 0, va, off := none } with
  | .error (c, r, a) => .error (.lodge c r 0 [(0, BitVec.ofNat 64 a)])
  | .ok ps =>
    if s.consumes none { seq, idx := 0 } false ps then .error (.team 24)
    else
      let subst := s.substituted none ps
      let r := ps.foldl (fun (acc, s) p => match p.home with
        | .mem va q => (acc ++ s.cleaned q.loc (s.bytesAt q.loc p.len), (s.touch w use va).throughSlice q.loc p.len false)
        | .scratch _ => (acc, s)) (([] : List Byte), s)
      .ok (r.1, if subst.isEmpty then r.2 else r.2.addLaunchCounter seq 6 subst.length)

/-- An item of the record cache, fetched whole on a miss (R315). -/
def State.fetchItem (s : State) (w : Space) (seq : Nat) (use : Use) (table : Bool) (num va n : Nat) :
    Except Stop (List Byte × State) :=
  match (s.core w.core).records.find? fun e => e.seq == seq && e.table == table && e.num == num with
  | some e => .ok (e.bytes, s)
  | none =>
    match s.fetchData w seq use va n with
    | .error e => .error e
    | .ok (bs, s) =>
      .ok (bs, s.modCore w.core fun k => { k with records := (({ seq, table, num, bytes := bs } : RecordEntry) :: k.records).take 64 })

/-- The record of a handle; none where its table entry names no record (R315). -/
def State.fetchRecord (s : State) (w : Space) (seq : Nat) (k : Kernel) (handle : Nat) : Except Stop (Option (List Byte) × State) :=
  match (s.core w.core).records.find? fun e => e.seq == seq && !e.table && e.num == handle with
  | some e => .ok (some e.bytes, s)
  | none =>
    match s.fetchData w seq .copyRead ((k.recTable.toNat + 8 * handle) % 2 ^ 64) 8 with
    | .error e => .error e
    | .ok (bs, s) =>
      let va := natLE bs
      if va = 0 || va % 64 != 0 then .ok (none, s)
      else
        match s.fetchItem w seq .copyRead false handle va 192 with
        | .error e => .error e
        | .ok (bs, s) => .ok (some bs, s)

/-! ## The checks at issue (R277, R356) -/

/-- What the checks find: records, counters as memory locations or scratchpad offsets, and the state after their
accesses. -/
structure CopyOk where
  recs : List (List Byte)
  rel : Option (Nat ⊕ Nat)
  comp : Option (Nat ⊕ Nat)
  state : State

/-- Misaligned counter, or one at a scratchpad offset that holds none. -/
def counterStop (op size : Nat) (a : DWord) : Option Stop :=
  let q := Req.generic 0 a
  if a == 0 then none
  else if a.toNat % 8 != 0 then some (misalignedTrap op 5 [q])
  else if scratchBad size true 8 q then some (scratchTrap [q]) else none

/-- Translates a counter address as a read-modify-write (R169). -/
def State.placeCounter (s : State) (w : Space) (a : DWord) : Except Stop (Option (Nat ⊕ Nat) × State) :=
  if a == 0 then .ok (none, s)
  else
    match windowOff a.toNat with
    | some o => .ok (some (.inr o), s)
    | none =>
      match s.xlate w .rmw a.toNat with
      | .fault c r => .error (.lodge c r 0 [(0, a)])
      | .ok p => .ok (some (.inl p.loc), s.touch w .rmw a.toNat)

def State.fetchRecords (s : State) (w : Space) (seq : Nat) (k : Kernel) : List (Nat × Nat) → Except Stop (List (Nat × Option (List Byte)) × State)
  | [] => .ok ([], s)
  | (pos, h) :: rest =>
    match s.fetchRecord w seq k h with
    | .error e => .error e
    | .ok (r, s) =>
      match s.fetchRecords w seq k rest with
      | .error e => .error e
      | .ok (l, s) => .ok ((pos, r) :: l, s)

/-- A CPT whose record has an empty box (R277, R317). -/
def State.emptyBox (s : State) (w : Space) (seq : Nat) (k : Kernel) (c : CopyCmd) : Bool :=
  c.op == 0xE0 && decide (fld c.w0 23 0 < k.recCount) && match s.fetchRecord w seq k (fld c.w0 23 0) with
    | .ok (some bs, _) => (parseRec bs).boxCount == 0
    | _ => false

/-- The checks of a copy: scope, operand words in order, counters, then translations, then record contents. A copy of no
bytes passes those on what it would move (R277). DEDUCED, unsafe (log 28, 82). -/
def State.checkCopy (s : State) (w : Space) (t : Team) (k : Kernel) (c : CopyCmd) : Except Stop CopyOk :=
  if s.scopeMissing c.scope.toNat then .error (scopeTrap c.scope.toNat 0)
  else
    let empty := c.movesNothing || s.emptyBox w t.ref.seq k c
    match firstStop [if empty then none else c.staticStop (some t) k, counterStop c.op k.scratchBytes c.rel, counterStop c.op k.scratchBytes c.comp] with
    | some e => .error e
    | none =>
      match s.fetchRecords w t.ref.seq k (if c.movesNothing then [] else c.handles) with
      | .error e => .error e
      | .ok (recs, s) =>
        match s.placeCounter w c.rel with
        | .error e => .error e
        | .ok (rel, s) =>
          match s.placeCounter w c.comp with
          | .error e => .error e
          | .ok (comp, s) =>
            let bad (x : Nat × Option (List Byte)) : Bool := match x.2 with
              | some bs => c.recBad (parseRec bs)
              | none => true
            match (if empty then none else recs.find? bad) with
            | some _ => .error (operandStop 7)
            | none => .ok { recs := recs.filterMap (·.2), rel, comp, state := s }

/-- The checks that a schedule entry makes when it is reached, before its gate is satisfied: those of its words that the
claims of its team do not decide (R264, R277). -/
def State.entryStop (s : State) (w : Space) (t : Team) (k : Kernel) (c : CopyCmd) : Option Stop :=
  let empty := c.movesNothing || s.emptyBox w t.ref.seq k c
  firstStop [if empty then none else c.staticStop none k, counterStop c.op k.scratchBytes c.rel, counterStop c.op k.scratchBytes c.comp]

/-- A CPZ, which makes its release add as it starts, would add to a poisoned word (R179, R286). -/
def State.startBad (s : State) (c : CopyCmd) (ok : CopyOk) : Bool :=
  c.op == 0xE7 && match ok.rel with
    | some (.inl loc) => !(s.poisoned loc 8).isEmpty
    | _ => false

/-! ## Counter adds (R263) -/

/-- The cores of a team. -/
def coresOf (t : Team) (k : Kernel) : List Nat := if k.pair then [t.core, t.core + 1] else [t.core]

/-- The copy engine has written bytes at a location: the team's cores drop the lines of L1 that held them, so that a thread
which acquires its completion at whatever scope reads what it wrote (R189, R192). DEDUCED, unsafe (log 89). -/
def State.dropCopied (s : State) (r : TeamRef) (loc n : Nat) : State :=
  match s.team? r, s.kernel? r.seq with
  | some t, some k => (coresOf t k).foldl (fun s c => (linesOf loc n).foldl (fun s a => s.l1Drop c a) s) s
  | _, _ => s

/-- One add of a request to a counter, a release at the copy's scope (R192, R196): journalled at team scope or
narrower (R327); a poisoned word is consumed and takes no add (R179). The flag says so. DEDUCED, unsafe (log 24). -/
def State.copyAdd (s : State) (q : CopyReq) (at_ : Option (Nat ⊕ Nat)) (inc : BitVec 32) : State × Bool :=
  match at_ with
  | none => (s, false)
  | some (.inl loc) =>
    if (s.poisoned loc 8).isEmpty then
      let s := if q.cmd.scope.toNat ≤ 2 && !q.old then s.journal q.team (.word loc) else s
      ((s.addLoc loc (inc.setWidth 64)).dropCopied q.team loc 8, false)
    else (s, true)
  | some (.inr o) =>
    let s := s.settleLines q.team o 8
    let v := ((s.team? q.team).map fun t => numAt t.scratch o 8).getD 0
    (s.writeScratch q.team o (bytesLE ((BitVec.ofNat 64 v) + inc.setWidth 64).toNat 8) q.old, false)

/-- The team's buffers drain, as though a FENCE.rel at team scope stood there (R192, R193); the flag tells whether every
store has been acknowledged. -/
def State.drainTeam (s : State) (t : Team) (k : Kernel) : State × Bool :=
  let s := (coresOf t k).foldl State.drainHome s
  (s, (coresOf t k).all s.acked)

/-- The place of a request's counter: that found at issue, or found again where a shoot-down has ended its translation
(R174). -/
def State.counterPlace (s : State) (core : Nat) (q : CopyReq) (at_ : Option (Nat ⊕ Nat)) (va : DWord) : Xlate (Option (Nat ⊕ Nat)) :=
  match at_ with
  | some (.inl _) =>
    if q.stale then
      match s.xlate (s.reqSpace core q) .rmw va.toNat with
      | .ok p => .ok (some (.inl p.loc))
      | .fault c r => .fault c r
    else .ok at_
  | _ => .ok at_

/-- A request is ready for a counter add, its buffers drained where the add releases (R196); a counter that does not
translate any more parks the request (R174, R267). -/
inductive AddOut where
  | go (s : State) (at_ : Option (Nat ⊕ Nat))
  | no (s : State)

/-- A counter add that cannot translate, or whose peer no port reaches, parks its request, or halts it (R174, R267, R401). -/
def State.parkAdd (s : State) (core : Nat) (q : CopyReq) (cause reason : Nat) (va : DWord) : AddOut :=
  match s.parkReq core q .counter false cause reason (s.pageUnit (s.reqSpace core q) .rmw va.toNat) va.toNat with
  | some s => .no s
  | none => .no (s.modReq core q.idx fun q => { q with halted := true })

/-- The add's place, with the release before it; its page takes A and D (R173, R401). DEDUCED, unsafe (log 22). -/
def State.readyAdd (s : State) (core : Nat) (q : CopyReq) (at_ : Option (Nat ⊕ Nat)) (va : DWord) : AddOut :=
  let work := s.workCore core q
  if (s.parkedOf core q).any (·.counter) then .no s
  else
    match s.counterPlace core q at_ va with
    | .fault c r => s.parkAdd core q c r va
    | .ok none => .go s none
    | .ok (some p) =>
      let (peer, open_, s) : Bool × Bool × State := match p with
        | .inl loc => (isPeer loc, s.peerOpen loc, s.touch (s.reqSpace core q) .rmw va.toNat)
        | .inr _ => (false, true, s)
      if peer && !s.anyPort then s.parkAdd core q causeAccess 1 va
      else if !open_ then .no s
      else
        let pair := s.pairTeam q.team.seq
        let scope := q.cmd.scope.toNat
        let s := if peer then s.drainHome work else s.release work pair scope
        if (peer || drains pair scope) && !s.acked work then .no s else .go s (some p)

/-! ## Source reads -/

/-- Marks regions that a request has touched, whether or not they are being displaced (R320). -/
def State.claimRegion (s : State) (core i : Nat) (p : Place) : State :=
  match p with
  | .insole o =>
    s.modReq core i fun q =>
      { q with owned := if q.owned.contains (o / regionBytes) then q.owned else o / regionBytes :: q.owned }
  | _ => s

/-- A request's access to an insole region. -/
def State.touchRegion (s : State) (core i : Nat) (p : Place) : State :=
  match p with
  | .insole o => (s.demand o).claimRegion core i p
  | _ => s

/-- Reads one run of a request: `done`, `wait`, or a fault. The flag says that poison was consumed. -/
inductive ReadOut where
  | done (s : State) (consumed : Bool)
  | wait (s : State)
  | fault (unrepairable : Bool) (cause reason unit addr : Nat)

/-- Reads one run. Of a byte-for-byte copy out of an error-tolerant page into memory that carries marks, R179 says both that
the mark travels and that a read of that page yields zeros: the model substitutes and counts. DEDUCED, unsafe (log 83). -/
def State.readRun (s : State) (core : Nat) (q : CopyReq) (num : Nat) (p : Place) (n : Nat) : ReadOut :=
  let keep (s : State) (r : ReadRun) : State := s.modReq core q.idx fun q => { q with reads := q.reads ++ [r] }
  match s.reach core q .copyRead p n with
  | .fault u c r unit a => .fault u c r unit a
  | .wait => .wait (s.claimRegion core q.idx p)
  | .slot _ _ => .wait s
  | .scratch o =>
    let s := s.settleLines q.team o n
    let bad := s.consumes none q.team true [{ pos := 0, len := n, home := .scratch o }]
    .done (keep s { num, bytes := s.scratchRead q.team o n }) bad
  | .mem loc etp =>
    let s := match p with
      | .va a => s.touch (s.reqSpace core q) .copyRead a
      | _ => s.touchRegion core q.idx p
    let s := s.throughSlice loc n false
    let bad := s.poisoned loc n
    let raw := s.bytesAt loc n
    let clean := s.cleaned loc raw
    if bad.isEmpty then .done (keep s { num, bytes := raw }) false
    else if etp == some true then
      let fresh := bad.filter fun x => !q.counted.contains x
      let s := s.modReq core q.idx fun q => { q with counted := q.counted ++ fresh }
      let s := if fresh.isEmpty then s else s.addLaunchCounter q.team.seq 6 fresh.length
      .done (keep s { num, bytes := clean }) false
    else
      let marks := (List.range n).filter fun i => bad.contains ((loc + i) / 32)
      if q.cmd.carries (q.recs.map parseRec) then .done (keep s { num, bytes := raw, poison := marks }) false
      else .done (keep s { num, bytes := clean, poison := marks }) true

/-- A request finds the replay queue full with an element that faults: it halts at that element (R267). -/
def State.haltReq (s : State) (core i : Nat) : State := s.modReq core i fun q => { q with halted := true }

/-- A halted request goes on once an entry of the replay queue is free (R267). DEDUCED, unsafe (log 39). -/
def State.unhalt (s : State) (core i : Nat) : State :=
  match s.req? core i with
  | some q => if (s.core (s.workCore core q)).replay.length < 16 then s.modReq core i fun q => { q with halted := false } else s
  | none => s

/-- A request that has not halted. -/
def State.going (s : State) (core i : Nat) : Option CopyReq := (s.req? core i).filter fun q => !q.halted

/-- Reads every run that has not been read and is not parked. Consumed poison is reported. DEDUCED, unsafe (log 39). -/
def State.readRuns (s : State) (core i : Nat) (runs : List (Nat × Place × Nat)) : State × Bool :=
  runs.foldl (fun (s, bad) (num, p, n) =>
    match s.going core i with
    | none => (s, bad)
    | some q =>
      if q.held.contains num || q.reads.any fun r => r.num == num then (s, bad)
      else
        match s.readRun core q num p n with
        | .done s b => (s, bad || b)
        | .wait s => (s, bad)
        | .fault u c r unit a =>
          match s.parkReq core q (.run num) u c r unit a with
          | some s => (s.modReq core i fun q => { q with held := q.held ++ [num] }, bad)
          | none => (s.haltReq core i, bad)) (s.unhalt core i, false)

/-- The bytes of read runs, in order, and the offsets of poisoned ones. -/
def joinReads (reads : List ReadRun) (nums : List Nat) : List Byte × List Nat :=
  nums.foldl (fun (bs, ps) n =>
    match reads.find? fun r => r.num == n with
    | some r => (bs ++ r.bytes, ps ++ r.poison.map (bs.length + ·))
    | none => (bs, ps)) ([], [])

/-- As `joinReads`, with the runs that have not been read as zeros; and which bytes those are. -/
def joinPartial (reads : List ReadRun) (runs : List (Nat × Place × Nat)) : List Byte × List Nat × List Byte :=
  runs.foldl (fun (bs, ps, un) (num, _, n) =>
    match reads.find? fun r => r.num == num with
    | some r => (bs ++ r.bytes, ps ++ r.poison.map (bs.length + ·), un ++ List.replicate n 0)
    | none => (bs ++ List.replicate n 0, ps, un ++ List.replicate n 0xFF)) ([], [], [])

/-- Source runs of a request, numbered from `first`. -/
def numberRuns (first : Nat) (l : List Run) : List (Nat × Place × Nat) :=
  (cutAll l).zipIdx.map fun ((p, n), i) => (first + i, p, n)

/-- Reads the index list of a CPG or CPS, whose runs are numbered first. -/
def State.readIndex (s : State) (core i : Nat) (q : CopyReq) : State × Bool :=
  if (q.cmd.op == 0xE2 || q.cmd.op == 0xE3) && q.index.isNone then
    let runs := numberRuns 0 [q.cmd.indexRun]
    let (s, bad) := s.readRuns core i runs
    match s.req? core i with
    | some q =>
      if runs.all fun r => q.reads.any fun x => x.num == r.1 then
        (s.modReq core i fun q => { q with index := some (joinReads q.reads (runs.map (·.1))).1 }, bad)
      else (s, bad)
    | none => (s, bad)
  else (s, false)

/-- First number of a request's data runs: that after the index list's. -/
def CopyReq.firstRun (q : CopyReq) : Nat :=
  if q.cmd.op = 0xE2 ∨ q.cmd.op = 0xE3 then (numberRuns 0 [q.cmd.indexRun]).length else 0

/-- The pieces that have become ready now, in order with those that were ready before (R267, R282). -/
def CopyReq.offer (q : CopyReq) (l : List Piece) : CopyReq :=
  let new := l.filter fun p => !q.early.contains p.num
  { q with pieces := sortBy (fun x y => x.num ≤ y.num) (q.pieces ++ new), early := q.early ++ new.map (·.num) }

/-- Some source runs are parked or wait: what depends on none of them goes on (R38, R267). DEDUCED, unsafe (log 39). -/
def State.goOn (s : State) (core i : Nat) (runs : List (Nat × Place × Nat)) : State :=
  match s.req? core i with
  | none => s
  | some q =>
    let recs := q.recs.map parseRec
    let idx := q.index.getD []
    let (data, marks, unread) := joinPartial q.reads runs
    let ps := piecesOf (q.cmd.outputs recs idx data q.staged).1 (if q.cmd.carries recs then marks else [])
    let ready := clearPieces ps (piecesOf (q.cmd.owes recs idx unread) [])
    (s.modReq core i fun q => q.offer ready).refreshPending q.team

/-- COPY_RELEASE_ADD: reads what is left of the source; when every byte has been read, the release add is made,
format errors are counted and the destination's pieces are ready. The flag reports consumed poison. -/
def State.copyRead (s : State) (core i : Nat) : State × Bool :=
  match s.req? core i with
  | none => (s, false)
  | some q =>
    if q.released || q.waitsPhase then (s, false)
    else
      let (s, bad) := s.readIndex core i q
      match s.req? core i with
      | none => (s, bad)
      | some q =>
        if (q.cmd.op == 0xE2 || q.cmd.op == 0xE3) && q.index.isNone then (s, bad)
        else
          let recs := q.recs.map parseRec
          let idx := q.index.getD []
          let runs := numberRuns q.firstRun (q.cmd.sources recs idx)
          let (s, b) := s.readRuns core i runs
          match s.req? core i with
          | none => (s, bad || b)
          | some q =>
            if runs.any fun r => !(q.reads.any fun x => x.num == r.1) then (s.goOn core i runs, bad || b)
            else
              match s.readyAdd core q q.relLoc q.cmd.rel with
              | .no s => (s, bad || b)
              | .go s at_ =>
              let (data, marks) := joinReads q.reads (runs.map (·.1))
              let (outs, errors) := q.cmd.outputs recs idx data q.staged
              let poison := if q.cmd.carries recs then marks else []
              let s := s.modReq core i fun q => { (q.offer (piecesOf outs poison)) with released := true, reads := [] }
              let s := if errors = 0 then s else s.addLaunchCounter q.team.seq 7 errors
              let (s, c) := s.copyAdd q at_ q.cmd.relInc
              (s.refreshPending q.team, bad || b || c)

/-! ## Destination writes -/

/-- Outcome of writing one piece. -/
inductive WriteOut where
  | done (s : State)
  | wait (s : State)
  | fault (unrepairable : Bool) (cause reason unit addr : Nat)

/-- An MMA that took its entry before the request, and reads the slot, has not ended (R235). -/
def State.fillHeld (s : State) (core : Nat) (q : CopyReq) (slot : Nat) : Bool :=
  (s.teamOps (s.engineCore q.team core) q.team).any fun e => e.num < q.mark && (opTiles e.op e.w).contains slot

def State.writePiece (s : State) (core : Nat) (q : CopyReq) (p : Piece) : WriteOut :=
  match s.reach core q .copyWrite p.place p.bytes.length with
  | .fault u c r unit a => .fault u c r unit a
  | .wait => .wait (s.claimRegion core q.idx p.place)
  | .slot k o =>
    if s.fillHeld core q k then .wait s
    else .done ((s.noteFill (s.engineCore q.team core) q.team k o p.bytes).writeSlot q.team k o p.bytes q.old)
  | .scratch _ => .done (s.putScratch q.team p q.old)
  | .mem loc _ =>
    let s := match p.place with
      | .va a => s.touch (s.reqSpace core q) .copyWrite a
      | pl => s.touchRegion core q.idx pl
    let before := s.poisoned loc p.bytes.length
    let s := (s.writeBits loc p.bytes p.mask).dropCopied q.team loc p.bytes.length
    .done (if p.poison then s.poisonCopied before loc p.bytes.length else s)

/-- An earlier piece of the request that writes a byte of this one is not written yet: it waits or is parked (R282). -/
def State.overtakes (s : State) (core : Nat) (q : CopyReq) (p : Piece) : Bool :=
  (q.pieces ++ (s.parkedOf core q).flatMap (·.pieces)).any fun x => decide (x.num < p.num) && x.overlaps p

/-- Writes the pieces of a request that a test picks; faulting ones park, waiting ones stay. DEDUCED, unsafe (log
39). -/
def State.writePieces (s : State) (core i : Nat) (pick : Piece → Bool) : State :=
  match s.req? core i with
  | none => s
  | some q =>
    let drop (s : State) (p : Piece) : State := s.modReq core i fun q => { q with pieces := q.pieces.erase p }
    let s := (q.pieces.filter pick).foldl (fun s p =>
      match s.going core i with
      | none => s
      | some q =>
        if s.overtakes core q p then s
        else
        match s.writePiece core q p with
        | .done s => drop s p
        | .wait s => s
        | .fault u c r unit a =>
          match s.parkReq core q (.piece p) u c r unit a with
          | some s => drop s p
          | none => s.haltReq core i) (s.unhalt core i)
    s.refreshPending q.team

/-- PENDING_BIT_CLEAR: the scratchpad line under way is written. -/
def State.clearLine (s : State) (core i : Nat) : State :=
  match s.req? core i with
  | none => s
  | some q =>
    match q.openLine with
    | some line => s.writePieces core i (pieceIn line)
    | none => s

/-- Completed count of an engine class (R195, R263): the requests of the class, in issue order, before the first that
is not complete. -/
def State.countCopies (s : State) (r : FibreRef) : State :=
  let oldest (remote : Bool) : Option Nat := (s.cores.flatMap fun (_, k) => k.reqs.filterMap fun q =>
    match q.origin with
    | .fibre f pos => if f == r && (q.cmd.op == 0xE6) == remote then some pos else none
    | .entry _ => none).min?
  let count (remote : Bool) (issued : DWord) : DWord := ((oldest remote).map (BitVec.ofNat 64)).getD issued
  s.modFibre r fun f => { f with counts := { f.counts with
    copyC := count false f.counts.copyI, remC := count true f.counts.remI } }

/-- Elements of a request are parked. -/
def State.hasParked (s : State) (core : Nat) (q : CopyReq) : Bool := !(s.parkedOf core q).isEmpty

/-- COPY_COMPLETION: the rest of the destination is written; when nothing is left or parked, the completion add is
made, a schedule entry is counted, a late promise is counted, and the request leaves its entry (R262, R263, R265).
The flag reports consumed poison; the reference is the fibre whose completed count changed. -/
def State.copyFinish (s : State) (core i : Nat) : State × Bool :=
  match s.req? core i with
  | none => (s, false)
  | some q =>
    if !q.released && q.pieces.isEmpty then (s, false)
    else
      let work := s.workCore core q
      let s := s.writePieces core i fun _ => true
      match s.req? core i with
      | none => (s, false)
      | some q =>
        if !q.released || !q.pieces.isEmpty || s.hasParked core q then (s, false)
        else
          match s.readyAdd core q q.compLoc q.cmd.comp with
          | .no s => (s, false)
          | .go s at_ =>
          let (s, bad) := s.copyAdd q at_ q.cmd.compInc
          let s := s.modCore core fun k => { k with reqs := k.reqs.filter fun x => x.idx != i }
          let s := (s.refreshPending q.team).wakeCore work
          match q.origin with
          | .entry _ =>
            let (s, _) := s.copyAdd { q with old := q.old } (some (.inr 8)) 1
            (s.retireTeam q.team, bad)
          | .fibre f _ =>
            let s := if q.promise < s.tick then s.addLaunchCounter q.team.seq 8 1 else s
            ((s.countCopies f).retireTeam q.team, bad)

/-- CPA_READ_PHASE: the rectangle goes to staging once the fibre's operations on its cells that took their entries
before have ended; fibres that wait to release its regions try again (R234, R236). -/
def State.cpaRead (s : State) (core i : Nat) : State :=
  match s.req? core i with
  | none => s
  | some q =>
    match s.team? q.team with
    | none => s
    | some t =>
      let tag := t.tagOr (cpaReg q.cmd)
      let x := cpaRect q.cmd tag
      let before := match q.origin with
        | .fibre f _ => (s.fibreOps t.core f).any fun e => e.num < q.mark && (opWrites t e.op e.w).any x.overlaps
        | .entry _ => false
      if !q.waitsPhase || before then s
      else
        let els := (gridOf (cpaRows q.cmd) (cpaEls q.cmd)).map fun (r, c) => BitVec.ofNat 64 (t.element tag x.r0 x.c0 r c)
        (s.modReq core i fun q => { q with staged := some (tag, els) }).retryEngine t.core

/-! ## Taking an entry (R261, R262) -/

/-- The lowest request-queue entry that is free. -/
def Core.freeReq (k : Core) : Option Nat := (List.range 32).find? fun i => !(k.reqs.any fun q => q.idx == i)

/-- A request takes entry i. A CPZ has no source and makes its release add at once (R286). -/
def State.startCopy (s : State) (core i : Nat) (team : TeamRef) (origin : CopyOrigin) (pc : DWord) (cmd : CopyCmd)
    (ok : CopyOk) (promise : Nat) : State :=
  let q : CopyReq :=
    { idx := i, team, origin, pc, cmd, relLoc := ok.rel, compLoc := ok.comp, promise, recs := ok.recs
      mark := (s.core (s.engineCore team core)).engineSeq }
  let s := s.modCore core fun k => { k with reqs := k.reqs ++ [q] }
  if cmd.op = 0xE7 then (s.copyRead core i).1 else s

/-- The promise of a copy that takes its entry now: any tick from this one on. -/
def State.promise (s : State) : Nat × State :=
  (max s.tick (Config.free s.freeCtr % 2 ^ 64), { s with freeCtr := s.freeCtr + 1 })

/-- A dynamic copy takes an entry: its fibre's issued count rises, the interval may become unsafe (R263, R371). -/
def State.startDynamic (s : State) (core i : Nat) (r : FibreRef) (cmd : CopyCmd) (pc : DWord) (ok : CopyOk) : Nat × State :=
  let (p, s) := s.promise
  let c := ((s.fibre? r).map (·.counts)).getD {}
  let pos := if cmd.op = 0xE6 then c.remI else c.copyI
  let s := s.modFibre r fun f => { f with counts :=
    if cmd.op = 0xE6 then { f.counts with remI := f.counts.remI + 1 } else { f.counts with copyI := f.counts.copyI + 1 } }
  let s := if cmd.op = 0xE6 || 3 ≤ cmd.scope.toNat then s.makeUnsafe r.team else s
  (p, s.startCopy core i r.team (.fibre r pos.toNat) pc cmd ok p)

/-- Entries that waiters have been granted but not taken. -/
def Core.granted (k : Core) : Nat := (k.copyWaiters.filter (·.granted)).length

/-- A fibre's copy may take an entry now: it was granted one, or one is free and nobody waits. -/
def Core.mayTake (k : Core) (r : FibreRef) : Bool :=
  if k.copyWaiters.any fun w => w.fib == some r then k.copyWaiters.any fun w => w.fib == some r && w.granted
  else k.reqs.length + k.granted < 32 && k.copyWaiters.all (·.granted)

/-- Removes a fibre's place among the waiters. -/
def State.leaveQueue (s : State) (core : Nat) (r : FibreRef) : State :=
  s.modCore core fun k => { k with copyWaiters := k.copyWaiters.filter fun w => w.fib != some r }

/-- A fibre's copy finds no entry: it waits from this core cycle on. -/
def State.awaitEntry (s : State) (core : Nat) (r : FibreRef) : State :=
  s.modCore core fun k =>
    if k.copyWaiters.any fun w => w.fib == some r then k
    else { k with copyWaiters := k.copyWaiters ++ [{ team := r.team, fib := some r, k := 0, since := s.coreCycle core }] }

/-! ## Copy schedules (R264 to R266) -/

/-- The team's replay position. -/
def Team.position (t : Team) : Nat := numAt t.scratch 0x10 4

/-- A schedule entry: its gate and, unless it is malformed, its command (Table 14.5). -/
def parseEntry (bs : List Byte) : DWord × Option CopyCmd :=
  let n (o k : Nat) := fieldLE bs o k
  let fm := n 0x0A 2
  let op := n 0x08 1
  let word (o : Nat) : DWord := BitVec.ofNat 64 (n o 8)
  let cmd : CopyCmd :=
    { op, f := BitVec.ofNat 4 (fm / 8), m := BitVec.ofNat 3 fm, scope := BitVec.ofNat 3 (n 9 1), w0 := word 0x28, w1 := word 0x30
      w2 := word 0x38, rel := word 0x10, comp := word 0x18, relInc := BitVec.ofNat 32 (n 0x20 4)
      compInc := BitVec.ofNat 32 (n 0x24 4) }
  let good := ((0xE0 ≤ op && op ≤ 0xE5) || op == 0xE7) && n 9 1 < 8 && fm < 128 && n 0x0C 4 == 0
  (word 0, if good then some cmd else none)

/-- Reserved F and M values of a copy (Tables 15.1 and 15.3). -/
def CopyCmd.formBad (c : CopyCmd) : Bool :=
  let w : Fields := { shortWord true false 0 0 c.f with form := .ext, m := c.m.setWidth 8 }
  let i := copyInfo c.op w
  i.bad9 || (w.f &&& i.fZero) != 0 || (w.m &&& i.mZero) != 0

/-- What the next schedule entry of a team meets. -/
inductive Ready where
  /-- no entry left, or an earlier parked attempt -/
  | no
  /-- a closed gate, or stores of the team that are not acknowledged: the entry has been fetched -/
  | gated (s : State)
  /-- the entry or a record of it lies in a poisoned sector -/
  | consumed
  | park (s : State) (k : Nat) (op : Nat) (unrepairable : Bool) (cause reason unit addr : Nat)
  | go (s : State) (k : Nat) (cmd : CopyCmd) (ok : CopyOk)

/-- Entry k of a team's schedule: as it was fetched when the replay reached it, else fetched now (R265). -/
def State.reachEntry (s : State) (t : Team) (kn : Kernel) (k : Nat) : Except Stop (List Byte × State) :=
  let held := look [] t.schedule k
  if !held.isEmpty then .ok (held, s)
  else
    match s.fetchData (s.spaceOf t.core t.ref.seq) t.ref.seq .copyRead ((kn.sched.toNat + 64 * k) % 2 ^ 64) 64 with
    | .error e => .error e
    | .ok (bs, s) => .ok (bs, s.modTeam t.ref fun t => { t with schedule := put [] t.schedule k bs })

/-- Looks at the next entry of a team's schedule: fetched and its words checked when it is reached, issued once its gate is
satisfied and the team's earlier stores are performed (R193, R264, R265). DEDUCED, unsafe (log 38). -/
def State.nextEntry (s : State) (t : Team) : Ready :=
  match s.kernel? t.ref.seq with
  | none => .no
  | some kn =>
    let k := t.position
    let w := s.spaceOf t.core t.ref.seq
    let parked := s.cores.any fun (_, c) => c.replay.any fun e => e.team == t.ref && e.req.isNone
    if kn.schedCount ≤ k || parked || t.rolling then .no
    else
      match s.reachEntry t kn k with
      | .error (.lodge c r _ a) => .park s k 0 false c r (s.pageUnit w .load (look 0 a 0).toNat) (look 0 a 0).toNat
      | .error _ => .consumed
      | .ok (bs, s) =>
        let (gate, cmd) := parseEntry bs
        match cmd with
        | none => .park s k (fieldLE bs 8 1) true 9 0 0 0
        | some cmd =>
          if cmd.formBad then .park s k cmd.op true 9 0 0 0
          else
            match s.entryStop w t kn cmd with
            | some (.trap c _ _ a) => .park s k cmd.op true c 0 0 (look 0 a 0).toNat
            | _ =>
              if !satisfies (BitVec.ofNat 64 (numAt t.scratch 0 8)) gate then .gated s
              else
                let (s, acked) := s.drainTeam t kn
                if !acked then .gated s
                else
                  match s.checkCopy w t kn cmd with
                  | .error (.trap 11 _ _ _) => .park s k cmd.op false 11 0 0 0
                  | .error (.trap c _ _ a) => .park s k cmd.op true c 0 0 (look 0 a 0).toNat
                  | .error (.lodge c r _ a) => .park s k cmd.op false c r (s.pageUnit w .load (look 0 a 0).toNat) (look 0 a 0).toNat
                  | .error (.team _) => .consumed
                  | .ok ok =>
                    if ok.state.startBad cmd ok && ((ok.state.core t.core).freeReq).isSome then .consumed else .go ok.state k cmd ok

/-- The replay position moves on. -/
def State.advancePosition (s : State) (t : TeamRef) (k : Nat) : State := s.writeScratch t 0x10 (bytesLE ((k + 1) % 2 ^ 32) 8)

/-- A schedule entry takes entry i of the request queue. -/
def State.startEntry (s : State) (t : Team) (i k : Nat) (cmd : CopyCmd) (ok : CopyOk) : State :=
  let s := if 3 ≤ cmd.scope.toNat then s.makeUnsafe t.ref else s
  (s.advancePosition t.ref k).startCopy t.core i t.ref (.entry k) 0 cmd ok 0

/-- SCHEDULE_ENTRY_ISSUE: the next entry of a team issues, waits for a request-queue entry, or parks (R261, R265).
DEDUCED, unsafe (log 38). -/
def State.issueEntry (s : State) (r : TeamRef) : State :=
  match s.team? r with
  | none => s
  | some t =>
    match s.nextEntry t with
    | .no => s
    | .gated s => s
    | .consumed => s
    | .park s k op u c rs unit a => (s.park t.core r (.entry k) op none .whole u c rs unit a).getD s
    | .go s' k cmd ok =>
      let q := s'.core t.core
      let mine (w : CopyWaiter) : Bool := w.team == r && w.fib.isNone
      match q.freeReq with
      | some i =>
        if q.reqs.length + q.granted < 32 && q.copyWaiters.all (fun w => w.granted || mine w) && !(q.copyWaiters.any mine) then
          s'.startEntry t i k cmd ok
        else s'.modCore t.core fun c =>
          if c.copyWaiters.any mine then c
          else { c with copyWaiters := c.copyWaiters ++ [{ team := r, fib := none, k, since := s.coreCycle t.core }] }
      | none => s'.modCore t.core fun c =>
          if c.copyWaiters.any mine then c
          else { c with copyWaiters := c.copyWaiters ++ [{ team := r, fib := none, k, since := s.coreCycle t.core }] }

/-- COPY_REQUEST_START: an entry that has freed goes to the oldest waiter (R261). A fibre then issues its copy again; a
schedule entry takes the entry now. -/
def State.grantEntry (s : State) (core : Nat) : State :=
  let k := s.core core
  match k.copyWaiters.find? fun w => !w.granted, k.freeReq with
  | some w, some i =>
    if 32 ≤ k.reqs.length + k.granted then s
    else
      let change (x : CopyWaiter) : CopyWaiter := if x == w then { x with granted := true } else x
      match w.fib with
      | some r =>
        (s.modCore core fun k => { k with copyWaiters := k.copyWaiters.map change }).modFibre r fun f =>
          if f.hold == .copyQueue then { f with hold := .none } else f
      | none =>
        let s := s.modCore core fun k => { k with copyWaiters := k.copyWaiters.filter fun x => x != w }
        match s.team? w.team with
        | none => s
        | some t =>
          match s.nextEntry t with
          | .no => s
          | .gated s => s
          | .consumed => s
          | .park s k op u c rs unit a => (s.park core w.team (.entry k) op none .whole u c rs unit a).getD s
          | .go s k cmd ok => s.startEntry t i k cmd ok
  | _, _ => s

/-! ## Commands of the lodge core (R268) -/

def State.replay? (s : State) (core e : Nat) : Option ReplayEntry := (s.core core).replay.find? fun x => x.idx == e

/-- REPLAY_RELEASE: the entry empties and its elements go back to their request. -/
def State.replayRelease (s : State) (core e : Nat) : State :=
  match s.replay? core e with
  | none => s
  | some x =>
    let s := (s.modCore core fun k => { k with replay := k.replay.filter fun y => y.idx != e }).wakeCore
      (((s.team? x.team).map (·.core)).getD core)
    match x.req with
    | none => s
    | some (home, i) =>
      let s := s.modReq home i fun q =>
        if q.team == x.team then
          { q with
            held := q.held.filter fun n => !x.runs.contains n
            pieces := sortBy (fun x y => x.num ≤ y.num) (q.pieces ++ x.pieces) }
        else q
      s.refreshPending x.team

/-- REPLAY_TERMINATE. -/
def State.replayTerminate (s : State) (core e : Nat) : State :=
  match s.replay? core e with
  | none => s
  | some x => s.terminate x.team.seq { reason := 3, cause := x.cause }

/-! ## All copies of a team at once (R38, R372) -/

/-- A request's queue entry is marked by an error, which the engine meets once (R375). -/
def State.entryMarked (s : State) (core : Nat) (q : CopyReq) : Bool :=
  ((s.team? q.team).map fun t => t.marked.contains (.copyEntry core q.idx)).getD false

/-- One round over the requests of a team: every request goes as far as it can. Those that consumed poison, or whose entry
is marked, are named (R179, R375). -/
def State.driveCopies (s : State) (r : TeamRef) : State × List CopyReq :=
  s.cores.foldl (fun p (core, k) => (k.reqs.filter fun q => q.team == r).foldl (fun p q =>
    let marked := p.1.entryMarked core q
    let s := p.1.unmark r fun u => u == .copyEntry core q.idx
    let a := (s.cpaRead core q.idx).copyRead core q.idx
    let b := a.1.copyFinish core q.idx
    (b.1, if a.2 || b.2 || marked then p.2 ++ [q] else p.2)) p) (s, [])

/-- A request can go no further by itself: whatever is left of it is parked. -/
def State.copyRests (s : State) (core : Nat) (q : CopyReq) : Bool :=
  !q.halted && s.hasParked core q && !q.waitsPhase && q.pieces.isEmpty &&
    if q.released then true else
      let indexed := q.cmd.op == 0xE2 || q.cmd.op == 0xE3
      let runs := if indexed && q.index.isNone then numberRuns 0 [q.cmd.indexRun]
        else numberRuns q.firstRun (q.cmd.sources (q.recs.map parseRec) (q.index.getD []))
      runs.all fun r => q.held.contains r.1 || q.reads.any fun x => x.num == r.1

/-- Every copy of a team has completed or is parked (R38). -/
def State.copiesRest (s : State) (r : TeamRef) : Bool :=
  s.cores.all fun (core, k) => (k.reqs.filter fun q => q.team == r).all (s.copyRests core)

/-- Requests of a team. -/
def State.teamCopies (s : State) (r : TeamRef) : List (Nat × CopyReq) :=
  s.cores.flatMap fun (core, k) => (k.reqs.filter fun q => q.team == r).map fun q => (core, q)

end Sys2Proof.Machine
end

