-- ==== Sys2Proof/Machine/Rollback.lean ====
section
/-!
DEFINITION. Errors of a team (causes 24 to 26): rollback of a safe interval, else termination (R288, R372, R373).
-/
namespace Sys2Proof.Machine

/-- Writes a journalled unit back (R327, R370). -/
def State.putUnit (s : State) (r : TeamRef) (e : JournalEntry) : State :=
  match e.unit with
  | .vec gid fid n =>
    s.modGroup r gid fun g => e.old.zipIdx.foldl (fun g (v, t) => g.write fid { reg := .vec n t, value := v }) g
  | .line o => s.writeScratch r o (e.old.map (·.setWidth 8)) true
  | .slotUnit k u => s.writeSlot r k (128 * u) (e.old.map (·.setWidth 8)) true
  | .row g i =>
    s.writeCells r (e.old.zipIdx.map fun (v, j) => (64 * (g / 4) + i, 64 * (g % 4) + j, v.setWidth 32)) true
  | .word a => s.writeNum a 8 ((e.old.headD 0).toNat)
  | _ => s

/-- A fibre as its opening record has it: registers of the journalled classes, the time-keeping of R77 and the blocks
in the save pool stay as they are; every engine operation has completed (R327, R369, R372). DEDUCED, unsafe (log 37).
-/
def Fibre.reopen (now rec : Fibre) : Fibre :=
  let c := rec.counts
  { rec with
    v := now.v, taddr := now.taddr, spill := now.spill, hspill := now.hspill
    ccycBase := now.ccycBase, ccycFrom := now.ccycFrom
    counts := { c with copyC := c.copyI, matC := c.matI, remC := c.remI, sysC := c.sysI }
    hold := .none, lodge := none, entering := none, sysc := none, outstanding := [], early := [], ckptBack := true }

/-- A group as its opening record has it. -/
def Group.reopen (g : Group) (o : OpeningGroup) : Group :=
  let fibres := g.fibres.map fun f => match o.fibres.find? fun x => x.fid == f.fid with
    | some x => f.reopen x
    | none => f
  let g := { g with fibres, ss := o.ss, ctr := o.ctr, arrivals := [], watch := 0 }
  let alive (i : Nat) : Bool := ((g.fibre? i).map fun f => !f.exited).getD false
  { g with
    retired := fibres.all (·.exited)
    holder := match g.holder with
      | some h => if alive h then some h else (fibres.find? fun f => !f.exited).map (·.fid)
      | none => (fibres.find? fun f => !f.exited).map (·.fid) }

/-- One rollback more is counted in the open interval, and recorded; past the limit the launch ends (R372). -/
def State.countRollback (s : State) (r : TeamRef) : State :=
  match s.team? r with
  | none => s
  | some t =>
    let n := ((t.interval.map (·.rollbacks)).getD 0) + 1
    let s := s.modTeam r fun t => { t with interval := t.interval.map fun iv => { iv with rollbacks := n } }
    let s := s.logError (colOf t.core) { level := 8, place := t.core, seq := r.seq, team := r.idx, count := n }
    if 8 < n then s.terminate r.seq { reason := 6 } else s

/-- The restoring half of a rollback, once every copy has completed. An error found in the journal restarts it, and is
found again each time, so that the limit ends the launch (R373). DEDUCED, unsafe (log 37); DESIGN CHOICE,
unsafe (log 73). -/
def State.finishRollback (s : State) (r : TeamRef) : State :=
  match s.team? r with
  | none => s
  | some t =>
    match t.interval with
    | none => s.modTeam r fun t => { t with rolling := false }
    | some iv =>
      if t.marked.contains .journal then (List.range 9).foldl (fun s _ => s.countRollback r) s
      else
      let s := s.modTeam r fun t => { t with interval := none, rolling := false }
      let s := iv.entries.foldl (fun s e => s.putUnit r e) s
      let s := s.modTeam r fun t => { t with
        groups := t.groups.map fun g => match iv.groups.find? fun o => o.gid == g.gid with
          | some o => g.reopen o
          | none => g
        tiles := iv.slots, regions := iv.regions, releases := [], claims := []
        marked := t.marked.filter fun u => !(iv.entries.any fun e => e.unit == u)
        interval := some { iv with entries := [], used := 0 } }
      let s := t.groups.foldl (fun s g => g.fibres.foldl (fun s f => writeTables s ⟨r, g.gid, f.fid⟩) s) s
      let s := t.groups.foldl (fun s g => (List.range 4).foldl (fun s c => s.evaluate fun x => x == .slot r g.gid c) s) s
      (s.countRollback r).settleRoutes

/-- A rolling team whose copies have all completed is restored. -/
def State.continueRollback (s : State) (r : TeamRef) : State :=
  match s.team? r with
  | some t => if t.rolling && (s.teamCopies r).isEmpty then s.finishRollback r else s
  | none => s

/-- Every fibre of a team stops at its boundary: none is held in a wait any more (R372). -/
def stopFibres (t : Team) : Team :=
  { t with groups := t.groups.map fun g => { g with fibres := g.fibres.map fun f => { f with hold := .none, entering := none } } }

/-- The fibre that a copy's fault is laid to, and the address of its instruction: none for a schedule entry (R366). -/
def CopyReq.blame (q : CopyReq) : Option FibreRef × DWord :=
  match q.origin with
  | .fibre f _ => (some f, q.pc)
  | .entry _ => (none, 0)

/-- Rollback begins: fibres stop, waits are withdrawn, queued matrix operations complete, copies go as far as they
can, and an error that these consume meanwhile counts as a rollback of its own (R372, R373, R375). -/
def State.startRollback (s : State) (t : Team) : State :=
  let r := t.ref
  let s := s.modTeam r fun t => { stopFibres t with rolling := true }
  let s := s.withdraw (WaitAgent.ofTeam r)
  let s := s.dropCopyWaiters r fun w => w.fib.isSome
  let (s, ops) := s.finishTeamOps t.core r
  let a := s.driveCopies r
  let b := a.1.driveCopies r
  ((ops ++ (a.2 ++ b.2).map CopyReq.blame).foldl (fun s _ => s.countRollback r) b.1).continueRollback r

/-- Cause 24, 25 or 26 reaches a team (R372); one that rolls back starts its rollback again (R373). -/
def State.teamError (s : State) (r : TeamRef) (cause : Nat) (fib : Option FibreRef) (pc : DWord) : State :=
  match s.team? r with
  | none => s
  | some t =>
    if t.rolling then s.countRollback r
    else
      match t.interval with
      | some iv => if iv.unsafeMark then s.terminate r.seq { reason := 5, cause, pc, fib } else s.startRollback t
      | none => s.terminate r.seq { reason := 5, cause, pc, fib }

/-- A step of a copy request may have consumed poison; a rolling team may have finished its copies. -/
def State.afterCopy (p : State × Bool) (q : CopyReq) : State :=
  if p.2 then (p.1.teamError q.team 24 q.blame.1 q.blame.2).continueRollback q.team else p.1.continueRollback q.team

end Sys2Proof.Machine
end

