-- ==== Sys2Proof/Machine/Operands.lean ====
section
/-!
DEFINITION. Operand fetch and result forms: specials (R76, R77), sources at the A, B and C positions in the
per-thread and the uniform form (R61, R62, R111, R112), destinations, and the registers that an instruction
reads (R28, R29).
-/
namespace Sys2Proof.Machine

/-- Thread number that stands for the one evaluation of a U = 1 instruction. DEDUCED, unsafe (log 13). -/
def uniThread : Nat := 64

/-! ## Sources -/

/-- A predicate of a thread as a reader sees it. -/
def readPred (f : Fibre) (n t : Nat) : Bool :=
  match oldValue f (.pred n t) with
  | some v => v.getLsbD 0
  | none => bit (predMask f n) t

/-- Active threads that the guard does not turn off (R63, R146). -/
def guardMask (f : Fibre) (w : Fields) (act : Mask) : Mask :=
  if w.g == 127 then act else maskOf fun t => bit act t && (readPred f w.g.toNat t != w.gn)

/-- The value of a special (Table 4.2). DEDUCED, unsafe (log 27). -/
def special (s : State) (c : Ctx) (n t : Nat) : DWord :=
  let k := c.k
  let i := c.r.team.idx
  BitVec.ofNat 64 (match n with
    | 64 => if t < uniThread then t else lowest c.act
    | 65 => c.r.gid
    | 66 => c.r.fid
    | 67 => k.width
    | 68 => i % k.ntx
    | 69 => i / k.ntx % k.nty
    | 70 => i / (k.ntx * k.nty)
    | 71 => k.ntx
    | 72 => k.nty
    | 73 => k.ntz
    | 74 => c.g.lane
    | 75 => c.core
    | 76 => c.col
    | 77 => s.tick
    | 78 => s.ccyc c.core c.f
    | _ => 0)

/-- A uniform source operand. -/
def uniOperand (s : State) (c : Ctx) (n t : Nat) : DWord := if n < 64 then readUni c.g c.f n else special s c n t

/-- The low 32 bits, zero-extended. -/
def low32 (x : DWord) : DWord := (x.setWidth 32).setWidth 64

/-- A vector register, or a pair as a 64-bit value (R74). -/
def vecOperand (c : Ctx) (wide : Bool) (n t : Nat) : DWord :=
  let lo : DWord := (readVec c.g c.f n t).setWidth 64
  if wide then lo ||| ((readVec c.g c.f (n + 1) t).setWidth 64 <<< 32) else lo

/-- A source field of 32 or 64 bits, uniform or per thread. -/
def source (s : State) (c : Ctx) (wide uni : Bool) (field : BitVec 8) (t : Nat) : DWord :=
  if uni then (if wide then uniOperand s c field.toNat t else low32 (uniOperand s c field.toNat t))
  else vecOperand c wide field.toNat t

/-- The A operand. -/
def srcA (s : State) (c : Ctx) (wide : Bool) (t : Nat) : DWord := source s c wide c.w.u c.w.a t

/-- The B operand: the literal where there is an immediate (R112). -/
def srcB (s : State) (c : Ctx) (wide : Bool) (t : Nat) : DWord :=
  if c.w.hasImm then (if wide then c.w.lit else low32 c.w.lit)
  else source s c wide (c.w.u || c.w.ub) c.w.b t

/-- The C operand. -/
def srcC (s : State) (c : Ctx) (wide : Bool) (t : Nat) : DWord := source s c wide (c.w.u || c.w.uc) c.w.c t

/-! ## Destinations -/

/-- Writes of one thread's 32- or 64-bit value to a vector register or pair. -/
def vecWrites (wide : Bool) (n t : Nat) (v : DWord) : List RegWrite :=
  if wide then [⟨.vec n t, low32 v⟩, ⟨.vec (n + 1) t, v >>> 32⟩] else [⟨.vec n t, low32 v⟩]

/-- A 32-bit result in a uniform register (R111). -/
def extend32 (signed : Bool) (v : DWord) : DWord := if signed then (v.setWidth 32).signExtend 64 else low32 v

/-- The threads that take thread-steps: the participants, or the one evaluation of the uniform form. DEDUCED, unsafe
(log 13). -/
def Ctx.steps (c : Ctx) : List Nat := if c.w.u then [uniThread] else threads c.parts

/-- Writes of a value by thread to the destination D. -/
def Ctx.results (c : Ctx) (wide signed : Bool) (f : Nat → DWord) : List RegWrite :=
  c.steps.flatMap fun t =>
    if c.w.u then [⟨.uni c.w.d.toNat, if wide then f t else extend32 signed (f t)⟩] else vecWrites wide c.w.d.toNat t (f t)

/-- Truth values by thread, to a predicate or as 0 or 1 to a uniform register. -/
def Ctx.truths (c : Ctx) (f : Nat → Bool) : List RegWrite :=
  c.steps.map fun t =>
    let v : DWord := if f t then 1 else 0
    if c.w.u then ⟨.uni c.w.d.toNat, v⟩ else ⟨.pred (c.w.d.toNat % 128) t, v⟩

/-! ## The registers that an instruction reads (R28, R29) -/

/-- A read: register, the field that names it, and its position (0 A, 1 B, 2 C, 3 a predicate of guard or
sequencing). -/
structure Read where
  reg : RegRef
  field : Nat
  pos : Nat
  deriving DecidableEq, Repr

/-- Registers that a source field of a kind reads for a thread. -/
def kindReads (k : Kind) (v : BitVec 8) (t : Nat) : List RegRef :=
  let n := v.toNat
  match k with
  | .vec m => (List.range m).map fun j => .vec (n + j) t
  | .pair => [.vec n t, .vec (n + 1) t]
  | .uniSrc => if n < 64 then [.uni n] else []
  | .uniRun m _ => (List.range m).map fun j => .uni (n + j)
  | .pred m => (List.range m).map fun j => .pred (n % 128 + j) t
  | _ => []

/-- The source thread of GSWZ, none where the thread keeps its own value (R154). -/
def gswzSource (mode c t k : Nat) : Option Nat :=
  let l := t % c
  let base := t - l
  match mode with
  | 0 => some (base + k % c)
  | 1 => if k ≤ l then some (t - k) else none
  | 2 => if l + k < c then some (t + k) else none
  | 3 => some (base + (l ^^^ (k % 64)) % c)
  | _ => some (base + (l + k) % c)

/-- The thread whose register A a participant of GSWZ reads (R154). -/
def gswzFrom (s : State) (c : Ctx) (t : Nat) : Nat :=
  let seg := c.w.m.toNat % 8
  (gswzSource c.w.f.toNat (if seg = 0 then c.k.width else 2 ^ seg) t (srcB s c false t).toNat).getD t

/-- The thread that RDTH and WRTH name (R155). DEDUCED, unsafe (log 27). -/
def namedThread (s : State) (c : Ctx) : Nat := (srcB s c false (lowest c.act)).toNat % c.k.width

/-- Opcodes that read registers of other threads (R154, R155). -/
def crossThread (op : Nat) : Bool := op == 0xA7 || op == 0xA8

/-- Reads of the source fields, where threads `as` read A. RDTH reads its uniform B whichever active threads take part, since
it writes sD without participants too; without active threads it reads nothing (R146, R155, R295). -/
def Ctx.readsWith (c : Ctx) (i : OpInfo) (as : List Nat) : List Read :=
  let ts := if c.w.u then [uniThread] else threads c.parts
  let at_ (ts : List Nat) (k : Kind) (v : BitVec 8) (pos : Nat) : List Read :=
    ts.flatMap fun t => (kindReads k v t).map fun r => (⟨r, v.toNat, pos⟩ : Read)
  at_ as i.a c.w.a 0 ++ at_ (if c.op == 0xA8 && c.act != 0 then [uniThread] else ts) i.b c.w.b 1 ++ at_ ts i.c c.w.c 2

/-- The registers whose outstanding results an instruction waits for: GSWZ and RDTH wait for A of every thread (R29,
R154). -/
def Ctx.fieldReads (c : Ctx) (i : OpInfo) : List Read :=
  c.readsWith i (if crossThread c.op && c.act != 0 then List.range c.k.width else if c.w.u then [uniThread] else threads c.parts)

/-- The reads that an instruction makes: GSWZ reads A of its participants' source threads, RDTH that of one thread
(R28, R154, R155). -/
def Ctx.madeReads (s : State) (c : Ctx) (i : OpInfo) : List Read :=
  c.readsWith i
    (if c.op == 0xA7 then (threads c.parts).map (gswzFrom s c)
     else if c.op == 0xA8 && c.act != 0 then [namedThread s c]
     else if c.w.u then [uniThread] else threads c.parts)

/-- Reads of the guard and of sequencing, by every active thread (R63, R68). -/
def Ctx.flowReads (c : Ctx) : List Read :=
  let preds (n : Nat) : List Read := (threads c.act).map fun t => ⟨.pred n t, n, 3⟩
  (if c.w.g == 127 then [] else preds c.w.g.toNat) ++
    (match c.w.seq.toNat with
      | 2 => if fld c.w.x 9 8 = 3 then [⟨.uni (fld c.w.x 6 0), fld c.w.x 6 0, 3⟩] else preds (fld c.w.x 6 0)
      | 3 => preds (fld c.w.x 6 0)
      | 4 => [⟨.uni (fld c.w.x 5 0), fld c.w.x 5 0, 3⟩]
      | _ => [])

/-- Outstanding results of the fibre that some of these reads need. -/
def outstandingFor (f : Fibre) (rs : List Read) : List Nat :=
  if f.outstanding.isEmpty then []
  else f.outstanding.filterMap fun p =>
    if p.writes.any fun w => rs.any fun r => r.reg == w.reg then some p.id else none

/-- The first read made too early, in operand order (R28). DEDUCED, unsafe (log 13, 27). -/
def earlyRead (f : Fibre) (rs : List Read) : Option Read :=
  if f.early.isEmpty then none else rs.find? fun r => f.early.any fun e => e.reg == r.reg

end Sys2Proof.Machine
end

