-- ==== Sys2Proof/Machine/Flags.lean ====
section
/-!
DEFINITION. Condition codes of integer compares (R120), carries and borrows (R119), and FFLAGS (R82).
-/
namespace Sys2Proof.Machine

/-- Condition of ICMP and ICMP2 on exact values (Table 6.3). -/
def intCondition (cc : Nat) (a b : Int) : Bool :=
  match cc with
  | 0 => a == b
  | 1 => a != b
  | 2 => a < b
  | 3 => a ≤ b
  | 4 => b < a
  | _ => b ≤ a

/-- The carry out of an addition of n-bit values. -/
def carryOut (n a b c : Nat) : Bool := 2 ^ n ≤ a + b + c

/-- The borrow out of a subtraction. -/
def borrowOut (a b c : Nat) : Bool := a < b + c

/-- The union of the flags of all thread-steps. -/
def orFlags (l : List Flags) : Flags := l.foldl (· ||| ·) 0

/-- FFLAGS takes the flags of a result that is written (R82). -/
def Fibre.raise (f : Fibre) (x : Flags) : Fibre := { f with fflags := f.fflags ||| x }

end Sys2Proof.Machine
end

