-- ==== Sys2Proof/Machine/Issue.lean ====
section
/-!
DEFINITION. How a compute instruction issues: context, interlocks and checks in their order (R28, R29, R71,
R356), its effect, the hash (R299), results (R27 to R29, R75), sequencing (R296, R297), lane time (R26) and
slot passing (R21).
-/
namespace Sys2Proof.Machine

/-! ## What an instruction does -/

/-- A transfer of control: what becomes of the fibre, how many split entries it makes, registers that
sequencing writes, and the address (with a change of FSIG) at which an undivided split goes on. -/
structure Flow where
  run : Fibre → SplitEnd
  kids : Nat := 0
  writes : List RegWrite := []
  dest : Option (DWord × (Word → Word)) := none

/-- An instruction that issues: the state after its own effect, its fixed-latency and variable-latency results,
and how the fibre goes on. -/
structure Done where
  s : State
  fixed : List RegWrite := []
  /-- fixed latency of its class (Table 1.2) -/
  lat : Nat := 4
  later : Option (List RegWrite) := none
  flags : BitVec 5 := 0
  remote : List (Nat × Bool) := []
  /-- of a load of peers' bytes (R401) -/
  reload : Option Reload := none
  /-- SIGCK is not hashed (R299) -/
  hashed : Bool := true
  /-- after the hash -/
  after : Fibre → Fibre := id
  /-- transfers control itself, or waits -/
  flow : Option Flow := none
  /-- a yield point (R30) -/
  point : Bool := false
  /-- YIELD: the slot passes (R302) -/
  pass : Bool := false
  /-- cannot proceed: its split or its fibre waits, which under `ys` hands the slot off (R21) -/
  parks : Bool := false

/-- The outcome of an instruction's body. -/
inductive Effect where
  | done (d : Done)
  /-- no effect: a trap, a fault of the lodge core, or an error of the team -/
  | stop (x : Stop)
  /-- cannot proceed (R21): the fibre is held -/
  | held (s : State) (h : Hold)
  /-- cannot proceed until outstanding results arrive -/
  | stalled (ids : List Nat)
  /-- cannot proceed until the remote stores of some cores are acknowledged (R196, R220) -/
  | unacked (s : State) (cores : List Nat)

/-! ## Context -/

/-- The launch's privilege (R354). -/
def State.privileged (s : State) (seq : Nat) : Bool := ((s.launch? seq).map (·.privileged)).getD false

/-- The scoreboard checks of a fibre are on (R28, R80). -/
def checking (s : State) (k : Kernel) (core : Nat) : Bool := k.check || (s.core core).chk

/-- A fibre that can issue now: its context for an instruction. -/
def State.context (s : State) (r : FibreRef) (op : Nat) (w : Fields) (word : Word) : Option Ctx :=
  match s.launch? r.team.seq, s.group? r, s.fibre? r with
  | some l, some g, some f =>
    if f.exited || f.lodge.isSome || f.hold != .none || f.entering.isSome then none
    else
      let f := f.choose
      match f.run? with
      | some x =>
        some { r, core := g.core, asid := l.asid, root := l.root, k := l.kernel, g, f, x, op, w, word, pc := x.pc
               parts := guardMask f w x.mask }
      | none => none
  | _, _, _ => none

/-- What reasons 8 to 10 read of the state (R72). -/
def Ctx.env (s : State) (c : Ctx) : DecodeEnv :=
  { privWindow := ((c.k.fibres[c.r.fid]?).map (·.priv)).getD 0, sharedWindow := c.k.shared, width := c.k.width
    privileged := s.privileged c.r.team.seq }

/-- Stores a fibre. -/
def State.setFibre (s : State) (r : FibreRef) (f : Fibre) : State := s.modFibre r fun _ => f

/-! ## Lane time (R26) -/

/-- FP64 arithmetic (R26). -/
def isDouble (op : Nat) (w : Fields) : Bool :=
  (0x78 ≤ op && op ≤ 0x83) || (op == 0x90 && (w.m.toNat % 32 == 11 || w.x.toNat % 32 == 11))

/-- H. -/
def holdCycles (op : Nat) (w : Fields) (act : Mask) : Nat :=
  let a := if w.u then 1 else countMask act
  max (if isDouble op w then 2 * a else a) (8 + 2 * w.stl.toNat)

def Ctx.hold (c : Ctx) : Nat := holdCycles c.op c.w c.act

/-- The lane is held from now on; the slot's starvation count returns to zero (R24 to R26). -/
def State.holdLane (s : State) (g : Group) (h : Nat) : State :=
  s.modLane g.core g.lane fun _ => { last := some g.slot, busy := s.coreCycle g.core + h }

def State.issued (s : State) (c : Ctx) (h : Nat) : State :=
  (s.holdLane c.g h).modGroup c.r.team c.r.gid fun g => { g with starve := 0, raised := false }

/-- The slot of an instruction that cannot proceed passes on if it carries `ys` and its fibre is not ready (R21, R292).
DEDUCED, unsafe (log 16). -/
def State.handOff (s : State) (c : Ctx) : State :=
  match s.fibre? c.r with
  | some f => if c.w.y && !f.ready then s.passSlot c.r (!f.live) else s
  | none => s

/-! ## Sequencing (R296, R297) -/

/-- Address of the following instruction. -/
def Ctx.next (c : Ctx) : DWord := c.pc + BitVec.ofNat 64 (4 * c.w.form.words)

def Ctx.sige (c : Ctx) : Bool := c.k.signatures

/-- Signature of a split that starts at an address whose reconvergence address is rc. -/
def startSig (rc x : DWord) : Word := if x == rc then joinSig else 0

/-- The running split goes on at an address, with a change of FSIG. -/
def goFlow (sige : Bool) (x : DWord) (sig : Word → Word := id) : Flow :=
  { run := fun f => { f with fsig := sig f.fsig }.goTo sige x, dest := some (x, sig) }

/-- The threads of the running split for which a predicate, perhaps negated, is 1. -/
def Ctx.where_ (c : Ctx) (n : Nat) (neg : Bool) : Mask := maskOf fun t => bit c.act t && (readPred c.f n t != neg)

/-- A signed word offset of the literal (R297). -/
def litOffset (lit : BitVec 64) (hi : Bool) : DWord :=
  wordOffset (if hi then lit.extractLsb' 32 32 else lit.extractLsb' 0 32)

/-- GOIF's condition (R68, R296). -/
def Ctx.goif (c : Ctx) : Bool :=
  let neg := c.w.x.getLsbD 7
  let n := fld c.w.x 6 0
  let v := c.where_ n neg
  match fld c.w.x 9 8 with
  | 0 => v != 0
  | 1 => v == c.act
  | 2 => v == 0
  | _ => (readUni c.g c.f n != 0) != neg

/-- The threads that take SPLIT's branch (R297). -/
def Ctx.taken (c : Ctx) : Mask := c.where_ (fld c.w.x 6 0) (c.w.x.getLsbD 7)

/-- SPLIT with the threads that take its branch: two children, or an undivided split that goes on (R297). -/
def Ctx.divideBy (c : Ctx) (yes : Mask) : Flow :=
  let yes := yes &&& c.act
  let no := c.act &&& ~~~yes
  let tgt := c.pc + litOffset c.w.lit false
  let rc := c.pc + litOffset c.w.lit true
  let go (x : DWord) : Flow := goFlow c.sige x fun _ => startSig rc x
  if yes == 0 then go c.next
  else if no == 0 then go tgt
  else
    { run := fun f => f.divide c.sige false rc rc
        [{ mask := no, pc := c.next, sig := startSig rc c.next }, { mask := yes, pc := tgt, sig := startSig rc tgt }]
      kids := 2 }

/-- The flow that the sequencing selector gives. Its inputs are read before the instruction's writes (R68). -/
def Ctx.sequence (c : Ctx) : Flow :=
  match c.w.seq.toNat with
  | 1 => goFlow c.sige (c.pc + wordOffset c.w.x)
  | 2 => goFlow c.sige (if c.goif then c.pc + wordOffset (c.w.x.extractLsb' 10 16) else c.next)
  | 3 => c.divideBy c.taken
  | 4 =>
    let n := fld c.w.x 5 0
    let v := readUni c.g c.f n - 1
    { goFlow c.sige (if v != 0 then c.pc + wordOffset (c.w.x.extractLsb' 6 20) else c.next) with writes := [⟨.uni n, v⟩] }
  | _ => goFlow c.sige c.next

/-- Sequencing takes effect and the split that runs then stops: one that stands at its reconvergence address
arrives when it is next chosen (R302, R303). Under SPLIT the child that would run first stops, and carries YLD or SLP, and
the other is ready. DEDUCED, unsafe (log 18); DESIGN CHOICE, unsafe (log 96). -/
def Ctx.suspendFlow (c : Ctx) (st : SplitState) (g : Split → Split) : Flow :=
  let q := c.sequence
  { q with run := fun f =>
      match q.dest with
      | some (x, sig) => .ok ({ f with fsig := sig f.fsig }.suspend st fun y => g { y with pc := x, again := false })
      | none =>
        match q.run f with
        | .ok f => .ok (f.suspend st g)
        | e => e }

/-! ## After the effect -/

/-- What a change of the split table ends in: the fibre goes on with its next split, exits, or meets cause 25 or
26 (R292 to R295). -/
def State.endSplits (s : State) (r : FibreRef) (sige : Bool) (pc : DWord) (e : SplitEnd) : State :=
  let e := match e with
    | .ok f => f.settle sige 256
    | e => e
  match e with
  | .ok f => writeSpilled (s.setFibre r f) r
  | .exited f => (s.setFibre r f).exitFibre r
  | .error cause _ => s.teamError r.team cause (some r) pc

/-- The issue distance of active threads and of the uniform stream grows by h (R28). -/
def Fibre.advance (f : Fibre) (act : Mask) (h : Nat) : Fibre :=
  if f.early.isEmpty then f
  else
    let mine (e : Early) : Bool := match e.reg with
      | .vec _ t => bit act t
      | .pred _ t => bit act t
      | .uni _ => true
    { f with early := f.early.filterMap fun e =>
        if mine e then (if e.left ≤ h then none else some { e with left := e.left - h }) else some e }

/-- Floating-point and conversion instructions, and folds of floating-point types, raise flags (R82, R156). -/
def raisesFlags (op : Nat) (w : Fields) : Bool :=
  (0x60 ≤ op && op ≤ 0x92) || ((op == 0xAA || op == 0xAB) && (w.m.toNat % 32 == 10 || w.m.toNat % 32 == 11))

/-- Results of an issued instruction take their way to the registers. Flags of a fixed-latency result that lands after the
instruction's own hold are raised when it lands (R82, R132). -/
def State.deliver (s : State) (c : Ctx) (d : Done) : State :=
  let h := c.hold
  let s := s.modFibre c.r fun f => f.advance c.act h
  let s := if d.fixed.isEmpty then s else s.produce c.r d.fixed (d.lat - h) (s.coreCycle c.core + d.lat)
  match d.later, d.remote with
  | some ws, _ => s.expect c.r ws d.flags d.remote (raisesFlags c.op c.w) none c.pc d.reload
  | none, [] =>
    if raisesFlags c.op c.w && decide (h < d.lat) then
      s.expect c.r [] d.flags [] true (some (s.coreCycle c.core + d.lat)) c.pc
    else s.modFibre c.r fun f => f.raise d.flags
  | none, _ => (s.expect c.r [] 0 d.remote false none c.pc).modFibre c.r fun f => f.raise d.flags

/-- The fibre's signature after an instruction (R299). -/
def Ctx.hashInto (c : Ctx) (d : Done) (f : Fibre) : Fibre :=
  d.after (if d.hashed && !c.x.again then { f with fsig := hash f.fsig c.word } else f)

/-- A spill block for the entries that a flow makes, if they would leave the hardware (R291). -/
def roomFor (s : State) (c : Ctx) (kids : Nat) : Option State :=
  if kids != 0 && wouldSpill c.f.splits kids then needSpill s c.r c.col else some s

/-- An instruction issues. -/
def State.finishIssue (s : State) (c : Ctx) (d : Done) : State :=
  let fl := d.flow.getD c.sequence
  match roomFor d.s c fl.kids with
  | none => (s.modFibre c.r fun f => { f with hold := .savePool }).handOff c
  | some t =>
    let t := t.modFibre c.r fun f => { c.hashInto d f with replays := 0 }
    let t := t.deliver c d
    let t := if fl.writes.isEmpty then t else t.commit c.r fl.writes
    let t := match t.fibre? c.r with
      | some f => t.endSplits c.r c.sige c.pc (fl.run f)
      | none => t
    let t := t.issued c c.hold
    let t := if d.point then t.yieldPoint c.r else t
    if d.pass then t.passSlot c.r false else if d.parks then t.handOff c else t

/-- A handler cause, a fault of the lodge core or an error of the team (R26, R357, R359, R372). The stop counts as the
slot's issue: the rotation goes on from it and its starvation count returns to zero, of which R24 to R26 say nothing.
DESIGN CHOICE, unsafe (log 70). -/
def State.stopIssue (s : State) (c : Ctx) (x : Stop) : State :=
  let decoded := opAssigned c.op && (encodingReason c.op c.w (some (c.env s))).isNone
  let s := (s.issued c (holdCycles (if decoded = true then c.op else 0) c.w c.act)).leaveQueue c.core c.r
  match (if c.w.u then x.uniform c.act else x) with
  | .trap cause info mask addrs => s.takeTrap c.r { cause, info, mask, addrs, pc := c.pc }
  | .lodge cause reason mask addrs =>
    s.freeze c.r { cause, reason, op := c.op, mask, addrs, pc := c.pc, first := ((addrs.head?).map (·.2)).getD 0 }
  | .team cause => s.teamError c.r.team cause (some c.r) c.pc

/-- The running split parks at its instruction; another ready split of the fibre runs (R21, R292). -/
def State.parkSplit (s : State) (c : Ctx) (p : Park) : State :=
  match s.fibre? c.r with
  | some f =>
    let f := f.suspend .parked fun x => { x with park := p }
    (s.endSplits c.r c.sige c.pc (.ok f)).handOff c
  | none => s

/-- The running split stalls on outstanding results (R29). -/
def State.stall (s : State) (c : Ctx) (ids : List Nat) : State := s.parkSplit c (.results ids)

/-- The running split waits until the remote stores of some cores are acknowledged, as for a variable-latency result
(R196, R220). For a release the spec does not say whether its split or its fibre waits. DESIGN CHOICE, unsafe (log 87).
-/
def State.awaitAcks (s : State) (c : Ctx) (cores : List Nat) : State := s.parkSplit c (.acks cores)

/-- The fibre is held at an instruction that cannot proceed. -/
def State.holdFibre (s : State) (c : Ctx) (h : Hold) : State :=
  let s := s.modFibre c.r fun f => { f with hold := h }
  (if h == .checkpoint then s.openIfArrived c.r.team else s).handOff c

/-- A remote request of a class that moves to another port stalls (R401). -/
def State.moves (s : State) (q : List (Nat × Bool)) : Bool := q.any fun x => s.classMoves (classOf x.1)

/-- The outcome of a body takes effect; a stalled remote request has none yet. -/
def State.apply (s : State) (c : Ctx) (e : Effect) : State :=
  match e with
  | .done d => if s.moves d.remote then s.holdFibre c .fabric else s.finishIssue c d
  | .stop x => s.stopIssue c x
  | .held s h => s.holdFibre c h
  | .stalled ids => s.stall c ids
  | .unacked s cores => s.awaitAcks c cores

/-- A register that is read, or the entry of the split that reads it, is marked by an uncorrectable error (R375). -/
def readsMarked (s : State) (c : Ctx) (rs : List Read) : Bool :=
  match s.team? c.r.team with
  | some t =>
    !t.marked.isEmpty && (t.marked.contains (.split c.r.gid c.r.fid c.x.idx) || rs.any fun r =>
      let own := ownerOf c.r r.reg
      t.marked.contains (match r.reg with
        | .vec n _ => .vec c.r.gid own n
        | .uni n => .uni c.r.gid own n
        | .pred n _ => .pred c.r.gid own n))
  | none => false

/-- The threads whose registers, read at the position of a first early read, are read too early: for GSWZ and RDTH the
source threads, of which R28 and R357 do not tell whether they or the readers met the cause. DESIGN CHOICE, unsafe (log
71). -/
def earlyThreads (c : Ctx) (r : Read) (rs : List Read) : Mask :=
  let thread (x : Read) : Option Nat := match x.reg with
    | .vec _ t => some t
    | .pred _ t => some t
    | .uni _ => none
  if (thread r).isNone then c.parts
  else
    let bad := rs.filter fun x => x.pos == r.pos && c.f.early.any fun e => e.reg == x.reg
    maskOf fun t => bad.any fun x => thread x == some t

/-- An instruction that a fibre's context fits: interlocks, a stall-count violation, decoding, then its body
(R28, R29, R71, R356). -/
def State.issueIn (s : State) (c : Ctx) (body : Ctx → State → Effect) : State :=
  let i := opInfo c.op c.w (some c.k.width)
  let waits := outstandingFor c.f (c.fieldReads i ++ c.flowReads)
  let rs := c.madeReads s i ++ c.flowReads
  if !waits.isEmpty then s.stall c waits
  else
    match (if checking s c.k c.core then earlyRead c.f rs else none) with
    | some r => s.stopIssue c (.trap 4 (BitVec.ofNat 64 (r.field + 256 * r.pos)) (earlyThreads c r rs) [])
    | none =>
      match encodingReason c.op c.w (some (c.env s)) with
      | some reason => s.stopIssue c (.trap 2 (BitVec.ofNat 64 (reason + 256 * c.op)) c.act [])
      | none => if readsMarked s c rs then s.stopIssue c (.team 24) else s.apply c (body c s)

/-- Issues an instruction of the fibre that holds the turn; without one nothing happens. -/
def State.issue (s : State) (op : Nat) (w : Fields) (body : Ctx → State → Effect) :
    Host.Outcome State Fault Refusal :=
  match s.cur with
  | none => .next s
  | some r =>
    match s.context r op w (firstWord (BitVec.ofNat 8 op) w) with
    | none => .next s
    | some c => .next ((s.setFibre r c.f).issueIn c body)

/-- A body without effect beyond its hash and sequencing. DEDUCED, safe (log 10). -/
def noEffect (s : State) : Effect := .done { s }

/-- The traps of a word that does not decode (R71, R72). -/
def illegalBody (bits : BitVec 160) (c : Ctx) (s : State) : Effect :=
  let op := (opOf bits).toNat
  if opAssigned op then
    match encodingReason op (fieldsOf bits) (some (c.env s)) with
    | some r => .stop (.trap 2 (BitVec.ofNat 64 (r + 256 * op)) c.act [])
    | none => .done { s }
  else .stop (.trap 1 (BitVec.ofNat 64 (256 * op)) c.act [])

/-- A word that does not decode. One of an assigned opcode names registers, and a read of them that comes too early is
raised first (R28, R356). DEDUCED, unsafe (log 72). -/
def State.issueIllegal (s : State) (bits : BitVec 160) : Host.Outcome State Fault Refusal :=
  match s.cur with
  | none => .next s
  | some r =>
    match s.context r (opOf bits).toNat (fieldsOf bits) (bits.extractLsb' 0 32) with
    | none => .next s
    | some c =>
      let t := s.setFibre r c.f
      .next (if opAssigned c.op then t.issueIn c (illegalBody bits) else t.apply c (illegalBody bits c t))

end Sys2Proof.Machine
end

