-- ==== Sys2Proof/Machine/Integer.lean ====
section
/-!
DEFINITION. Integer instructions, opcodes 0x20 to 0x30 (R110 to R121).
-/
namespace Sys2Proof.Machine

/-! ## Shared forms -/

/-- 64-bit type (Table 3.5). -/
def Fields.wide (w : Fields) : Bool := w.m.getLsbD 5
/-- An .i type. -/
def Fields.signed (w : Fields) : Bool := !w.m.getLsbD 4
def Fields.sat (w : Fields) : Bool := w.m.getLsbD 3
/-- Width of an integer type. -/
def Fields.bits (w : Fields) : Nat := if Fields.wide w then 64 else 32

/-- Exact operands of a thread: val(A), val(B), val(C). -/
def valA (s : State) (c : Ctx) (t : Nat) : Int := toInt (Fields.signed c.w) (Fields.bits c.w) (srcA s c (Fields.wide c.w) t).toNat
def valB (s : State) (c : Ctx) (t : Nat) : Int := toInt (Fields.signed c.w) (Fields.bits c.w) (srcB s c (Fields.wide c.w) t).toNat
def valC (s : State) (c : Ctx) (t : Nat) : Int := toInt (Fields.signed c.w) (Fields.bits c.w) (srcC s c (Fields.wide c.w) t).toNat

/-- Bits of a result under the type of the instruction. -/
def intBits (w : Fields) (sat : Bool) (v : Int) : DWord := BitVec.ofNat 64 (narrow sat (Fields.signed w) (Fields.bits w) v)

/-- Writes D by thread, an integer result of the instruction's type. -/
def intResults (c : Ctx) (f : Nat → DWord) : List RegWrite := c.results (Fields.wide c.w) (Fields.signed c.w) f

/-- Two-source arithmetic: the exact result, under res(). -/
def intTwo (f : Int → Int → Int) (c : Ctx) (s : State) : Effect :=
  .done { s, fixed := intResults c fun t => intBits c.w (Fields.sat c.w) (f (valA s c t) (valB s c t)) }

/-- Three-source arithmetic. -/
def intThree (f : Int → Int → Int → Int) (c : Ctx) (s : State) : Effect :=
  .done { s, fixed := intResults c fun t => intBits c.w (Fields.sat c.w) (f (valA s c t) (valB s c t) (valC s c t)) }

/-- One-source arithmetic. -/
def intOne (f : Int → Int) (c : Ctx) (s : State) : Effect :=
  .done { s, fixed := intResults c fun t => intBits c.w (Fields.sat c.w) (f (valA s c t)) }

/-- Truncated quotient and remainder with R92's results for a zero divisor. -/
def quotientOf (a b : Int) : Int := if b = 0 then -1 else Int.tdiv a b
def remainderOf (a b : Int) : Int := if b = 0 then a else Int.tmod a b

/-- IDIV: the quotient by zero is all ones and is not clamped. -/
def divBits (w : Fields) (a b : Int) : DWord := if b = 0 then intBits w false (-1) else intBits w (Fields.sat w) (quotientOf a b)

/-- Division: a variable-latency result (R118). -/
def intDivide (f : Int → Int → DWord) (c : Ctx) (s : State) : Effect :=
  .done { s, later := some (intResults c fun t => f (valA s c t) (valB s c t)) }

/-- The carry or borrow in (R119). -/
def carryIn (c : Ctx) (t : Nat) : Nat :=
  if c.w.u then (readUni c.g c.f c.w.c.toNat).toNat % 2 else if readPred c.f (c.w.c.toNat % 128) t then 1 else 0

/-- Carry chains: D takes the wrapped value, C the carry or borrow out (R119). DEDUCED, unsafe (log 41). -/
def intCarry (value : Nat → Nat → Nat → Int) (out : Nat → Nat → Nat → Bool) (c : Ctx) (s : State) : Effect :=
  let wide := Fields.wide c.w
  let a (t : Nat) := (srcA s c wide t).toNat
  let b (t : Nat) := (srcB s c wide t).toNat
  let carries := c.steps.map fun t =>
    let v : DWord := if out (a t) (b t) (carryIn c t) then 1 else 0
    if c.w.u then (⟨.uni c.w.c.toNat, v⟩ : RegWrite) else ⟨.pred (c.w.c.toNat % 128) t, v⟩
  .done { s, fixed := (intResults c fun t => intBits c.w false (value (a t) (b t) (carryIn c t))) ++ carries }

/-- IMADW (R117): 32-bit factors, 64-bit addend and result. -/
def intMadw (c : Ctx) (s : State) : Effect :=
  let sg := Fields.signed c.w
  let v (t : Nat) : Int := toInt sg 32 (srcA s c false t).toNat * toInt sg 32 (srcB s c false t).toNat +
    toInt sg 64 (srcC s c true t).toNat
  .done { s, fixed := c.results true sg fun t => BitVec.ofNat 64 (narrow (Fields.sat c.w) sg 64 (v t)) }

/-- ICMP (R120). -/
def intCompare (c : Ctx) (s : State) : Effect :=
  .done { s, fixed := c.truths fun t => intCondition c.w.f.toNat (valA s c t) (valB s c t) }

/-- LEA (R121): the literal is the displacement, never the index. -/
def leaBody (c : Ctx) (s : State) : Effect :=
  let w := c.w
  let idx (t : Nat) : Int :=
    toInt (Fields.signed w) (Fields.bits w) (source s c (Fields.wide w) (w.u || w.ub) w.b t).toNat
  let disp : Int := if w.hasImm then toInt true 64 w.lit.toNat else 0
  let v (t : Nat) : Int := ((srcA s c true t).toNat : Int) + idx t * 2 ^ w.f.toNat + disp
  .done { s, fixed := c.results true false fun t => BitVec.ofNat 64 (wrapInt 64 (v t)) }

/-! ## Meanings -/

def execIadd (w : Fields) (s : State) := s.issue 0x20 w (intTwo fun a b => a + b)
def execIsub (w : Fields) (s : State) := s.issue 0x21 w (intTwo fun a b => a - b)
def execIaddc (w : Fields) (s : State) :=
  s.issue 0x22 w fun c s => intCarry (fun a b k => (a : Int) + b + k) (carryOut (Fields.bits c.w)) c s
def execIsubb (w : Fields) (s : State) := s.issue 0x23 w (intCarry (fun a b k => (a : Int) - b - k) borrowOut)
def execImul (w : Fields) (s : State) := s.issue 0x24 w (intTwo fun a b => a * b)
def execImulh (w : Fields) (s : State) := s.issue 0x25 w fun c s => intTwo (fun a b => a * b / 2 ^ Fields.bits c.w) c s
def execImad (w : Fields) (s : State) := s.issue 0x26 w (intThree fun a b d => a * b + d)
def execImadw (w : Fields) (s : State) := s.issue 0x27 w intMadw
def execIdiv (w : Fields) (s : State) := s.issue 0x28 w fun c s => intDivide (divBits c.w) c s
def execIrem (w : Fields) (s : State) :=
  s.issue 0x29 w fun c s => intDivide (fun a b => intBits c.w false (remainderOf a b)) c s
def execImin (w : Fields) (s : State) := s.issue 0x2A w (intTwo fun a b => if a ≤ b then a else b)
def execImax (w : Fields) (s : State) := s.issue 0x2B w (intTwo fun a b => if a ≥ b then a else b)
def execIabs (w : Fields) (s : State) := s.issue 0x2C w (intOne fun a => |a|)
def execIabsShort (a d : BitVec 8) (u y : Bool) (s : State) := s.issue 0x2C (shortWord u y a d 0) (intOne fun a => |a|)
def execIneg (w : Fields) (s : State) := s.issue 0x2D w (intOne fun a => -a)
def execInegShort (a d : BitVec 8) (u y : Bool) (s : State) := s.issue 0x2D (shortWord u y a d 0) (intOne fun a => -a)
def execIsad (w : Fields) (s : State) := s.issue 0x2E w (intThree fun a b d => |a - b| + d)
def execIcmp (w : Fields) (s : State) := s.issue 0x2F w intCompare
def execLea (w : Fields) (s : State) := s.issue 0x30 w leaBody

end Sys2Proof.Machine
end

