-- ==== Sys2Proof/Machine/Bit.lean ====
section
/-!
DEFINITION. Bit instructions, opcodes 0x40 to 0x51 (R122 to R126).
-/
namespace Sys2Proof.Machine

/-! ## Shared forms -/

/-- `.w64`: M[5:4] = 01. -/
def Fields.w64 (w : Fields) : Bool := w.m.getLsbD 4
def Fields.wbits (w : Fields) : Nat := if Fields.w64 w then 64 else 32

/-- Operands of a thread as unsigned numbers. -/
def bitA (s : State) (c : Ctx) (t : Nat) : Nat := (srcA s c (Fields.w64 c.w) t).toNat
def bitB (s : State) (c : Ctx) (t : Nat) : Nat := (srcB s c (Fields.w64 c.w) t).toNat
def bitC (s : State) (c : Ctx) (t : Nat) : Nat := (srcC s c (Fields.w64 c.w) t).toNat
/-- A count or control word: bits [31:0] whatever the width (R112, R123). -/
def countB (s : State) (c : Ctx) (t : Nat) : Nat := (srcB s c false t).toNat

/-- D takes a number of the instruction's width by thread. -/
def bitResults (c : Ctx) (f : Nat → Nat) : List RegWrite :=
  c.results (Fields.w64 c.w) false fun t => BitVec.ofNat 64 (f t % 2 ^ Fields.wbits c.w)

/-- Two-source logic. -/
def bitTwo (f : Nat → Nat → Nat) (c : Ctx) (s : State) : Effect :=
  .done { s, fixed := bitResults c fun t => f (bitA s c t) (bitB s c t) }

/-- One source and a count; the width is an argument. -/
def bitShift (f : Nat → Nat → Nat → Nat) (c : Ctx) (s : State) : Effect :=
  .done { s, fixed := bitResults c fun t => f (Fields.wbits c.w) (bitA s c t) (countB s c t) }

/-- Two sources and a count. -/
def bitFunnel (f : Nat → Nat → Nat → Nat → Nat) (c : Ctx) (s : State) : Effect :=
  .done { s, fixed := bitResults c fun t => f (Fields.wbits c.w) (bitA s c t) (countB s c t) (bitC s c t) }

/-- A count of A's bits, always a 32-bit result (R125). -/
def bitCount (f : Nat → Nat → Nat) (c : Ctx) (s : State) : Effect :=
  .done { s, fixed := c.results false false fun t => BitVec.ofNat 64 (f (Fields.wbits c.w) (bitA s c t)) }

/-- n and not m, over 64 bits. -/
def andNot (a b : Nat) : Nat := a ^^^ (a &&& b)

/-- BMIX (R122). -/
def mixBits (code n a b d : Nat) : Nat :=
  (List.range n).foldl (fun acc i =>
    let k := (a >>> i) % 2 + 2 * ((b >>> i) % 2) + 4 * ((d >>> i) % 2)
    acc + ((code >>> k) % 2) * 2 ^ i) 0

def bitMix (c : Ctx) (s : State) : Effect :=
  let v (t : Nat) : Nat := mixBits (fld c.w.x 7 0) (Fields.wbits c.w) (bitA s c t) (bitB s c t) (bitC s c t)
  .done { s, fixed := bitResults c v }

/-- SAR: the floor of A / 2^min(n, w − 1) (R91, R123). -/
def sarBits (n a k : Nat) : Nat := wrapInt n (toInt true n a / 2 ^ min k (n - 1))

/-- ROT. -/
def rotBits (n a k : Nat) : Nat := a * 2 ^ (k % n) + a / 2 ^ (n - k % n)

/-- FSHL and FSHR on A above C. -/
def fshlBits (n a k d : Nat) : Nat := ((a * 2 ^ n + d) * 2 ^ (k % n)) / 2 ^ n
def fshrBits (n a k d : Nat) : Nat := (a * 2 ^ n + d) / 2 ^ (k % n)

/-- Position and length of a field, clipped to the word (R124). -/
def fieldAt (n b : Nat) : Nat × Nat :=
  let p := min (b % 256) n
  (p, min (b / 256 % 256) (n - p))

def bfxBits (sx : Bool) (n a b : Nat) : Nat :=
  let (p, l) := fieldAt n b
  let f := a / 2 ^ p % 2 ^ l
  if l = 0 then 0 else if sx then wrapInt n (toInt true l f) else f

def bfiBits (n a b d : Nat) : Nat :=
  let (p, l) := fieldAt n b
  let m := (2 ^ l - 1) * 2 ^ p
  andNot d m ||| (a * 2 ^ p &&& m)

/-- Counts (R125). -/
def onesIn (n a : Nat) : Nat := ((List.range n).filter fun i => a.testBit i).length
def leadingZeros (n a : Nat) : Nat := n - bitLength (a % 2 ^ n)
def trailingZeros (n a : Nat) : Nat := ((List.range n).find? fun i => a.testBit i).getD n
def reversed (n a : Nat) : Nat := (List.range n).foldl (fun acc i => acc + (if a.testBit i then 2 ^ (n - 1 - i) else 0)) 0

/-- BPERM (R126). -/
def permBytes (n a b d : Nat) : Nat :=
  let pool := a + 2 ^ n * d
  (List.range (n / 8)).foldl (fun acc j =>
    let q := b / 16 ^ j % 16
    let byte (i : Nat) := pool / 256 ^ i % 256
    let v := if n = 64 then byte q else if q < 8 then byte q else if byte (q - 8) < 128 then 0 else 255
    acc + v * 256 ^ j) 0

/-! ## Meanings -/

def execAnd (w : Fields) (s : State) := s.issue 0x40 w (bitTwo fun a b => a &&& b)
def execOr (w : Fields) (s : State) := s.issue 0x41 w (bitTwo fun a b => a ||| b)
def execXor (w : Fields) (s : State) := s.issue 0x42 w (bitTwo fun a b => a ^^^ b)
def execAndn (w : Fields) (s : State) := s.issue 0x43 w (bitTwo andNot)
def execBmix (w : Fields) (s : State) := s.issue 0x44 w bitMix
def execShl (w : Fields) (s : State) := s.issue 0x45 w (bitShift fun n a k => if n ≤ k then 0 else a * 2 ^ k)
def execShr (w : Fields) (s : State) := s.issue 0x46 w (bitShift fun n a k => if n ≤ k then 0 else a / 2 ^ k)
def execSar (w : Fields) (s : State) := s.issue 0x47 w (bitShift sarBits)
def execRot (w : Fields) (s : State) := s.issue 0x48 w (bitShift rotBits)
def execFshl (w : Fields) (s : State) := s.issue 0x49 w (bitFunnel fshlBits)
def execFshr (w : Fields) (s : State) := s.issue 0x4A w (bitFunnel fshrBits)
def execBfx (w : Fields) (s : State) := s.issue 0x4B w fun c s => bitShift (bfxBits (c.w.f.getLsbD 0)) c s
def execBfi (w : Fields) (s : State) := s.issue 0x4C w (bitFunnel bfiBits)
def execPopc (w : Fields) (s : State) := s.issue 0x4D w (bitCount onesIn)
def execPopcShort (a d : BitVec 8) (u y : Bool) (s : State) := s.issue 0x4D (shortWord u y a d 0) (bitCount onesIn)
def execClz (w : Fields) (s : State) := s.issue 0x4E w (bitCount leadingZeros)
def execClzShort (a d : BitVec 8) (u y : Bool) (s : State) := s.issue 0x4E (shortWord u y a d 0) (bitCount leadingZeros)
def execCtz (w : Fields) (s : State) := s.issue 0x4F w (bitCount trailingZeros)
def execCtzShort (a d : BitVec 8) (u y : Bool) (s : State) := s.issue 0x4F (shortWord u y a d 0) (bitCount trailingZeros)
def execBrev (w : Fields) (s : State) := s.issue 0x50 w (bitShift fun n a _ => reversed n a)
def execBrevShort (a d : BitVec 8) (u y : Bool) (s : State) :=
  s.issue 0x50 (shortWord u y a d 0) (bitShift fun n a _ => reversed n a)
def execBperm (w : Fields) (s : State) := s.issue 0x51 w (bitFunnel permBytes)

end Sys2Proof.Machine
end

