-- ==== Sys2Proof/Machine/Packed.lean ====
section
/-!
DEFINITION. Packed 16-bit instructions, opcodes 0x52 to 0x57 (R127, R128).
-/
namespace Sys2Proof.Machine

/-- Element e of a packed word, as its type reads it. -/
def element16 (sg : Bool) (v : DWord) (e : Nat) : Int := toInt sg 16 (v.toNat / 2 ^ (16 * e))

/-- Two elements as a word. -/
def pack16 (lo hi : Nat) : DWord := BitVec.ofNat 64 (lo % 65536 + 65536 * (hi % 65536))

/-- A two-source packed operation (R127). -/
def packedTwo (f : Int → Int → Int) (c : Ctx) (s : State) : Effect :=
  let sg := Fields.signed c.w
  let e (t i : Nat) : Nat :=
    narrow (Fields.sat c.w) sg 16 (f (element16 sg (srcA s c false t) i) (element16 sg (srcB s c false t) i))
  .done { s, fixed := c.results false false fun t => pack16 (e t 0) (e t 1), lat := 8 }

/-- ICMP2 (R127). -/
def packedCompare (c : Ctx) (s : State) : Effect :=
  let sg := Fields.signed c.w
  let v (t i : Nat) : Bool :=
    intCondition c.w.f.toNat (element16 sg (srcA s c false t) i) (element16 sg (srcB s c false t) i)
  let one (b : Bool) : DWord := if b then 1 else 0
  let n := c.w.d.toNat % 128
  let ws : List RegWrite :=
    if c.w.u then [⟨.uni c.w.d.toNat, one (v uniThread 0) + 2 * one (v uniThread 1)⟩]
    else (threads c.parts).flatMap fun t => [⟨.pred n t, one (v t 0)⟩, ⟨.pred (n + 1) t, one (v t 1)⟩]
  .done { s, fixed := ws, lat := 8 }

/-- The survivor word that IACS2 reads and writes (R128). -/
def survivor (s : State) (c : Ctx) (t : Nat) : DWord :=
  if c.w.u then readUni c.g c.f c.w.c.toNat else source s c false false c.w.c t

/-- IACS2 (R128): D, then the survivor word. -/
def trellis (c : Ctx) (s : State) : Effect :=
  let sg := Fields.signed c.w
  let max_ := c.w.f.getLsbD 0
  let step (t e : Nat) : Nat × Nat :=
    let a := srcA s c false t
    let b := srcB s c false t
    let x := element16 sg a 0 + element16 sg b e
    let y := element16 sg a 1 + element16 sg b (1 - e)
    let better := if max_ then x < y else y < x
    (narrow (Fields.sat c.w) sg 16 (if better then y else x), if better then 1 else 0)
  let metrics := c.results false false fun t => pack16 (step t 0).1 (step t 1).1
  let words := c.steps.map fun t =>
    let v := survivor s c t * 4 + BitVec.ofNat 64 (2 * (step t 1).2 + (step t 0).2)
    if c.w.u then (⟨.uni c.w.c.toNat, v⟩ : RegWrite) else ⟨.vec c.w.c.toNat t, low32 v⟩
  .done { s, fixed := metrics ++ words, lat := 8 }

/-! ## Meanings -/

def execIadd2 (w : Fields) (s : State) := s.issue 0x52 w (packedTwo fun a b => a + b)
def execIsub2 (w : Fields) (s : State) := s.issue 0x53 w (packedTwo fun a b => a - b)
def execImin2 (w : Fields) (s : State) := s.issue 0x54 w (packedTwo fun a b => if a ≤ b then a else b)
def execImax2 (w : Fields) (s : State) := s.issue 0x55 w (packedTwo fun a b => if a ≥ b then a else b)
def execIcmp2 (w : Fields) (s : State) := s.issue 0x56 w packedCompare
def execIacs2 (w : Fields) (s : State) := s.issue 0x57 w trellis

end Sys2Proof.Machine
end

