-- ==== Sys2Proof/Machine/Float.lean ====
section
/-!
DEFINITION. Floating-point instructions, opcodes 0x60 to 0x8C (R129 to R141).
-/
namespace Sys2Proof.Machine

/-! ## Shared forms -/

/-- Rounding mode and flush of a word (Table 7.1). -/
def Fields.rounding (w : Fields) : Rounding := { rm := w.m.toNat % 4, ftz := w.m.getLsbD 5 }

/-- A class of floating-point instructions: format, whether operands are pairs, and fixed latency, none where the
result is variable-latency (Table 7.2). -/
structure FloatClass where
  fmt : Fmt
  wide : Bool
  lat : Option Nat

def single : FloatClass := { fmt := fp32, wide := false, lat := some 8 }
def singleLater : FloatClass := { fmt := fp32, wide := false, lat := none }
def double : FloatClass := { fmt := fp64, wide := true, lat := some 16 }
def doubleLater : FloatClass := { fmt := fp64, wide := true, lat := none }

/-- An effect that writes results with flags, fixed or variable in latency (R132). -/
def floatDone (k : FloatClass) (s : State) (ws : List RegWrite) (fs : List Flags) : Effect :=
  match k.lat with
  | some n => .done { s, fixed := ws, lat := n, flags := orFlags fs }
  | none => .done { s, later := some ws, flags := orFlags fs }

/-- Values by thread, with flags. -/
def floatBy (k : FloatClass) (f : Nat → Nat × Flags) (c : Ctx) (s : State) : Effect :=
  floatDone k s (c.results k.wide false fun t => BitVec.ofNat 64 (f t).1) (c.steps.map fun t => (f t).2)

/-- One, two and three sources. -/
def floatOne (k : FloatClass) (f : Fmt → Rounding → Nat → Nat × Flags) (c : Ctx) (s : State) : Effect :=
  floatBy k (fun t => f k.fmt (Fields.rounding c.w) (srcA s c k.wide t).toNat) c s
def floatTwo (k : FloatClass) (f : Fmt → Rounding → Nat → Nat → Nat × Flags) (c : Ctx) (s : State) : Effect :=
  floatBy k (fun t => f k.fmt (Fields.rounding c.w) (srcA s c k.wide t).toNat (srcB s c k.wide t).toNat) c s
def floatThree (k : FloatClass) (f : Fmt → Rounding → Nat → Nat → Nat → Nat × Flags) (c : Ctx) (s : State) : Effect :=
  floatBy k (fun t => f k.fmt (Fields.rounding c.w) (srcA s c k.wide t).toNat (srcB s c k.wide t).toNat
    (srcC s c k.wide t).toNat) c s

/-- FMIN and FMAX of every format (R135). -/
def minMax (isMax : Bool) (f : Fmt) (r : Rounding) (a b : Nat) : Nat × Flags := fMinMax f r.ftz isMax a b

/-- Comparison (R137). -/
def floatCompare (k : FloatClass) (c : Ctx) (s : State) : Effect :=
  let v (t : Nat) := fCompare k.fmt (Fields.rounding c.w).ftz c.w.f.toNat (srcA s c k.wide t).toNat (srcB s c k.wide t).toNat
  floatDone k s (c.truths fun t => (v t).1) (c.steps.map fun t => (v t).2)

/-- Class test (R138): the mask is a 32-bit B. -/
def floatClass (k : FloatClass) (c : Ctx) (s : State) : Effect :=
  floatDone k s (c.truths fun t => (srcB s c false t).getLsbD (fClass k.fmt (srcA s c k.wide t).toNat)) []

/-- Approximate functions (R140). -/
def floatApprox (c : Ctx) (s : State) : Effect :=
  floatOne singleLater (fun _ r a => fApprox c.op r.ftz a) c s

/-- Format of a packed instruction (R141). -/
def packedFmt (w : Fields) : Fmt := if w.m.getLsbD 4 then fp16 else bf16

/-- Two element steps on halves of a word. -/
def bothHalves (f : Nat → Nat × Flags) : Nat × Flags :=
  let x := f 0
  let y := f 1
  (x.1 % 65536 + 65536 * (y.1 % 65536), x.2 ||| y.2)

/-- Half e of a word. -/
def half (v : DWord) (e : Nat) : Nat := v.toNat / 65536 ^ e % 65536

def packedFloatTwo (f : Fmt → Rounding → Nat → Nat → Nat × Flags) (c : Ctx) (s : State) : Effect :=
  floatBy single (fun t => bothHalves fun e =>
    f (packedFmt c.w) (Fields.rounding c.w) (half (srcA s c false t) e) (half (srcB s c false t) e)) c s
def packedFloatThree (f : Fmt → Rounding → Nat → Nat → Nat → Nat × Flags) (c : Ctx) (s : State) : Effect :=
  floatBy single (fun t => bothHalves fun e =>
    f (packedFmt c.w) (Fields.rounding c.w) (half (srcA s c false t) e) (half (srcB s c false t) e)
      (half (srcC s c false t) e)) c s

/-! ## Meanings: FP32 -/

def execFadd (w : Fields) (s : State) := s.issue 0x60 w (floatTwo single fAdd)
def execFsub (w : Fields) (s : State) := s.issue 0x61 w (floatTwo single fSub)
def execFmul (w : Fields) (s : State) := s.issue 0x62 w (floatTwo single fMul)
def execFfma (w : Fields) (s : State) := s.issue 0x63 w (floatThree single fFma)
def execFmin (w : Fields) (s : State) := s.issue 0x64 w (floatTwo single (minMax false))
def execFmax (w : Fields) (s : State) := s.issue 0x65 w (floatTwo single (minMax true))
def execFcmp (w : Fields) (s : State) := s.issue 0x66 w (floatCompare single)
def execFclass (w : Fields) (s : State) := s.issue 0x67 w (floatClass single)
def execFrcp (w : Fields) (s : State) := s.issue 0x68 w (floatOne singleLater fRcp)
def execFrcpShort (a d : BitVec 8) (u y : Bool) (s : State) := s.issue 0x68 (shortWord u y a d 0) (floatOne singleLater fRcp)
def execFrsq (w : Fields) (s : State) := s.issue 0x69 w floatApprox
def execFrsqShort (a d : BitVec 8) (u y : Bool) (s : State) := s.issue 0x69 (shortWord u y a d 0) floatApprox
def execFsqrt (w : Fields) (s : State) := s.issue 0x6A w (floatOne singleLater fSqrt)
def execFsqrtShort (a d : BitVec 8) (u y : Bool) (s : State) := s.issue 0x6A (shortWord u y a d 0) (floatOne singleLater fSqrt)
def execFdiv (w : Fields) (s : State) := s.issue 0x6B w (floatTwo singleLater fDiv)
def execFex2 (w : Fields) (s : State) := s.issue 0x6C w floatApprox
def execFex2Short (a d : BitVec 8) (u y : Bool) (s : State) := s.issue 0x6C (shortWord u y a d 0) floatApprox
def execFlg2 (w : Fields) (s : State) := s.issue 0x6D w floatApprox
def execFlg2Short (a d : BitVec 8) (u y : Bool) (s : State) := s.issue 0x6D (shortWord u y a d 0) floatApprox
def execFsin (w : Fields) (s : State) := s.issue 0x6E w floatApprox
def execFsinShort (a d : BitVec 8) (u y : Bool) (s : State) := s.issue 0x6E (shortWord u y a d 0) floatApprox
def execFcos (w : Fields) (s : State) := s.issue 0x6F w floatApprox
def execFcosShort (a d : BitVec 8) (u y : Bool) (s : State) := s.issue 0x6F (shortWord u y a d 0) floatApprox
def execFrnd (w : Fields) (s : State) := s.issue 0x70 w (floatOne single fRound)

/-! ## Meanings: FP64 -/

def execDadd (w : Fields) (s : State) := s.issue 0x78 w (floatTwo double fAdd)
def execDsub (w : Fields) (s : State) := s.issue 0x79 w (floatTwo double fSub)
def execDmul (w : Fields) (s : State) := s.issue 0x7A w (floatTwo double fMul)
def execDfma (w : Fields) (s : State) := s.issue 0x7B w (floatThree double fFma)
def execDmin (w : Fields) (s : State) := s.issue 0x7C w (floatTwo double (minMax false))
def execDmax (w : Fields) (s : State) := s.issue 0x7D w (floatTwo double (minMax true))
def execDcmp (w : Fields) (s : State) := s.issue 0x7E w (floatCompare double)
def execDclass (w : Fields) (s : State) := s.issue 0x7F w (floatClass double)
def execDrcp (w : Fields) (s : State) := s.issue 0x80 w (floatOne doubleLater fRcp)
def execDrcpShort (a d : BitVec 8) (u y : Bool) (s : State) := s.issue 0x80 (shortWord u y a d 0) (floatOne doubleLater fRcp)
def execDsqrt (w : Fields) (s : State) := s.issue 0x81 w (floatOne doubleLater fSqrt)
def execDsqrtShort (a d : BitVec 8) (u y : Bool) (s : State) :=
  s.issue 0x81 (shortWord u y a d 0) (floatOne doubleLater fSqrt)
def execDdiv (w : Fields) (s : State) := s.issue 0x82 w (floatTwo doubleLater fDiv)
def execDrnd (w : Fields) (s : State) := s.issue 0x83 w (floatOne double fRound)

/-! ## Meanings: packed -/

def execFadd2 (w : Fields) (s : State) := s.issue 0x88 w (packedFloatTwo fAdd)
def execFmul2 (w : Fields) (s : State) := s.issue 0x89 w (packedFloatTwo fMul)
def execFfma2 (w : Fields) (s : State) := s.issue 0x8A w (packedFloatThree fFma)
def execFmin2 (w : Fields) (s : State) := s.issue 0x8B w (packedFloatTwo (minMax false))
def execFmax2 (w : Fields) (s : State) := s.issue 0x8C w (packedFloatTwo (minMax true))

end Sys2Proof.Machine
end

