-- ==== Sys2Proof/Machine/Convert.lean ====
section
/-!
DEFINITION. CVT, TRIPCK and TRIUNP (R142 to R144).
-/
namespace Sys2Proof.Machine

/-- Bits of an integer of a type as its register holds them (Table 5.4): 64 bits, or extended to 32. -/
def intRegister (signed : Bool) (n : Nat) (v : Int) : DWord :=
  if n = 64 then BitVec.ofNat 64 (wrapInt 64 v)
  else BitVec.ofNat 64 (wrapInt 32 (toInt signed n (wrapInt n v)))

/-- One conversion (R143): source and destination codes, options, and the source register's bits. -/
def convert (dst src : Nat) (r : Rounding) (a : Nat) : DWord × Flags :=
  match fmtOf src, fmtOf dst with
  | some x, some y =>
    let v := fToF x y r a
    (BitVec.ofNat 64 v.1, v.2)
  | some x, none =>
    match intOf dst with
    | some (sg, n) =>
      let v := fToInt x r (rangeOf sg n).1 (rangeOf sg n).2 a
      (intRegister sg n v.1, v.2)
    | none => (0, 0)
  | none, some y =>
    match intOf src with
    | some (sg, n) =>
      let v := intToF y r (toInt sg n a)
      (BitVec.ofNat 64 v.1, v.2)
    | none => (0, 0)
  | none, none =>
    match intOf src, intOf dst with
    | some (sg, n), some (sg', n') => (intRegister sg' n' (narrow r.sat sg' n' (toInt sg n a)), 0)
    | _, _ => (0, 0)

/-- A 32-bit result of a signed integer type is sign-extended in a uniform register (R142). -/
def signedType (code : Nat) : Bool := ((intOf code).map (·.1)).getD false

/-- CVT (R142, R143). -/
def convertBody (c : Ctx) (s : State) : Effect :=
  let dst := c.w.m.toNat % 32
  let src := fld c.w.x 4 0
  let r : Rounding := { rm := fld c.w.x 6 5, ftz := c.w.x.getLsbD 7, sat := c.w.m.getLsbD 5 }
  let v (t : Nat) := convert dst src r (srcA s c (wideType src) t).toNat
  .done { s, fixed := c.results (wideType dst) (signedType dst) fun t => (v t).1, lat := 8,
          flags := orFlags (c.steps.map fun t => (v t).2) }

/-- Five trit fields to a byte (R144). -/
def tritByte (v : Nat) : Nat :=
  (List.range 5).foldl (fun b i =>
    let f := v / 4 ^ i % 4
    b + (if f % 2 = 0 then 0 else if f < 2 then 1 else 2) * 3 ^ i) 0

/-- TRIPCK (R144). -/
def tripckBits (a : Nat) : Nat := (List.range 4).foldl (fun d j => d + tritByte (a / 2 ^ (10 * j)) * 256 ^ j) 0

def tripckBody (c : Ctx) (s : State) : Effect :=
  .done { s, fixed := c.results false false fun t => BitVec.ofNat 64 (tripckBits (srcA s c true t).toNat), lat := 8 }

/-- TRIUNP (R144): twenty fields and whether some byte is reserved. -/
def triunpBits (a : Nat) : Nat × Bool :=
  (List.range 4).foldl (fun (d, bad) j =>
    let (ts, r) := tritsOf (a / 256 ^ j % 256)
    (ts.zipIdx.foldl (fun d (x, i) => d + (if x = 0 then 0 else if x = 1 then 1 else 3) * 2 ^ (10 * j + 2 * i)) d, bad || r)) (0, false)

def triunpBody (c : Ctx) (s : State) : Effect :=
  let v (t : Nat) := triunpBits (srcA s c false t).toNat
  .done { s, fixed := c.results true false fun t => BitVec.ofNat 64 (v t).1, lat := 8,
          flags := orFlags (c.steps.map fun t => if (v t).2 then flagNV else 0) }

/-! ## Meanings -/

def execCvt (w : Fields) (s : State) := s.issue 0x90 w convertBody
def execTripck (w : Fields) (s : State) := s.issue 0x91 w tripckBody
def execTriunp (w : Fields) (s : State) := s.issue 0x92 w triunpBody

end Sys2Proof.Machine
end

