-- ==== Sys2Proof/Machine/Move.lean ====
section
/-!
DEFINITION. Movement and group instructions, opcodes 0xA0 to 0xAB (R145 to R157).
-/
namespace Sys2Proof.Machine

/-- The width of data operands: a pair under `.w64`, the whole register under U = 1 (R145). -/
def Fields.moves64 (w : Fields) : Bool := w.u || Fields.w64 w

/-- MOV: the source is A, or B when F[0] = 1 (R148). -/
def moveBody (c : Ctx) (s : State) : Effect :=
  let wide := Fields.moves64 c.w
  .done { s, fixed := c.results wide false fun t => if c.w.f.getLsbD 0 then srcB s c wide t else srcA s c wide t }

/-- MOVI (R149). -/
def moviBody (c : Ctx) (s : State) : Effect :=
  let wide := Fields.moves64 c.w
  .done { s, fixed := c.results wide false fun t => srcB s c wide t }

/-- SEL (R150). -/
def selBody (c : Ctx) (s : State) : Effect :=
  let wide := Fields.moves64 c.w
  let test (t : Nat) : Bool := if c.w.u then uniOperand s c c.w.c.toNat t != 0 else readPred c.f (c.w.c.toNat % 128) t
  .done { s, fixed := c.results wide false fun t =>
    if test t != c.w.f.getLsbD 0 then srcA s c wide t else srcB s c wide t }

/-- PMIX (R152). -/
def pmixBody (c : Ctx) (s : State) : Effect :=
  let code := fld c.w.x 7 0
  let p (v : BitVec 8) (t : Nat) : Nat := if readPred c.f (v.toNat % 128) t then 1 else 0
  .done { s, fixed := c.truths fun t => code.testBit (p c.w.a t + 2 * p c.w.b t + 4 * p c.w.c t), lat := 2 }

/-- PSET (R151). -/
def psetBody (c : Ctx) (s : State) : Effect :=
  let ws := (threads c.parts).flatMap fun t => (List.range (c.w.f.toNat + 1)).map fun i =>
    (⟨.pred (c.w.d.toNat % 128 + i) t, if (srcB s c false t).getLsbD i then 1 else 0⟩ : RegWrite)
  .done { s, fixed := ws, lat := 2 }

/-- PGET (R151). -/
def pgetBody (c : Ctx) (s : State) : Effect :=
  let v (t : Nat) : Nat := (List.range (c.w.f.toNat + 1)).foldl (fun d i =>
    d + if readPred c.f (c.w.a.toNat % 128 + i) t then 2 ^ i else 0) 0
  .done { s, fixed := c.results false false fun t => BitVec.ofNat 64 (v t) }

/-- A group result in the uniform register D, written whenever some thread is active (R146). -/
def Ctx.groupResult (c : Ctx) (v : DWord) : List RegWrite := if c.act == 0 then [] else [⟨.uni c.w.d.toNat, v⟩]

/-- PCOL (R153). -/
def pcolBody (c : Ctx) (s : State) : Effect :=
  let yes := maskOf fun t => bit c.parts t && (readPred c.f (c.w.a.toNat % 128) t != c.w.m.getLsbD 0)
  let one (b : Bool) : DWord := if b then 1 else 0
  let v : DWord := match c.w.f.toNat with
    | 0 => yes
    | 1 => one (yes != 0)
    | 2 => one (yes == c.parts)
    | 3 => one (yes == 0 || yes == c.parts)
    | _ => BitVec.ofNat 64 (countMask yes)
  .done { s, fixed := c.groupResult v }

/-- GSWZ (R154). -/
def gswzBody (c : Ctx) (s : State) : Effect :=
  let wide := Fields.w64 c.w
  .done { s, fixed := c.results wide false fun t => vecOperand c wide c.w.a.toNat (gswzFrom s c t) }

/-- RDTH (R155). -/
def rdthBody (c : Ctx) (s : State) : Effect :=
  .done { s, fixed := c.groupResult (vecOperand c (Fields.w64 c.w) c.w.a.toNat (namedThread s c)) }

/-- WRTH (R155). -/
def wrthBody (c : Ctx) (s : State) : Effect :=
  let wide := Fields.w64 c.w
  let t := namedThread s c
  let v := source s c wide true c.w.a t
  .done { s, fixed := if bit c.parts t then vecWrites wide c.w.d.toNat t v else [] }

/-! ## Folds (Table 8.4) -/

/-- One step of a fold of a type under an operation, on register bits. -/
def foldStep (ty op : Nat) (sat : Bool) (acc x : Nat) : Nat × Flags :=
  match fmtOf ty with
  | some f => match op with
    | 0 => fAdd f {} acc x
    | 1 => fMinMax f false false acc x
    | _ => fMinMax f false true acc x
  | none =>
    let (sg, n) := (intOf ty).getD (true, 32)
    let a := toInt sg n acc
    let b := toInt sg n x
    (match op with
      | 0 => narrow sat sg n (a + b)
      | 1 => wrapInt n (if a ≤ b then a else b)
      | 2 => wrapInt n (if a ≥ b then a else b)
      | 3 => acc &&& x
      | 4 => acc ||| x
      | _ => acc ^^^ x, 0)

/-- The value of an empty fold. -/
def foldEmpty (ty op : Nat) : Nat :=
  match fmtOf ty with
  | some f => if op = 0 then 0 else f.infinity (op != 1)
  | none =>
    let (sg, n) := (intOf ty).getD (true, 32)
    let (lo, hi) := rangeOf sg n
    match op with
    | 1 => wrapInt n hi
    | 2 => wrapInt n lo
    | 3 => 2 ^ n - 1
    | _ => 0

/-- The fold of values in order. -/
def foldValues (ty op : Nat) (sat : Bool) (xs : List Nat) : Nat × Flags :=
  match xs with
  | [] => (foldEmpty ty op, 0)
  | x :: rest => rest.foldl (fun (acc, fl) y =>
      let r := foldStep ty op sat acc y
      (r.1, fl ||| r.2)) (x, 0)

/-- Results of a fold: fixed or variable in latency by type (Table 8.2). -/
def foldDone (ty : Nat) (s : State) (ws : List RegWrite) (fl : Flags) : Effect :=
  if wideType ty then .done { s, later := some ws, flags := fl }
  else .done { s, fixed := ws, lat := if ty = 10 then 8 else 4, flags := fl }

/-- GRED (R156). -/
def gredBody (c : Ctx) (s : State) : Effect :=
  let ty := c.w.m.toNat % 32
  let wide := wideType ty
  let r := foldValues ty (c.w.f.toNat % 8) (c.w.m.getLsbD 5) ((threads c.parts).map fun t => (srcA s c wide t).toNat)
  let v : DWord := BitVec.ofNat 64 r.1
  foldDone ty s (c.groupResult (if wide then v else extend32 (signedType ty) v)) r.2

/-- GSCAN (R157). -/
def gscanBody (c : Ctx) (s : State) : Effect :=
  let ty := c.w.m.toNat % 32
  let wide := wideType ty
  let excl := c.w.f.getLsbD 3
  let fold (t : Nat) := foldValues ty (c.w.f.toNat % 8) (c.w.m.getLsbD 5)
    (((threads c.parts).filter fun u => if excl then u < t else u ≤ t).map fun u => (srcA s c wide u).toNat)
  foldDone ty s (c.results wide false fun t => BitVec.ofNat 64 (fold t).1) (orFlags (c.steps.map fun t => (fold t).2))

/-! ## Meanings -/

def execMov (w : Fields) (s : State) := s.issue 0xA0 w moveBody
def execMovShort (a d : BitVec 8) (u y : Bool) (s : State) := s.issue 0xA0 (shortWord u y a d 0) moveBody
def execMovi (w : Fields) (s : State) := s.issue 0xA1 w moviBody
def execSel (w : Fields) (s : State) := s.issue 0xA2 w selBody
def execPmix (w : Fields) (s : State) := s.issue 0xA3 w pmixBody
def execPset (w : Fields) (s : State) := s.issue 0xA4 w psetBody
def execPget (w : Fields) (s : State) := s.issue 0xA5 w pgetBody
def execPcol (w : Fields) (s : State) := s.issue 0xA6 w pcolBody
def execGswz (w : Fields) (s : State) := s.issue 0xA7 w gswzBody
def execRdth (w : Fields) (s : State) := s.issue 0xA8 w rdthBody
def execWrth (w : Fields) (s : State) := s.issue 0xA9 w wrthBody
def execGred (w : Fields) (s : State) := s.issue 0xAA w gredBody
def execGscan (w : Fields) (s : State) := s.issue 0xAB w gscanBody

end Sys2Proof.Machine
end

