-- ==== Sys2Proof/Machine/Memory.lean ====
section
/-!
DEFINITION. Load, store, fence, prefetch and cache instructions, opcodes 0xB0 to 0xB5 and 0xBD to 0xC0 (R204 to
R216, R220 to R223).
-/
namespace Sys2Proof.Machine

/-! ## Addresses (R206, R207) -/

/-- SZ. -/
def sizeOf_ (w : Fields) : Nat := w.f.toNat % 8

/-- Bytes of a size code (Table 11.4). -/
def sizeBytes (sz : Nat) : Nat :=
  match sz with
  | 0 | 1 => 1
  | 2 | 3 => 2
  | 4 => 4
  | 5 => 8
  | _ => 16

/-- Cache hint. -/
def hintOf (w : Fields) : Nat := fld w.m 2 1
/-- Scope. -/
def scopeOf (w : Fields) : Nat := fld w.m 5 3
/-- ORD of a load or store: 1 acquire, 2 release. -/
def ordOf (w : Fields) : Nat := fld w.x 25 24

/-- The displacement: the literal under `.split`, else DISP. -/
def dispOf (w : Fields) : DWord :=
  if w.m.getLsbD 0 then (if w.form == .extLit then w.lit else 0) else (w.x.extractLsb' 0 23).signExtend 64

/-- base + index + displacement for one thread; `scratch`: LDS and STS. -/
def addressOf (s : State) (c : Ctx) (scratch : Bool) (t : Nat) : DWord :=
  let base := if c.w.f.getLsbD 3 then vecOperand c (!scratch) c.w.a.toNat t else uniOperand s c c.w.a.toNat t
  let idx : DWord :=
    if c.w.x.getLsbD 23 then ((source s c false c.w.u c.w.b t).setWidth 32).signExtend 64 else 0
  base + idx + dispOf c.w

/-- The accesses of an instruction in order of threads. -/
def requests (s : State) (c : Ctx) (scratch : Bool) : List Req :=
  c.steps.map fun t =>
    if scratch then Req.team t ((addressOf s c true t).setWidth 32).toNat else Req.generic t (addressOf s c false t)

/-! ## Loads -/

/-- The value that bytes give to a register of 32 or 64 bits: sign-extended for `.i8` and `.i16`. -/
def loadedValue (sz : Nat) (bs : List Byte) : DWord :=
  let v := BitVec.ofNat 64 (natLE bs)
  match sz with
  | 1 => (v.setWidth 8).signExtend 64
  | 3 => (v.setWidth 16).signExtend 64
  | _ => v

/-- Register writes of one thread's loaded bytes. -/
def loadWrites (w : Fields) (t : Nat) (bs : List Byte) : List RegWrite :=
  let sz := sizeOf_ w
  let d := w.d.toNat
  if w.u then
    if sz = 6 then [⟨.uni d, loadedValue 5 (bs.take 8)⟩, ⟨.uni (d + 1), loadedValue 5 (bs.drop 8)⟩]
    else [⟨.uni d, loadedValue sz bs⟩]
  else vecWrites (sz = 5) d t (loadedValue sz bs)

/-- Performs loads, counts substituted sectors once, and applies an acquire. -/
def State.performLoads (s : State) (c : Ctx) (l : Located) : List RegWrite × State :=
  let n := ((s.substituted (some c.core) (l.flatMap (·.2))).eraseDups).length
  let (ws, s) := l.foldl (fun (acc, s) (q, ps) =>
    let (bs, s) := s.loadSpans c (hintOf c.w) ps
    (acc ++ loadWrites c.w q.t bs, s)) (([] : List RegWrite), s)
  let s := if n = 0 then s else s.addLaunchCounter c.r.team.seq 6 n
  (ws, if ordOf c.w = 1 then s.acquire c.core (scopeOf c.w) else s)

/-- Every line of a run is present in L1, or in scratchpad without a pending bit (R214). -/
def State.present (s : State) (c : Ctx) (p : Span) : Bool :=
  match p.home with
  | .mem _ q => q.type == .normal && isLocal q.loc && (lineRuns q.loc p.len).all fun (a, _) => (s.l1Find c.core a).isSome
  | .scratch o => ((s.team? c.r.team).map fun t => (linesOf o p.len).all fun l => !t.pendingLines.contains l).getD true

/-- Children of a split load: the hit split first, the miss split waiting for result `id` (R214). -/
def splitFlow (c : Ctx) (miss : Mask) (id : Nat) : Flow :=
  let join := c.pc + wordOffset (c.w.x.extractLsb' 0 23)
  { run := fun f => f.divide c.sige true join join
      [{ mask := c.act &&& ~~~miss, pc := c.next, sig := f.fsig },
       { mask := miss, pc := c.next, sig := f.fsig, park := .results [id] }]
    kids := 2 }

/-- LD, LDS and LDU. An access to a STRONG page waits for the thread's earlier stores (R171, R191). -/
def loadBody (scratch : Bool) (c : Ctx) (s : State) : Effect :=
  let sz := sizeOf_ c.w
  let l := requests s c scratch
  if l.isEmpty then noEffect s
  else if ordOf c.w = 1 && s.scopeMissing (scopeOf c.w) then .stop (scopeTrap (scopeOf c.w) c.parts)
  else
    match s.checkPlain c .load (sizeBytes sz) sz l with
    | .error e => .stop e
    | .ok r =>
      let strong := anyStrong r
      let s := if strong then s.drainHome c.core else s
      if s.consumes (some c.core) c.r.team false (r.flatMap (·.2)) then .stop (.team 24)
      else if strong && !s.acked c.core then .unacked s [c.core]
      else
        let remote := remotePlaces r false
        let reload := s.reloadOf c r
        let missed := r.filter fun (_, ps) => !ps.all (s.present c)
        let miss := maskOf fun t => missed.any fun x => x.1.t == t
        let (ws, t) := s.performLoads c r
        if c.w.m.getLsbD 0 && !missed.isEmpty && miss != c.act then
          let late (w : RegWrite) : Bool := match w.reg with
            | .vec _ t => bit miss t
            | _ => false
          .done { s := t, fixed := ws.filter fun w => !late w, lat := 0, later := some (ws.filter late), remote, reload
                  flow := some (splitFlow c miss t.nextId) }
        else .done { s := t, later := some ws, remote, reload }

/-! ## Stores -/

/-- The datum of a thread, lowest byte first. -/
def storeDatum (s : State) (c : Ctx) (t : Nat) : List Byte :=
  let sz := sizeOf_ c.w
  if sz = 6 then
    bytesLE (uniOperand s c c.w.c.toNat t).toNat 8 ++ bytesLE (uniOperand s c (c.w.c.toNat + 1) t).toNat 8
  else bytesLE (srcC s c (c.w.u || sz == 5) t).toNat (sizeBytes sz)

/-- ST, STS and STU. A release, or an access to a STRONG page, waits for the stores before it; a STRONG store that is not
acknowledged at once stops its split until it is (R171, R191, R213). -/
def storeBody (scratch : Bool) (c : Ctx) (s : State) : Effect :=
  let sz := sizeOf_ c.w
  let l := requests s c scratch
  let rel := ordOf c.w = 2
  if l.isEmpty then noEffect s
  else if rel && s.scopeMissing (scopeOf c.w) then .stop (scopeTrap (scopeOf c.w) c.parts)
  else
    match s.checkPlain c .store (sizeBytes sz) sz l with
    | .error e => .stop e
    | .ok r =>
      let strong := anyStrong r
      let t := if rel then s.releaseFor c false (scopeOf c.w) else s
      let t := if strong then t.drainHome c.core else t
      if (rel && t.releaseWaits c false (scopeOf c.w)) || (strong && !t.acked c.core) then .unacked t [c.core]
      else
        let t := if anyRemote r then t.makeUnsafe c.r.team else t
        let u := (r.foldl (fun t (q, ps) => t.storeSpans c ps (storeDatum s c q.t)) t).clearMarks c.core (coveredSectors r)
        if strong && !u.acked c.core then
          .done { s := u, parks := true, flow := some (c.suspendFlow .parked fun y => { y with park := .acks [c.core] }) }
        else .done { s := u }

/-! ## FENCE, PF, CCTL, ICINV -/

/-- A fence drains the buffer: of any kind from package scope up, a release or full fence wherever its stores are to be
seen on other cores (R189, R190, R196). -/
def fenceDrains (c : Ctx) : Bool := 4 ≤ scopeOf c.w || (c.w.f != 1 && drains c.k.pair (scopeOf c.w))

/-- FENCE: it waits until the peers have acknowledged its stores, or they are lost (R187, R196, R220). -/
def fenceBody (c : Ctx) (s : State) : Effect :=
  let scope := scopeOf c.w
  if s.scopeMissing scope then .stop (scopeTrap scope c.act)
  else
    let s := if fenceDrains c then s.drain c.core else s
    if fenceDrains c && !s.acked c.core then .unacked s [c.core]
    else .done { s := if c.w.f == 0 then s else s.acquire c.core scope }

/-- One prefetch (R221). -/
def State.prefetch (s : State) (c : Ctx) (q : Req) : State :=
  if q.off.isSome then s
  else
    match s.leaf c.space .load q.va, s.xlate c.space .load q.va with
    | .ok l, .ok p =>
      if pteA l.pte && p.type == .normal && isLocal p.loc && hintOf c.w != 3 && (s.l1Find c.core p.loc).isNone then
        s.l1Fill c.core (hintOf c.w) p.loc
      else s
    | _, _ => s

/-- PF (R221). -/
def pfBody (c : Ctx) (s : State) : Effect := .done { s := (requests s c false).foldl (fun s q => s.prefetch c q) s }

/-- The locations, page by page, of a virtual range that translates: first location and bytes. -/
def State.rangeRuns (s : State) (w : Space) (va n : Nat) : List (Nat × Nat) :=
  if n = 0 then []
  else (List.range ((va % 4096 + n - 1) / 4096 + 1)).filterMap fun i =>
    let lo := if i = 0 then va else (va / 4096 + i) * 4096
    match s.xlate w .load (lo % 2 ^ 64) with
    | .ok p => some (p.loc, min (va + n - lo) (4096 - lo % 4096))
    | .fault _ _ => none

/-- CCTL (R222). -/
def cctlBody (c : Ctx) (s : State) : Effect :=
  let lines := (s.core c.core).l1
  let keep : List CacheLine :=
    if c.w.f != 0 || lines.isEmpty then []
    else
      let runs := s.rangeRuns c.space (uniOperand s c c.w.a.toNat uniThread).toNat (uniOperand s c c.w.b.toNat uniThread).toNat
      lines.filter fun l => !(runs.any fun (a, n) => a < l.addr + 128 && l.addr < a + n)
  .done { s := s.modCore c.core fun k => { k with l1 := keep } }

/-- A block overlaps a virtual range, which may wrap. -/
def blockIn (va n : Nat) (l : CacheLine) : Bool :=
  let b := l.addr % 2 ^ 64
  0 < n && ((va < b + 32 && b < va + n) || (va < b + 2 ^ 64 + 32 && b + 2 ^ 64 < va + n))

/-- ICINV (R223). DEDUCED, safe (log 29). -/
def icinvBody (c : Ctx) (s : State) : Effect :=
  let va := (uniOperand s c c.w.a.toNat uniThread).toNat
  let n := (uniOperand s c c.w.b.toNat uniThread).toNat
  let keep (l : CacheLine) : Bool := c.w.f == 0 && !blockIn va n l
  .done { s := s.modCore c.core fun k => { k with icache := k.icache.filter keep } }

/-! ## Meanings -/

def execLd (w : Fields) (s : State) := s.issue 0xB0 w (loadBody false)
def execSt (w : Fields) (s : State) := s.issue 0xB1 w (storeBody false)
def execLds (w : Fields) (s : State) := s.issue 0xB2 w (loadBody true)
def execSts (w : Fields) (s : State) := s.issue 0xB3 w (storeBody true)
def execLdu (w : Fields) (s : State) := s.issue 0xB4 w (loadBody false)
def execStu (w : Fields) (s : State) := s.issue 0xB5 w (storeBody false)
def execFence (w : Fields) (s : State) := s.issue 0xBD w fenceBody
def execPf (w : Fields) (s : State) := s.issue 0xBE w pfBody
def execCctl (w : Fields) (s : State) := s.issue 0xBF w cctlBody
def execIcinv (w : Fields) (s : State) := s.issue 0xC0 w icinvBody

end Sys2Proof.Machine
end

