-- ==== Sys2Proof/Machine/Atomic.lean ====
section
/-!
DEFINITION. Atomics, opcodes 0xB6 to 0xBC (R217 to R219).
-/
namespace Sys2Proof.Machine

/-- A 64-bit type. -/
def atomicWide (w : Fields) : Bool := w.f.getLsbD 1
/-- A signed integer type. -/
def atomicSigned (w : Fields) : Bool := !w.f.getLsbD 0
/-- The old value is sign-extended in a uniform register (R217). -/
def atomicExtends (op : Nat) (w : Fields) : Bool := op != 0xBC && atomicSigned w
/-- Bytes of the location. -/
def atomicBytes (w : Fields) : Nat := if atomicWide w then 8 else 4

/-- The value an atomic writes over m with operand b and compare value k; none: it writes nothing (Table 11.9). -/
def atomicNew (op : Nat) (w : Fields) (m b k : Nat) : Option Nat :=
  let n := 8 * atomicBytes w
  let le := toInt (atomicSigned w) n m ≤ toInt (atomicSigned w) n b
  match op with
  | 0xB6 => some ((m + b) % 2 ^ n)
  | 0xB7 => some (if le then m else b)
  | 0xB8 => some (if toInt (atomicSigned w) n b ≤ toInt (atomicSigned w) n m then m else b)
  | 0xB9 => some (if w.c = 0 then m &&& b else if w.c = 1 then m ||| b else m ^^^ b)
  | 0xBA => some b
  | 0xBB => if m = k then some b else none
  | _ => some (fAdd (if atomicWide w then fp64 else fp32) {} m b).1

/-- One read-modify-write at a home (R218). DEDUCED, unsafe (log 65). -/
def State.atomicAt (s : State) (c : Ctx) (h : Home) (b k : Nat) : Nat × State :=
  let n := atomicBytes c.w
  let s := s.homeOpen c .rmw h n
  let old := s.homeRead c.r.team h n
  match atomicNew c.op c.w old b k with
  | none => (old, s)
  | some v => (old, s.homeWrite c.r.team h n v)

/-- An atomic of each participant in order: the old values by thread, and the state after. -/
def State.atomics (s : State) (c : Ctx) (s0 : State) (l : Located) : Sparse DWord × State :=
  l.foldl (fun (acc, s) (q, ps) =>
    let wide := atomicWide c.w
    let (old, s) := s.atomicAt c (homeOf ps) (srcB s0 c wide q.t).toNat (srcC s0 c wide q.t).toNat
    (acc ++ [(q.t, BitVec.ofNat 64 old)], s)) (([] : Sparse DWord), s)

/-- Some participant's atomic writes: every one, but an ACAS whose comparison fails, and then its `.rel` has no effect
(R218). -/
def atomicWrites (c : Ctx) (s : State) (l : Located) : Bool :=
  c.op != 0xBB || (s.atomics c s l).1.any fun (t, old) =>
    (atomicNew c.op c.w old.toNat (srcB s c (atomicWide c.w) t).toNat (srcC s c (atomicWide c.w) t).toNat).isSome

/-- An atomic of each participant in order; one marked release first drains the buffer (R196, R210, R218, R219). DEDUCED,
unsafe (log 22, 25). -/
def atomicBody (c : Ctx) (s : State) : Effect :=
  let wide := atomicWide c.w
  let n := atomicBytes c.w
  let scope := scopeOf c.w
  let l := c.steps.map fun t => Req.generic t (srcA s c true t)
  if l.isEmpty then noEffect s
  else if s.scopeMissing scope then .stop (scopeTrap scope c.parts)
  else
    match s.checkAligned c .rmw n (if wide then 5 else 4) l with
    | .error e => .stop e
    | .ok r =>
      if s.consumes none c.r.team true (r.flatMap (·.2)) then .stop (.team 24)
      else
        let rel := c.w.f.getLsbD 3 && atomicWrites c s r
        let t := if rel then s.releaseFor c (anyRemote r) scope else s
        if rel && t.releaseWaits c (anyRemote r) scope then .unacked t [c.core]
        else
        let t := if 2 < scope || anyRemote r then t.makeUnsafe c.r.team else t
        let (olds, t) := t.atomics c s r
        let t := if c.w.f.getLsbD 2 then t.acquire c.core scope else t
        .done { s := t, later := some (c.results wide (atomicExtends c.op c.w) fun i => look 0 olds i)
                remote := remotePlaces r true }

/-! ## Meanings -/

def execAadd (w : Fields) (s : State) := s.issue 0xB6 w atomicBody
def execAmin (w : Fields) (s : State) := s.issue 0xB7 w atomicBody
def execAmax (w : Fields) (s : State) := s.issue 0xB8 w atomicBody
def execAlog (w : Fields) (s : State) := s.issue 0xB9 w atomicBody
def execAxchg (w : Fields) (s : State) := s.issue 0xBA w atomicBody
def execAcas (w : Fields) (s : State) := s.issue 0xBB w atomicBody
def execAfadd (w : Fields) (s : State) := s.issue 0xBC w atomicBody

end Sys2Proof.Machine
end

