-- ==== Sys2Proof/Machine/Control.lean ====
section
/-!
DEFINITION. Control instructions, opcodes 0x01 to 0x08, 0x0D and 0x0E (R295, R301 to R308).
-/
namespace Sys2Proof.Machine

/-- NOP (R302). -/
def nopBody (_ : Ctx) (s : State) : Effect := noEffect s

/-- YIELD (R302). -/
def yieldBody (c : Ctx) (s : State) : Effect :=
  .done { s, flow := some (c.suspendFlow .ready fun y => { y with yld := true }), point := true, pass := true }

/-- EXIT (R295, R305). -/
def exitBody (c : Ctx) (s : State) : Effect :=
  .done { s, flow := some { run := fun f => f.exitThreads c.sige c.parts c.next } }

/-- CALL (R306). -/
def callBody (c : Ctx) (s : State) : Effect :=
  .done { s, fixed := [⟨.uni c.w.d.toNat, c.next⟩], flow := some (goFlow c.sige (c.pc + wordOffset c.w.x) fun _ => 0) }

/-- RET (R306). -/
def retBody (c : Ctx) (s : State) : Effect :=
  .done { s, flow := some (goFlow c.sige (uniOperand s c c.w.a.toNat uniThread &&& ~~~3) fun _ => 0) }

/-! ## Permitted targets (R307, R312, R313) -/

/-- A permitted-target table: reconvergence address and targets; none where it is malformed. -/
def parseTable (bs : List Byte) : Option (DWord × List DWord) :=
  let word (o : Nat) : DWord := BitVec.ofNat 64 (fieldLE bs o 8)
  let n := fieldLE bs 8 4
  let ts := (List.range n).map fun i => word (16 + 8 * i)
  if n = 0 || 16 < n || fieldLE bs 12 4 != 0 || (word 0 :: ts).any (fun a => a.toNat % 4 != 0) then none
  else some (word 0, ts)

/-- Reads table n whole, through the record cache (R313), where its directory entry says, aligned or not. DESIGN CHOICE,
unsafe (log 97). -/
def State.fetchTable (s : State) (c : Ctx) (n : Nat) : Except Stop (List Byte × State) :=
  let seq := c.r.team.seq
  match (s.core c.core).records.find? fun e => e.seq == seq && e.table && e.num == n with
  | some e => .ok (e.bytes, s)
  | none =>
    match s.fetchData c.space seq .load ((c.k.pttDir.toNat + 8 * n) % 2 ^ 64) 8 with
    | .error e => .error e
    | .ok (bs, s) =>
      let va := natLE bs
      match s.fetchData c.space seq .load va 16 with
      | .error e => .error e
      | .ok (hd, s) =>
        let count := fieldLE hd 8 4
        s.fetchItem c.space seq .load true n va (16 + 8 * (if count ≤ 16 then count else 0))

/-- The trap of a permitted target. -/
def targetTrap (n : Nat) (malformed : Bool) (mask : Mask) : Stop :=
  .trap 10 (BitVec.ofNat 64 (n + if malformed then 256 else 0)) mask []

/-- The jump of JX or CALLX: `d` gives each active thread's address (R300, R307). -/
def jumpFlow (c : Ctx) (callx : Bool) (rc : DWord) (targets : List DWord) (d : Nat → DWord) : Flow :=
  let addrs := ((threads c.act).map d).eraseDups
  let sig (x : DWord) (own : Word) : Word := if targets.contains x then startSig rc x else if callx then 0 else own
  match addrs with
  | [x] => goFlow c.sige x (sig x)
  | _ =>
    { run := fun f => f.divide c.sige false rc rc (addrs.map fun x =>
        { mask := maskOf fun t => bit c.act t && d t == x, pc := x, sig := sig x f.fsig })
      kids := addrs.length }

/-- JX and CALLX (R307). DEDUCED, unsafe (log 19). -/
def jumpBody (callx : Bool) (c : Ctx) (s : State) : Effect :=
  let n := fld c.w.x 2 0
  if c.act == 0 then noEffect s
  else if c.k.pttCount ≤ n then .stop (targetTrap n false c.parts)
  else
    match s.fetchTable c n with
    | .error e => .stop (e.uniform c.parts)
    | .ok (bs, s) =>
      match parseTable bs with
      | none => .stop (targetTrap n true c.parts)
      | some (rc, ts) =>
        let index (t : Nat) : Nat := (vecOperand c false c.w.a.toNat t).toNat
        let bad := maskOf fun t => bit c.parts t && decide (ts.length ≤ index t)
        if bad != 0 then .stop (targetTrap n false bad)
        else
          let d (t : Nat) : DWord := if bit c.parts t then (ts[index t]?).getD 0 else c.next
          .done { s, fixed := if callx then [⟨.uni c.w.d.toNat, c.next⟩] else []
                  flow := some (jumpFlow c callx rc ts d) }

/-! ## SIGCK, SLEEP, FPRIO -/

/-- SIGCK (R294, R308). -/
def sigckBody (c : Ctx) (s : State) : Effect :=
  let new : Word := if c.w.f.getLsbD 0 then joinSig else 0
  if c.sige && c.f.fsig != c.w.lit.setWidth 32 then .stop (.team 25)
  else .done { s, hashed := false, after := fun f => { f with fsig := new } }

/-- SLEEP (R303). DEDUCED, unsafe (log 18). -/
def sleepBody (c : Ctx) (s : State) : Effect :=
  let now : DWord := BitVec.ofNat 64 s.tick
  let a := uniOperand s c c.w.a.toNat uniThread
  let dl := if c.w.f.getLsbD 0 then now + a else a
  if satisfies now dl then .done { s, point := true }
  else if distant now dl then .stop (.trap 7 1 c.act [])
  else
    .done { s, point := true, parks := true
            flow := some (c.suspendFlow .parked fun y => { y with slp := true, dl, park := .sleep }) }

/-- FPRIO (R304). -/
def fprioBody (c : Ctx) (s : State) : Effect :=
  let p : Nat := if c.w.d = 1 then min 15 (uniOperand s c c.w.a.toNat uniThread).toNat else c.w.f.toNat
  .done { s, after := fun f => { f with fpri := BitVec.ofNat 4 p } }

/-! ## Meanings -/

def execNopShort (u y : Bool) (s : State) := s.issue 0x01 (shortWord u y 0 0 0) nopBody
def execNop (w : Fields) (s : State) := s.issue 0x01 w nopBody
def execYieldShort (y : Bool) (s : State) := s.issue 0x02 (shortWord true y 0 0 0) yieldBody
def execYield (w : Fields) (s : State) := s.issue 0x02 w yieldBody
def execExitShort (y : Bool) (s : State) := s.issue 0x03 (shortWord false y 0 0 0) exitBody
def execExit (w : Fields) (s : State) := s.issue 0x03 w exitBody
def execCall (w : Fields) (s : State) := s.issue 0x04 w callBody
def execCallx (w : Fields) (s : State) := s.issue 0x05 w (jumpBody true)
def execJx (w : Fields) (s : State) := s.issue 0x06 w (jumpBody false)
def execRetShort (a : BitVec 8) (y : Bool) (s : State) := s.issue 0x07 (shortWord true y a 0 0) retBody
def execRet (w : Fields) (s : State) := s.issue 0x07 w retBody
def execSigck (w : Fields) (s : State) := s.issue 0x08 w sigckBody
def execSleepShort (a : BitVec 8) (r y : Bool) (s : State) :=
  s.issue 0x0D (shortWord true y a 0 (if r then 1 else 0)) sleepBody
def execSleep (w : Fields) (s : State) := s.issue 0x0D w sleepBody
def execFprioImmShort (p : BitVec 4) (y : Bool) (s : State) := s.issue 0x0E (shortWord true y 0 0 p) fprioBody
def execFprioRegShort (a : BitVec 8) (y : Bool) (s : State) := s.issue 0x0E (shortWord true y a 1 0) fprioBody
def execFprio (w : Fields) (s : State) := s.issue 0x0E w fprioBody

end Sys2Proof.Machine
end

