-- ==== Sys2Proof/Machine/Waits.lean ====
section
/-!
DEFINITION. Waiting (R328 to R331, R346, R351, R364): waiter lists, uniform and per-thread waits and their
completion, EWAIT, and the syscall ring.
-/
namespace Sys2Proof.Machine

/-! ## Waiter lists (Table 18.4) -/

/-- Two counters whose waiters share one list. -/
def State.sameHome (s : State) : CounterRef → CounterRef → Bool
  | .mem a, .mem b => isLocal a && isLocal b && homeColumn a == homeColumn b
  | .scratch t _, .scratch u _ => t == u
  | .slot t g _, .slot u h _ => t == u && g == h
  | .device f n, .device g m => n != 1 && m != 1 && s.columnOf f == s.columnOf g
  | _, _ => false

/-- Entries of a counter's list. -/
def homeCapacity : CounterRef → Nat
  | .mem _ => 4096
  | .scratch _ _ => 256
  | .slot _ _ _ => 16
  | .device _ _ => 64

/-- The list of a counter's home is full. -/
def State.homeFull (s : State) (c : CounterRef) : Bool :=
  homeCapacity c ≤ (s.waiters.filter fun w => w.poll.isNone && !w.satisfied && s.sameHome w.counter c).length

/-- Some wait is registered on a counter, or polls it (R332). -/
def State.waitedOn (s : State) (c : CounterRef) : Bool := s.waiters.any fun w => w.counter == c && !w.satisfied

/-- A wait registers, or falls back to polling (R328, R329). -/
def State.register (s : State) (w : Waiter) : State :=
  { s with waiters := s.waiters ++ [if s.homeFull w.counter then { w with poll := some (s.tick + 64, 64) } else w] }

/-! ## A split that waited goes on -/

/-- A waiter's number for a split of the tree in use: the handler's tree counts from 128. -/
def Fibre.splitKey (f : Fibre) (i : Nat) : Nat := if f.hnd then 128 + i else i

/-- The context of a waiting split's instruction. -/
def State.waitCtx (s : State) (r : FibreRef) (x : Split) (op : Nat) (w : Fields) : Option Ctx :=
  match s.launch? r.team.seq, s.group? r, s.fibre? r with
  | some l, some g, some f =>
    some { r, core := g.core, asid := l.asid, root := l.root, k := l.kernel, g, f, x, op, w, word := 0, pc := x.pc
           parts := guardMask f w x.mask }
  | _, _, _ => none

/-- The running split makes the transfer that its wait has left it; without room for the split entries that this needs, it
is held with the transfer still to make (R291). DEDUCED, unsafe (log 17). -/
def State.proceed (s : State) (c : Ctx) (fl : Flow) (yes : Mask) : State :=
  match roomFor s c fl.kids with
  | none =>
    (s.modFibre c.r fun f => { f with
      hold := .savePool
      splits := modSplit f.splits c.x.idx fun (y : Split) => { y with park := .finished yes c.op c.w } }).handOff c
  | some t =>
    match t.fibre? c.r with
    | some f => t.endSplits c.r c.sige c.pc (fl.run f)
    | none => t

/-- A parked split whose wait has ended is ready: at the address at which it goes on, with its signature, or with its SPLIT
to make when it is next chosen (R292, R330). DEDUCED, unsafe (log 17). -/
def Ctx.readied (c : Ctx) (fl : Flow) (y : Split) : Split :=
  match fl.dest with
  | some (x, sig) => { y with st := .ready, park := .none, pc := x, sig := sig y.sig, again := false }
  | none => { y with st := .ready, park := .finished c.taken c.op c.w }

/-- A wait ends: its results are written; the running split goes on, a parked one is ready (R292, R330, R346). -/
def State.endWait (s : State) (c : Ctx) (ws : List RegWrite) : State :=
  let fl := c.sequence
  let t := if ws.isEmpty then s else s.writeNow c.r ws
  let t := if fl.writes.isEmpty then t else t.commit c.r fl.writes
  (if c.x.st == .running then t.proceed c fl c.taken
   else t.modFibre c.r fun f => { f with splits := modSplit f.splits c.x.idx (c.readied fl) }).wakeCore c.core

/-- A split that runs with the SPLIT of an ended wait still to make makes it; it issues nothing. -/
def State.finishWait (s : State) (r : FibreRef) (x : Split) (yes : Mask) (op : Nat) (w : Fields) : State :=
  match s.waitCtx r x op w with
  | some c => s.proceed c (c.divideBy yes) yes
  | none => s

/-! ## Uniform waits (R330, R346, R347, R351) -/

/-- The uniform wait of a fibre completes, satisfied or killed. -/
def State.completeUniform (s : State) (r : FibreRef) (killed : Bool) : State :=
  match s.fibre? r with
  | none => s
  | some f =>
    match f.hold, f.run? with
    | .wait u, some x =>
      let s := s.modFibre r fun f => { f with hold := .none }
      let s := s.withdraw fun a => a == .fibre r
      match s.waitCtx r x u.op u.w with
      | none => s
      | some c =>
        let s := if killed then s else s.acquire c.core (if u.kind = 3 then 2 else scopeOf u.w)
        let status : List RegWrite :=
          if u.kind != 3 && u.w.m.getLsbD 0 then [⟨.uni u.w.d.toNat, if killed then 1 else 0⟩] else []
        s.endWait c status
    | _, _ => s

/-- EWAIT is evaluated when an operation of its class completes. -/
def State.evalEwait (s : State) (r : FibreRef) : State :=
  match s.fibre? r with
  | some f =>
    match f.hold with
    | .wait u => if u.kind = 3 && (f.counts.left u.counterKind).toNat ≤ u.operand.toNat then s.completeUniform r false else s
    | _ => s
  | none => s

/-- Every EWAIT of a team. -/
def State.evalEwaits (s : State) (r : TeamRef) : State :=
  match s.team? r with
  | some t => t.groups.foldl (fun s g => g.fibres.foldl (fun s f => s.evalEwait ⟨r, g.gid, f.fid⟩) s) s
  | none => s

/-! ## Per-thread waits (R330) -/

/-- One thread of a parked split of the tree in use is satisfied or killed; with the last the wait completes. -/
def State.wakeThread (s : State) (r : FibreRef) (key t : Nat) (killed : Bool) : State :=
  match s.fibre? r with
  | none => s
  | some f =>
    if key != f.splitKey (key % 128) then s
    else
      match findSplit f.splits (key % 128) with
      | none => s
      | some x =>
        match x.park with
        | .threads left dead op w =>
          let left := setBit left t false
          let dead := setBit dead t killed
          let park (y : Split) : Split := { y with park := .threads left dead op w }
          let s := s.modFibre r fun f => { f with splits := modSplit f.splits x.idx park }
          if left != 0 then s
          else
            match s.waitCtx r x op w with
            | none => s
            | some c =>
              let s := if c.parts &&& ~~~dead == 0 then s else s.acquire c.core (scopeOf w)
              let status := if w.m.getLsbD 0 then c.truths fun t => bit dead t else []
              s.endWait c status
        | _ => s

/-- A satisfied wait's wake-up reaches its agent (R328). -/
def State.wake (s : State) (w : Waiter) : State :=
  let s := { s with waiters := s.waiters.erase w }
  match w.agent with
  | .fibre r => s.completeUniform r w.killed
  | .thread r key t => s.wakeThread r key t w.killed
  | _ => s

/-! ## The syscall ring (R270, R364, R395) -/

/-- The ring has no room. -/
def State.syscRingFull (s : State) (col : Nat) : Bool :=
  let x := s.col col
  x.scsize == 0 || (s.wordAt x.scprod.toNat - x.sccons).toNat == 2 ^ x.scsize

/-- The 64 bytes of a syscall entry (Table 20.4). -/
def syscEntry (c : Ctx) (number : BitVec 16) (t : Nat) : List Byte :=
  let arg (i : Nat) : List Byte := bytesLE (readVec c.g c.f (c.w.a.toNat + i) t).toNat 4
  bytesLE (c.r.team.seq % 2 ^ 56) 8 ++ bytesLE c.r.team.idx 4 ++ bytesLE c.core 2 ++ bytesLE c.r.gid 1 ++ bytesLE c.r.fid 1 ++
    bytesLE t 1 ++ bytesLE 0 1 ++ bytesLE number.toNat 2 ++ bytesLE 0 4 ++ arg 0 ++ arg 1 ++ arg 2 ++ arg 3 ++ bytesLE 0 24

/-- Writes the entries of a SYSC, in order of threads, while the ring has room; its release waits for the peers (R196). -/
def State.writeSysc (s : State) (c : Ctx) (q : SyscRun) : State × SyscRun :=
  let x := s.col c.col
  let s := s.drainHome c.core
  (threads q.todo).foldl (fun (s, q) t =>
    if s.syscRingFull c.col || !s.acked c.core || q.todo &&& ((1#64 <<< t) - 1) != 0 then (s, q)
    else
      let i := (s.wordAt x.scprod.toNat).toNat
      let loc := x.scbase.toNat + 64 * (i % 2 ^ x.scsize)
      let s := s.writeLoc loc (syscEntry c q.number t)
      (s.addLoc x.scprod.toNat 1, { q with todo := setBit q.todo t false, entries := q.entries ++ [(t, loc)] })) (s, q)

/-- A SYSC whose last result has arrived goes on. -/
def State.endSysc (s : State) (r : FibreRef) : State :=
  match s.fibre? r with
  | none => s
  | some f =>
    match f.sysc, f.run? with
    | some q, some x =>
      if q.todo != 0 || !q.entries.isEmpty || f.hold != .syscall then s
      else
        let s := s.modFibre r fun f => { f with sysc := none, hold := .none, counts := f.counts.complete 3 }
        match s.waitCtx r x 0x0B q.w with
        | some c => s.endWait c []
        | none => s
    | _, _ => s

/-- The fibres of a column whose SYSC has entries to write go on with it (R270). -/
def State.retrySysc (s : State) (col : Nat) : State :=
  let go (s : State) (r : FibreRef) : State :=
    match s.fibre? r with
    | none => s
    | some f =>
      match f.sysc, f.run? with
      | some q, some x =>
        if q.todo == 0 || f.hold != .syscall then s
        else
          match s.waitCtx r x 0x0B q.w with
          | some c =>
            let (s, q) := s.writeSysc c q
            s.modFibre r fun f => { f with sysc := some q }
          | none => s
      | _, _ => s
  (s.teams.filter fun t => colOf t.core == col).foldl (fun s t =>
    t.groups.foldl (fun s g => g.fibres.foldl (fun s f => go s ⟨t.ref, g.gid, f.fid⟩) s) s) s

/-- The answer of a thread's entry reaches its register (R364). -/
def State.answerSysc (s : State) (r : FibreRef) (t : Nat) : State :=
  match s.fibre? r with
  | none => s
  | some f =>
    match f.sysc with
    | none => s
    | some q =>
      match q.entries.lookup t with
      | none => s
      | some loc =>
        if f.hold != .syscall || !satisfies (s.wordAt (loc + 0x30)) 1 then s
        else
          let s := s.writeNow r (vecWrites true q.w.d.toNat t (s.wordAt (loc + 0x28)))
          let s := s.modFibre r fun f =>
            { f with sysc := some { q with entries := q.entries.filter fun e => e.1 != t } }
          s.endSysc r

end Sys2Proof.Machine
end

