-- ==== Sys2Proof/Machine/Governor.lean ====
section
/-!
DEFINITION. The column power registers (Tables 25.2 and 25.3), as SRD, SWR and the column's control page reach
them (R410, R411), and the throttle step (R414).
-/
namespace Sys2Proof.Machine

/-- The level that a column has once its ordered steps have taken effect. -/
def Column.goal (x : Column) : Nat := (x.steps.getLast?.map (·.1)).getD x.level

/-- A throttle step takes effect: the level changes, counter 5 rises and an event of kind 5 is written (R414). -/
def State.takeStep (s : State) (c new sub : Nat) : State :=
  let x := s.col c
  let s := (s.rebase c).modCol c fun y => { y with level := new, throttles := y.throttles + 1, lastStep := some s.tick }
  let s := s.evaluateDevice 5
  s.event c { kind := 5, sub, d0 := BitVec.ofNat 64 (x.level + 256 * new + 65536 * x.temp.toNat)
              d1 := BitVec.ofNat 64 (s.clkMHz c) }

/-- A throttle step is ordered; it takes effect at a tick boundary (R414). -/
def State.stepLevel (s : State) (c new sub : Nat) : State :=
  if s.now % unitsPerTick = 0 then s.takeStep c new sub else s.modCol c fun x => { x with steps := x.steps ++ [(new, sub)] }

/-- At a tick boundary the ordered steps of a column take effect. -/
def State.takeSteps (s : State) (c : Nat) : State :=
  (s.col c).steps.foldl (fun s x => if (s.col c).level = x.1 then s else s.takeStep c x.1 x.2)
    (s.modCol c fun x => { x with steps := [] })

/-- Spare rows of a shank after start: 1/16 of the 65,536 rows that Table 17.5's ROW can name. DESIGN CHOICE, unsafe (log
53). -/
def spareRows : Nat := 4096

/-- Spare rows left on a shank. -/
def Column.sparesOf (x : Column) (shank : Nat) : Nat := look spareRows x.spares shank

/-- SHTEST.SPR: the fewest spare rows left on any of the column's shanks. DESIGN CHOICE, unsafe (log 53). -/
def Column.fewestSpares (x : Column) : Nat :=
  min (min (x.sparesOf 0) (x.sparesOf 1)) (min (x.sparesOf 2) (x.sparesOf 3))

/-- The value of column power register n. -/
def State.readPower (s : State) (c n : Nat) : DWord :=
  let x := s.col c
  let b (v : Bool) (i : Nat) : Nat := if v then 2 ^ i else 0
  let cl := clusterOf c
  BitVec.ofNat 64 (match n with
    | 0x30 => b (look false s.breq cl) 0 + x.lmin.toNat * 2 ^ 8
    | 0x31 => x.level + look 0 s.opPoint cl * 2 ^ 4 + b x.supCap 6 + look 0 s.refusals cl * 2 ^ 8 + x.temp.toNat * 2 ^ 16 +
        s.clkMHz c * 2 ^ 32
    | 0x32 => x.tup.toNat + x.tdn.toNat * 2 ^ 16 + x.tcrit.toNat * 2 ^ 32
    | 0x33 => b x.pgen 0 + x.gidle.toNat * 2 ^ 8 + x.bidle.toNat * 2 ^ 32
    | 0x34 => b x.supCap 0 + b x.supEvt 1 + x.supDrop.toNat * 2 ^ 16 + x.supNsmp.toNat * 2 ^ 32
    | 0x35 => x.scrubArr.toNat + x.scrubSpd.toNat * 2 ^ 8 + x.scrubLlc.toNat * 2 ^ 16 + x.scrubIns.toNat * 2 ^ 24 +
        x.scrubHbm.toNat * 2 ^ 32
    | 0x36 => x.elbase.toNat
    | 0x37 => x.ellsz + x.elwidx.toNat * 2 ^ 16 + x.elovf.toNat * 2 ^ 48
    | 0x38 => x.elcons.toNat
    | 0x39 => b x.shTen 0 + b x.shNosp 1 + x.shRate.toNat * 2 ^ 8 + x.fewestSpares % 2 ^ 16 * 2 ^ 16 +
        (match x.shBusy with
          | some k => 2 ^ (32 + k)
          | none => 0)
    | _ => 0)

/-- GOVCTL: the boost request of the cluster and the throttle floor, with its step; until the first sample the level stays
at the floor, and follows it down without a step (R411, R414). DESIGN CHOICE, unsafe (log 84). -/
def State.writeGovctl (s : State) (c : Nat) (v : DWord) : State :=
  let s : State := { s with breq := put false s.breq (clusterOf c) (v.getLsbD 0) }
  let s := s.modCol c fun x => { x with lmin := v.extractLsb' 8 3 }
  let l := fld v 10 8
  let x := s.col c
  if x.goal < l then s.stepLevel c l 4
  else if x.lastSample.isNone && s.tick < 1000 && l < x.goal then (s.rebase c).modCol c fun x => { x with level := l, steps := [] }
  else s

/-- TTRIP: ignored whole unless TDN < TUP < TCRIT (R411). -/
def State.writeTtrip (s : State) (c : Nat) (v : DWord) : State :=
  let tup := fld v 15 0
  let tdn := fld v 31 16
  let tcrit := fld v 47 32
  if tdn < tup ∧ tup < tcrit then
    s.modCol c fun x => { x with tup := BitVec.ofNat 16 tup, tdn := BitVec.ofNat 16 tdn, tcrit := BitVec.ofNat 16 tcrit }
  else s

/-- A write of column power register n (Table 25.3). -/
def State.writePower (s : State) (c n : Nat) (v : DWord) : State :=
  match n with
  | 0x30 => s.writeGovctl c v
  | 0x32 => s.writeTtrip c v
  | 0x33 => s.modCol c fun x =>
      { x with bidle := v.extractLsb' 32 32, gidle := v.extractLsb' 8 24, pgen := v.getLsbD 0 }
  | 0x34 => s.modCol c fun x => { x with supEvt := x.supEvt && !v.getLsbD 1 }
  | 0x35 => s.modCol c fun x =>
      { x with scrubHbm := v.extractLsb' 32 8, scrubIns := v.extractLsb' 24 8, scrubLlc := v.extractLsb' 16 8
               scrubSpd := v.extractLsb' 8 8, scrubArr := v.extractLsb' 0 8 }
  | 0x36 => s.modCol c fun x => { x with elbase := v &&& ~~~0x3F, elRecent := [] }
  | 0x37 => s.modCol c fun x => { x with ellsz := if 4 ≤ fld v 4 0 ∧ fld v 4 0 ≤ 16 then fld v 4 0 else 0, elRecent := [] }
  | 0x38 => s.modCol c fun x => { x with elcons := v.extractLsb' 0 32 }
  | 0x39 => s.modCol c fun x =>
      { x with shRate := if fld v 15 8 = 0 then 1 else v.extractLsb' 8 8, shTen := v.getLsbD 0
               shBusy := if v.getLsbD 0 then x.shBusy else none }
  | _ => s

end Sys2Proof.Machine
end

