-- ==== Sys2Proof/Machine/System.lean ====
section
/-!
DEFINITION. System instructions: TRAP, TRET, SYSC, BRK, SRD, SWR, TCKPT and TLBINV (R79 to R85, R360 to R365, R369).
-/
namespace Sys2Proof.Machine

/-! ## TRAP, BRK and TRET -/

/-- TRAP and BRK (R360). -/
def raiseBody (cause code : Nat) (c : Ctx) (s : State) : Effect :=
  if c.parts == 0 then noEffect s else .stop (.trap cause (BitVec.ofNat 64 code) c.parts [])

def trapBody (c : Ctx) (s : State) : Effect := raiseBody 12 (fld c.w.x 15 0) c s
def brkBody (c : Ctx) (s : State) : Effect := raiseBody 13 c.w.f.toNat c s

/-- TRET ends: the handler's block and its splits' waits go, and the frozen table comes back (R361). -/
def tretDone (c : Ctx) (s : State) (z : Frozen) (pc : DWord) (sig : Word) : Effect :=
  let s := (s.freeArea c.f.hspill).withdraw fun a => match a with
    | .thread r key _ => r == c.r && decide (128 ≤ key)
    | _ => false
  let again := !z.emptied.contains z.run && (findSplit z.splits z.run).any fun x => x.pc == pc
  let s := if again then s else s.forgetFreed c.r
  .done { s, flow := some { run := fun f => f.leave z pc sig } }

/-- TRET (R361, R362). -/
def tretBody (c : Ctx) (s : State) : Effect :=
  match c.f.frozen with
  | none => noEffect s
  | some z =>
    if c.w.f.getLsbD 0 && !z.emptied.contains z.run then
      match s.fetchWord c.space c.f.tpc.toNat with
      | .fault cause reason => .stop (.lodge cause reason c.act [(0, c.f.tpc)])
      | .ok (x, s) => tretDone c s z (c.f.tpc + BitVec.ofNat 64 (4 * wordCount x)) (hash z.fsig x)
    else tretDone c s z c.f.tpc z.fsig

/-! ## SRD and SWR (R79, R363) -/

/-- FSTAT (Table 4.4). -/
def fstat (s : State) (c : Ctx) : DWord :=
  let b (v : Bool) (i : Nat) : Nat := if v then 2 ^ i else 0
  let iv := (s.team? c.r.team).bind (·.interval)
  BitVec.ofNat 64 (c.r.fid + 4 + b c.f.hnd 3 + b (checking s c.k c.core) 4 + b iv.isSome 5 +
    b ((iv.map (·.unsafeMark)).getD false) 6 + b c.sige 7 + (c.f.splits.filter fun x => x.hw.isSome).length * 2 ^ 8 +
    b (anySpilled c.f.splits) 13)

/-- WIN (Table 4.7). -/
def winReg (c : Ctx) : DWord :=
  let pw := (c.k.fibres.zipIdx.map fun (e, i) => e.priv / 8 * 32 ^ i).sum
  BitVec.ofNat 64 (pw + c.k.shared / 8 * 2 ^ 20 + (c.k.fibres.length - 1) * 2 ^ 24 + c.g.base * 2 ^ 26)

/-- FSIG with the instruction's own word hashed in (R299). -/
def Ctx.ownSig (c : Ctx) : Word := if c.x.again then c.f.fsig else hash c.f.fsig c.word

/-- A system register read whole (Table 4.3). -/
def sysReg (s : State) (c : Ctx) (n : Nat) : DWord :=
  match n with
  | 0x00 => fstat s c
  | 0x01 => c.act
  | 0x02 => c.f.fpri.setWidth 64
  | 0x03 => c.ownSig.setWidth 64
  | 0x04 => c.f.fflags.setWidth 64
  | 0x05 => c.f.tvec
  | 0x06 => c.f.tpc
  | 0x07 => c.f.tcause
  | 0x08 => c.f.tinfo
  | 0x09 => c.f.tmask
  | 0x10 => winReg c
  | 0x20 => if (s.core c.core).chk then 1 else 0
  | 0x21 => (s.core c.core).wdt.setWidth 64
  | 0x22 => (s.core c.core).wcage.setWidth 64
  | _ => s.readPower c.col n

/-- Results of floating-point and conversion instructions that are not written yet: FFLAGS waits for them (R82). -/
def flagWaits (c : Ctx) (n : Nat) : List Nat :=
  if n = 0x04 then (c.f.outstanding.filter (·.float)).map (·.id) else []

/-- SRD. -/
def srdBody (c : Ctx) (s : State) : Effect :=
  let n := c.w.a.toNat
  let waits := flagWaits c n
  if !waits.isEmpty then .stalled waits
  else .done { s, fixed := c.results true false fun t => if c.w.u then sysReg s c n else look 0 c.f.taddr t }

/-- WDT holds 16 to 40 (R81). -/
def clampWdt (v : BitVec 6) : BitVec 6 := if v < 16 then 16 else if 40 < v then 40 else v

/-- The watchdog exponent in force in a core: a write counts from the next core cycle (R85). -/
def State.wdtNow (s : State) (core : Nat) : BitVec 6 :=
  let k := s.core core
  match k.wdtOld with
  | some (cycle, n) => if s.coreCycle core ≤ cycle then n else k.wdt
  | none => k.wdt

/-- A write of a fibre's register; every other one of the fibre is read-only. -/
def Fibre.writeReg (f : Fibre) (n : Nat) (v : DWord) : Fibre :=
  match n with
  | 0x02 => { f with fpri := v.setWidth 4 }
  | 0x03 => { f with fsig := v.setWidth 32 }
  | 0x04 => { f with fflags := v.setWidth 5 }
  | 0x05 => { f with tvec := v &&& ~~~3 }
  | 0x06 => { f with tpc := v &&& ~~~3 }
  | _ => f

/-- A write of a register of the core or the column. -/
def State.writeSysReg (s : State) (c : Ctx) (n : Nat) (v : DWord) : State :=
  match n with
  | 0x20 => s.modCore c.core fun k => { k with chk := v.getLsbD 0 }
  | 0x21 => s.modCore c.core fun k => { k with wdt := clampWdt (v.setWidth 6), wdtOld := some (s.coreCycle c.core, s.wdtNow c.core) }
  | 0x22 => s.modCore c.core fun k => { k with wcage := v.setWidth 6 }
  | _ => if 0x30 ≤ n then s.writePower c.col n v else s

/-- SWR. -/
def swrBody (c : Ctx) (s : State) : Effect :=
  let n := c.w.d.toNat
  let v := uniOperand s c c.w.a.toNat uniThread
  let waits := flagWaits c n
  if !waits.isEmpty then .stalled waits
  else .done { s := s.writeSysReg c n v, after := fun f => f.writeReg n v }

/-! ## SYSC (R364) -/

/-- The running split's instruction is not hashed when it is issued again. DEDUCED, unsafe (log 17). -/
def Fibre.markAgain (f : Fibre) : Fibre :=
  { f with splits := f.splits.map fun (y : Split) => if y.st == .running then { y with again := true, missed := false } else y }

/-- The SYSC that a fibre goes on with, or a new one. -/
def syscRun (s : State) (c : Ctx) : State × SyscRun :=
  let number : BitVec 16 := (srcB s c true (lowest c.act)).setWidth 16
  let new : State × SyscRun :=
    ((s.makeUnsafe c.r.team).modFibre c.r fun f => { f with counts := { f.counts with sysI := f.counts.sysI + 1 } },
     { pc := c.pc, sig := c.f.fsig, todo := c.parts, entries := [], w := c.w, number })
  match c.f.sysc with
  | some q => if q.pc == c.pc && q.w == c.w then (s, q) else new
  | none => new

/-- SYSC. -/
def syscBody (c : Ctx) (s : State) : Effect :=
  if c.parts == 0 then .done { s, point := true }
  else
    let (s, q) := syscRun s c
    let (s, q) := s.writeSysc c q
    if q.todo == 0 && q.entries.isEmpty then
      .done { s, point := true, after := fun f => { f with sysc := none, counts := f.counts.complete 3 } }
    else .done { s, point := true, parks := true, flow := some { run := fun f => .ok { f.markAgain with hold := .syscall, sysc := some q } } }

/-! ## TCKPT (R369) -/

/-- TCKPT. -/
def tckptBody (c : Ctx) (s : State) : Effect :=
  if !c.k.rollback then noEffect s
  else if c.f.ckptPass then
    let back := c.f.ckptBack
    .done { s, hashed := !back
            after := fun f => { f with ckptPass := false, ckptBack := false, fsig := if back then 0 else f.fsig } }
  else if !(c.f.outstanding.filter (·.due.isNone)).isEmpty then
    .stalled ((c.f.outstanding.filter (·.due.isNone)).map (·.id))
  else .held s .checkpoint

/-! ## TLBINV and SFENCE.VMA (R174, R331, R365) -/

/-- A shoot-down by page, by ASID or of everything reaches a TLB entry. DEDUCED, unsafe (log 30). -/
def shootsEntry (asid va : Option Nat) (e : TlbEntry) : Bool :=
  match va, asid with
  | some a, some i => e.covers i a
  | some a, none => a >>> e.bits == e.page
  | none, some i => e.asid == i && !pteG e.pte
  | none, none => true

/-- Some TLB has an entry that a test picks. -/
def State.anyTlb (s : State) (p : TlbEntry → Bool) : Bool := s.cores.any (fun x => x.2.tlb.any p) || s.columns.any fun x => x.2.tlb.any p

/-- It reaches the translation of an address that an agent of an ASID uses: its own, or a global one that it drops. -/
def State.shootsAddr (s : State) (asid va : Option Nat) (mine x : Nat) : Bool :=
  let near (e : TlbEntry) (a : Nat) : Bool := e.leaf && a >>> e.bits == e.page && x >>> e.bits == e.page
  (match va with
    | some a => a / 4096 == x / 4096 || s.anyTlb fun e => near e a
    | none => true) &&
  match asid with
  | some i => mine == i || s.anyTlb fun e => e.leaf && pteG e.pte && x >>> e.bits == e.page && shootsEntry asid va e
  | none => true

/-- It reaches the translation of a registered wait. -/
def State.shootsWait (s : State) (asid va : Option Nat) (w : Waiter) : Bool :=
  let mapped := match w.counter with
    | .mem _ => true
    | _ => false
  let ours := match w.agent with
    | .peer _ _ | .gate _ => false
    | _ => true
  s.shootsAddr asid va w.asid w.va.toNat && mapped && ours && !w.satisfied

/-- The fibre or split of a wait issues its instruction again. -/
def State.reissue (s : State) (a : WaitAgent) : State :=
  match a with
  | .fibre r => ((s.withdraw (· == a)).modFibre r fun f => { f with hold := .none }).wakeFibre r
  | .thread r key _ =>
    let s := s.withdraw fun b => match b with
      | .thread q k _ => q == r && k == key
      | _ => false
    let ready (l : List Split) : List Split := modSplit l (key % 128) fun y =>
      match y.park with
      | .threads _ _ _ _ => { y with st := .ready, park := .none, again := true }
      | _ => y
    (s.modFibre r fun f =>
      if key < 128 && f.hnd then { f with frozen := f.frozen.map fun z => { z with splits := ready z.splits } }
      else { f with splits := ready f.splits }).wakeFibre r
  | _ => s

/-- The address space in which a wait's address is translated. -/
def State.waitSpace (s : State) (a : WaitAgent) : Option Space :=
  match a with
  | .fibre r => (s.group? r).map fun g => s.spaceOf g.core r.team.seq
  | .thread r _ _ => (s.group? r).map fun g => s.spaceOf g.core r.team.seq
  | _ => none

/-- A counter stands in a poisoned sector or a marked line, so that an operation on it is consumption whatever the page's
ETP bit (R327). -/
def State.counterBad (s : State) : CounterRef → Bool
  | .mem loc => !(s.poisoned loc 8).isEmpty
  | .scratch r o => (s.team? r).any fun t => t.marked.contains (.line (o / 128 * 128))
  | _ => false

/-- The fibre that waits, and the split of its wait. -/
def State.waitSplit (s : State) (a : WaitAgent) : Option (FibreRef × Split) :=
  let inTree (r : FibreRef) (find : Fibre → Option Split) : Option (FibreRef × Split) :=
    ((s.fibre? r).bind find).map fun x => (r, x)
  match a with
  | .fibre r => inTree r Fibre.run?
  | .thread r key _ => inTree r fun f =>
    findSplit (if key < 128 && f.hnd then (f.frozen.map (·.splits)).getD [] else f.splits) (key % 128)
  | _ => none

/-- A fibre's wait reads its counter again: poison there is cause 24 of its team, at the wait (R327). -/
def State.rereadBad (s : State) (w : Waiter) : Option State :=
  if s.counterBad w.counter then
    (s.waitSplit w.agent).map fun (r, x) => s.teamError r.team 24 (some r) x.pc
  else none

/-- A withdrawn wait is issued again against the current mapping; a fault is met by the instruction itself. DEDUCED,
unsafe (log 30). -/
def State.remap (s : State) (w : Waiter) : State :=
  match s.waitSpace w.agent with
  | none => s
  | some sp =>
    match s.xlate sp .rmw w.va.toNat with
    | .fault _ _ => s.reissue w.agent
    | .ok p =>
      let s := { s with waiters := s.waiters.erase w }.touch sp .rmw w.va.toNat
      let w : Waiter := { w with counter := .mem p.loc, poll := none }
      match s.rereadBad w with
      | some s => s
      | none =>
      let w := { w with satisfied := satisfies (s.counter w.counter) w.threshold }
      let s := if w.satisfied then { s with waiters := s.waiters ++ [w] } else s.register w
      s.evaluate fun c => c == w.counter

/-- Every buffered store, whatever entry translated it, is performed (R174). -/
def State.flushStores (s : State) : State := s.cores.foldl (fun s x => s.drainHome x.1) s

/-- No store is on its way: a shoot-down can complete (R174). -/
def State.allAcked (s : State) : Bool := s.cores.all fun (_, k) => k.flight.isEmpty

/-- The counters of a copy under way are translated again before their adds (R174). -/
def State.staleCounter (s : State) (asid va : Option Nat) (q : CopyReq) : CopyReq :=
  let hit (a : DWord) : Bool := a != 0 && s.shootsAddr asid va (((s.launch? q.team.seq).map (·.asid)).getD 0) a.toNat
  { q with stale := q.stale || hit q.cmd.rel || hit q.cmd.comp }

/-- A shoot-down in every column. -/
def State.shoot (s : State) (asid va : Option Nat) : State :=
  let hit := s.waiters.filter fun w => s.shootsWait asid va w
  let s : State := { s with cores := s.cores.map fun x => (x.1, { x.2 with reqs := x.2.reqs.map (s.staleCounter asid va) }) }
  hit.foldl (fun s w => if s.waiters.contains w then s.remap w else s) (s.dropTlb (shootsEntry asid va))

/-- TLBINV: it completes once every store translated before has been performed (R174). -/
def tlbinvBody (c : Ctx) (s : State) : Effect :=
  let a := some (uniOperand s c c.w.a.toNat uniThread).toNat
  let s := s.flushStores
  if !s.allAcked then .unacked s (s.cores.map (·.1))
  else .done { s := match fld c.w.f 1 0 with
    | 0 => s.shoot (some c.asid) a
    | 1 => s.shoot (some c.asid) none
    | 2 => s.shoot (some ((uniOperand s c c.w.b.toNat uniThread).toNat % 65536)) a
    | _ => s.shoot none none }

/-! ## Meanings -/

def execTrap (w : Fields) (s : State) := s.issue 0x09 w trapBody
def execTretShort (k y : Bool) (s : State) := s.issue 0x0A (shortWord true y 0 0 (if k then 1 else 0)) tretBody
def execTret (w : Fields) (s : State) := s.issue 0x0A w tretBody
def execSysc (w : Fields) (s : State) := s.issue 0x0B w syscBody
def execBrkShort (n : BitVec 4) (y : Bool) (s : State) := s.issue 0x0C (shortWord false y 0 0 n) brkBody
def execBrk (w : Fields) (s : State) := s.issue 0x0C w brkBody
def execSrdShort (a d : BitVec 8) (u y : Bool) (s : State) := s.issue 0x0F (shortWord u y a d 0) srdBody
def execSrd (w : Fields) (s : State) := s.issue 0x0F w srdBody
def execSwrShort (a d : BitVec 8) (y : Bool) (s : State) := s.issue 0x10 (shortWord true y a d 0) swrBody
def execSwr (w : Fields) (s : State) := s.issue 0x10 w swrBody
def execTckptShort (y : Bool) (s : State) := s.issue 0x11 (shortWord true y 0 0 0) tckptBody
def execTckpt (w : Fields) (s : State) := s.issue 0x11 w tckptBody
/-- A word that does not decode (R71, R72). -/
def execIllegalInstruction (bits : BitVec 160) (s : State) := s.issueIllegal bits
def execTlbinv (w : Fields) (s : State) := s.issue 0x12 w tlbinvBody

end Sys2Proof.Machine
end

