-- ==== Sys2Proof/Machine/Counter.lean ====
section
/-!
DEFINITION. Counter instructions, opcodes 0xD0 to 0xD8 (R322 to R332, R342 to R353).
-/
namespace Sys2Proof.Machine

/-! ## The counters that an instruction names (R343, R344) -/

/-- A counter of one participant, with its home in memory or scratchpad and its address. -/
structure CounterAt where
  t : Nat
  ref : CounterRef
  home : Option Home := none
  va : DWord := 0
  deriving DecidableEq, Repr

/-- Counter kind. -/
def counterKind (w : Fields) : Nat := w.f.toNat % 4

/-- Checks an instruction's counters in the order of R344 and opens their homes: `pre` is a further trap that needs no
translation, `local_` the trap of a counter in a peer's page, which comes before anything is read. -/
def State.openCounters (s : State) (c : Ctx) (pre : Option Stop) (local_ : Option Stop := none) : Except Stop (List CounterAt × State) :=
  let scope := scopeOf c.w
  if s.scopeMissing scope then .error (scopeTrap scope c.parts)
  else if counterKind c.w != 0 then
    let n := c.w.a.toNat
    match pre with
    | some e => .error e
    | none =>
      .ok ([{ t := uniThread, ref := if counterKind c.w = 1 then .slot c.r.team c.r.gid n else .device c.r n }], s)
  else
    let l := c.steps.map fun t => Req.generic t (srcA s c true t)
    match (alignStop c true 8 5 l).orElse fun _ => pre with
    | some e => .error e
    | none =>
      match s.locateAll c.space .rmw 8 l with
      | .error e => .error e
      | .ok r =>
        match if anyRemote r then local_ else none with
        | some e => .error e
        | none =>
        if s.consumes none c.r.team true (r.flatMap (·.2)) then .error (.team 24)
        else
          let s := r.foldl (fun s (_, ps) => s.homeOpen c .rmw (homeOf ps) 8) s
          let s := if anyRemote r then s.makeUnsafe c.r.team else s
          .ok (r.map fun (q, ps) =>
            { t := q.t, ref := (homeOf ps).counter c.r.team, home := some (homeOf ps), va := BitVec.ofNat 64 q.va }, s)

/-- Requests to counters of peers, with whether they change memory (R335, R400). -/
def remotesOf (l : List CounterAt) (changes : Bool) : List (Nat × Bool) :=
  l.filterMap fun a => match a.ref with
    | .mem loc => if isPeer loc then some (loc, changes) else none
    | _ => none

/-- The words of counters as accesses. -/
def locatedOf (l : List CounterAt) : Located :=
  l.map fun a => ({ t := a.t, va := a.va.toNat, off := none }, a.home.toList.map fun h => { pos := 0, len := 8, home := h })

/-- Writes a counter's value at its home. -/
def State.writeCounter (s : State) (c : Ctx) (a : CounterAt) (v : DWord) : State :=
  match a.ref, a.home with
  | .slot r g n, _ => s.writeSlotCounter r g n v
  | _, some h => s.homeWrite c.r.team h 8 v.toNat
  | _, none => s

/-- The distant-threshold trap of some threads (R325). -/
def distantTrap (l : List Nat) : Stop := .trap 7 0 (maskOf fun t => l.contains t) []

/-! ## CADD (R345) -/

def caddBody (c : Ctx) (s : State) : Effect :=
  if c.steps.isEmpty then noEffect s
  else
    match s.openCounters c none with
    | .error e => .stop e
    | .ok (l, s) =>
      let scope := scopeOf c.w
      let remote := !(remotesOf l true).isEmpty
      let s := s.releaseFor c remote scope
      if s.releaseWaits c remote scope then .unacked s [c.core]
      else
      let s := if 2 < scope then s.makeUnsafe c.r.team else s
      let (olds, s) := l.foldl (fun (acc, s) a =>
        let old := s.counter a.ref
        let s := match a.ref with
          | .mem loc => if scope ≤ 2 then s.journal c.r.team (.word loc) else s
          | _ => s
        (acc ++ [(a.t, old)], s.writeCounter c a (old + srcB s c false a.t))) (([] : Sparse DWord), s)
      .done { s
              later := if c.w.m.getLsbD 0 then some (c.results true false fun t => look 0 olds t) else none
              remote := remotesOf l true }

/-! ## CWAIT and CWAITD (R346, R347) -/

/-- Thresholds of the participants. -/
def threshold (s : State) (c : Ctx) (t : Nat) : DWord := srcB s c true t

/-- The fibre waits as a whole. -/
def uniformWait (c : Ctx) (kind counter : Nat) (operand thr deadline : DWord) : Flow :=
  let u : UniformWait :=
    { kind, counterKind := counter, operand, threshold := thr, deadline, op := c.op, w := c.w
      sig := if c.x.again then none else some c.f.fsig }
  { run := fun f => .ok { f.markAgain with hold := .wait u } }

/-- A status of satisfied, where it is asked for. -/
def satisfiedStatus (c : Ctx) : List RegWrite := if c.w.m.getLsbD 0 then c.truths fun _ => false else []

/-- A wait whose threshold is satisfied completes at once. -/
def waitDone (c : Ctx) (s : State) : Effect :=
  .done { s := s.acquire c.core (scopeOf c.w), fixed := satisfiedStatus c, lat := 0, point := true }

/-- A wait registers for one participant. -/
def State.await (s : State) (c : Ctx) (agent : WaitAgent) (a : CounterAt) (thr : DWord) : State :=
  s.register { agent, counter := a.ref, threshold := thr, asid := c.asid, va := a.va }

/-- The counter operand as encoded (Table 4.11). -/
def counterOperand (c : Ctx) (a : CounterAt) : DWord := if a.home.isSome then a.va else c.w.a.setWidth 64

/-- CWAIT. -/
def cwaitBody (c : Ctx) (s : State) : Effect :=
  if c.steps.isEmpty then .done { s, point := true }
  else
    match s.openCounters c none with
    | .error e => .stop e
    | .ok (l, s) =>
      let thr := threshold s c
      let far := l.filter fun a => !c.x.again && distant (s.counter a.ref) (thr a.t)
      let wait := l.filter fun a => !satisfies (s.counter a.ref) (thr a.t)
      if !far.isEmpty then .stop (distantTrap (far.map (·.t)))
      else if s.moves (remotesOf l false) then .held s .fabric
      else
        match wait with
        | [] => waitDone c s
        | a :: _ =>
          if c.w.u then
            let fl := uniformWait c 1 (counterKind c.w) (counterOperand c a) (thr a.t) 0
            .done { s := s.await c (.fibre c.r) a (thr a.t), point := true, parks := true, flow := some fl }
          else
            let left := maskOf fun t => wait.any fun a => a.t == t
            let s := if left == c.parts then s else s.acquire c.core (scopeOf c.w)
            let s := wait.foldl (fun s a => s.await c (.thread c.r (c.f.splitKey c.x.idx) a.t) a (thr a.t)) s
            let park (y : Split) : Split := { y with park := .threads left 0 c.op c.w, again := true }
            .done { s, point := true, parks := true, flow := some { run := fun f => .ok (f.suspend .parked park) } }

/-- CWAITD's deadline. -/
def deadlineOf (s : State) (c : Ctx) : DWord :=
  let v := uniOperand s c c.w.c.toNat uniThread
  if c.w.f.getLsbD 2 then BitVec.ofNat 64 s.tick + v else v

/-- CWAITD. Issued again it makes no distance test, unless it is for a promise-missed trap (R331, R347, R358). -/
def cwaitdBody (c : Ctx) (s : State) : Effect :=
  let tests := !c.x.again || c.x.missed
  let dl := deadlineOf s c
  let now : DWord := BitVec.ofNat 64 s.tick
  match s.openCounters c (if tests && distant now dl then some (.trap 7 1 c.act []) else none) with
  | .error e => .stop e
  | .ok (l, s) =>
    match l with
    | [] => noEffect s
    | a :: _ =>
      let thr := threshold s c a.t
      let v := s.counter a.ref
      if s.moves (remotesOf [a] false) then .held s .fabric
      else if satisfies v thr then waitDone c s
      else if tests && distant v thr then .stop (distantTrap [])
      else if satisfies now dl then .stop (.trap 6 dl c.act [])
      else
        let fl := uniformWait c 2 (counterKind c.w) (counterOperand c a) thr dl
        .done { s := s.await c (.fibre c.r) a thr, point := true, parks := true, flow := some fl }

/-! ## CPOLL and CREAD (R348) -/

/-- CPOLL. -/
def cpollBody (c : Ctx) (s : State) : Effect :=
  if c.steps.isEmpty then noEffect s
  else
    match s.openCounters c none with
    | .error e => .stop e
    | .ok (l, s) =>
      let far := l.filter fun a => distant (s.counter a.ref) (threshold s c a.t)
      let met := (l.filter fun a => satisfies (s.counter a.ref) (threshold s c a.t)).map (·.t)
      if !far.isEmpty then .stop (distantTrap (far.map (·.t)))
      else
        .done { s := if met.isEmpty then s else s.acquire c.core (scopeOf c.w)
                later := some (c.truths fun t => met.contains t), remote := remotesOf l false
                reload := s.reloadOf c (locatedOf l) (l.map fun a => (a.t, threshold s c a.t)) }

/-- CREAD. -/
def creadBody (c : Ctx) (s : State) : Effect :=
  if c.steps.isEmpty then noEffect s
  else
    match s.openCounters c none with
    | .error e => .stop e
    | .ok (l, s) =>
      let vs : Sparse DWord := l.map fun a => (a.t, s.counter a.ref)
      .done { s, later := some (c.results true false fun t => look 0 vs t), remote := remotesOf l false
              reload := s.reloadOf c (locatedOf l) }

/-! ## CINIT and CARM (R332, R349, R350) -/

/-- CINIT. -/
def cinitBody (c : Ctx) (s : State) : Effect :=
  match s.openCounters c none with
  | .error e => .stop e
  | .ok (l, s) =>
    if l.any fun a => s.waitedOn a.ref then .stop (.trap 8 0 c.act [])
    else .done { s := l.foldl (fun s a => s.writeCounter c a (srcB s c true a.t)) s }

/-- CARM's traps that need no translation: its target, then its address. DEDUCED, unsafe (log 26). -/
def carmStop (v a : DWord) : Option Stop :=
  if v.toNat < 2 ^ 14 ∧ v.getLsbD 7 = false then
    (if (windowOff a.toNat).isSome then some (misuse 5 8 0) else none)
  else some (misuse 5 3 0)

/-- CARM. DEDUCED, unsafe (log 26). -/
def carmBody (c : Ctx) (s : State) : Effect :=
  let target := uniOperand s c c.w.c.toNat uniThread
  let va := srcA s c true uniThread
  let l := [Req.generic uniThread va]
  let pre := if va.toNat % 8 != 0 then some (misalignedTrap c.op 5 l) else carmStop target va
  match pre with
  | some e => .stop e
  | none =>
    match s.openCounters c none (some (misuse 5 8 0)) with
    | .error e => .stop e
    | .ok (l, s) =>
      match l with
      | [] => noEffect s
      | a :: _ =>
        let hart := fld target 6 0
        let vector := fld target 13 8
        let thr := threshold s c a.t
        let v := s.counter a.ref
        if distant v thr then .stop (distantTrap [])
        else if satisfies v thr then
          .done { s := (s.makeUnsafe c.r.team).userEvent hart { asid := c.asid, vector, killed := false } }
        else if s.homeFull a.ref then .held s .homeList
        else .done { s := (s.makeUnsafe c.r.team).await c (.host c.asid hart vector) a thr }

/-! ## EWAIT and EREAD (R351) -/

/-- EWAIT. -/
def ewaitBody (c : Ctx) (s : State) : Effect :=
  let k := counterKind c.w
  let n := srcB s c true uniThread
  if (c.f.counts.left k).toNat ≤ n.toNat then .done { s := s.acquire c.core 2, point := true }
  else .done { s, point := true, parks := true, flow := some (uniformWait c 3 k n 0 0) }

/-- EREAD. -/
def ereadBody (c : Ctx) (s : State) : Effect :=
  let k := counterKind c.w
  let v := match fld c.w.f 3 2 with
    | 0 => c.f.counts.left k
    | 1 => c.f.counts.issued k
    | _ => c.f.counts.completed k
  .done { s, later := some [⟨.uni c.w.d.toNat, v⟩] }

/-! ## Meanings -/

def execCadd (w : Fields) (s : State) := s.issue 0xD0 w caddBody
def execCwait (w : Fields) (s : State) := s.issue 0xD1 w cwaitBody
def execCwaitd (w : Fields) (s : State) := s.issue 0xD2 w cwaitdBody
def execCpoll (w : Fields) (s : State) := s.issue 0xD3 w cpollBody
def execCread (w : Fields) (s : State) := s.issue 0xD4 w creadBody
def execCarm (w : Fields) (s : State) := s.issue 0xD5 w carmBody
def execCinit (w : Fields) (s : State) := s.issue 0xD6 w cinitBody
def execEwait (w : Fields) (s : State) := s.issue 0xD7 w ewaitBody
def execEread (w : Fields) (s : State) := s.issue 0xD8 w ereadBody

end Sys2Proof.Machine
end

