-- ==== Sys2Proof/Machine/Copy.lean ====
section
/-!
DEFINITION. Copy instructions, opcodes 0xE0 to 0xE8 (R261 to R263, R274 to R288).
-/
namespace Sys2Proof.Machine

/-- The command that an instruction and its registers give (Tables 15.1 and 15.3). -/
def copyCommand (c : Ctx) : CopyCmd :=
  let a := c.w.a.toNat
  let n := c.w.c.toNat
  let lit := c.w.form == .extLit
  { op := c.op, f := c.w.f, m := c.w.m.extractLsb' 0 3, scope := c.w.m.extractLsb' 3 3
    w0 := readUni c.g c.f a, w1 := readUni c.g c.f (a + 1), w2 := readUni c.g c.f (a + 2)
    rel := readUni c.g c.f n, comp := readUni c.g c.f (n + 1)
    relInc := if lit then c.w.lit.extractLsb' 0 32 else 1, compInc := if lit then c.w.lit.extractLsb' 32 32 else 1 }

/-- CPT, CPL, CPG, CPS, CPX, CPA, CPR and CPZ: the team's earlier stores are performed (R192), the checks made, then a
request-queue entry and a promise, or a wait. -/
def copyBody (c : Ctx) (s : State) : Effect :=
  let cmd := copyCommand c
  match s.team? c.r.team with
  | none => noEffect s
  | some t =>
    let (s, acked) := s.drainTeam t c.k
    if !acked then .unacked s (coresOf t c.k)
    else
      match s.checkCopy c.space t c.k cmd with
      | .error e => .stop e
      | .ok ok =>
        match (s.core c.core).mayTake c.r, (s.core c.core).freeReq with
        | true, some i =>
          if ok.state.startBad cmd ok then .stop (.team 24)
          else
            let (p, s) := (ok.state.leaveQueue c.core c.r).startDynamic c.core i c.r cmd c.pc ok
            .done { s, fixed := [⟨.uni c.w.d.toNat, BitVec.ofNat 64 p⟩] }
        | _, _ => .held (s.awaitEntry c.core c.r) .copyQueue

/-- Cores whose record caches lie in the instance of a scope (Table 10.1). -/
def scopeCores (c : Ctx) (scope core : Nat) : Bool :=
  if scope ≤ 1 then core == c.core
  else if scope = 2 then (if c.k.pair then pairOf core == pairOf c.core else core == c.core)
  else if scope = 3 then colOf core == c.col
  else true

/-- RFLUSH (R287). -/
def rflushBody (c : Ctx) (s : State) : Effect :=
  let scope := scopeOf c.w
  if s.scopeMissing scope then .stop (scopeTrap scope c.act)
  else
    let h := fld (uniOperand s c c.w.a.toNat uniThread) 23 0
    let hit (e : RecordEntry) : Bool :=
      e.seq == c.r.team.seq && (c.w.f.getLsbD 0 || (!e.table && e.num == h))
    let s := s.releaseFor c false scope
    if s.releaseWaits c false scope then .unacked s [c.core]
    else .done { s := { s with cores := s.cores.map fun (i, k) =>
      (i, if scopeCores c scope i then { k with records := k.records.filter fun e => !hit e } else k) } }

/-! ## Meanings -/

def execCpt (w : Fields) (s : State) := s.issue 0xE0 w copyBody
def execCpl (w : Fields) (s : State) := s.issue 0xE1 w copyBody
def execCpg (w : Fields) (s : State) := s.issue 0xE2 w copyBody
def execCps (w : Fields) (s : State) := s.issue 0xE3 w copyBody
def execCpx (w : Fields) (s : State) := s.issue 0xE4 w copyBody
def execCpa (w : Fields) (s : State) := s.issue 0xE5 w copyBody
def execCpr (w : Fields) (s : State) := s.issue 0xE6 w copyBody
def execCpz (w : Fields) (s : State) := s.issue 0xE7 w copyBody
def execRflush (w : Fields) (s : State) := s.issue 0xE8 w rflushBody

end Sys2Proof.Machine
end

