-- ==== Sys2Proof/Machine/Matrix.lean ====
section
/-!
DEFINITION. Matrix and accumulator instructions, opcodes 0xF0 to 0xFF: claims and releases (R242, R243), queued
operations (R232, R244 to R250) and the accumulator port (R251, R252).
-/
namespace Sys2Proof.Machine

/-! ## Claims -/

/-- Items first to first + count − 1 of a claim instruction. -/
def claimRange (c : Ctx) : List Nat := (List.range (c.w.f.toNat + 1)).map fun i => c.w.d.toNat + i

/-- Tag of ACLAIM (Table 13.1). -/
def claimTag (c : Ctx) : Tag :=
  match c.w.m.toNat % 4 with
  | 1 => .fp32 | 2 => .fp64 | _ => .int32

/-- Changes the claim state of a team; a fibre that waits for a release tries again. -/
def Ctx.claims (c : Ctx) (s : State) (t : Team) (f : Team → Team) : Effect :=
  .done { s := (s.modTeam c.r.team f).retryEngine t.core }

/-- Two claim instructions name a common item. -/
def Release.meets (x y : Release) : Bool :=
  x.region == y.region && x.first < y.first + y.count && y.first < x.first + x.count

/-- The claim of an instruction. -/
def claimOf (region : Bool) (c : Ctx) : Release := { fib := c.r, region, first := c.w.d.toNat, count := (claimRange c).length }

/-- A claim that issued before waits for an item of this one (R243). -/
def Team.behind (t : Team) (x : Release) : Bool := (t.claims.takeWhile (· != x)).any x.meets

/-- The items of a claim become claimed, and it waits no longer. -/
def Team.claim (t : Team) (region : Bool) (c : Ctx) : Team :=
  let t := { t with claims := t.claims.filter (· != claimOf region c) }
  if region then
    { t with regions := (claimRange c).foldl (fun m n => m.filter (·.1 < n) ++ (n, claimTag c) :: m.filter (n < ·.1)) t.regions }
  else { t with tiles := claimRange c ++ t.tiles }

/-- TCLAIM and ACLAIM: all items unclaimed, or wait for their releases, in the order of issue (R242, R243). -/
def claimBody (region : Bool) (c : Ctx) (s : State) : Effect :=
  match s.team? c.r.team with
  | none => noEffect s
  | some t =>
    let limit := if region then c.k.regions else c.k.slots
    let claimed (n : Nat) : Bool := if region then (t.tag? n).isSome else t.tiles.contains n
    let mine := claimOf region c
    match (claimRange c).find? fun n => limit ≤ n || (claimed n && !t.releasing region n) with
    | some n => .stop (misuse (if region then 1 else 0) 0 n)
    | none =>
      if (claimRange c).any (t.releasing region) || t.behind mine then
        .held (if t.claims.contains mine then s else s.modTeam c.r.team fun t => { t with claims := t.claims ++ [mine] }) .engine
      else c.claims s t fun t => t.claim region c

/-- TREL and AREL: a mark at issue; the items become free when the waits end (`State.retryEngine`), and the instruction,
which issues again and finds its own mark, is complete (R242). -/
def releaseBody (region : Bool) (c : Ctx) (s : State) : Effect :=
  match s.team? c.r.team with
  | none => noEffect s
  | some t =>
    let mine := claimOf region c
    let ended := t.releases.contains { mine with freed := true }
    let own := t.releases.contains mine
    let ok (n : Nat) : Bool := if region then (t.regionOk c.k n).isSome else t.tileOk c.k n
    if ended then .done { s := s.modTeam c.r.team fun t => { t with releases := t.releases.filter (· != { mine with freed := true }) } }
    else
      match (if own then none else (claimRange c).find? fun n => !ok n) with
      | some n => .stop (misuse (if region then 1 else 0) 0 n)
      | none =>
        if s.releaseBusy t mine then
          .held (if own then s else s.modTeam c.r.team fun t => { t with releases := mine :: t.releases }) .engine
        else c.claims s t fun t => { t.free mine with releases := t.releases.filter (· != mine) }

/-! ## Queued operations -/

/-- Takes an entry of the engine's queue, or waits for one (R232). -/
def queueOp (c : Ctx) (s : State) (t : Team) : Effect :=
  if engineEntries ≤ (s.core t.core).engine.length then .held s .engine
  else .done { s := s.enqueue t.core c.r c.op c.w c.pc (lanesPerCore * (c.core - t.core) + c.g.lane) }

/-- The check of a tile operand (Table 12.1). -/
def checkTile (t : Team) (k : Kernel) (pos n : Nat) : Except Stop Unit :=
  if t.tileOk k n then .ok () else .error (misuse 0 pos n)

/-- The checks of an operation in the order of its operands (R241). -/
def checkedOp (check : Team → Ctx → Except Stop Unit) (c : Ctx) (s : State) : Effect :=
  match s.team? c.r.team with
  | none => noEffect s
  | some t =>
    match check t c with
    | .error e => .stop e
    | .ok _ => queueOp c s t

/-- MMA (R244). -/
def checkMma (t : Team) (c : Ctx) : Except Stop Unit := do
  let w := c.w
  let fa := mmaA w
  let tag := mmaTag c.op fa
  let _ ← t.checkRect c.k 0 w.d.toNat (row0Of w) (col0Of w) (mmaShape c.op fa (mmaB w)).1 (fun _ => mmaCols) [tag]
    (c.op == 0xFA)
  checkTile t c.k 1 w.a.toNat
  checkTile t c.k 2 w.b.toNat

/-- Two rectangles of an operation share no cell. -/
def apart (x y : Rect) (reg : Nat) : Except Stop Unit := if x.overlaps y then .error (misuse 1 1 reg) else .ok ()

/-- ASA (R246). -/
def checkAsa (t : Team) (c : Ctx) : Except Stop Unit := do
  let w := c.w
  let (x, _) ← t.checkRect c.k 0 w.d.toNat (row0Of w) (col0Of w) (rowsOf w) (fun g => elsOf w * g.width) [.fp32, .fp64]
    false
  let (y, _) ← t.checkRect c.k 1 w.a.toNat (row1Of w) (col1Of w) (rowsOf w) (fun _ => elsOf w) [.fp32, .int32] false
  apart x y w.a.toNat
  checkTile t c.k 2 w.b.toNat

/-- AZERO (R248). -/
def checkAzero (t : Team) (c : Ctx) : Except Stop Unit :=
  match (claimRange c).find? fun n => (t.regionOk c.k n).isNone with
  | some n => .error (misuse 1 0 n)
  | none => .ok ()

/-- ARED (R249). -/
def checkAred (t : Team) (c : Ctx) : Except Stop Unit := do
  let w := c.w
  let need : List Tag := if w.m.getLsbD 2 then [.int32] else [.fp32, .fp64, .int32]
  let (x, tag) ← t.checkRect c.k 0 w.d.toNat (row0Of w) (col0Of w) (rowsOf w) Tag.width need false
  let (y, _) ← t.checkRect c.k 1 w.a.toNat (row1Of w) (col1Of w) (rowsOf w) (fun g => elsOf w * g.width) [tag] false
  apart x y w.a.toNat

/-! ## The accumulator port -/

/-- The first cell of a thread: origin of the named region, offsets of X, and those of the index (R251). -/
def portCell (s : State) (c : Ctx) (reg t : Nat) : Nat × Nat :=
  let v := srcB s c false t
  let x := rectAt reg (row0Of c.w) (col0Of c.w) 0 0
  (x.r0 + fld v 7 0, x.c0 + fld v 15 8)

/-- `.w64` -/
def portWide (c : Ctx) : Bool := c.w.f.getLsbD 0

/-- The region that fails at a cell, if the access may not use it (R230, R251). DEDUCED, unsafe (log 28). -/
def portFails (t : Team) (c : Ctx) (reg : Nat) (x : Nat × Nat) : Option Nat :=
  let n := 4 * (x.1 / 64) + x.2 / 64
  if 256 ≤ x.1 || 256 ≤ x.2 then some reg
  else if (t.regionOk c.k n).isNone || (portWide c && x.2 % 2 == 1) then some n
  else none

/-- ARD and AWR: the checks of every participant, the waits, then the access (R251, R252). -/
def portBody (pos reg : Nat) (act : Team → List (Nat × Nat × Nat) → Ctx → State → Effect) (c : Ctx) (s : State) : Effect :=
  match s.team? c.r.team with
  | none => noEffect s
  | some t =>
    let cells := c.steps.map fun i => (i, portCell s c reg i)
    match cells.filterMap fun (i, x) => (portFails t c reg x).map fun n => (i, n) with
    | (i, n) :: rest =>
      let bad := (i :: rest.map (·.1)).foldl (fun m j => m ||| maskOf fun k => k == j) 0
      .stop (.trap 9 (misuseInfo 1 pos n) bad [])
    | [] =>
      let width := if portWide c then 2 else 1
      let busy := (s.fibreOps t.core c.r).any fun e => (opWrites t e.op e.w).any fun r =>
        cells.any fun (_, x) => r.overlaps { r0 := x.1, c0 := x.2, rows := 1, cols := width }
      if busy then .held s .engine else act t cells c s

def ardBody (c : Ctx) (s : State) : Effect :=
  let act (t : Team) (cells : List (Nat × Nat × Nat)) (c : Ctx) (s : State) : Effect :=
    if t.rowsMarked (cells.map fun (_, x) => { r0 := x.1, c0 := x.2, rows := 1, cols := 1 }) then .stop (.team 24)
    else
      let value (i : Nat) : DWord := match cells.find? fun x => x.1 == i with
        | some (_, r, k) => BitVec.ofNat 64 (t.cell r k + (if portWide c then 2 ^ 32 * t.cell r (k + 1) else 0))
        | none => 0
      .done { s, later := some (c.results (portWide c) false value) }
  portBody 1 c.w.a.toNat act c s

def awrBody (c : Ctx) (s : State) : Effect :=
  let act (_ : Team) (cells : List (Nat × Nat × Nat)) (c : Ctx) (s : State) : Effect :=
    let wide := portWide c
    let part (x : Nat × Nat × Nat) : List (Nat × Nat × Word) :=
      let v := srcA s c wide x.1
      let low := (x.2.1, x.2.2, v.setWidth 32)
      if wide then [low, (x.2.1, x.2.2 + 1, (v >>> 32).setWidth 32)] else [low]
    .done { s := s.writeCells c.r.team (cells.flatMap part) }
  portBody 0 c.w.d.toNat act c s

/-! ## Meanings -/

def execTclaim (w : Fields) (s : State) := s.issue 0xF0 w (claimBody false)
def execTrel (w : Fields) (s : State) := s.issue 0xF1 w (releaseBody false)
def execAclaim (w : Fields) (s : State) := s.issue 0xF2 w (claimBody true)
def execArel (w : Fields) (s : State) := s.issue 0xF3 w (releaseBody true)
def execMma (fam : MmaFamily) (w : Fields) (s : State) := s.issue (mmaOp fam) w (checkedOp checkMma)
def execAsa (w : Fields) (s : State) := s.issue 0xFB w (checkedOp checkAsa)
def execAzero (w : Fields) (s : State) := s.issue 0xFC w (checkedOp checkAzero)
def execArd (w : Fields) (s : State) := s.issue 0xFD w ardBody
def execAwr (w : Fields) (s : State) := s.issue 0xFE w awrBody
def execAred (w : Fields) (s : State) := s.issue 0xFF w (checkedOp checkAred)

end Sys2Proof.Machine
end

