-- ==== Sys2Proof/Machine/Resume.lean ====
section
/-!
DEFINITION. What brings a fibre back to work: results that arrive (R29), sleeping splits (R303), a CWAITD's deadline
(R347), the watchdog (R31, R358), starvation (R25) and the commands of the lodge core (R359).
-/
namespace Sys2Proof.Machine

/-! ## Results (R29, R214) -/

/-- A split waits for one result fewer. -/
def Split.without (id : Nat) (x : Split) : Split :=
  match x.park with
  | .results ids =>
    let l := ids.filter (· != id)
    if l.isEmpty then { x with st := .ready, park := .none } else { x with park := .results l }
  | _ => x

/-- The result numbered id reaches its registers, after those that have landed there before (R75), and raises its flags;
splits that waited for it are ready. -/
def State.arriveResult (s : State) (r : FibreRef) (id : Nat) : State :=
  match (s.fibre? r).bind fun f => f.outstanding.find? fun p => p.id == id with
  | none => s
  | some p =>
    let s := ((s.settleArrivals r.team r.gid).commit r p.writes).modFibre r fun f =>
      let f := f.mapSplits (Split.without id)
      { f with
        outstanding := f.outstanding.filter fun x => x.id != id
        early := f.early.filter fun e => !(p.writes.any fun w => w.reg == e.reg) }
    ((s.modFibre r fun f => f.raise p.flags).wakeFibre r).settleRoutes

/-- A fibre's result can arrive: its core cycle has come, if it has one, and the ports by which its requests went are live
(R82, R401). -/
def State.isDue (s : State) (r : FibreRef) (p : Pending) : Bool :=
  (match p.due, s.group? r with
  | some n, some g => decide (n ≤ s.coreCycle g.core)
  | _, _ => true) && p.remote.all fun x => (s.portAt (s.portOf (classOf x.1))).live

/-- VARIABLE_LATENCY_RESULT: the k-th outstanding result of a fibre arrives, if it can (`State.isDue`). DESIGN CHOICE,
safe (log 4). -/
def execVariableLatencyResult (fib : FibreRef) (k : Nat) (s : State) : Host.Outcome State Fault Refusal :=
  .next (match (s.fibre? fib).bind fun f => f.outstanding[k]? with
    | some p => if s.isDue fib p then s.arriveResult fib p.id else s
    | none => s)

/-- The flags of a fibre's fixed-latency results whose core cycle has come are raised (R82). -/
def State.settleFlags (s : State) (r : FibreRef) : State :=
  match s.fibre? r with
  | some f => (f.outstanding.filter fun p => p.due.isSome && s.isDue r p).foldl (fun s p => s.arriveResult r p.id) s
  | none => s

/-- Every outstanding result of a fibre arrives. -/
def State.arriveAll (s : State) (r : FibreRef) : State :=
  match s.fibre? r with
  | some f => f.outstanding.foldl (fun s p => s.arriveResult r p.id) s
  | none => s

/-! ## SLEEP (R303) -/

/-- A sleeping split whose deadline has come becomes ready. -/
def Split.rouse (now : DWord) (x : Split) : Split :=
  if x.slp && satisfies now x.dl then { x with st := .ready, slp := false, dl := 0, park := .none } else x

/-- The tree that a split number names: numbers from 128 belong to the handler's. -/
def Fibre.treeOf (f : Fibre) (split : Nat) : List Split :=
  if split < 128 && f.hnd then (f.frozen.map (·.splits)).getD [] else f.splits

/-- A split of a fibre sleeps past its deadline. -/
def State.sleptOut (s : State) (fib : FibreRef) (split : Nat) : Bool :=
  (s.fibre? fib).any fun f => (findSplit (f.treeOf split) (split % 128)).any fun x =>
    x.slp && satisfies (BitVec.ofNat 64 s.tick) x.dl

/-- SLEEP_WAKE: split numbers from 128 belong to the handler's tree. The deadline wakes a gated core (R416). -/
def execSleepWake (fib : FibreRef) (split : Nat) (s : State) : Host.Outcome State Fault Refusal :=
  let now : DWord := BitVec.ofNat 64 s.tick
  let go (l : List Split) : List Split := modSplit l (split % 128) (Split.rouse now)
  .next (if s.sleptOut fib split then
      (s.modFibre fib fun f =>
        if split < 128 && f.hnd then { f with frozen := f.frozen.map fun z => { z with splits := go z.splits } }
        else { f with splits := go f.splits }).wakeFibre fib
    else s)

/-! ## Deadlines of CWAITD (R347) -/

/-- The fibre's wait is withdrawn and it takes the promise-missed trap at its CWAITD. DEDUCED, unsafe (log 17). -/
def State.promiseTrap (s : State) (r : FibreRef) : State :=
  match s.fibre? r with
  | none => s
  | some f =>
    match f.hold, f.run? with
    | .wait u, some x =>
      let s := (s.withdraw fun a => a == .fibre r).modFibre r fun f =>
        let f := { f with hold := .none }
        match u.sig with
        | some g => { f with fsig := g, splits := modSplit f.splits x.idx fun (y : Split) => { y with again := false } }
        | none => f
      (s.takeTrap r { cause := 6, info := u.deadline, mask := x.mask, pc := x.pc }).wakeFibre r
    | _, _ => s

/-- A fibre waits at a CWAITD whose deadline is reached by a tick. -/
def State.overdue (s : State) (fib : FibreRef) (tick : DWord) : Bool :=
  match (s.fibre? fib).map Fibre.hold with
  | some (.wait u) => u.kind == 2 && satisfies tick u.deadline
  | _ => false

/-- PROMISE_MISSED: the tick at which the deadline is reached is at its end, since a wake-up in that tick wins (R347). -/
def execPromiseMissed (fib : FibreRef) (s : State) : Host.Outcome State Fault Refusal :=
  .next (if s.overdue fib (BitVec.ofNat 64 ((s.now + 1) / unitsPerTick) - 1) then s.promiseTrap fib else s)

/-- Every resident fibre. -/
def State.allFibres (s : State) : List (FibreRef × Fibre) :=
  s.teams.flatMap fun t => t.groups.flatMap fun g => g.fibres.map fun f => ({ team := t.ref, gid := g.gid, fid := f.fid }, f)

/-- Fibres whose deadline is reached in this tick take their trap before the tick is left (R347). -/
def State.missPromises (s : State) : State :=
  s.allFibres.foldl (fun s x => if s.overdue x.1 (BitVec.ofNat 64 s.tick) then s.promiseTrap x.1 else s) s

/-! ## Starvation and the watchdog -/

/-- The group in a slot of a lane, unless its team rolls back. -/
def State.seated (s : State) (core lane slot : Nat) : Option (TeamRef × Group) :=
  s.teams.findSome? fun t =>
    if t.rolling then none
    else (t.groups.find? fun g => g.core == core && g.lane == lane && g.slot == slot && !g.retired).map fun g => (t.ref, g)

/-- STARVATION_RAISE (R25). DEDUCED, unsafe (log 49). -/
def execStarvationRaise (core lane slot : Nat) (s : State) : Host.Outcome State Fault Refusal :=
  .next (match s.seated core lane slot with
    | some (r, g) => if 2 ^ 16 ≤ g.starve then s.modGroup r g.gid fun g => { g with raised := true } else s
    | none => s)

/-- Another fibre of the slot than its holder is ready. -/
def Group.siblingReady (g : Group) : Bool := g.fibres.any fun f => f.ready && g.holder != some f.fid

/-- What the watchdog makes of a fibre that may be held: its waits end, to be issued again, and queues forget it
(R358). DEDUCED, unsafe (log 31). -/
def State.dropHeld (s : State) (core : Nat) (r : FibreRef) : State :=
  let s := (s.withdraw (WaitAgent.ofFibre r)).leaveQueue core r
  let s := s.modTeam r.team fun t => { t with
    releases := t.releases.filter fun x => x.fib != r || x.freed, claims := t.claims.filter fun x => x.fib != r }
  s.modFibre r fun f => { f with splits := f.splits.map recordSplit, hold := .none }

/-- WATCHDOG: the trap is taken at an instruction boundary of the lane (R31, R358). DEDUCED, unsafe (log 31). -/
def execWatchdog (core lane slot : Nat) (s : State) : Host.Outcome State Fault Refusal :=
  .next (match s.seated core lane slot with
    | none => s
    | some (t, g) =>
      match g.holder with
      | none => s
      | some h =>
        let r : FibreRef := ⟨t, g.gid, h⟩
        match (g.fibre? h).bind fun f => f.lastSplit with
        | none => s
        | some x =>
          let n := (s.wdtNow core).toNat
          if g.watch < 2 ^ n || !g.siblingReady || decide (s.coreCycle core < ((s.core core).lane lane).busy) then s
          else (s.dropHeld core r).takeTrap r { cause := 5, info := BitVec.ofNat 64 n, mask := x.mask, pc := x.pc })

/-! ## Fibre commands (R359) -/

/-- The frozen fibre that a token names. DESIGN CHOICE, unsafe (log 9). -/
def State.tokenFibre (s : State) (token : Nat) : Option (FibreRef × LodgeFreeze) :=
  s.teams.findSome? fun t => t.groups.findSome? fun g => g.fibres.findSome? fun f =>
    match f.lodge with
    | some z => if z.token == token then some (⟨t.ref, g.gid, f.fid⟩, z) else none
    | none => none

/-- A team's fibres name a token. -/
def Team.hasToken (t : Team) (token : Nat) : Bool :=
  t.groups.any fun g => g.fibres.any fun f => match f.lodge with
    | some z => z.token == token
    | none => false

/-- The action of a fibre command on the fibre that its token names; a saved team records its first command. DEDUCED,
unsafe (log 33). -/
def State.fibreCommand (s : State) (token action : Nat) : State :=
  match s.tokenFibre token with
  | some (r, z) =>
    if action = 3 then s.terminate r.team.seq { reason := 3, cause := z.cause, pc := z.pc, fib := some r }
    else
      let s := ((s.modFibre r fun f => { f with lodge := none }).regain r).wakeFibre r
      if action = 1 then s
      else s.takeTrap r { cause := z.cause, info := z.info, mask := z.mask, addrs := z.addrs, pc := z.pc }
  | none =>
    { s with saved := s.saved.map fun t =>
        if t.team.hasToken token && !(t.commands.any fun c => c.1 == token) then
          { t with commands := t.commands ++ [(token, action)] }
        else t }

/-- FIBRE_RESUME. DEDUCED, unsafe (log 66). -/
def execFibreResume (_col token : Nat) (s : State) : Host.Outcome State Fault Refusal := .next (s.fibreCommand token 1)
/-- FIBRE_CONVERT. -/
def execFibreConvert (_col token : Nat) (s : State) : Host.Outcome State Fault Refusal := .next (s.fibreCommand token 2)
/-- FIBRE_TERMINATE. -/
def execFibreTerminate (_col token : Nat) (s : State) : Host.Outcome State Fault Refusal := .next (s.fibreCommand token 3)

end Sys2Proof.Machine
end

