-- ==== Sys2Proof/Machine/Save.lean ====
section
/-!
DEFINITION. Pre-emption of a team into its save area and its restore (R37 to R39, R77, R86 to R90, R200, R237, R289,
R309, R367): layout, image, and what restore reads back.
-/
namespace Sys2Proof.Machine

/-! ## Layout (Tables 4.8 to 4.11) -/

/-- Bytes of a fibre's header and private window. -/
def Kernel.fibreBytes (k : Kernel) (e : FibreEntry) : Nat := 2048 + e.priv * k.width * 4
def Kernel.groupBytes (k : Kernel) : Nat := 512 + k.shared * k.width * 4 + (k.fibres.map k.fibreBytes).sum
def Kernel.tileOffset (k : Kernel) : Nat := 256 + k.groups * k.groupBytes
def Kernel.cellOffset (k : Kernel) : Nat := k.tileOffset + 9216 * k.slots
def Kernel.scratchOffset (k : Kernel) : Nat := k.cellOffset + 16384 * k.regions
/-- Bytes of a team's save area. -/
def Kernel.saveBytes (k : Kernel) : Nat := k.scratchOffset + roundUp (k.scratchBytes + k.journalBytes) 256
/-- First byte of a group's block. -/
def Kernel.groupOffset (k : Kernel) (g : Nat) : Nat := 256 + g * k.groupBytes
/-- First byte of a fibre's header. -/
def Kernel.fibreOffset (k : Kernel) (g i : Nat) : Nat :=
  k.groupOffset g + 512 + k.shared * k.width * 4 + ((k.fibres.take i).map k.fibreBytes).sum

/-! ## A fibre at its boundary (R38, R309, R367) -/

/-- A split of a SYSC that is issued from its start. -/
def Split.afresh (x : Split) : Split := if x.st == .running then { x with again := false } else x

/-- A split chosen anew at restore. -/
def Split.rechoose (x : Split) : Split := if x.st == .running then { x with st := .ready } else x

/-- Registers of a fibre's private window. -/
def Kernel.privOf (k : Kernel) (fid : Nat) : Nat := (k.fibres[fid]?.map fun e => e.priv).getD 0

/-- A stopped fibre, its results arrived: its recorded wait stays; SYSC and every other held instruction issues
again. Issue distances still missing stay missing (R28). DEDUCED, unsafe (log 17, 34). -/
def Fibre.atSave (f : Fibre) : Fibre :=
  let f := match f.hold, f.sysc with
    | .syscall, some q =>
      { f with fsig := q.sig, splits := f.splits.map Split.afresh }
    | _, _ => f
  let f := f.mapSplits recordSplit
  match f.hold with
  | .wait _ => f
  | _ => { f with hold := .none }.suspend .ready

/-! ## The image -/

def words (l : List Nat) : List Byte := l.flatMap fun x => bytesLE x 8

def zeros (n : Nat) : List Byte := List.replicate n 0

/-- n values of a table as 8-byte words. -/
def wordTable {n : Nat} (m : Sparse (BitVec n)) (first count : Nat) : List Byte :=
  words ((dense 0 (slice m first count) 0 count).map (·.toNat))

/-- A vector window, register by register. -/
def windowImage (m : Sparse Word) (regs width : Nat) : List Byte :=
  (List.range regs).flatMap fun n => (dense 0 (slice m (64 * n) width) 0 width).flatMap fun v => bytesLE v.toNat 4

/-- The recorded uniform wait. DEDUCED, unsafe (log 17). -/
def waitImage (f : Fibre) : List Byte :=
  words (match f.hold with
    | .wait u =>
      if u.kind = 3 then [u.counterKind, u.operand.toNat, 0, 3, 0, 0]
      else [u.operand.toNat, u.threshold.toNat, u.deadline.toNat, u.kind + 256 * u.counterKind, 0, 0]
    | _ => [0, 0, 0, 0, 0, 0])

/-- A split entry as it is saved. -/
def Split.saved (f : Fibre) (x : Split) : Split := if x.st == .running then { x with st := .ready, sig := f.fsig } else x

/-- A split entry of the header (R89, R289). DEDUCED, unsafe (log 34). -/
def entryImage (f : Fibre) (h : Nat) : List Byte :=
  match f.splits.find? fun x => x.hw == some h with
  | some x => (x.saved f).bytes
  | none => zeros 48

/-- The engine counters in a fibre header (R89). DEDUCED, unsafe (log 34). -/
def countsImage (c : EngineCounts) : List Byte :=
  words ([c.copyI, c.copyC, c.matI, c.matC, c.remI, c.remC, c.sysI, c.sysC].map (·.toNat))

/-- FSTAT of a saved fibre (Table 4.4). -/
def savedFstat (t : Team) (k : Kernel) (check : Bool) (g : Group) (f : Fibre) : Nat :=
  let b (v : Bool) (i : Nat) : Nat := if v then 2 ^ i else 0
  f.fid + b (g.holder == some f.fid) 2 + b f.hnd 3 + b check 4 + b t.interval.isSome 5 +
    b ((t.interval.map (·.unsafeMark)).getD false) 6 + b k.signatures 7 + (f.splits.filter fun x => x.hw.isSome).length * 2 ^ 8 +
    b (anySpilled f.splits) 13

/-- A fibre header and the private window that follows it. -/
def fibreImage (t : Team) (k : Kernel) (check : Bool) (g : Group) (f : Fibre) : List Byte :=
  words [savedFstat t k check g f, f.fpri.toNat, f.fsig.toNat, f.fflags.toNat, f.tvec.toNat, f.tpc.toNat, f.tcause.toNat,
    f.tinfo.toNat, f.tmask.toNat, f.ccycBase] ++ waitImage f ++ countsImage f.counts ++
    words [f.spill.getD 0, f.hspill.getD 0] ++ zeros 48 ++ wordTable f.s 0 32 ++ wordTable f.p 0 96 ++
    (List.range 16).flatMap (entryImage f) ++ windowImage f.v (k.privOf f.fid) k.width

/-- WIN (Table 4.7). -/
def winWord (k : Kernel) (base : Nat) : Nat :=
  (k.fibres.zipIdx.map fun (e, i) => e.priv / 8 * 32 ^ i).sum + k.shared / 8 * 2 ^ 20 + (k.fibres.length - 1) * 2 ^ 24 + base * 2 ^ 26

def groupImage (t : Team) (k : Kernel) (check : Group → Bool) (g : Group) : List Byte :=
  words [winWord k g.base] ++ zeros 56 ++ wordTable g.ctr 0 4 ++ zeros 32 ++ wordTable g.ss 32 32 ++ zeros 128 ++
    windowImage g.sv k.shared k.width ++ g.fibres.flatMap (fibreImage t k (check g) g)

def Tag.code : Tag → Nat
  | .fp32 => 1 | .fp64 => 2 | .int32 => 3

def bitsOf (l : List Nat) : Nat := (l.map fun n => 2 ^ n).sum

def teamImage (t : Team) (k : Kernel) : List Byte :=
  let iv := match t.interval with
    | some i => 1 + (if i.unsafeMark then 2 else 0) + 256 * i.used
    | none => 0
  words [t.ref.seq % 2 ^ 56, t.ref.idx, k.width + 256 * k.groups + (if k.pair then 65536 else 0), k.tileOffset, k.cellOffset,
    k.scratchOffset, bitsOf t.tiles, bitsOf (t.regions.map (·.1)) + (t.regions.map fun (n, g) => g.code * 2 ^ (16 + 2 * n)).sum, iv] ++
    zeros 184

/-- Cells of a region, row by row. -/
def regionImage (t : Team) (n : Nat) : List Byte :=
  (List.range 64).flatMap fun i =>
    (dense 0 (slice t.cells (cellKey (64 * (n / 4) + i) (64 * (n % 4))) 64) 0 64).flatMap fun v => bytesLE v.toNat 4

/-- The whole area; a free slot is written as zero. The bytes of the journal have no layout in the manual: free
values. DEDUCED, unsafe (log 34). -/
def saveImage (t : Team) (k : Kernel) (check : Group → Bool) (free : Nat) : List Byte :=
  teamImage t k ++ t.groups.flatMap (groupImage t k check) ++
    ((List.range k.slots).flatMap fun n =>
      if t.tiles.contains n then dense 0 (slice t.slotBytes (slotKey n 0) 9216) 0 9216 else zeros 9216) ++
    (List.range k.regions).flatMap (regionImage t) ++ dense 0 t.scratch 0 k.scratchBytes ++
    ((List.range k.journalBytes).map fun i => BitVec.ofNat 8 (Config.free (free + i))) ++
    zeros (roundUp (k.scratchBytes + k.journalBytes) 256 - (k.scratchBytes + k.journalBytes))

/-! ## Pre-emption -/

/-- The cores that a team lies on. -/
def teamCores (k : Kernel) (core : Nat) : List Nat := if k.pair then [core, core + 1] else [core]

/-- FENCE.full at package scope by a team's fibres (R200). -/
def State.fenceCores (s : State) (cores : List Nat) : State :=
  cores.foldl (fun s c => (s.drainHome c).acquire c 4) s

/-- A team's work comes to rest: results arrive, matrix operations end, copies go as far as they can; with the places of
the work that consumed an error (R38, R375). -/
def State.restTeam (s : State) (t : Team) : State × List (Option FibreRef × DWord) :=
  let r := t.ref
  let s := t.groups.foldl (fun s g => g.fibres.foldl (fun s f => s.arriveAll ⟨r, g.gid, f.fid⟩) s) s
  let (s, ops) := s.finishTeamOps t.core r
  let a := s.driveCopies r
  let b := a.1.driveCopies r
  (b.1, ops ++ (a.2 ++ b.2).map CopyReq.blame)

/-- A team at rest stops: its accesses are performed and its waits withdrawn (R38, R200). -/
def State.stopTeam (s : State) (t : Team) (k : Kernel) : State :=
  let r := t.ref
  let s := s.fenceCores (teamCores k t.core)
  let s := s.withdraw (WaitAgent.ofTeam r)
  let s := (teamCores k t.core).foldl (fun s c =>
    s.modCore c fun x => { x with copyWaiters := x.copyWaiters.filter fun w => w.team != r }) s
  let land (g : Group) (s : State) : State :=
    (s.commit ⟨r, g.gid, 4⟩ ((byCycle g.arrivals).map (·.write))).modGroup r g.gid fun g => { g with arrivals := [] }
  let s := t.groups.foldl (fun s g => match (s.team? r).bind fun t => t.group? g.gid with
    | some g => land g s
    | none => s) s
  let s : State := { s with cores := s.cores.map fun (i, k) =>
    (i, { k with reqs := k.reqs.map fun q => if q.team == r then { q with mark := 0 } else q }) }
  s.modTeam r fun t => { t with
    releases := t.releases.filter (·.freed), claims := []
    groups := t.groups.map fun (g : Group) => { g with
      fibres := g.fibres.map fun f => if f.exited then f else
        { f.atSave with ccycBase := s.ccyc g.core f } } }

/-- A spill block as it is saved: the entries of a table that lie in it, the others free. -/
def blockImage (l : List Split) : List Byte :=
  (List.range 127).flatMap fun i => match l.find? fun x => x.idx == i && x.hw.isNone with
    | some x => x.bytes
    | none => zeros 48

/-- Writes the spill blocks of a fibre whole: while it is in its handler the first holds the frozen table (R291, R309,
R367). -/
def State.saveBlocks (s : State) (r : FibreRef) : State :=
  match s.fibre? r with
  | none => s
  | some f =>
    let write (s : State) (block : Option Nat) (l : List Split) : State := match block with
      | some a => s.writeLoc a (blockImage l)
      | none => s
    match f.frozen with
    | some z => write (write s f.spill z.splits) f.hspill f.splits
    | none => write s f.spill f.splits

/-- Each fibre of a team in order. -/
def State.eachFibre (s : State) (r : TeamRef) (f : State → FibreRef → State) : State :=
  match s.team? r with
  | some t => t.groups.foldl (fun s g => g.fibres.foldl (fun s x => f s ⟨r, g.gid, x.fid⟩) s) s
  | none => s

/-- A team at rest can be saved: its copies have completed or parked, and its stores are acknowledged (R38, R200). -/
def State.savable (s : State) (t : Team) : Bool :=
  match s.kernel? t.ref.seq with
  | some k => s.copiesRest t.ref && (teamCores k t.core).all (s.fenceCores (teamCores k t.core)).acked
  | none => false

/-- A team at rest is saved in its column's pool and leaves its core (R38). -/
def State.storeTeam (s : State) (r : TeamRef) : State :=
  match s.team? r, s.kernel? r.seq with
  | some t, some k =>
    match takePool s (colOf t.core) k.saveBytes with
    | none => s
    | some (a, s) =>
      let s := (s.stopTeam t k).eachFibre r State.saveBlocks
      match s.team? r with
      | none => s.freeArea (some a)
      | some t =>
        let free := s.freeCtr
        let s := { s with freeCtr := free + k.journalBytes }
        let s := s.writeLoc a (saveImage t k (fun g => k.check || (s.core g.core).chk) free)
        { s with
          teams := s.teams.filter fun x => x.ref != r
          saved := s.saved ++ [{ team := t, col := colOf t.core, addr := a, bytes := k.saveBytes }] }
  | _, _ => s

/-- The save pools have room for some teams. -/
def State.poolsFit (s : State) (l : List Team) : Bool :=
  (l.foldl (fun (acc : Option State) t => acc.bind fun s =>
    match s.kernel? t.ref.seq with
    | some k => (takePool s (colOf t.core) k.saveBytes).map (·.2)
    | none => some s) (some s)).isSome

/-- Some resident teams are saved, together or not at all (R37). Without room in the save pools, or while a copy of one can
neither complete nor park, nothing happens; where work of one consumes an error as it comes to rest, that team first rolls
back or its launch ends (R37, R38, R288, R368, R375). DEDUCED, unsafe (log 74). -/
def State.saveTeams (s : State) (l : List Team) : State :=
  let (rest, eaten) := l.foldl (fun (s, e) t => let (s, x) := s.restTeam t; (s, e ++ x.map fun b => (t.ref, b))) (s, [])
  if !eaten.isEmpty then eaten.foldl (fun s (r, b) => s.teamError r 24 b.1 b.2) rest
  else if !(l.all rest.savable) || !rest.poolsFit l then s
  else l.foldl (fun s t => s.storeTeam t.ref) rest

/-- A resident team is saved. -/
def State.saveTeam (s : State) (r : TeamRef) : State := s.saveTeams (s.team? r).toList

/-! ## What restore reads back (R90, R289) -/

abbrev Area := Array Byte

/-- The n-byte number at an offset. -/
def Area.num (a : Area) (o n : Nat) : Nat := natLE ((List.range n).map fun i => a.getD (o + i) 0)
def Area.word (a : Area) (o : Nat) : DWord := BitVec.ofNat 64 (a.num o 8)
def Area.zero (a : Area) (o n : Nat) : Bool := (List.range n).all fun i => a.getD (o + i) 0 == 0

/-- A table of n-bit values from keys with their offsets, in rising order of keys. -/
def Area.table (a : Area) (w bytes : Nat) (keys : List (Nat × Nat)) : Sparse (BitVec w) :=
  (keys.map fun (k, o) => (k, BitVec.ofNat w (a.num o bytes))).filter fun x => x.2 != 0

/-- A saved split entry may not be restored (R289). -/
def Area.entryBad (a : Area) (o : Nat) : Bool :=
  let x := a.num (o + 32) 8
  let f (hi lo : Nat) := fld (BitVec.ofNat 64 x) hi lo
  6 ≤ f 2 0 || f 7 6 != 0 || f 15 15 != 0 || f 31 24 != 0 || a.num (o + 24) 8 / 128 != 0 ||
    (a.num (o + 40) 8 != 0 && f 5 5 == 0)

/-- A fibre header holds what R80 to R82, R89 and R289 allow: reserved bits are zero. -/
def Area.fibreGood (a : Area) (o : Nat) : Bool :=
  let kind := a.num (o + 0x68) 8
  let low (i bits : Nat) : Bool := decide (a.num (o + 8 * i) 8 < 2 ^ bits)
  let aligned (i : Nat) : Bool := a.num (o + 8 * i) 8 % 4 == 0
  low 0 14 && low 1 4 && low 2 32 && low 3 5 && aligned 4 && aligned 5 && low 6 8 && kind < 1024 && kind % 256 < 4 && (kind / 4 % 64 == 0) && a.zero (o + 0x70) 16 && a.zero (o + 0xD0) 48 &&
    (List.range 16).all fun h => !a.entryBad (o + 0x500 + 48 * h)

/-- The area matches its team and its zero fields are zero (R90). -/
def Area.good (a : Area) (t : Team) (k : Kernel) : Bool :=
  (List.range 6).all (fun i => a.num (8 * i) 8 == (([t.ref.seq % 2 ^ 56, t.ref.idx,
      k.width + 256 * k.groups + (if k.pair then 65536 else 0), k.tileOffset, k.cellOffset, k.scratchOffset] : List Nat).getD i 0)) &&
    a.num 0x30 8 < 2 ^ 48 && a.num 0x38 8 < 2 ^ 48 && a.num 0x40 8 < 2 ^ 32 && a.num 0x40 8 / 4 % 64 == 0 && a.zero 0x48 184 &&
    (List.range k.groups).all fun g =>
      let o := k.groupOffset g
      a.num o 8 < 2 ^ 38 && a.zero (o + 8) 56 && a.zero (o + 0x60) 32 && a.zero (o + 0x180) 128 &&
        (List.range k.fibres.length).all fun i => a.fibreGood (k.fibreOffset g i)

/-- A split entry as its image has it, none where it is free; its place in the order of creation and what parks it are
the device's own. -/
def Area.split (a : Area) (o : Nat) (x : Split) : Option Split :=
  let st := a.num (o + 32) 8
  let f (hi lo : Nat) := fld (BitVec.ofNat 64 st) hi lo
  let state : SplitState := match f 2 0 with
    | 1 => if x.st == .running then .running else .ready
    | 2 => .running
    | 3 => .parked
    | 4 => .arrived
    | _ => .parent
  if f 2 0 = 0 then none
  else some { x with
    idx := f 14 8, mask := a.word o, pc := a.word (o + 8), rpc := a.word (o + 16), par := a.num (o + 24) 8, st := state
    miss := f 3 3 == 1, yld := f 4 4 == 1, slp := f 5 5 == 1, kids := f 23 16, sig := BitVec.ofNat 32 (f 63 32)
    dl := a.word (o + 40)
    park := if f 5 5 == 1 then .sleep else if state == .parked || a.word (o + 8) == x.pc then x.park else .none }

/-- The entries of a table: those in hardware places from the header, and those in a spill block from the block; one that
stands where none was is younger than the others (R90, R289, R291). DEDUCED, unsafe (log 34). -/
def Area.table? (a : Area) (o : Option Nat) (block : Area) (l : List Split) : List Split :=
  let blank := rootSplit 0 0 .ready
  let place (h : Nat) (x : Split) : Option Split := o.bind fun o => a.split (o + 48 * h) x
  let old := l.filterMap fun x => match x.hw with
    | some h => place h x
    | none => block.split (48 * x.idx) x
  let new := (List.range 16).filterMap fun h =>
    if l.any fun x => x.hw == some h then none else place h { blank with hw := some h }
  let far := (List.range 127).filterMap fun i =>
    if (old ++ new).any (fun x => x.idx == i) || l.any (fun x => x.hw.isNone && x.idx == i) then none
    else block.split (48 * i) { blank with hw := none }
  old ++ new ++ far

/-- The recorded wait as its image has it. -/
def Area.wait (a : Area) (o : Nat) (u : UniformWait) : Hold :=
  let kind := a.num (o + 0x68) 8 % 256
  if kind = 0 then .none
  else if kind = 3 then .wait { u with kind, counterKind := a.num (o + 0x50) 8 % 4, operand := a.word (o + 0x58) }
  else .wait { u with
    kind, counterKind := a.num (o + 0x68) 8 / 256, operand := a.word (o + 0x50), threshold := a.word (o + 0x58)
    deadline := a.word (o + 0x60) }

def Area.counts (a : Area) (o : Nat) : EngineCounts :=
  { copyI := a.word o, copyC := a.word (o + 8), matI := a.word (o + 16), matC := a.word (o + 24), remI := a.word (o + 32)
    remC := a.word (o + 40), sysI := a.word (o + 48), sysC := a.word (o + 56) }

/-- Keys and offsets of a vector window. -/
def windowKeys (o regs width : Nat) : List (Nat × Nat) :=
  (List.range regs).flatMap fun n => (List.range width).map fun t => (64 * n + t, o + 4 * (n * width + t))

/-- A spill block in memory; nothing where a fibre has none. -/
def blockArea (mem : List Host.Cell) (block : Nat) : Area :=
  if block = 0 then #[] else (dense 0 (slice mem block spillBytes) 0 spillBytes).toArray

/-- The frozen table of a fibre in its handler, as its spill block has it; FSIG is that of the interrupted split. For a
handler that system software has entered for it, that is the oldest split that can run. DEDUCED, unsafe (log 34). -/
def Area.frozen? (block : Area) (z : Option Frozen) : Frozen :=
  let l := Area.table? #[] none block ((z.map (·.splits)).getD [])
  let run := match z with
    | some z => z.run
    | none => ((l.find? fun x => x.st == .ready || x.st == .parked).map (·.idx)).getD 0
  { splits := l, fsig := ((findSplit l run).map (·.sig)).getD 0, run, emptied := (z.map (·.emptied)).getD [] }

/-- A fibre as its header has it; HND of FSTAT tells whether the spill block holds a frozen table, and a fibre without a
split entry has exited (R90). -/
def Area.fibre (a : Area) (mem : List Host.Cell) (k : Kernel) (g : Nat) (cycle : Nat) (f : Fibre) : Fibre :=
  let o := k.fibreOffset g f.fid
  let w (i : Nat) : DWord := a.word (o + 8 * i)
  let spill := a.num (o + 0xC0) 8
  let hspill := a.num (o + 0xC8) 8
  let hnd := (w 0).getLsbD 3
  let frozen : Option Frozen := if hnd then some (Area.frozen? (blockArea mem spill) f.frozen) else none
  let mine := if hnd == f.hnd then f.splits else f.splits.filter fun x => x.hw.isSome
  let splits := a.table? (some (o + 0x500)) (blockArea mem (if hnd then hspill else spill)) mine
  let seq (n m : Nat) : List (Nat × Nat) := (List.range m).map fun i => (i, o + n + 8 * i)
  let f := { f with
    fpri := (w 1).setWidth 4, fsig := (w 2).setWidth 32, fflags := (w 3).setWidth 5, tvec := w 4, tpc := w 5, tcause := w 6
    tinfo := w 7, tmask := w 8, ccycBase := (w 9).toNat, ccycFrom := cycle
    hold := match f.hold with
      | .wait u => a.wait o u
      | h => h
    frozen
    counts := a.counts (o + 0x80)
    spill := if spill = 0 then none else some spill
    hspill := if hspill = 0 then none else some hspill
    s := a.table 64 8 (seq 0x100 32), p := a.table 64 8 (seq 0x200 96)
    v := a.table 32 4 (windowKeys (o + 2048) (k.privOf f.fid) k.width)
    splits, exited := splits.isEmpty }
  match f.hold with
  | .wait _ => f
  | _ => { f with splits := f.splits.map Split.rechoose }

/-- A slot as its block has it; the fibre whose FSTAT has HOLD set holds it. -/
def Area.group (a : Area) (mem : List Host.Cell) (k : Kernel) (cycle : Nat) (seat : Seat) (g : Group) : Group :=
  let o := k.groupOffset g.gid
  { g with
    core := seat.core, lane := seat.lane, slot := seat.slot, base := seat.base, since := 0, starve := 0, raised := false
    watch := 0
    holder := ((g.fibres.find? fun f => (a.word (k.fibreOffset g.gid f.fid)).getLsbD 2).map (·.fid)).or g.holder
    ctr := a.table 64 8 ((List.range 4).map fun i => (i, o + 0x40 + 8 * i))
    ss := a.table 64 8 ((List.range 32).map fun i => (32 + i, o + 0x80 + 8 * i))
    sv := a.table 32 4 (windowKeys (o + 512) k.shared k.width)
    fibres := g.fibres.map fun f => a.fibre mem k g.gid cycle f }

/-- Offset of a cell of a backed region in the area. -/
def cellImage (k : Kernel) (i j : Nat) : Option Nat :=
  let n := 4 * (i / 64) + j / 64
  if n < k.regions then some (k.cellOffset + 16384 * n + 4 * (64 * (i % 64) + j % 64)) else none

def tagOfCode (n : Nat) : Option Tag :=
  match n with
  | 1 => some .fp32 | 2 => some .fp64 | 3 => some .int32 | _ => none

/-- The team as its area has it, on its new seats; group by group at the core cycle of its core. DEDUCED, unsafe (log
34). -/
def Area.team (a : Area) (mem : List Host.Cell) (k : Kernel) (cycle : Nat → Nat) (core : Nat) (seats : List Seat) (t : Team) : Team :=
  let claims := a.num 0x30 8
  let tags := a.num 0x38 8
  let iv := a.num 0x40 8
  let seat (i : Nat) : Seat := seats.getD i { core, lane := 0, slot := 0, base := 0 }
  { t with
    core
    groups := t.groups.map fun g =>
      let x := a.group mem k (cycle (seat g.gid).core) (seat g.gid) g
      { x with retired := x.fibres.all (·.exited) }
    tiles := (List.range k.slots).filter fun n => claims.testBit n
    regions := (List.range k.regions).filterMap fun n =>
      if tags.testBit n then (tagOfCode (tags / 2 ^ (16 + 2 * n) % 4)).map fun g => (n, g) else none
    slotBytes := a.table 8 1 ((List.range k.slots).flatMap fun n =>
      (List.range 9216).map fun b => (slotKey n b, k.tileOffset + 9216 * n + b))
    cells := a.table 32 4 ((List.range 256).flatMap fun i => (List.range 256).filterMap fun j =>
      (cellImage k i j).map fun o => (cellKey i j, o))
    scratch := a.table 8 1 ((List.range k.scratchBytes).map fun b => (b, k.scratchOffset + b))
    interval := if iv.testBit 0 then
        some { t.interval.getD { groups := t.groups.map recordGroup, slots := t.tiles, regions := t.regions } with
          unsafeMark := iv.testBit 1, used := iv / 256 }
      else none }

/-! ## Restore -/

/-- The recorded uniform wait of a fibre registers again and is evaluated (R39, R331). -/
def State.rewait (s : State) (r : FibreRef) : State :=
  match s.fibre? r, s.group? r with
  | some f, some g =>
    match f.hold with
    | .wait u =>
      if u.kind = 3 then s.evalEwait r
      else if u.kind = 2 && satisfies (BitVec.ofNat 64 s.tick) u.deadline then s.promiseTrap r
      else
        let sp := s.spaceOf g.core r.team.seq
        let n := u.operand.toNat
        let ref : Option CounterRef :=
          if u.counterKind = 1 then some (.slot r.team r.gid n)
          else if u.counterKind != 0 then some (.device r n)
          else match windowOff n with
            | some o => some (.scratch r.team o)
            | none => match s.xlate sp .rmw n with
              | .ok p => some (.mem p.loc)
              | .fault _ _ => none
        match ref with
        | none => s.reissue (.fibre r)
        | some c =>
          let w : Waiter := { agent := .fibre r, counter := c, threshold := u.threshold, asid := sp.asid, va := u.operand }
          match s.rereadBad w with
          | some s => s
          | none => if satisfies (s.counter c) u.threshold then s.completeUniform r false else s.register w
    | _ => s
  | _, _ => s

/-- A core receives a team: L1 is invalidated, and where the process changes, the buffer drains and TLB and record
cache lose what is the other's (R167, R174, R269, R315). -/
def State.receive (s : State) (core asid : Nat) : State :=
  let s := s.wakeCore core
  let s := s.modCore core fun k => { k with l1 := [] }
  if (s.core core).asid == some asid then s
  else
    let s := s.drainHome core
    s.modCore core fun k => { k with
      asid := some asid
      tlb := k.tlb.filter fun e => e.asid == asid || pteG e.pte
      records := [] }

/-- Every entry of the spill blocks that a header names may be restored (R289). -/
def Area.spillGood (a : Area) (mem : List Host.Cell) (o : Nat) : Bool :=
  let good (b : Nat) : Bool := (List.range 127).all fun i => !(blockArea mem b).entryBad (48 * i)
  good (a.num (o + 0xC0) 8) && good (a.num (o + 0xC8) 8)

/-- A wait that system software has recorded for a fibre that had none: that of the instruction at which its split
stands (R90). DEDUCED, unsafe (log 34). -/
def State.addWait (s : State) (a : Area) (k : Kernel) (r : FibreRef) : State :=
  match s.fibre? r, s.group? r with
  | some f, some g =>
    let f := f.choose
    match a.wait (k.fibreOffset r.gid r.fid)
        { kind := 0, counterKind := 0, operand := 0, threshold := 0, deadline := 0, op := 0, w := shortWord true false 0 0 0, sig := none },
      f.hold, f.run? with
    | .wait u, .none, some x =>
      match s.fetch (s.spaceOf g.core r.team.seq) x.pc.toNat with
      | .ok (bits, _) =>
        let op := (opOf bits).toNat
        if [(1, 0xD1), (2, 0xD2), (3, 0xD7)].contains (u.kind, op) then
          s.modFibre r fun _ => { f.markAgain with hold := .wait { u with op, w := fieldsOf bits } }
        else s
      | _ => s
    | _, _, _ => s
  | _, _ => s

/-- A saved team comes back on its seats; an area that does not fit it ends the launch with reason 7 (R39, R90). -/
def State.restoreTeam (s : State) (p : Placement) : State :=
  match s.saved.find? fun x => x.team.ref == p.team, s.launch? p.team.seq with
  | some sv, some l =>
    let k := l.kernel
    let a : Area := (dense 0 (slice s.mem sv.addr k.saveBytes) 0 k.saveBytes).toArray
    if !a.good sv.team k || !(sv.team.groups.all fun g => g.fibres.all fun f => a.spillGood s.mem (k.fibreOffset g.gid f.fid)) then
      s.terminate p.team.seq { reason := 7 }
    else
      let s := (teamCores k p.core).foldl (fun s c => s.receive c l.asid) s
      let t := a.team s.mem k s.coreCycle p.core p.seats sv.team
      let s := { s with saved := s.saved.filter fun x => x.team.ref != p.team, teams := s.teams ++ [t] }
      let s := s.modLaunch l.seq fun x => { x with cores := (x.cores ++ teamCores k p.core).eraseDups }
      let s := s.freeArea (some sv.addr)
      let s := (s.fenceCores (teamCores k p.core)).refreshPending p.team
      let s := s.eachFibre p.team fun s r => ((s.enterWaiting r).addWait a k r).rewait r
      let s := s.retireTeam p.team
      sv.commands.foldl (fun s (token, action) => s.fibreCommand token action) s
  | _, _ => s

end Sys2Proof.Machine
end

