-- ==== Sys2Proof/Machine/Placer.lean ====
section
/-!
DEFINITION. The dispatcher: order of launches, columns searched, what fits where, placement, choice of victims for
pre-emption and restore (R14 to R19, R33 to R39, R84).
-/
namespace Sys2Proof.Machine

/-! ## Columns searched (R34) -/

/-- The columns of a sole from one on, wrapping. -/
def soleColumns (sole first : Nat) : List Nat := (List.range 32).map fun i => 32 * (sole % 4) + (first + i) % 32

/-- The columns that a launch's policy searches, in order. -/
def Launch.searched (l : Launch) : List Nat :=
  let c := l.col
  match l.kernel.policy with
  | 0 => (List.range 4).flatMap fun j => soleColumns (c / 32 + j) (c % 32)
  | 1 => [c]
  | 2 => soleColumns (c / 32) (c % 32)
  | 3 => [l.kernel.policyCol]
  | _ =>
    let first := match l.lastCol with
      | some p => p + 1
      | none => c
    (List.range 128).map fun i => (first + i) % 128

/-- Compute is held off (R405). -/
def State.computeOff (s : State) : Bool := s.pav.minimal || s.pav.held || s.pav.lodgeHeld

/-- The cores, or the lower cores of pairs, that a launch's teams may take, in order. -/
def State.targets (s : State) (l : Launch) : List Nat :=
  if s.computeOff then []
  else l.searched.flatMap fun c => (if l.kernel.pair then [0, 2] else [0, 1, 2, 3]).map fun i => 4 * c + i

/-! ## What fits (R17, R33, R36) -/

/-- Registers of a lane that a group of a kernel takes. -/
def Kernel.footprint (k : Kernel) : Nat := k.width * k.regs

/-- An occupied slot: where, and how many registers from its base. -/
structure Taken where
  seat : Seat
  len : Nat
  deriving DecidableEq, Repr

/-- Occupied slots of some teams. -/
def State.taken (s : State) (teams : List Team) : List Taken :=
  teams.flatMap fun t => (t.groups.filter fun g => !g.retired).map fun g =>
    { seat := { core := g.core, lane := g.lane, slot := g.slot, base := g.base }
      len := ((s.kernel? t.ref.seq).map (·.footprint)).getD 0 }

/-- Bytes of scratchpad that a team takes on a core (R160). -/
def scratchOn (k : Kernel) (teamCore core : Nat) : Nat :=
  let n := k.scratchBytes + k.journalBytes
  if core = teamCore then min n (2 ^ 19) else if k.pair ∧ core = teamCore + 1 then n - 2 ^ 19 else 0

/-- The memories of a core, or of the cores of a pair, hold a further team. -/
def State.storesFit (s : State) (teams : List Team) (k : Kernel) (core : Nat) : Bool :=
  let sum (f : Team → Kernel → Nat) : Nat := (teams.filterMap fun t => (s.kernel? t.ref.seq).map fun q => f t q).sum
  (teamCores k core).all (fun c => sum (fun t q => scratchOn q t.core c) + scratchOn k core c ≤ 2 ^ 19) &&
    sum (fun t q => if t.core = core then q.slots else 0) + k.slots ≤ 48 &&
    sum (fun t q => if t.core = core then q.regions else 0) + k.regions ≤ 16

/-- A seat is free beside occupied slots (R16, R17, R84). -/
def seatFree (taken : List Taken) (n : Nat) (x : Seat) : Bool :=
  let lane := taken.filter fun t => t.seat.core == x.core && t.seat.lane == x.lane
  x.lane < 64 && x.slot < 4 && x.base < 4096 && x.base + n ≤ 4096 && (lane.map (·.len)).sum + n ≤ 4096 &&
    lane.all fun t => t.seat.slot != x.slot && (x.base + n ≤ t.seat.base || t.seat.base + t.len ≤ x.base)

/-- The first free seat of a lane: lowest slot and lowest base. -/
def laneSeat (taken : List Taken) (n core lane : Nat) : Option Seat :=
  let used := taken.filter fun t => t.seat.core == core && t.seat.lane == lane
  match (List.range 4).find? fun i => !(used.any fun t => t.seat.slot == i) with
  | none => none
  | some slot =>
    ((0 :: used.map fun t => t.seat.base + t.len).filter fun base => seatFree taken n { core, lane, slot, base }).min?.map
      fun base => { core, lane, slot, base }

/-- The first free seat of some cores. -/
def coreSeat (taken : List Taken) (n : Nat) (cores : List Nat) : Option Seat :=
  cores.findSome? fun c => (List.range 64).findSome? fun l => laneSeat taken n c l

/-- Seats for g groups. -/
def findSeats (n : Nat) (cores : List Nat) : Nat → List Taken → Option (List Seat)
  | 0, _ => some []
  | g + 1, taken =>
    match coreSeat taken n cores with
    | none => none
    | some x => (findSeats n cores g (taken ++ [{ seat := x, len := n }])).map fun l => x :: l

/-- Seats of a team on a core, or on the pair from it. -/
def State.seatsOn (s : State) (teams : List Team) (k : Kernel) (core : Nat) : Option (List Seat) :=
  if s.storesFit teams k core then findSeats k.footprint (teamCores k core) k.groups (s.taken teams) else none

/-- Where the next team of a launch goes beside some teams: core and seats. DESIGN CHOICE, unsafe (log 64). -/
def State.findPlace (s : State) (teams : List Team) (l : Launch) : Option (Nat × List Seat) :=
  (s.targets l).findSome? fun core => (s.seatsOn teams l.kernel core).map fun x => (core, x)

/-- Chosen seats fit a team on a core. DESIGN CHOICE, unsafe (log 64). -/
def seatsGood (taken : List Taken) (n : Nat) (cores : List Nat) : List Seat → Bool
  | [] => true
  | x :: rest => cores.contains x.core && seatFree taken n x && seatsGood (taken ++ [{ seat := x, len := n }]) n cores rest

/-! ## Placement (R19, R33) -/

/-- A fibre at its start (R19, R79, Table 16.1). -/
def startFibre (l : Launch) (cycle i : Nat) (e : FibreEntry) : Fibre :=
  { fid := i, s := put 0 [] 0 l.kernel.args, fpri := BitVec.ofNat 4 e.pri, tvec := l.kernel.tvec, ccycFrom := cycle
    splits := [rootSplit (fullMask l.kernel.width) e.entry (if i = 0 then .running else .ready)] }

/-- A team at its placement (R19, R162, R177, R178). -/
def startTeam (s : State) (l : Launch) (idx core : Nat) (seats : List Seat) : Team :=
  { ref := { seq := l.seq, idx }, core
    groups := seats.zipIdx.map fun (x, g) =>
      { gid := g, core := x.core, lane := x.lane, slot := x.slot, base := x.base
        fibres := l.kernel.fibres.zipIdx.map fun (e, i) => startFibre l (s.coreCycle x.core) i e } }

/-- A team takes its place. -/
def State.placeTeam (s : State) (l : Launch) (idx core : Nat) (seats : List Seat) : State :=
  let s := (teamCores l.kernel core).foldl (fun s c => s.receive c l.asid) s
  let s := { s with teams := s.teams ++ [startTeam s l idx core seats] }
  s.modLaunch l.seq fun x =>
    { x with placed := idx + 1, lastCol := some (colOf core), cores := (x.cores ++ teamCores l.kernel core).eraseDups }

/-- Places n further teams of a launch, each at the first place. -/
def State.placeMany (l : Launch) : Nat → State → Option State
  | 0, s => some s
  | n + 1, s =>
    match s.launch? l.seq with
    | none => some s
    | some l =>
      match s.findPlace s.teams l with
      | none => none
      | some (core, seats) => State.placeMany l n (s.placeTeam l l.placed core seats)

/-- Seats for teams that come back, each on any core that the policy allows. DEDUCED, unsafe (log 35). -/
def State.restoreMany : List Nat → Launch → State → Option State
  | [], _, s => some s
  | i :: rest, l, s =>
    match s.findPlace s.teams l with
    | none => none
    | some (core, seats) => State.restoreMany rest l (s.restoreTeam { team := { seq := l.seq, idx := i }, core, seats })

/-! ## What the dispatcher does next (R33, R35, R39) -/

/-- Saved teams of a launch, in team order. -/
def State.savedTeams (s : State) (seq : Nat) : List Nat :=
  sortBy (fun a b => decide (a ≤ b)) ((s.saved.filter fun t => t.team.ref.seq == seq).map fun t => t.team.ref.idx)

/-- What a launch puts next: a saved team first. -/
inductive NextTeam where
  | nothing | restore (idx : Nat) | place (idx : Nat)
  deriving DecidableEq, Repr

/-- What the served launch places or restores next (R33, R39). DEDUCED, unsafe (log 35). -/
def State.nextTeam (s : State) (l : Launch) : NextTeam :=
  match s.savedTeams l.seq with
  | i :: _ => .restore i
  | [] => if l.placed < l.kernel.teams then .place l.placed else .nothing

/-- An upper bound of the teams of a package: one needs a slot. -/
def packageSlots : Nat := 512 * 256

/-- A grid fits whole beside the teams of a state. -/
def State.wholeFits (s : State) (l : Launch) : Bool :=
  l.kernel.teams ≤ packageSlots && (State.placeMany l (l.kernel.teams - l.placed) s).isSome

/-- What a launch puts next fits now. -/
def State.fitsNow (s : State) (l : Launch) : Bool :=
  l.gate.isNone && (match s.nextTeam l with
    | .nothing => false
    | .place _ => if l.kernel.coresident then s.wholeFits l else (s.findPlace s.teams l).isSome
    | .restore _ =>
      if l.kernel.coresident then (State.restoreMany (s.savedTeams l.seq) l s).isSome else (s.findPlace s.teams l).isSome)

/-- Launch a goes before launch b (R33). -/
def Launch.before (a b : Launch) : Bool := b.kernel.pri < a.kernel.pri || (a.kernel.pri == b.kernel.pri && a.seq < b.seq)

/-- Launches in the dispatcher's order. -/
def State.ordered (s : State) : List Launch := sortBy (fun a b => !b.before a) (s.columns.flatMap fun (_, c) => c.queue)

/-- An eligible co-resident launch whose grid fits and has still to be placed (R35). -/
def State.placesWhole (s : State) (l : Launch) : Bool := l.kernel.coresident && s.nextTeam l == .place 0 && s.fitsNow l

/-- The launch that the dispatcher serves now: the first in order that fits, but a co-resident one that has become eligible
comes before every later launch (R33, R35). DEDUCED, unsafe (log 35). -/
def State.served (s : State) : Option Launch :=
  (s.ordered.find? s.fitsNow).map fun x =>
    (s.ordered.find? fun c => decide (c.seq < x.seq) && s.placesWhole c).getD x

/-- The state in which every eligible co-resident launch that fits and was accepted before a launch has been placed, against
which that launch is judged (R35). -/
def State.withEligible (s : State) (later : Launch) : State :=
  (s.ordered.filter fun l => decide (l.seq < later.seq) && s.placesWhole l).foldl (fun s l => (State.placeMany l (l.kernel.teams - l.placed) s).getD s) s

/-- The unplaced teams of a co-resident launch go with the first; none where they do not fit beside it (R35). -/
def State.placeRest (s : State) (l : Launch) : Option State :=
  if l.kernel.coresident then State.placeMany l (l.kernel.teams - l.placed - 1) s else some s

/-- TEAM_PLACEMENT: the served launch's next team, at the first core that fits, on seats that fit (R33 to R36); a
co-resident launch is placed whole or not at all (R35). Reading an entry that an error marks ends its launch (R375).
DESIGN CHOICE, unsafe (log 64). -/
def execTeamPlacement (p : Placement) (s : State) : Host.Outcome State Fault Refusal :=
  .next (match s.served with
    | none => s
    | some l =>
      if l.marked then s.terminate l.seq { reason := 5, cause := 24, pc := 0, fib := none }
      else if s.nextTeam l == .place p.team.idx && l.seq == p.team.seq then
        match s.findPlace s.teams l with
        | some (core, _) =>
          if core == p.core && p.seats.length == l.kernel.groups &&
              seatsGood (s.taken s.teams) l.kernel.footprint (teamCores l.kernel core) p.seats then
            ((s.placeTeam l p.team.idx core p.seats).placeRest l).getD s
          else s
        | none => s
      else s)

/-- TEAM_RESTORE: on any core of the policy (R39). -/
def execTeamRestore (p : Placement) (s : State) : Host.Outcome State Fault Refusal :=
  .next (match s.served with
    | none => s
    | some l =>
      if s.nextTeam l == .restore p.team.idx && l.seq == p.team.seq && (s.targets l).contains p.core &&
          s.storesFit s.teams l.kernel p.core && p.seats.length == l.kernel.groups &&
          seatsGood (s.taken s.teams) l.kernel.footprint (teamCores l.kernel p.core) p.seats then
        let rest := (s.savedTeams l.seq).filter (· != p.team.idx)
        let t := s.restoreTeam p
        if l.kernel.coresident then (State.restoreMany rest l t).getD s else t
      else s)

/-! ## Pre-emption (R37) -/

/-- Teams that are pre-empted with a team: those of a co-resident launch go together. -/
def State.victims (s : State) (t : Team) (l : Launch) : List Team :=
  if l.kernel.coresident then s.teams.filter fun x => x.ref.seq == l.seq else [t]

/-- Pre-empting a team would let a waiting launch go on. -/
def State.frees (s : State) (w : Launch) (t : Team) : Bool :=
  match s.launch? t.ref.seq with
  | none => false
  | some l =>
    let gone := s.victims t l
    l.kernel.pri < w.kernel.pri && !l.kernel.npe && gone.all (fun x => !x.rolling) &&
      { s with teams := s.teams.filter fun x => !(gone.any fun y => y.ref == x.ref) }.fitsNow w

/-- A team goes before another as a victim: lower priority, then higher sequence number. -/
def State.victimBefore (s : State) (a b : Team) : Bool :=
  match s.launch? a.ref.seq, s.launch? b.ref.seq with
  | some x, some y => x.kernel.pri < y.kernel.pri || (x.kernel.pri == y.kernel.pri && y.seq < x.seq)
  | _, _ => false

/-- A team may be pre-empted for a launch. -/
def State.mayPreempt (s : State) (w : Launch) (t : Team) : Bool :=
  w.gate.isNone && s.nextTeam w != .nothing && !s.fitsNow w && s.frees w t &&
    !(s.teams.any fun x => s.frees w x && s.victimBefore x t)

/-- PRE_EMPTION. DEDUCED, unsafe (log 35). -/
def execPreEmption (team : TeamRef) (s : State) : Host.Outcome State Fault Refusal :=
  .next (match s.team? team with
    | none => s
    | some t =>
      match s.launch? team.seq with
      | none => s
      | some l =>
        let all := s.victims t l
        if s.ordered.any (fun w => s.mayPreempt w t) && s.poolsFit all then s.saveTeams all else s)

end Sys2Proof.Machine
end

