-- ==== Sys2Proof/Machine/Launch.lean ====
section
/-!
DEFINITION. Launch signals: the submission line, the launch record and its checks, acceptance and the receipt (R159,
R255 to R260, R394, R395).
-/
namespace Sys2Proof.Machine

/-! ## Receipts (Table 14.3) -/

/-- Why a submission is answered RETRY: queue full, no co-residency, or malformed with INREC and WORD. -/
inductive Retry where
  | full | whole
  | malformed (inRecord : Bool) (word : Nat)
  deriving DecidableEq, Repr

def Retry.receipt : Retry → Nat
  | .full => 2 ^ 63 + 2 ^ 62 + 1
  | .whole => 2 ^ 63 + 2 ^ 62 + 2
  | .malformed inRecord word => 2 ^ 63 + 2 ^ 62 + (if inRecord then 65536 else 0) + 256 * word + 3

def acceptReceipt (seq : Nat) : Nat := 2 ^ 63 + seq % 2 ^ 56

/-! ## The line (Table 14.2) -/

/-- Bits [hi:lo] of a submission line. -/
def lineField (v : BitVec 1024) (hi lo : Nat) : Nat := v.toNat / 2 ^ lo % 2 ^ (hi + 1 - lo)

/-- Reserved fields of the line. -/
def lineReserved : List (Nat × Nat) :=
  [(255, 224), (394, 388), (415, 406), (430, 416), (439, 433), (1023, 440)]

/-- The lowest word of the line with a reserved bit set. DEDUCED, unsafe (log 42). -/
def lineBad (v : BitVec 1024) : Option Nat :=
  (List.range 16).find? fun w => lineReserved.any fun (hi, lo) =>
    let a := max lo (64 * w)
    let b := min hi (64 * w + 63)
    decide (a ≤ b) && lineField v b a != 0

/-! ## The record (Table 14.4) -/

/-- The n-byte number at an offset of a record. -/
abbrev recNum (r : List Byte) (o n : Nat) : Nat := natLE ((r.drop o).take n)

def recFibres (r : List Byte) : Nat := recNum r 2 1 % 4 + 1

/-- A word of the record has a reserved bit set. DEDUCED, unsafe (log 42). -/
def recWordBad (r : List Byte) (w : Nat) : Bool :=
  let word := recNum r (8 * w) 8
  let i := (w - 16) / 2
  if w = 0 then word / 2 ^ 18 % 2 ^ 14 != 0 || word / 2 ^ 37 != 0
  else if w = 2 then word / 2 ^ 58 != 0
  else if w = 8 then word / 2 ^ 32 != 0
  else if (9 ≤ w ∧ w < 16) ∨ 24 ≤ w then word != 0
  else if 16 ≤ w ∧ recFibres r ≤ i then word != 0
  else if 16 ≤ w ∧ w % 2 = 1 then word / 2 ^ 20 != 0 || (i != 0 && word / 2 ^ 8 % 256 != 0)
  else false

/-- The fibre-table entries of a record. -/
def recEntries (r : List Byte) : List FibreEntry :=
  (List.range (recFibres r)).map fun i =>
    let o := 0x80 + 16 * i
    { entry := BitVec.ofNat 64 (recNum r o 8), priv := 8 * recNum r (o + 8) 1, pri := recNum r (o + 10) 1 % 16 }

/-- The kernel of a record and a line; an override replaces the policy (R34). -/
def recKernel (v : BitVec 1024) (r : List Byte) : Kernel :=
  let flags := recNum r 4 4
  let ovr := lineField v 395 395 = 1
  { width := recNum r 0 1, groups := recNum r 1 1, fibres := recEntries r, shared := 8 * recNum r 0x89 1
    coresident := flags.testBit 0, pair := flags.testBit 1, check := flags.testBit 2, rollback := flags.testBit 3
    signatures := flags.testBit 4, ntx := recNum r 8 4 + 1, nty := recNum r 0x0C 2 + 1, ntz := recNum r 0x0E 2 + 1
    scratchBytes := recNum r 0x10 4, slots := recNum r 0x14 1, regions := recNum r 0x15 1
    policy := if ovr then lineField v 398 396 else recNum r 0x16 2 % 8
    policyCol := if ovr then lineField v 405 399 else recNum r 0x16 2 / 8 % 128
    tvec := BitVec.ofNat 64 (recNum r 0x18 8) &&& ~~~3, recTable := BitVec.ofNat 64 (recNum r 0x20 8), recCount := recNum r 0x28 4
    schedCount := recNum r 0x2C 4, sched := BitVec.ofNat 64 (recNum r 0x30 8), pttDir := BitVec.ofNat 64 (recNum r 0x38 8)
    pttCount := recNum r 0x40 4, args := BitVec.ofNat 64 (lineField v 127 64), pri := lineField v 387 384
    evc := lineField v 432 432 = 1, npe := lineField v 431 431 = 1 }

/-- A team's scratchpad with its journal fits an empty core, or a pair (R160). -/
def Kernel.scratchFits (k : Kernel) : Bool := k.scratchBytes + k.journalBytes ≤ (if k.pair then 2 ^ 20 else 2 ^ 19)

/-- The first limit that a record breaks, as INREC and WORD: R14, R17, R19, R33, R34, R160, then the other limits of
R259. -/
def limitBad (s : State) (l : Launch) (ovr : Bool) : Option (Bool × Nat) :=
  let k := l.kernel
  let entry (i : Nat) (e : FibreEntry) : Option (Bool × Nat) :=
    if e.entry.toNat % 4 != 0 then some (true, 16 + 2 * i)
    else if 192 < e.priv || (i == 0 && 64 < k.shared) then some (true, 17 + 2 * i) else none
  let policyWord := if ovr then (false, 6) else (true, 2)
  if !([16, 32, 64].contains k.width) || k.groups < 1 || 32 < k.groups then some (true, 0)
  else if 2 ^ 32 < k.teams then some (true, 1)
  else if 4096 < k.footprint then some (true, 17)
  else
    match k.fibres.zipIdx.findSome? fun (e, i) => entry i e with
    | some x => some x
    | none =>
      if !k.scratchFits || 48 < k.slots || 16 < k.regions then some (true, 2)
      else if 5 ≤ k.policy || (s.targets l).isEmpty then some policyWord
      else if k.scratchBytes % 128 != 0 || k.scratchBytes < 128 then some (true, 2)
      else if 2 ^ 24 < k.recCount then some (true, 5)
      else if k.sched.toNat % 64 != 0 then some (true, 6)
      else if 8 < k.pttCount then some (true, 8)
      else none

/-! ## Counters of a launch (R258) -/

/-- The location of a counter address: 8-byte aligned on a NORMAL page. -/
def State.launchCounter (s : State) (w : Space) (a : Nat) : Option Nat :=
  if a % 8 != 0 || (windowOff a).isSome then none
  else
    match s.xlate w .rmw a with
    | .ok p => if p.type == .normal then some p.loc else none
    | .fault _ _ => none

/-! ## The decision -/

/-- satp names Sv57 (R159). -/
def satpSv57 (v : DWord) : Bool := fld v 63 60 == 10

/-- A launch accepted, or the reason of a RETRY. Its addresses are translated through the TLBs of the column's first
core; a record at an address that is no legal LREC is not read. DEDUCED, unsafe (log 42); DESIGN CHOICE, unsafe (log 86,
95). -/
def State.judge (s : State) (op : LaunchSignalOp) : Except Retry State :=
  let v := op.data
  let lrec := lineField v 63 0
  let asid := fld op.satp 59 44
  let w : Space := { core := 4 * op.col, asid, root := fld op.satp 43 0 }
  match lineBad v with
  | some n => .error (.malformed false n)
  | none =>
    if lrec % 256 != 0 || 2 ^ 63 ≤ lrec then .error (.malformed false 0)
    else if !satpSv57 op.satp then .error (.malformed true 0xFF)
    else
      match s.xlate w .load lrec with
      | .fault _ _ => .error (.malformed true 0xFF)
      | .ok p =>
        let s := s.touch w .load lrec
        let r := s.bytesAt p.loc 256
        match (List.range 32).find? (recWordBad r) with
        | some n => .error (.malformed true n)
        | none =>
          let k := recKernel v r
          let cadr := lineField v 191 128
          let gadr := lineField v 319 256
          let thr : DWord := BitVec.ofNat 64 (lineField v 383 320)
          let l : Launch :=
            { seq := s.nextSeq, col := op.col, kernel := k, asid, root := w.root
              privileged := (look 0 (s.col op.col).spt op.page).getLsbD 1, gate := none, done := none
              cadr := BitVec.ofNat 64 cadr, cinc := BitVec.ofNat 32 (lineField v 223 192) }
          match limitBad s l (lineField v 395 395 == 1) with
          | some (inRec, n) => .error (.malformed inRec n)
          | none =>
            let done := if cadr = 0 then some none else (s.launchCounter w cadr).map some
            let gate := if gadr = 0 then some none else (s.launchCounter w gadr).map some
            match done, gate with
            | none, _ => .error (.malformed false 2)
            | _, none => .error (.malformed false 4)
            | some done, some gate =>
              if (match gate with
                  | some a => distant (s.wordAt a) thr
                  | none => false) then .error (.malformed false 5)
              else if 64 ≤ (s.col op.col).queue.length then .error .full
              else
                let l := { l with
                  done
                  gate := match gate with
                    | some a => if satisfies (s.wordAt a) thr then none else some (a, thr)
                    | none => none }
                let t := ({ s with nextSeq := s.nextSeq + 1 }).modCol op.col fun c => { c with queue := c.queue ++ [l] }
                if k.coresident && !(t.withEligible l).wholeFits l then .error .whole
                else
                  let t := if cadr = 0 then t else t.touch w .rmw cadr
                  let t := if gadr = 0 then t else t.touch w .rmw gadr
                  match l.gate with
                  | some (a, _) => .ok (t.register { agent := .gate l.seq, counter := .mem a, threshold := thr })
                  | none => .ok t

/-- Location of a submission line (Table 24.1). -/
def submissionLoc (col page line : Nat) : Nat := deviceBase + page * 0x80000 + col * 0x1000 + 128 * line

/-- LAUNCH_SIGNAL: the line's bytes are written; on an enabled page the submission is decided and the receipt
written over its low 64 bits (R255, R257, R395). -/
def execLaunchSignal (op : LaunchSignalOp) (s : State) : Host.Outcome State Fault Refusal :=
  let loc := submissionLoc op.col op.page op.line
  if 128 ≤ op.col ∨ 64 ≤ op.page ∨ 32 ≤ op.line ∨ s.hartRuns op.col = false then .next s
  else
    let s := s.writeLoc loc (bytesLE op.data.toNat 128)
    .next (if (look 0 (s.col op.col).spt op.page).getLsbD 0 then
      match s.judge op with
      | .error e => s.writeNum loc 8 e.receipt
      | .ok t => t.writeNum loc 8 (acceptReceipt s.nextSeq)
    else s)

end Sys2Proof.Machine
end

