-- ==== Sys2Proof/Machine/EngineEvents.lean ====
section
/-!
DEFINITION. Steps of the copy engine, the matrix engine and the write-combining buffer (R163, R232 to R236, R261 to
R269). A step whose occasion has not come changes nothing.
-/
namespace Sys2Proof.Machine

/-! ## The copy engine -/

/-- A request's team is resident. -/
def State.reqLive (s : State) (core req : Nat) : Option CopyReq :=
  (s.req? core req).filter fun q => (s.team? q.team).isSome

/-- COPY_REQUEST_START (R261). -/
def execCopyRequestStart (core : Nat) (s : State) : Host.Outcome State Fault Refusal := .next (s.grantEntry core)

/-- A marked queue entry is consumed by the engine that reads it: the error reaches the team, once (R375). -/
def State.consumeEntry (s : State) (u : UnitRef) (team : TeamRef) (fib : Option FibreRef) (pc : DWord) : Option State :=
  if ((s.team? team).map fun t => t.marked.contains u).getD false then
    some (((s.unmark team fun x => x == u).teamError team 24 fib pc).continueRollback team)
  else none

/-- COPY_RELEASE_ADD (R263). DEDUCED, safe (log 10). -/
def execCopyReleaseAdd (core req : Nat) (s : State) : Host.Outcome State Fault Refusal :=
  .next (match s.reqLive core req with
    | some q => (s.consumeEntry (.copyEntry core req) q.team q.blame.1 q.blame.2).getD (State.afterCopy (s.copyRead core req) q)
    | none => s)

/-- COPY_COMPLETION (R263); EWAITs of the team are evaluated. -/
def execCopyCompletion (core req : Nat) (s : State) : Host.Outcome State Fault Refusal :=
  .next (match s.reqLive core req with
    | some q => (s.consumeEntry (.copyEntry core req) q.team q.blame.1 q.blame.2).getD
        ((State.afterCopy (s.copyFinish core req) q).evalEwaits q.team)
    | none => s)

/-- The next schedule entry of a team reads poison. DEDUCED, unsafe (log 38). -/
def State.entryConsumes (s : State) (team : TeamRef) : Bool :=
  match (s.team? team).map s.nextEntry with
  | some .consumed => true
  | _ => false

/-- SCHEDULE_ENTRY_ISSUE (R265); an entry or record in a poisoned sector is consumed (R179). -/
def execScheduleEntryIssue (team : TeamRef) (s : State) : Host.Outcome State Fault Refusal :=
  .next (if s.entryConsumes team then s.teamError team 24 none 0 else s.issueEntry team)

/-- CPA_READ_PHASE (R236); a marked row is consumed (R375). -/
def execCpaReadPhase (core req : Nat) (s : State) : Host.Outcome State Fault Refusal :=
  .next (match s.reqLive core req with
    | some q =>
      let t := s.cpaRead core req
      let marked := match s.team? q.team with
        | some x => x.rowsMarked [cpaRect q.cmd (x.tagOr (cpaReg q.cmd))]
        | none => false
      (s.consumeEntry (.copyEntry core req) q.team q.blame.1 q.blame.2).getD
        (if q.waitsPhase && marked && t != s then t.teamError q.team 24 q.blame.1 q.blame.2 else t)
    | none => s)

/-- PENDING_BIT_CLEAR (R163). -/
def execPendingBitClear (core req : Nat) (s : State) : Host.Outcome State Fault Refusal :=
  .next (match s.reqLive core req with
    | some q => (s.consumeEntry (.copyEntry core req) q.team q.blame.1 q.blame.2).getD
        ((s.clearLine core req).continueRollback q.team)
    | none => s)

/-- A released entry's team goes on: its elements replay where the team is (R268), and a team that had only this entry
left to wait for retires (R265). -/
def State.replayed (s : State) (core entry : Nat) : State :=
  match s.replay? core entry with
  | none => s
  | some e => (s.replayRelease core entry).retireTeam e.team

/-- A replay entry is released, unless its own marked array is consumed (R268, R375). -/
def State.replayGo (s : State) (core entry : Nat) : State :=
  match s.replay? core entry with
  | none => s
  | some e => (s.consumeEntry (.replayEntry core entry) e.team none 0).getD (s.replayed core entry)

/-- REPLAY_RELEASE (R268). -/
def execReplayRelease (core entry : Nat) (s : State) : Host.Outcome State Fault Refusal := .next (s.replayGo core entry)

/-- REPLAY_TERMINATE (R268). -/
def execReplayTerminate (core entry : Nat) (s : State) : Host.Outcome State Fault Refusal :=
  .next (s.replayTerminate core entry)

/-! ## The matrix engine -/

/-- ENGINE_OP_START (R232). -/
def execEngineOpStart (core : Nat) (s : State) : Host.Outcome State Fault Refusal := .next (s.engineStart core)

/-- The first entry ends once its occupancy has: EWAITs are evaluated, the team may retire, and an error that it met
reaches the team (R40, R233, R375). -/
def State.completeOp (s : State) (core : Nat) : State :=
  match (s.core core).engine with
  | [] => s
  | e :: _ =>
    if !e.started || s.coreCycle core < e.endCycle then s
    else
      let marked := ((s.team? e.fib.team).map fun t => t.opFails core e).getD false
      let s := s.unmark e.fib.team fun u => u == .engineEntry core e.num
      let s := ((s.engineFinish core).evalEwait e.fib).retireTeam e.fib.team
      if marked then s.teamError e.fib.team 24 (some e.fib) e.pc else s

/-- ENGINE_OP_COMPLETE (R233). -/
def execEngineOpComplete (core : Nat) (s : State) : Host.Outcome State Fault Refusal := .next (s.completeOp core)

/-! ## The write-combining buffer -/

/-- WC_AGEING_DRAIN: a line has reached its ageing time (R269), on which the buffer drains wholly (R196). DEDUCED,
unsafe (log 22). -/
def execWcAgeingDrain (core : Nat) (s : State) : Host.Outcome State Fault Refusal :=
  .next (match (s.core core).wcb.find? fun l => l.entered + l.age ≤ s.tick with
    | some _ => s.drain core
    | none => s)

end Sys2Proof.Machine
end

