-- ==== Sys2Proof/Machine/Device.lean ====
section
/-!
DEFINITION. The device page region (R314, R319, R394, R395, R406, R410, R422, Table 24.4): the words that a load of
it reads, and the writes of its registers under their access codes.
-/
namespace Sys2Proof.Machine

/-! ## Words that a load reads -/

def flagBit (v : Bool) (i : Nat) : Nat := if v then 2 ^ i else 0

/-- A column's control page (Tables 24.2 and 25.2). -/
def State.controlWord (s : State) (c o : Nat) : DWord :=
  let x := s.col c
  if o < 0x200 then look 0 x.spt (o / 8)
  else if 0x400 ≤ o ∧ o < 0x450 then s.readPower c (0x30 + (o - 0x400) / 8)
  else
    match o with
    | 0x208 => x.lsel
    | 0x240 => x.evbase
    | 0x248 => BitVec.ofNat 64 x.evsize
    | 0x250 => x.evprod
    | 0x258 => x.evcons
    | 0x260 => x.evovf
    | 0x268 => x.evirq
    | 0x280 => x.scbase
    | 0x288 => BitVec.ofNat 64 x.scsize
    | 0x290 => x.scprod
    | 0x298 => x.sccons
    | 0x2C0 => x.spbase
    | 0x2C8 => x.spsize
    | _ => 0

/-- A word of a replay entry (Table 14.7). -/
def ReplayEntry.word (e : ReplayEntry) (i : Nat) : DWord :=
  let origin : Nat := match e.origin with
    | .fibre f _ => f.fid + 256 * e.gid + 65536 * e.core
    | .entry k => 65536 * e.core + 2 ^ 31 + 2 ^ 32 * k
  match i with
  | 0 => BitVec.ofNat 64 (1 + flagBit e.unrepairable 1 + 256 * e.cause + 65536 * e.opcode)
  | 1 => BitVec.ofNat 64 e.team.seq
  | 2 => BitVec.ofNat 64 e.team.idx
  | 3 => e.addr
  | 4 => BitVec.ofNat 64 origin
  | 5 => BitVec.ofNat 64 e.elements
  | _ => 0

/-- A column's page of replay entries. -/
def State.replayWord (s : State) (c o : Nat) : DWord :=
  match (s.core (4 * c + o / 0x400)).replay.find? fun e => e.idx == o % 0x400 / 0x40 with
  | some e => e.word (o % 0x40 / 8)
  | none => 0

def Port.word (p : Port) : DWord :=
  BitVec.ofNat 64 (flagBit p.live 0 + flagBit p.locked 1 + flagBit p.keyed 2 + 65536 * p.errors.toNat)

/-- CKSTAT and the other checkpoint registers (Table 25.6). -/
def Checkpoint.word (k : Checkpoint) (o : Nat) : DWord :=
  match o with
  | 0x00 => k.ckrt
  | 0x08 => k.ckrn
  | 0x10 => k.ckres
  | 0x18 => k.ckresz
  | 0x20 => k.ckcnt
  | 0x28 => k.cknvq
  | 0x38 => BitVec.ofNat 64 (k.busy + flagBit k.ignored 2 + flagBit k.failed 3 + 256 * k.code.toNat + 65536 * k.pagesDone.toNat +
      2 ^ 48 * k.faults.toNat)
  | _ => 0

/-- Package registers (Tables 24.4 and 25.6). -/
def State.packageWord (s : State) (o : Nat) : DWord :=
  if 0x040 ≤ o ∧ o < 0x0C0 then (s.portAt ((o - 0x040) / 8)).word
  else if 0x100 ≤ o ∧ o < 0x120 then BitVec.ofNat 64 (flagBit (look false s.pciewin ((o - 0x100) / 8)) 0)
  else if 0x400 ≤ o ∧ o < 0x600 then (s.ckptAt ((o - 0x400) / 0x80)).word (o % 0x80)
  else
    match o with
    | 0x000 => s.pkgid.setWidth 64
    | 0x010 => BitVec.ofNat 64 s.pav.fabstat
    | 0x018 => BitVec.ofNat 64 s.pav.gen
    | 0x020 => BitVec.ofNat 64 (match s.pav.leader with
        | some l => l % 1024 + 2 ^ 63
        | none => 0)
    | 0x028 => s.lostto
    | 0x0C0 => BitVec.ofNat 64 ((List.range 16).map fun c => s.portOf c * 16 ^ c).sum
    | _ => 0

/-- A scope-table entry (Table 17.3). -/
def ScopeEntry.word (e : ScopeEntry) (o : Nat) : DWord :=
  if o = 0 then BitVec.ofNat 64 (flagBit e.valid 0 + 256 * e.hops)
  else if o = 8 then BitVec.ofNat 64 e.gen
  else if o < 0x90 then e.members.extractLsb' (8 * (o - 0x10)) 64 else 0

/-- Columns with compute and soles that run (Table 24.6). -/
def Pavilion.columns (p : Pavilion) : Nat := if p.minimal || p.held || p.lodgeHeld then 0 else 2 ^ 128 - 1
def Pavilion.soles (p : Pavilion) : Nat := if p.held then 0 else if p.minimal then 2 ^ p.minimalSole else 15

/-- The boot report (Table 24.6). -/
def State.bootWord (s : State) (o : Nat) : DWord :=
  let p := s.pav
  match o with
  | 0x00 => BitVec.ofNat 64 (flagBit p.minimal 0 + 256 * p.reason + 65536 * (p.fsc % 256))
  | 0x08 => BitVec.ofNat 64 (s.pkgid.toNat + 65536 * p.soles)
  | 0x10 => BitVec.ofNat 64 p.columns
  | 0x18 => BitVec.ofNat 64 (p.columns / 2 ^ 64)
  | 0x20 => p.versions.1
  | 0x28 => p.versions.2.1
  | 0x30 => p.versions.2.2
  | 0x38 => BitVec.ofNat 64 p.reportTick
  | _ => 0

/-- A word of an insole map entry (Table 17.5). -/
def Region.word (e : Region) (high : Bool) : DWord :=
  if high then BitVec.ofNat 64 (2 ^ 32 * e.spill.toNat + 65536 * e.own.toNat + flagBit e.ov 15)
  else BitVec.ofNat 64 (65536 * e.row.toNat + flagBit e.die 6 + 16 * e.shank.toNat + e.st.toNat)

/-- The word at an 8-byte aligned offset of the region; none where nothing is backed (Table 24.1). Of a submission line
only the first word can be read (Table 14.2). -/
def State.deviceWord (s : State) (o : Nat) : Option DWord :=
  let c := o / 0x1000 % 128
  let p := o % 0x1000
  if o < 0x2000000 then some (if o % 128 = 0 then s.wordAt (deviceBase + o) else 0)
  else if o < 0x2080000 then some (s.controlWord c p)
  else if o < 0x2100000 then some (s.replayWord c p)
  else if o < 0x2180000 then
    some (if p = 8 ∨ 88 ≤ p then 0 else s.columnCounter c (p / 8) (s.col c).lsel.toNat)
  else if 0x3000000 ≤ o ∧ o < 0x3001000 then some (s.packageWord p)
  else if 0x3001000 ≤ o ∧ o < 0x3001300 then some ((look {} s.scopes (p / 0x100)).word (p % 0x100))
  else if 0x3002000 ≤ o ∧ o < 0x3002040 then some (s.bootWord p)
  else if 0x3003000 ≤ o ∧ o < 0x3005000 then some (Config.attest ((o - 0x3003000) / 8))
  else if 0x3100000 ≤ o ∧ o < 0x3100000 + 16 * 12288 then
    some ((look {} s.regions ((o - 0x3100000) / 16)).word (o % 16 == 8))
  else none

/-! ## Writes -/

/-- EVSIZE and SCSIZE (R395). -/
def ringSize (v : DWord) : Nat := if 4 ≤ fld v 4 0 ∧ fld v 4 0 ≤ 16 then fld v 4 0 else 0

def State.writeRingSize (s : State) (col : Nat) (sysc : Bool) (v : DWord) : State :=
  if sysc then (s.modCol col fun c => { c with scsize := ringSize v }).retrySysc col
  else s.modCol col fun c => { c with evsize := ringSize v }

/-- SPBASE and SPSIZE, while no area lies in the pool (R395). DEDUCED, unsafe (log 43). -/
def State.writeSavePool (s : State) (col : Nat) (size : Bool) (v : DWord) : State :=
  if !(s.col col).pool.isEmpty then s
  else
    (s.modCol col fun c => if size then { c with spsize := v &&& ~~~0xFFF } else { c with spbase := v &&& ~~~0xFFF }).poolFreed

/-- A checkpoint register; the engine must be idle (R422). -/
def Checkpoint.write (k : Checkpoint) (o : Nat) (v : DWord) : Checkpoint :=
  if k.busy != 0 then k
  else
    match o with
    | 0x00 => { k with ckrt := v }
    | 0x08 => { k with ckrn := v }
    | 0x10 => { k with ckres := v }
    | 0x18 => { k with ckresz := v }
    | 0x20 => { k with ckcnt := v }
    | 0x28 => { k with cknvq := v }
    | _ => k

/-- A user-event CSR other than uevasid (Table 24.3). -/
def Hart.writeCsr (h : Hart) (n : Nat) (v : DWord) : Hart :=
  match n with
  | 0x8C0 => { h with uevt := v }
  | 0x8C1 => { h with uevp := h.uevp &&& ~~~v }
  | 0x8C2 => { h with uevc := h.uevc &&& ~~~v }
  | 0x8C3 => { h with uevm := v }
  | 0x8C4 => { h with uevepc := v }
  | 0x8C5 => { h with uie := v.getLsbD 0, pie := v.getLsbD 1 }
  | 0x5C1 => { h with uevtab := v &&& ~~~0xFFF }
  | _ => h

/-- A hart raises an exception: RISC-V code and stval (R397, R398). -/
def State.hartTrap (s : State) (hart code : Nat) (stval : DWord) : State :=
  s.modHart hart fun h => { h with exception := some (code, stval) }

/-- An illegal-instruction exception; what stval holds is RISC-V's to say. DEDUCED, unsafe (log 45). -/
def State.hartIllegal (s : State) (hart : Nat) : State :=
  let (v, s) := s.takeFree
  s.hartTrap hart 2 (BitVec.ofNat 64 v)

/-- A hart that is out of reset writes one of its CSRs; uevtab and uevasid are S-mode only (Table 24.3, R405). DEDUCED,
unsafe (log 45). -/
def State.writeUevCsr (s : State) (hart n : Nat) (v : DWord) : State :=
  if !s.hartRuns hart then s
  else if n = 0x5C1 ∧ (s.hartAt hart).mode = .user then s.hartIllegal hart else s.modHart hart fun h => h.writeCsr n v

/-- A command word of a replay entry (R268). -/
def State.replayCommand (s : State) (core entry : Nat) (v : DWord) : State :=
  if v = 2 then s.replayTerminate core entry
  else if v = 1 then s.replayGo core entry
  else s

/-- FCMD (R359, R395). DEDUCED, unsafe (log 33). -/
def State.writeFcmd (s : State) (v : DWord) : State :=
  let action := fld v 7 0
  if action = 1 ∨ action = 2 ∨ action = 3 then s.fibreCommand (fld v 47 16) action else s

/-- The sole that holds a register; none: the package. -/
def regSole : DeviceReg → Option Nat
  | .spt col _ | .fcmd col | .lsel col | .evbase col | .scbase col | .evprod col | .scprod col | .evcons col | .sccons col
  | .evirq col | .power col _ | .uevCsr col _ => some (clusterOf col)
  | .ckpt sole _ => some sole
  | .insoleOwner region => some (clusterOf (region / 96))
  | .replayCmd core _ => some (clusterOf (colOf core))
  | .lostto | .pciewin _ => none

/-- A register without a row of its own; those of a sole in reset take no write (R405). DEDUCED, unsafe (log 43). -/
def State.writeRegister (s : State) (reg : DeviceReg) (v : DWord) : State :=
  if !(regSole reg).all s.soleRuns then s
  else
  match reg with
  | .spt col n => s.modCol col fun c => { c with spt := put 0 c.spt n (v &&& 3) }
  | .fcmd _ => s.writeFcmd v
  | .lsel col => s.modCol col fun c => { c with lsel := v }
  | .evbase col => s.modCol col fun c => { c with evbase := v &&& ~~~0x3F }
  | .scbase col => s.modCol col fun c => { c with scbase := v &&& ~~~0x3F }
  | .evprod col => s.modCol col fun c => { c with evprod := v }
  | .scprod col => (s.modCol col fun c => { c with scprod := v }).retrySysc col
  | .evcons col => s.modCol col fun c => { c with evcons := v }
  | .sccons col => (s.modCol col fun c => { c with sccons := v }).retrySysc col
  | .evirq col => s.modCol col fun c => { c with evirq := v &&& 0x80000000000007FF }
  | .power col n => s.writePower col n v
  | .lostto => if 1 ≤ v.toNat ∧ v.toNat ≤ 10000 then { s with lostto := v } else s
  | .pciewin i => { s with pciewin := put false s.pciewin i (v.getLsbD 0) }
  | .ckpt i o => s.modCkpt i fun k => k.write o v
  | .insoleOwner r =>
    { s with regions := modify {} s.regions r fun e => { e with own := v.extractLsb' 16 16, ov := v.getLsbD 15 } }
  | .replayCmd core entry => s.replayCommand core entry v
  | .uevCsr hart n => s.writeUevCsr hart n v

/-! ## Meanings -/

/-- REGISTER_WRITE (R10). -/
def execRegisterWrite (reg : DeviceReg) (value : DWord) (s : State) : Host.Outcome State Fault Refusal :=
  .next (s.writeRegister reg value)
/-- RING_SIZE_WRITE (R395). -/
def execRingSizeWrite (col : Nat) (sysc : Bool) (value : DWord) (s : State) : Host.Outcome State Fault Refusal :=
  .next (if s.soleRuns (clusterOf col) then s.writeRingSize col sysc value else s)
/-- SAVE_POOL_WRITE (R395). -/
def execSavePoolWrite (col : Nat) (size : Bool) (value : DWord) (s : State) : Host.Outcome State Fault Refusal :=
  .next (if s.soleRuns (clusterOf col) then s.writeSavePool col size value else s)
/-- GOVCTL_WRITE (R414). -/
def execGovctlWrite (col : Nat) (value : DWord) (s : State) : Host.Outcome State Fault Refusal :=
  .next (if s.soleRuns (clusterOf col) then s.writeGovctl col value else s)
/-- TTRIP_WRITE (R411). -/
def execTtripWrite (col : Nat) (value : DWord) (s : State) : Host.Outcome State Fault Refusal :=
  .next (if s.soleRuns (clusterOf col) then s.writeTtrip col value else s)

end Sys2Proof.Machine
end

