-- ==== Sys2Proof/Machine/Power.lean ====
section
/-!
DEFINITION. Power, heat, stacking and soft errors (R175, R176, R321, R409 to R421): boost permits, the throttle and
the supply cap, gating, retention sleep, scrub, the shank tester and displaced insole regions. A step whose occasion
has not come changes nothing.
-/
namespace Sys2Proof.Machine

/-! ## Boost permits (R412, R413) -/

/-- The operating point of a cluster changes: its columns' clocks change with it (R409). -/
def State.setPoint (s : State) (c p : Nat) : State :=
  if look 0 s.opPoint c = p then s
  else
    let s := (List.range 32).foldl (fun s i => s.rebase (32 * c + i)) s
    { s with opPoint := put 0 s.opPoint c p }

/-- Clusters that ask for boost, from the rotation pointer on. -/
def State.requests (s : State) : List Nat :=
  ((List.range 4).map fun i => (s.rotation + i) % 4).filter fun c => look false s.breq c

/-- A cluster is granted a permit. -/
def State.grant (s : State) (c : Nat) : State :=
  { s.setPoint c 2 with
    pool := s.pool - 1
    charged := s.charged + 1
    clusterCharged := put 0 s.clusterCharged c (look 0 s.clusterCharged c + 1)
    refusals := put 0 s.refusals c 0 }

/-- A cluster is refused: from boost it falls to intermediate once, and then to nominal. -/
def State.refuse (s : State) (c : Nat) : State :=
  let n := min (look 0 s.refusals c + 1) 2
  { s.setPoint c (if n = 1 ∧ look 0 s.opPoint c = 2 then 1 else 0) with refusals := put 0 s.refusals c n }

/-- A cluster does not ask. -/
def State.atNominal (s : State) (c : Nat) : State := { s.setPoint c 0 with refusals := put 0 s.refusals c 0 }

/-- R412's boundary, `ceiling` saying that the package drew more than 4.6 kW. -/
def State.boundary (s : State) (ceiling : Bool) : State :=
  let req := s.requests
  let granted := if req.isEmpty || ceiling then [] else req.take (min s.pool req.length)
  let s := granted.foldl State.grant s
  let s := match granted.getLast? with
    | some c => if granted.length = req.length then s else { s with rotation := (c + 1) % 4 }
    | none => s
  let s := (req.filter fun c => !granted.contains c).foldl State.refuse s
  let s := ((List.range 4).filter fun c => !req.contains c).foldl State.atNominal s
  (s.evaluateDevice 2).evaluateDevice 4

/-- Boundary k falls at tick 5,000 k, after a refill that is due at it. DESIGN CHOICE, safe (log 50). -/
def State.boundaryDue (s : State) : Bool := 5000 * s.boundaries ≤ s.tick && s.boundaries < 10 * (s.windows + 1)

/-- The boundary that is due, after an interval of that mean draw. -/
def State.takeBoundary (s : State) (drawMilliwatt : Nat) : State :=
  if s.boundaryDue then
    { s.boundary (s.boundaries != 0 && 4600000 < drawMilliwatt) with boundaries := s.boundaries + 1 }
  else s

/-- BOOST_BOUNDARY. DESIGN CHOICE, safe (log 50). -/
def execBoostBoundary (drawMilliwatt : Nat) (s : State) : Host.Outcome State Fault Refusal :=
  .next (s.takeBoundary drawMilliwatt)

/-- Window w ends at tick 50,000 (w + 1), after the boundaries before it. DESIGN CHOICE, safe (log 50). -/
def State.windowDue (s : State) : Bool := 50000 * (s.windows + 1) ≤ s.tick && 10 * (s.windows + 1) ≤ s.boundaries

/-- The refill of the window that has ended, whose mean draw that was. -/
def State.takeRefill (s : State) (meanDrawMilliwatt : Nat) : State :=
  if !s.windowDue then s
  else
    let s : State := { s with windows := s.windows + 1 }
    if s.pool < 64 ∧ meanDrawMilliwatt < 3900000 then
      { s with pool := s.pool + 1, refilled := s.refilled + 1 }.evaluateDevice 3
    else s

/-- PERMIT_REFILL. DESIGN CHOICE, safe (log 50). -/
def execPermitRefill (meanDrawMilliwatt : Nat) (s : State) : Host.Outcome State Fault Refusal :=
  .next (s.takeRefill meanDrawMilliwatt)

/-- What is due at a tick is done before time leaves it: a refill and a boundary that no step of their own has made are
made with a draw that nothing says. DESIGN CHOICE, safe (log 50). -/
def State.leaveTick (s : State) : State :=
  let s := if s.windowDue then s.takeFree.2.takeRefill s.takeFree.1 else s
  if s.boundaryDue then s.takeFree.2.takeBoundary s.takeFree.1 else s

/-! ## Throttle and supply (R414, R415) -/

/-- A new microsecond has begun since a sample. -/
def State.sampleDue (s : State) (last : Option Nat) : Bool :=
  match last with
  | some u => decide (u < s.tick / 1000)
  | none => true

/-- Ten microseconds have passed since the column's last step. -/
def State.paced (s : State) (x : Column) : Bool :=
  x.steps.isEmpty && match x.lastStep with
  | some t => decide (t + 10000 ≤ s.tick)
  | none => true

/-- The step that a sample calls for: the new level and its subcode. -/
def State.sampleStep (s : State) (x : Column) : Option (Nat × Nat) :=
  let t := x.temp
  if x.tcrit ≤ t then (if x.goal < 7 then some (7, 3) else none)
  else if x.tup ≤ t ∧ x.goal < 7 ∧ s.paced x then some (x.goal + 1, 1)
  else if t ≤ x.tdn ∧ x.lmin.toNat < x.goal ∧ s.paced x then some (x.goal - 1, 2)
  else none

/-- The governor of a column takes the sample of microsecond u. -/
def State.takeSample (s : State) (col u : Nat) (temp : BitVec 16) : State :=
  let s := s.modCol col fun x => { x with temp, lastSample := some u }
  match s.sampleStep (s.col col) with
  | some (l, sub) => s.stepLevel col l sub
  | none => s

/-- GOVERNOR_SAMPLE. -/
def execGovernorSample (col temp : Nat) (s : State) : Host.Outcome State Fault Refusal :=
  .next (if !s.sampleDue (s.col col).lastSample then s
    else s.takeSample col (s.tick / 1000) (BitVec.ofNat 16 temp))

/-- A microsecond has ended in which no reading reached the governor of a column: its sensor still reads what it read
last, and the sample is taken with that. DESIGN CHOICE, unsafe (log 84). -/
def State.missedSample (s : State) (col : Nat) : State :=
  let x := s.col col
  let missed := match x.lastSample with
    | some u => decide (u + 1 < s.tick / 1000)
    | none => decide (0 < s.tick / 1000)
  if missed && s.soleRuns (clusterOf col) then s.takeSample col (s.tick / 1000 - 1) x.temp else s

/-- The 16th sample in a row: cap, SUPSTAT, event and error-log record. DEDUCED, unsafe (log 51). -/
def State.supplyEvent (s : State) (col mean : Nat) : State :=
  let s := (s.rebase col).modCol col fun x =>
    { x with supCap := true, supEvt := true, supDrop := BitVec.ofNat 16 mean, supNsmp := 16 }
  let s := s.event col { kind := 6, d0 := BitVec.ofNat 64 (mean % 65536 + 65536 * 16) }
  s.logError col { level := 6, place := 4 * col }

/-- SUPPLY_DROOP_SAMPLE. DEDUCED, unsafe (log 51). -/
def execSupplyDroopSample (col drop : Nat) (s : State) : Host.Outcome State Fault Refusal :=
  .next (if !s.sampleDue (s.col col).lastDroop then s
    else
      let s := s.modCol col fun x => { x with lastDroop := some (s.tick / 1000) }
      if drop ≤ Config.staticDrop col + 40 then s.modCol col fun x => { x with droopRun := 0, droopSum := 0 }
      else
        let s := s.modCol col fun x => { x with droopRun := x.droopRun + 1, droopSum := x.droopSum + drop }
        let x := s.col col
        if x.droopRun = 16 then s.supplyEvent col (x.droopSum / 16) else s)

/-! ## Gating and sleep (R416, R417) -/

/-- A fibre of a group on a core can issue. -/
def State.coreReady (s : State) (core : Nat) : Bool :=
  s.teams.any fun t => t.groups.any fun g => g.core == core && !g.retired && g.fibres.any Fibre.ready

/-- No slot is ready and no engine operation in flight. -/
def State.coreIdle (s : State) (core : Nat) : Bool := !s.coreReady core && (s.core core).engine.isEmpty

/-- CORE_GATE. -/
def execCoreGate (core : Nat) (s : State) : Host.Outcome State Fault Refusal :=
  let x := s.core core
  let c := s.col (colOf core)
  .next (if c.pgen && !x.gated && decide (x.idleFrom + c.gidle.toNat ≤ s.tick) && s.coreIdle core then
      s.setCore core { x with gated := true, gatedAt := s.colCycle (colOf core), l1 := [], icache := [], tlb := [], records := [] }
    else s)

/-- An insole bank, one for each region of the column, has been idle for BIDLE ticks. DEDUCED, unsafe (log 55). -/
def State.bankIdle (s : State) (col bank : Nat) : Bool :=
  let c := s.col col
  c.bidle != 0 && decide (bank < 96) && !c.asleep.contains bank && decide (look 0 c.lastBank bank + c.bidle.toNat ≤ s.tick)

/-- INSOLE_BANK_SLEEP. -/
def execInsoleBankSleep (col bank : Nat) (s : State) : Host.Outcome State Fault Refusal :=
  .next (if s.bankIdle col bank then s.modCol col fun c => { c with asleep := c.asleep ++ [bank] } else s)

/-! ## Errors in memories (R179, R375, R419) -/

/-- An uncorrectable error poisons the sectors among n bytes: each newly poisoned one counts, and an error that
poisons none anew counts once. DEDUCED, unsafe (log 52). -/
def State.poisonAt (s : State) (col loc n : Nat) : State :=
  let new := (sectorsOf loc n).filter fun x => !s.poison.contains x
  (new.foldl State.mark s).addUncorrected col (max 1 new.length)

/-- Registers of a fibre, private and shared, and its split entries, as units. -/
def fibreUnits (k : Kernel) (gid : Nat) (f : Fibre) : List UnitRef :=
  ((List.range (((k.fibres[f.fid]?).map (·.priv)).getD 0)).map fun n => UnitRef.vec gid f.fid n) ++
    ((List.range 32).map fun n => UnitRef.uni gid f.fid n) ++ ((List.range 96).map fun n => UnitRef.pred gid f.fid n) ++
    (f.splits.filter fun x => x.hw.isSome).map fun x => UnitRef.split gid f.fid x.idx

/-- Entries of a core's queue arrays that belong to a team. -/
def Core.unitsOf (x : Core) (core : Nat) (r : TeamRef) : List UnitRef :=
  ((x.reqs.filter fun q => q.team == r).map fun q => UnitRef.copyEntry core q.idx) ++
    ((x.replay.filter fun e => e.team == r).map fun e => UnitRef.replayEntry core e.idx) ++
    ((x.engine.filter fun e => e.fib.team == r).map fun e => UnitRef.engineEntry core e.num) ++
    (x.wcb.filter fun l => l.stores.any fun y => y.1 == r).map fun l => UnitRef.wcLine core l.loc

/-- Units of a team on a core that a level of scrub covers; a line whose pending bit is set is not visited (R420). -/
def State.unitsOf (s : State) (t : Team) (k : Kernel) (core : Nat) : ScrubLevel → List UnitRef
  | .scratchpad =>
    ((List.range (k.scratchBytes / 128)).map (128 * ·)).filterMap fun o =>
      if t.pendingLines.contains o then none else some (.line o)
  | _ =>
    ((t.groups.filter fun g => g.core == core).flatMap fun g =>
      (g.fibres.flatMap (fibreUnits k g.gid)) ++ ((List.range k.shared).map fun n => UnitRef.vec g.gid 4 (192 + n)) ++
        (List.range 32).map fun n => UnitRef.uni g.gid 4 (32 + n)) ++
    (t.tiles.flatMap fun n => (List.range 72).map fun u => UnitRef.slotUnit n u) ++
    (t.regions.flatMap fun x => (List.range 64).map fun i => UnitRef.row x.1 i) ++ (s.core core).unitsOf core t.ref

/-- Marks a unit of a team, or a launch-queue entry (R375, R419). -/
def State.markUnit (s : State) (r : TeamRef) (u : UnitRef) : State :=
  match u with
  | .launchEntry seq => s.modLaunch seq fun l => { l with marked := true }
  | _ => s.modTeam r fun t => { t with marked := if t.marked.contains u then t.marked else t.marked ++ [u] }

/-- Units of the resident teams, and entries of the launch queue, that a level of scrub covers on a core. -/
def State.coreUnits (s : State) (core : Nat) (level : ScrubLevel) : List (TeamRef × UnitRef) :=
  ((s.teams.filter fun t => t.core == core || t.groups.any fun g => g.core == core).flatMap fun t =>
    match s.kernel? t.ref.seq with
    | some k => (s.unitsOf t k core level).map fun u => (t.ref, u)
    | none => []) ++
    (if level == .arrays && core % 4 == 0 then
      (s.col (colOf core)).queue.map fun l => (({ seq := l.seq, idx := 0 } : TeamRef), UnitRef.launchEntry l.seq)
    else [])

/-- One of some units, or none of them. DEDUCED, unsafe (log 52). -/
def State.someOf (s : State) (l : List (TeamRef × UnitRef)) : Option (TeamRef × UnitRef) × State :=
  let (v, s) := s.takeFree
  (l[v % (l.length + 1)]?, s)

/-- A unit of a team as that in which an error lies. -/
def errorUnit (u : Option (TeamRef × UnitRef)) : Option ErrorUnit := u.map fun x => .team x.1 x.2

/-! ## Scrub (R420) -/

/-- Number of a level in an error-log record (R421). -/
def scrubCode : ScrubLevel → Nat
  | .arrays => 0 | .scratchpad => 1 | .slice => 2 | .insole => 3 | .hbm => 4

/-- A column scrubs a place of a level: a core, a local physical address or an insole byte offset. -/
def scrubs (col : Nat) (level : ScrubLevel) (place : Nat) : Bool :=
  match level with
  | .arrays | .scratchpad => colOf place == col
  | .slice | .hbm => isHbm place && homeColumn place == col
  | .insole => decide (place < insoleBytes) && place / regionBytes / 96 == col

/-- The period register of a level; 0: the level is not scrubbed. -/
def Column.period (x : Column) : ScrubLevel → BitVec 8
  | .arrays => x.scrubArr
  | .scratchpad => x.scrubSpd
  | .slice => x.scrubLlc
  | .insole => x.scrubIns
  | .hbm => x.scrubHbm

/-- What a visit wakes. -/
def State.scrubWakes (s : State) (_col : Nat) (level : ScrubLevel) (place : Nat) : State :=
  match level with
  | .arrays | .scratchpad => s.wakeCore place
  | .insole => s.wakeRegion (place / regionBytes)
  | _ => s

/-- An uncorrectable finding: poison or a mark, counter 10 and a record. DEDUCED, unsafe (log 52). -/
def State.scrubBad (s : State) (col : Nat) (level : ScrubLevel) (place : Nat) (unit : Option (TeamRef × UnitRef)) : State :=
  let (syndrome, s) := s.takeFree
  let note : ErrorNote := { level := scrubCode level, uncorrected := true, byScrub := true, place, syndrome }
  match level with
  | .arrays | .scratchpad =>
    let s := match unit with
      | some (r, u) => s.markUnit r u
      | none => s
    (s.addUncorrected col 1).logError col
      { note with seq := (unit.map (·.1.seq)).getD 0, team := (unit.map (·.1.idx)).getD 0, unit := errorUnit unit }
  | .slice =>
    let (tag, s) := s.takeFree
    let n := if tag % 2 = 1 then 4096 else 128
    (s.poisonAt col (place / n * n) n).logError col { note with poisoned := true }
  | .insole => (s.poisonAt col (s.insoleNow (place / 128 * 128)) 128).logError col { note with poisoned := true }
  | .hbm => (s.poisonAt col (place / 32 * 32) 32).logError col { note with poisoned := true }

/-- The unit of a level that a place lies in, where the place names one: a line, or a sector of HBM; for the arrays and
scratchpads of a core the visit itself says which (`State.visitUnit`). -/
def scrubUnit (level : ScrubLevel) (place : Nat) : Option Nat :=
  match level with
  | .arrays | .scratchpad => none
  | .slice | .insole => some (place / 128)
  | .hbm => some (place / 32)

/-- Number of the sweep of a level that is under way. -/
def State.sweep (s : State) (col : Nat) (level : ScrubLevel) : Nat := s.tick / (((s.col col).period level).toNat * 10 ^ 9)

/-- The unit has been visited in a sweep (R420). -/
def Column.wasSwept (x : Column) (level : ScrubLevel) (u : Nat ⊕ ErrorUnit) (sweep : Nat) : Bool := x.swept.contains (level, u, sweep)

/-- The units of the teams on a core that this sweep has still to visit. -/
def State.unswept (s : State) (col core : Nat) (level : ScrubLevel) : List (TeamRef × UnitRef) :=
  (s.coreUnits core level).filter fun x => !(s.col col).wasSwept level (.inr (.team x.1 x.2)) (s.sweep col level)

/-- A visit is recorded for its sweep. -/
def State.noteSweep (s : State) (col : Nat) (level : ScrubLevel) (u : Nat ⊕ ErrorUnit) : State :=
  let n := s.sweep col level
  s.modCol col fun c => { c with swept := (level, u, n) :: c.swept.filter fun x => x.1 != level || x.2.2 == n }

/-- An error corrected in a place of a level: counter 9 and a record, which further errors of the unit share (R419, R421).
DEDUCED, unsafe (log 52). -/
def State.correctAt (s : State) (col : Nat) (level : ScrubLevel) (place : Nat) (unit : Option (TeamRef × UnitRef)) (byScrub : Bool) : State :=
  let (syndrome, s) := s.takeFree
  let place := ((scrubUnit level place).map fun u => if level == .hbm then 32 * u else 128 * u).getD place
  (s.addCorrected col 1).logError col { level := scrubCode level, byScrub, place, syndrome, unit := errorUnit unit }

/-- A visit finds what it finds. -/
def State.scrubFinds (s : State) (col : Nat) (level : ScrubLevel) (place : Nat) (unit : Option (TeamRef × UnitRef)) :
    ScrubFinding → State
  | .clean => s
  | .correctable => s.correctAt col level place unit true
  | .uncorrectable => s.scrubBad col level place unit

/-- A visit of a unit that its place names, or of one of a core that the sweep has still to visit, or of one that no team
uses (R420). -/
def State.visitUnit (s : State) (col : Nat) (level : ScrubLevel) (place : Nat) (found : ScrubFinding) : State :=
  match scrubUnit level place with
  | some u =>
    if (s.col col).wasSwept level (.inl u) (s.sweep col level) then s
    else ((s.scrubWakes col level place).noteSweep col level (.inl u)).scrubFinds col level place none found
  | none =>
    let (unit, s) := s.someOf (s.unswept col place level)
    let s := s.scrubWakes col level place
    let s := match errorUnit unit with
      | some u => s.noteSweep col level (.inr u)
      | none => s
    s.scrubFinds col level place unit found

/-- SCRUB_VISIT. DEDUCED, unsafe (log 52). -/
def execScrubVisit (col : Nat) (level : ScrubLevel) (place : Nat) (found : ScrubFinding) (s : State) :
    Host.Outcome State Fault Refusal :=
  .next (if !scrubs col level place || (s.col col).period level == 0 then s else s.visitUnit col level place found)

/-- Lines of an insole region. -/
def regionLines : Nat := regionBytes / 128

/-- Some unit of a bank of the column was not visited in a sweep. -/
def State.bankUnswept (s : State) (col bank sweep : Nat) : Bool :=
  let r := 96 * col + bank
  (((s.col col).swept.filter fun x => match x with
    | (.insole, .inl u, n) => n == sweep && u / regionLines == r
    | _ => false).length) < regionLines

/-- A sweep of a level of a column ends: the units that no step has visited in it are visited, with nothing found, which
wakes their banks and cores (R417, R420). DESIGN CHOICE, unsafe (log 99). -/
def State.endSweep (s : State) (col : Nat) (level : ScrubLevel) : State :=
  let period := ((s.col col).period level).toNat * 10 ^ 9
  if period = 0 || s.tick = 0 || s.tick % period != 0 then s
  else
    let s := match level with
      | .insole => ((List.range 96).filter fun b => s.bankUnswept col b (s.tick / period - 1)).foldl
          (fun (s : State) b => s.wakeRegion (96 * col + b)) s
      | .arrays | .scratchpad => (List.range 4).foldl (fun (s : State) i => s.wakeCore (4 * col + i)) s
      | _ => s
    s.modCol col fun c => { c with swept := c.swept.filter fun x => x.1 != level }

/-- The first tick after this one at which a sweep of a column ends. -/
def State.sweepEnds (s : State) (col : Nat) : List Nat :=
  ([.arrays, .scratchpad, .slice, .insole, .hbm] : List ScrubLevel).filterMap fun l =>
    let period := ((s.col col).period l).toNat * 10 ^ 9
    if period = 0 then none else some ((s.tick / period + 1) * period)

/-- The sweeps of a column that end at this tick. -/
def State.endSweeps (s : State) (col : Nat) : State :=
  ([.arrays, .scratchpad, .slice, .insole, .hbm] : List ScrubLevel).foldl (fun s l => s.endSweep col l) s

/-! ## The shank tester (R418) -/

/-- Rows of a shank tested in a millisecond. -/
def Column.rowsIn (x : Column) (shank ms : Nat) : Nat :=
  let r := look (0, 0) x.shRows shank
  if r.1 = ms then r.2 else 0

/-- The tester may test a row of a shank at a tick, leaving the shank that it tested before: enabled, with its spare path,
not within 10 µs of the last demand access that stopped it there, and at most RATE rows in a millisecond (R418). -/
def Column.mayTest (x : Column) (shank tick : Nat) : Bool :=
  x.shTen && !x.shNosp && decide (shank < 4) && (x.shStopped.all fun y => y.1 != shank || decide (y.2 + 10000 ≤ tick)) &&
    decide (x.rowsIn shank (tick / 1000000) < x.shRate.toNat)

/-- The regions of a column whose bytes lie on a shank: those that it backs and that are neither displaced nor lost. -/
def State.onShank (s : State) (col shank : Nat) : List Nat :=
  ((List.range 96).map (96 * col + ·)).filter fun r =>
    let e := look {} s.regions r
    e.shank.toNat == shank && e.st.toNat < 2

/-- A failing row moves to a spare row of its shank, while there is one, and is logged; which line of a region on the
shank it holds, and whether the line codes correct its data, are not in the step: corrected data count as a correction,
other data are poisoned. DESIGN CHOICE, unsafe (log 53). -/
def State.failingRow (s : State) (col shank : Nat) : State :=
  let (v, s) := s.takeFree
  let (syndrome, s) := s.takeFree
  let (bad, s) := s.takeFree
  let s := s.modCol col fun x => { x with spares := put spareRows x.spares shank (x.sparesOf shank - 1) }
  let rs := s.onShank col shank
  match rs[v % rs.length]? with
  | none => s.logError col { level := 7, place := 4 * col, syndrome }
  | some r =>
    let place := r * regionBytes + 128 * (v / rs.length % regionLines)
    let s := if bad % 2 = 1 then s.poisonAt col (insoleLoc place) 128 else s.addCorrected col 1
    s.logError col { level := 7, uncorrected := bad % 2 == 1, poisoned := bad % 2 == 1, place, syndrome }

/-- SHANK_TEST_ROW. -/
def execShankTestRow (col shank : Nat) (failing : Bool) (s : State) : Host.Outcome State Fault Refusal :=
  .next (if !(s.col col).mayTest shank s.tick then s
    else
      let ms := s.tick / 1000000
      let s := s.modCol col fun x => { x with
        shBusy := some shank, shStopped := x.shStopped.filter (·.1 != shank), shRows := put (0, 0) x.shRows shank (ms, x.rowsIn shank ms + 1) }
      if failing then s.failingRow col shank else s)

/-- SHANK_TEST_RESUME: a shank that a demand access stopped, 10 µs after the last one, once no other is under test. -/
def execShankTestResume (col : Nat) (s : State) : Host.Outcome State Fault Refusal :=
  let x := s.col col
  .next (match x.shStopped.find? fun y => decide (y.2 + 10000 ≤ s.tick) with
    | some (k, _) =>
      if x.shTen && !x.shNosp && x.shBusy.isNone then
        s.modCol col fun x => { x with shStopped := x.shStopped.filter (·.1 != k), shBusy := some k }
      else s
    | none => s)

/-- SPARE_PATH_FAILURE. -/
def execSparePathFailure (col : Nat) (s : State) : Host.Outcome State Fault Refusal :=
  .next (s.modCol col fun x => { x with shNosp := true, shBusy := none, shStopped := [] })

/-! ## Displaced and lost regions (R321) -/

def State.regionAt (s : State) (r : Nat) : Region := look {} s.regions r
def State.setRegion (s : State) (r : Nat) (e : Region) : State := { s with regions := put {} s.regions r e }

/-- The spares of a region's shank are gone. DESIGN CHOICE, unsafe (log 53). -/
def State.sparesGone (s : State) (r : Nat) : Bool := (s.col (r / 96)).sparesOf (s.regionAt r).shank.toNat == 0

/-- The event of a change to displaced or lost. -/
def regionEvent (r old new : Nat) : EventRecord :=
  { kind := 7, d0 := BitVec.ofNat 64 r, d1 := BitVec.ofNat 64 (old + 256 * new) }

/-- The bytes of a region and its poison marks go to its spill slot (R176). -/
def State.spillRegion (s : State) (region : Nat) : State :=
  let a := insoleLoc (region * regionBytes)
  let b := spillLoc (s.regionAt region).spill.toNat 0
  let s := s.wakeRegion region
  { s with
    mem := (slice s.mem a regionBytes).foldl (fun m x => put 0 m (b + x.1) x.2) s.mem
    poison := s.poison ++ (s.poison.filter fun x => a / 32 ≤ x && x < (a + regionBytes) / 32).map fun x => x - a / 32 + b / 32 }

/-- REGION_DISPLACEMENT: the region takes the next free spill slot and its copy begins. -/
def execRegionDisplacement (region : Nat) (s : State) : Host.Outcome State Fault Refusal :=
  let e := s.regionAt region
  .next (if e.st == 0 && s.sparesGone region && decide (s.spillSlots < Config.spillSlots) then
      { s.setRegion region { e with st := 1, spill := BitVec.ofNat 32 s.spillSlots } with spillSlots := s.spillSlots + 1 }
    else s)

/-- DISPLACEMENT_SWITCH: the copy is complete, and the new location is used from now on (R176). -/
def execDisplacementSwitch (region : Nat) (s : State) : Host.Outcome State Fault Refusal :=
  let e := s.regionAt region
  .next (if e.st == 1 then ((s.spillRegion region).setRegion region { e with st := 2 }).event (region / 96) (regionEvent region 1 2) else s)

/-- REGION_LOSS. -/
def execRegionLoss (region : Nat) (s : State) : Host.Outcome State Fault Refusal :=
  let e := s.regionAt region
  .next (if e.st == 0 && s.sparesGone region && decide (Config.spillSlots ≤ s.spillSlots) then
      (s.setRegion region { e with st := 3 }).event (region / 96) (regionEvent region 0 3)
    else s)

end Sys2Proof.Machine
end

