-- ==== Sys2Proof/Machine/WaitEvents.lean ====
section
/-!
DEFINITION. Steps of waiting: syscall answers (R364), held events (R273), wake-ups (R328), polls (R329), the counters
that advance by themselves (R352), wake-ups from a peer home (R335) and the end of an address space (R336).
-/
namespace Sys2Proof.Machine

/-- SYSC_ANSWER. -/
def execSyscAnswer (fib : FibreRef) (thread : Nat) (s : State) : Host.Outcome State Fault Refusal :=
  .next (s.answerSysc fib thread)

/-- HELD_EVENT_WRITE: the oldest held event is written once the ring has room. -/
def execHeldEventWrite (col : Nat) (s : State) : Host.Outcome State Fault Refusal :=
  .next (match (s.col col).held with
    | [] => s
    | e :: rest =>
      if s.eventRingFull col then s else (s.modCol col fun c => { c with held := rest }).writeEvent col e)

/-- The counter of a wait lies in another package. -/
def Waiter.isRemote (w : Waiter) : Bool :=
  match w.counter with
  | .mem loc => isPeer loc
  | _ => false

/-- The home of a wait's counter can be reached now (R401). -/
def Waiter.reachable (w : Waiter) (s : State) : Bool :=
  match w.counter with
  | .mem loc => s.peerOpen loc
  | _ => true

/-- WAIT_WAKEUP: of a wait that its local home has satisfied; a peer's wait leaves as a message. -/
def execWaitWakeup (k : Nat) (s : State) : Host.Outcome State Fault Refusal :=
  .next (match s.waiters[k]? with
    | some w => if w.satisfied && !w.isRemote then s.wake w else s
    | none => s)

/-- A satisfied wait completes whoever waits (R328). -/
def State.complete (s : State) (w : Waiter) : State :=
  if w.atHome then fireOne { s with waiters := s.waiters.erase w } w else s.wake w

/-- POLL_RETRY: the wait completes, registers, or reads again after twice the interval (R329). -/
def execPollRetry (k : Nat) (s : State) : Host.Outcome State Fault Refusal :=
  .next (match s.waiters[k]? with
    | none => s
    | some w =>
      match w.poll with
      | none => s
      | some (next, back) =>
        if s.tick < next || !w.reachable s then s
        else
        match s.rereadBad w with
        | some s => s
        | none =>
        if satisfies (s.counter w.counter) w.threshold then s.complete w
        else
          let w' : Waiter :=
            if s.homeFull w.counter then { w with poll := some (s.tick + min (2 * back) 4096, min (2 * back) 4096) }
            else { w with poll := none }
          { s with waiters := s.waiters.set k w' })

/-- A wait is on the timebase or on core cycles. -/
def Waiter.onTime (w : Waiter) : Bool :=
  match w.counter with
  | .device _ n => n ≤ 1
  | _ => false

/-- TIMEBASE_WAIT_SATISFIED. -/
def execTimebaseWaitSatisfied (k : Nat) (s : State) : Host.Outcome State Fault Refusal :=
  .next (match s.waiters[k]? with
    | some w =>
      if w.onTime && !w.satisfied && w.poll.isNone && satisfies (s.counter w.counter) w.threshold then
        { s with waiters := s.waiters.set k { w with satisfied := true } }
      else s
    | none => s)

/-- The peer's message ends a wait: the word at the peer stands at the threshold or beyond it by a free value. DEDUCED,
unsafe (log 48). -/
def State.remoteEnd (s : State) (w : Waiter) (loc : Nat) : State :=
  let u : State := { s with waiters := s.waiters.erase w }
  if satisfies (s.counter w.counter) w.threshold then u.complete { w with satisfied := true }
  else
    let (v, t) := u.takeFree
    (t.writeNum loc 8 (w.threshold + BitVec.ofNat 64 (v % 2 ^ 63)).toNat).complete { w with satisfied := true }

/-- REMOTE_WAKEUP: the message travels by the live port of the counter's class; a wait that polls is not registered at the
peer (R329, R335). -/
def execRemoteWakeup (k : Nat) (s : State) : Host.Outcome State Fault Refusal :=
  .next (match s.waiters[k]? with
    | none => s
    | some w =>
      match w.counter with
      | .mem loc =>
        if !isPeer loc || !s.peerOpen loc then s
        else if w.satisfied then s.complete w
        else if w.poll.isSome then s
        else s.remoteEnd w loc
      | _ => s)

/-- A waiter is registered at a peer's word, whose message can reach this package (R335). -/
def State.heldAt (s : State) (loc : Nat) (w : Waiter) : Bool :=
  w.counter == .mem loc && isPeer loc && s.peerOpen loc && !w.satisfied && w.poll.isNone

/-- The peer tells that a wait on its word has ended with killed status, which opens no gate (R337, R341). DEDUCED, unsafe
(log 48). -/
def State.remoteKilled (s : State) (loc k : Nat) : State :=
  match s.waiters[k]? with
  | some w =>
    if s.heldAt loc w && !w.isGate then
      State.complete { s with waiters := s.waiters.erase w } { w with satisfied := true, killed := true }
    else s
  | none => s

/-- ADDRESS_SPACE_TEARDOWN (R336): the process's host waiters go, and CARMs that waited for room try again. -/
def execAddressSpaceTeardown (asid : Nat) (s : State) : Host.Outcome State Fault Refusal :=
  .next ((s.withdraw fun a => match a with
    | .host i _ _ => i == asid
    | _ => false).retry fun h => h == .homeList)

end Sys2Proof.Machine
end

