-- ==== Sys2Proof/Machine/Fabric.lean ====
section
/-!
DEFINITION. PCIe and the UALink fabric (R170, R335, R399 to R403): requests that reach this package, ports that fail
and return, and requests that are lost.
-/
namespace Sys2Proof.Machine

/-! ## Requests of other agents -/

/-- Bytes that an operation of an outer agent touches. -/
def outerBytes : OuterOp → Nat
  | .load n => n
  | .store bs => bs.length
  | .fence | .withdraw _ => 0
  | .amoWord _ | .loadReservedWord | .storeConditionalWord _ => 4
  | _ => 8

/-- Messages that only the fabric of packages carries: waits and counter initialisations. -/
def onlyFabric : OuterOp → Bool
  | .wait _ _ | .withdraw _ | .waitKilled _ | .counterInit _ => true
  | _ => false

/-- The request lies in HBM, atomic operations on aligned words (R164). -/
def outerInHbm (addr : Nat) (op : OuterOp) : Bool :=
  decide (addr + outerBytes op ≤ 2 ^ 40) && match op with
    | .load _ | .store _ | .fence | .withdraw _ => true
    | _ => addr % outerBytes op == 0

/-- An update of a word at its home, which a poisoned sector keeps from being made (R179). DEDUCED, unsafe (log 24). -/
def State.outerUpdate (s : State) (addr n v : Nat) : State :=
  if (s.poisoned addr n).isEmpty then s.writeNum addr n v else s

/-- What a request from outside does at its home; a load's answer leaves the package. DEDUCED, unsafe (log 68). -/
def State.outer (s : State) (addr : Nat) (op : OuterOp) : State :=
  match op with
  | .store bs => s.writeLoc addr bs
  | .amoAdd v => s.outerUpdate addr 8 (s.wordAt addr + v).toNat
  | .amoSet v => s.outerUpdate addr 8 v.toNat
  | .amoWord v => s.outerUpdate addr 4 v.toNat
  | .counterInit v => if s.waitedOn (.mem addr) then s else s.outerUpdate addr 8 v.toNat
  | .load n => s.throughSlice addr n false
  | .loadReserved => s.throughSlice addr 8 false
  | .loadReservedWord => s.throughSlice addr 4 false
  | _ => s

/-- PCIE_INBOUND_REQUEST: any other address is an unsupported request and changes nothing (R399). -/
def execPcieInboundRequest (port addr : Nat) (op : OuterOp) (s : State) : Host.Outcome State Fault Refusal :=
  .next (if s.pcieDown.contains port || onlyFabric op || !outerInHbm addr op then s else s.outer addr op)

/-- A peer's wait registers, or leaves at once where it is satisfied (R328, R335). -/
def State.peerWait (s : State) (pkg addr : Nat) (thr : DWord) (tag : Nat) : State :=
  if satisfies (s.wordAt addr) thr then s else s.register { agent := .peer pkg tag, counter := .mem addr, threshold := thr }

/-- PEER_REQUEST (R170, R335, R337). -/
def execPeerRequest (pkg addr : Nat) (op : OuterOp) (s : State) : Host.Outcome State Fault Refusal :=
  .next (if pkg == s.pkgid.toNat || !s.anyPort || !outerInHbm addr op then s
    else
      match op with
      | .wait thr tag => s.peerWait pkg addr thr tag
      | .withdraw tag => s.withdraw (· == .peer pkg tag)
      | .waitKilled k => s.remoteKilled (peerLoc pkg addr) k
      | _ => s.outer addr op)

/-! ## PCIe links -/

/-- PCIE_LINK_DOWN (R399). -/
def execPcieLinkDown (port : Nat) (s : State) : Host.Outcome State Fault Refusal :=
  .next (if s.pcieDown.contains port then s else { s with pcieDown := s.pcieDown ++ [port] })

/-- PCIE_LINK_UP. -/
def execPcieLinkUp (port : Nat) (s : State) : Host.Outcome State Fault Refusal :=
  .next { s with pcieDown := s.pcieDown.filter (· != port) }

/-! ## Ports (R401 to R403) -/

/-- The column whose ring takes the events of ports. DEDUCED, unsafe (log 60). -/
def portColumn : Nat := 0

/-- Why a port is down: locked, with its plane dead, or by its link. DEDUCED, unsafe (log 61). -/
def State.downReason (s : State) (port : Nat) : Nat :=
  if (s.portAt port).locked then 2
  else if !(s.portAt (port / 2 * 2)).live && !(s.portAt (port / 2 * 2 + 1)).live then 3 else 1

/-- A port has gone down: its classes move, and the event says so. -/
def State.portLost (s : State) (port : Nat) : State :=
  let s := s.reroute
  s.event portColumn (portEvent port (s.downReason port) 0 0 0)

/-- UALINK_PORT_DOWN. -/
def execUalinkPortDown (port : Nat) (s : State) : Host.Outcome State Fault Refusal :=
  let p := s.portAt port
  .next (if !p.up then s
    else
      let s := s.modPort port fun p => { p with up := false, downAt := if p.live then some s.tick else p.downAt, flitFailed := false }
      if p.live then s.portLost port else s)

/-- A live port again: its classes move back, and what waited for a port goes on (R401). -/
def State.portBack (s : State) (port : Nat) : State :=
  if (s.portAt port).live then
    let s := ((s.modPort port fun p => { p with downAt := none }).reroute).event portColumn (portEvent port 4 0 0 0)
    (s.cores.map (·.1)).foldl State.land s
  else s

/-- Ports train only in a package that runs in full mode (R404, R405). DEDUCED, unsafe (log 62). -/
def Pavilion.fabric (p : Pavilion) : Bool := !p.held && !p.minimal && !p.lodgeHeld

/-- PORT_RESTORED: the link trains, for the first time too. -/
def execPortRestored (port : Nat) (s : State) : Host.Outcome State Fault Refusal :=
  .next (if (s.portAt port).up || !s.pav.fabric then s
    else (s.modPort port fun p => { p with up := true }).portBack port)

/-- FLIT_TAG_FAILURE (R402). -/
def execFlitTagFailure (port : Nat) (replayed : Bool) (s : State) : Host.Outcome State Fault Refusal :=
  let p := s.portAt port
  .next (if !p.live then s
    else if replayed && p.flitFailed then
      (s.modPort port fun p => { p with locked := true, downAt := some s.tick, flitFailed := false }).portLost port
    else if replayed then s
    else s.modPort port fun p => { p with errors := p.errors + 1, flitFailed := true })

/-- LINK_REATTEST (R402). -/
def execLinkReattest (port : Nat) (s : State) : Host.Outcome State Fault Refusal :=
  .next (if (s.portAt port).locked && s.pav.fabric then
      (s.modPort port fun p => { p with locked := false, keyed := true }).portBack port
    else s)

/-! ## Lost requests (R401, R196) -/

/-- A request that is lost: its fibre, the result that waits for it with the address of its instruction, its location, and
whether it changes memory. -/
structure LostRequest where
  fib : FibreRef
  id : Nat
  pc : DWord
  loc : Nat
  changes : Bool
  deriving DecidableEq, Repr

/-- A request of a class that uses a port. -/
def State.uses (s : State) (port : Nat) (x : Nat × Bool) : Bool := s.portOf (classOf x.1) == port

/-- Requests outstanding on a port. Without any live port a load can be issued again by none, and stays outstanding. -/
def State.onPort (s : State) (port : Nat) : List LostRequest :=
  s.allFibres.flatMap fun (r, f) => f.outstanding.flatMap fun p =>
    (p.remote.filter fun x => s.uses port x && (x.2 || s.anyPort)).map fun x => ⟨r, p.id, p.pc, x.1, x.2⟩

/-- Lines of stores on their way by a port. -/
def State.linesOn (s : State) (port : Nat) : List WcLine :=
  s.cores.flatMap fun (_, k) => k.flight.filter fun l => l.port == some port

/-- First location whose store a line holds. -/
def WcLine.first (l : WcLine) : Nat := l.loc + (((l.bytes.map (·.off)).min?).getD 0)

/-- Lost requests and the stores on a port are outstanding there no more. -/
def State.forget (s : State) (port : Nat) : State :=
  let clear (p : Pending) : Pending := { p with remote := p.remote.filter fun x => !(s.uses port x && (x.2 || s.anyPort)) }
  { s with
    cores := s.cores.map fun (i, k) => (i, { k with flight := k.flight.filter fun l => l.port != some port })
    teams := s.teams.map fun t => { t with groups := t.groups.map fun (g : Group) => { g with
      fibres := g.fibres.map fun (f : Fibre) => { f with outstanding := f.outstanding.map clear } } } }

/-- The register writes of a thread's load, or read of a counter, from the bytes it finds (R216, R348). -/
def Reload.writes (x : Reload) (t : Nat) (bs : List Byte) : List RegWrite :=
  let v := BitVec.ofNat 64 (natLE bs)
  let d := x.w.d.toNat
  if x.op = 0xD3 then
    let met : DWord := if satisfies v (look 0 x.thr t) then 1 else 0
    [if x.w.u then ⟨.uni d, met⟩ else ⟨.pred (d % 128) t, met⟩]
  else if x.op = 0xD4 then if x.w.u then [⟨.uni d, v⟩] else vecWrites true d t v
  else loadWrites x.w t bs

/-- What a lost load reads when it is issued again: the bytes at their homes, and those that its core's earlier stores gave
it. -/
def State.reread (s : State) (x : Reload) : List RegWrite :=
  x.runs.flatMap fun (t, runs) => x.writes t (runs.flatMap fun (a, n) =>
    (s.cleaned a (s.bytesAt a n)).zipIdx.map fun (b, i) => (look none x.own (a + i)).getD b)

/-- A lost load is issued again on the new route (R401); a register that a later write has taken since stays as it is. -/
def State.loadAgain (s : State) (q : LostRequest) : State :=
  s.modFibre q.fib fun f => { f with outstanding := f.outstanding.map fun p =>
    if p.id != q.id then p
    else
      let new := (p.reload.map s.reread).getD []
      { p with
        remote := p.remote ++ [(q.loc, false)]
        writes := p.writes.map fun w => (new.find? fun x => x.reg == w.reg).getD w } }

/-- The first of several requests of each team. -/
def firstOfTeams : List LostRequest → List LostRequest
  | [] => []
  | x :: rest => x :: (firstOfTeams rest).filter fun y => y.fib.team != x.fib.team

/-- What is outstanding on a port is lost. Loads are issued again by the new route; an atomic or a counter add is cause
24 for its team; a store is never performed, and fences that waited for it go on (R196, R401, R403). DEDUCED, unsafe
(log 61). -/
def State.lose (s : State) (port : Nat) : State :=
  let out := s.onPort port
  let adds := out.filter (·.changes)
  let lines := s.linesOn port
  let stores := ((lines.flatMap (·.stores)).eraseDups).length
  let t := (s.forget port).reroute
  let t := (out.filter fun x => !x.changes).foldl State.loadAgain t
  let t := match lines.map WcLine.first ++ adds.map (·.loc) ++ out.map (·.loc) with
    | [] => t
    | loc :: _ => t.event portColumn (portEvent port (s.downReason port) (loc % 2 ^ 64) stores adds.length)
  let t := (t.cores.map (·.1)).foldl State.land t
  (firstOfTeams adds).foldl (fun s x => s.teamError x.fib.team 24 (some x.fib) x.pc) t

/-- LOST_TIMEOUT: LOSTTO has passed since a port went down (R401). -/
def execLostTimeout (port : Nat) (s : State) : Host.Outcome State Fault Refusal :=
  .next (match (s.portAt port).downAt with
    | none => s
    | some t => if s.tick < t + 1000 * s.lostto.toNat || (s.portAt port).live then s else s.lose port)

end Sys2Proof.Machine
end

