-- ==== Sys2Proof/Machine/Pavilion.lean ====
section
/-!
DEFINITION. The pavilion: the start sequence (R404 to R406) and elections (R314, R407, R408).
-/
namespace Sys2Proof.Machine

/-- Ticks of a millisecond. -/
def msTicks : Nat := 1000000

/-! ## Elections (R407, R408) -/

/-- This package's ID. -/
def State.ownId (s : State) : Nat := s.pkgid.toNat

def State.modPav (s : State) (f : Pavilion → Pavilion) : State := { s with pav := f s.pav }

/-- The pavilion sends a message. -/
def State.send (s : State) (pkg : Nat) (m : PavMsg) : State := s.modPav fun p => { p with sent := p.sent ++ [(some pkg, m)] }

/-- It sends its hello to every package that its links reach; without a leader it names itself (R407). DEDUCED, unsafe (log
62). -/
def State.sendHello (s : State) : State :=
  s.modPav fun p => { p with sent := p.sent ++ [(none, .hello s.ownId (p.leader.getD s.ownId) p.gen)] }

/-- It sends a message to every other member. -/
def State.sendMembers (s : State) (m : PavMsg) : State :=
  (s.pav.members.filter (· != s.ownId)).foldl (fun s p => s.send p m) s

/-- The valid bits are cleared (R314). -/
def State.clearScopes (s : State) : State :=
  { s with scopes := s.scopes.map fun (x : Nat × ScopeEntry) => (x.1, { x.2 with valid := false }) }

/-- An election starts. -/
def State.startElection (s : State) : State :=
  (s.clearScopes.modPav fun p => { p with
    fabstat := 1, leader := none, heard := [], electStart := some s.tick, acked := [], members := [], draft := [] }).sendHello

/-- ELECTION_START. -/
def execElectionStart (s : State) : Host.Outcome State Fault Refusal :=
  .next (if s.pav.fabric then s.startElection else s)

/-- HEARTBEAT_TIMEOUT. -/
def execHeartbeatTimeout (s : State) : Host.Outcome State Fault Refusal :=
  .next (if s.pav.fabstat = 2 ∧ s.pav.heartbeat + 1000 * msTicks ≤ s.tick then s.startElection else s)

/-- The election has run for a time. -/
def State.electing (s : State) (ms : Nat) : Bool :=
  s.pav.fabstat == 1 && match s.pav.electStart with
    | some t => decide (t + ms * msTicks ≤ s.tick)
    | none => false

/-- COMMIT_TIMEOUT. -/
def execCommitTimeout (s : State) : Host.Outcome State Fault Refusal :=
  .next (if s.electing 5000 then s.startElection else s)

/-- A leader tells its followers to clear their entries, and an election starts. -/
def State.newElection (s : State) : State := (s.sendMembers .abdication).startElection

/-- A leader gives way to a lower-ID leader (R408). -/
def State.abdicate (s : State) (leader : Nat) : State :=
  ((s.sendMembers .abdication).send leader (.mergeRequest s.pav.members)).startElection

/-- A hello is recorded while an election runs; one from the same place replaces an earlier one. DEDUCED, unsafe (log
62). -/
def Pavilion.hear (p : Pavilion) (h : Hello) : Pavilion :=
  { p with heard := (p.heard.filter fun x => !(x.sender == h.sender && x.hops == h.hops)) ++ [h] }

/-- HELLO_RECEIVED. -/
def execHelloReceived (h : Hello) (s : State) : Host.Outcome State Fault Refusal :=
  .next (if !h.verified || !s.pav.fabric then s
    else
      match s.pav.fabstat with
      | 1 => s.modPav fun p => p.hear h
      | 2 =>
        match s.pav.leader with
        | some l => if h.leader != l then s.send l (.hello h.sender h.leader h.gen) else s
        | none => s
      | 3 => if h.leader < s.ownId then s.abdicate h.leader else if s.ownId < h.leader then s.newElection else s
      | _ => s)

/-- IDs attested by exactly one package, its own included, in rising order. DEDUCED, unsafe (log 62). -/
def State.verifiedIds (s : State) : List Nat :=
  let all := s.ownId :: s.pav.heard.map (·.sender)
  (List.range 1024).filter fun i => (all.filter (· == i)).length == 1

/-- Hops from this package to a member. -/
def Pavilion.hopsTo (p : Pavilion) (i : Nat) : Nat := ((p.heard.find? fun h => h.sender == i).map (·.hops)).getD 0

/-- Switch hops between two packages: those of the hello that was heard where one of them is this package, and between
two others a free value, the same both ways. DEDUCED, unsafe (log 62). -/
def State.hopsBetween (s : State) (i j : Nat) : Nat :=
  if i = j then 0
  else if i = s.ownId then s.pav.hopsTo j
  else if j = s.ownId then s.pav.hopsTo i
  else 1 + Config.free (s.freeCtr + 1024 * min i j + max i j) % 255

/-- The members of level n, 1 to 3, of a member of the pod (R407). -/
def State.levelIds (s : State) (ids : List Nat) (p n : Nat) : List Nat := ids.filter fun i => n == 3 || s.hopsBetween p i ≤ n

/-- A member set. -/
def memberSet (ids : List Nat) : BitVec 1024 := ids.foldl (fun m i => m ||| (1#1024 <<< i)) 0

/-- The largest number of switch hops between two of these packages, within the field's range (R314); of one package
alone a free value. -/
def State.hopCount (s : State) (ids : List Nat) : Nat :=
  match ids with
  | [i] => 1 + Config.free (s.freeCtr + 1025 * i) % 255
  | _ => max 1 (min 255 ((ids.flatMap fun i => ids.map (s.hopsBetween i)).foldl max 0))

/-- The three entries of a member (R407). -/
def State.entriesOf (s : State) (ids : List Nat) (gen p : Nat) : List ScopeDraft :=
  [1, 2, 3].map fun n => { hops := s.hopCount (s.levelIds ids p n), gen, members := memberSet (s.levelIds ids p n) }

/-- Stores entries with a valid bit (R314). -/
def State.storeScopes (s : State) (l : List ScopeDraft) (valid : Bool) : State :=
  { s with scopes := l.zipIdx.foldl (fun m (d, n) =>
      put {} m n { valid, hops := d.hops, gen := d.gen, members := d.members }) s.scopes }

/-- The links that run get their keys once (R402, R407). DEDUCED, unsafe (log 62). -/
def State.keyLinks (s : State) : State :=
  (List.range 16).foldl (fun s q => if (s.portAt q).up && !(s.portAt q).keyed then s.modPort q fun p => { p with keyed := true } else s) s

/-- The leader commits once every member has acknowledged. -/
def State.commitIfReady (s : State) : State :=
  let p := s.pav
  if p.members.all fun i => p.acked.contains i then
    let s := (s.sendMembers (.commit p.draftGen)).storeScopes p.draft true
    s.modPav fun p => { p with gen := p.draftGen, fabstat := 3, heartbeat := s.tick, electStart := none }
  else s

/-- The leader's work (R407). -/
def State.leaderWork (s : State) (ids : List Nat) : State :=
  let g := (s.pav.heard.map (·.gen)).foldl max s.pav.gen + 1
  let drafts := ids.map fun i => (i, s.entriesOf ids g i)
  let s : State := { s with freeCtr := s.freeCtr + 1024 * 1025 }
  let s := s.modPav fun p => { p with
    leader := some s.ownId, members := ids, acked := [s.ownId], draft := (drafts.lookup s.ownId).getD [], draftGen := g }
  ((drafts.filter fun x => x.1 != s.ownId).foldl (fun s x => s.send x.1 (.entries x.2)) s.keyLinks).commitIfReady

/-- HELLO_PERIOD_END. -/
def execHelloPeriodEnd (s : State) : Host.Outcome State Fault Refusal :=
  .next (if !s.electing 2000 || s.pav.leader.isSome then s
    else
      let ids := s.verifiedIds
      match ids with
      | [] => s
      | l :: _ =>
        if !ids.contains s.ownId then s
        else if l = s.ownId then s.leaderWork ids
        else s.modPav fun p => { p with leader := some l })

/-- A member set holds this package. -/
def State.includes (s : State) (d : ScopeDraft) : Bool := d.members.getLsbD s.ownId

/-- ENTRIES_RECEIVED. DEDUCED, unsafe (log 62). -/
def execEntriesReceived (leader : Nat) (entries : List ScopeDraft) (s : State) : Host.Outcome State Fault Refusal :=
  .next (if s.pav.fabstat = 1 ∧ s.pav.leader = some leader ∧ leader ≠ s.ownId ∧ entries.length = 3 ∧ entries.all s.includes then
      let s := (s.storeScopes entries false).keyLinks
      (s.modPav fun p => { p with draft := entries, draftGen := (entries.headD ⟨0, 0, 0⟩).gen }).send leader .ack
    else s)

/-- ENTRY_ACK_RECEIVED. -/
def execEntryAckReceived (pkg : Nat) (s : State) : Host.Outcome State Fault Refusal :=
  .next (if s.pav.fabstat = 1 ∧ s.pav.leader = some s.ownId ∧ s.pav.members.contains pkg then
      (s.modPav fun p => { p with acked := if p.acked.contains pkg then p.acked else p.acked ++ [pkg] }).commitIfReady
    else s)

/-- COMMIT_RECEIVED. -/
def execCommitReceived (gen : Nat) (s : State) : Host.Outcome State Fault Refusal :=
  .next (if s.pav.fabstat = 1 ∧ s.pav.leader ≠ some s.ownId ∧ s.pav.draft ≠ [] ∧ s.pav.draftGen = gen then
      (s.storeScopes s.pav.draft true).modPav fun p =>
        { p with gen, fabstat := 2, heartbeat := s.tick, electStart := none }
    else s)

/-- ABDICATION_RECEIVED: the follower clears its entries and joins the election (R408). -/
def execAbdicationReceived (leader : Nat) (s : State) : Host.Outcome State Fault Refusal :=
  .next (if s.pav.fabstat = 2 ∧ s.pav.leader = some leader then s.startElection else s)

/-- MERGE_REQUEST_RECEIVED (R408). -/
def execMergeRequestReceived (_pkg : Nat) (_members : List Nat) (s : State) : Host.Outcome State Fault Refusal :=
  .next (if s.pav.fabstat = 3 then s.newElection else s)

/-- LEADER_HEARTBEAT. -/
def execLeaderHeartbeat (s : State) : Host.Outcome State Fault Refusal :=
  .next (if s.pav.fabstat = 2 then s.modPav fun p => { p with heartbeat := s.tick } else s)

/-! ## Starting (R404 to R406) -/

/-- The package after a reset: what the fuses, the flash and the model's own fields hold stays. DEDUCED, unsafe (log
58). -/
def State.fresh (s : State) : State :=
  { State.reset with agenda := s.agenda, freeCtr := s.freeCtr, pkgid := s.pkgid, pav := { fsc := s.pav.fsc } }

/-- The boot report: reason, tick and image versions, which are free values (R406). DEDUCED, unsafe (log 59). -/
def State.report (s : State) (reason : Nat) : State :=
  let n := s.freeCtr
  let version (i : Nat) : DWord := BitVec.ofNat 64 (Config.free (n + i))
  { s with
    freeCtr := n + 3
    pav := { s.pav with reason, reportTick := s.tick, versions := (version 0, version 1, version 2) } }

/-- A failed start: the report is written, and the next PACKAGE_RESET starts again. DEDUCED, unsafe (log 59). -/
def State.failedStart (s : State) (reason : Nat) : State := (s.report reason).modPav fun p => { p with lodgeHeld := true }

/-- Minimal mode (R405). -/
def State.minimalMode (s : State) (f : StartFacts) : State :=
  (s.report 7).modPav fun p => { p with minimal := true, minimalSole := f.goodSole, lodgeHeld := !f.imagesOk }

/-- Seconds of the start watchdog, in ticks. -/
def watchdogTicks : Nat := 600 * 1000 * msTicks

/-- PACKAGE_RESET: the start sequence of Table 24.5. DEDUCED, unsafe (log 58). -/
def execPackageReset (facts : StartFacts) (s : State) : Host.Outcome State Fault Refusal :=
  let s := s.fresh
  .next (if !facts.pavilionOk then s.modPav fun p => { p with held := true }
    else if 3 ≤ s.pav.fsc then s.minimalMode facts
    else
      let s := s.modPav fun p => { p with fsc := p.fsc + 1 }
      if !facts.imagesOk then s.failedStart facts.imageReason
      else if !facts.selfTestOk then s.failedStart facts.selfTestReason
      else ((s.report 0).modPav fun p => { p with watchdog := some (s.tick + watchdogTicks) }).startElection)

/-- START_WATCHDOG_EXPIRY. -/
def execStartWatchdogExpiry (s : State) : Host.Outcome State Fault Refusal :=
  .next (match s.pav.watchdog with
    | some t =>
      if t ≤ s.tick then
        let r := s.report 6
        { r.fresh with pav := { r.pav with watchdog := none, lodgeHeld := true, fabstat := 0, leader := none, gen := 0
                                           electStart := none, heard := [], members := [], acked := [], draft := [] } }
      else s
    | none => s)

/-- BOOTDONE: the start is complete. -/
def State.bootDone (s : State) : State := s.modPav fun p => { p with fsc := 0, watchdog := none }

/-- BOOTDONE. -/
def execBootdone (s : State) : Host.Outcome State Fault Refusal := .next s.bootDone

end Sys2Proof.Machine
end

