-- ==== Sys2Proof/Machine/Checkpoint.lean ====
section
/-!
DEFINITION. The checkpoint engines (R422 to R426): capture, restore, their NVMe commands and their failures.
-/
namespace Sys2Proof.Machine

/-! ## The descriptor and the range table (R422, R423) -/

/-- A reserved field of the queue-pair descriptor is non-zero, or its depth is out of range. DEDUCED, unsafe (log
56). -/
def descriptorBad (s : State) (a : Nat) : Bool :=
  let depth := s.wordAt (a + 0x20)
  fld depth 31 16 != 0 || fld depth 15 0 == 0 || (List.range 3).any fun i => s.wordAt (a + 0x28 + 8 * i) != 0

/-- A range entry. -/
structure CkRange where
  insole : Bool
  base : Nat
  pages : Nat
  block : Nat
  bad : Bool
  deriving DecidableEq, Repr

/-- Entry i of a range table; none where it is not valid. -/
def ckRange (s : State) (table i : Nat) : Option CkRange :=
  let a := table + 32 * i
  let w := s.wordAt a
  if w.getLsbD 0 then
    some { insole := w.getLsbD 1, base := fld w 63 12 * 4096, pages := (s.wordAt (a + 8)).toNat, block := (s.wordAt (a + 16)).toNat
           bad := fld w 11 2 != 0 || fld (s.wordAt (a + 24)) 63 32 != 0 }
  else none

/-- The valid entries, with their numbers. -/
def Checkpoint.ranges (k : Checkpoint) (s : State) : List (Nat × CkRange) :=
  (List.range k.ckrn.toNat).filterMap fun i => (ckRange s k.ckrt.toNat i).map fun r => (i, r)

/-- The range names a page that does not exist. -/
def CkRange.beyond (r : CkRange) : Bool := decide ((if r.insole then insoleBytes else 2 ^ 40) < r.base + 4096 * r.pages)

/-- Descriptor, registers and table are as R422 and R423 ask. -/
def Checkpoint.malformed (k : Checkpoint) (s : State) : Bool :=
  k.cknvq.toNat % 64 != 0 || k.ckrt.toNat % 64 != 0 || k.ckres.toNat % 4096 != 0 || k.ckresz.toNat % 4096 != 0 ||
    k.ckresz == 0 || k.ckcnt.toNat % 8 != 0 || decide (4096 < k.ckrn.toNat) || descriptorBad s k.cknvq.toNat ||
    (k.ranges s).any fun x => x.2.bad

/-- The failure found before T0 (R425). DEDUCED, unsafe (log 56). -/
def Checkpoint.earlyCode (k : Checkpoint) (s : State) (sole : Nat) : Option Nat :=
  if decide (4096 < k.ckrn.toNat) || k.malformed s then some 1
  else if s.pcieDown.contains sole then some 4
  else if (k.ranges s).any fun x => x.2.beyond then some 5 else none

/-- The pages of the valid entries, in order. DEDUCED, unsafe (log 57). -/
def Checkpoint.pageList (k : Checkpoint) (s : State) : List CkPage :=
  (k.ranges s).flatMap fun (i, r) =>
    (List.range r.pages).map fun n => { insole := r.insole, page := r.base / 4096 + n, entry := i, block := r.block + n }

/-! ## The end of an operation (R424, R425) -/

/-- A capture writes the poisoned sectors of its streamed pages into their range entries (R423). DEDUCED, unsafe (log
56). -/
def State.countPoison (s : State) (k : Checkpoint) : State :=
  if k.busy != 1 then s
  else ((k.pages.map (·.entry)).eraseDups).foldl (fun s i =>
    s.writeNum (k.ckrt.toNat + 32 * i + 24) 4 (((k.pages.filter fun p => p.entry == i && p.streamed).map (·.bad)).sum)) s

/-- The error-log record of a failure, in the ring of column 32 s. -/
def State.ckRecord (s : State) (sole code : Nat) : State :=
  s.logError (32 * sole)
    { level := 9, place := sole, syndrome := code, count := (s.ckptAt sole).pagesDone.toNat }

/-- A failure before T0 leaves nothing behind but the code. -/
def State.ckRefuse (s : State) (sole code : Nat) : State :=
  (s.modCkpt sole fun k => { k with busy := 0, t0 := none, failed := true, code := BitVec.ofNat 8 code }).ckRecord sole code

/-- A failure after T0: pages are released, what lies in the reserve is discarded, and CKCNT rises. -/
def State.ckFail (s : State) (sole code : Nat) : State :=
  let k := s.ckptAt sole
  let s := s.modCkpt sole fun k => { k with busy := 0, pages := [], nvme := none, failed := true, code := BitVec.ofNat 8 code }
  ((s.countPoison k).addLoc k.ckcnt.toNat 1).ckRecord sole code

/-- Every NVMe command has completed: CKCNT rises. -/
def State.ckDone (s : State) (sole : Nat) : State :=
  let k := s.ckptAt sole
  let s := s.modCkpt sole fun k => { k with busy := 0, pages := [], nvme := none, failed := false, code := 0 }
  (s.countPoison k).addLoc k.ckcnt.toNat 1

/-- The NVMe command of page n: a Write of its image, or a Read, of its logical block (R422, R423). -/
def State.ckIssue (s : State) (sole n : Nat) (p : CkPage) : State :=
  let write := (s.ckptAt sole).busy == 1
  let (img, bad) := match p.image with
    | some i => (i, p.bad)
    | none => s.pageImage p
  let s := if p.image.isNone then s.wakePage p.insole p.page else s
  s.modCkpt sole fun k => { k with
    nvme := some { issued := s.tick, retry := false, write, page := n, block := p.block, data := if write then img else [] }
    pages := k.pages.zipIdx.map fun (p, i) => if i = n then { p with bad } else p }

/-- The page that goes to or comes from storage next: the first, or the first of a full reserve, on which writes may wait
(R424). -/
def Checkpoint.nextPage (k : Checkpoint) : Option (CkPage × Nat) :=
  let todo := k.pages.zipIdx.filter fun x => !x.1.streamed
  (if k.freeSlot.isNone then todo.find? fun x => x.1.slot.isSome else none).or todo.head?

/-- The next NVMe command is issued, or the operation ends. DEDUCED, unsafe (log 56). -/
def State.ckNext (s : State) (sole : Nat) : State :=
  match (s.ckptAt sole).nextPage with
  | some (p, n) => s.ckIssue sole n p
  | none => s.ckDone sole

/-! ## Commands -/

/-- CKCMD: a command is checked and begins, or is ignored (R422); a sole in reset takes none (R405). -/
def State.ckCommand (s : State) (sole cmd : Nat) : State :=
  let k := s.ckptAt sole
  if !s.soleRuns sole then s
  else if k.busy != 0 then s.modCkpt sole fun k => { k with ignored := true }
  else
    let s := s.modCkpt sole fun k => { k with ignored := false, pagesDone := 0 }
    match k.earlyCode s sole with
    | some c => s.ckRefuse sole c
    | none =>
      if cmd = 1 then s.modCkpt sole fun k => { k with busy := 1, faults := 0, t0 := some ((s.now + 1000 * unitsPerTick + unitsPerTick - 1) / unitsPerTick) }
      else
        let todo := (k.pageList s).map fun p => { p with image := some [] }
        (s.modCkpt sole fun k => { k with busy := 2, pages := todo }).ckNext sole

/-- CKCMD_CAPTURE. -/
def execCkcmdCapture (sole : Nat) (s : State) : Host.Outcome State Fault Refusal := .next (s.ckCommand sole 1)
/-- CKCMD_RESTORE. -/
def execCkcmdRestore (sole : Nat) (s : State) : Host.Outcome State Fault Refusal := .next (s.ckCommand sole 2)

/-- At T0 every page of every valid entry is protected. -/
def State.captureT0 (s : State) (sole : Nat) : State :=
  match (s.ckptAt sole).t0 with
  | none => s
  | some t =>
    if s.tick < t then s
    else if s.pcieDown.contains sole then s.ckRefuse sole 4
    else (s.modCkpt sole fun k => { k with t0 := none, pages := k.pageList s }).ckNext sole

/-- CAPTURE_T0 (R424): time does not pass its tick without it. -/
def execCaptureT0 (sole : Nat) (s : State) : Host.Outcome State Fault Refusal := .next (s.captureT0 sole)

/-! ## NVMe commands -/

/-- The page of a command has been moved: a page that was streamed straight keeps its image. -/
def Checkpoint.moved (k : Checkpoint) (c : NvmeCmd) : Checkpoint :=
  ({ k with pages := k.pages.zipIdx.map fun (x : CkPage × Nat) =>
      if x.2 = c.page && x.1.image.isNone then { x.1 with image := some c.data } else x.1 } : Checkpoint).streamPage c.page

/-- A restored page is written at its home, the line's data read from storage (R426). -/
def State.restorePage (s : State) (k : Checkpoint) (c : NvmeCmd) (data : List Byte) : State :=
  match k.pages[c.page]? with
  | some p => (s.wakePage p.insole p.page).writeLoc (s.pageLoc p) (data.take 4096)
  | none => s

/-- Ten seconds have passed since a command was issued (R425). -/
def State.nvmeLate (s : State) (c : NvmeCmd) : Bool := decide (c.issued + 10000 * msTicks < s.tick)

/-- NVME_COMMAND_COMPLETION: the engine retries a failed command once; a completion after ten seconds comes too late
(R425). -/
def execNvmeCommandCompletion (sole : Nat) (ok : Bool) (data : List Byte) (s : State) : Host.Outcome State Fault Refusal :=
  let k := s.ckptAt sole
  .next (match k.nvme with
    | none => s
    | some c =>
      if s.nvmeLate c then s.ckFail sole 3
      else if ok then
        let s := if k.busy = 2 then s.restorePage k c data else s
        (s.modCkpt sole fun k => k.moved c).ckNext sole
      else if c.retry then s.ckFail sole 2
      else s.modCkpt sole fun k => { k with nvme := some { c with retry := true, issued := s.tick } })

/-- NVME_TIMEOUT: ten seconds. -/
def execNvmeTimeout (sole : Nat) (s : State) : Host.Outcome State Fault Refusal :=
  .next (match (s.ckptAt sole).nvme with
    | some c => if c.issued + 10000 * msTicks ≤ s.tick then s.ckFail sole 3 else s
    | none => s)

/-- RESERVE_COPY_COMPLETE: a protected page, by its number in the capture, has been copied aside (R424). -/
def execReserveCopyComplete (sole page : Nat) (s : State) : Host.Outcome State Fault Refusal :=
  let k := s.ckptAt sole
  .next (match k.pages[page]? with
    | some p =>
      if k.busy = 1 ∧ p.isProtected ∧ k.freeSlot.isSome then s.copyAside sole p.insole p.page else s
    | none => s)

end Sys2Proof.Machine
end

