-- ==== Sys2Proof/Machine/LodgeHart.lean ====
section
/-!
DEFINITION. Lodge harts: user events (R336, R397), poison (R398), their accesses to memory and to the device page region
(R197, R255, R334, R394), translation walks and shoot-downs (R172 to R174).
-/
namespace Sys2Proof.Machine

/-! ## User events (R397) -/

/-- Bit 63 of a cause word. -/
def killedBit (k : Bool) : DWord := if k then 0x8000000000000000 else 0

/-- Location of an ASID's entry of a user-event table. -/
def eventEntry (tab : DWord) (asid : Nat) : Nat := tab.toNat + 16 * asid

/-- ORs pending vectors and a cause into an ASID's entry. -/
def State.orEvent (s : State) (tab : DWord) (asid : Nat) (p c : DWord) : State :=
  let a := eventEntry tab asid
  let s := s.writeNum a 8 (s.wordAt a ||| p).toNat
  s.writeNum (a + 8) 8 (s.wordAt (a + 8) ||| c).toNat

/-- A hart takes a user event. -/
def State.takeEvent (s : State) (hart : Nat) (e : UserEvent) : State :=
  let h := s.hartAt hart
  let p : DWord := 1#64 <<< (e.vector % 64)
  let c := killedBit e.killed
  if e.asid = h.uevasid.toNat then s.modHart hart fun h => { h with uevp := h.uevp ||| p, uevc := h.uevc ||| c }
  else if h.uevtab = 0 then s
  else s.orEvent h.uevtab e.asid p c

/-- USER_EVENT_DELIVERY. -/
def execUserEventDelivery (hart : Nat) (s : State) : Host.Outcome State Fault Refusal :=
  .next (match (s.hartAt hart).inbox with
    | [] => s
    | e :: rest =>
      if s.hartRuns hart then (s.modHart hart fun h => { h with inbox := rest }).takeEvent hart e else s)

/-- The user-level interrupt can be taken. -/
def Hart.interrupted (h : Hart) : Bool := h.mode == .user && h.uie && h.uevp &&& h.uevm != 0

/-- USER_EVENT_INTERRUPT. -/
def execUserEventInterrupt (hart : Nat) (s : State) : Host.Outcome State Fault Refusal :=
  .next (if (s.hartAt hart).interrupted && s.hartRuns hart then
      s.modHart hart fun h => { h with uevepc := h.pc, pie := h.uie, uie := false, pc := h.uevt &&& ~~~3 }
    else s)

/-- UEVRET, by the hart that acts. -/
def execUevret (s : State) : Host.Outcome State Fault Refusal :=
  .next (if !s.hartRuns s.hart then s
    else if (s.hartAt s.hart).mode = .user then s.modHart s.hart fun h => { h with pc := h.uevepc, uie := h.pie }
    else s.hartIllegal s.hart)

/-- The exchange of a write of uevasid; without a table what is loaded is not stated. DEDUCED, unsafe (log 45). -/
def State.switchAsid (s : State) (hart : Nat) (x : BitVec 16) : State :=
  let h := s.hartAt hart
  if h.uevtab = 0 then
    let (p, s) := s.takeFree
    let (c, s) := s.takeFree
    s.modHart hart fun h => { h with uevasid := x, uevp := BitVec.ofNat 64 p, uevc := killedBit (c % 2 == 1) }
  else
    let s := s.orEvent h.uevtab h.uevasid.toNat h.uevp h.uevc
    let a := eventEntry h.uevtab x.toNat
    let (p, c) := (s.wordAt a, killedBit ((s.wordAt (a + 8)).getLsbD 63))
    let s := (s.writeNum a 8 0).writeNum (a + 8) 8 0
    s.modHart hart fun h => { h with uevasid := x, uevp := p, uevc := c }

/-- UEVASID_WRITE, by a hart that is out of reset; writing the value it holds changes nothing. -/
def execUevasidWrite (hart : Nat) (value : DWord) (s : State) : Host.Outcome State Fault Refusal :=
  let h := s.hartAt hart
  .next (if !s.hartRuns hart then s
    else if h.mode = .user then s.hartIllegal hart
    else if value.setWidth 16 = h.uevasid then s
    else s.switchAsid hart (value.setWidth 16))

/-! ## Stores to registers of the device page region -/

/-- A register of a column's control page; a sole in reset takes no store (R405). -/
def State.storeControl (s : State) (c p : Nat) (v : DWord) : State :=
  if !s.soleRuns (clusterOf c) then s
  else if p < 0x200 then s.writeRegister (.spt c (p / 8)) v
  else if 0x400 ≤ p ∧ p < 0x450 then s.writePower c (0x30 + (p - 0x400) / 8) v
  else
    match p with
    | 0x200 => s.writeRegister (.fcmd c) v
    | 0x208 => s.writeRegister (.lsel c) v
    | 0x240 => s.writeRegister (.evbase c) v
    | 0x248 => s.writeRingSize c false v
    | 0x250 => s.writeRegister (.evprod c) v
    | 0x258 => s.writeRegister (.evcons c) v
    | 0x268 => s.writeRegister (.evirq c) v
    | 0x280 => s.writeRegister (.scbase c) v
    | 0x288 => s.writeRingSize c true v
    | 0x290 => s.writeRegister (.scprod c) v
    | 0x298 => s.writeRegister (.sccons c) v
    | 0x2C0 => s.writeSavePool c false v
    | 0x2C8 => s.writeSavePool c true v
    | _ => s

/-- A package register. -/
def State.storePackage (s : State) (p : Nat) (v : DWord) : State :=
  if p = 0x008 then (if v = 1 then s.bootDone else s)
  else if p = 0x028 then s.writeRegister .lostto v
  else if 0x100 ≤ p ∧ p < 0x120 then s.writeRegister (.pciewin ((p - 0x100) / 8)) v
  else if 0x400 ≤ p ∧ p < 0x600 then
    let sole := (p - 0x400) / 0x80
    if p % 0x80 = 0x30 then (if v = 1 then s.ckCommand sole 1 else if v = 2 then s.ckCommand sole 2 else s)
    else s.writeRegister (.ckpt sole (p % 0x80)) v
  else s

/-- An 8-byte store to a register; read-only ones keep their value (R10). DEDUCED, unsafe (log 43). -/
def State.storeRegister (s : State) (o : Nat) (v : DWord) : State :=
  let c := o / 0x1000 % 128
  let p := o % 0x1000
  if o < 0x2080000 then s.storeControl c p v
  else if o < 0x2100000 then
    (if p % 0x40 = 0x30 then s.writeRegister (.replayCmd (4 * c + p / 0x400) (p % 0x400 / 0x40)) v else s)
  else if 0x3000000 ≤ o ∧ o < 0x3001000 then s.storePackage p v
  else if 0x3100000 ≤ o ∧ o % 16 = 8 then s.writeRegister (.insoleOwner ((o - 0x3100000) / 16)) v
  else s

/-! ## Accesses to memory (R197, R334) -/

/-- An operation reads memory. -/
def outerReads : OuterOp → Bool
  | .load _ | .loadReserved | .loadReservedWord => true
  | _ => false

/-- Every byte of an access to the device page region is backed. -/
def State.deviceBacked (s : State) (o n : Nat) : Bool :=
  (List.range ((o % 8 + n + 7) / 8)).all fun i => (s.deviceWord (o / 8 * 8 + 8 * i)).isSome

/-- Bytes of the device page region. -/
def State.deviceBytes (s : State) (o n : Nat) : List Byte :=
  (List.range n).map fun i =>
    BitVec.ofNat 8 (((s.deviceWord ((o + i) / 8 * 8)).getD 0).toNat / 256 ^ ((o + i) % 8))

/-- The byte at an offset of the region is privileged: OWN or OV of an insole map entry (Table 17.5), or one of the
registers 0x30 to 0x39 of a column (Table 4.3, R410). -/
def privilegedByte (o : Nat) : Bool :=
  (decide (0x3100000 ≤ o) && decide (o < 0x3100000 + 16 * 12288) && [9, 10, 11].contains (o % 16)) ||
    (decide (0x2000000 ≤ o) && decide (o < 0x2080000) && decide (0x400 ≤ o % 0x1000) && decide (o % 0x1000 < 0x450))

/-- The hart's register takes the value read. -/
def State.hartLoaded (s : State) (hart : Nat) (v : DWord) : State := s.modHart hart fun h => { h with loaded := v }

/-- A lodge-hart operation on the device page region at offset o. Submission lines take a store's bytes and signal
nothing: a store of a whole line is LAUNCH_SIGNAL (R255). An unprivileged access to a privileged register traps
as an illegal encoding (Table 0.5). PRESUMED, unsafe (log 44). -/
def State.hartDevice (s : State) (hart o : Nat) (op : OuterOp) : State :=
  let addr : DWord := BitVec.ofNat 64 (deviceBase + o)
  if (s.hartAt hart).mode == .user && (List.range (outerBytes op)).any (fun i => privilegedByte (o + i)) then s.hartIllegal hart
  else
  match op with
  | .load n =>
    if s.deviceBacked o n then s.hartLoaded hart (BitVec.ofNat 64 (natLE ((s.deviceBytes o n).take 8))) else s.hartTrap hart 5 addr
  | .store bs =>
    if !s.deviceBacked o bs.length then s.hartTrap hart 7 addr
    else if o + bs.length ≤ 0x2000000 then
      (if bs.length = 128 ∧ o % 128 = 0 then s else s.writeLoc (deviceBase + o) bs)
    else if bs.length = 8 ∧ o % 8 = 0 then s.storeRegister o (BitVec.ofNat 64 (natLE bs))
    else s
  | .loadReserved | .loadReservedWord => s.hartTrap hart 5 addr
  | .fence | .wait _ _ | .withdraw _ | .waitKilled _ | .counterInit _ => s
  | _ => s.hartTrap hart 7 addr

/-- The word of n bytes at a location as a hart's register takes it: 4 bytes are sign-extended. PRESUMED, unsafe (log
44). -/
def State.hartWord (s : State) (addr n : Nat) : DWord :=
  if n = 4 then (BitVec.ofNat 32 (numAt s.mem addr 4)).signExtend 64 else s.wordAt addr

/-- A read-modify-write of an aligned word of n bytes, one write of its result: the old value reaches the hart's register.
PRESUMED, unsafe (log 44); DEDUCED, unsafe (log 68). -/
def State.hartAmo (s : State) (hart addr n new : Nat) : State :=
  let stval : DWord := BitVec.ofNat 64 addr
  if addr % n ≠ 0 then s.hartTrap hart 6 stval
  else if !(s.poisoned addr n).isEmpty then s.hartTrap hart 19 stval
  else (s.writeNum addr n new).hartLoaded hart (s.hartWord addr n)

/-- LR of an aligned word of n bytes. PRESUMED, unsafe (log 44). -/
def State.hartReserve (s : State) (hart addr n : Nat) : State :=
  let stval : DWord := BitVec.ofNat 64 addr
  if addr % n ≠ 0 then s.hartTrap hart 4 stval
  else if !(s.poisoned addr n).isEmpty then s.hartTrap hart 19 stval
  else ((s.throughSlice addr n false).hartLoaded hart (s.hartWord addr n)).modHart hart fun h => { h with reservation := some (addr, n) }

/-- SC of a word of n bytes. PRESUMED, unsafe (log 40, 44). -/
def State.hartConditional (s : State) (hart addr n v : Nat) : State :=
  if addr % n ≠ 0 then s.hartTrap hart 6 (BitVec.ofNat 64 addr)
  else if (s.hartAt hart).reservation = some (addr, n) then (s.writeNum addr n v).hartLoaded hart 0
  else (s.hartLoaded hart 1).modHart hart fun h => { h with reservation := none }

/-- A lodge-hart operation on HBM, of this package or a peer's, at its location. PRESUMED, unsafe (log 40, 44). -/
def State.hartHbm (s : State) (hart addr : Nat) (op : OuterOp) : State :=
  let stval : DWord := BitVec.ofNat 64 addr
  let poisoned := !(s.poisoned addr (outerBytes op)).isEmpty
  match op with
  | .load n =>
    if poisoned then s.hartTrap hart 19 stval
    else (s.throughSlice addr n false).hartLoaded hart (BitVec.ofNat 64 (natLE ((s.bytesAt addr n).take 8)))
  | .store bs => s.writeLoc addr bs
  | .loadReserved => s.hartReserve hart addr 8
  | .loadReservedWord => s.hartReserve hart addr 4
  | .storeConditional v => s.hartConditional hart addr 8 v.toNat
  | .storeConditionalWord v => s.hartConditional hart addr 4 v.toNat
  | .amoAdd v => s.hartAmo hart addr 8 (s.wordAt addr + v).toNat
  | .amoSet v => s.hartAmo hart addr 8 v.toNat
  | .amoWord v => s.hartAmo hart addr 4 v.toNat
  | .fence | .wait _ _ | .withdraw _ | .waitKilled _ | .counterInit _ => s

/-- An access fault of a hart. -/
def State.hartFault (s : State) (hart addr : Nat) (op : OuterOp) : State :=
  s.hartTrap hart (if outerReads op then 5 else 7) (BitVec.ofNat 64 addr)

/-- A lodge-hart operation on an address of peer package p: of the package's own ID it is local; a request of a class that
moves stalls, so that nothing happens yet (R170, R335, R401). -/
def State.hartPeer (s : State) (hart p a : Nat) (op : OuterOp) : State :=
  if 2 ^ 40 < a + outerBytes op then s.hartFault hart a op
  else if p = s.ownId then s.hartHbm hart a op
  else if !s.anyPort then s.hartFault hart a op
  else if s.classMoves (lineClass a) then s
  else s.hartHbm hart (peerLoc p a) op

/-- A lodge-hart operation through PCIe port i: a plain load or store while the window is enabled and the link up (R170,
R399); the attached memory takes no atomics. PRESUMED, unsafe (log 44). -/
def State.hartPcie (s : State) (hart i a : Nat) (op : OuterOp) : State :=
  if !(look false s.pciewin i) || s.pcieDown.contains i || decide (2 ^ 54 < a + outerBytes op) then s.hartFault hart a op
  else
    match op with
    | .load _ | .store _ => s.hartHbm hart (pcieLoc i a) op
    | _ => s.hartFault hart a op

/-- LODGE_HART_MEMORY_ACCESS on an address as its translation resolves it (R170): a local physical address, outside HBM
and the device page region an access fault (R164); from 2^64 on the location of a peer's memory or of what a PCIe port
reaches. PRESUMED, unsafe (log 44). -/
def execLodgeHartMemoryAccess (hart addr : Nat) (op : OuterOp) (s : State) : Host.Outcome State Fault Refusal :=
  let space := addr / 2 ^ 64
  .next (if !s.hartRuns hart || onlyFabric op || op == .fence then s
    else if addr + outerBytes op ≤ deviceBase then s.hartHbm hart addr op
    else if deviceBase ≤ addr ∧ addr + outerBytes op ≤ 2 ^ 46 then s.hartDevice hart (addr - deviceBase) op
    else if 1 ≤ space ∧ space < 1025 then s.hartPeer hart (space - 1) (addr % 2 ^ 64) op
    else if 1025 ≤ space ∧ space < 1029 then s.hartPcie hart (space - 1025) (addr % 2 ^ 64) op
    else s.hartFault hart addr op)

/-- LODGE_POISON_CONSUMPTION (R398). -/
def execLodgePoisonConsumption (hart pa : Nat) (s : State) : Host.Outcome State Fault Refusal :=
  .next (if s.hartRuns hart && s.poison.contains (pa / 32) then s.hartTrap hart 19 (BitVec.ofNat 64 pa) else s)

/-! ## Translation (R172 to R174) -/

/-- TRANSLATION_WALK: a walk that missed both TLBs fills them, for an access that the leaf lets pass. DEDUCED, unsafe
(log 47). -/
def execTranslationWalk (core asid root : Nat) (va : DWord) (s : State) : Host.Outcome State Fault Refusal :=
  let w : Space := { core, asid, root }
  let passes (u : Use) : Bool := match s.xlate w u va.toNat with
    | .ok _ => true
    | .fault _ _ => false
  .next (if (s.tlbFind w va.toNat).isNone && [Use.load, .store, .fetch].any passes then s.touch w .load va.toNat else s)

/-- SFENCE_VMA: every store translated before is performed, and the instruction completes, once all of them are
acknowledged (R174). -/
def execSfenceVma (asid : Option Nat) (va : Option DWord) (s : State) : Host.Outcome State Fault Refusal :=
  let s := s.flushStores
  .next (if s.allAcked then s.shoot asid (va.map (·.toNat)) else s)

end Sys2Proof.Machine
end

