-- ==== Sys2Proof/Machine/Dispatch.lean ====
section
/-!
DEFINITION. One arm for each instruction and each step of the device.
-/
namespace Sys2Proof.Machine

def exec (i : Instr) (s : State) : Host.Outcome State Fault Refusal :=
  match i with
  | .nopShort u y => Sys2Proof.Machine.execNopShort u y s
  | .nop w => Sys2Proof.Machine.execNop w s
  | .yieldShort y => Sys2Proof.Machine.execYieldShort y s
  | .yield w => Sys2Proof.Machine.execYield w s
  | .exitShort y => Sys2Proof.Machine.execExitShort y s
  | .exit w => Sys2Proof.Machine.execExit w s
  | .call w => Sys2Proof.Machine.execCall w s
  | .callx w => Sys2Proof.Machine.execCallx w s
  | .jx w => Sys2Proof.Machine.execJx w s
  | .retShort a y => Sys2Proof.Machine.execRetShort a y s
  | .ret w => Sys2Proof.Machine.execRet w s
  | .sigck w => Sys2Proof.Machine.execSigck w s
  | .trap w => Sys2Proof.Machine.execTrap w s
  | .tretShort k y => Sys2Proof.Machine.execTretShort k y s
  | .tret w => Sys2Proof.Machine.execTret w s
  | .sysc w => Sys2Proof.Machine.execSysc w s
  | .brkShort n y => Sys2Proof.Machine.execBrkShort n y s
  | .brk w => Sys2Proof.Machine.execBrk w s
  | .sleepShort a r y => Sys2Proof.Machine.execSleepShort a r y s
  | .sleep w => Sys2Proof.Machine.execSleep w s
  | .fprioImmShort p y => Sys2Proof.Machine.execFprioImmShort p y s
  | .fprioRegShort a y => Sys2Proof.Machine.execFprioRegShort a y s
  | .fprio w => Sys2Proof.Machine.execFprio w s
  | .srdShort a d u y => Sys2Proof.Machine.execSrdShort a d u y s
  | .srd w => Sys2Proof.Machine.execSrd w s
  | .swrShort a d y => Sys2Proof.Machine.execSwrShort a d y s
  | .swr w => Sys2Proof.Machine.execSwr w s
  | .tckptShort y => Sys2Proof.Machine.execTckptShort y s
  | .tckpt w => Sys2Proof.Machine.execTckpt w s
  | .tlbinv w => Sys2Proof.Machine.execTlbinv w s
  | .iadd w => Sys2Proof.Machine.execIadd w s
  | .isub w => Sys2Proof.Machine.execIsub w s
  | .iaddc w => Sys2Proof.Machine.execIaddc w s
  | .isubb w => Sys2Proof.Machine.execIsubb w s
  | .imul w => Sys2Proof.Machine.execImul w s
  | .imulh w => Sys2Proof.Machine.execImulh w s
  | .imad w => Sys2Proof.Machine.execImad w s
  | .imadw w => Sys2Proof.Machine.execImadw w s
  | .idiv w => Sys2Proof.Machine.execIdiv w s
  | .irem w => Sys2Proof.Machine.execIrem w s
  | .imin w => Sys2Proof.Machine.execImin w s
  | .imax w => Sys2Proof.Machine.execImax w s
  | .iabsShort a d u y => Sys2Proof.Machine.execIabsShort a d u y s
  | .iabs w => Sys2Proof.Machine.execIabs w s
  | .inegShort a d u y => Sys2Proof.Machine.execInegShort a d u y s
  | .ineg w => Sys2Proof.Machine.execIneg w s
  | .isad w => Sys2Proof.Machine.execIsad w s
  | .icmp w => Sys2Proof.Machine.execIcmp w s
  | .lea w => Sys2Proof.Machine.execLea w s
  | .and w => Sys2Proof.Machine.execAnd w s
  | .or w => Sys2Proof.Machine.execOr w s
  | .xor w => Sys2Proof.Machine.execXor w s
  | .andn w => Sys2Proof.Machine.execAndn w s
  | .bmix w => Sys2Proof.Machine.execBmix w s
  | .shl w => Sys2Proof.Machine.execShl w s
  | .shr w => Sys2Proof.Machine.execShr w s
  | .sar w => Sys2Proof.Machine.execSar w s
  | .rot w => Sys2Proof.Machine.execRot w s
  | .fshl w => Sys2Proof.Machine.execFshl w s
  | .fshr w => Sys2Proof.Machine.execFshr w s
  | .bfx w => Sys2Proof.Machine.execBfx w s
  | .bfi w => Sys2Proof.Machine.execBfi w s
  | .popcShort a d u y => Sys2Proof.Machine.execPopcShort a d u y s
  | .popc w => Sys2Proof.Machine.execPopc w s
  | .clzShort a d u y => Sys2Proof.Machine.execClzShort a d u y s
  | .clz w => Sys2Proof.Machine.execClz w s
  | .ctzShort a d u y => Sys2Proof.Machine.execCtzShort a d u y s
  | .ctz w => Sys2Proof.Machine.execCtz w s
  | .brevShort a d u y => Sys2Proof.Machine.execBrevShort a d u y s
  | .brev w => Sys2Proof.Machine.execBrev w s
  | .bperm w => Sys2Proof.Machine.execBperm w s
  | .iadd2 w => Sys2Proof.Machine.execIadd2 w s
  | .isub2 w => Sys2Proof.Machine.execIsub2 w s
  | .imin2 w => Sys2Proof.Machine.execImin2 w s
  | .imax2 w => Sys2Proof.Machine.execImax2 w s
  | .icmp2 w => Sys2Proof.Machine.execIcmp2 w s
  | .iacs2 w => Sys2Proof.Machine.execIacs2 w s
  | .fadd w => Sys2Proof.Machine.execFadd w s
  | .fsub w => Sys2Proof.Machine.execFsub w s
  | .fmul w => Sys2Proof.Machine.execFmul w s
  | .ffma w => Sys2Proof.Machine.execFfma w s
  | .fmin w => Sys2Proof.Machine.execFmin w s
  | .fmax w => Sys2Proof.Machine.execFmax w s
  | .fcmp w => Sys2Proof.Machine.execFcmp w s
  | .fclass w => Sys2Proof.Machine.execFclass w s
  | .frcpShort a d u y => Sys2Proof.Machine.execFrcpShort a d u y s
  | .frcp w => Sys2Proof.Machine.execFrcp w s
  | .frsqShort a d u y => Sys2Proof.Machine.execFrsqShort a d u y s
  | .frsq w => Sys2Proof.Machine.execFrsq w s
  | .fsqrtShort a d u y => Sys2Proof.Machine.execFsqrtShort a d u y s
  | .fsqrt w => Sys2Proof.Machine.execFsqrt w s
  | .fdiv w => Sys2Proof.Machine.execFdiv w s
  | .fex2Short a d u y => Sys2Proof.Machine.execFex2Short a d u y s
  | .fex2 w => Sys2Proof.Machine.execFex2 w s
  | .flg2Short a d u y => Sys2Proof.Machine.execFlg2Short a d u y s
  | .flg2 w => Sys2Proof.Machine.execFlg2 w s
  | .fsinShort a d u y => Sys2Proof.Machine.execFsinShort a d u y s
  | .fsin w => Sys2Proof.Machine.execFsin w s
  | .fcosShort a d u y => Sys2Proof.Machine.execFcosShort a d u y s
  | .fcos w => Sys2Proof.Machine.execFcos w s
  | .frnd w => Sys2Proof.Machine.execFrnd w s
  | .dadd w => Sys2Proof.Machine.execDadd w s
  | .dsub w => Sys2Proof.Machine.execDsub w s
  | .dmul w => Sys2Proof.Machine.execDmul w s
  | .dfma w => Sys2Proof.Machine.execDfma w s
  | .dmin w => Sys2Proof.Machine.execDmin w s
  | .dmax w => Sys2Proof.Machine.execDmax w s
  | .dcmp w => Sys2Proof.Machine.execDcmp w s
  | .dclass w => Sys2Proof.Machine.execDclass w s
  | .drcpShort a d u y => Sys2Proof.Machine.execDrcpShort a d u y s
  | .drcp w => Sys2Proof.Machine.execDrcp w s
  | .dsqrtShort a d u y => Sys2Proof.Machine.execDsqrtShort a d u y s
  | .dsqrt w => Sys2Proof.Machine.execDsqrt w s
  | .ddiv w => Sys2Proof.Machine.execDdiv w s
  | .drnd w => Sys2Proof.Machine.execDrnd w s
  | .fadd2 w => Sys2Proof.Machine.execFadd2 w s
  | .fmul2 w => Sys2Proof.Machine.execFmul2 w s
  | .ffma2 w => Sys2Proof.Machine.execFfma2 w s
  | .fmin2 w => Sys2Proof.Machine.execFmin2 w s
  | .fmax2 w => Sys2Proof.Machine.execFmax2 w s
  | .cvt w => Sys2Proof.Machine.execCvt w s
  | .tripck w => Sys2Proof.Machine.execTripck w s
  | .triunp w => Sys2Proof.Machine.execTriunp w s
  | .movShort a d u y => Sys2Proof.Machine.execMovShort a d u y s
  | .mov w => Sys2Proof.Machine.execMov w s
  | .movi w => Sys2Proof.Machine.execMovi w s
  | .sel w => Sys2Proof.Machine.execSel w s
  | .pmix w => Sys2Proof.Machine.execPmix w s
  | .pset w => Sys2Proof.Machine.execPset w s
  | .pget w => Sys2Proof.Machine.execPget w s
  | .pcol w => Sys2Proof.Machine.execPcol w s
  | .gswz w => Sys2Proof.Machine.execGswz w s
  | .rdth w => Sys2Proof.Machine.execRdth w s
  | .wrth w => Sys2Proof.Machine.execWrth w s
  | .gred w => Sys2Proof.Machine.execGred w s
  | .gscan w => Sys2Proof.Machine.execGscan w s
  | .ld w => Sys2Proof.Machine.execLd w s
  | .st w => Sys2Proof.Machine.execSt w s
  | .lds w => Sys2Proof.Machine.execLds w s
  | .sts w => Sys2Proof.Machine.execSts w s
  | .ldu w => Sys2Proof.Machine.execLdu w s
  | .stu w => Sys2Proof.Machine.execStu w s
  | .aadd w => Sys2Proof.Machine.execAadd w s
  | .amin w => Sys2Proof.Machine.execAmin w s
  | .amax w => Sys2Proof.Machine.execAmax w s
  | .alog w => Sys2Proof.Machine.execAlog w s
  | .axchg w => Sys2Proof.Machine.execAxchg w s
  | .acas w => Sys2Proof.Machine.execAcas w s
  | .afadd w => Sys2Proof.Machine.execAfadd w s
  | .fence w => Sys2Proof.Machine.execFence w s
  | .pf w => Sys2Proof.Machine.execPf w s
  | .cctl w => Sys2Proof.Machine.execCctl w s
  | .icinv w => Sys2Proof.Machine.execIcinv w s
  | .cadd w => Sys2Proof.Machine.execCadd w s
  | .cwait w => Sys2Proof.Machine.execCwait w s
  | .cwaitd w => Sys2Proof.Machine.execCwaitd w s
  | .cpoll w => Sys2Proof.Machine.execCpoll w s
  | .cread w => Sys2Proof.Machine.execCread w s
  | .carm w => Sys2Proof.Machine.execCarm w s
  | .cinit w => Sys2Proof.Machine.execCinit w s
  | .ewait w => Sys2Proof.Machine.execEwait w s
  | .eread w => Sys2Proof.Machine.execEread w s
  | .cpt w => Sys2Proof.Machine.execCpt w s
  | .cpl w => Sys2Proof.Machine.execCpl w s
  | .cpg w => Sys2Proof.Machine.execCpg w s
  | .cps w => Sys2Proof.Machine.execCps w s
  | .cpx w => Sys2Proof.Machine.execCpx w s
  | .cpa w => Sys2Proof.Machine.execCpa w s
  | .cpr w => Sys2Proof.Machine.execCpr w s
  | .cpz w => Sys2Proof.Machine.execCpz w s
  | .rflush w => Sys2Proof.Machine.execRflush w s
  | .tclaim w => Sys2Proof.Machine.execTclaim w s
  | .trel w => Sys2Proof.Machine.execTrel w s
  | .aclaim w => Sys2Proof.Machine.execAclaim w s
  | .arel w => Sys2Proof.Machine.execArel w s
  | .mma fam w => Sys2Proof.Machine.execMma fam w s
  | .asa w => Sys2Proof.Machine.execAsa w s
  | .azero w => Sys2Proof.Machine.execAzero w s
  | .ard w => Sys2Proof.Machine.execArd w s
  | .awr w => Sys2Proof.Machine.execAwr w s
  | .ared w => Sys2Proof.Machine.execAred w s
  | .illegalInstruction bits => Sys2Proof.Machine.execIllegalInstruction bits s
  | .starvationRaise core lane slot => Sys2Proof.Machine.execStarvationRaise core lane slot s
  | .watchdog core lane slot => Sys2Proof.Machine.execWatchdog core lane slot s
  | .variableLatencyResult fib k => Sys2Proof.Machine.execVariableLatencyResult fib k s
  | .fibreResume col token => Sys2Proof.Machine.execFibreResume col token s
  | .fibreConvert col token => Sys2Proof.Machine.execFibreConvert col token s
  | .fibreTerminate col token => Sys2Proof.Machine.execFibreTerminate col token s
  | .launchSignal op => Sys2Proof.Machine.execLaunchSignal op s
  | .teamPlacement p => Sys2Proof.Machine.execTeamPlacement p s
  | .preEmption team => Sys2Proof.Machine.execPreEmption team s
  | .teamRestore p => Sys2Proof.Machine.execTeamRestore p s
  | .copyRequestStart core => Sys2Proof.Machine.execCopyRequestStart core s
  | .copyReleaseAdd core req => Sys2Proof.Machine.execCopyReleaseAdd core req s
  | .copyCompletion core req => Sys2Proof.Machine.execCopyCompletion core req s
  | .scheduleEntryIssue team => Sys2Proof.Machine.execScheduleEntryIssue team s
  | .replayRelease core entry => Sys2Proof.Machine.execReplayRelease core entry s
  | .replayTerminate core entry => Sys2Proof.Machine.execReplayTerminate core entry s
  | .cpaReadPhase core req => Sys2Proof.Machine.execCpaReadPhase core req s
  | .engineOpStart core => Sys2Proof.Machine.execEngineOpStart core s
  | .engineOpComplete core => Sys2Proof.Machine.execEngineOpComplete core s
  | .wcAgeingDrain core => Sys2Proof.Machine.execWcAgeingDrain core s
  | .syscAnswer fib thread => Sys2Proof.Machine.execSyscAnswer fib thread s
  | .heldEventWrite col => Sys2Proof.Machine.execHeldEventWrite col s
  | .waitWakeup k => Sys2Proof.Machine.execWaitWakeup k s
  | .pollRetry k => Sys2Proof.Machine.execPollRetry k s
  | .promiseMissed fib => Sys2Proof.Machine.execPromiseMissed fib s
  | .sleepWake fib split => Sys2Proof.Machine.execSleepWake fib split s
  | .userEventDelivery hart => Sys2Proof.Machine.execUserEventDelivery hart s
  | .userEventInterrupt hart => Sys2Proof.Machine.execUserEventInterrupt hart s
  | .uevasidWrite hart value => Sys2Proof.Machine.execUevasidWrite hart value s
  | .lodgePoisonConsumption hart pa => Sys2Proof.Machine.execLodgePoisonConsumption hart pa s
  | .translationWalk core asid root va => Sys2Proof.Machine.execTranslationWalk core asid root va s
  | .sfenceVma asid va => Sys2Proof.Machine.execSfenceVma asid va s
  | .insoleBankSleep col bank => Sys2Proof.Machine.execInsoleBankSleep col bank s
  | .coreGate core => Sys2Proof.Machine.execCoreGate core s
  | .scrubVisit col level place found => Sys2Proof.Machine.execScrubVisit col level place found s
  | .shankTestRow col shank failing => Sys2Proof.Machine.execShankTestRow col shank failing s
  | .shankTestResume col => Sys2Proof.Machine.execShankTestResume col s
  | .sparePathFailure col => Sys2Proof.Machine.execSparePathFailure col s
  | .boostBoundary drawMilliwatt => Sys2Proof.Machine.execBoostBoundary drawMilliwatt s
  | .permitRefill meanDrawMilliwatt => Sys2Proof.Machine.execPermitRefill meanDrawMilliwatt s
  | .governorSample col temp => Sys2Proof.Machine.execGovernorSample col temp s
  | .govctlWrite col value => Sys2Proof.Machine.execGovctlWrite col value s
  | .ttripWrite col value => Sys2Proof.Machine.execTtripWrite col value s
  | .supplyDroopSample col drop => Sys2Proof.Machine.execSupplyDroopSample col drop s
  | .ringSizeWrite col sysc value => Sys2Proof.Machine.execRingSizeWrite col sysc value s
  | .savePoolWrite col size value => Sys2Proof.Machine.execSavePoolWrite col size value s
  | .registerWrite reg value => Sys2Proof.Machine.execRegisterWrite reg value s
  | .ckcmdCapture sole => Sys2Proof.Machine.execCkcmdCapture sole s
  | .ckcmdRestore sole => Sys2Proof.Machine.execCkcmdRestore sole s
  | .captureT0 sole => Sys2Proof.Machine.execCaptureT0 sole s
  | .nvmeCommandCompletion sole ok data => Sys2Proof.Machine.execNvmeCommandCompletion sole ok data s
  | .nvmeTimeout sole => Sys2Proof.Machine.execNvmeTimeout sole s
  | .pcieInboundRequest port addr op => Sys2Proof.Machine.execPcieInboundRequest port addr op s
  | .peerRequest pkg addr op => Sys2Proof.Machine.execPeerRequest pkg addr op s
  | .remoteWakeup k => Sys2Proof.Machine.execRemoteWakeup k s
  | .ualinkPortDown port => Sys2Proof.Machine.execUalinkPortDown port s
  | .lostTimeout port => Sys2Proof.Machine.execLostTimeout port s
  | .lodgeHartMemoryAccess hart addr op => Sys2Proof.Machine.execLodgeHartMemoryAccess hart addr op s
  | .timebaseWaitSatisfied k => Sys2Proof.Machine.execTimebaseWaitSatisfied k s
  | .pendingBitClear core req => Sys2Proof.Machine.execPendingBitClear core req s
  | .pcieLinkDown port => Sys2Proof.Machine.execPcieLinkDown port s
  | .pcieLinkUp port => Sys2Proof.Machine.execPcieLinkUp port s
  | .addressSpaceTeardown asid => Sys2Proof.Machine.execAddressSpaceTeardown asid s
  | .helloReceived h => Sys2Proof.Machine.execHelloReceived h s
  | .entriesReceived leader entries => Sys2Proof.Machine.execEntriesReceived leader entries s
  | .entryAckReceived pkg => Sys2Proof.Machine.execEntryAckReceived pkg s
  | .commitReceived gen => Sys2Proof.Machine.execCommitReceived gen s
  | .abdicationReceived leader => Sys2Proof.Machine.execAbdicationReceived leader s
  | .mergeRequestReceived pkg members => Sys2Proof.Machine.execMergeRequestReceived pkg members s
  | .packageReset facts => Sys2Proof.Machine.execPackageReset facts s
  | .linkReattest port => Sys2Proof.Machine.execLinkReattest port s
  | .flitTagFailure port replayed => Sys2Proof.Machine.execFlitTagFailure port replayed s
  | .portRestored port => Sys2Proof.Machine.execPortRestored port s
  | .reserveCopyComplete sole page => Sys2Proof.Machine.execReserveCopyComplete sole page s
  | .regionDisplacement region => Sys2Proof.Machine.execRegionDisplacement region s
  | .regionLoss region => Sys2Proof.Machine.execRegionLoss region s
  | .displacementSwitch region => Sys2Proof.Machine.execDisplacementSwitch region s
  | .uevret => Sys2Proof.Machine.execUevret s
  | .electionStart => Sys2Proof.Machine.execElectionStart s
  | .heartbeatTimeout => Sys2Proof.Machine.execHeartbeatTimeout s
  | .commitTimeout => Sys2Proof.Machine.execCommitTimeout s
  | .helloPeriodEnd => Sys2Proof.Machine.execHelloPeriodEnd s
  | .startWatchdogExpiry => Sys2Proof.Machine.execStartWatchdogExpiry s
  | .bootdone => Sys2Proof.Machine.execBootdone s
  | .leaderHeartbeat => Sys2Proof.Machine.execLeaderHeartbeat s

end Sys2Proof.Machine
end

