-- ==== Sys2Proof/Machine/Schedule.lean ====
section
/-!
DEFINITION. Whose step comes next: how a lane chooses and fetches (R18 to R31, R56), how time passes, what the
remaining turns do, and the order in which the machine goes on by itself. A turn whose occasion has not come changes
nothing.
-/
namespace Sys2Proof.Machine

/-- What a turn comes to: an instruction or device step that runs, a state, or a refusal. -/
inductive Next where
  | run (i : Instr) (s : State)
  | done (s : State)
  | refuse (r : Refusal)

/-! ## The choice of a lane (R21, R24, R25) -/

def Group.holderFibre (g : Group) : Option Fibre := g.holder.bind g.fibre?

/-- The slot can issue: its holder has a split that can. -/
def Group.canIssue (g : Group) : Bool :=
  match g.holderFibre with
  | some f => f.ready
  | none => false

/-- Groups in the slots of a lane; a team that rolls back does not issue. -/
def State.groupsOn (s : State) (core lane : Nat) : List (TeamRef × Group) :=
  s.teams.flatMap fun t =>
    if t.rolling then []
    else (t.groups.filter fun g => g.core == core && g.lane == lane && !g.retired).map fun g => (t.ref, g)

/-- FPRI of a slot's holder. -/
def Group.priority (g : Group) : Nat := ((g.holderFibre).map fun f => f.fpri.toNat).getD 0

/-- The first group of greatest key. -/
def bestOf (key : Group → Nat) (l : List (TeamRef × Group)) : Option (TeamRef × Group) :=
  l.find? fun x => l.all fun y => key y.2 ≤ key x.2

/-- Groups in an order of slots. -/
def bySlots (order : List Nat) (l : List (TeamRef × Group)) : List (TeamRef × Group) :=
  order.filterMap fun k => l.find? fun x => x.2.slot == k

/-- The starvation count of a slot raises it above all priorities (R25). -/
def Group.starved (g : Group) : Bool := g.raised || decide (2 ^ 16 ≤ g.starve)

/-- The slot that issues: raised ones first, by starvation count; else by priority, rotating. -/
def pickSlot (last : Option Nat) (l : List (TeamRef × Group)) : Option (TeamRef × Group) :=
  let ready := l.filter fun x => x.2.canIssue
  let raised := ready.filter fun x => x.2.starved
  let start := match last with
    | some k => (k + 1) % 4
    | none => 0
  if raised.isEmpty then bestOf Group.priority (bySlots ((List.range 4).map fun i => (start + i) % 4) ready)
  else bestOf (·.starve) (bySlots (List.range 4) raised)

/-! ## Fetch (R26, R56, R71) -/

/-- The instruction of fetched bits. DEDUCED, unsafe (log 23). -/
def instrAt (bits : BitVec 160) : Instr :=
  match decodeBits bits with
  | .ok i _ => i
  | _ => .illegalInstruction bits

/-- A translation fault of a fetch: the lane is held as for an instruction, and the fibre freezes (R26, R359). Of an
instruction that could not be read the spec gives no H: the model takes the active threads, STL 0 and U 0. DESIGN CHOICE,
unsafe (log 88). -/
def State.fetchFault (s : State) (r : FibreRef) (g : Group) (x : Split) (cause reason : Nat) : State :=
  let s := (s.holdLane g (max (countMask x.mask) 8)).modGroup r.team r.gid fun g => { g with starve := 0, raised := false }
  s.freeze r { cause, reason, op := 0, fetch := true, mask := x.mask, addrs := (threads x.mask).map fun t => (t, x.pc), pc := x.pc
               first := x.pc }

/-- The launch of a fibre checks signatures. -/
def State.signed (s : State) (r : FibreRef) : Bool := ((s.kernel? r.team.seq).map (·.signatures)).getD false

/-- The running split of a fibre fetches; one that stands at its reconvergence address arrives there (R293), and one whose
wait has ended makes its SPLIT (R297, R330). -/
def State.issueSplit (s : State) (r : FibreRef) (g : Group) (f : Fibre) (x : Split) : Next :=
  if x.rpc != noRpc && x.pc == x.rpc then .done (s.endSplits r (s.signed r) x.pc (.ok f))
  else
    match x.park with
    | .finished yes op w => .done (s.finishWait r x yes op w)
    | _ =>
    match s.fetch (s.spaceOf g.core r.team.seq) x.pc.toNat with
    | .fault cause reason => .done (s.fetchFault r g x cause reason)
    | .ok (bits, s) => .run (instrAt bits) { s with cur := some r }

/-- A fibre issues, a parent that is due before a split is chosen (R362). -/
def State.issueFibre (s : State) (r : FibreRef) : Next :=
  let s := (s.settleArrivals r.team r.gid).settleFlags r
  match s.fibre? r, s.group? r with
  | some f, some g =>
    let f := f.choose
    match f.run? with
    | some x => ((s.setFibre r f).modCore g.core fun k => { k with idleFrom := s.tick }).issueSplit r g f x
    | none => .done (if f.splits.any (·.due) then s.endSplits r (s.signed r) 0 (.ok f) else s)
  | _, _ => .done s

/-- The groups of a lane whose holders may issue in this core cycle: not in the one in which the slot passed (R21). -/
def State.groupsNow (s : State) (core lane : Nat) : List (TeamRef × Group) :=
  (s.groupsOn core lane).filter fun x => x.2.since ≤ s.coreCycle core

/-- The watchdog of a slot fires at this boundary (R31). -/
def State.watchdogDue (s : State) (g : Group) : Bool := g.siblingReady && decide (2 ^ (s.wdtNow g.core).toNat ≤ g.watch)

/-- A lane issues at an instruction boundary; a watchdog trap comes before any instruction (R26, R31). -/
def State.issueLane (s : State) (core lane : Nat) : Next :=
  let k := s.core core
  if k.gated || s.coreCycle core < (k.lane lane).busy then .done s
  else
    match (s.groupsOn core lane).find? fun x => s.watchdogDue x.2 with
    | some (_, g) => .run (.watchdog core lane g.slot) s
    | none =>
    match pickSlot (k.lane lane).last (s.groupsNow core lane) with
    | none => .done s
    | some (t, g) =>
      match g.holder with
      | some h => s.issueFibre { team := t, gid := g.gid, fid := h }
      | none => .done s

/-! ## Time (R9, R25, R31) -/

/-- The next instruction of a slot's holder waits for an outstanding result, so that the slot is not ready (R24, R29). -/
def State.stallsNext (s : State) (t : TeamRef) (g : Group) : Bool :=
  match g.holderFibre with
  | none => false
  | some f =>
    if f.outstanding.isEmpty then false
    else
      match ((f.choose.run?).filter fun x => x.park == .none).map fun x => s.fetch (s.spaceOf g.core t.seq) x.pc.toNat with
      | some (.ok (bits, _)) =>
        match (opFields (instrAt bits)).bind fun (op, w) => s.context ⟨t, g.gid, f.fid⟩ op w 0 with
        | some c => !(outstandingFor c.f (c.fieldReads (opInfo c.op c.w (some c.k.width)) ++ c.flowReads)).isEmpty
        | none => false
      | _ => false

/-- The counts of a slot after c core cycles, in `idle` of which it was ready and did not issue. DEDUCED, unsafe (log
49). -/
def Group.aged (g : Group) (c idle : Nat) : Group :=
  if g.retired then g
  else
    { g with
      starve := g.starve + idle
      watch := if g.holder.isSome && g.siblingReady then g.watch + c else g.watch }

/-- Core cycles from one to another in which a slot is ready and does not issue: not those for which an instruction of
its own holds the lane (R25, R26). -/
def State.idleCycles (s : State) (t : Team) (g : Group) (a b : Nat) : Nat :=
  let l := (s.core g.core).lane g.lane
  if t.rolling || !g.canIssue || s.stallsNext t.ref g then 0
  else b - (if l.last = some g.slot then max a l.busy else a)

/-- n units of time pass in which nothing falls due; CARMs that wait for room in a list look again. -/
def State.pass (s : State) (n : Nat) : State :=
  let t : State := { s with now := s.now + n }
  let teams := s.teams.map fun (x : Team) =>
    { x with groups := x.groups.map fun (g : Group) =>
        let a := s.coreCycle g.core
        let b := t.coreCycle g.core
        g.aged (b - a) (s.idleCycles x g a b) }
  let cores := s.cores.map fun (x : Nat × Core) =>
    if s.coreIdle x.1 then x else (x.1, { x.2 with idleFrom := t.tick })
  ({ t with teams, cores } : State).retry fun h => h == .homeList

/-- A lower bound of the time to the instant at which the first operation of a core's matrix engine ends, or is to
start, none where neither can come: the pulses that a throttled clock swallows come on top (R232, R409). -/
def State.engineDue (s : State) (core : Nat) : Option Nat :=
  let c := colOf core
  (s.core core).engine.head?.map fun e =>
    s.toPulse c + (if e.started then e.endCycle - s.coreCycle core - 1 else 0) * pointPeriod (s.point c)

/-- The next instant, before a goal, at which something falls due: a boost boundary, the end of a refill window, T0 of a
capture, a tick that ordered throttle steps wait for, a microsecond, the deadline of a CWAITD, the end of a scrub sweep, or
the end or start of an engine operation (R232, R347, R412 to R414, R420, R424). -/
def State.nextDue (s : State) (goal : Nat) : Nat :=
  let ticks := [5000 * s.boundaries, 50000 * (s.windows + 1)] ++ s.ckpt.filterMap (fun x => x.2.t0) ++
    (if s.columns.any fun x => !x.2.steps.isEmpty then [s.tick + 1] else []) ++
    (if s.columns.isEmpty then [] else [(s.tick / 1000 + 1) * 1000]) ++
    s.allFibres.filterMap fun x => match x.2.hold with
      | .wait u => if u.kind == 2 then some u.deadline.toNat else none
      | _ => none
  let sweeps := s.columns.flatMap fun x => s.sweepEnds x.1
  let engines := s.cores.filterMap fun x => (s.engineDue x.1).map (s.now + ·)
  (((ticks ++ sweeps).map (· * unitsPerTick) ++ engines).filter fun x => decide (s.now < x)).foldl min goal

/-- What falls due at an instant that time has reached: engine operations end and the next ones start, captures protect their
pages, throttle steps take effect, sweeps of the scrubber end, and a governor that has had no reading in a microsecond takes
its sample (R232, R414, R420, R424). -/
def State.arrive (s : State) : State :=
  let s := s.cores.foldl (fun s x => (s.completeOp x.1).engineStart x.1) s
  let s := s.ckpt.foldl (fun s x => s.captureT0 x.1) s
  if s.now % unitsPerTick != 0 then s
  else
    let s := s.columns.foldl (fun s x => (s.takeSteps x.1).endSweeps x.1) s
    if s.tick % 1000 = 0 then s.columns.foldl (fun s x => s.missedSample x.1) s else s

/-- Time passes to an instant, stopping at each instant at which something falls due. -/
def State.advanceTo : Nat → State → Nat → State
  | 0, s, _ => s
  | n + 1, s, goal =>
    if goal ≤ s.now then s
    else
      let s := s.leaveTick
      let next := s.nextDue goal
      let s := if s.tick < next / unitsPerTick then s.missPromises else s
      State.advanceTo n ((s.pass (next - s.now)).arrive) goal

/-- A write found no room for the image of a protected page in the reserve of a capture. -/
def State.overrun (s : State) : Bool := s.ckpt.any fun x => x.2.overrun

/-- n units of time pass; an image that a write of the device itself would have needed room for stays with its engine.
DEDUCED, unsafe (log 56). -/
def State.advance (s : State) (n : Nat) : State :=
  let s := State.advanceTo n s (s.now + n)
  { s with ckpt := s.ckpt.map fun x => (x.1, { x.2 with overrun := false }) }

/-- Units of time to the next clock pulse of a column with a resident team, else to the next tick. -/
def State.nextPulse (s : State) : Nat :=
  match (s.teams.map fun t => s.toPulse (colOf t.core)).min? with
  | some n => n
  | none => unitsPerTick

/-! ## Other turns -/

/-- A parity or residue error is found: the instruction issues again, a corrected error of the pipeline; the third time
running is an uncorrected one, cause 24 (R352, R374, R421). -/
def State.parityError (s : State) (r : FibreRef) : State :=
  match s.fibre? r, s.group? r with
  | some f, some g =>
    let (syndrome, s) := s.takeFree
    let col := colOf g.core
    let note : ErrorNote := { level := 5, place := g.core, seq := r.team.seq, team := r.team.idx, syndrome }
    if 3 ≤ f.replays + 1 then
      (((s.modFibre r fun f => { f with replays := 0 }).addUncorrected col 1).logError col { note with uncorrected := true }).teamError
        r.team 24 (some r) (((f.choose.run?).map (·.pc)).getD 0)
    else ((s.modFibre r fun f => { f with replays := f.replays + 1 }).addCorrected col 1).logError col note
  | _, _ => s

/-- Level of a unit in an error-log record (R421). -/
def unitLevel : UnitRef → Nat
  | .line _ => 1
  | _ => 0

/-- Where a unit of a team lies: its core. -/
def UnitRef.coreOf (t : Team) : UnitRef → Nat
  | .copyEntry c _ | .replayEntry c _ | .engineEntry c _ | .wcLine c _ => c
  | .vec g _ _ | .uni g _ _ | .pred g _ _ | .split g _ _ => ((t.group? g).map (·.core)).getD t.core
  | _ => t.core

/-- An uncorrectable error marks a unit of a resident team (R375, R419). -/
def State.unitError (s : State) (r : TeamRef) (u : UnitRef) : State :=
  match s.team? r with
  | none => s
  | some t =>
    let (syndrome, s) := s.takeFree
    let core := u.coreOf t
    ((s.markUnit r u).addUncorrected (colOf core) 1).logError (colOf core)
      { level := unitLevel u, uncorrected := true, place := core, seq := r.seq, team := r.idx, syndrome }

/-- The slice that homes a location holds its line (R166). -/
def State.inSlice (s : State) (loc : Nat) : Bool :=
  (s.col (homeColumn loc)).slice.any fun f => f.frame == loc / 4096 && f.valid.getLsbD (loc / 128 % 32)

/-- An uncorrectable error that an access finds: in the line of a slice that holds the location, else in its sector of
HBM, or in its line of the insole store (R179, R419). DEDUCED, unsafe (log 52). -/
def State.sectorError (s : State) (loc : Nat) : State :=
  let (syndrome, t) := s.takeFree
  if isHbm loc && s.inSlice loc then
    (t.poisonAt (homeColumn loc) (loc / 128 * 128) 128).logError (homeColumn loc)
      { level := 2, uncorrected := true, poisoned := true, place := loc / 128 * 128, syndrome }
  else if isHbm loc then
    (t.poisonAt (homeColumn loc) (loc / 32 * 32) 32).logError (homeColumn loc)
      { level := 4, uncorrected := true, poisoned := true, place := loc, syndrome }
  else
    match s.insoleOff loc with
    | some o =>
      let col := o / regionBytes / 96
      (t.poisonAt col (loc / 128 * 128) 128).logError col { level := 3, uncorrected := true, poisoned := true, place := o, syndrome }
    | none => s

/-- An uncorrectable error of a slice's tag poisons every sector of the frame (R419). -/
def State.frameError (s : State) (frame : Nat) : State :=
  let (syndrome, t) := s.takeFree
  let loc := 4096 * frame
  if isHbm loc then
    (t.poisonAt (homeColumn loc) loc 4096).logError (homeColumn loc)
      { level := 2, uncorrected := true, poisoned := true, place := loc, syndrome }
  else s

/-- An access reads a place of a level whose error the code corrects (R419). -/
def State.demandCorrected (s : State) (col : Nat) (level : ScrubLevel) (place : Nat) : State :=
  if scrubs col level place then
    let (unit, s) := if (scrubUnit level place).isSome then (none, s) else s.someOf (s.coreUnits place level)
    s.correctAt col level place unit false
  else s

/-- An entry leaves its cache; it is fetched again when next wanted. -/
def State.dropEntry (s : State) : CacheUnit → State
  | .l1 core addr => s.l1Drop core addr
  | .icache core addr => s.modCore core fun k => { k with icache := k.icache.filter fun l => l.addr != addr }
  | .tlb core asid page => s.modCore core fun k => { k with tlb := k.tlb.filter fun e => !(e.asid == asid && e.page == page) }
  | .l2Tlb col asid page => s.modCol col fun c => { c with tlb := c.tlb.filter fun e => !(e.asid == asid && e.page == page) }
  | .record core seq num => s.modCore core fun k => { k with records := k.records.filter fun e => !(e.seq == seq && e.num == num) }

/-- Where an entry of a cache lies: its column, and its core or, for an L2 TLB, the column's first core. -/
def CacheUnit.place : CacheUnit → Nat × Nat
  | .l1 core _ | .icache core _ | .tlb core _ _ | .record core _ _ => (colOf core, core)
  | .l2Tlb col _ _ => (col, 4 * col)

/-- The parity of a cache entry fails: it is invalidated, a corrected error of the arrays (R419). DEDUCED, unsafe (log
52). -/
def State.cacheParity (s : State) (u : CacheUnit) : State :=
  let (syndrome, s) := s.takeFree
  ((s.dropEntry u).addCorrected u.place.1 1).logError u.place.1 { level := 0, place := u.place.2, syndrome, unit := some (.cache u) }

/-- Work has read a marked line of a write-combining buffer once it has left it: cause 24 of the team (R375, R419). -/
def State.consumeLines (s : State) (core : Nat) : State :=
  let gone (u : UnitRef) : Bool := match u with
    | .wcLine c loc => c == core && !((s.core core).wcb.any fun l => l.loc == loc)
    | _ => false
  (s.teams.filter fun t => t.marked.any gone).foldl (fun s t =>
    (s.modTeam t.ref fun t => { t with marked := t.marked.filter fun u => !gone u }).teamError t.ref 24 none 0) s

/-- The word that a lodge hart fetches from a physical address, none where nothing is backed (R164, R394). -/
def State.lodgeFetch (s : State) (a : Nat) : Option Nat :=
  if a + 4 ≤ deviceBase then some (numAt s.mem a 4)
  else if deviceBase ≤ a ∧ a + 4 ≤ 2 ^ 46 then
    if s.deviceBacked (a - deviceBase) 4 then some (natLE (s.deviceBytes (a - deviceBase) 4)) else none
  else none

/-- A lodge hart executes the word at its pc: UEVRET, or a word of the base instruction set; a fetch that nothing backs is
an access fault (R394, R397, R398). DEDUCED, safe (log 11); PRESUMED, unsafe (log 44). -/
def State.lodgeStep (s : State) (hart : Nat) : Next :=
  let pc := (s.hartAt hart).pc
  if !s.hartRuns hart then .done s
  else if !(s.poisoned pc.toNat 4).isEmpty then .done (s.hartTrap hart 19 pc)
  else
    match s.lodgeFetch pc.toNat with
    | none => .done (s.hartTrap hart 1 pc)
    | some w => if w = uevretWord.toNat then .run .uevret { s with hart } else .refuse .lodgeBaseIsa

/-- A lodge hart claims a pending identity through its claim CSR, which then pends no more (R396). -/
def State.claimIdentity (s : State) (hart id : Nat) : State :=
  if s.hartRuns hart then s.modHart hart fun h => { h with imsic := h.imsic.filter (· != id) } else s

/-- A turn; no fibre issues but in a lane's. DEDUCED, safe (log 10). -/
def State.turn (s : State) (t : Turn) : Next :=
  let s : State := { s with cur := none }
  match t with
  | .issue core lane => s.issueLane core lane
  | .event i => .run i s
  | .advance n => .done (s.advance n)
  | .lodge hart => s.lodgeStep hart
  | .claim hart id => .done (s.claimIdentity hart id)
  | .evict u => .done (s.dropEntry u)
  | .evictSlice col frame => .done (s.evictFrame col frame)
  | .land core => .done (((s.land core).retrySysc (colOf core)).consumeLines core)
  | .markUnit r u => .done (s.unitError r u)
  | .poisonSector loc => .done (s.sectorError loc)
  | .poisonFrame frame => .done (s.frameError frame)
  | .correct col level place => .done (s.demandCorrected col level place)
  | .cacheParity u => .done (s.cacheParity u)
  | .parity r => .done (s.parityError r)

/-- The outcome of a turn. -/
def Next.outcome : Next → Host.Outcome State Fault Refusal
  | .run i s => exec i s
  | .done s => .next s
  | .refuse r => .refused r

/-- A step whose write finds the reserve of a capture full waits: it has no effect yet (R424). DEDUCED, unsafe (log 56). -/
def State.unlessFull (s : State) : Host.Outcome State Fault Refusal → Host.Outcome State Fault Refusal
  | .next u => .next (if u.overrun then s else u)
  | o => o

/-- A turn is taken. -/
def State.take (s : State) (t : Turn) : Host.Outcome State Fault Refusal := s.unlessFull (s.turn t).outcome

/-! ## The machine's own order (log 2) -/

/-- Lanes that can issue now. -/
def State.laneTurns (s : State) : List Turn :=
  (s.teams.flatMap fun t => t.groups.filterMap fun g =>
    if g.canIssue && !g.retired && !t.rolling && !(s.core g.core).gated && g.since ≤ s.coreCycle g.core &&
      ((s.core g.core).lane g.lane).busy ≤ s.coreCycle g.core then some (Turn.issue g.core g.lane) else none).eraseDups

/-- Steps of fibres: results, sleep, deadlines, answers. -/
def State.fibreTurns (s : State) : List Turn :=
  s.allFibres.flatMap fun (r, f) =>
    ((List.range f.outstanding.length).map fun k => Turn.event (.variableLatencyResult r k)) ++
    (f.splits.filter (·.slp)).map (fun x => Turn.event (.sleepWake r (if f.hnd then 128 + x.idx else x.idx))) ++
    ((f.frozen.map (·.splits)).getD [] |>.filter (·.slp)).map (fun x => Turn.event (.sleepWake r x.idx)) ++
    [Turn.event (.promiseMissed r)] ++
    (match f.sysc with
      | some q => q.entries.map fun e => Turn.event (.syscAnswer r e.1)
      | none => [])

/-- Steps of the engines of a core. -/
def State.coreTurns (s : State) : List Turn :=
  s.cores.flatMap fun (i, k) =>
    [Turn.event (.engineOpComplete i), .event (.engineOpStart i), .event (.copyRequestStart i)] ++
    (k.reqs.flatMap fun q =>
      [Turn.event (.cpaReadPhase i q.idx), .event (.copyReleaseAdd i q.idx), .event (.pendingBitClear i q.idx),
       .event (.copyCompletion i q.idx)]) ++
    [.land i, .event (.wcAgeingDrain i)]

/-- Steps of waits. -/
def State.waitTurns (s : State) : List Turn :=
  s.waiters.zipIdx.flatMap fun (w, k) =>
    [Turn.event (.waitWakeup k), .event (.pollRetry k), .event (.timebaseWaitSatisfied k)] ++
    (if w.satisfied then [.event (.remoteWakeup k)] else [])

/-- Steps of slots: starvation and the watchdog. -/
def State.slotTurns (s : State) : List Turn :=
  s.teams.flatMap fun t => t.groups.flatMap fun g =>
    [Turn.event (.starvationRaise g.core g.lane g.slot), .event (.watchdog g.core g.lane g.slot)]

/-- Steps of the dispatcher: the served launch's next team, and schedule entries. -/
def State.dispatchTurns (s : State) : List Turn :=
  (match s.served with
    | some l =>
      match s.findPlace s.teams l with
      | some (core, seats) =>
        match s.nextTeam l with
        | .place i => [Turn.event (.teamPlacement { team := { seq := l.seq, idx := i }, core, seats })]
        | .restore i => [.event (.teamRestore { team := { seq := l.seq, idx := i }, core, seats })]
        | .nothing => []
      | none => []
    | none => []) ++
  s.teams.map fun t => .event (.scheduleEntryIssue t.ref)

/-- Pre-emptions, which come before handler entries of the same core cycle (R368). -/
def State.preEmptionTurns (s : State) : List Turn := s.teams.map fun t => .event (.preEmption t.ref)

/-- Steps of columns, harts, the checkpoint engines and the pavilion that come by themselves. -/
def State.unitTurns (s : State) : List Turn :=
  (s.columns.flatMap fun (c, _) => [Turn.event (.heldEventWrite c), .event (.shankTestResume c)] ++
    ((List.range 96).filter (s.bankIdle c)).map fun b => .event (.insoleBankSleep c b)) ++
  (s.harts.flatMap fun (h, _) => [Turn.event (.userEventDelivery h), .event (.userEventInterrupt h)]) ++
  (s.ckpt.flatMap fun (i, _) => [Turn.event (.captureT0 i), .event (.nvmeTimeout i)]) ++
  (s.ports.map fun (q, _) => .event (.lostTimeout q)) ++
  (s.cores.map fun (i, _) => .event (.coreGate i)) ++ [.event .startWatchdogExpiry]

/-- The turns in which work of a core cycle happens. -/
def State.workTurns (s : State) : List Turn := s.slotTurns ++ s.laneTurns ++ s.fibreTurns ++ s.coreTurns ++ s.waitTurns

/-- The turns that the machine tries, in order. DESIGN CHOICE, unsafe (log 2). -/
def State.turns (s : State) : List Turn := s.preEmptionTurns ++ s.workTurns ++ s.dispatchTurns ++ s.unitTurns

/-- A turn leads to another state, the model's own fields apart. -/
def State.moved (s : State) (t : Turn) : Option State :=
  match s.take t with
  | .next u => if { u with cur := s.cur, freeCtr := s.freeCtr } = s then none else some u
  | _ => none

/-- A step has ended a launch with resident teams, or rolled a team back. -/
def State.breaks (s u : State) : Bool :=
  let rolls (t : Team) : Bool × Nat := (t.rolling, ((t.interval.map (·.rollbacks)).getD 0))
  s.teams.any fun t => match u.team? t.ref with
    | some x => decide (rolls x ≠ rolls t)
    | none => (u.launch? t.ref.seq).isNone

/-- A step that a pre-emption would come before gives way to terminations and rollbacks of the same core cycle (R368). -/
def State.firstMove (s : State) : Option State :=
  match s.preEmptionTurns.findSome? s.moved with
  | some u => some ((s.workTurns.findSome? fun t => (s.moved t).filter s.breaks).getD u)
  | none => s.turns.findSome? s.moved

/-- With nothing on the agenda: the first turn that does something, else time passes to the next pulse. DESIGN
CHOICE, unsafe (log 2). -/
def State.auto (s : State) : State :=
  match s.firstMove with
  | some u => u
  | none => ({ s with cur := none } : State).advance s.nextPulse

end Sys2Proof.Machine
end

