-- ==== Sys2Proof/Machine/Step.lean ====
section
/-!
DEFINITION. The step of the package: the head of the agenda, or without one the machine's own order; and the placing of
an instruction where the next step fetches.
-/
namespace Sys2Proof.Machine

/-- A package reset, the one step that a package held in reset takes. -/
def Turn.resets : Turn → Bool
  | .event (.packageReset _) => true
  | _ => false

/-- One step. DESIGN CHOICE, unsafe (log 2); DEDUCED, safe (log 11). -/
def step (s : State) : Host.Outcome State Fault Refusal :=
  match s.agenda with
  | t :: rest =>
    if s.pav.held && !t.resets then .fault .packageHeld else ({ s with agenda := rest } : State).take t
  | [] => if s.pav.held then .fault .packageHeld else .next s.auto

/-! ## Placing an instruction (log 5) -/

/-- Where it is placed: virtual and physical address. -/
def fetchAddr : Nat := 0x200000
/-- The page of the root of its page table, whose one leaf maps virtual addresses to equal physical ones. -/
def fetchRoot : Nat := 0x1FF

/-- A launch of one team, one group of 16 threads and one fibre, with every window and memory at its greatest. DESIGN
CHOICE, unsafe (log 5). -/
def fetchKernel : Kernel :=
  { width := 16, groups := 1, fibres := [{ entry := BitVec.ofNat 64 fetchAddr, priv := 192, pri := 0 }], shared := 64
    coresident := false, pair := false, check := false, rollback := false, signatures := false, ntx := 1, nty := 1, ntz := 1
    scratchBytes := 4096, slots := 48, regions := 16, policy := 1, policyCol := 0, tvec := 0, recTable := 0, recCount := 0
    schedCount := 0, sched := 0, pttDir := 0, pttCount := 0, args := 0, pri := 0, evc := false, npe := false }

/-- Its launch, placed. DESIGN CHOICE, unsafe (log 5). -/
def fetchLaunch (seq : Nat) : Launch :=
  { seq, col := 0, kernel := fetchKernel, asid := 0, root := fetchRoot, privileged := true, gate := none, done := none, cadr := 0
    cinc := 0, placed := 1, lastCol := some 0 }

/-- The instruction of some bits lies at the address at which core 0 fetches next; UEVRET lies at hart 0's. DESIGN
CHOICE, unsafe (log 5). -/
def State.withFetchWord (s : State) (nbits w : Nat) : State :=
  let code := w % 2 ^ nbits
  let mem := putAll 0 s.mem fetchAddr (bytesLE code 20)
  if code = uevretWord.toNat then
    { s with mem, agenda := [.lodge 0], poison := [], pav := {}
             harts := modify {} s.harts 0 fun h => { h with pc := BitVec.ofNat 64 fetchAddr } }
  else
    let l := fetchLaunch s.nextSeq
    let k := s.core 0
    let s : State :=
      { s with
        mem := putAll 0 mem (fetchRoot * 4096) (bytesLE 0xDF 8), agenda := [.issue 0 0], pav := {}, nextSeq := s.nextSeq + 1
        cores := put {} s.cores 0 { k with
          lanes := put {} k.lanes 0 {}, gated := false, wcb := [], flight := [], icache := [], tlb := [], asid := some 0 }
        columns := modify {} s.columns 0 fun c => { c with queue := l :: c.queue, tlb := [] } }
    { s with teams := startTeam s l 0 0 [{ core := 0, lane := 0, slot := 0, base := 0 }] ::
        s.teams.filter fun t => !(t.groups.any fun g => g.core == 0) }

end Sys2Proof.Machine
end

