-- ==== Sys2Proof/Safety.lean ====
section
/-!
DEFINITION. The terms of the claims: when an instruction goes through undisturbed, how a claim says that it completes,
the values that the arithmetic chapters give, and what a good state is.
-/
namespace Sys2Proof.Machine

/-! ## Issue without disturbance -/

/-- The registers whose outstanding results an instruction and its sequencing wait for (R29). -/
def Ctx.reads (c : Ctx) : List Read := c.fieldReads (opInfo c.op c.w (some c.k.width)) ++ c.flowReads

/-- The reads that it makes, GSWZ's and RDTH's of other threads among them (R28, R154, R155). -/
def State.made (s : State) (c : Ctx) : List Read := c.madeReads s (opInfo c.op c.w (some c.k.width)) ++ c.flowReads

/-- The state as the current fibre begins to issue, its split chosen (R292). -/
def State.begun (s : State) (c : Ctx) : State := s.setFibre c.r c.f

/-- The context in which the fibre that holds the turn meets an instruction with words. -/
def State.contextOf (s : State) (i : Instr) : Option Ctx :=
  match s.cur, opFields i with
  | some r, some (op, w) => s.context r op w (firstWord (BitVec.ofNat 8 op) w)
  | _, _ => none

/-- No outstanding result is waited for (R29). -/
def Ctx.settled (c : Ctx) : Bool := (outstandingFor c.f c.reads).isEmpty

/-- No operand is read before its issue distance, as far as CHK looks (R28). -/
def State.onTime (s : State) (c : Ctx) : Bool := !checking s c.k c.core || (earlyRead c.f (s.made c)).isNone

/-- The word is legal for the fibre that meets it (R71, R72). -/
def State.legal (s : State) (c : Ctx) : Bool := (encodingReason c.op c.w (some (c.env s))).isNone

/-- The context of an instruction that nothing keeps from its effect: no result is outstanding, no operand is early,
the word is legal, and no operand is marked by an uncorrectable error (R375). -/
def State.clear (s : State) (i : Instr) : Option Ctx :=
  (s.contextOf i).filter fun c =>
    c.settled && (s.begun c).onTime c && (s.begun c).legal c && !readsMarked (s.begun c) c ((s.begun c).made c)

/-- Wherever an instruction is not kept from its effect, it answers a next state: that of an issue with the results
and changes that d gives. -/
def Completes (i : Instr) (d : Ctx → State → Done) : Prop :=
  ∀ s c, s.clear i = some c → exec i s = .next ((s.begun c).finishIssue c (d c (s.begun c)))

/-- The same where a condition on context and state holds. -/
def CompletesIf (i : Instr) (p : Ctx → State → Prop) (d : Ctx → State → Done) : Prop :=
  ∀ s c, s.clear i = some c → p c (s.begun c) → exec i s = .next ((s.begun c).finishIssue c (d c (s.begun c)))

/-- Wherever an instruction is not kept from its effect, it stops for a reason, with none. -/
def StopsIf (i : Instr) (p : Ctx → State → Prop) (x : Ctx → State → Stop) : Prop :=
  ∀ s c, s.clear i = some c → p c (s.begun c) → exec i s = .next ((s.begun c).stopIssue c (x c (s.begun c)))

/-- Wherever an instruction is not kept from its effect, it holds its fibre. -/
def HoldsIf (i : Instr) (p : Ctx → State → Prop) (x : Ctx → State → State × Hold) : Prop :=
  ∀ s c, s.clear i = some c → p c (s.begun c) →
    exec i s = .next ((x c (s.begun c)).1.holdFibre c (x c (s.begun c)).2)

/-- Wherever an instruction is not kept from its effect, its split parks until outstanding results arrive. -/
def StallsIf (i : Instr) (p : Ctx → State → Prop) (x : Ctx → List Nat) : Prop :=
  ∀ s c, s.clear i = some c → p c (s.begun c) → exec i s = .next ((s.begun c).stall c (x c))

/-- Wherever an instruction is not kept from its effect, its split parks until the remote stores of some cores are
acknowledged. -/
def AwaitsIf (i : Instr) (p : Ctx → State → Prop) (x : Ctx → State → State × List Nat) : Prop :=
  ∀ s c, s.clear i = some c → p c (s.begun c) →
    exec i s = .next ((x c (s.begun c)).1.awaitAcks c (x c (s.begun c)).2)

/-- A step of the device answers a next state under a condition. -/
def Steps (i : Instr) (p : State → Prop) (f : State → State) : Prop := ∀ s, p s → exec i s = .next (f s)

/-! ## Values of the arithmetic chapters -/

/-- Width of a 32- or 64-bit form. -/
def wordBits (wide : Bool) : Nat := if wide then 64 else 32

/-- An n-bit operand as the integer that its type reads (R110). -/
def intOfBits (signed : Bool) (n : Nat) (v : DWord) : Int :=
  if signed then (v.setWidth n).toInt else ((v.setWidth n).toNat : Int)

/-- The clamp of `.sat` to an n-bit type (R115). -/
def clampTo (signed : Bool) (n : Nat) (v : Int) : Int :=
  if signed then max (-2 ^ (n - 1)) (min (2 ^ (n - 1) - 1) v) else max 0 (min (2 ^ n - 1) v)

/-- res() of an n-bit type: clamped under `.sat`, else the low n bits (R115). -/
def resBits (sat signed : Bool) (n : Nat) (v : Int) : DWord :=
  (BitVec.ofInt n (if sat then clampTo signed n v else v)).setWidth 64

/-- The operands of an integer instruction as its type reads them. -/
def typedA (c : Ctx) (s : State) (t : Nat) : Int :=
  intOfBits (Fields.signed c.w) (wordBits (Fields.wide c.w)) (srcA s c (Fields.wide c.w) t)
def typedB (c : Ctx) (s : State) (t : Nat) : Int :=
  intOfBits (Fields.signed c.w) (wordBits (Fields.wide c.w)) (srcB s c (Fields.wide c.w) t)
def typedC (c : Ctx) (s : State) (t : Nat) : Int :=
  intOfBits (Fields.signed c.w) (wordBits (Fields.wide c.w)) (srcC s c (Fields.wide c.w) t)

/-- Integers by thread, as results of the instruction's type in D. -/
def typedResults (c : Ctx) (sat : Bool) (f : Nat → Int) : List RegWrite :=
  c.results (Fields.wide c.w) (Fields.signed c.w) fun t =>
    resBits sat (Fields.signed c.w) (wordBits (Fields.wide c.w)) (f t)

/-- The fixed-latency result of an integer instruction of class 4 core cycles (R114). -/
def integerDone (f : Int → Int → Int → Int) (c : Ctx) (s : State) : Done :=
  { s, fixed := typedResults c (Fields.sat c.w) fun t => f (typedA c s t) (typedB c s t) (typedC c s t) }

/-- Operands of a bit instruction as words of its width. -/
def wordA (c : Ctx) (s : State) (t : Nat) : DWord := srcA s c (Fields.w64 c.w) t
def wordB (c : Ctx) (s : State) (t : Nat) : DWord := srcB s c (Fields.w64 c.w) t
def wordC (c : Ctx) (s : State) (t : Nat) : DWord := srcC s c (Fields.w64 c.w) t

/-- The fixed-latency result of a bit instruction. -/
def bitDone (f : (n : Nat) → BitVec n → Nat → BitVec n → BitVec n) (c : Ctx) (s : State) : Done :=
  { s, fixed := c.results (Fields.w64 c.w) false fun t =>
      (f (wordBits (Fields.w64 c.w)) ((wordA c s t).setWidth _) (srcB s c false t).toNat ((wordC c s t).setWidth _)).setWidth 64 }

/-- Two words and no count. -/
def bitDone2 (f : DWord → DWord → DWord) (c : Ctx) (s : State) : Done :=
  { s, fixed := c.results (Fields.w64 c.w) false fun t => f (wordA c s t) (wordB c s t) }

/-- A count of bits: a 32-bit result whatever the width (R125). -/
def countDone (f : (n : Nat) → BitVec n → Nat) (c : Ctx) (s : State) : Done :=
  { s, fixed := c.results false false fun t =>
      BitVec.ofNat 64 (f (wordBits (Fields.w64 c.w)) ((wordA c s t).setWidth _)) }

/-- The word whose bits below n a test gives. -/
def bitsBelow (n : Nat) (f : Nat → Bool) : DWord :=
  (List.range n).foldl (fun v i => if f i then v ||| (1#64 <<< i) else v) 0

/-- The number of n bytes, lowest first. -/
def bytesNat (n : Nat) (f : Nat → Nat) : Nat := ((List.range n).map fun j => f j * 256 ^ j).sum

/-- The carries out of a carry chain: predicate C of every participant, or 0 or 1 in the uniform register C (R119). -/
def carryWrites (c : Ctx) (f : Nat → Bool) : List RegWrite :=
  c.steps.map fun t =>
    if c.w.u then ⟨.uni c.w.c.toNat, if f t then 1 else 0⟩ else ⟨.pred (c.w.c.toNat % 128) t, if f t then 1 else 0⟩

/-- Ready-made words by thread as results of an integer type. -/
def typedResultsBits (c : Ctx) (f : Nat → DWord) : List RegWrite := c.results (Fields.wide c.w) (Fields.signed c.w) f

/-- Element e of a packed word. -/
def lane16 (signed : Bool) (v : DWord) (e : Nat) : Int := intOfBits signed 16 (v >>> (16 * e))

/-- A packed 16-bit operation: latency 8 core cycles (R114, R127). -/
def packedDone (f : Int → Int → Int) (c : Ctx) (s : State) : Done :=
  let sg := Fields.signed c.w
  let e (t i : Nat) : DWord :=
    resBits (Fields.sat c.w) sg 16 (f (lane16 sg (srcA s c false t) i) (lane16 sg (srcB s c false t) i))
  { s, lat := 8, fixed := c.results false false fun t => e t 0 + 65536 * e t 1 }

/-- A value and its flags by thread, as a fixed-latency floating-point result. -/
def floatFixed (wide : Bool) (lat : Nat) (f : Ctx → State → Nat → Nat × Flags) (c : Ctx) (s : State) : Done :=
  { s, lat, fixed := c.results wide false fun t => BitVec.ofNat 64 (f c s t).1
    flags := orFlags (c.steps.map fun t => (f c s t).2) }

/-- The same with variable latency. -/
def floatLater (wide : Bool) (f : Ctx → State → Nat → Nat × Flags) (c : Ctx) (s : State) : Done :=
  { s, later := some (c.results wide false fun t => BitVec.ofNat 64 (f c s t).1)
    flags := orFlags (c.steps.map fun t => (f c s t).2) }

/-- Functions of one, two and three operands of a width, with the rounding of the word. -/
def on1 (wide : Bool) (f : Rounding → Nat → Nat × Flags) (c : Ctx) (s : State) (t : Nat) : Nat × Flags :=
  f (Fields.rounding c.w) (srcA s c wide t).toNat
def on2 (wide : Bool) (f : Rounding → Nat → Nat → Nat × Flags) (c : Ctx) (s : State) (t : Nat) : Nat × Flags :=
  f (Fields.rounding c.w) (srcA s c wide t).toNat (srcB s c wide t).toNat
def on3 (wide : Bool) (f : Rounding → Nat → Nat → Nat → Nat × Flags) (c : Ctx) (s : State) (t : Nat) : Nat × Flags :=
  f (Fields.rounding c.w) (srcA s c wide t).toNat (srcB s c wide t).toNat (srcC s c wide t).toNat

/-- Element e of a packed floating-point word. -/
def elem16 (v : DWord) (e : Nat) : Nat := (v.extractLsb' (16 * e) 16).toNat

/-- A packed floating-point operation: both elements, and the flags of both (R141). -/
def packedFloat (f : Fmt → Rounding → (Nat → Nat) → (Nat → Nat) → (Nat → Nat) → Nat → Nat × Flags) (c : Ctx)
    (s : State) (t : Nat) : Nat × Flags :=
  let fmt := if c.w.m.getLsbD 4 then fp16 else bf16
  let r e := f fmt (Fields.rounding c.w) (elem16 (srcA s c false t)) (elem16 (srcB s c false t)) (elem16 (srcC s c false t)) e
  ((r 0).1 % 65536 + 65536 * ((r 1).1 % 65536), (r 0).2 ||| (r 1).2)

/-! ## Exact values of floating-point operands (R93, R134 to R140) -/

def FVal.isNaN : FVal → Bool
  | .nan _ => true
  | _ => false

def FVal.isInf : FVal → Bool
  | .inf _ => true
  | _ => false

/-- The sign of an infinity or of a finite value. -/
def FVal.neg : FVal → Bool
  | .inf n | .fin n _ _ => n
  | .nan _ => false

/-- A zero of one sign. -/
def FVal.isZero (neg : Bool) : FVal → Bool
  | .fin n 0 _ => n == neg
  | _ => false

/-- Exponent of a finite value. -/
def FVal.ex : FVal → Int
  | .fin _ _ e => e
  | _ => 0

/-- A finite value in units of 2^q, where q is at most its exponent. -/
def FVal.units (q : Int) : FVal → Int
  | .fin n m e => (if n then -(m : Int) else m) * 2 ^ (e - q).toNat
  | _ => 0

/-- The exact product of finite values. -/
def FVal.times : FVal → FVal → FVal
  | .fin n m e, .fin k d g => .fin (n != k) (m * d) (e + g)
  | v, _ => v

/-- The value of opposite sign. -/
def FVal.opposite : FVal → FVal
  | .nan s => .nan s
  | .inf n => .inf !n
  | .fin n m e => .fin (!n) m e

/-- The exact sum of finite values, rounded once; a zero sum is −0 where every addend is, or under RDN where not every
addend is +0 (R95, R96). -/
def roundSum (f : Fmt) (r : Rounding) (l : List FVal) : Nat × Flags :=
  let q := l.foldl (fun q v => min q v.ex) 0
  let v := (l.map (FVal.units q)).sum
  if v = 0 then (f.pack (l.all (FVal.isZero true) || (r.rm == 3 && !(l.all (FVal.isZero false)))) 0 0, 0)
  else roundTo f r (v < 0) v.natAbs q

/-- The order of two values; none where one is NaN. -/
def FVal.order : FVal → FVal → Option Ordering
  | .nan _, _ | _, .nan _ => none
  | .inf n, .inf k => some (compare (if n then 0 else 1) (if k then 0 else 1))
  | .inf n, .fin _ _ _ => some (if n then .lt else .gt)
  | .fin _ _ _, .inf k => some (if k then .gt else .lt)
  | x, y => some (compare (x.units (min x.ex y.ex)) (y.units (min x.ex y.ex)))

/-- Table 7.4: when a condition holds of an order. -/
def conditionHolds (cc : Nat) (o : Option Ordering) : Bool :=
  match cc with
  | 0 => o == some .eq
  | 1 => o != some .eq
  | 2 => o == some .lt
  | 3 => o == some .lt || o == some .eq
  | 4 => o == some .gt
  | 5 => o == some .gt || o == some .eq
  | 6 => o.isSome
  | 7 => o.isNone
  | 8 => o == some .eq || o.isNone
  | 9 => o == some .lt || o == some .gt
  | 10 => o == some .lt || o.isNone
  | 11 => o == some .lt || o == some .eq || o.isNone
  | 12 => o == some .gt || o.isNone
  | _ => o == some .gt || o == some .eq || o.isNone

/-- N × 2^e stands for an exact value in a single rounding: N / 2 is the value in units of 2^(e+1) where N is even, and
the value lies strictly between N / 2 and N / 2 + 1 of them where N is odd; `num` and `den` give the value in those
units. -/
def Stands (N num den : Nat) : Prop :=
  (N % 2 = 0 → N / 2 * den = num) ∧ (N % 2 = 1 → N / 2 * den < num ∧ num < (N / 2 + 1) * den)

/-- Truth values by thread in a predicate or uniform register, with flags. -/
def truthsFixed (lat : Nat) (f : Ctx → State → Nat → Bool × Flags) (c : Ctx) (s : State) : Done :=
  { s, lat, fixed := c.truths fun t => (f c s t).1, flags := orFlags (c.steps.map fun t => (f c s t).2) }

/-! ## What an issue leaves -/

/-- The state in which an instruction's results are on their way and its sequencing comes; none without room in the
save pool for the entries that it makes (R291). -/
def Done.delivered (d : Done) (c : Ctx) : Option State :=
  (roomFor d.s c (d.flow.getD c.sequence).kids).map fun t =>
    let t := (t.modFibre c.r fun f => { c.hashInto d f with replays := 0 }).deliver c d
    if (d.flow.getD c.sequence).writes.isEmpty then t else t.commit c.r (d.flow.getD c.sequence).writes

/-- Sequencing succeeds and leaves the fibre as f, its next split chosen; nothing of its table lies in the save
pool. -/
def Done.goesOn (d : Done) (c : Ctx) (f : Fibre) : Prop :=
  f.spill = none ∧ f.hspill = none ∧
    ∃ t g h, d.delivered c = some t ∧ t.fibre? c.r = some g ∧ (d.flow.getD c.sequence).run g = .ok h ∧
      h.settle c.sige 256 = .ok f

/-- The part of a write that its register keeps: 32 bits of a vector register, bit 0 of a predicate. -/
def RegWrite.kept (w : RegWrite) : DWord :=
  match w.reg with
  | .vec _ _ => low32 w.value
  | .uni _ => w.value
  | .pred _ _ => if w.value.getLsbD 0 then 1 else 0

/-- A register of one of the 64 threads of a group. -/
def RegRef.inRange : RegRef → Prop
  | .vec _ t | .pred _ t => t < 64
  | .uni _ => True

/-- The last value that a list of writes gives a register. -/
def lastWrite (ws : List RegWrite) (r : RegRef) : Option RegWrite := (ws.filter fun w => w.reg == r).getLast?

/-- The parts of the package that no instruction of a fibre changes by its issue alone. -/
def State.surroundings (s : State) : State := { s with teams := [], cores := [], nextId := 0 }

/-- The memories and claims of a team, without its groups and its journal. -/
def Team.memories (t : Team) : Team := { t with groups := [], interval := none }

/-! ## Accesses -/

/-- The state in which an instruction's accesses are made: one to a STRONG page comes after the core's earlier stores
(R171, R191). -/
def State.strongFirst (s : State) (c : Ctx) (r : Located) : State := if anyStrong r then s.drainHome c.core else s

/-- Each participant's request translates and passes its checks, and no poison is consumed: r is where the accesses of an
instruction lie. -/
def State.mayLoad (s : State) (c : Ctx) (scratch : Bool) (r : Located) : Prop :=
  Machine.requests s c scratch ≠ [] ∧ ¬(ordOf c.w = 1 ∧ s.scopeMissing (scopeOf c.w) = true) ∧
    s.checkPlain c .load (sizeBytes (sizeOf_ c.w)) (sizeOf_ c.w) (Machine.requests s c scratch) = .ok r ∧
    (s.strongFirst c r).consumes (some c.core) c.r.team false (r.flatMap (·.2)) = false ∧
    s.moves (remotePlaces r false) = false

/-- Threads whose lines are not all present (R214). -/
def State.missing (s : State) (c : Ctx) (r : Located) : Mask :=
  maskOf fun t => r.any fun x => x.1.t == t && !x.2.all (s.present c)

/-- A load divides its split: `.split`, and some participants miss and some active threads do not (R214). -/
def State.divides (s : State) (c : Ctx) (r : Located) : Prop :=
  c.w.m.getLsbD 0 = true ∧ (r.any fun x => !x.2.all (s.present c)) = true ∧ s.missing c r ≠ c.act

/-- The checks of a store passed. -/
def State.mayStore (s : State) (c : Ctx) (scratch : Bool) (r : Located) : Prop :=
  Machine.requests s c scratch ≠ [] ∧ ¬(ordOf c.w = 2 ∧ s.scopeMissing (scopeOf c.w) = true) ∧
    s.checkPlain c .store (sizeBytes (sizeOf_ c.w)) (sizeOf_ c.w) (Machine.requests s c scratch) = .ok r

/-- The checks of an atomic passed. -/
def State.mayModify (s : State) (c : Ctx) (r : Located) : Prop :=
  c.steps ≠ [] ∧ s.scopeMissing (scopeOf c.w) = false ∧
    s.checkAligned c .rmw (atomicBytes c.w) (if atomicWide c.w then 5 else 4)
      (c.steps.map fun t => Req.generic t (srcA s c true t)) = .ok r ∧
    s.consumes none c.r.team true (r.flatMap (·.2)) = false ∧
    s.moves (remotePlaces r true) = false

/-! ## Engines -/

/-- No page of memory or of the insole store is protected by a checkpoint (R424). -/
def State.unprotected (s : State) : Prop := ∀ x ∈ s.ckpt, ∀ p ∈ x.2.pages, p.isProtected = false

/-- Nothing but the effect of an engine's step comes to a team: no part of it is marked by an error, it does not roll back,
a group of it lives, and no fibre of it waits at EWAIT. -/
def Team.calm (t : Team) : Prop :=
  t.marked = [] ∧ t.rolling = false ∧ (∃ g ∈ t.groups, g.retired = false) ∧
    ∀ g ∈ t.groups, ∀ f ∈ g.fibres, ∀ u, f.hold = .wait u → u.kind ≠ 3

/-- The runs of a request's index list. -/
def CopyReq.indexRuns (q : CopyReq) : List (Nat × Place × Nat) :=
  if q.cmd.op = 0xE2 ∨ q.cmd.op = 0xE3 then numberRuns 0 [q.cmd.indexRun] else []

/-- The runs of its source, given the bytes of the index list. -/
def CopyReq.dataRuns (q : CopyReq) (idx : List Byte) : List (Nat × Place × Nat) :=
  numberRuns q.firstRun (q.cmd.sources (q.recs.map parseRec) idx)

/-- A request that has taken its entry and has not begun. -/
def CopyReq.fresh (q : CopyReq) : Prop :=
  q.released = false ∧ q.halted = false ∧ q.waitsPhase = false ∧ q.reads = [] ∧ q.held = [] ∧ q.index = none ∧
    q.pieces = [] ∧ q.early = []

/-- A run of a request finds these bytes: in scratchpad, or in memory without poison, whose translation and lines are at
hand, so that the reading changes nothing else. -/
def State.finds (s : State) (core : Nat) (q : CopyReq) (p : Place) (n : Nat) (bs : List Byte) : Prop :=
  (∃ o, s.reach core q .copyRead p n = .scratch o ∧ bs = s.scratchRead q.team o n) ∨
  ∃ loc etp, s.reach core q .copyRead p n = .mem loc etp ∧ s.poisoned loc n = [] ∧ bs = s.bytesAt loc n ∧
    ∀ a, p = .va a → (s.touch (s.reqSpace core q) .copyRead a).throughSlice loc n false = s

/-- A counter of a request takes its add at once: in scratchpad, or in local memory whose word is not poisoned and whose
page has its A and D set, with nothing buffered by the core. -/
def State.takesAdd (s : State) (core : Nat) (q : CopyReq) (at_ : Option (Nat ⊕ Nat)) (va : DWord) : Prop :=
  (s.core (s.workCore core q)).wcb = [] ∧ (s.core (s.workCore core q)).flight = [] ∧
  match at_ with
  | some (.inl loc) => isPeer loc = false ∧ q.stale = false ∧ s.poisoned loc 8 = [] ∧ s.unprotected ∧
      (s.touch (s.reqSpace core q) .rmw va.toNat).mem = s.mem
  | _ => True

/-- A piece of a request is written at once: to scratchpad, to a slot that no operation holds back, or, as the only piece, to
memory whose page has its A and D set. -/
def State.takesPiece (s : State) (core : Nat) (q : CopyReq) (p : Piece) : Prop :=
  (p.mask = [] ∨ p.mask.length = p.bytes.length) ∧
  match s.reach core q .copyWrite p.place p.bytes.length with
  | .scratch _ => True
  | .slot k o => s.fillHeld core q k = false ∧ o + p.bytes.length ≤ slotBytesTotal
  | .mem _ _ => q.pieces = [p] ∧ (∀ loc, q.compLoc ≠ some (.inl loc)) ∧ s.unprotected ∧
      ∀ a, p.place = .va a → (s.touch (s.reqSpace core q) .copyWrite a).mem = s.mem
  | _ => False

/-- No two pieces of a request share a byte, and none is parked. -/
def State.apart (s : State) (core : Nat) (q : CopyReq) : Prop :=
  s.parkedOf core q = [] ∧ ∀ p ∈ q.pieces, ∀ x ∈ q.pieces, x ≠ p → x.overlaps p = false

/-- The bytes of a piece stand where it goes, those bits that its mask leaves out as they were. -/
def State.holds (u s : State) (core : Nat) (q : CopyReq) (p : Piece) : Prop :=
  match s.reach core q .copyWrite p.place p.bytes.length with
  | .scratch o => ∃ t t', s.team? q.team = some t ∧ u.team? q.team = some t' ∧
      lookAll 0 t'.scratch o p.bytes.length = mergeBytes (lookAll 0 t.scratch o p.bytes.length) p.bytes p.mask
  | .slot k o => ∃ t', u.team? q.team = some t' ∧ lookAll 0 t'.slotBytes (slotKey k o) p.bytes.length = p.bytes
  | .mem loc _ => u.bytesAt loc p.bytes.length = mergeBytes (s.bytesAt loc p.bytes.length) p.bytes p.mask
  | _ => False

/-- The value that a key of accumulator cells takes from a list of writes. -/
def cellAfter (t : Team) (cs : List (Nat × Nat × Word)) (key : Nat) : Word :=
  (((cs.filter fun x => cellKey x.1 x.2.1 == key).getLast?).map (·.2.2)).getD (look 0 t.cells key)

/-- The value of an element of accumulator cells under a tag (R229). -/
def tagValue (tag : Tag) (v : Nat) : FVal :=
  match tag with
  | .int32 => .fin (decide (toInt true 32 v < 0)) (toInt true 32 v).natAbs 0
  | _ => tag.fmt.value v

/-- A finite value. -/
def FVal.isFin : FVal → Bool
  | .fin _ _ _ => true
  | _ => false

/-- The exact product of two values; ∞ × 0 and a NaN give NaN (R108). -/
def FVal.product (x y : FVal) : FVal :=
  if x.isNaN || y.isNaN || infTimesZero x y then .nan false
  else if x.isInf || y.isInf then .inf (x.neg != y.neg)
  else x.times y

/-- The exact sum of values rounded once to nearest: NaN for a NaN or infinities of both signs, an infinity for infinities
of one (R107, R108). -/
def fusedSum (f : Fmt) (l : List FVal) : Nat :=
  if l.any FVal.isNaN || (l.contains (.inf true) && l.contains (.inf false)) then f.canonNaN
  else if l.any FVal.isInf then f.infinity (l.contains (.inf true))
  else (roundSum f {} l).1

/-- The value of element e of a tile of a floating-point or block format: a block's bytes 8192 + 2b and 8193 + 2b are its
exponent and its sub-scales (R100, R102, R226). None for integers and complex formats. -/
def Elem.real (x : Elem) (a : Array Byte) (e : Nat) : Option FVal :=
  match x with
  | .float f n => some (f.value (bitsAt a (n * e) n))
  | .block code =>
    let m := sbBits code
    let ee := (a.getD (8192 + 2 * (e / 32)) 0).toNat
    let sigma := (a.getD (8193 + 2 * (e / 32)) 0).toNat / 4 ^ (e % 32 / 8) % 4
    let v := bitsAt a ((m + 1) * e) (m + 1)
    some (if ee = 0xFF then .nan false else .fin (decide (2 ^ m ≤ v)) (v % 2 ^ m) ((ee : Int) - 127 - sigma - (m - 1)))
  | _ => none

/-! ## Good states -/

/-- The memory of the package and those of its teams are in canonical form. -/
def State.memoryWf (s : State) : Bool :=
  Memory.wf s.mem && s.teams.all fun t => Memory.wf t.scratch && Memory.wf t.slotBytes

/-- The pool equals 64 + counter 3 - counter 2 and never more than 64, the rotation pointer names a cluster, and every
cluster is at one of the three operating points with at most two refusals counted (R409, R412, R413). -/
def State.powerLaw (s : State) : Prop :=
  s.pool ≤ 64 ∧ s.charged - s.refilled = BitVec.ofNat 64 (64 - s.pool) ∧ s.rotation < 4 ∧
    ∀ c, look 0 s.opPoint c ≤ 2 ∧ look 0 s.refusals c ≤ 2

end Sys2Proof.Machine
end

