-- ==== Sys2Proof/Certificates/Slice0/Obligations.lean ====
section
/-!
DEFINITION. What is stated of this model, for the provers. `Completes`, `CompletesIf`, `StopsIf` and `HoldsIf` (Safety.lean)
say that `exec` answers a next state, and which, for every state in which nothing keeps the instruction from its effect.
-/
open Sys2Proof Sys2Proof.Machine

/-! ## Integer instructions (chapter 6) -/

/-- R115, R116: sums, products, extremes, absolute values and negations are res() of the exact result, in D of every
participant, once under U = 1; latency 4 core cycles (R114). The opcodes are those of Table 6.2, whose Sat column says which
of its instructions are legal with .sat. -/
def Obligations.IntegerArithmeticGivesRes : Prop := ∀ (w : Fields) (a d : BitVec 8) (u y : Bool),
  Completes (.iadd w) (integerDone fun a b _ => a + b) ∧
  Completes (.isub w) (integerDone fun a b _ => a - b) ∧
  Completes (.imul w) (integerDone fun a b _ => a * b) ∧
  Completes (.imulh w) (fun c s => integerDone (fun a b _ => a * b / 2 ^ wordBits (Fields.wide c.w)) c s) ∧
  Completes (.imad w) (integerDone fun a b c => a * b + c) ∧
  Completes (.imin w) (integerDone fun a b _ => min a b) ∧
  Completes (.imax w) (integerDone fun a b _ => max a b) ∧
  Completes (.isad w) (integerDone fun a b c => |a - b| + c) ∧
  Completes (.iabs w) (integerDone fun a _ _ => |a|) ∧
  Completes (.iabsShort a d u y) (integerDone fun a _ _ => |a|) ∧
  Completes (.ineg w) (integerDone fun a _ _ => -a) ∧
  Completes (.inegShort a d u y) (integerDone fun a _ _ => -a) ∧
  [Instr.iadd w, .isub w, .imul w, .imulh w, .imad w, .imin w, .imax w, .isad w].map (fun i => (opFields i).map (·.1)) =
    [0x20, 0x21, 0x24, 0x25, 0x26, 0x2A, 0x2B, 0x2E].map some ∧
  (∀ i ∈ [Instr.imulh w, .imin w, .imax w], i.wf = true → Fields.sat w = false) ∧
  ∀ f ∈ [Instr.iadd, .isub, .imul, .imad, .isad], ∃ v, (f v).wf = true ∧ Fields.sat v = true

/-- R119: IADDC and ISUBB write the wrapped sum or difference of the unsigned operands and the carry, and the carry
out: 2^w or more, or below zero; with the uniform D and C one register the carry comes last, the model's reading (log 41).

R118: IDIV and IREM truncate toward zero, give all ones and the dividend for a zero divisor (R92), clamp only
IDIV's overflow, and deliver with variable latency. -/
def Obligations.CarryChainsAndDivision : Prop :=
  (∀ w : Fields,
    Completes (.iaddc w) (fun c s =>
      let n := wordBits (Fields.wide c.w)
      let a t := (srcA s c (Fields.wide c.w) t).toNat
      let b t := (srcB s c (Fields.wide c.w) t).toNat
      { s, fixed := typedResults c false (fun t => a t + b t + carryIn c t) ++ carryWrites c fun t => 2 ^ n ≤ a t + b t + carryIn c t }) ∧
    Completes (.isubb w) (fun c s =>
      let a t := (srcA s c (Fields.wide c.w) t).toNat
      let b t := (srcB s c (Fields.wide c.w) t).toNat
      { s, fixed := typedResults c false (fun t => (a t : Int) - b t - carryIn c t) ++ carryWrites c fun t =>
          ((a t : Int) - b t - carryIn c t) < 0 })) ∧
  (∀ w : Fields,
    Completes (.idiv w) (fun c s =>
      { s, later := some (typedResultsBits c fun t =>
          if typedB c s t = 0 then resBits false (Fields.signed c.w) (wordBits (Fields.wide c.w)) (-1)
          else resBits (Fields.sat c.w) (Fields.signed c.w) (wordBits (Fields.wide c.w)) ((typedA c s t).tdiv (typedB c s t))) }) ∧
    Completes (.irem w) (fun c s =>
      { s, later := some (typedResults c false fun t =>
          if typedB c s t = 0 then typedA c s t else (typedA c s t).tmod (typedB c s t)) }))

/-- R117, R120, R121: IMADW's 64-bit sum, ICMP's truth values under the six conditions of Table 6.3, and LEA's
address, whose literal is a displacement. -/
def Obligations.WideMultiplyCompareAndAddress : Prop := ∀ w : Fields,
  Completes (.imadw w) (fun c s =>
    let sg := Fields.signed c.w
    { s, fixed := c.results true sg fun t => resBits (Fields.sat c.w) sg 64
        (intOfBits sg 32 (srcA s c false t) * intOfBits sg 32 (srcB s c false t) + intOfBits sg 64 (srcC s c true t)) }) ∧
  Completes (.icmp w) (fun c s =>
    { s, fixed := c.truths fun t =>
        let a := typedA c s t
        let b := typedB c s t
        match c.w.f.toNat with
        | 0 => a = b | 1 => a ≠ b | 2 => a < b | 3 => a ≤ b | 4 => a > b | _ => a ≥ b }) ∧
  Completes (.lea w) (fun c s =>
    { s, fixed := c.results true false fun t =>
        let n := wordBits (Fields.wide c.w)
        let index := intOfBits (Fields.signed c.w) n (source s c (Fields.wide c.w) (c.w.u || c.w.ub) c.w.b t)
        srcA s c true t + BitVec.ofInt 64 (index * 2 ^ c.w.f.toNat) + if c.w.hasImm then c.w.lit else 0 })

/-- R122: the logic instructions work bit by bit over the width; BMIX takes bit n of its code, X[7:0], for the inputs that
weigh n, its other bits of X being reserved under NEXT, its one selector.

R123: shifts saturate their amount, rotations and funnel shifts take it modulo the width; the amount is B's low
32 bits whatever the width (Table 6.4). -/
def Obligations.LogicAndShiftsWorkOnTheWidth : Prop :=
  (∀ w : Fields,
    Completes (.and w) (bitDone2 fun a b => a &&& b) ∧
    Completes (.or w) (bitDone2 fun a b => a ||| b) ∧
    Completes (.xor w) (bitDone2 fun a b => a ^^^ b) ∧
    Completes (.andn w) (bitDone2 fun a b => a &&& ~~~b) ∧
    Completes (.bmix w) (fun c s =>
      let k i := c.w.x.getLsbD i
      { s, fixed := c.results (Fields.w64 c.w) false fun t =>
          let a := wordA c s t
          let b := wordB c s t
          let d := wordC c s t
          bitsBelow (wordBits (Fields.w64 c.w)) fun i =>
            k ((if a.getLsbD i then 1 else 0) + (if b.getLsbD i then 2 else 0) + if d.getLsbD i then 4 else 0) }) ∧
    [Instr.and w, .or w, .xor w, .andn w, .bmix w].map opFields = [0x40, 0x41, 0x42, 0x43, 0x44].map (fun n => some (n, w)) ∧
    ((Instr.bmix w).wf = true → w.seq = 0 ∧ w.x.toNat < 256) ∧
    (w.form = .ext → w.seq = 0 → 256 ≤ w.x.toNat → encodingReason 0x44 w none = some 3)) ∧
  (∀ w : Fields,
    Completes (.shl w) (bitDone fun _ a k _ => a <<< k) ∧
    Completes (.shr w) (bitDone fun _ a k _ => a >>> k) ∧
    Completes (.sar w) (bitDone fun _ a k _ => a.sshiftRight k) ∧
    Completes (.rot w) (bitDone fun n a k _ => a.rotateLeft (k % n)) ∧
    Completes (.fshl w) (bitDone fun n a k d => ((a ++ d) <<< (k % n)).extractLsb' n n) ∧
    Completes (.fshr w) (bitDone fun n a k d => ((a ++ d) >>> (k % n)).extractLsb' 0 n) ∧
    [Instr.shl w, .shr w, .sar w, .rot w, .fshl w, .fshr w].map opFields =
      [0x45, 0x46, 0x47, 0x48, 0x49, 0x4A].map (fun n => some (n, w)))

/-- R124 to R126: clipped bit fields, counts as 32-bit numbers, reversal, and bytes chosen from the pool of A and
C. -/
def Obligations.FieldsCountsAndBytes : Prop := ∀ (w : Fields) (a d : BitVec 8) (u y : Bool),
  Completes (.bfx w) (fun c s => bitDone (fun n a b _ =>
    let p := min (b % 256) n
    let l := min (b / 256 % 256) (n - p)
    let f := (a >>> p) &&& BitVec.ofNat n (2 ^ l - 1)
    if c.w.f.getLsbD 0 && decide (l ≠ 0) && f.getLsbD (l - 1) then f ||| ~~~(BitVec.ofNat n (2 ^ l - 1)) else f) c s) ∧
  Completes (.bfi w) (bitDone fun n a b d =>
    let p := min (b % 256) n
    let l := min (b / 256 % 256) (n - p)
    let m : BitVec n := BitVec.ofNat n ((2 ^ l - 1) * 2 ^ p)
    (d &&& ~~~m) ||| ((a <<< p) &&& m)) ∧
  Completes (.popc w) (countDone fun _ a => a.cpop.toNat) ∧ Completes (.popcShort a d u y) (countDone fun _ a => a.cpop.toNat) ∧
  Completes (.clz w) (countDone fun _ a => a.clz.toNat) ∧ Completes (.clzShort a d u y) (countDone fun _ a => a.clz.toNat) ∧
  Completes (.ctz w) (countDone fun _ a => a.ctz.toNat) ∧ Completes (.ctzShort a d u y) (countDone fun _ a => a.ctz.toNat) ∧
  Completes (.brev w) (bitDone fun _ a _ _ => a.reverse) ∧ Completes (.brevShort a d u y) (bitDone fun _ a _ _ => a.reverse) ∧
  Completes (.bperm w) (bitDone fun n a b d => BitVec.ofNat n (bytesNat (n / 8) fun j =>
    let q := b / 16 ^ j % 16
    let byte i := ((d ++ a).extractLsb' (8 * i) 8).toNat
    if n = 64 ∨ q < 8 then byte q else if byte (q - 8) < 128 then 0 else 255))

/-- R127: the packed instructions apply R115's operations and Table 6.3's conditions to each element, without carry
between them. -/
def Obligations.PackedElementsAreSeparate : Prop := ∀ w : Fields,
  Completes (.iadd2 w) (packedDone fun a b => a + b) ∧
  Completes (.isub2 w) (packedDone fun a b => a - b) ∧
  Completes (.imin2 w) (packedDone fun a b => min a b) ∧
  Completes (.imax2 w) (packedDone fun a b => max a b) ∧
  Completes (.icmp2 w) (fun c s =>
    let v t e : DWord := if intCondition c.w.f.toNat (lane16 (Fields.signed c.w) (srcA s c false t) e)
      (lane16 (Fields.signed c.w) (srcB s c false t) e) then 1 else 0
    { s, lat := 8
      fixed := if c.w.u then [⟨.uni c.w.d.toNat, v uniThread 0 + 2 * v uniThread 1⟩]
        else (threads c.parts).flatMap fun t =>
          [⟨.pred (c.w.d.toNat % 128) t, v t 0⟩, ⟨.pred (c.w.d.toNat % 128 + 1) t, v t 1⟩] })

/-- R128: IACS2's two add-compare-select steps compare exact sums, keep x on a tie, and write the metrics first and
then the survivor word, shifted by two decisions; M[6] is reserved, F is 0 or 1, and the elements have 16 bits. -/
def Obligations.TrellisStepKeepsTheBetterPath : Prop := ∀ w : Fields,
  Completes (.iacs2 w) (fun c s =>
    let x t e := lane16 (Fields.signed c.w) (srcA s c false t) 0 + lane16 (Fields.signed c.w) (srcB s c false t) e
    let y t e := lane16 (Fields.signed c.w) (srcA s c false t) 1 + lane16 (Fields.signed c.w) (srcB s c false t) (1 - e)
    let better t e : Bool := if c.w.f.getLsbD 0 then y t e > x t e else y t e < x t e
    let m t e := (resBits (Fields.sat c.w) (Fields.signed c.w) 16 (if better t e then y t e else x t e))
    let d t e : DWord := if better t e then 1 else 0
    let survivors t := survivor s c t * 4 + 2 * d t 1 + d t 0
    { s, lat := 8
      fixed := c.results false false (fun t => m t 0 + 65536 * m t 1) ++ c.steps.map fun t =>
        if c.w.u then ⟨.uni c.w.c.toNat, survivors t⟩ else ⟨.vec c.w.c.toNat t, low32 (survivors t)⟩ }) ∧
  opFields (.iacs2 w) = some (0x57, w) ∧
  ((Instr.iacs2 w).wf = true → w.m.getLsbD 6 = false ∧ w.m.getLsbD 5 = false ∧ w.f.toNat < 2) ∧
  (w.form = .ext → w.m.getLsbD 6 = true → encodingReason 0x57 w none = some 3)

/-! ## Floating point and conversions (chapters 5 and 7) -/

/-- R132, R134 to R136: FP32 and FP64 sums, products, fused products, extremes and integral values are the rounded
operations on the operands' bits, with fixed latency 8 and 16, and OR their flags into FFLAGS (R82).

R141: the packed operations work on both 16-bit elements, BF16 or FP16 by M[4], and OR the flags of both.

R94 to R97, R134 to R136: what these operations give, through the values of the operands, subnormal ones flushed under
.ftz: a NaN gives the canonical NaN, with NV for a signalling one; ∞ − ∞ and ∞ × 0 give it with NV; other infinities give
infinity; finite operands give the exact sum, product or fused product rounded once; extremes choose an operand bit for
bit, −0 below +0 and a number before a NaN; FRND rounds to an integer and keeps the sign of zero. -/
def Obligations.FloatArithmeticFixedLatency : Prop :=
  (∀ w : Fields,
    Completes (.fadd w) (floatFixed false 8 (on2 false (fAdd fp32))) ∧
    Completes (.fsub w) (floatFixed false 8 (on2 false (fSub fp32))) ∧
    Completes (.fmul w) (floatFixed false 8 (on2 false (fMul fp32))) ∧
    Completes (.ffma w) (floatFixed false 8 (on3 false (fFma fp32))) ∧
    Completes (.fmin w) (floatFixed false 8 (on2 false fun r => fMinMax fp32 r.ftz false)) ∧
    Completes (.fmax w) (floatFixed false 8 (on2 false fun r => fMinMax fp32 r.ftz true)) ∧
    Completes (.frnd w) (floatFixed false 8 (on1 false (fRound fp32))) ∧
    Completes (.dadd w) (floatFixed true 16 (on2 true (fAdd fp64))) ∧
    Completes (.dsub w) (floatFixed true 16 (on2 true (fSub fp64))) ∧
    Completes (.dmul w) (floatFixed true 16 (on2 true (fMul fp64))) ∧
    Completes (.dfma w) (floatFixed true 16 (on3 true (fFma fp64))) ∧
    Completes (.dmin w) (floatFixed true 16 (on2 true fun r => fMinMax fp64 r.ftz false)) ∧
    Completes (.dmax w) (floatFixed true 16 (on2 true fun r => fMinMax fp64 r.ftz true)) ∧
    Completes (.drnd w) (floatFixed true 16 (on1 true (fRound fp64)))) ∧
  (∀ w : Fields,
    Completes (.fadd2 w) (floatFixed false 8 (packedFloat fun f r a b _ e => fAdd f r (a e) (b e))) ∧
    Completes (.fmul2 w) (floatFixed false 8 (packedFloat fun f r a b _ e => fMul f r (a e) (b e))) ∧
    Completes (.ffma2 w) (floatFixed false 8 (packedFloat fun f r a b c e => fFma f r (a e) (b e) (c e))) ∧
    Completes (.fmin2 w) (floatFixed false 8 (packedFloat fun f r a b _ e => fMinMax f r.ftz false (a e) (b e))) ∧
    Completes (.fmax2 w) (floatFixed false 8 (packedFloat fun f r a b _ e => fMinMax f r.ftz true (a e) (b e)))) ∧
  (∀ (f : Fmt) (r : Rounding) (a b c : Nat),
    let x := f.value (f.flushIn r.ftz a)
    let y := f.value (f.flushIn r.ftz b)
    let z := f.value (f.flushIn r.ftz c)
    let nan (bad : Bool) (l : List FVal) : Nat × Flags := (f.canonNaN, nvOf l ||| if bad then flagNV else 0)
    (fAdd f r a b =
      if x.isNaN || y.isNaN then nan false [x, y]
      else if x.isInf && y.isInf && x.neg != y.neg then nan true []
      else if x.isInf then (f.infinity x.neg, 0)
      else if y.isInf then (f.infinity y.neg, 0)
      else roundSum f r [x, y]) ∧
    (fMul f r a b =
      if x.isNaN || y.isNaN then nan false [x, y]
      else if infTimesZero x y then nan true []
      else if x.isInf || y.isInf then (f.infinity (x.neg != y.neg), 0)
      else match x, y with
        | .fin n m e, .fin k d g => roundTo f r (n != k) (m * d) (e + g)
        | _, _ => (0, 0)) ∧
    (fFma f r a b c =
      if x.isNaN || y.isNaN || z.isNaN then nan (infTimesZero x y) [x, y, z]
      else if infTimesZero x y then nan true []
      else if x.isInf || y.isInf then
        (if z.isInf && z.neg != (x.neg != y.neg) then nan true [] else (f.infinity (x.neg != y.neg), 0))
      else if z.isInf then (f.infinity z.neg, 0)
      else roundSum f r [x.times y, z]) ∧
    fSub f r a b = fAdd f r a (fNeg f b) ∧
    (f.low = 0 → f.e4m3 = false → b < 2 ^ (f.fb + f.eb + 1) → f.value (f.flushIn r.ftz (fNeg f b)) = y.opposite) ∧
    (∀ isMax, fMinMax f r.ftz isMax a b =
      if x.isNaN && y.isNaN then (f.canonNaN, nvOf [x, y])
      else if x.isNaN then (f.flushIn r.ftz b, nvOf [x, y])
      else if y.isNaN then (f.flushIn r.ftz a, nvOf [x, y])
      else
        let below (u v : FVal) : Bool := u.order v == some .lt || (u.isZero true && v.isZero false)
        (f.flushIn r.ftz (if (if isMax then below x y else below y x) then b else a), nvOf [x, y])) ∧
    fRound f r a =
      match x with
      | .nan _ => nan false [x]
      | .inf _ => (f.flushIn r.ftz a, 0)
      | .fin n m e =>
        if (roundAt r.rm n m e 0).2 then (f.flushIn r.ftz a, 0)
        else ((roundTo f {} n (roundAt r.rm n m e 0).1 0).1, flagNX))

/-- R137, R138: comparisons under a condition, and class tests, whose mask is a 32-bit B, write truth values.

R132, R139, R140: quotients, reciprocals and roots are correctly rounded, the approximate functions are those of
Table 7.6 (within whose bound the part's own value is free), and all of them have variable latency.

R94, R97, R137 to R140: what they give, through the values of the operands: the conditions of Table 7.4 on their order,
NV for a signalling NaN and, under .lt to .ge, for any; the classes of Table 7.5; a quotient or root as one rounding of
a number that stands for the exact one; the exact and special cases of Table 7.6, whose bounds are not restated. -/
def Obligations.FloatComparesAndVariableLatency : Prop :=
  (∀ w : Fields,
    Completes (.fcmp w) (truthsFixed 8 fun c s t =>
      fCompare fp32 (Fields.rounding c.w).ftz c.w.f.toNat (srcA s c false t).toNat (srcB s c false t).toNat) ∧
    Completes (.dcmp w) (truthsFixed 16 fun c s t =>
      fCompare fp64 (Fields.rounding c.w).ftz c.w.f.toNat (srcA s c true t).toNat (srcB s c true t).toNat) ∧
    Completes (.fclass w) (fun c s =>
      { s, lat := 8, fixed := c.truths fun t => (srcB s c false t).getLsbD (fClass fp32 (srcA s c false t).toNat) }) ∧
    Completes (.dclass w) (fun c s =>
      { s, lat := 16, fixed := c.truths fun t => (srcB s c false t).getLsbD (fClass fp64 (srcA s c true t).toNat) })) ∧
  (∀ (w : Fields) (a d : BitVec 8) (u y : Bool),
    Completes (.fdiv w) (floatLater false (on2 false (fDiv fp32))) ∧
    Completes (.frcp w) (floatLater false (on1 false (fRcp fp32))) ∧
    Completes (.frcpShort a d u y) (floatLater false (on1 false (fRcp fp32))) ∧
    Completes (.fsqrt w) (floatLater false (on1 false (fSqrt fp32))) ∧
    Completes (.fsqrtShort a d u y) (floatLater false (on1 false (fSqrt fp32))) ∧
    Completes (.ddiv w) (floatLater true (on2 true (fDiv fp64))) ∧
    Completes (.drcp w) (floatLater true (on1 true (fRcp fp64))) ∧
    Completes (.drcpShort a d u y) (floatLater true (on1 true (fRcp fp64))) ∧
    Completes (.dsqrt w) (floatLater true (on1 true (fSqrt fp64))) ∧
    Completes (.dsqrtShort a d u y) (floatLater true (on1 true (fSqrt fp64))) ∧
    Completes (.frsq w) (floatLater false (on1 false fun r => fApprox 0x69 r.ftz)) ∧
    Completes (.frsqShort a d u y) (floatLater false (on1 false fun r => fApprox 0x69 r.ftz)) ∧
    Completes (.fex2 w) (floatLater false (on1 false fun r => fApprox 0x6C r.ftz)) ∧
    Completes (.fex2Short a d u y) (floatLater false (on1 false fun r => fApprox 0x6C r.ftz)) ∧
    Completes (.flg2 w) (floatLater false (on1 false fun r => fApprox 0x6D r.ftz)) ∧
    Completes (.flg2Short a d u y) (floatLater false (on1 false fun r => fApprox 0x6D r.ftz)) ∧
    Completes (.fsin w) (floatLater false (on1 false fun r => fApprox 0x6E r.ftz)) ∧
    Completes (.fsinShort a d u y) (floatLater false (on1 false fun r => fApprox 0x6E r.ftz)) ∧
    Completes (.fcos w) (floatLater false (on1 false fun r => fApprox 0x6F r.ftz)) ∧
    Completes (.fcosShort a d u y) (floatLater false (on1 false fun r => fApprox 0x6F r.ftz))) ∧
  (∀ (f : Fmt) (r : Rounding) (a b cc : Nat),
    let x := f.value (f.flushIn r.ftz a)
    let y := f.value (f.flushIn r.ftz b)
    (cc < 14 → fCompare f r.ftz cc a b = (conditionHolds cc (x.order y),
      if (x.isNaN || y.isNaN) && decide (2 ≤ cc ∧ cc ≤ 5) then flagNV else nvOf [x, y])) ∧
    (fClass f a = match f.value a with
      | .inf n => if n then 0 else 7
      | .nan s => if s then 8 else 9
      | .fin n m _ => if m = 0 then (if n then 3 else 4) else if m < 2 ^ f.fb then (if n then 2 else 5) else (if n then 1 else 6)) ∧
    (fRcp f r a = fDiv f r f.one a) ∧
    (fDiv f r a b = match x, y with
      | .nan _, _ | _, .nan _ => (f.canonNaN, nvOf [x, y])
      | .inf _, .inf _ => (f.canonNaN, flagNV)
      | .inf n, .fin k _ _ => (f.infinity (n != k), 0)
      | .fin n _ _, .inf k => (f.pack (n != k) 0 0, 0)
      | .fin n m _, .fin k d _ =>
        if d = 0 then (if m = 0 then (f.canonNaN, flagNV) else (f.infinity (n != k), flagDZ))
        else if m = 0 then (f.pack (n != k) 0 0, 0)
        else fDiv f r a b) ∧
    (∀ n m e k d g, x = .fin n m e → y = .fin k d g → m ≠ 0 → d ≠ 0 → ∃ N h : Nat,
      Stands N (m * 2 ^ h) d ∧ 2 ^ (f.fb + 3) ≤ N ∧ fDiv f r a b = roundTo f r (n != k) N (e - g - h - 1)) ∧
    (fSqrt f r a = match x with
      | .nan _ => (f.canonNaN, nvOf [x])
      | .inf n => if n then (f.canonNaN, flagNV) else (f.infinity false, 0)
      | .fin n m _ => if m = 0 then (f.pack n 0 0, 0) else if n then (f.canonNaN, flagNV) else fSqrt f r a) ∧
    (∀ m e, x = .fin false m e → m ≠ 0 → ∃ (N h : Nat) (u : Int),
      e - h = 2 * (u + 1) ∧ 2 ^ (f.fb + 3) ≤ N ∧
      (N % 2 = 0 → N / 2 * (N / 2) = m * 2 ^ h) ∧
      (N % 2 = 1 → N / 2 * (N / 2) < m * 2 ^ h ∧ m * 2 ^ h < (N / 2 + 1) * (N / 2 + 1)) ∧
      fSqrt f r a = roundTo f r false N u)) ∧
  (∀ f ∈ [fp32, fp64], f.value f.one = .fin false (2 ^ f.fb) (-f.fb)) ∧
  (∀ (ftz : Bool) (a : Nat),
    let v := fp32.flushIn ftz a
    let x := fp32.value v
    let invalid : Nat × Flags := (fp32.canonNaN, flagNV)
    (∀ op ∈ [0x69, 0x6C, 0x6D, 0x6E, 0x6F], x.isNaN = true → fApprox op ftz a = (fp32.canonNaN, nvOf [x])) ∧
    (∀ n, x = .inf n → fApprox 0x69 ftz a = (if n then invalid else (0, 0)) ∧
      fApprox 0x6C ftz a = (if n then (0, 0) else (fp32.infinity false, 0)) ∧
      fApprox 0x6D ftz a = (if n then invalid else (fp32.infinity false, 0)) ∧
      fApprox 0x6E ftz a = invalid ∧ fApprox 0x6F ftz a = invalid) ∧
    (∀ n e, x = .fin n 0 e → fApprox 0x69 ftz a = (fp32.infinity n, flagDZ) ∧ fApprox 0x6C ftz a = (fp32.one, 0) ∧
      fApprox 0x6D ftz a = (fp32.infinity true, flagDZ) ∧ fApprox 0x6E ftz a = (v, 0) ∧ fApprox 0x6F ftz a = (fp32.one, 0)) ∧
    (∀ m e, x = .fin true m e → m ≠ 0 → fApprox 0x69 ftz a = invalid ∧ fApprox 0x6D ftz a = invalid) ∧
    (∀ (i : Nat) (e k : Int), x = .fin false (2 ^ i) e → e + i = 2 * k →
      fApprox 0x69 ftz a = roundTo fp32 {} false 1 (-k)) ∧
    (∀ (i : Nat) (e : Int), x = .fin false (2 ^ i) e →
      fApprox 0x6D ftz a = roundTo fp32 {} (decide (e + i < 0)) (e + i).natAbs 0) ∧
    (∀ n m e, x = .fin n m e → 128 * 2 ^ (-e).toNat ≤ m * 2 ^ e.toNat → n = false →
      fApprox 0x6C ftz a = (fp32.infinity false, flagOF ||| flagNX)) ∧
    (∀ n m e, ∀ k : Int, x = .fin n m e → (if n then -(m : Int) else m) * 2 ^ e.toNat = k * 2 ^ (-e).toNat →
      -149 ≤ k → k < 128 → fApprox 0x6C ftz a =
        let w := (roundTo fp32 {} false 1 k).1
        if ftz && fp32.subnormal w then (0, flagUF ||| flagNX) else (w, 0)))

/-- Rounding of a magnitude m to a multiple of 2^k in the four modes of Table 5.3: nearest with ties to even, toward
zero, upward and downward.

Rounding a value that a format holds exactly gives its encoding back, with no flag, in every mode. -/
def Obligations.RoundingFollowsTheModes : Prop :=
  (∀ (neg : Bool) (m k : Nat),
    let r rm := ((roundAt rm neg m 0 k).1 : Nat)
    let exact := ∃ q, m = q * 2 ^ k
    ((roundAt 0 neg m 0 k).2 = true ↔ exact) ∧
    (2 * (max (r 0 * 2 ^ k) m - min (r 0 * 2 ^ k) m) ≤ 2 ^ k ∧
      (2 * (max (r 0 * 2 ^ k) m - min (r 0 * 2 ^ k) m) = 2 ^ k → r 0 % 2 = 0)) ∧
    (r 1 * 2 ^ k ≤ m ∧ m < (r 1 + 1) * 2 ^ k) ∧
    (if neg then r 2 = r 1 else m ≤ r 2 * 2 ^ k ∧ r 2 * 2 ^ k < m + 2 ^ k) ∧
    (if neg then m ≤ r 3 * 2 ^ k ∧ r 3 * 2 ^ k < m + 2 ^ k else r 3 = r 1)) ∧
  (∀ f ∈ [fp64, fp32, e8m10, bf16, fp16, e4m3, e5m2], ∀ (rm : Nat) (sat : Bool) (x : Nat) (neg : Bool) (m : Nat) (e : Int),
      x < 2 ^ (f.low + f.fb + f.eb + 1) → x % 2 ^ f.low = 0 → f.value x = .fin neg m e →
        roundTo f { rm, sat } neg m e = (x, 0))

/-- R142 to R144: CVT converts each participant's value from the format of X to that of M and raises the flags of the
conversion; TRIPCK packs twenty trits into four bytes, and TRIUNP unpacks them and raises NV for a reserved byte.

R94, R95, R98, R99, R143: what a conversion gives, by the kinds of the two types. -/
def Obligations.ConversionsAndTernary : Prop := (∀ w : Fields,
  Completes (.cvt w) (fun c s =>
    let src := fld c.w.x 4 0
    let dst := c.w.m.toNat % 32
    let r : Rounding := { rm := fld c.w.x 6 5, ftz := c.w.x.getLsbD 7, sat := c.w.m.getLsbD 5 }
    let v t := convert dst src r (srcA s c (wideType src) t).toNat
    { s, lat := 8, fixed := c.results (wideType dst) (signedType dst) fun t => (v t).1
      flags := orFlags (c.steps.map fun t => (v t).2) }) ∧
  Completes (.tripck w) (fun c s =>
    { s, lat := 8, fixed := c.results false false fun t => BitVec.ofNat 64 (bytesNat 4 fun j =>
        ((List.range 5).map fun i =>
          (match (srcA s c true t).toNat / 2 ^ (10 * j + 2 * i) % 4 with | 1 => 1 | 3 => 2 | _ => 0) * 3 ^ i).sum) }) ∧
  Completes (.triunp w) (fun c s =>
    let byte t j := (srcA s c false t).toNat / 256 ^ j % 256
    let trit t j i := match byte t j / 3 ^ i % 3 with | 0 => 0 | 1 => 1 | _ => 3
    { s, lat := 8
      fixed := c.results true false fun t => BitVec.ofNat 64
        ((List.range 4).map fun j => ((List.range 5).map fun i =>
          (if byte t j < 243 then trit t j i else 0) * 2 ^ (10 * j + 2 * i)).sum).sum
      flags := orFlags (c.steps.map fun t => if (List.range 4).any fun j => 243 ≤ byte t j then flagNV else 0) })) ∧
  (∀ (dst src : Nat) (r : Rounding) (a : Nat),
    (∀ f g, fmtOf src = some f → fmtOf dst = some g → convert dst src r a =
      let v : Nat × Flags := match f.value (f.flushIn r.ftz a) with
        | .nan s => (g.canonNaN, if s then flagNV else 0)
        | .inf n =>
          if r.sat then (g.maxFinite n, flagOF ||| flagNX)
          else if g.e4m3 then (g.canonNaN, flagOF ||| flagNX) else (g.infinity n, 0)
        | .fin n m e => roundTo g r n m e
      (BitVec.ofNat 64 v.1, v.2)) ∧
    (∀ f sg n, fmtOf src = some f → fmtOf dst = none → intOf dst = some (sg, n) → convert dst src r a =
      let (lo, hi) := rangeOf sg n
      let v : Int × Flags := match f.value (f.flushIn r.ftz a) with
        | .nan _ => (0, flagNV)
        | .inf neg => (if neg then lo else hi, flagNV)
        | .fin neg m e =>
          let i : Int := if neg then -((roundAt r.rm neg m e 0).1 : Int) else (roundAt r.rm neg m e 0).1
          if i < lo then (lo, flagNV) else if hi < i then (hi, flagNV)
          else (i, if (roundAt r.rm neg m e 0).2 then 0 else flagNX)
      (if n = 64 then BitVec.ofInt 64 v.1 else (BitVec.ofInt 32 v.1).setWidth 64, v.2)) ∧
    (∀ g sg n, fmtOf src = none → intOf src = some (sg, n) → fmtOf dst = some g → convert dst src r a =
      let x := intOfBits sg n (BitVec.ofNat 64 a)
      let v := roundTo g r (decide (x < 0)) x.natAbs 0
      (BitVec.ofNat 64 v.1, v.2)) ∧
    (∀ sg n sg' n', fmtOf src = none → fmtOf dst = none → intOf src = some (sg, n) → intOf dst = some (sg', n') →
      convert dst src r a =
        let x := intOfBits sg n (BitVec.ofNat 64 a)
        let y := intOfBits sg' n' (resBits r.sat sg' n' x)
        (if n' = 64 then BitVec.ofInt 64 y else (BitVec.ofInt 32 y).setWidth 64, 0)))

/-! ## Movement and group instructions (chapter 8) -/

/-- R148 to R153: moves, selection by a predicate, functions of predicates, and predicates to and from registers. -/
def Obligations.MovesAndPredicates : Prop := ∀ (w : Fields) (a d : BitVec 8) (u y : Bool),
  (∀ i, i = .mov w ∨ i = .movShort a d u y → Completes i (fun c s =>
    let wide := c.w.u || Fields.w64 c.w
    { s, fixed := c.results wide false fun t => if c.w.f.getLsbD 0 then srcB s c wide t else srcA s c wide t })) ∧
  Completes (.movi w) (fun c s =>
    let wide := c.w.u || Fields.w64 c.w
    { s, fixed := c.results wide false fun t => srcB s c wide t }) ∧
  Completes (.sel w) (fun c s =>
    let wide := c.w.u || Fields.w64 c.w
    let p t := if c.w.u then uniOperand s c c.w.c.toNat t != 0 else readPred c.f (c.w.c.toNat % 128) t
    { s, fixed := c.results wide false fun t => if p t != c.w.f.getLsbD 0 then srcA s c wide t else srcB s c wide t }) ∧
  Completes (.pmix w) (fun c s =>
    let p (v : BitVec 8) t := if readPred c.f (v.toNat % 128) t then 1 else 0
    { s, lat := 2, fixed := c.truths fun t => c.w.x.getLsbD (p c.w.a t + 2 * p c.w.b t + 4 * p c.w.c t) }) ∧
  Completes (.pset w) (fun c s =>
    { s, lat := 2, fixed := (threads c.parts).flatMap fun t => (List.range (c.w.f.toNat + 1)).map fun i =>
        ⟨.pred (c.w.d.toNat % 128 + i) t, if (srcB s c false t).getLsbD i then 1 else 0⟩ }) ∧
  Completes (.pget w) (fun c s =>
    { s, fixed := c.results false false fun t =>
        bitsBelow (c.w.f.toNat + 1) fun i => readPred c.f (c.w.a.toNat % 128 + i) t }) ∧
  Completes (.pcol w) (fun c s =>
    let yes := maskOf fun t => bit c.parts t && (readPred c.f (c.w.a.toNat % 128) t != c.w.m.getLsbD 0)
    let v : DWord := match c.w.f.toNat with
      | 0 => yes
      | 1 => if yes = 0 then 0 else 1
      | 2 => if yes = c.parts then 1 else 0
      | 3 => if yes = 0 ∨ yes = c.parts then 1 else 0
      | _ => BitVec.ofNat 64 (countMask yes)
    { s, fixed := if c.act = 0 then [] else [⟨.uni c.w.d.toNat, v⟩] })

/-- R154, R155: GSWZ takes each participant's value from the source thread of its mode, keeping its own where the mode
names none; RDTH reads one thread's register and WRTH writes one thread's, by B modulo the width. That B, and %thr in it, is
read for the lowest active thread is the model's reading (log 27).

R156, R157: GRED folds the participants' values in thread order into D, GSCAN writes each participant's prefix
fold, without its own value where F[3] is set; 64-bit types have variable latency.

Table 8.4: a fold starts from the first value and takes one step per further one: a sum, wrapped or clamped, rounded to
nearest for floating types; an extreme; or a bitwise operation; and what an empty fold gives. -/
def Obligations.ThreadsExchangeAndFold : Prop :=
  (∀ w : Fields,
    Completes (.gswz w) (fun c s =>
      let n := if c.w.m.toNat % 8 = 0 then c.k.width else 2 ^ (c.w.m.toNat % 8)
      let from_ t :=
        let k := (srcB s c false t).toNat
        let base := t / n * n
        match c.w.f.toNat with
        | 0 => base + k % n
        | 1 => if k ≤ t % n then t - k else t
        | 2 => if t % n + k < n then t + k else t
        | 3 => base + (t % n ^^^ k % 64) % n
        | _ => base + (t % n + k) % n
      { s, fixed := c.results (Fields.w64 c.w) false fun t => vecOperand c (Fields.w64 c.w) c.w.a.toNat (from_ t) }) ∧
    Completes (.rdth w) (fun c s =>
      let t := (srcB s c false (lowest c.act)).toNat % c.k.width
      { s, fixed := if c.act = 0 then [] else [⟨.uni c.w.d.toNat, vecOperand c (Fields.w64 c.w) c.w.a.toNat t⟩] }) ∧
    Completes (.wrth w) (fun c s =>
      let t := (srcB s c false (lowest c.act)).toNat % c.k.width
      { s, fixed := if bit c.parts t then
          vecWrites (Fields.w64 c.w) c.w.d.toNat t (source s c (Fields.w64 c.w) true c.w.a t) else [] })) ∧
  (∀ w : Fields,
    (∀ i, i = .gred w ∨ i = .gscan w → ∀ s c, s.clear i = some c →
      let s0 := s.begun c
      let ty := c.w.m.toNat % 32
      let wide := wideType ty
      let fold (ts : List Nat) := foldValues ty (c.w.f.toNat % 8) (c.w.m.getLsbD 5) (ts.map fun t => (srcA s0 c wide t).toNat)
      let all := fold (threads c.parts)
      let upto t := fold ((threads c.parts).filter fun u => if c.w.f.getLsbD 3 then u < t else u ≤ t)
      let word : DWord := BitVec.ofNat 64 all.1
      let ws : List RegWrite := match i with
        | .gred _ => if c.act = 0 then [] else [⟨.uni c.w.d.toNat, if wide then word else extend32 (signedType ty) word⟩]
        | _ => c.results wide false fun t => BitVec.ofNat 64 (upto t).1
      let fl : Flags := match i with
        | .gred _ => all.2
        | _ => orFlags (c.steps.map fun t => (upto t).2)
      exec i s = .next (s0.finishIssue c
        (if wide then { s := s0, later := some ws, flags := fl }
         else { s := s0, fixed := ws, lat := if ty = 10 then 8 else 4, flags := fl })))) ∧
  (∀ (ty op : Nat) (sat : Bool),
    (∀ x, foldValues ty op sat [x] = (x, 0)) ∧
    (∀ l x y, foldValues ty op sat (l ++ [x, y]) =
      let p := foldValues ty op sat (l ++ [x])
      let q := foldStep ty op sat p.1 y
      (q.1, p.2 ||| q.2)) ∧
    (∀ f a x, fmtOf ty = some f → foldStep ty 0 sat a x = fAdd f {} a x ∧ foldStep ty 1 sat a x = fMinMax f false false a x ∧
      foldStep ty 2 sat a x = fMinMax f false true a x ∧ foldValues ty 0 sat [] = (0, 0) ∧
      foldValues ty 1 sat [] = (f.infinity false, 0) ∧ foldValues ty 2 sat [] = (f.infinity true, 0)) ∧
    (∀ sg n a x, fmtOf ty = none → intOf ty = some (sg, n) → a < 2 ^ n → x < 2 ^ n →
      let val (v : Nat) : Int := intOfBits sg n (BitVec.ofNat 64 v)
      let res (b : Bool) (v : Int) : Nat := (resBits b sg n v).toNat
      foldStep ty 0 sat a x = (res sat (val a + val x), 0) ∧ foldStep ty 1 sat a x = (res false (min (val a) (val x)), 0) ∧
      foldStep ty 2 sat a x = (res false (max (val a) (val x)), 0) ∧ foldStep ty 3 sat a x = (a &&& x, 0) ∧
      foldStep ty 4 sat a x = (a ||| x, 0) ∧ foldStep ty 5 sat a x = (a ^^^ x, 0) ∧
      (foldValues ty 0 sat []).1 = 0 ∧ val (foldValues ty 1 sat []).1 = (rangeOf sg n).2 ∧
      val (foldValues ty 2 sat []).1 = (rangeOf sg n).1 ∧ (foldValues ty 3 sat []).1 = 2 ^ n - 1 ∧
      (foldValues ty 4 sat []).1 = 0 ∧ (foldValues ty 5 sat []).1 = 0))

/-! ## Control and system instructions (chapters 16 and 20) -/

/-- R302 to R306, R295: NOP only hashes; YIELD marks its split, passes the slot and is a yield point; EXIT takes its
participants out; CALL writes the return address and RET goes to the address in sA, both with FSIG 0; FPRIO sets the
priority, saturated at 15. -/
def Obligations.ControlInstructionsComplete : Prop := ∀ (w : Fields) (a : BitVec 8) (p : BitVec 4) (u y : Bool),
  (∀ i, i = .nop w ∨ i = .nopShort u y → Completes i fun _ s => { s }) ∧
  (∀ i, i = .yield w ∨ i = .yieldShort y → Completes i fun c s =>
    { s, flow := some (c.suspendFlow .ready fun x => { x with yld := true }), point := true, pass := true }) ∧
  (∀ i, i = .exit w ∨ i = .exitShort y → Completes i fun c s =>
    { s, flow := some { run := fun f => f.exitThreads c.sige c.parts c.next } }) ∧
  Completes (.call w) (fun c s =>
    { s, fixed := [⟨.uni c.w.d.toNat, c.pc + 4 * BitVec.ofNat 64 c.w.form.words⟩]
      flow := some (goFlow c.sige (c.pc + 4 * c.w.x.signExtend 64) fun _ => 0) }) ∧
  (∀ i, i = .ret w ∨ i = .retShort a y → Completes i fun c s =>
    { s, flow := some (goFlow c.sige (uniOperand s c c.w.a.toNat uniThread &&& 0xFFFFFFFFFFFFFFFC) fun _ => 0) }) ∧
  (∀ i, i = .fprio w ∨ i = .fprioImmShort p y ∨ i = .fprioRegShort a y → Completes i fun c s =>
    { s, after := fun f => { f with fpri :=
        if c.w.d = 1 then BitVec.ofNat 4 (min 15 (uniOperand s c c.w.a.toNat uniThread).toNat) else c.w.f } })

/-- R308: SIGCK with checking on compares FSIG with the literal and, where they agree, sets FSIG without hashing itself;
where they differ the team meets cause 25.

R303: SLEEP whose deadline is satisfied at once goes on; a distant deadline traps with cause 7; any other parks the
split with SLP until the deadline. -/
def Obligations.SigckComparesAndSleepParks : Prop :=
  (∀ w : Fields,
    CompletesIf (.sigck w) (fun c _ => c.k.signatures = true → c.f.fsig = c.w.lit.setWidth 32) (fun c s =>
      { s, hashed := false, after := fun f => { f with fsig := if c.w.f.getLsbD 0 then joinSig else 0 } }) ∧
    StopsIf (.sigck w) (fun c _ => c.k.signatures = true ∧ c.f.fsig ≠ c.w.lit.setWidth 32) (fun _ _ => .team 25)) ∧
  (∀ (w : Fields) (a : BitVec 8) (r y : Bool),
    ∀ i, i = .sleep w ∨ i = .sleepShort a r y →
      let now (s : State) : DWord := BitVec.ofNat 64 s.tick
      let dl (c : Ctx) (s : State) := (if c.w.f.getLsbD 0 then now s else 0) + uniOperand s c c.w.a.toNat uniThread
      CompletesIf i (fun c s => satisfies (now s) (dl c s) = true) (fun _ s => { s, point := true }) ∧
      StopsIf i (fun c s => satisfies (now s) (dl c s) = false ∧ distant (now s) (dl c s) = true)
        (fun c _ => .trap 7 1 c.act []) ∧
      CompletesIf i (fun c s => satisfies (now s) (dl c s) = false ∧ distant (now s) (dl c s) = false) (fun c s =>
        { s, point := true, parks := true, flow := some (c.suspendFlow .parked fun x =>
            { x with slp := true, dl := dl c s, park := .sleep }) }))

/-- R307: JX and CALLX read a permitted-target table, trap with cause 10 for an index outside it, and send each
participant to its target and every other active thread to the next instruction; CALLX also writes the return
address. Without active threads no table is read, the model's reading (log 19). -/
def Obligations.IndirectJumpsStayInTheTable : Prop := ∀ (w : Fields) (callx : Bool),
  let i : Instr := if callx then .callx w else .jx w
  let n (c : Ctx) : Nat := fld c.w.x 2 0
  let index (c : Ctx) (t : Nat) : Nat := (vecOperand c false c.w.a.toNat t).toNat
  CompletesIf i (fun c _ => c.act = 0) (fun _ s => { s }) ∧
  StopsIf i (fun c _ => c.act ≠ 0 ∧ c.k.pttCount ≤ n c) (fun c _ => targetTrap (n c) false c.parts) ∧
  ∀ s c bs t rc ts, s.clear i = some c → c.act ≠ 0 → n c < c.k.pttCount →
    (s.begun c).fetchTable c (n c) = .ok (bs, t) → parseTable bs = some (rc, ts) →
    ((∀ th, bit c.parts th = true → index c th < ts.length) →
      exec i s = .next ((s.begun c).finishIssue c
        { s := t, fixed := if callx then [⟨.uni c.w.d.toNat, c.next⟩] else []
          flow := some (jumpFlow c callx rc ts fun th => if bit c.parts th then ts.getD (index c th) 0 else c.next) })) ∧
    (∀ th, th < 64 → bit c.parts th = true → ts.length ≤ index c th →
      exec i s = .next ((s.begun c).stopIssue c
        (targetTrap (n c) false (maskOf fun u => bit c.parts u && decide (ts.length ≤ index c u)))))

/-- R360: TRAP and BRK raise causes 12 and 13 with their code for the participants, and do nothing without any; both are
per-thread and NEXT only, and their other fields are zero (reason 3), BRK's whole X among them; the rule's example decodes to
`trap 0x2A`. -/
def Obligations.TrapAndBreakRaiseTheirCauses : Prop := ∀ (w : Fields) (n : BitVec 4) (y : Bool),
  CompletesIf (.trap w) (fun c _ => c.parts = 0) (fun _ s => { s }) ∧
  StopsIf (.trap w) (fun c _ => c.parts ≠ 0) (fun c _ => .trap 12 ((c.w.x.extractLsb' 0 16).setWidth 64) c.parts []) ∧
  (∀ i, i = .brk w ∨ i = .brkShort n y →
    CompletesIf i (fun c _ => c.parts = 0) (fun _ s => { s }) ∧
    StopsIf i (fun c _ => c.parts ≠ 0) (fun c _ => .trap 13 (c.w.f.setWidth 64) c.parts [])) ∧
  opFields (.trap w) = some (0x09, w) ∧ opFields (.brk w) = some (0x0C, w) ∧
  opFields (.brkShort n y) = some (0x0C, { shortWord false y 0 0 0 with f := n }) ∧
  ((Instr.trap w).wf = true → w.form = .ext ∧ w.u = false ∧ w.seq = 0 ∧ w.x.toNat < 65536) ∧
  ((Instr.brk w).wf = true → w.form = .ext ∧ w.u = false ∧ w.seq = 0) ∧
  (w.form = .ext → w.u = false → (w.d ≠ 0 ∨ w.a ≠ 0 ∨ w.b ≠ 0 ∨ w.c ≠ 0 ∨ w.m ≠ 0 ∨ (w.seq = 0 ∧ 65536 ≤ w.x.toNat)) →
    encodingReason 0x09 w none = some 3 ∧ encodingReason 0x0C w none = some 3) ∧
  (w.form = .ext → w.u = false → w.f ≠ 0 → encodingReason 0x09 w none = some 3) ∧
  (w.form = .ext → w.u = false → w.seq = 0 → w.x ≠ 0 → encodingReason 0x0C w none = some 3) ∧
  decode ([0x00000091, 0x007F0000, 0x00000A80].flatMap wordBytes) =
    .ok (.trap { shortWord false false 0 0 0 with form := .ext, x := 0x2A }) 3

/-- R361: TRET outside a handler does nothing; inside one it frees the handler's spill block, ends the waits of the
handler's splits, and resumes the frozen table at TPC or, with F[0] = 1, behind the instruction at TPC, which is
hashed, and whose fetch may fault. No fetch is made for an interrupted split that the handler's exits have emptied, nor does
a fibre go back to a release that has freed its items, unless it resumes there (R242; the model's readings, log 69).

R357, R361: TRET at the trap's own pc undoes the entry: the table comes back split by split, with its pcs, masks and
states, and FSIG with it. -/
def Obligations.TrapReturnRestoresTheFrozenTable : Prop :=
  (∀ (w : Fields) (k y : Bool),
    ∀ i, i = .tret w ∨ i = .tretShort k y →
      let ends (c : Ctx) (s : State) (z : Frozen) (pc : DWord) : State :=
        let t := (s.freeArea c.f.hspill).withdraw fun a => match a with
          | .thread r key _ => r == c.r && decide (128 ≤ key)
          | _ => false
        if z.run ∉ z.emptied ∧ ∃ x, findSplit z.splits z.run = some x ∧ x.pc = pc then t else t.forgetFreed c.r
      CompletesIf i (fun c _ => c.f.frozen = none) (fun _ s => { s }) ∧
      ∀ s c z, s.clear i = some c → c.f.frozen = some z →
        let skips := c.w.f.getLsbD 0 = true ∧ z.run ∉ z.emptied
        (¬skips → exec i s = .next ((s.begun c).finishIssue c
          { s := ends c (s.begun c) z c.f.tpc, flow := some { run := fun f => f.leave z c.f.tpc z.fsig } })) ∧
        (∀ x t, skips → (s.begun c).fetchWord c.space c.f.tpc.toNat = .ok (x, t) →
          let next := c.f.tpc + BitVec.ofNat 64 (4 * wordCount x)
          exec i s = .next ((s.begun c).finishIssue c
            { s := ends c t z next, flow := some { run := fun f => f.leave z next (hash z.fsig x) } })) ∧
        ∀ cause reason, skips → (s.begun c).fetchWord c.space c.f.tpc.toNat = .fault cause reason →
          exec i s = .next ((s.begun c).stopIssue c (.lodge cause reason c.act [(0, c.f.tpc)]))) ∧
  (∀ (f : Fibre) (x : Split) (t : TrapInfo),
    f.frozen = none → f.run? = some x → x.slp = false → x.park = .none → t.pc = x.pc →
    (∀ y ∈ f.splits, y.mask ≠ 0 ∧ (y.st = .running → y = x)) → (f.splits.map (·.idx)).Nodup →
      ∃ z g, (f.enter t).frozen = some z ∧ (f.enter t).leave z t.pc z.fsig = .ok g ∧ g.fsig = f.fsig ∧ g.frozen = none ∧
        g.splits.map (fun y => { y with hw := none }) = f.splits.map (fun y => { y with hw := none }) ∧
        (g.run?).map (·.idx) = some x.idx)

/-- R82, R363: SRD reads a system register into the uniform D, or each thread's TADDR into the pair D; SWR writes sA
to one; where the register is FFLAGS both wait, their split parked, until every floating-point and conversion instruction
issued before has written its result, one of fixed latency too.

R79 to R81: what the fibre's system registers read as, and what writes of them keep. -/
def Obligations.SystemRegistersReadAndWritten : Prop :=
  (∀ (w : Fields) (a d : BitVec 8) (u y : Bool),
    let waits (c : Ctx) (n : Nat) := n = 0x04 ∧ c.f.outstanding.any (·.float) = true
    (∀ i, i = .srd w ∨ i = .srdShort a d u y → CompletesIf i (fun c _ => ¬waits c c.w.a.toNat) (fun c s =>
      { s, fixed := c.results true false fun t => if c.w.u then sysReg s c c.w.a.toNat else look 0 c.f.taddr t })) ∧
    (∀ i, i = .swr w ∨ i = .swrShort a d y → CompletesIf i (fun c _ => ¬waits c c.w.d.toNat) (fun c s =>
      { s := s.writeSysReg c c.w.d.toNat (uniOperand s c c.w.a.toNat uniThread)
        after := fun f => f.writeReg c.w.d.toNat (uniOperand s c c.w.a.toNat uniThread) })) ∧
    (let floats (c : Ctx) : List Nat := (c.f.outstanding.filter (·.float)).map (·.id)
     (∀ i, i = .srd w ∨ i = .srdShort a d u y → StallsIf i (fun c _ => waits c c.w.a.toNat) floats) ∧
     ∀ i, i = .swr w ∨ i = .swrShort a d y → StallsIf i (fun c _ => waits c c.w.d.toNat) floats) ∧
    ∀ (s : State) (c : Ctx) (x : Done), raisesFlags c.op c.w = true → x.remote = [] → x.later = none → c.hold < x.lat →
      ∀ f, s.fibre? c.r = some f → ∃ g, (s.deliver c x).fibre? c.r = some g ∧ g.fflags = f.fflags ∧
        ∃ p ∈ g.outstanding, p.float = true ∧ p.flags = x.flags ∧ p.due = some (s.coreCycle c.core + x.lat)) ∧
  (∀ (s : State) (c : Ctx) (f : Fibre) (v : DWord),
    (sysReg s c 0x01 = c.x.mask ∧ sysReg s c 0x02 = c.f.fpri.setWidth 64 ∧ sysReg s c 0x04 = c.f.fflags.setWidth 64 ∧
      sysReg s c 0x05 = c.f.tvec ∧ sysReg s c 0x06 = c.f.tpc ∧ sysReg s c 0x07 = c.f.tcause ∧ sysReg s c 0x08 = c.f.tinfo ∧
      sysReg s c 0x09 = c.f.tmask) ∧
    ((f.writeReg 0x02 v).fpri = v.extractLsb' 0 4 ∧ (f.writeReg 0x03 v).fsig = v.extractLsb' 0 32 ∧
      (f.writeReg 0x04 v).fflags = v.extractLsb' 0 5 ∧ (f.writeReg 0x05 v).tvec = v &&& 0xFFFFFFFFFFFFFFFC ∧
      (f.writeReg 0x06 v).tpc = v &&& 0xFFFFFFFFFFFFFFFC) ∧
    (∀ n, n ∉ [0x02, 0x03, 0x04, 0x05, 0x06] → f.writeReg n v = f) ∧
    (16 ≤ (clampWdt (v.setWidth 6)).toNat ∧ (clampWdt (v.setWidth 6)).toNat ≤ 40))

/-- R364, R369, R365: SYSC writes an entry for each participant while the ring has room, in order of threads, once the
core's stores are acknowledged, and holds its fibre until every answer is back, when it ends; TCKPT does nothing without
rollback, waits for the results outstanding, holds its fibre until every fibre of the team has arrived, whose last opens
the interval, and then goes on; TLBINV, once every earlier store is performed, shoots down in every column. The marks that
SYSC leaves for its end, and what TCKPT does when it issues again, are the model's readings (log 17, 37), and so is what a
page shoot-down drops (log 30). -/
def Obligations.SyscallCheckpointAndShootdown : Prop := ∀ (w : Fields) (y : Bool),
  CompletesIf (.sysc w) (fun c _ => c.parts = 0) (fun _ s => { s, point := true }) ∧
  CompletesIf (.sysc w) (fun c _ => c.parts ≠ 0) (fun c s =>
    let t := syscRun s c
    let u := t.1.writeSysc c t.2
    if u.2.todo = 0 ∧ u.2.entries = [] then
      { s := u.1, point := true, after := fun f => { f with sysc := none, counts := f.counts.complete 3 } }
    else
      { s := u.1, point := true, parks := true
        flow := some { run := fun f => .ok { f.markAgain with hold := .syscall, sysc := some u.2 } } }) ∧
  (∀ (s : State) (c : Ctx) (q : SyscRun),
    let x := s.col c.col
    let loc := x.scbase.toNat + 64 * ((s.wordAt x.scprod.toNat).toNat % 2 ^ x.scsize)
    let th := lowest q.todo
    (((s.drainHome c.core).core c.core).flight ≠ [] → s.writeSysc c q = (s.drainHome c.core, q)) ∧
    ((s.core c.core).wcb = [] → (s.core c.core).flight = [] →
      (q.todo = 0 ∨ s.syscRingFull c.col = true → s.writeSysc c q = (s, q)) ∧
      (q.todo ≠ 0 → s.syscRingFull c.col = false →
        s.writeSysc c q = State.writeSysc ((s.writeLoc loc (syscEntry c q.number th)).addLoc x.scprod.toNat 1) c
          { q with todo := q.todo &&& ~~~(1#64 <<< th), entries := q.entries ++ [(th, loc)] })) ∧
    (s.syscRingFull c.col = true ↔ x.scsize = 0 ∨ (s.wordAt x.scprod.toNat - x.sccons).toNat = 2 ^ x.scsize)) ∧
  (∀ (c : Ctx) (n : BitVec 16) (th : Nat), th < 64 →
    let b := syscEntry c n th
    let word (o k : Nat) : Nat := natLE ((b.drop o).take k)
    b.length = 64 ∧ word 0 8 = c.r.team.seq % 2 ^ 56 ∧ word 8 4 = c.r.team.idx % 2 ^ 32 ∧ word 0x0C 2 = c.core % 65536 ∧
      word 0x0E 1 = c.r.gid % 256 ∧ word 0x0F 1 = c.r.fid % 256 ∧ word 0x10 1 = th ∧ word 0x11 1 = 0 ∧ word 0x12 2 = n.toNat ∧
      word 0x14 4 = 0 ∧ (∀ i < 4, word (0x18 + 4 * i) 4 = (readVec c.g c.f (c.w.a.toNat + i) th).toNat) ∧ word 0x28 24 = 0) ∧
  (∀ i, i = .tckpt w ∨ i = .tckptShort y →
    CompletesIf i (fun c _ => c.k.rollback = false) (fun _ s => { s }) ∧
    CompletesIf i (fun c _ => c.k.rollback = true ∧ c.f.ckptPass = true) (fun c s =>
      { s, hashed := !c.f.ckptBack
        after := fun f => { f with ckptPass := false, ckptBack := false, fsig := if c.f.ckptBack then 0 else f.fsig } }) ∧
    StallsIf i (fun c _ => c.k.rollback = true ∧ c.f.ckptPass = false ∧ ∃ p ∈ c.f.outstanding, p.due = none)
      (fun c => (c.f.outstanding.filter (·.due.isNone)).map (·.id)) ∧
    HoldsIf i (fun c _ => c.k.rollback = true ∧ c.f.ckptPass = false ∧ ∀ p ∈ c.f.outstanding, p.due ≠ none)
      (fun _ s => (s, .checkpoint))) ∧
  (∀ (s : State) (r : TeamRef) (t : Team), s.team? r = some t → t.allArrived = true →
    ∃ u, (s.openIfArrived r).team? r = some u ∧
      u.interval = some { groups := u.groups.map recordGroup, slots := t.tiles, regions := t.regions } ∧
      u.groups.map (·.fibres.map (·.hold)) =
        t.groups.map (·.fibres.map fun f => if f.hold = .checkpoint then .none else f.hold) ∧
      u.groups.map (·.fibres.map (·.ckptPass)) =
        t.groups.map (·.fibres.map fun f => if f.hold = .checkpoint then true else f.ckptPass)) ∧
  CompletesIf (.tlbinv w) (fun _ s => s.flushStores.allAcked = true) (fun c s =>
    let va := some (uniOperand s c c.w.a.toNat uniThread).toNat
    { s := match c.w.f.toNat % 4 with
        | 0 => s.flushStores.shoot (some c.asid) va
        | 1 => s.flushStores.shoot (some c.asid) none
        | 2 => s.flushStores.shoot (some ((uniOperand s.flushStores c c.w.b.toNat uniThread).setWidth 16).toNat) va
        | _ => s.flushStores.shoot none none }) ∧
  AwaitsIf (.tlbinv w) (fun _ s => s.flushStores.allAcked = false)
    (fun _ s => (s.flushStores, s.flushStores.cores.map (·.1))) ∧
  (∀ (s : State) (asid va : Option Nat), (∀ x ∈ s.waiters, s.shootsWait asid va x = false) →
    (∀ k, ((s.shoot asid va).core k).tlb = (s.core k).tlb.filter fun e => !shootsEntry asid va e) ∧
    ∀ k, ((s.shoot asid va).col k).tlb = (s.col k).tlb.filter fun e => !shootsEntry asid va e)

/-! ## Memory instructions (chapter 11) -/

/-- R213, R215, R216: a load whose checks pass performs its accesses in thread order and delivers each value with
variable latency; under `.split` a load of which some active threads miss divides its split, and the threads that do
not miss go on at once (R214); without participants it does nothing. One to a STRONG page first waits for the core's
stores (R171, R191). The moment at which a load reads is the model's (log 65).

R185, R206, R207, R209 to R211, R215, R216: the values: each thread's bytes are those of its access, made after those of
the threads before it, and give its destination the value of Table 11.4. The bytes of a run of a local page are those that
L1 holds of its line, else those of memory, and those of a run of scratchpad are the team's, zero at 0x10 to 0x3F. -/
def Obligations.LoadsDeliverWhatTheyRead : Prop := (∀ w : Fields,
  ∀ x ∈ [(Instr.ld w, false), (.lds w, true), (.ldu w, false)],
    CompletesIf x.1 (fun c s => requests s c x.2 = []) (fun _ s => { s }) ∧
    ∀ s c r, s.clear x.1 = some c → (s.begun c).mayLoad c x.2 r →
      let s0 := (s.begun c).strongFirst c r
      let remote := remotePlaces r false
      let reload := s0.reloadOf c r
      let waits := anyStrong r = true ∧ s0.acked c.core = false
      (waits → exec x.1 s = .next (s0.awaitAcks c [c.core])) ∧
      (¬waits → ¬s0.divides c r → exec x.1 s = .next ((s.begun c).finishIssue c
        { s := (s0.performLoads c r).2, later := some (s0.performLoads c r).1, remote, reload })) ∧
      (¬waits → s0.divides c r →
        let late (v : RegWrite) : Bool := match v.reg with
          | .vec _ t => bit (s0.missing c r) t
          | _ => false
        exec x.1 s = .next ((s.begun c).finishIssue c
          { s := (s0.performLoads c r).2, fixed := (s0.performLoads c r).1.filter fun v => !late v, lat := 0
            later := some ((s0.performLoads c r).1.filter late), remote, reload
            flow := some (splitFlow c (s0.missing c r) (s0.performLoads c r).2.nextId) }))) ∧
  (∀ (s : State) (c : Ctx) (r : Located),
    let sz := sizeOf_ c.w
    let d := c.w.d.toNat
    let value (n : Nat) (bs : List Byte) : DWord :=
      BitVec.ofInt 64 (intOfBits (sz == 1 || sz == 3) n (BitVec.ofNat 64 (natLE (bs.take (n / 8)))))
    let before (n : Nat) : State := (r.take n).foldl (fun u x => (u.loadSpans c (hintOf c.w) x.2).2) s
    let write (t : Nat) (bs : List Byte) : List RegWrite :=
      if sz = 6 then [⟨.uni d, value 64 bs⟩, ⟨.uni (d + 1), value 64 (bs.drop 8)⟩]
      else if c.w.u then [⟨.uni d, value (8 * sizeBytes sz) bs⟩]
      else if sz = 5 then [⟨.vec d t, low32 (value 64 bs)⟩, ⟨.vec (d + 1) t, value 64 bs >>> 32⟩]
      else [⟨.vec d t, value (8 * sizeBytes sz) bs⟩]
    (∀ x ∈ r, (x.2.map (·.len)).sum = sizeBytes sz) → sz < 7 → (sz = 6 → c.w.u = true) →
      (s.performLoads c r).1.map (fun v => (v.reg, v.kept)) = ((List.range r.length).flatMap fun n =>
        match r[n]? with
        | some x => (write x.1.t ((before n).loadSpans c (hintOf c.w) x.2).1)
        | none => []).map fun v => (v.reg, v.kept)) ∧
  (∀ (s : State) (c : Ctx) (hint pos len : Nat),
    (∀ va q, q.peer = none → q.type ≠ .strong → q.loc % 128 + len ≤ 128 → isLocal q.loc = true →
      (s.core c.core).wcb = [] → (s.core c.core).flight = [] → s.poison = [] → (∀ l ∈ (s.core c.core).l1, l.bad = []) →
      let t := s.touch c.space .load va
      (s.loadSpans c hint [{ pos, len, home := .mem va q }]).1 =
        match (if q.type = .normal then t.l1Find c.core q.loc else none) with
        | some l => (l.bytes.drop (q.loc % 128)).take len
        | none => t.bytesAt q.loc len) ∧
    (∀ o u, s.team? c.r.team = some u → u.pendingLines = [] →
      (s.loadSpans c hint [{ pos, len, home := .scratch o }]).1 = (List.range len).map fun i =>
        if 0x10 ≤ o + i ∧ o + i < 0x40 then 0 else byteAt u.scratch (o + i)))

/-- R213, R215, R216, R196: a store whose checks pass performs its accesses in thread order; a release first drains the
buffer where its scope reaches other cores, from column scope on or at team scope in a pair (the model's reading, log 22),
and parks its split, the model's choice (log 87), until its stores are acknowledged; one to a STRONG page waits for the
core's stores before it, and its split for its own (R171, R191); a store to another package makes the interval unsafe.

R179, R209: the sectors of local memory that its threads cover together lose their marks. -/
def Obligations.StoresPerformInThreadOrder : Prop :=
  (∀ w : Fields, ∀ x ∈ [(Instr.st w, false), (.sts w, true), (.stu w, false)],
    CompletesIf x.1 (fun c s => requests s c x.2 = []) (fun _ s => { s }) ∧
    ∀ s c r, s.clear x.1 = some c → (s.begun c).mayStore c x.2 r →
      let s0 := s.begun c
      let reaches := ordOf c.w = 2 ∧ drains c.k.pair (scopeOf c.w) = true
      let s1 := (if reaches then s0.drainHome c.core else s0).strongFirst c r
      let waits := (reaches ∨ anyStrong r = true) ∧ s1.acked c.core = false
      let s2 := if anyRemote r then s1.makeUnsafe c.r.team else s1
      let t := r.foldl (fun u q => u.storeSpans c q.2 (storeDatum s0 c q.1.t)) s2
      let u := t.clearMarks c.core (coveredSectors r)
      (waits → exec x.1 s = .next (s1.awaitAcks c [c.core])) ∧
      (¬waits → anyStrong r = false ∨ u.acked c.core = true → exec x.1 s = .next (s0.finishIssue c { s := u })) ∧
      (¬waits → anyStrong r = true → u.acked c.core = false → exec x.1 s = .next (s0.finishIssue c
        { s := u, parks := true, flow := some (c.suspendFlow .parked fun y => { y with park := .acks [c.core] }) }))) ∧
  (∀ (s : State) (core : Nat) (l : Located),
    let u := s.clearMarks core (coveredSectors l)
    u.mem = s.mem ∧ u.teams = s.teams ∧ (∀ k, k ∈ u.poison ↔ k ∈ s.poison ∧ k ∉ coveredSectors l) ∧
    ∀ k, k ∈ coveredSectors l ↔ ∀ i < 32, ∃ x ∈ l, ∃ p ∈ x.2, ∃ va q, p.home = .mem va q ∧
      q.type ≠ .device ∧ q.type ≠ .strong ∧ q.combines = false ∧ q.loc ≤ 32 * k + i ∧ 32 * k + i < q.loc + p.len)

/-- R218, R219: an atomic whose checks pass modifies its locations in thread order, each result being the old value,
and delivers them with variable latency. The moment at which an atomic is performed is the model's (log 65).

R188 to R190, R196, R218: a releasing one first drains the buffer where it or its scope reaches other cores, and waits for
acknowledgements, whose extent and manner are the model's (log 22, 87); an ACAS none of whose comparisons succeeds
releases nothing.

Table 11.9: the values that atomics leave.

R161, R218: an atomic reads the old value at its home and leaves there the new one, or nothing new where there is none; at
scratchpad offsets 0x10 to 0x3F it returns 0 and changes nothing. -/
def Obligations.AtomicsReturnOldValues : Prop :=
  (∀ w : Fields,
    ∀ i ∈ [Instr.aadd w, .amin w, .amax w, .alog w, .axchg w, .acas w, .afadd w],
      CompletesIf i (fun c _ => c.steps = []) (fun _ s => { s }) ∧
      ∀ s c r, s.clear i = some c → (s.begun c).mayModify c r →
        let s0 := s.begun c
        let scope := scopeOf c.w
        let writes : Bool := c.op != 0xBB || (s0.atomics c s0 r).1.any fun x =>
          x.2.toNat == (srcC s0 c (atomicWide c.w) x.1).toNat
        let home : Bool := c.w.f.getLsbD 3 && writes && (anyRemote r || drains c.k.pair scope)
        let s' := if home then s0.drainHome c.core else s0
        let s1 := if 2 < scope ∨ anyRemote r = true then s'.makeUnsafe c.r.team else s'
        let one (a : Sparse DWord × State) (q : Req × List Span) : Sparse DWord × State :=
          let v := a.2.atomicAt c (homeOf q.2) (srcB s0 c (atomicWide c.w) q.1.t).toNat (srcC s0 c (atomicWide c.w) q.1.t).toNat
          (a.1 ++ [(q.1.t, BitVec.ofNat 64 v.1)], v.2)
        let out := r.foldl one ([], s1)
        (home = true → s'.acked c.core = false → exec i s = .next (s'.awaitAcks c [c.core])) ∧
        (home = false ∨ s'.acked c.core = true → exec i s = .next (s0.finishIssue c
          { s := if c.w.f.getLsbD 2 then out.2.acquire c.core scope else out.2
            later := some (c.results (atomicWide c.w) (c.op != 0xBC && !c.w.f.getLsbD 0) fun t => look 0 out.1 t)
            remote := remotePlaces r true }))) ∧
  (∀ (w : Fields) (m b k : Nat),
    let n := 8 * atomicBytes w
    let sg := !w.f.getLsbD 0
    let val (x : Nat) : Int := intOfBits sg n (BitVec.ofNat 64 x)
    m < 2 ^ n → b < 2 ^ n →
      atomicNew 0xB6 w m b k = some ((m + b) % 2 ^ n) ∧
      (∃ v, atomicNew 0xB7 w m b k = some v ∧ (v = m ∨ v = b) ∧ val v = min (val m) (val b)) ∧
      (∃ v, atomicNew 0xB8 w m b k = some v ∧ (v = m ∨ v = b) ∧ val v = max (val m) (val b)) ∧
      atomicNew 0xB9 w m b k = some (if w.c = 0 then m &&& b else if w.c = 1 then m ||| b else m ^^^ b) ∧
      atomicNew 0xBA w m b k = some b ∧
      atomicNew 0xBB w m b k = (if m = k then some b else none) ∧
      atomicNew 0xBC w m b k = some (fAdd (if w.f.getLsbD 1 then fp64 else fp32) {} m b).1) ∧
  (∀ (s : State) (c : Ctx) (b k : Nat),
    let n := atomicBytes c.w
    (∀ va p, let u := s.homeOpen c .rmw (.mem va p) n
      let x := s.atomicAt c (.mem va p) b k
      let old := numAt u.mem p.loc n
      x.1 = old ∧ numAt x.2.mem p.loc n = ((atomicNew c.op c.w old b k).getD old) % 2 ^ (8 * n) ∧
      ((s.core c.core).wcb = [] → (s.core c.core).flight = [] → u.mem = (s.touch c.space .rmw va).mem)) ∧
    (∀ o t, s.team? c.r.team = some t → t.pendingLines = [] → o % n = 0 →
      let x := s.atomicAt c (.scratch o) b k
      let old := numAt t.scratch o n
      (0x10 ≤ o → o < 0x40 → x.1 = 0 ∧ ∃ u, x.2.team? c.r.team = some u ∧ u.scratch = t.scratch) ∧
      (¬(0x10 ≤ o ∧ o < 0x40) → x.1 = old ∧ ∃ u, x.2.team? c.r.team = some u ∧
        numAt u.scratch o n = ((atomicNew c.op c.w old b k).getD old) % 2 ^ (8 * n) ∧
        ∀ a, (a < o ∨ o + n ≤ a) → byteAt u.scratch a = byteAt t.scratch a)))

/-- R220 to R223: FENCE drains the buffer where its stores are to be seen on other cores (below package scope the
model's reading, log 22), parks its split until they are acknowledged and, but for a release, empties L1 from team scope
up; PF never faults and changes no byte of memory; CCTL drops the L1 lines, and ICINV the instruction blocks, of the
named range, or all. Which blocks those are is the model's reading (log 29).

R287: RFLUSH, a release at its scope, drops the record-cache entries of its launch that it names in every core of its
scope. -/
def Obligations.FencesAndFlushes : Prop :=
  (∀ w : Fields,
    let drained (c : Ctx) (s : State) : State :=
      if 4 ≤ scopeOf c.w ∨ (c.w.f ≠ 1 ∧ drains c.k.pair (scopeOf c.w) = true) then s.drain c.core else s
    let waits (c : Ctx) (s : State) : Prop :=
      (4 ≤ scopeOf c.w ∨ (c.w.f ≠ 1 ∧ drains c.k.pair (scopeOf c.w) = true)) ∧ ((drained c s).core c.core).flight ≠ []
    CompletesIf (.fence w) (fun c s => s.scopeMissing (scopeOf c.w) = false ∧ ¬waits c s) (fun c s =>
      { s := if c.w.f = 0 ∨ scopeOf c.w < 2 then drained c s else (drained c s).modCore c.core fun k => { k with l1 := [] } }) ∧
    AwaitsIf (.fence w) (fun c s => s.scopeMissing (scopeOf c.w) = false ∧ waits c s) (fun c s => (drained c s, [c.core])) ∧
    StopsIf (.fence w) (fun c s => s.scopeMissing (scopeOf c.w) = true)
      (fun c _ => .trap 11 (BitVec.ofNat 64 (scopeOf c.w)) c.act []) ∧
    Completes (.pf w) (fun c s => { s := (requests s c false).foldl (fun u q => u.prefetch c q) s }) ∧
    (∀ (s : State) (c : Ctx) (q : Req), (s.prefetch c q).mem = s.mem ∧ (s.prefetch c q).poison = s.poison) ∧
    Completes (.cctl w) (fun c s =>
      let va := (uniOperand s c c.w.a.toNat uniThread).toNat
      let n := (uniOperand s c c.w.b.toNat uniThread).toNat
      let named (l : CacheLine) : Bool := (s.rangeRuns c.space va n).any fun r => r.1 < l.addr + 128 && l.addr < r.1 + r.2
      { s := s.modCore c.core fun k => { k with l1 := if c.w.f = 0 then k.l1.filter (fun l => !named l) else [] } }) ∧
    Completes (.icinv w) (fun c s =>
      let va := (uniOperand s c c.w.a.toNat uniThread).toNat
      let n := (uniOperand s c c.w.b.toNat uniThread).toNat
      { s := s.modCore c.core fun k => { k with
          icache := if c.w.f = 0 then k.icache.filter (fun l => !blockIn va n l) else [] } }) ∧
    (∀ (va n : Nat) (l : CacheLine), n < 2 ^ 64 → va < 2 ^ 64 → l.addr % 32 = 0 →
      (blockIn va n l = true ↔ ∃ i < n, (va + i) % 2 ^ 64 / 32 = l.addr % 2 ^ 64 / 32)) ∧
    (∀ (s : State) (w : Space) (va n : Nat), va + n ≤ 2 ^ 64 → ∀ a < n, ∀ p, s.xlate w .load (max va ((va + a) / 4096 * 4096)) = .ok p →
      ∃ x ∈ s.rangeRuns w va n, x.1 = p.loc ∧ (va + a) - max va ((va + a) / 4096 * 4096) < x.2)) ∧
  (∀ w : Fields,
    StopsIf (.rflush w) (fun c s => s.scopeMissing (scopeOf c.w) = true)
      (fun c _ => .trap 11 (BitVec.ofNat 64 (scopeOf c.w)) c.act []) ∧
    let released (c : Ctx) (s : State) : State := s.release c.core c.k.pair (scopeOf c.w)
    AwaitsIf (.rflush w) (fun c s => s.scopeMissing (scopeOf c.w) = false ∧
      (released c s).unreleased c.core c.k.pair (scopeOf c.w) = true) (fun c s => (released c s, [c.core])) ∧
    CompletesIf (.rflush w) (fun c s => s.scopeMissing (scopeOf c.w) = false ∧
        (released c s).unreleased c.core c.k.pair (scopeOf c.w) = false) (fun c s =>
      let h := fld (uniOperand s c c.w.a.toNat uniThread) 23 0
      let gone (e : RecordEntry) : Bool :=
        e.seq == c.r.team.seq && (c.w.f.getLsbD 0 || (!e.table && e.num == h))
      let t := released c s
      let flush (x : Nat × Core) : Nat × Core :=
        (x.1, if scopeCores c (scopeOf c.w) x.1 then { x.2 with records := x.2.records.filter fun e => !gone e } else x.2)
      { s := { t with cores := t.cores.map flush } }))

/-- R8, R179, R327: a write at a location leaves its bytes there and, while no checkpoint protects a page (R424), every other
byte as it was; it keeps the memory's canonical form, and clears the poison marks of the sectors that it covers whole; words
are read back lowest byte first.

R160, R177, R229, R327: writes of a team's scratchpad, operand slots and accumulator cells leave their values there and
everything else in the team's memories as it was. -/
def Obligations.MemoryWritesAreExact : Prop :=
  (∀ (s : State) (a : Nat) (bs : List Byte),
    let free := ∀ k ∈ s.ckpt, ∀ p ∈ k.2.pages, p.isProtected = false
    (∀ x, a ≤ x → x < a + bs.length → byteAt (s.writeLoc a bs).mem x = bs.getD (x - a) 0) ∧
    (free → ∀ x, (x < a ∨ a + bs.length ≤ x) → byteAt (s.writeLoc a bs).mem x = byteAt s.mem x) ∧
    (Memory.wf s.mem = true → Memory.wf (s.writeLoc a bs).mem = true) ∧
    (∀ x, a ≤ 32 * x → 32 * x + 32 ≤ a + bs.length → x ∉ (s.writeLoc a bs).poison) ∧
    (free → ∀ x, x ∈ (s.writeLoc a bs).poison ↔ x ∈ s.poison ∧ ¬(a ≤ 32 * x ∧ 32 * x + 32 ≤ a + bs.length)) ∧
    (∀ v : DWord, (s.writeNum a 8 v.toNat).wordAt a = v) ∧
    (free → ∀ (v : DWord) b, b + 8 ≤ a ∨ a + 8 ≤ b → (s.writeNum a 8 v.toNat).wordAt b = s.wordAt b)) ∧
  (∀ (s : State) (r : TeamRef) (t : Team) (o slot : Nat) (bs : List Byte) (old : Bool),
    s.team? r = some t →
    (∃ u, (s.writeScratch r o bs old).team? r = some u ∧ u.slotBytes = t.slotBytes ∧ u.cells = t.cells ∧
      (∀ x, byteAt u.scratch x = if o ≤ x ∧ x < o + bs.length then bs.getD (x - o) 0 else byteAt t.scratch x) ∧
      (Memory.wf t.scratch = true → Memory.wf u.scratch = true)) ∧
    (∃ u, (s.writeSlot r slot o bs old).team? r = some u ∧ u.scratch = t.scratch ∧ u.cells = t.cells ∧
      (∀ x, byteAt u.slotBytes x =
        if slotKey slot o ≤ x ∧ x < slotKey slot o + bs.length then bs.getD (x - slotKey slot o) 0 else byteAt t.slotBytes x) ∧
      (Memory.wf t.slotBytes = true → Memory.wf u.slotBytes = true)) ∧
    (∀ i j v, j < 256 → ∃ u, (s.writeCells r [(i, j, v)] old).team? r = some u ∧ u.scratch = t.scratch ∧
      u.slotBytes = t.slotBytes ∧ u.cell i j = v.toNat ∧ ∀ i' j', j' < 256 → (i', j') ≠ (i, j) → u.cell i' j' = t.cell i' j'))

/-- R173, R209, R213, R216: the store of one run, once located, leaves the run's bytes of its datum at the run's home
and every other byte of memory and of the team's scratchpad as it was, but for the leaf PTE that translates it, whose A
and D bits alone may rise; a run in scratchpad stores nothing at 0x10 to 0x3F and changes no other byte of memory. All
while no checkpoint protects a page, which a store would first copy aside (R424).

R171, R196, R212: a store that combines leaves memory as its translation does, and its bytes in the core's buffer. -/
def Obligations.StoresTouchOnlyTheirBytes : Prop := ∀ (s : State) (c : Ctx) (p : Span) (bs : List Byte),
  (∀ k ∈ s.ckpt, ∀ x ∈ k.2.pages, x.isProtected = false) →
  let t := s.storeSpans c [p] bs
  let part := (bs.drop p.pos).take p.len
  (∀ va q, p.home = .mem va q → q.peer = none → q.type ≠ .strong → q.type ≠ .wc → (s.core c.core).wcb = [] →
      (s.core c.core).flight = [] → p.pos + p.len ≤ bs.length → p.len ≤ 16 →
    (∀ i < p.len, byteAt t.mem (q.loc + i) = part.getD i 0) ∧
    (∀ a, (a < q.loc ∨ q.loc + p.len ≤ a) → (∀ l, s.leaf c.space .store va = .ok l → a < l.loc ∨ l.loc + 8 ≤ a) →
      byteAt t.mem a = byteAt s.mem a) ∧
    (∀ l, s.leaf c.space .store va = .ok l → q.loc + p.len ≤ l.loc ∨ l.loc + 8 ≤ q.loc →
      t.wordAt l.loc = s.wordAt l.loc ∨ t.wordAt l.loc = s.wordAt l.loc ||| 0xC0) ∧
    (t.teams.map Team.memories = s.teams.map Team.memories)) ∧
  (∀ va q, p.home = .mem va q → q.combines = true → q.loc % 128 + p.len ≤ 128 → 0 < p.len → p.len ≤ 16 →
      p.pos + p.len ≤ bs.length → (s.core c.core).wcb = [] → (s.core c.core).flight = [] →
    t.mem = (s.touch c.space .store va).mem ∧ ∃ l, (t.core c.core).wcb = [l] ∧ l.loc = q.loc / 128 * 128 ∧
      ∀ i < p.len, l.byte? (q.loc % 128 + i) = some (part.getD i 0)) ∧
  (∀ o u, p.home = .scratch o → s.team? c.r.team = some u → u.pendingLines = [] → p.pos + p.len ≤ bs.length →
    t.mem = s.mem ∧ ∃ v, t.team? c.r.team = some v ∧
      ∀ x, byteAt v.scratch x =
        if o ≤ x ∧ x < o + p.len ∧ ¬(0x10 ≤ x ∧ x < 0x40) then part.getD (x - o) 0 else byteAt u.scratch x)

/-! ## Counters (chapter 18) -/

/-- R325: a value satisfies a threshold, or the threshold is distant from it, or it may be waited for; the three
exclude each other, and a waited-for threshold is 1 to 2^62 ahead. -/
def Obligations.ThresholdsAreMetOrAheadOrDistant : Prop := ∀ v t : DWord,
  (satisfies v t = true ↔ (v - t).toNat < 2 ^ 63) ∧
  (distant v t = true ↔ 2 ^ 62 < (t - v).toNat ∧ (t - v).toNat ≤ 2 ^ 63) ∧
  ¬(satisfies v t = true ∧ distant v t = true) ∧
  (satisfies v t = false → distant v t = false → 1 ≤ (t - v).toNat ∧ (t - v).toNat ≤ 2 ^ 62)

/-- R345, R348, R349: where their counters open, CADD adds in thread order and delivers old values if asked; CREAD and CPOLL
deliver values and tests with variable latency; CINIT writes where nobody waits and traps with cause 8 where somebody
does. How far CADD's release reaches and how it waits is the model's (log 22, 87). -/
def Obligations.CountersAddReadPollAndSet : Prop := ∀ w : Fields,
  (∀ i ∈ [Instr.cadd w, .cpoll w, .cread w], CompletesIf i (fun c _ => c.steps = []) (fun _ s => { s })) ∧
  (∀ i ∈ [Instr.cadd w, .cpoll w, .cread w, .cinit w], ∀ s c e, s.clear i = some c → c.steps ≠ [] →
    (s.begun c).openCounters c none = .error e → exec i s = .next ((s.begun c).stopIssue c e)) ∧
  (∀ s c l t, s.clear (.cadd w) = some c → c.steps ≠ [] → (s.begun c).openCounters c none = .ok (l, t) →
    (s.begun c).moves (remotesOf l true) = false →
    let home : Bool := !(remotesOf l true).isEmpty || drains c.k.pair (scopeOf c.w)
    let t1 := if home then t.drainHome c.core else t
    let t2 := if 2 < scopeOf c.w then t1.makeUnsafe c.r.team else t1
    let one (a : Sparse DWord × State) (x : CounterAt) : Sparse DWord × State :=
      let old := a.2.counter x.ref
      let u := match x.ref with
        | .mem loc => if scopeOf c.w ≤ 2 then a.2.journal c.r.team (.word loc) else a.2
        | _ => a.2
      (a.1 ++ [(x.t, old)], u.writeCounter c x (old + srcB u c false x.t))
    let out := l.foldl one ([], t2)
    (home = true → t1.acked c.core = false → exec (.cadd w) s = .next (t1.awaitAcks c [c.core])) ∧
    (home = false ∨ t1.acked c.core = true → exec (.cadd w) s = .next ((s.begun c).finishIssue c
      { s := out.2, later := if c.w.m.getLsbD 0 then some (c.results true false fun i => look 0 out.1 i) else none
        remote := remotesOf l true }))) ∧
  (∀ s c l t, s.clear (.cread w) = some c → c.steps ≠ [] → (s.begun c).openCounters c none = .ok (l, t) →
    (s.begun c).moves (remotesOf l false) = false →
    exec (.cread w) s = .next ((s.begun c).finishIssue c
      { s := t, later := some (c.results true false fun i => look 0 (l.map fun a => (a.t, t.counter a.ref)) i)
        remote := remotesOf l false, reload := t.reloadOf c (locatedOf l) })) ∧
  (∀ s c l t, s.clear (.cpoll w) = some c → c.steps ≠ [] → (s.begun c).openCounters c none = .ok (l, t) →
    let far a := distant (t.counter a.ref) (srcB t c true a.t)
    let met a := satisfies (t.counter a.ref) (srcB t c true a.t)
    (l.any far = true → exec (.cpoll w) s = .next ((s.begun c).stopIssue c (distantTrap ((l.filter far).map (·.t))))) ∧
    (l.any far = false → (s.begun c).moves (remotesOf l false) = false →
      exec (.cpoll w) s = .next ((s.begun c).finishIssue c
        { s := if l.any met then t.acquire c.core (scopeOf c.w) else t
          later := some (c.truths fun i => ((l.filter met).map (·.t)).contains i), remote := remotesOf l false
          reload := t.reloadOf c (locatedOf l) (l.map fun a => (a.t, srcB t c true a.t)) }))) ∧
  (∀ s c l t, s.clear (.cinit w) = some c → (s.begun c).openCounters c none = .ok (l, t) →
    (l.any (fun a => t.waitedOn a.ref) = true → exec (.cinit w) s = .next ((s.begun c).stopIssue c (.trap 8 0 c.act []))) ∧
    (l.any (fun a => t.waitedOn a.ref) = false → exec (.cinit w) s = .next ((s.begun c).finishIssue c
      { s := l.foldl (fun u a => u.writeCounter c a (srcB t c true a.t)) t })))

/-- R346, R347: a satisfied CWAIT or CWAITD goes on at once with an acquire; an unsatisfied one registers its wait
and holds the fibre, or parks the split with the threads that are not satisfied; a distant threshold traps with cause
7, and a deadline that has come with cause 6; a wait on a peer whose class moves holds its fibre (R401). A wait issued again
makes no distance test, but for CWAITD after its promise-missed trap. When a wait is hashed is the model's reading (log
17). -/
def Obligations.WaitsRegisterOrGoOn : Prop := ∀ (w : Fields) (s : State) (c : Ctx) (l : List CounterAt) (t : State),
  (s.clear (.cwait w) = some c → c.steps = [] → exec (.cwait w) s = .next ((s.begun c).finishIssue c { s := s.begun c, point := true })) ∧
  (s.clear (.cwait w) = some c → c.steps ≠ [] → (s.begun c).openCounters c none = .ok (l, t) →
    let thr a := srcB t c true a.t
    let far := l.filter fun a => !c.x.again && distant (t.counter a.ref) (thr a)
    let wait := l.filter fun a => !satisfies (t.counter a.ref) (thr a)
    let still := t.moves (remotesOf l false) = false
    (far ≠ [] → exec (.cwait w) s = .next ((s.begun c).stopIssue c (distantTrap (far.map (·.t))))) ∧
    (far = [] → ¬still → exec (.cwait w) s = .next (t.holdFibre c .fabric)) ∧
    (far = [] → still → wait = [] → exec (.cwait w) s = .next ((s.begun c).finishIssue c
      { s := t.acquire c.core (scopeOf c.w), fixed := if c.w.m.getLsbD 0 then c.truths fun _ => false else [], lat := 0
        point := true })) ∧
    (∀ a rest, far = [] → still → wait = a :: rest → c.w.u = true → exec (.cwait w) s = .next ((s.begun c).finishIssue c
      { s := t.await c (.fibre c.r) a (thr a), point := true, parks := true
        flow := some (uniformWait c 1 (counterKind c.w) (counterOperand c a) (thr a) 0) })) ∧
    (far = [] → still → wait ≠ [] → c.w.u = false →
      let left := maskOf fun i => wait.any fun a => a.t == i
      let t1 := if left = c.parts then t else t.acquire c.core (scopeOf c.w)
      let park (x : Split) : Split := { x with park := .threads left 0 c.op c.w, again := true }
      exec (.cwait w) s = .next ((s.begun c).finishIssue c
        { s := wait.foldl (fun u a => u.await c (.thread c.r (c.f.splitKey c.x.idx) a.t) a (thr a)) t1
          point := true, parks := true, flow := some { run := fun f => .ok (f.suspend .parked park) } }))) ∧
  (∀ a rest, s.clear (.cwaitd w) = some c → l = a :: rest →
    let now : DWord := BitVec.ofNat 64 s.tick
    let dl := deadlineOf (s.begun c) c
    let v := t.counter a.ref
    let thr := srcB t c true a.t
    let again : Bool := c.x.again && !c.x.missed
    (again || !distant now dl) = true → t.moves (remotesOf [a] false) = false → (s.begun c).openCounters c none = .ok (l, t) →
    (satisfies v thr = true → exec (.cwaitd w) s = .next ((s.begun c).finishIssue c
      { s := t.acquire c.core (scopeOf c.w), fixed := if c.w.m.getLsbD 0 then c.truths fun _ => false else [], lat := 0
        point := true })) ∧
    (satisfies v thr = false → again = false → distant v thr = true →
      exec (.cwaitd w) s = .next ((s.begun c).stopIssue c (distantTrap []))) ∧
    (satisfies v thr = false → (again || !distant v thr) = true → satisfies now dl = true →
      exec (.cwaitd w) s = .next ((s.begun c).stopIssue c (.trap 6 dl c.act []))) ∧
    (satisfies v thr = false → (again || !distant v thr) = true → satisfies now dl = false →
      exec (.cwaitd w) s = .next ((s.begun c).finishIssue c
        { s := t.await c (.fibre c.r) a thr, point := true, parks := true
          flow := some (uniformWait c 2 (counterKind c.w) (counterOperand c a) thr dl) })))

/-- R350, R351: CARM on a satisfied threshold sends the user event at once and else registers a host waiter; EWAIT
goes on with at most n operations of its class outstanding, and else waits; EREAD delivers a count. Positions of
CARM's traps are the model's readings (log 26). -/
def Obligations.HostWaitersAndEngineCounts : Prop := ∀ w : Fields,
  (∀ s c a l t, s.clear (.carm w) = some c →
    let target := uniOperand (s.begun c) c c.w.c.toNat uniThread
    let va := srcA (s.begun c) c true uniThread
    va.toNat % 8 = 0 → carmStop target va = none →
    (s.begun c).openCounters c none (some (misuse 5 8 0)) = .ok (a :: l, t) →
    let hart := fld target 6 0
    let vector := fld target 13 8
    let thr := srcB t c true a.t
    distant (t.counter a.ref) thr = false →
    (satisfies (t.counter a.ref) thr = true → exec (.carm w) s = .next ((s.begun c).finishIssue c
      { s := (t.makeUnsafe c.r.team).userEvent hart { asid := c.asid, vector, killed := false } })) ∧
    (satisfies (t.counter a.ref) thr = false → t.homeFull a.ref = true → exec (.carm w) s = .next (t.holdFibre c .homeList)) ∧
    (satisfies (t.counter a.ref) thr = false → t.homeFull a.ref = false → exec (.carm w) s = .next ((s.begun c).finishIssue c
      { s := (t.makeUnsafe c.r.team).await c (.host c.asid hart vector) a thr }))) ∧
  (let few (c : Ctx) (s : State) := (c.f.counts.left (counterKind c.w)).toNat ≤ (srcB s c true uniThread).toNat
   CompletesIf (.ewait w) few (fun c s => { s := s.modCore c.core fun k => { k with l1 := [] }, point := true }) ∧
   CompletesIf (.ewait w) (fun c s => ¬few c s) (fun c s =>
     { s, point := true, parks := true, flow := some (uniformWait c 3 (counterKind c.w) (srcB s c true uniThread) 0 0) })) ∧
  Completes (.eread w) (fun c s =>
    { s, later := some [⟨.uni c.w.d.toNat, match c.w.f.toNat / 4 % 4 with
        | 0 => c.f.counts.left (counterKind c.w)
        | 1 => c.f.counts.issued (counterKind c.w)
        | _ => c.f.counts.completed (counterKind c.w)⟩] })

/-! ## Copies and the matrix engine (chapters 12 to 15) -/

/-- R261, R262: a copy instruction whose command passes its checks takes a free entry of the request queue if nobody
waits before it, and writes a promise that does not lie in the past to sD; with the queue full its fibre waits in
line; a failed check stops it. The promise is a free value (log 7).

R192: the team's buffered stores leave before the copy is checked and takes its entry, and its split waits until they are
acknowledged (the manner of the wait: log 87). R286, R327: a release add made at the start that would fall on a poisoned
word is cause 24 instead.

R263, R276, R280 to R286, R318: which bytes each command reads, and what it writes where, given the bytes read: CPL and CPR
copy; CPZ repeats its pattern; CPG and CPS move rows between far and near places; CPX writes scaled trits; CPA rounds, or
encodes in blocks, the elements of its staged rectangle; CPT packs the box row by row, with the fill outside the tensor,
under `.tr` and the swizzle, or writes its rows back. -/
def Obligations.CopiesTakeARequestEntry : Prop := (∀ w : Fields,
  ∀ i ∈ [Instr.cpt w, .cpl w, .cpg w, .cps w, .cpx w, .cpa w, .cpr w, .cpz w], ∀ s c t, s.clear i = some c →
    let s0 := s.begun c
    s0.team? c.r.team = some t →
    let cores := if c.k.pair then [t.core, t.core + 1] else [t.core]
    let u := cores.foldl State.drainHome s0
    let quiet := ∀ k ∈ cores, (u.core k).flight = []
    (¬quiet → exec i s = .next (u.awaitAcks c cores)) ∧
    (∀ e, quiet → u.checkCopy c.space t c.k (copyCommand c) = .error e → exec i s = .next (s0.stopIssue c e)) ∧
    (∀ ok, quiet → u.checkCopy c.space t c.k (copyCommand c) = .ok ok →
      (∀ k, (u.core c.core).mayTake c.r = true → (u.core c.core).freeReq = some k →
        let out := (ok.state.leaveQueue c.core c.r).startDynamic c.core k c.r (copyCommand c) c.pc ok
        (ok.state.startBad (copyCommand c) ok = true → exec i s = .next (s0.stopIssue c (.team 24))) ∧
        (ok.state.startBad (copyCommand c) ok = false → ok.state.tick ≤ out.1 ∧
          exec i s = .next (s0.finishIssue c { s := out.2, fixed := [⟨.uni c.w.d.toNat, BitVec.ofNat 64 out.1⟩] }))) ∧
      ((u.core c.core).mayTake c.r = false ∨ (u.core c.core).freeReq = none →
        exec i s = .next ((u.awaitEntry c.core c.r).holdFibre c .copyQueue)))) ∧
  (∀ (c : CopyCmd) (recs : List LayoutRec) (idx data : List Byte) (staged : Option (Tag × List DWord)),
    let out := (c.outputs recs idx data staged).1
    let src := c.sources recs idx
    let len := fld c.w2 31 0
    let rb := fld c.w2 47 32
    (∀ pos kind w off n, c.endpoints.find? (fun e => e.1 == pos) = some (pos, kind, w) →
      (kind = 0 → c.at recs pos off n = .va ((w.toNat + off) % 2 ^ 64)) ∧
      (kind = 1 → c.at recs pos off n = .scratch (w.toNat + off)) ∧
      (kind = 3 → c.at recs pos off n = .slotByte (fld w 5 0) (fld w 29 16 + off)) ∧
      (∀ r, kind = 2 → recAt c recs pos = some r →
        let o := fld w 63 24 + off
        (o + n ≤ r.len → c.at recs pos off n = if r.insole then .insole (r.base * 2 ^ 21 + o) else .va ((r.base + o) % 2 ^ 64)) ∧
        (r.len < o + n → ∃ a, c.at recs pos off n = .beyond a))) ∧
    (c.op = 0xE1 → src = [(c.at recs 4 0 len, len)] ∧ out = [{ place := c.at recs 5 0 len, bytes := data, src := some 0 }]) ∧
    (c.op = 0xE6 → src = [(c.at recs 4 0 len, len)] ∧ out = [{ place := .va c.w1.toNat, bytes := data, src := some 0 }]) ∧
    (c.op = 0xE7 → src = [] ∧ ∃ o, out = [o] ∧ o.place = c.at recs 4 0 len ∧ o.bytes.length = len ∧
      ∀ k < len, o.bytes.getD k 0 = c.w1.extractLsb' (8 * (k % 8)) 8) ∧
    (c.op = 0xE2 ∨ c.op = 0xE3 → src.length = len ∧ out.length = len ∧ ∀ j < len,
      let width := if c.fbits 1 1 = 1 then 8 else 4
      let far := c.at recs 4 (natLE ((idx.drop (j * width)).take width) * rb) rb
      let near : Place := .scratch (fld c.w1 19 0 + j * rb)
      let row := (data.drop (j * rb)).take rb
      c.indexRun = (.scratch (fld c.w1 51 32), if rb = 0 then 0 else len * width) ∧
      (c.op = 0xE2 → src[j]? = some (far, rb) ∧ out[j]? = some { place := near, bytes := row }) ∧
      (c.op = 0xE3 → src[j]? = some (near, rb) ∧ out[j]? = some { place := far, bytes := row, src := some (j * rb) })) ∧
    (c.op = 0xE4 →
      let n := fld c.w2 15 0
      let rows := fld c.w2 31 16
      let bytes := (n + 4) / 5
      let pitch := if fld c.w2 63 32 = 0 then bytes else fld c.w2 63 32
      (∀ i < rows, src[i]? = some (c.at recs 4 (i * pitch) bytes, bytes) ∧
        src[rows + i]? = some (.scratch (fld c.w1 51 32 + 2 * i), 2)) ∧
      (data.length = rows * bytes + 2 * rows → ∃ o, out = [o] ∧ o.bytes.length = 2 * rows * n ∧
        o.place = (if c.fbits 1 1 = 1 then .slotByte (fld c.w1 5 0) 0 else .scratch (fld c.w1 19 0)) ∧
        ∀ i < rows, ∀ e < n,
          let b := (data.getD (i * bytes + e / 5) 0).toNat
          let code := if b < 243 then b / 3 ^ (e % 5) % 3 else 0
          let scale := fieldLE data (rows * bytes + 2 * i) 2
          fieldLE o.bytes (2 * (i * n + e)) 2 =
            if code = 0 then 0 else if (bf16.value scale).isNaN then 0x7FC0 else if code = 1 then scale else scale ^^^ 0x8000)) ∧
    (∀ tag xs, c.op = 0xE5 → staged = some (tag, xs) → src = [] ∧
      out = (groupsBy (cpaEls c) xs.length xs).zipIdx.map fun x =>
        { place := (c.at recs 5 0 (cpaReach c)).plus (x.2 * cpaPitch c), bytes := (cpaRow c tag x.1).1 }) ∧
    (∀ tag xs,
      let scaled := c.fbits 2 2 = 1
      let k := fp32.value (fld c.w0 63 32)
      let y (x : DWord) : FVal := if scaled then (tagValue tag x.toNat).times k else tagValue tag x.toNat
      (∀ f, fmtOf (cpaType c) = some f → ∃ v : DWord → Nat,
        (cpaRow c tag xs).1 = xs.flatMap (fun x => bytesLE (v x) (typeBits (cpaType c) / 8)) ∧
        ∀ x,
          let a := tagValue tag x.toNat
          let bad := a.isNaN || decide scaled && (k.isNaN || infTimesZero a k)
          let sat := c.m.getLsbD 0
          let neg := a.neg != (decide scaled && k.neg)
          (bad = true → v x = f.canonNaN) ∧
          (bad = false → (a.isInf || decide scaled && k.isInf) = true → v x = if sat then f.maxFinite neg else f.infinity neg) ∧
          ∀ n m e, a.isFin = true → (scaled → k.isFin = true) → y x = .fin n m e → v x = (roundTo f { sat } n m e).1) ∧
      (isBlockType (cpaType c) = true → xs.length = 32 → (∀ x ∈ xs, (tagValue tag x.toNat).isFin = true) →
        (scaled → k.isFin = true) → (cpaRow c tag xs).1 = (sbBlock (cpaType c) (xs.map y)).1))) ∧
  (∀ (c : CopyCmd) (r : LayoutRec) (data idx : List Byte), c.op = 0xE0 →
    let out := (c.outputs [r] idx data none).1
    let bits := unitBits r.type
    let x0 := (cptDim0 c r).1
    let b0 := (cptDim0 c r).2.1
    let n0 := (cptDim0 c r).2.2
    let rows := cptRows c r
    let inside := rows.filter fun x => x.row.isSome
    let packed := bytesLE (packLoad c r data) (packedBytes r)
    let upper := (List.range r.rank).drop 1
    (∀ q x, rows[q]? = some x →
      let at_ (d : Nat) : Int := (cptCoords c).getD d 0 +
        (q / (((List.range d).drop 1).foldl (fun n j => n * r.box.getD j 0) 1) % r.box.getD d 0 : Nat)
      let off := (upper.map fun d => at_ d * r.strides.getD d 0).sum
      x = if (∀ d ∈ upper, 0 ≤ at_ d ∧ at_ d < r.dims.getD d 0) ∧ max x0 0 < min (x0 + b0) (n0 : Int) then
          { first := q * b0, row := some off, lo := max x0 0, hi := min (x0 + b0) n0 }
        else { first := q * b0, row := none, lo := 0, hi := 0 }) ∧
    (∀ (x : BoxRow) (off : Int), x.row = some off →
      let a : Nat := x.lo.toNat * bits / 8
      let n : Nat := (x.hi.toNat * bits + 7) / 8 - a
      rowSpan bits x = (off + (a : Int), n) ∧ (off + a + n ≤ (r.len : Int) → rowRun r x = (r.place (off + (a : Int)), n))) ∧
    (c.fbits 0 0 = 0 → c.sources [r] idx = inside.map (rowRun r) ∧
      (c.fbits 1 1 = 1 → isBlockType r.type = false → out = [{ place := .slotByte (fld c.w0 37 32) 0, bytes := packed }]) ∧
      (c.fbits 1 1 = 0 → ∀ o < packedBytes r, ∃ y ∈ out, ∃ i < y.bytes.length, y.bytes.getD i 0 = packed.getD o 0 ∧
        y.place.plus i = .scratch (fld c.w0 51 32 + (o ^^^ (o / 128 % 2 ^ r.swizzle * 16)))) ∧
      ∀ k x, rows[k]? = some x → isBlockType r.type = false → ∀ i < b0,
        let e := if c.fbits 2 2 = 1 then transposed b0 (if 1 < r.rank then r.box.getD 1 1 else 1) (x.first + i) else x.first + i
        let before := ((rows.take k).map fun y => (rowSpan bits y).2).sum
        let g : Int := x0 + i
        packLoad c r data / 2 ^ (bits * e) % 2 ^ bits =
          if x.row.isSome = true ∧ x.lo ≤ g ∧ g < x.hi then
            natLE ((data.drop before).take (rowSpan bits x).2) / 2 ^ (x.lo.toNat * bits % 8 + (g - x.lo).toNat * bits) % 2 ^ bits
          else r.fill % 2 ^ bits) ∧
    (c.fbits 0 0 = 1 → c.sources [r] idx = (packedRuns c r).map (·.2) ∧ out = inside.map fun x =>
      let n := (rowSpan bits x).2
      let sh := x.lo.toNat * bits % 8
      let count := (x.hi - x.lo).toNat
      { place := (rowRun r x).1
        bytes := bytesLE (natLE data / 2 ^ (bits * (x.first + (x.lo - x0).toNat)) % 2 ^ (bits * count) * 2 ^ sh) n
        mask := if bits % 8 = 0 then [] else bytesLE ((2 ^ (bits * count) - 1) * 2 ^ sh) n }))

/-- R242, R243: TCLAIM and ACLAIM claim a range of backed items that nobody holds, wait for items under release and behind
claims of such items that issued before them, and trap with the first item that is neither free nor under release.

R234, R242: TREL and AREL free their items once no queued operation of the team (nor read phase of a CPA) uses them, and
until then mark them and hold their fibre; when that wait ends the items are free at once, and the instruction completes
when its fibre issues it again. -/
def Obligations.ClaimsAndReleasesOfRanges : Prop :=
  (∀ (w : Fields) (s : State) (c : Ctx) (t : Team),
    let mine (region : Bool) : Release := { fib := c.r, region, first := c.w.d.toNat, count := c.w.f.toNat + 1 }
    let queued (region : Bool) : State :=
      if mine region ∈ t.claims then s.begun c
      else (s.begun c).modTeam c.r.team fun t => { t with claims := t.claims ++ [mine region] }
    (s.clear (.tclaim w) = some c → (s.begun c).team? c.r.team = some t →
      ((∀ n ∈ claimRange c, n < c.k.slots ∧ n ∉ t.tiles ∧ t.releasing false n = false) → t.behind (mine false) = false →
        exec (.tclaim w) s = .next ((s.begun c).finishIssue c
          { s := ((s.begun c).modTeam c.r.team fun t => { t with
              claims := t.claims.filter (· != mine false), tiles := claimRange c ++ t.tiles }).retryEngine t.core })) ∧
      ((∀ n ∈ claimRange c, n < c.k.slots ∧ (n ∈ t.tiles → t.releasing false n = true)) →
        t.behind (mine false) = true ∨ (∃ n ∈ claimRange c, t.releasing false n = true) →
        exec (.tclaim w) s = .next ((queued false).holdFibre c .engine)) ∧
      (∀ n, (claimRange c).find? (fun n => c.k.slots ≤ n || (t.tiles.contains n && !t.releasing false n)) = some n →
        exec (.tclaim w) s = .next ((s.begun c).stopIssue c (misuse 0 0 n)))) ∧
    (s.clear (.aclaim w) = some c → (s.begun c).team? c.r.team = some t →
      ((∀ n ∈ claimRange c, n < c.k.regions ∧ (t.tag? n ≠ none → t.releasing true n = true)) →
        t.behind (mine true) = true ∨ (∃ n ∈ claimRange c, t.releasing true n = true) →
        exec (.aclaim w) s = .next ((queued true).holdFibre c .engine)) ∧
      ((∀ n ∈ claimRange c, n < c.k.regions ∧ t.tag? n = none ∧ t.releasing true n = false) → t.behind (mine true) = false →
        ∃ f : Team → Team, (∀ x : Team, ∀ n ∈ claimRange c, (f x).tag? n = some (claimTag c)) ∧
          (∀ x : Team, ∀ n, n ∉ claimRange c → (f x).tag? n = x.tag? n) ∧
          exec (.aclaim w) s = .next ((s.begun c).finishIssue c
            { s := ((s.begun c).modTeam c.r.team f).retryEngine t.core })) ∧
      (∀ n, (claimRange c).find? (fun n => c.k.regions ≤ n || ((t.tag? n).isSome && !t.releasing true n)) = some n →
        exec (.aclaim w) s = .next ((s.begun c).stopIssue c (misuse 1 0 n))))) ∧
  (∀ (w : Fields) (region : Bool),
    let i : Instr := if region then .arel w else .trel w
    ∀ s c t, s.clear i = some c →
      let s0 := s.begun c
      let mine : Release := { fib := c.r, region, first := c.w.d.toNat, count := c.w.f.toNat + 1 }
      let past : Release := { mine with freed := true }
      s0.team? c.r.team = some t →
      (past ∈ t.releases → exec i s = .next (s0.finishIssue c
        { s := s0.modTeam c.r.team fun t => { t with releases := t.releases.filter (· != past) } })) ∧
      (past ∉ t.releases →
        mine ∈ t.releases ∨ (∀ n ∈ claimRange c, (if region then (t.regionOk c.k n).isSome else t.tileOk c.k n) = true) →
        (s0.releaseBusy t mine = true → exec i s = .next ((if mine ∈ t.releases then s0 else
          s0.modTeam c.r.team fun t => { t with releases := mine :: t.releases }).holdFibre c .engine)) ∧
        (s0.releaseBusy t mine = false → exec i s = .next (s0.finishIssue c
          { s := (s0.modTeam c.r.team fun t => { t with
              releases := t.releases.filter (· != mine)
              tiles := if region then t.tiles else t.tiles.filter fun n => !(claimRange c).contains n
              regions := if region then t.regions.filter fun x => !(claimRange c).contains x.1 else t.regions }).retryEngine t.core }))) ∧
      (∀ n, past ∉ t.releases → mine ∉ t.releases →
        (claimRange c).find? (fun n => !(if region then (t.regionOk c.k n).isSome else t.tileOk c.k n)) = some n →
        exec i s = .next (s0.stopIssue c (misuse (if region then 1 else 0) 0 n)))) ∧
  (∀ (s : State) (t : Team) (x : Release),
    let used : Prop := if x.region then
        (∃ e ∈ (s.core t.core).engine, e.fib.team = t.ref ∧ ∃ y ∈ opTouches t e.op e.w, ∃ n ∈ y.regions, x.first ≤ n ∧ n < x.first + x.count) ∨
        (∃ k ∈ s.cores, ∃ q ∈ k.2.reqs, q.team = t.ref ∧ q.waitsPhase = true ∧
          ∃ n ∈ (cpaRect q.cmd (t.tagOr (cpaReg q.cmd))).regions, x.first ≤ n ∧ n < x.first + x.count)
      else ∃ e ∈ (s.core t.core).engine, e.fib.team = t.ref ∧ ∃ n ∈ opTiles e.op e.w, x.first ≤ n ∧ n < x.first + x.count
    (s.releaseBusy t x = true ↔ used) ∧
    (s.team? t.ref = some t → x ∈ t.releases → x.freed = false → ¬used →
      ∃ u, (s.retryEngine t.core).team? t.ref = some u ∧ { x with freed := true } ∈ u.releases ∧
        ∀ n, x.first ≤ n → n < x.first + x.count → (if x.region then u.tag? n = none else n ∉ u.tiles)))

/-- R232, R241, R244 to R250: MMA, ASA, AZERO and ARED whose operands pass their checks enter the engine's queue of four
and complete; with the queue full their fibre waits; a failed check traps. Entries of one core cycle stand in the order of
their lanes, behind all that came before; that the lanes of a pair's upper core follow those of its lower is the model's
reading (log 81). -/
def Obligations.EngineOperationsEnterTheQueue : Prop := (∀ (w : Fields) (fam : MmaFamily),
  ∀ x ∈ [(Instr.mma fam w, checkMma), (.asa w, checkAsa), (.azero w, checkAzero), (.ared w, checkAred)],
    ∀ s c t, s.clear x.1 = some c → (s.begun c).team? c.r.team = some t →
      (∀ e, x.2 t c = .error e → exec x.1 s = .next ((s.begun c).stopIssue c e)) ∧
      (x.2 t c = .ok () → ((s.begun c).core t.core).engine.length < 4 → exec x.1 s = .next ((s.begun c).finishIssue c
        { s := (s.begun c).enqueue t.core c.r c.op c.w c.pc (64 * (c.core - t.core) + c.g.lane) })) ∧
      (x.2 t c = .ok () → 4 ≤ ((s.begun c).core t.core).engine.length →
        exec x.1 s = .next ((s.begun c).holdFibre c .engine))) ∧
  (∀ (s : State) (core op lane : Nat) (r : FibreRef) (w : Fields) (pc : DWord),
    let u := s.enqueue core r op w pc lane
    let e : EngineOp := { num := (s.core core).engineSeq, fib := r, op, w, pc, cycle := s.colCycle (colOf core), lane }
    let yields (x : EngineOp) : Prop := x.started = false ∧ x.cycle = e.cycle ∧ lane < x.lane
    (∃ a b, (s.core core).engine = a ++ b ∧ (u.core core).engine = a ++ e :: b ∧ (∀ x ∈ a, ¬yields x) ∧
      ∀ x, b.head? = some x → yields x) ∧
    (u.core core).engineSeq = (s.core core).engineSeq + 1 ∧
    ∀ f, s.fibre? r = some f → u.fibre? r = some { f with counts := { f.counts with matI := f.counts.matI + 1 } })

/-- R100 to R104, R107 to R109, R245, R247, R248, R250: the cells that operations write. An integer MMA adds the exact sum of
products of its tiles' elements, row by row of A and of B, and clamps or wraps it; a bit counts 1 where both are equal, else
−1. A floating-point, block or complex MMA adds the products group by group, each group's sum and the old value exactly and
with one rounding, a complex one to the real and the imaginary part by lists of their own; NaN, ∞ × 0 and infinities of both
signs give the canonical NaN. ASA adds the product of its scales and the partial cell with one rounding, and may zero that
cell; AZERO zeroes every cell of its regions; ARED adds a row exactly, rounded once or clamped or wrapped, or folds it to its
maximum or minimum. -/
def Obligations.EngineOperationsComputeTheirCells : Prop := ∀ (t : Team) (w : Fields) (a b : Array Byte),
  (∀ sa na sb nb, mmaElem 0xF9 (mmaA w) = .int sa na → mmaElem 0xF9 (mmaB w) = .int sb nb →
    let (m, n, kk) := mmaShape 0xF9 (mmaA w) (mmaB w)
    let x := rectAt w.d.toNat (row0Of w) (col0Of w) m mmaCols
    let el (sg : Bool) (n : Nat) (v : Array Byte) (i : Nat) : Int := intOfBits sg n (BitVec.ofNat 64 (bitsAt v (n * i) n))
    mmaCells t 0xF9 w a b = (gridOf m n).map fun p =>
      let sum := ((List.range kk).map fun k => el sa na a (p.1 * kk + k) * el sb nb b (p.2 * kk + k)).sum
      let old := intOfBits true 32 (BitVec.ofNat 64 (t.cell (x.r0 + p.1) (x.c0 + p.2)))
      (x.r0 + p.1, x.c0 + p.2, BitVec.ofInt 32 (if w.f.getLsbD 0 then clampTo true 32 (old + sum) else old + sum))) ∧
  (mmaElem 0xF9 (mmaA w) = .bit → mmaElem 0xF9 (mmaB w) = .bit →
    let x := rectAt w.d.toNat (row0Of w) (col0Of w) 64 mmaCols
    mmaCells t 0xF9 w a b = (gridOf 64 64).map fun p =>
      let sum := ((List.range 512).map fun k =>
        if bitsAt a (p.1 * 512 + k) 1 = bitsAt b (p.2 * 512 + k) 1 then (1 : Int) else -1).sum
      let old := intOfBits true 32 (BitVec.ofNat 64 (t.cell (x.r0 + p.1) (x.c0 + p.2)))
      (x.r0 + p.1, x.c0 + p.2, BitVec.ofInt 32 (if w.f.getLsbD 0 then clampTo true 32 (old + sum) else old + sum))) ∧
  (∀ (f : Fmt) (n c : Nat) (vs g rest : List FVal),
    (vs ≠ [] → vs.length ≤ n → accumulate f n c (vs.map FVal.term) = fusedSum f (f.value c :: vs)) ∧
    (g.length = n → 0 < n → accumulate f n c ((g ++ rest).map FVal.term) =
      accumulate f n (accumulate f n c (g.map FVal.term)) (rest.map FVal.term))) ∧
  (∀ (op : Nat) (va vb : Nat → FVal), (∀ e, (mmaElem op (mmaA w)).real a e = some (va e)) →
    (∀ e, (mmaElem op (mmaB w)).real b e = some (vb e)) →
    let (m, n, kk) := mmaShape op (mmaA w) (mmaB w)
    let x := rectAt w.d.toNat (row0Of w) (col0Of w) m mmaCols
    let tag := mmaTag op (mmaA w)
    mmaCells t op w a b = (gridOf m n).flatMap fun p =>
      elementCells tag x.r0 x.c0 p.1 p.2 (accumulate tag.fmt (mmaGroup op (mmaA w)) (t.element tag x.r0 x.c0 p.1 p.2)
        ((List.range kk).map fun k => ((va (p.1 * kk + k)).product (vb (p.2 * kk + k))).term))) ∧
  (∀ op fa na fb nb, mmaElem op (mmaA w) = .complex fa na → mmaElem op (mmaB w) = .complex fb nb →
    let (m, n, kk) := mmaShape op (mmaA w) (mmaB w)
    let x := rectAt w.d.toNat (row0Of w) (col0Of w) m mmaCols
    let tag := mmaTag op (mmaA w)
    let pa (i k part : Nat) : FVal := fa.value (bitsAt a (2 * na * (i * kk + k) + na * part) na)
    let pb (j k part : Nat) : FVal := fb.value (bitsAt b (2 * nb * (j * kk + k) + nb * part) nb)
    let sum (i e : Nat) (l : Nat → List FVal) : List (Nat × Nat × Word) :=
      elementCells tag x.r0 x.c0 i e (accumulate tag.fmt (mmaGroup op (mmaA w)) (t.element tag x.r0 x.c0 i e)
        (((List.range kk).flatMap l).map FVal.term))
    mmaCells t op w a b = (gridOf m n).flatMap fun p =>
      sum p.1 (2 * p.2) (fun k => [(pa p.1 k 0).product (pb p.2 k 0), ((pa p.1 k 1).product (pb p.2 k 1)).opposite]) ++
      sum p.1 (2 * p.2 + 1) (fun k => [(pa p.1 k 0).product (pb p.2 k 1), (pa p.1 k 1).product (pb p.2 k 0)])) ∧
  (let dt := t.tagOr w.d.toNat
    let pt := t.tagOr w.a.toNat
    let x := rectAt w.d.toNat (row0Of w) (col0Of w) 0 0
    let y := rectAt w.a.toNat (row1Of w) (col1Of w) 0 0
    let scale (o : Nat) : FVal := fp32.value (bitsAt a (8 * o) 32)
    asaCells t w a = (gridOf (rowsOf w) (elsOf w)).flatMap fun p =>
      elementCells dt x.r0 x.c0 p.1 p.2 (fusedSum dt.fmt [tagValue dt (t.element dt x.r0 x.c0 p.1 p.2),
        ((scale (4 * p.1)).product (scale (256 + 4 * p.2))).product (tagValue pt (t.element pt y.r0 y.c0 p.1 p.2))]) ++
      (if w.m.getLsbD 0 then [(y.r0 + p.1, y.c0 + p.2, 0)] else [])) ∧
  (∀ r0 c0 i j v, elementCells .fp32 r0 c0 i j v = [(r0 + i, c0 + j, BitVec.ofNat 32 v)] ∧
    elementCells .fp64 r0 c0 i j v =
      [(r0 + i, c0 + 2 * j, BitVec.ofNat 32 v), (r0 + i, c0 + 2 * j + 1, BitVec.ofNat 32 (v >>> 32))]) ∧
  (∀ i j, (∃ v, (i, j, v) ∈ azeroCells w) ↔ ∃ k ≤ w.f.toNat, (regionRect (w.d.toNat + k)).has i j = true) ∧
  (∀ c ∈ azeroCells w, c.2.2 = 0) ∧
  (∀ sat d xs, aredValue .int32 0 sat d xs = (BitVec.ofInt 32
    (let v := ((d :: xs).map fun x => intOfBits true 32 (BitVec.ofNat 64 x)).sum
     if sat then clampTo true 32 v else v)).toNat) ∧
  (∀ (tag : Tag) (sat : Bool) (d : Nat) (xs : List Nat), tag ≠ .int32 →
    aredValue tag 0 sat d xs = fusedSum tag.fmt ((d :: xs).map tag.fmt.value) ∧
    aredValue tag 1 sat d xs = xs.foldl (fun m x => (fMinMax tag.fmt false true m x).1) d ∧
    aredValue tag 2 sat d xs = xs.foldl (fun m x => (fMinMax tag.fmt false false m x).1) d) ∧
  (∀ sat d xs, let el (v : Nat) : Int := intOfBits true 32 (BitVec.ofNat 64 v)
    let top := el (aredValue .int32 1 sat d xs)
    let least := el (aredValue .int32 2 sat d xs)
    (∃ v ∈ d :: xs, el v = top) ∧ (∀ v ∈ d :: xs, el v ≤ top) ∧ (∃ v ∈ d :: xs, el v = least) ∧ ∀ v ∈ d :: xs, least ≤ el v) ∧
  (let tag := t.tagOr w.d.toNat
    let x := rectAt w.d.toNat (row0Of w) (col0Of w) 0 0
    let y := rectAt w.a.toNat (row1Of w) (col1Of w) 0 0
    aredCells t w = (List.range (rowsOf w)).flatMap fun i =>
      elementCells tag x.r0 x.c0 i 0 (aredValue tag (w.m.toNat % 4) (w.m.getLsbD 2) (t.element tag x.r0 x.c0 i 0)
        ((List.range (elsOf w)).map fun j => t.element tag y.r0 y.c0 i j)))

/-- R251, R252: ARD delivers each participant's accumulator cell or pair with variable latency and AWR writes it, unless
the fibre's own queued operations still write there. -/
def Obligations.AccumulatorPortReadsAndWrites : Prop := ∀ (w : Fields) (s : State) (c : Ctx) (t : Team),
  let cells (reg : Nat) := c.steps.map fun i => (i, portCell (s.begun c) c reg i)
  let free (reg : Nat) : Prop :=
    (∀ x ∈ cells reg, portFails t c reg x.2 = none) ∧
      ((s.begun c).fibreOps t.core c.r).all (fun e => (opWrites t e.op e.w).all fun r => (cells reg).all fun x =>
        !r.overlaps { r0 := x.2.1, c0 := x.2.2, rows := 1, cols := if portWide c then 2 else 1 }) = true
  (s.clear (.ard w) = some c → (s.begun c).team? c.r.team = some t → free c.w.a.toNat → t.marked = [] →
    let value (i : Nat) : DWord :=
      let x := portCell (s.begun c) c c.w.a.toNat i
      BitVec.ofNat 64 (t.cell x.1 x.2 + if portWide c then 2 ^ 32 * t.cell x.1 (x.2 + 1) else 0)
    exec (.ard w) s = .next ((s.begun c).finishIssue c { s := s.begun c, later := some (c.results (portWide c) false value) })) ∧
  (s.clear (.awr w) = some c → (s.begun c).team? c.r.team = some t → free c.w.d.toNat →
    let part (x : Nat × Nat × Nat) : List (Nat × Nat × Word) :=
      let v := srcA (s.begun c) c (portWide c) x.1
      (x.2.1, x.2.2, v.extractLsb' 0 32) :: if portWide c then [(x.2.1, x.2.2 + 1, v.extractLsb' 32 32)] else []
    exec (.awr w) s = .next ((s.begun c).finishIssue c
      { s := (s.begun c).writeCells c.r.team ((cells c.w.d.toNat).flatMap part) }))

/-! ## How an instruction issues (chapters 1, 3, 16 and 20) -/

/-- R28, R29, R71, R356, R375: the checks before an instruction's effect come in one order, for every instruction
with words: outstanding results are waited for; then an operand read too early traps with cause 4, its field and
position; then an illegal word traps with cause 2, its reason and OP; then a marked operand stops the team with cause
24. Positions and reasons that no rule names are the model's readings (log 15, 27), and so are the threads that TMASK
names for an early register of another thread, on GSWZ and RDTH (log 71), and that a word that does not decode is held by the
registers of its fields before it traps (log 72).

R71, R72: a fetched word of an unassigned opcode takes cause 1 with OP in TINFO, and one that breaks a rule of Table
3.11 takes cause 2 with the reason and OP; both for the active threads. -/
def Obligations.ChecksBeforeAnEffectComeInOrder : Prop :=
  (∀ (s : State) (i : Instr) (c : Ctx),
    s.contextOf i = some c →
      let s0 := s.begun c
      (c.settled = false → exec i s = .next (s0.stall c (outstandingFor c.f c.reads))) ∧
      (c.settled = true → ∀ r, checking s0 c.k c.core = true → earlyRead c.f (s0.made c) = some r →
        exec i s = .next (s0.stopIssue c (.trap 4 (BitVec.ofNat 64 (r.field + 256 * r.pos)) (earlyThreads c r (s0.made c)) []))) ∧
      (c.settled = true → s0.onTime c = true → ∀ reason, encodingReason c.op c.w (some (c.env s0)) = some reason →
        exec i s = .next (s0.stopIssue c (.trap 2 (BitVec.ofNat 64 (reason + 256 * c.op)) c.act []))) ∧
      (c.settled = true → s0.onTime c = true → s0.legal c = true → readsMarked s0 c (s0.made c) = true →
        exec i s = .next (s0.stopIssue c (.team 24)))) ∧
  (∀ (s : State) (r : FibreRef) (bits : BitVec 160) (c : Ctx),
    let op := (opOf bits).toNat
    s.cur = some r → s.context r op (fieldsOf bits) (bits.extractLsb' 0 32) = some c →
      (opAssigned op = false → exec (.illegalInstruction bits) s =
        .next ((s.begun c).stopIssue c (.trap 1 (BitVec.ofNat 64 (256 * op)) c.act []))) ∧
      (opAssigned op = true → c.settled = true → (s.begun c).onTime c = true →
        ∀ k, encodingReason op (fieldsOf bits) (some (c.env (s.begun c))) = some k →
        exec (.illegalInstruction bits) s =
          .next ((s.begun c).stopIssue c (.trap 2 (BitVec.ofNat 64 (k + 256 * op)) c.act []))))

/-- R26: the lane is held for one core cycle per active thread, one under U = 1, twice that for FP64 arithmetic, but at
least for 8 + 2 · STL: from the issue on, and alike for an instruction that traps, where a word that does not decode is no
FP64 arithmetic.

R299: the signature hash. -/
def Obligations.LaneTimeAndSignatureHash : Prop :=
  (∀ c : Ctx,
    let steps := if c.w.u then 1 else countMask c.act
    c.hold = max (if isDouble c.op c.w then 2 * steps else steps) (8 + 2 * c.w.stl.toNat) ∧ 8 ≤ c.hold ∧ c.hold ≤ 128 ∧
    (∀ (d : Done) (f f0 : Fibre), d.s.fibre? c.r = some f0 → d.goesOn c f →
      (((d.s.finishIssue c d).core c.g.core).lane c.g.lane).busy = d.s.coreCycle c.g.core + c.hold) ∧
    ∀ (s : State) (f : Fibre) (cause : Nat) (info : DWord) (mask : Mask) (addrs : Sparse DWord),
      s.fibre? c.r = some f → f.tvec ≠ 0 → f.frozen = none →
        let decodes : Bool := opAssigned c.op && (encodingReason c.op c.w (some (c.env s))).isNone
        (((s.stopIssue c (.trap cause info mask addrs)).core c.g.core).lane c.g.lane).busy =
          s.coreCycle c.g.core + holdCycles (if decodes then c.op else 0) c.w c.act) ∧
  ((∀ s w : Word, hash s w = ((s.rotateLeft 7) ^^^ w) * 0x2545F491#32) ∧ joinSig = hash 0 0x5EC00000)

/-- R27, R75, R299: an instruction without a flow of its own that goes on leaves in its fibre each private register at
the last value that it wrote there, unless its sequencing writes it; its variable-latency results among the
outstanding ones; and FSIG, while its split does not meet others, hashed with its first word. -/
def Obligations.IssueDeliversResults : Prop := ∀ (c : Ctx) (d : Done) (f f0 : Fibre),
  d.flow = none → d.after = id → d.s.fibre? c.r = some f0 → d.goesOn c f → (∀ w ∈ d.fixed, w.reg.inRange) →
    (d.s.finishIssue c d).fibre? c.r = some f ∧
    (∀ w, lastWrite d.fixed w.reg = some w → w.reg.shared = false → lastWrite c.sequence.writes w.reg = none →
      ∃ g, (d.s.finishIssue c d).group? c.r = some g ∧ rawReg g f w.reg = w.kept) ∧
    (∀ ws, d.later = some ws → ∃ p ∈ f.outstanding, p.writes = ws ∧ p.flags = d.flags) ∧
    (c.w.seq = 0 → f0.run? = some c.x → c.x.rpc = noRpc → d.hashed = true → c.x.again = false →
      f.fsig = hash f0.fsig c.word ∧ (f.run?).map (·.pc) = some c.next)

/-- The frame of an issue that goes on. Whatever the instruction: beside what its own effect did, no byte of memory and
nothing of another team, core, group or fibre changes, and nothing of its team's memories. Where it sequences, or transfers
control by one of the flows named: the fibre keeps every register that no result and no sequencing names, and the group
every shared register; it keeps its trap registers, priority, counts and flags but for those that the results raise. Its
core's caches, buffers, TLB and queues are as its own effect left them: of the core only the lane on which it issued is
held. Without a flow of its own nothing else of the package changes but the arrivals and the slot of its group and the
team's journal. -/
def Obligations.IssueChangesOnlyItsFibre : Prop :=
  let keeps (fl : Flow) : Prop := ∀ x y : Fibre, fl.run x = .ok y → y.v = x.v ∧ y.s = x.s ∧ y.p = x.p ∧ y.fflags = x.fflags ∧
    y.tvec = x.tvec ∧ y.tpc = x.tpc ∧ y.tcause = x.tcause ∧ y.tinfo = x.tinfo ∧ y.taddr = x.taddr ∧ y.fpri = x.fpri ∧
    y.counts = x.counts ∧ y.lodge = x.lodge
  (∀ c : Ctx, keeps c.sequence ∧ (∀ sige x sig, keeps (goFlow sige x sig)) ∧ (∀ st g, keeps (c.suspendFlow st g)) ∧
    (∀ b rc ts d, keeps (jumpFlow c b rc ts d)) ∧ (∀ m n, keeps (splitFlow c m n)) ∧
    (∀ k n o t d, keeps (uniformWait c k n o t d)) ∧ keeps { run := fun f => f.exitThreads c.sige c.parts c.next }) ∧
  ∀ (c : Ctx) (d : Done) (f f0 : Fibre),
    let fl := d.flow.getD c.sequence
    d.s.fibre? c.r = some f0 → d.goesOn c f → (∀ w ∈ d.fixed ++ fl.writes, w.reg.inRange) →
    let t := d.s.finishIssue c d
    let named := (d.fixed ++ fl.writes).map (·.reg)
    (∀ a, byteAt t.mem a = byteAt d.s.mem a) ∧
    (∀ k, k ≠ c.g.core → t.core k = d.s.core k) ∧
    (∃ l, t.core c.g.core = { d.s.core c.g.core with lanes := l } ∧
      ∀ n, n ≠ c.g.lane → (t.core c.g.core).lane n = (d.s.core c.g.core).lane n) ∧
    (∀ r, r ≠ c.r.team → t.team? r = d.s.team? r) ∧
    ((t.team? c.r.team).map Team.memories = (d.s.team? c.r.team).map Team.memories) ∧
    (∀ g, g ≠ c.r.gid → t.group? { c.r with gid := g } = d.s.group? { c.r with gid := g }) ∧
    (∀ i, i ≠ c.r.fid → t.fibre? { c.r with fid := i } = d.s.fibre? { c.r with fid := i }) ∧
    (keeps fl → (∀ x : Fibre, (d.after x).v = x.v ∧ (d.after x).s = x.s ∧ (d.after x).p = x.p) →
      (∀ n t, RegRef.vec n t ∉ named → n < 192 → t < 64 → look 0 f.v (64 * n + t) = look 0 f0.v (64 * n + t)) ∧
      (∀ n, RegRef.uni n ∉ named → n < 32 → look 0 f.s n = look 0 f0.s n) ∧
      (∀ n t, RegRef.pred n t ∉ named → t < 64 → bit (predMask f n) t = bit (predMask f0 n) t)) ∧
    (keeps fl → d.after = id →
      f.tvec = f0.tvec ∧ f.tpc = f0.tpc ∧ f.tcause = f0.tcause ∧ f.tinfo = f0.tinfo ∧ f.taddr = f0.taddr ∧
      f.fpri = f0.fpri ∧ f.counts = f0.counts ∧ f.lodge = f0.lodge ∧
      f.fflags = if d.later.isSome ∨ (raisesFlags c.op c.w = true ∧ d.remote = [] ∧ c.hold < d.lat) then f0.fflags
        else f0.fflags ||| d.flags) ∧
    (d.flow = none → t.surroundings = d.s.surroundings ∧ (d.after = id → f.tmask = f0.tmask ∧ f.frozen = f0.frozen)) ∧
    ∃ g g0, t.group? c.r = some g ∧ d.s.group? c.r = some g0 ∧ g.ctr = g0.ctr ∧ g.core = g0.core ∧ g.lane = g0.lane ∧
      g.slot = g0.slot ∧ g.base = g0.base ∧
      (∀ n t, RegRef.vec n t ∉ named → 192 ≤ n → t < 64 →
        look 0 g.sv (64 * (n - 192) + t) = look 0 g0.sv (64 * (n - 192) + t)) ∧
      (∀ n, RegRef.uni n ∉ named → 32 ≤ n → look 0 g.ss n = look 0 g0.ss n)

/-- R357: a trap of a fibre with a handler, outside it and with room for the frozen table, saves cause, information, pc,
threads and addresses, freezes the split table with FSIG, and starts one running root split of all live threads at
TVEC with FSIG 0; the fibre's registers stay.

R358, R366: without a handler, or inside one, a trap ends the launch: nothing of it is resident, saved or queued
any more. -/
def Obligations.TrapEntryGoesToTheHandlerOrEnds : Prop :=
  (∀ (s u : State) (r : FibreRef) (t : TrapInfo) (f : Fibre) (g : Group),
      s.fibre? r = some f → s.group? r = some g → f.tvec ≠ 0 → f.frozen = none →
      needSpill s r (colOf g.core) = some u →
      ∃ h z, (s.takeTrap r t).fibre? r = some h ∧
        h.tcause = BitVec.ofNat 64 t.cause ∧ h.tinfo = t.info ∧ h.tpc = t.pc ∧ h.tmask = t.mask ∧
        h.taddr = t.addrs.filter (fun x => bit t.mask x.1) ∧ h.fsig = 0 ∧ h.hold = .none ∧
        h.splits = [rootSplit (rootMask f.splits) f.tvec .running] ∧
        h.frozen = some z ∧ z.splits.map (·.mask) = f.splits.map (·.mask) ∧ z.splits.map (·.pc) = f.splits.map (·.pc) ∧
        (∀ x, f.run? = some x → x.park = .none → z.fsig = f.fsig ∧ z.run = x.idx) ∧
        h.v = f.v ∧ h.s = f.s ∧ h.p = f.p ∧ h.fflags = f.fflags ∧ h.fpri = f.fpri ∧ h.tvec = f.tvec) ∧
  (∀ (s : State) (r : FibreRef) (t : TrapInfo) (f : Fibre) (g : Group) (l : Launch),
      s.fibre? r = some f → s.group? r = some g → s.launch? r.team.seq = some l → (f.tvec = 0 ∨ f.hnd = true) →
      let v := s.takeTrap r t
      (∀ x ∈ v.teams, x.ref.seq ≠ r.team.seq) ∧ (∀ x ∈ v.saved, x.team.ref.seq ≠ r.team.seq) ∧
        (v.col l.col).queue.all (fun x => x.seq != r.team.seq) = true)

/-- R68, R296: where a split goes on under NEXT, JUMP and LOOP, and under GOIF by its condition, which a reduction over the
active threads' predicates or a uniform register gives; LOOP also counts its register down.

R297: SPLIT parts the active threads by its predicate; without a division the split goes on at the next instruction or at
the target, with the signature of a child; else it becomes the parent of two children, the threads that do not branch first.

R290 to R293, R297: an undivided split that divides in two runs the first child, then the second, and when both have
come to the reconvergence address goes on there with all its threads and the signature of the join. -/
def Obligations.SequencingAndDivision : Prop :=
  (∀ c : Ctx,
    let go := (c.sequence.dest).map (·.1)
    (c.w.seq = 0 → go = some (c.pc + 4 * BitVec.ofNat 64 c.w.form.words) ∧ c.sequence.writes = []) ∧
    (c.w.seq = 1 → go = some (c.pc + 4 * c.w.x.signExtend 64) ∧ c.sequence.writes = []) ∧
    (c.w.seq = 2 → go = some (if c.goif then c.pc + 4 * (c.w.x.extractLsb' 10 16).signExtend 64 else c.next) ∧
      c.sequence.writes = []) ∧
    (c.w.seq = 4 → let n := (c.w.x.extractLsb' 0 6).toNat
      c.sequence.writes = [⟨.uni n, readUni c.g c.f n - 1⟩] ∧
        go = some (if readUni c.g c.f n - 1 = 0 then c.next else c.pc + 4 * (c.w.x.extractLsb' 6 20).signExtend 64)) ∧
    (let n := (c.w.x.extractLsb' 0 7).toNat
      let yes (t : Nat) : Bool := bit c.act t && (readPred c.f n t != c.w.x.getLsbD 7)
      ((c.w.x.extractLsb' 8 2).toNat = 0 → (c.goif = true ↔ ∃ t < 64, yes t = true)) ∧
      ((c.w.x.extractLsb' 8 2).toNat = 1 → (c.goif = true ↔ ∀ t < 64, bit c.act t = true → yes t = true)) ∧
      ((c.w.x.extractLsb' 8 2).toNat = 2 → (c.goif = true ↔ ∀ t < 64, yes t = false)) ∧
      ((c.w.x.extractLsb' 8 2).toNat = 3 → (c.goif = true ↔ (readUni c.g c.f n ≠ 0 ↔ c.w.x.getLsbD 7 = false))) ∧
      (c.w.seq = 3 → ∃ T : Mask, (∀ t < 64, bit T t = yes t) ∧
        let next := c.pc + 4 * BitVec.ofNat 64 c.w.form.words
        let tgt := c.pc + 4 * (c.w.lit.extractLsb' 0 32).signExtend 64
        let rc := c.pc + 4 * (c.w.lit.extractLsb' 32 32).signExtend 64
        let sg (x : DWord) : Word := if x = rc then joinSig else 0
        let ends (x : DWord) : Prop := c.sequence.kids = 0 ∧
          ∃ g, c.sequence.dest = some (x, g) ∧ (∀ v, g v = sg x) ∧
            ∀ f, c.sequence.run f = { f with fsig := sg x }.goTo c.sige x
        (T = 0 → ends next) ∧ (T ≠ 0 → c.act &&& ~~~T = 0 → ends tgt) ∧
        (T ≠ 0 → c.act &&& ~~~T ≠ 0 → c.sequence.kids = 2 ∧ c.sequence.dest = none ∧ ∀ f, c.sequence.run f =
          f.divide c.sige false rc rc
            [{ mask := c.act &&& ~~~T, pc := next, sig := sg next }, { mask := T, pc := tgt, sig := sg tgt }])))) ∧
  (∀ (f : Fibre) (x : Split) (a b : Child) (rc : DWord) (sige : Bool),
      f.splits = [x] → x.st = .running → x.idx = 0 → x.par = noParent → x.rpc = noRpc → x.hw = some 0 → rc ≠ noRpc →
      a.mask ||| b.mask = x.mask → a.pc ≠ rc → b.pc ≠ rc → a.park = .none → b.park = .none →
      ∃ f1 f2 f3, f.divide sige false rc rc [a, b] = .ok f1 ∧
        (f1.run?).map (fun y => (y.mask, y.pc)) = some (a.mask, a.pc) ∧ f1.fsig = a.sig ∧
        f1.goTo sige rc = .ok f2 ∧ (f2.run?).map (fun y => (y.mask, y.pc)) = some (b.mask, b.pc) ∧ f2.fsig = b.sig ∧
        f2.goTo sige rc = .ok f3 ∧ (f3.run?).map (fun y => (y.idx, y.mask, y.pc)) = some (0, x.mask, rc) ∧ f3.fsig = joinSig ∧
        f3.splits.length = 1)

/-! ## Steps of the device (chapters 1, 4, 10, 12 to 14, 17, 18, 20, 24 and 25) -/

/-- R25, R29, R31, R303, R347, R358, R364: a slot that has starved for 2^16 core cycles is raised; the watchdog traps
the fibre that has kept its slot for 2^WDT with cause 5, a new WDT counting from the next core cycle (R85); an
outstanding result reaches its registers and flags; a sleeping split wakes at its deadline; a CWAITD whose deadline is
reached traps with cause 6; and the answer of a syscall reaches the thread's pair. A result by a dead port waits (R401),
and so do flags of a fixed latency that has not passed (R82). That the promise-missed trap comes at the end of its tick,
and what the watchdog makes of a held fibre, are the model's readings (log 17, 31).

R359: on the fibre that its token names, resume ends the freeze, conversion also raises the fault as a trap at the
handler, and termination ends the launch with reason 3 and the fault's cause; for a team that is saved the first command
is kept for its restore. That a command is taken at any column is the model's reading (log 33). -/
def Obligations.ResultsTimersAndCommands : Prop :=
  (∀ (s : State) (r : FibreRef) (core lane slot : Nat) (g : Group) (f : Fibre),
    (s.seated core lane slot = some (r.team, g) → 2 ^ 16 ≤ g.starve →
      exec (.starvationRaise core lane slot) s = .next (s.modGroup r.team g.gid fun g => { g with raised := true })) ∧
    (∀ x h, s.seated core lane slot = some (r.team, g) → g.gid = r.gid → g.holder = some r.fid → g.fibre? r.fid = some h →
      h.lastSplit = some x → 2 ^ (s.wdtNow core).toNat ≤ g.watch → g.siblingReady = true →
      ((s.core core).lane lane).busy ≤ s.coreCycle core →
      exec (.watchdog core lane slot) s = .next ((s.dropHeld core r).takeTrap r
        { cause := 5, info := BitVec.ofNat 64 (s.wdtNow core).toNat, mask := x.mask, pc := x.pc })) ∧
    ((s.core core).wdtOld = none → s.wdtNow core = (s.core core).wdt) ∧
    (∀ cycle n, (s.core core).wdtOld = some (cycle, n) →
      s.wdtNow core = if s.coreCycle core ≤ cycle then n else (s.core core).wdt) ∧
    (∀ k p, s.stalled = [] → s.fibre? r = some f → f.outstanding[k]? = some p → (f.outstanding.find? fun q => q.id == p.id) = some p →
      (∀ w ∈ p.writes, w.reg.inRange) →
      let due := (∀ n g, p.due = some n → s.group? r = some g → n ≤ s.coreCycle g.core) ∧
        ∀ x ∈ p.remote, (s.portAt (s.portOf (classOf x.1))).live = true
      (¬due → exec (.variableLatencyResult r k) s = .next s) ∧
      (due → ∃ t h h', exec (.variableLatencyResult r k) s = .next t ∧ t.fibre? r = some h ∧ t.group? r = some h' ∧
        h.outstanding = f.outstanding.filter (fun q => q.id != p.id) ∧ h.fflags = f.fflags ||| p.flags ∧
        ∀ w, lastWrite p.writes w.reg = some w → rawReg h' h w.reg = w.kept)) ∧
    (∀ n, n < 128 → s.fibre? r = some f → f.frozen = none → (f.splits.map (·.idx)).Nodup →
      ∃ t h, exec (.sleepWake r n) s = .next t ∧ t.fibre? r = some h ∧
        h.splits = f.splits.map fun x =>
          if x.idx = n ∧ x.slp = true ∧ satisfies (BitVec.ofNat 64 s.tick) x.dl = true then
            { x with st := .ready, slp := false, dl := 0, park := .none }
          else x) ∧
    (∀ u, s.fibre? r = some f → f.hold = .wait u → u.kind = 2 →
      satisfies (BitVec.ofNat 64 ((s.now + 1) / unitsPerTick) - 1) u.deadline = true →
      exec (.promiseMissed r) s = .next (s.promiseTrap r)) ∧
    (∀ q thread loc, s.fibre? r = some f → f.sysc = some q → q.entries.lookup thread = some loc → f.hold = .syscall →
      satisfies (s.wordAt (loc + 0x30)) 1 = true →
      exec (.syscAnswer r thread) s = .next
        (((s.writeNow r (vecWrites true q.w.d.toNat thread (s.wordAt (loc + 0x28)))).modFibre r fun f =>
          { f with sysc := some { q with entries := q.entries.filter fun e => e.1 != thread } }).endSysc r))) ∧
  (∀ (s : State) (col token : Nat) (r : FibreRef) (z : LodgeFreeze),
    (s.tokenFibre token = some (r, z) →
      let u := ((s.modFibre r fun f => { f with lodge := none }).regain r).wakeFibre r
      exec (.fibreResume col token) s = .next u ∧
      exec (.fibreConvert col token) s =
        .next (u.takeTrap r { cause := z.cause, info := z.info, mask := z.mask, addrs := z.addrs, pc := z.pc }) ∧
      exec (.fibreTerminate col token) s =
        .next (s.terminate r.team.seq { reason := 3, cause := z.cause, pc := z.pc, fib := some r })) ∧
    (∀ x, s.tokenFibre token = none → s.saved = [x] → x.team.hasToken token = true → x.commands = [] →
      ∃ t y, exec (.fibreConvert col token) s = .next t ∧ t.saved = [y] ∧ y.commands = [(token, 2)]))

/-- R327 to R329, R335, R336, R352: a satisfied wait wakes its agent and leaves the list; a polling one completes,
registers or doubles its interval up to 4,096 ticks, or consumes the poison of its counter; a wait on a counter of time
becomes satisfied by time alone; a peer's wake-up finds the counter at or beyond the threshold; and the end of an
address space withdraws its host waiters. A peer's message also ends a wait with killed status, but opens no gate so
(R337, R341), and none comes by a dead port (R401). What a peer's word reads beyond the threshold is free (log 48). -/
def Obligations.WaitsEndAsTheirCountersSay : Prop := ∀ (s : State) (k : Nat) (w : Waiter), s.waiters[k]? = some w →
  (w.satisfied = true → w.isRemote = false → exec (.waitWakeup k) s = .next (s.wake w)) ∧
  (∀ due back u, w.poll = some (due, back) → due ≤ s.tick → w.reachable s = true → s.rereadBad w = some u →
    exec (.pollRetry k) s = .next u) ∧
  (∀ due back, w.poll = some (due, back) → due ≤ s.tick → w.reachable s = true → s.rereadBad w = none →
    (satisfies (s.counter w.counter) w.threshold = true → exec (.pollRetry k) s = .next (s.complete w)) ∧
    (satisfies (s.counter w.counter) w.threshold = false →
      let later := if s.homeFull w.counter = true then some (s.tick + min (2 * back) 4096, min (2 * back) 4096) else none
      ∃ t, exec (.pollRetry k) s = .next t ∧ t.waiters = s.waiters.set k { w with poll := later })) ∧
  (∀ f n, w.counter = .device f n → n ≤ 1 → w.satisfied = false → w.poll = none →
    satisfies (s.deviceCounter f n) w.threshold = true → ∃ t, exec (.timebaseWaitSatisfied k) s = .next t ∧
      t.waiters = s.waiters.set k { w with satisfied := true }) ∧
  (w.reachable s = true ↔ ∀ loc, w.counter = .mem loc → s.peerOpen loc = true) ∧
  (∀ loc, w.counter = .mem loc → isPeer loc = true →
    let u : State := { s with waiters := s.waiters.erase w }
    let answer (v : State) : Prop := exec (.remoteWakeup k) s = .next v
    (s.peerOpen loc = false → answer s) ∧
    (s.peerOpen loc = true → w.satisfied = true → answer (s.complete w)) ∧
    (s.peerOpen loc = true → w.satisfied = false → w.poll ≠ none → answer s) ∧
    (s.peerOpen loc = true → w.satisfied = false → w.poll = none →
      (satisfies (s.wordAt loc) w.threshold = true → answer (u.complete { w with satisfied := true })) ∧
      (satisfies (s.wordAt loc) w.threshold = false → ∃ v : DWord, satisfies v w.threshold = true ∧
        answer ((State.writeNum { u with freeCtr := s.freeCtr + 1 } loc 8 v.toNat).complete { w with satisfied := true })))) ∧
  (∀ pkg addr, pkg ≠ s.pkgid.toNat → s.anyPort = true → addr + 8 ≤ 2 ^ 40 → addr % 8 = 0 → isPeer (peerLoc pkg addr) = true →
    let answer (v : State) : Prop := exec (.peerRequest pkg addr (.waitKilled k)) s = .next v
    let here := w.counter = .mem (peerLoc pkg addr) ∧ s.peerOpen (peerLoc pkg addr) = true ∧ w.satisfied = false ∧ w.poll = none
    (here → w.isGate = false →
      answer (State.complete { s with waiters := s.waiters.erase w } { w with satisfied := true, killed := true })) ∧
    ((¬ here ∨ w.isGate = true) → answer s)) ∧
  (∀ asid, ∃ t, exec (.addressSpaceTeardown asid) s = .next t ∧
    t.waiters = s.waiters.filter fun w => match w.agent with
      | .host i _ _ => i != asid
      | _ => true)

/-- R19, R33, R37, R39, R255, R257: a launch signal writes its line and, on an enabled page, the receipt of its
decision over the line's low 64 bits; the served launch's next team is placed at the first core that fits, on seats
that fit; a team that may be pre-empted is saved, those of a co-resident launch with it, or none; a saved team comes back on
a core of its policy. The seats are operands of the step (log 64); one order for restores and placements is the model's
reading (log 35), and so is that a team is saved only once its copies rest and its stores are acknowledged (log 74). -/
def Obligations.DispatcherPlacesSavesAndRestores : Prop := ∀ s : State,
  (∀ op : LaunchSignalOp, op.col < 128 → op.page < 64 → op.line < 32 → s.hartRuns op.col = true →
    let loc := submissionLoc op.col op.page op.line
    let u := s.writeLoc loc (bytesLE op.data.toNat 128)
    ((look 0 (s.col op.col).spt op.page).getLsbD 0 = false → exec (.launchSignal op) s = .next u) ∧
    ((look 0 (s.col op.col).spt op.page).getLsbD 0 = true →
      (∀ e, u.judge op = .error e → ∃ t, exec (.launchSignal op) s = .next t ∧ t.wordAt loc = BitVec.ofNat 64 e.receipt) ∧
      (∀ v, u.judge op = .ok v → ∃ t, exec (.launchSignal op) s = .next t ∧
        t.wordAt loc = BitVec.ofNat 64 (2 ^ 63 + s.nextSeq % 2 ^ 56)))) ∧
  (∀ l idx core seats others, s.served = some l → l.marked = false → l.kernel.coresident = false → s.nextTeam l = .place idx →
    s.findPlace s.teams l = some (core, others) → seats.length = l.kernel.groups →
    seatsGood (s.taken s.teams) l.kernel.footprint (teamCores l.kernel core) seats = true →
    exec (.teamPlacement { team := { seq := l.seq, idx }, core, seats }) s = .next (s.placeTeam l idx core seats) ∧
    ∃ x ∈ (s.placeTeam l idx core seats).teams, x.ref = { seq := l.seq, idx } ∧ x.core = core ∧
      x.groups.map (fun g => { core := g.core, lane := g.lane, slot := g.slot, base := g.base : Seat }) = seats ∧
      ∀ g ∈ x.groups, ∀ f ∈ g.fibres, ∃ e, l.kernel.fibres[f.fid]? = some e ∧ rawUni g f 0 = l.kernel.args ∧
        f.fpri = BitVec.ofNat 4 e.pri ∧ f.tvec = l.kernel.tvec ∧ f.fsig = 0 ∧ f.fflags = 0 ∧
        f.splits = [rootSplit (fullMask l.kernel.width) e.entry (if f.fid = 0 then .running else .ready)]) ∧
  (∀ r t l, s.team? r = some t → s.launch? r.seq = some l →
    let all := if l.kernel.coresident then s.teams.filter fun x => x.ref.seq == r.seq else [t]
    (∃ w ∈ s.ordered, s.mayPreempt w t = true) → s.poolsFit all = true →
    exec (.preEmption r) s = .next (s.saveTeams all)) ∧
  (∀ l : List Team,
    let out := l.foldl (fun (a : State × List (TeamRef × Option FibreRef × DWord)) t =>
      ((a.1.restTeam t).1, a.2 ++ (a.1.restTeam t).2.map fun b => (t.ref, b))) (s, [])
    (out.2 ≠ [] → s.saveTeams l = out.2.foldl (fun u x => u.teamError x.1 24 x.2.1 x.2.2) out.1) ∧
    (out.2 = [] → (∃ t ∈ l, out.1.savable t = false) ∨ out.1.poolsFit l = false → s.saveTeams l = s) ∧
    (out.2 = [] → (∀ t ∈ l, out.1.savable t = true) → out.1.poolsFit l = true →
      s.saveTeams l = l.foldl (fun u t => u.storeTeam t.ref) out.1)) ∧
  (∀ l idx core seats, s.served = some l → l.kernel.coresident = false → s.nextTeam l = .restore idx →
    core ∈ s.targets l → s.storesFit s.teams l.kernel core = true → seats.length = l.kernel.groups →
    seatsGood (s.taken s.teams) l.kernel.footprint (teamCores l.kernel core) seats = true →
    exec (.teamRestore { team := { seq := l.seq, idx }, core, seats }) s =
      .next (s.restoreTeam { team := { seq := l.seq, idx }, core, seats }))

/-- R163, R179, R192, R236, R261, R263, R265, R268, R327: the oldest waiter of a full request queue is granted the entry
that frees. A request reads its source, whose bytes stand where its command says (`CopiesTakeARequestEntry`), makes its
release add and has its destination's bytes ready; then it writes them to their places, makes its completion add, counts
and leaves its entry. A schedule entry issues in order, parks on a fault, and waits at its gate; a CPA's rectangle goes
to staging once the operations before it have ended; a scratchpad line under way is written whole; released replay
entries go back to their request, and terminated ones end their launch with reason 3. A marked entry is cause 24 (R375).

R232, R233, R269: the engine's first entry starts once the engine is free, seeing the bytes of its slots as they stand;
its occupancy ends with the cells written that `EngineOperationsComputeTheirCells` gives for those slots and its fibre's
completed count raised; the write-combining buffer drains once a line of it has aged, to its homes or on its way to a
peer. How a request goes through its runs and pieces, and that a line which ages drains the buffer, are the model's
readings (log 22, 38, 39). -/
def Obligations.EnginesAndBuffersStepInOrder : Prop :=
  (∀ (s : State) (core : Nat) (w : CopyWaiter) (i : Nat),
    (s.core core).copyWaiters.find? (fun w => !w.granted) = some w → (s.core core).freeReq = some i →
    (s.core core).reqs.length + (s.core core).granted < 32 →
    (∀ r, w.fib = some r → ∃ t, exec (.copyRequestStart core) s = .next t ∧
      (t.core core).copyWaiters =
        ((s.core core).copyWaiters.map fun x => if x = w then { x with granted := true } else x) ∧
      ∀ f, s.fibre? r = some f → ∃ h, t.fibre? r = some h ∧ h.hold = if f.hold = .copyQueue then .none else f.hold) ∧
    (∀ t u k cmd ok,
      let out : State := s.modCore core fun k => { k with copyWaiters := k.copyWaiters.filter fun x => x != w }
      w.fib = none → out.team? w.team = some t → out.nextEntry t = .go u k cmd ok →
      exec (.copyRequestStart core) s = .next (u.startEntry t i k cmd ok))) ∧
  (∀ (s : State) (core req : Nat) (q : CopyReq) (t : Team), s.reqLive core req = some q → s.team? q.team = some t →
    (t.marked.contains (.copyEntry core req) = true →
      let u := ((s.unmark q.team fun x => x == .copyEntry core req).teamError q.team 24 q.blame.1 q.blame.2).continueRollback q.team
      ∀ i ∈ [Instr.copyReleaseAdd core req, .copyCompletion core req, .cpaReadPhase core req, .pendingBitClear core req],
        exec i s = .next u) ∧
    (t.marked.contains (.copyEntry core req) = false →
      exec (.copyReleaseAdd core req) s = .next (State.afterCopy (s.copyRead core req) q) ∧
      exec (.copyCompletion core req) s = .next ((State.afterCopy (s.copyFinish core req) q).evalEwaits q.team) ∧
      exec (.pendingBitClear core req) s = .next ((s.clearLine core req).continueRollback q.team)) ∧
    (∀ bytes : Nat → List Byte, t.calm → t.pendingLines = [] → q.fresh → s.parkedOf core q = [] →
      let idx := q.indexRuns.flatMap fun r => bytes r.1
      (∀ r ∈ q.indexRuns ++ q.dataRuns idx, s.finds core q r.2.1 r.2.2 (bytes r.1)) → s.takesAdd core q q.relLoc q.cmd.rel →
      let out := q.cmd.outputs (q.recs.map parseRec) idx ((q.dataRuns idx).flatMap fun r => bytes r.1) q.staged
      ∃ u q' t', exec (.copyReleaseAdd core req) s = .next u ∧ u.req? core req = some q' ∧ u.team? q.team = some t' ∧
        q'.released = true ∧ q'.pieces = piecesOf out.1 [] ∧
        (∀ loc, q.relLoc = some (.inl loc) → u.wordAt loc = s.wordAt loc + q.cmd.relInc.setWidth 64) ∧
        ∀ o, q.relLoc = some (.inr o) → numAt t'.scratch o 8 = (numAt t.scratch o 8 + q.cmd.relInc.toNat) % 2 ^ 64) ∧
    (t.calm → canonical {} s.cores = true → q.released = true → q.halted = false → s.apart core q →
      (∀ p ∈ q.pieces, s.takesPiece core q p) → s.takesAdd core q q.compLoc q.cmd.comp →
      (∀ x ∈ s.cores, ∀ y ∈ x.2.reqs, y.team = q.team → (x.1 = core ∧ y.idx = req) ∨ y.openLine = none) →
      (∀ o, q.compLoc = some (.inr o) → 0x40 ≤ o ∧
        ∀ p ∈ q.pieces, ∀ x, p.place = .scratch x → x + p.bytes.length ≤ o ∨ o + 8 ≤ x) →
      ∃ u t', exec (.copyCompletion core req) s = .next u ∧ u.team? q.team = some t' ∧ u.req? core req = none ∧
        (∀ p ∈ q.pieces, u.holds s core q p) ∧
        (∀ loc, q.compLoc = some (.inl loc) → u.wordAt loc = s.wordAt loc + q.cmd.compInc.setWidth 64) ∧
        (∀ o, q.compLoc = some (.inr o) → numAt t'.scratch o 8 = (numAt t.scratch o 8 + q.cmd.compInc.toNat) % 2 ^ 64) ∧
        (∀ k, q.origin = .entry k → numAt t'.scratch 8 8 = (numAt t.scratch 8 8 + 1) % 2 ^ 64) ∧
        ∀ f pos x, q.origin = .fibre f pos → s.fibre? f = some x →
          (∀ c ∈ s.cores, ∀ y ∈ c.2.reqs, ∀ n, y.origin = .fibre f n → c.1 = core ∧ y.idx = req) →
          ∃ y, u.fibre? f = some y ∧ y.counts = { x.counts with copyC := x.counts.copyI, remC := x.counts.remI }) ∧
    (∀ line, t.marked = [] → t.rolling = false → q.openLine = some line → q.halted = false → s.apart core q →
      (∀ p ∈ q.pieces, pieceIn line p = true → (p.mask = [] ∨ p.mask.length = p.bytes.length) ∧
        ∃ o, s.reach core q .copyWrite p.place p.bytes.length = .scratch o) →
      ∃ u q', exec (.pendingBitClear core req) s = .next u ∧ u.req? core req = some q' ∧
        q'.pieces = q.pieces.filter (fun p => !pieceIn line p) ∧
        ∀ p ∈ q.pieces, pieceIn line p = true → u.holds s core q p) ∧
    (q.waitsPhase = true → t.marked = [] →
      let tag := t.tagOr (cpaReg q.cmd)
      let x := cpaRect q.cmd tag
      (∀ f pos, q.origin = .fibre f pos → ∀ e ∈ s.fibreOps t.core f,
        q.mark ≤ e.num ∨ ∀ y ∈ opWrites t e.op e.w, y.overlaps x = false ∧ x.overlaps y = false) →
      ∃ u q', exec (.cpaReadPhase core req) s = .next u ∧ u.req? core req = some q' ∧ q'.staged = some (tag,
        (gridOf (cpaRows q.cmd) (cpaEls q.cmd)).map fun p => BitVec.ofNat 64 (t.element tag x.r0 x.c0 p.1 p.2)))) ∧
  (∀ (s : State) (t : Team), s.team? t.ref = some t →
    (∀ s' k cmd ok i, s.nextEntry t = .go s' k cmd ok → (s'.core t.core).freeReq = some i →
      (s'.core t.core).copyWaiters = [] → (s'.core t.core).reqs.length < 32 →
      let u := s'.startEntry t i k cmd ok
      exec (.scheduleEntryIssue t.ref) s = .next u ∧
      (cmd.op ≠ 0xE7 → ∃ q, u.req? t.core i = some q ∧ q.team = t.ref ∧ q.origin = .entry k ∧ q.cmd = cmd ∧ q.recs = ok.recs ∧
        q.relLoc = ok.rel ∧ q.compLoc = ok.comp ∧ q.released = false ∧ q.reads = [] ∧ q.pieces = []) ∧
      ∀ x, cmd.op ≠ 0xE7 → s'.team? t.ref = some x → ∃ t', u.team? t.ref = some t' ∧ t'.position = (k + 1) % 2 ^ 32) ∧
    (∀ s', s.nextEntry t = .gated s' → exec (.scheduleEntryIssue t.ref) s = .next s') ∧
    (s.nextEntry t = .consumed → exec (.scheduleEntryIssue t.ref) s = .next (s.teamError t.ref 24 none 0)) ∧
    (∀ s' k op u c rs unit a, s.nextEntry t = .park s' k op u c rs unit a → exec (.scheduleEntryIssue t.ref) s =
      .next ((s'.park t.core t.ref (.entry k) op none .whole u c rs unit a).getD s')) ∧
    (∀ k, s.kernel? t.ref.seq = some k → k.schedCount ≤ t.position → exec (.scheduleEntryIssue t.ref) s = .next s)) ∧
  (∀ (s : State) (core entry : Nat) (e : ReplayEntry), s.replay? core entry = some e →
    ((∀ x ∈ s.teams, x.marked = []) → ∃ t, exec (.replayRelease core entry) s = .next t ∧ t.replay? core entry = none) ∧
    (∀ home i q, e.req = some (home, i) → s.req? home i = some q → q.team = e.team →
      (∀ t, s.team? e.team = some t → t.marked = [] ∧ ∃ g ∈ t.groups, g.retired = false) →
      ∃ u q', exec (.replayRelease core entry) s = .next u ∧ u.req? home i = some q' ∧
        (∀ p, p ∈ q'.pieces ↔ p ∈ q.pieces ∨ p ∈ e.pieces) ∧ q'.held = q.held.filter fun n => !e.runs.contains n) ∧
    exec (.replayTerminate core entry) s = .next (s.terminate e.team.seq { reason := 3, cause := e.cause })) ∧
  (∀ (s : State) (core : Nat) (e : EngineOp) (rest : List EngineOp) (t : Team),
    (s.core core).engine = e :: rest → s.team? e.fib.team = some t →
    (e.started = false → (s.core core).engineFree ≤ s.coreCycle core → e.cycle < s.colCycle (colOf core) →
      ∃ u e', exec (.engineOpStart core) s = .next u ∧ (u.core core).engine = e' :: rest ∧ e'.started = true ∧
        e'.endCycle = s.coreCycle core + occupancy t e.op e.w ∧ (u.core core).engineFree = e'.endCycle ∧
        (∀ n b, (opTiles e.op e.w)[0]? = some n → b < 9216 → byteAt e'.tileA b = byteAt t.slotBytes (slotKey n b)) ∧
        ∀ n b, (opTiles e.op e.w)[1]? = some n → b < 9216 → byteAt e'.tileB b = byteAt t.slotBytes (slotKey n b)) ∧
    (e.started = true → e.endCycle ≤ s.coreCycle core → t.calm → e.fresh = [] →
      ∃ u t', exec (.engineOpComplete core) s = .next u ∧ (u.core core).engine = rest ∧ u.team? e.fib.team = some t' ∧
        (∀ key, look 0 t'.cells key = cellAfter t (opCells t e (slotArray e.tileA) (slotArray e.tileB)) key) ∧
        ∀ f, s.fibre? e.fib = some f → ∃ h, u.fibre? e.fib = some h ∧ h.counts = { f.counts with matC := f.counts.matC + 1 }) ∧
    (e.started = true → s.coreCycle core < e.endCycle → exec (.engineOpComplete core) s = .next s)) ∧
  (∀ (s : State) (core : Nat) (l : WcLine), (s.core core).wcb.find? (fun l => l.entered + l.age ≤ s.tick) = some l →
    exec (.wcAgeingDrain core) s = .next (s.drain core) ∧ ((s.drain core).core core).wcb = [] ∧
    ((s.core core).wcb = [l] → isPeer l.loc = false → s.unprotected →
      ∀ o v, o < 128 → l.byte? o = some v → byteAt (s.drain core).mem (l.loc + o) = v) ∧
    ((s.core core).wcb = [l] → isPeer l.loc = true → ∃ port,
      ((s.drain core).core core).flight = (s.core core).flight ++ [{ l with port }]))

/-- R412, R413: at a boundary that is due, clusters that ask are granted permits in rotation while the pool has some,
and move to boost; the refused fall from boost to intermediate and then to nominal, and those that do not ask are
nominal; a window's end puts one permit back where the mean draw was below 3.9 kW and the pool is not full. The draw is an
operand of the step (log 50). -/
def Obligations.BoostPermitsAreGrantedInRotation : Prop := ∀ (s : State) (mw : Nat),
  (s.boundaryDue = true → ∃ t, exec (.boostBoundary mw) s = .next t ∧ t.boundaries = s.boundaries + 1 ∧
    let asks := ((List.range 4).map fun i => (s.rotation + i) % 4).filter fun c => look false s.breq c
    let won := if s.boundaries ≠ 0 ∧ 4600000 < mw then [] else asks.take s.pool
    t.pool = s.pool - won.length ∧ t.charged = s.charged + BitVec.ofNat 64 won.length ∧ t.refilled = s.refilled ∧
    (∀ c ∈ won, look 0 t.opPoint c = 2 ∧ look 0 t.clusterCharged c = look 0 s.clusterCharged c + 1) ∧
    (∀ c ∈ asks, c ∉ won → look 0 t.opPoint c = if look 0 s.refusals c = 0 ∧ look 0 s.opPoint c = 2 then 1 else 0) ∧
    (∀ c < 4, c ∉ asks → look 0 t.opPoint c = 0 ∧ look 0 t.refusals c = 0) ∧
    (∀ c, won.getLast? = some c → won.length < asks.length → t.rotation = (c + 1) % 4)) ∧
  (s.windowDue = true → ∃ t, exec (.permitRefill mw) s = .next t ∧ t.windows = s.windows + 1 ∧
    (mw < 3900000 → s.pool < 64 → t.pool = s.pool + 1 ∧ t.refilled = s.refilled + 1) ∧
    (3900000 ≤ mw ∨ 64 ≤ s.pool → t.pool = s.pool ∧ t.refilled = s.refilled))

/-- R411: a TTRIP write whose fields satisfy TDN < TUP < TCRIT sets all three, and any other is ignored whole.

R409, R414, R415, R416, R417: a governor sample steps the level up from TUP, down from TDN, and to 7 from TCRIT, at most
one step in 10 µs but for TCRIT; GOVCTL sets the floor, to which the level rises, and, the model's choice (log 84),
until the first sample falls; a step takes effect at the next tick boundary; the sixteenth droop sample in a row over
the limit sets the supply cap; an idle core is gated and loses its caches, and an idle insole bank sleeps. What SUPSTAT
shows of a droop run, and banks as regions, are the model's readings (log 51, 55). -/
def Obligations.GovernorFollowsItsSamples : Prop :=
  (∀ (s : State) (col : Nat) (v : DWord),
    let tup := v.extractLsb' 0 16
    let tdn := v.extractLsb' 16 16
    let tcrit := v.extractLsb' 32 16
    (tdn < tup → tup < tcrit → s.soleRuns (clusterOf col) = true → ∃ t, exec (.ttripWrite col v) s = .next t ∧
      (t.col col).tup = tup ∧ (t.col col).tdn = tdn ∧ (t.col col).tcrit = tcrit) ∧
    (¬(tdn < tup ∧ tup < tcrit) → exec (.ttripWrite col v) s = .next s)) ∧
  (∀ (s : State) (col core temp : Nat) (v : DWord),
    let c := s.col col
    let g := c.goal
    let new (t : State) : Nat := if s.now % unitsPerTick = 0 then (t.col col).level else (t.col col).goal
    let low := (v.extractLsb' 8 3).toNat
    (s.now % unitsPerTick = 0 → c.steps = []) →
    (s.sampleDue c.lastSample = true → temp < 65536 → ∃ t, exec (.governorSample col temp) s = .next t ∧
      ((t.col col).temp.toNat = temp) ∧
      (c.tcrit.toNat ≤ temp → g ≤ 7 → new t = 7) ∧
      (temp < c.tcrit.toNat → c.tup.toNat ≤ temp → g < 7 → s.paced c = true → new t = g + 1) ∧
      (temp < c.tcrit.toNat → temp < c.tup.toNat → temp ≤ c.tdn.toNat → c.lmin.toNat < g → s.paced c = true → new t = g - 1) ∧
      (temp < c.tcrit.toNat → s.paced c = false → new t = g)) ∧
    (s.soleRuns (clusterOf col) = true → ∃ t, exec (.govctlWrite col v) s = .next t ∧ (t.col col).lmin = v.extractLsb' 8 3 ∧
      look false t.breq (clusterOf col) = v.getLsbD 0 ∧
      new t = if c.lastSample = none ∧ s.tick < 1000 then low else max g low) ∧
    (∀ drop, s.sampleDue c.lastDroop = true →
      (drop ≤ Config.staticDrop col + 40 → ∃ t, exec (.supplyDroopSample col drop) s = .next t ∧
        (t.col col).droopRun = 0 ∧ (t.col col).supCap = c.supCap) ∧
      (Config.staticDrop col + 40 < drop → ∃ t, exec (.supplyDroopSample col drop) s = .next t ∧
        (t.col col).droopRun = c.droopRun + 1 ∧ (t.col col).supCap = (c.supCap || decide (c.droopRun = 15)))) ∧
    ((s.col (colOf core)).pgen = true → (s.core core).gated = false → s.coreIdle core = true →
      (s.core core).idleFrom + (s.col (colOf core)).gidle.toNat ≤ s.tick → ∃ t, exec (.coreGate core) s = .next t ∧
        (t.core core).gated = true ∧ (t.core core).l1 = [] ∧ (t.core core).icache = [] ∧ (t.core core).tlb = [] ∧
        (t.core core).records = []) ∧
    (∀ bank, s.bankIdle col bank = true → ∃ t, exec (.insoleBankSleep col bank) s = .next t ∧
      (t.col col).asleep = c.asleep ++ [bank]))

/-- R179, R321, R418 to R421: a scrub visit of a place that its column scrubs, once in a sweep, finds it clean, counts a
corrected error, or poisons what an uncorrectable one spoils; at most RATE rows of a shank are tested in a millisecond;
a failing row takes a spare; the test resumes 10 µs after a demand access; a failed spare path ends testing; and once a
region's shank has no spare left the region is displaced to a free spill slot, or lost where none is left. Which sectors
are poisoned and counted, free places, and the number of spill slots are the model's (log 52, 53, 54). -/
def Obligations.ErrorsAreScrubbedSparedAndDisplaced : Prop := ∀ (s : State) (col place shank region : Nat),
  (∀ level, scrubs col level place = true → (s.col col).period level ≠ 0 →
    (∀ u, scrubUnit level place = some u → (s.col col).wasSwept level (.inl u) (s.sweep col level) = false) →
    (∃ t, exec (.scrubVisit col level place .clean) s = .next t ∧ t.poison = s.poison ∧ (t.col col).corrected = (s.col col).corrected ∧
      ∀ u, scrubUnit level place = some u → (t.col col).wasSwept level (.inl u) (s.sweep col level) = true) ∧
    (∃ t, exec (.scrubVisit col level place .correctable) s = .next t ∧
      (t.col col).corrected = (s.col col).corrected + 1) ∧
    ((s.col col).uncorrected.toNat < 2 ^ 63 → ∃ t, exec (.scrubVisit col level place .uncorrectable) s = .next t ∧
      (s.col col).uncorrected.toNat < (t.col col).uncorrected.toNat)) ∧
  (∀ level u, scrubUnit level place = some u → (s.col col).wasSwept level (.inl u) (s.sweep col level) = true →
    exec (.scrubVisit col level place .uncorrectable) s = .next s) ∧
  (scrubs col .hbm place = true → (s.col col).scrubHbm ≠ 0 →
    (s.col col).wasSwept .hbm (.inl (place / 32)) (s.sweep col .hbm) = false → s.eventRingFull col = true → (s.col col).elbase = 0 →
    ∃ t, exec (.scrubVisit col .hbm place .uncorrectable) s = .next t ∧ place / 32 ∈ t.poison) ∧
  ((s.col col).mayTest shank s.tick = true →
    (∃ t, exec (.shankTestRow col shank false) s = .next t ∧ (t.col col).shBusy = some shank ∧ (t.col col).spares = (s.col col).spares) ∧
    ∃ t, exec (.shankTestRow col shank true) s = .next t ∧ (t.col col).shBusy = some shank ∧
      (t.col col).sparesOf shank = (s.col col).sparesOf shank - 1) ∧
  ((s.col col).rowsIn shank (s.tick / 1000000) ≥ (s.col col).shRate.toNat → ∀ bad, exec (.shankTestRow col shank bad) s = .next s) ∧
  (∀ since, (s.col col).shStopped.find? (fun y => decide (y.2 + 10000 ≤ s.tick)) = some (shank, since) →
    (s.col col).shTen = true → (s.col col).shNosp = false → (s.col col).shBusy = none →
    ∃ t, exec (.shankTestResume col) s = .next t ∧ (t.col col).shBusy = some shank ∧
      (t.col col).shStopped = (s.col col).shStopped.filter fun y => y.1 != shank) ∧
  (∃ t, exec (.sparePathFailure col) s = .next t ∧ (t.col col).shNosp = true ∧ (t.col col).shBusy = none) ∧
  ((s.regionAt region).st = 0 → s.sparesGone region = true →
    (s.spillSlots < Config.spillSlots → ∃ t, exec (.regionDisplacement region) s = .next t ∧
      (t.regionAt region).st = 1 ∧ (t.regionAt region).spill = BitVec.ofNat 32 s.spillSlots ∧ t.spillSlots = s.spillSlots + 1) ∧
    (Config.spillSlots ≤ s.spillSlots → ∃ t, exec (.regionLoss region) s = .next t ∧ (t.regionAt region).st = 3)) ∧
  ((s.regionAt region).st = 1 → ∃ t, exec (.displacementSwitch region) s = .next t ∧ (t.regionAt region).st = 2)

/-- R10, R268, R273, R395: ring sizes outside 4 to 16 disable a ring; the save pool's registers change while no area
lies in the pool, with their low 12 bits clear; a register takes a write as its access code says, and none while its sole
is in reset (R405); and a held event
enters the ring once it has room. Low bits dropped are the model's reading (log 43). -/
def Obligations.RegistersTakeWritesAsTheirCodesSay : Prop := ∀ (s : State) (col n : Nat) (v : DWord),
  let size := if 4 ≤ v.toNat % 32 ∧ v.toNat % 32 ≤ 16 then v.toNat % 32 else 0
  (s.soleRuns (clusterOf col) = true →
  (∃ t, exec (.ringSizeWrite col false v) s = .next t ∧ (t.col col).evsize = size) ∧
  exec (.ringSizeWrite col true v) s = .next ((s.modCol col fun c => { c with scsize := size }).retrySysc col) ∧
  ((s.col col).pool ≠ [] → exec (.savePoolWrite col false v) s = .next s ∧ exec (.savePoolWrite col true v) s = .next s) ∧
  ((s.col col).pool = [] →
    (∃ t, exec (.savePoolWrite col false v) s = .next t ∧ (t.col col).spbase = v &&& ~~~0xFFF) ∧
    ∃ t, exec (.savePoolWrite col true v) s = .next t ∧ (t.col col).spsize = v &&& ~~~0xFFF) ∧
  (∃ t, exec (.registerWrite (.spt col n) v) s = .next t ∧ look 0 (t.col col).spt n = v &&& 3) ∧
  (∃ t, exec (.registerWrite (.lsel col) v) s = .next t ∧ (t.col col).lsel = v) ∧
  (∃ t, exec (.registerWrite (.evirq col) v) s = .next t ∧ (t.col col).evirq = v &&& 0x80000000000007FF)) ∧
  (s.soleRuns (clusterOf col) = false → exec (.registerWrite (.evirq col) v) s = .next s) ∧
  (∃ t, exec (.registerWrite .lostto v) s = .next t ∧ t.lostto = if 1 ≤ v.toNat ∧ v.toNat ≤ 10000 then v else s.lostto) ∧
  (∀ hart, s.hartRuns hart = true → (∃ t, exec (.registerWrite (.uevCsr hart 0x8C1) v) s = .next t ∧
      (t.hartAt hart).uevp = (s.hartAt hart).uevp &&& ~~~v) ∧
    ((s.hartAt hart).mode = .user → ∃ t x, exec (.registerWrite (.uevCsr hart 0x5C1) v) s = .next t ∧
      (t.hartAt hart).exception = some (2, x))) ∧
  (∀ hart, s.hartRuns hart = false → exec (.registerWrite (.uevCsr hart n) v) s = .next s) ∧
  (∀ e rest, (s.col col).held = e :: rest → s.eventRingFull col = false →
    exec (.heldEventWrite col) s = .next ((s.modCol col fun c => { c with held := rest }).writeEvent col e))

/-- R336, R397, R398: a user event for the hart's own ASID sets its vector and, if killed, bit 63 of uevc; a
user-level interrupt goes to uevt with the pc saved and UIE off, and UEVRET undoes it; a write of uevasid exchanges
pending vectors through the table; a consumed poisoned byte raises exception 19. Tables are written while no checkpoint
protects a page (R424). The exchange without a table, and
the exception of a barred write, are the model's readings (log 45). -/
def Obligations.UserEventsReachTheirHarts : Prop := ∀ (s : State) (hart : Nat) (v : DWord), s.hartRuns hart = true →
  let h := s.hartAt hart
  let free := ∀ k ∈ s.ckpt, ∀ p ∈ k.2.pages, p.isProtected = false
  (∀ e rest, h.inbox = e :: rest → e.asid = h.uevasid.toNat → ∃ t, exec (.userEventDelivery hart) s = .next t ∧
    (t.hartAt hart).inbox = rest ∧ (t.hartAt hart).uevp = h.uevp ||| (1#64 <<< (e.vector % 64)) ∧
    (t.hartAt hart).uevc = h.uevc ||| if e.killed then 0x8000000000000000 else 0) ∧
  (∀ e rest, h.inbox = e :: rest → e.asid ≠ h.uevasid.toNat → h.uevtab.toNat ≠ 0 →
    let a := h.uevtab.toNat + 16 * e.asid
    free → ∃ t, exec (.userEventDelivery hart) s = .next t ∧ t.wordAt a = s.wordAt a ||| (1#64 <<< (e.vector % 64)) ∧
      t.wordAt (a + 8) = s.wordAt (a + 8) ||| if e.killed then 0x8000000000000000 else 0) ∧
  (h.mode = .user → h.uie = true → h.uevp &&& h.uevm ≠ 0 → ∃ t, exec (.userEventInterrupt hart) s = .next t ∧
    (t.hartAt hart).uevepc = h.pc ∧ (t.hartAt hart).pie = true ∧ (t.hartAt hart).uie = false ∧
    (t.hartAt hart).pc = h.uevt &&& ~~~3) ∧
  (s.hart = hart → h.mode = .user → ∃ t, exec .uevret s = .next t ∧ (t.hartAt hart).pc = h.uevepc ∧
    (t.hartAt hart).uie = h.pie) ∧
  (s.hart = hart → h.mode ≠ .user → ∃ t x, exec .uevret s = .next t ∧ (t.hartAt hart).exception = some (2, x) ∧
    (t.hartAt hart).pc = h.pc) ∧
  (h.mode ≠ .user → h.uevtab.toNat ≠ 0 → v.setWidth 16 ≠ h.uevasid → free → ∃ t, exec (.uevasidWrite hart v) s = .next t ∧
    let old := h.uevtab.toNat + 16 * h.uevasid.toNat
    let new := h.uevtab.toNat + 16 * (v.setWidth 16).toNat
    t.wordAt old = s.wordAt old ||| h.uevp ∧ t.wordAt new = 0 ∧ t.wordAt (new + 8) = 0 ∧
      (t.hartAt hart).uevasid = v.setWidth 16 ∧ (t.hartAt hart).uevp = s.wordAt new ∧
      (t.hartAt hart).uevc = s.wordAt (new + 8) &&& 0x8000000000000000) ∧
  (h.mode = .user → ∃ t x, exec (.uevasidWrite hart v) s = .next t ∧ (t.hartAt hart).exception = some (2, x)) ∧
  (∀ pa, s.poison.contains (pa / 32) = true → ∃ t, exec (.lodgePoisonConsumption hart pa) s = .next t ∧
    (t.hartAt hart).exception = some (19, BitVec.ofNat 64 pa))

/-- R164, R170, R172, R174, R197, R334, R399: operations of lodge harts, peers and PCIe agents on HBM act at the home:
loads return the bytes, stores write them, additions and sets change the aligned word; a walk fills the TLBs; a
shoot-down drops what it names everywhere once every store translated before is performed. Exception codes and
reservations are presumed of RISC-V (log 40, 44); poisoned words and walks are the model's readings (log 24, 47, 68). -/
def Obligations.OuterAgentsActAtTheHome : Prop := ∀ (s : State) (agent addr : Nat) (bs : List Byte) (v : DWord),
  (s.hartRuns agent = true → addr % 8 = 0 → addr + 8 ≤ 2 ^ 40 → s.poisoned addr 8 = [] →
    (∃ t, exec (.lodgeHartMemoryAccess agent addr (.load 8)) s = .next t ∧ (t.hartAt agent).loaded = s.wordAt addr ∧ t.mem = s.mem) ∧
    (∃ t, exec (.lodgeHartMemoryAccess agent addr (.amoAdd v)) s = .next t ∧ (t.hartAt agent).loaded = s.wordAt addr ∧
      t.wordAt addr = s.wordAt addr + v) ∧
    (∃ t, exec (.lodgeHartMemoryAccess agent addr .loadReserved) s = .next t ∧ (t.hartAt agent).loaded = s.wordAt addr ∧
      (t.hartAt agent).reservation = some (addr, 8)) ∧
    ((s.hartAt agent).reservation = some (addr, 8) →
      ∃ t, exec (.lodgeHartMemoryAccess agent addr (.storeConditional v)) s = .next t ∧ (t.hartAt agent).loaded = 0 ∧
        t.wordAt addr = v ∧ (t.hartAt agent).reservation = none) ∧
    ((s.hartAt agent).reservation ≠ some (addr, 8) →
      ∃ t, exec (.lodgeHartMemoryAccess agent addr (.storeConditional v)) s = .next t ∧ (t.hartAt agent).loaded = 1 ∧
        t.mem = s.mem)) ∧
  (addr + bs.length ≤ 2 ^ 40 →
    (s.hartRuns agent = true → exec (.lodgeHartMemoryAccess agent addr (.store bs)) s = .next (s.writeLoc addr bs)) ∧
    (s.pcieDown.contains agent = false → exec (.pcieInboundRequest agent addr (.store bs)) s = .next (s.writeLoc addr bs)) ∧
    (agent ≠ s.pkgid.toNat → s.anyPort = true → exec (.peerRequest agent addr (.store bs)) s = .next (s.writeLoc addr bs))) ∧
  (agent ≠ s.pkgid.toNat → s.anyPort = true → addr % 8 = 0 → addr + 8 ≤ 2 ^ 40 → s.poisoned addr 8 = [] →
    ∃ t, exec (.peerRequest agent addr (.amoAdd v)) s = .next t ∧ t.wordAt addr = s.wordAt addr + v) ∧
  (∀ core asid root (va : DWord) p, s.tlbFind { core, asid, root } va.toNat = none →
    s.xlate { core, asid, root } .load va.toNat = .ok p →
    exec (.translationWalk core asid root va) s = .next (s.touch { core, asid, root } .load va.toNat)) ∧
  (∀ asid va, s.flushStores.allAcked = true → exec (.sfenceVma asid va) s = .next (s.flushStores.shoot asid (va.map (·.toNat)))) ∧
  (∀ asid va, s.flushStores.allAcked = false → exec (.sfenceVma asid va) s = .next s.flushStores)

/-- R422 to R426: a command to a busy engine is ignored; a well-formed capture begins, and at T0 protects every page
of its ranges; a page copied aside lies in the reserve, zeros for its poisoned sectors; a completed NVMe command moves one
page, a failed one is retried once and then, like one that takes more than ten seconds, fails the operation; the end of an
operation adds one to its counter, and that of a capture writes the poisoned sectors of its ranges.
Corners of codes and counts are the model's readings (log 56, 57). -/
def Obligations.CheckpointEngineCapturesAndRestores : Prop := ∀ (s : State) (sole : Nat),
  let k := s.ckptAt sole
  let free := ∀ k ∈ s.ckpt, ∀ p ∈ k.2.pages, p.isProtected = false
  let issues (t : State) (n : Nat) (p : CkPage) : Prop := ∃ c, (t.ckptAt sole).nvme = some c ∧ c.issued = s.tick ∧
    c.retry = false ∧ c.write = ((t.ckptAt sole).busy == 1) ∧ c.page = n ∧ c.block = p.block
  (k.busy ≠ 0 → s.soleRuns sole = true → (∃ t, exec (.ckcmdCapture sole) s = .next t ∧ t.ckptAt sole = { k with ignored := true }) ∧
    ∃ t, exec (.ckcmdRestore sole) s = .next t ∧ t.ckptAt sole = { k with ignored := true }) ∧
  (k.busy = 0 → s.soleRuns sole = true → k.earlyCode s sole = none →
    (∃ t, exec (.ckcmdCapture sole) s = .next t ∧ (t.ckptAt sole).busy = 1 ∧ (t.ckptAt sole).pagesDone = 0 ∧
      ∃ due, (t.ckptAt sole).t0 = some due ∧ s.now + 1000 * unitsPerTick ≤ due * unitsPerTick ∧
        due * unitsPerTick < s.now + 1001 * unitsPerTick) ∧
    (∀ p rest, k.pageList s = p :: rest → ∃ t, exec (.ckcmdRestore sole) s = .next t ∧ (t.ckptAt sole).busy = 2 ∧ issues t 0 p)) ∧
  (∀ due p rest, k.t0 = some due → due ≤ s.tick → s.pcieDown.contains sole = false → k.pageList s = p :: rest →
    ∃ t, exec (.captureT0 sole) s = .next t ∧ (t.ckptAt sole).t0 = none ∧ issues t 0 p ∧
      (t.ckptAt sole).pages.map (fun p => { p with bad := 0 }) = k.pageList s ∧ ∀ p ∈ (t.ckptAt sole).pages, p.isProtected = true) ∧
  (∀ n p j, k.pages[n]? = some p → k.busy = 1 → p.isProtected = true → k.freeSlot = some j → Memory.wf s.mem = true →
    ∃ t p', exec (.reserveCopyComplete sole n) s = .next t ∧ (t.ckptAt sole).pages[n]? = some p' ∧ p'.isProtected = false ∧
      p'.slot = some j ∧ p'.image = some (s.pageImage p).1 ∧ p'.bad = (s.poisoned (s.pageLoc p) 4096).length ∧
      ∀ i < 4096, byteAt t.mem (k.ckres.toNat + 4096 * j + i) =
        if s.poison.contains ((s.pageLoc p + i) / 32) then 0 else byteAt s.mem (s.pageLoc p + i)) ∧
  (∀ c data, k.nvme = some c →
    (∀ ok, c.issued + 10000 * msTicks < s.tick → exec (.nvmeCommandCompletion sole ok data) s = .next (s.ckFail sole 3)) ∧
    (c.issued + 10000 * msTicks ≤ s.tick → exec (.nvmeTimeout sole) s = .next (s.ckFail sole 3)) ∧
    (s.tick ≤ c.issued + 10000 * msTicks →
      (c.retry = false → exec (.nvmeCommandCompletion sole false data) s =
        .next (s.modCkpt sole fun k => { k with nvme := some { c with retry := true, issued := s.tick } })) ∧
      (c.retry = true → exec (.nvmeCommandCompletion sole false data) s = .next (s.ckFail sole 2)) ∧
      (∀ p q rest, k.pages = p :: q :: rest → c.page = 0 → p.streamed = false → q.streamed = false → free →
        (q.slot.isSome = true ∨ ∃ j < k.ckresz.toNat / 4096, ∀ x ∈ q :: rest, x.slot ≠ some j) →
        ∃ t p' q', exec (.nvmeCommandCompletion sole true data) s = .next t ∧
          (t.ckptAt sole).pagesDone = k.pagesDone + 1 ∧ issues t 1 q ∧
          (t.ckptAt sole).pages = p' :: q' :: rest ∧ p'.streamed = true ∧ p'.slot = none ∧ q' = { q with bad := q'.bad } ∧
          (k.busy = 2 → ∀ i < 4096, i < data.length → byteAt t.mem (s.pageLoc p + i) = data.getD i 0) ∧
          (k.busy ≠ 2 → t.mem = s.mem)) ∧
      (∀ p, k.pages = [p] → c.page = 0 → k.busy = 1 → p.streamed = false → free →
        let count := k.ckrt.toNat + 32 * p.entry + 24
        k.ckcnt.toNat + 8 ≤ count ∨ count + 4 ≤ k.ckcnt.toNat →
        ∃ t, exec (.nvmeCommandCompletion sole true data) s = .next t ∧ (t.ckptAt sole).busy = 0 ∧
          (t.ckptAt sole).failed = false ∧ numAt t.mem count 4 = p.bad % 2 ^ 32 ∧
          t.wordAt k.ckcnt.toNat = s.wordAt k.ckcnt.toNat + 1))) ∧
  (∀ code, k.pages = [] → free → (s.ckFail sole code).ckptAt sole = { k with
    busy := 0, nvme := none, failed := true, code := BitVec.ofNat 8 code })

/-- R399, R401, R402, R403: links and ports go down and come back: a port that fails, or whose flits fail their tag
twice, is no longer live; it returns by retraining or by attesting anew; what is outstanding on a port that stays down
longer than LOSTTO is lost: stores are never performed, an event tells their number with that of the lost atomics and adds,
each of which is cause 24 for its team, and loads are issued again and read their bytes anew. The ring of port events, which
request is the first and what a lost request did are the model's readings (log 60, 61). -/
def Obligations.LinksFailAndReturn : Prop := ∀ (s : State) (port : Nat),
  let p := s.portAt port
  (p.up = true → ∃ t, exec (.ualinkPortDown port) s = .next t ∧ (t.portAt port).up = false ∧
    (p.locked = false → (t.portAt port).downAt = some s.tick)) ∧
  (p.up = false → p.locked = false → s.pav.fabric = true → ∃ t, exec (.portRestored port) s = .next t ∧
    (t.portAt port).live = true ∧ (t.portAt port).downAt = none) ∧
  (p.live = true → p.flitFailed = false → ∃ t, exec (.flitTagFailure port false) s = .next t ∧ (t.portAt port).live = true ∧
    (t.portAt port).errors = p.errors + 1 ∧ (t.portAt port).flitFailed = true) ∧
  (p.live = true → p.flitFailed = true → ∃ t, exec (.flitTagFailure port true) s = .next t ∧ (t.portAt port).locked = true ∧
    (t.portAt port).live = false) ∧
  (p.locked = true → s.pav.fabric = true → ∃ t, exec (.linkReattest port) s = .next t ∧ (t.portAt port).locked = false ∧
    (t.portAt port).keyed = true) ∧
  (p.downAt = none → exec (.lostTimeout port) s = .next s) ∧
  (∀ t0, p.downAt = some t0 →
    let out := s.onPort port
    let adds := out.filter (·.changes)
    let lines := s.linesOn port
    let u := (out.filter fun x => !x.changes).foldl State.loadAgain (s.forget port).reroute
    let told (loc : Nat) : State := u.event portColumn
      { kind := 8, addr := BitVec.ofNat 64 (loc % 2 ^ 64), d0 := BitVec.ofNat 64 (port + 256 * s.downReason port)
        d1 := BitVec.ofNat 64 ((lines.flatMap (·.stores)).eraseDups).length, d2 := BitVec.ofNat 64 adds.length }
    let landed (v : State) : State := (v.cores.map (·.1)).foldl State.land v
    (s.tick < t0 + 1000 * s.lostto.toNat ∨ p.live = true → exec (.lostTimeout port) s = .next s) ∧
    (t0 + 1000 * s.lostto.toNat ≤ s.tick → p.live = false →
      (out = [] → lines = [] → exec (.lostTimeout port) s = .next (landed (s.forget port).reroute)) ∧
      (∀ loc rest, lines.map WcLine.first ++ adds.map (·.loc) ++ out.map (·.loc) = loc :: rest →
        exec (.lostTimeout port) s = .next ((firstOfTeams adds).foldl
          (fun v x => v.teamError x.fib.team 24 (some x.fib) x.pc) (landed (told loc)))))) ∧
  (∀ q, q ∈ s.onPort port ↔ ∃ r f x y, (r, f) ∈ s.allFibres ∧ x ∈ f.outstanding ∧ y ∈ x.remote ∧
    s.portOf (classOf y.1) = port ∧ (y.2 = true ∨ s.anyPort = true) ∧
    q = { fib := r, id := x.id, pc := x.pc, loc := y.1, changes := y.2 }) ∧
  (∀ l, l ∈ s.linesOn port ↔ ∃ k ∈ s.cores, l ∈ k.2.flight ∧ l.port = some port) ∧
  (∀ (q : LostRequest) (f : Fibre), s.fibre? q.fib = some f → ∃ h, (s.loadAgain q).fibre? q.fib = some h ∧
    h.outstanding.length = f.outstanding.length ∧ (s.loadAgain q).mem = s.mem ∧
    ∀ (k : Nat) (x : Pending), f.outstanding[k]? = some x → x.id = q.id → ∃ y, h.outstanding[k]? = some y ∧ y.id = x.id ∧
      y.remote = x.remote ++ [(q.loc, false)] ∧
      y.writes = x.writes.map fun w => (((x.reload.map s.reread).getD []).find? fun v => v.reg == w.reg).getD w) ∧
  (∀ (x : Reload) (t a n : Nat), x.runs = [(t, [(a, n)])] → x.own = [] → s.poison = [] →
    let bs := s.bytesAt a n
    let v := BitVec.ofNat 64 (natLE bs)
    (x.op ≠ 0xD3 → x.op ≠ 0xD4 → s.reread x = loadWrites x.w t bs) ∧
    (x.op = 0xD4 → s.reread x = if x.w.u then [⟨.uni x.w.d.toNat, v⟩] else vecWrites true x.w.d.toNat t v) ∧
    (x.op = 0xD3 → ∃ y, s.reread x = [y] ∧ y.value = (if satisfies v (look 0 x.thr t) then 1 else 0) ∧
      y.reg = if x.w.u then .uni x.w.d.toNat else .pred (x.w.d.toNat % 128) t)) ∧
  (∀ k l, l ∈ ((s.forget port).core k).flight → l.port ≠ some port) ∧ (s.forget port).onPort port = [] ∧
  (∃ t, exec (.pcieLinkDown port) s = .next t ∧ t.pcieDown.contains port = true ∧ t.mem = s.mem) ∧
  (∃ t, exec (.pcieLinkUp port) s = .next t ∧ t.pcieDown.contains port = false ∧ t.mem = s.mem)

/-- R314, R404 to R408: a package reset starts, counts failed starts and after three of them runs in minimal mode; an
election clears the scopes' valid bits; hellos are heard; at the end of the hello period the lowest attested ID
leads; followers take the leader's entries and validate them at its commit; a leader commits once all members have
acknowledged; heartbeats, their absence and abdications start elections anew. What a reset keeps, failed starts and
corners of elections are the model's readings (log 58, 59, 62). -/
def Obligations.PavilionStartsAndElects : Prop := ∀ (s : State) (facts : StartFacts) (h : Hello) (pkg gen : Nat)
    (entries : List ScopeDraft) (members : List Nat),
  (∃ t, exec .electionStart s = .next t ∧ (s.pav.fabric = true → t.pav.fabstat = 1 ∧ t.pav.leader = none ∧ t.pav.heard = [] ∧
    t.pav.electStart = some s.tick ∧ (∀ x ∈ t.scopes, x.2.valid = false) ∧ t.pav.gen = s.pav.gen ∧
    (none, PavMsg.hello s.ownId s.ownId s.pav.gen) ∈ t.pav.sent)) ∧
  (h.verified = true → s.pav.fabric = true → s.pav.fabstat = 1 → ∃ t, exec (.helloReceived h) s = .next t ∧ h ∈ t.pav.heard) ∧
  (s.electing 2000 = true → s.pav.leader = none →
    (∀ l rest, s.verifiedIds = l :: rest → s.ownId ∈ s.verifiedIds → l ≠ s.ownId →
      ∃ t, exec .helloPeriodEnd s = .next t ∧ t.pav.leader = some l ∧ t.pav.fabstat = 1) ∧
    (∀ rest, s.verifiedIds = s.ownId :: rest → exec .helloPeriodEnd s = .next (s.leaderWork (s.ownId :: rest)))) ∧
  (s.pav.fabstat = 1 → s.pav.leader = some pkg → pkg ≠ s.ownId → entries.length = 3 → entries.all s.includes = true →
    ∃ t, exec (.entriesReceived pkg entries) s = .next t ∧ t.pav.draft = entries ∧ (∀ n < 3, (look {} t.scopes n).valid = false) ∧
      (some pkg, PavMsg.ack) ∈ t.pav.sent) ∧
  (s.pav.fabstat = 1 → s.pav.leader ≠ some s.ownId → s.pav.draft ≠ [] → s.pav.draftGen = gen →
    ∃ t, exec (.commitReceived gen) s = .next t ∧ t.pav.fabstat = 2 ∧ t.pav.gen = gen ∧
      (∀ n < s.pav.draft.length, (look {} t.scopes n).valid = true)) ∧
  (s.pav.fabstat = 1 → s.pav.leader = some s.ownId → pkg ∈ s.pav.members → pkg ∉ s.pav.acked →
    ∃ t, exec (.entryAckReceived pkg) s = .next t ∧ pkg ∈ t.pav.acked ∧
      t.pav.fabstat = if s.pav.members.all (fun i => (s.pav.acked ++ [pkg]).contains i) then 3 else 1) ∧
  (s.pav.fabstat = 2 → (∃ t, exec .leaderHeartbeat s = .next t ∧ t.pav.heartbeat = s.tick) ∧
    (s.pav.heartbeat + 1000 * msTicks ≤ s.tick → ∃ t, exec .heartbeatTimeout s = .next t ∧ t.pav.fabstat = 1) ∧
    (s.pav.leader = some pkg → ∃ t, exec (.abdicationReceived pkg) s = .next t ∧ t.pav.fabstat = 1)) ∧
  (s.pav.fabstat = 3 → ∃ t, exec (.mergeRequestReceived pkg members) s = .next t ∧ t.pav.fabstat = 1) ∧
  (s.electing 5000 = true → ∃ t, exec .commitTimeout s = .next t ∧ t.pav.fabstat = 1 ∧ t.pav.electStart = some s.tick) ∧
  (∃ t, exec (.packageReset facts) s = .next t ∧ t.now = 0 ∧ t.mem = [] ∧ t.teams = [] ∧ t.pkgid = s.pkgid ∧
    (facts.pavilionOk = false → t.pav.held = true) ∧
    (facts.pavilionOk = true → 3 ≤ s.pav.fsc → t.pav.minimal = true ∧ t.pav.fsc = s.pav.fsc) ∧
    (facts.pavilionOk = true → s.pav.fsc < 3 → t.pav.minimal = false ∧ t.pav.fsc = s.pav.fsc + 1 ∧
      t.pav.lodgeHeld = !(facts.imagesOk && facts.selfTestOk))) ∧
  (∃ t, exec .bootdone s = .next t ∧ t.pav.fsc = 0 ∧ t.pav.watchdog = none) ∧
  (∀ due, s.pav.watchdog = some due → due ≤ s.tick → ∃ t, exec .startWatchdogExpiry s = .next t ∧ t.pav.reason = 6 ∧
    t.teams = [] ∧ t.pav.watchdog = none ∧ t.pav.fsc = s.pav.fsc)

/-! ## Words, steps, reset (chapters 1 and 3) -/

/-- Tables 3.1 to 3.5 and 3.9: words written out field by field decode to the instructions that they stand for, and a
word of an unassigned opcode is refused by its number. -/
def Obligations.WrittenWordsDecode : Prop :=
  let word (ws : List Word) := decode (ws.flatMap wordBytes)
  let plain (form : Form) (u : Bool) (f : BitVec 4) (d a : BitVec 8) : Fields := { shortWord u false a d f with form }
  word [0x00000018] = .ok (.nopShort true false) 1 ∧
  word [0x009072C0] = .ok (.iabsShort 9 7 false false) 1 ∧
  word [0x00403202, 0x64, 0] = .ok (.iadd { plain .shortLit false 0 3 4 with lit := 100 }) 3 ∧
  word [0x00408571, 0x88020906, 0] = .ok (.iacs2 { plain .ext false 0 8 4 with b := 6, c := 9, g := 2, m := 0x88 }) 3 ∧
  word [0x0001E049, 0x007F0000, 0x2000] = .ok (.call { plain .ext true 0 30 0 with x := 0x80 }) 3 ∧
  word [0x00B0A605, 0x0005000C, 0x611] =
    .ok (.fadd { plain .ext false 0 10 11 with y := true, b := 12, g := 5, stl := 2, seq := 1, x := 0x18 }) 3 ∧
  word [0x40407B01, 0x007F0002, 0x20001000] = .ok (.ld { plain .ext false 4 7 4 with b := 2, x := 0x800040 }) 3 ∧
  word [0x2020ED49, 0x007F0000, 0] = .ok (.cread { plain .ext true 2 14 2 with b := 0 }) 3 ∧
  word [0x60C09E09, 0x107F1400, 0] = .ok (.cpt { plain .ext true 6 9 12 with c := 20, m := 0x10 }) 3 ∧
  word [0x00406F79, 0x017F0005, 0x20000] = .ok (.mma .fp8 { plain .ext true 0 6 4 with b := 5, m := 1, x := 0x800 }) 3 ∧
  word [0x00208BC9, 0x207F0009, 0] = .ok (.afadd { plain .ext true 0 8 2 with b := 9, m := 0x20 }) 3 ∧
  word [0x30403A72, 1, 0] = .ok (.gswz { plain .shortLit false 3 3 4 with lit := 1 }) 3 ∧
  word [0x0000001B, 0x007F0000, 0x43, 0x0B, 0x06] =
    .ok (.nop { plain .extLit true 0 0 0 with seq := 3, x := 1, lit := 0x000000060000000B }) 5 ∧
  word [0x00000130] = .unassigned 0x13 ∧
  word [0x00000E05, 0x007F0000, 5] = .illegalEncoding 0xE0 2

/-- Decoding the bytes of a well-formed instruction, whatever follows them, gives it back with its length: every field
of every form at every value. -/
def Obligations.DecodeOfEncodeIsTheInstruction : Prop := ∀ (i : Instr) (rest : List Byte),
  (opFields i).isSome → i.wf = true → decode (encodeBytes i ++ rest) = .ok i (encode i).length

/-- Encoding what was decoded gives back the bits of the words decoded: no word has two readings, and no bit of an
instruction is dropped. -/
def Obligations.EncodeOfDecodeIsTheWord : Prop := ∀ (bits : BitVec 160) (i : Instr) (n : Nat),
  decodeBits bits = .ok i n → i.wf = true ∧ ∃ e, encodeBits i = some (e, n) ∧ e = (bits.setWidth (32 * n)).setWidth 160

/-- R24, R26, R56, R71: with a lane at the head of the agenda that is free and whose core runs, the chosen slot's
holder, its due results settled, fetches at the address of its running split, and the step is exec of the instruction
that the fetched words decode to, or of the illegal word; a step of the device at the head is exec of it; and a hart
that stands at the word of UEVRET executes it. A step whose write finds the reserve of a capture full leaves all as it
was. The agenda is the model's own (log 2), and so is that wait (log 56). -/
def Obligations.StepRunsTheDecodedInstruction : Prop := ∀ (s : State) (rest : List Turn), s.pav.held = false →
  let kept : State := { s with agenda := rest }
  let s0 : State := { s with agenda := rest, cur := none }
  (∀ u : State, kept.unlessFull (.next u) = .next (if u.overrun then kept else u)) ∧
  (∀ x, kept.unlessFull (.fault x) = .fault x) ∧ (∀ x, kept.unlessFull (.refused x) = .refused x) ∧
  (∀ core lane t g h f g' x bits u, s.agenda = .issue core lane :: rest → (s0.core core).gated = false →
    ((s0.core core).lane lane).busy ≤ s0.coreCycle core →
    ((s0.groupsOn core lane).find? fun x => s0.watchdogDue x.2) = none →
    pickSlot ((s0.core core).lane lane).last
      ((s0.groupsOn core lane).filter fun x => decide (x.2.since ≤ s0.coreCycle core)) = some (t, g) → g.holder = some h →
    let r : FibreRef := { team := t, gid := g.gid, fid := h }
    let s1 := (s0.settleArrivals t g.gid).settleFlags r
    s1.fibre? r = some f → s1.group? r = some g' → f.choose.run? = some x →
    (x.rpc = noRpc ∨ x.pc ≠ x.rpc) → (∀ yes op w, x.park ≠ .finished yes op w) →
    let s2 := (s1.setFibre r f.choose).modCore g'.core fun k => { k with idleFrom := s1.tick }
    s2.fetch (s2.spaceOf g'.core t.seq) x.pc.toNat = .ok (bits, u) →
      (∀ i n, decodeBits bits = .ok i n → step s = kept.unlessFull (exec i { u with cur := some r })) ∧
      ((∀ i n, decodeBits bits ≠ .ok i n) →
        step s = kept.unlessFull (exec (.illegalInstruction bits) { u with cur := some r }))) ∧
  (∀ w va p, s.xlate w .fetch va = .ok p → va % 4 = 0 → p.loc % 32 = va % 32 →
    (∀ l ∈ (s.core w.core).icache, l.addr ≠ blockTag w.asid va) → (s.core w.core).wcb = [] → (s.core w.core).flight = [] →
    ∃ u, s.fetchWord w va = .ok (BitVec.ofNat 32 (numAt s.mem p.loc 4), u)) ∧
  (∀ i, s.agenda = .event i :: rest → step s = kept.unlessFull (exec i s0)) ∧
  (∀ hart, s.agenda = .lodge hart :: rest → s.hartRuns hart = true → s.poisoned (s.hartAt hart).pc.toNat 4 = [] →
    s.lodgeFetch (s.hartAt hart).pc.toNat = some 0x0000700B → step s = kept.unlessFull (exec .uevret { s0 with hart })) ∧
  (∀ a, a + 4 ≤ 2 ^ 40 → s.lodgeFetch a = some (numAt s.mem a 4))

/-- What package reset leaves (R9, R84, R314, R404, R407, R412, Tables 24.2, 24.3, 25.3 and 25.6): no team, no launch
and no waiter; a full permit pool, its counters at 0; rings disabled, registers at their listed reset values; no port
up; no scope valid; harts in machine mode without user events (the model's values, PRESUMED of RISC-V, log 6). The
memory's contents, the package ID and the boot values are the model's own (log 1, 6), and the statement says nothing of
them. -/
def Obligations.ResetLeavesTheListedValues : Prop :=
  let s := State.reset
  s.teams = [] ∧ s.saved = [] ∧ s.waiters = [] ∧ s.launch? 1 = none ∧ s.nextSeq = 1 ∧ s.tick = 0 ∧
  s.pool = 64 ∧ s.charged = 0 ∧ s.refilled = 0 ∧ s.powerLaw ∧ s.memoryWf = true ∧ s.lostto = 100 ∧
  (∀ c, (s.col c).evsize = 0 ∧ (s.col c).scsize = 0 ∧ (s.col c).evbase = 0 ∧ (s.col c).evcons = 0 ∧ (s.col c).evovf = 0 ∧
    (s.col c).spsize = 0 ∧ look 0 (s.col c).spt 0 = 0 ∧ (s.col c).tup = 1520 ∧ (s.col c).tdn = 1360 ∧ (s.col c).tcrit = 1680 ∧
    (s.col c).gidle = 10000 ∧ (s.col c).bidle = 100000 ∧ (s.col c).pgen = true ∧ (s.col c).level = 0 ∧
    (s.col c).scrubHbm = 64 ∧ (s.col c).scrubIns = 16 ∧ (s.col c).scrubLlc = 4 ∧ (s.col c).scrubSpd = 1 ∧ (s.col c).scrubArr = 1 ∧
    (s.col c).shRate = 16 ∧ (s.col c).shTen = true ∧ s.clkMHz c = 1400) ∧
  (∀ k, (s.core k).chk = false ∧ (s.core k).wdt = 26 ∧ (s.core k).wcage = 3 ∧ (s.core k).gated = false) ∧
  (∀ q, (s.portAt q).live = false) ∧ (∀ n, (look {} s.scopes n).valid = false) ∧ (∀ i, (s.ckptAt i).busy = 0) ∧
  ∀ h, (s.hartAt h).mode = .machine ∧ (s.hartAt h).uie = false ∧ (s.hartAt h).inbox = []

/-- The pool always equals 64 + counter 3 - counter 2 and never exceeds 64, the rotation pointer names a cluster, and
every cluster is at one of three operating points (R409, R412): from every state in which that holds, whether or not a
run reaches it, every step that answers a next state leads to a state in which it holds, whatever instruction or event
the step executes. At the end of a window one permit returns if the mean draw was below 3.9 kW and the pool holds fewer
than 64, with counter 3, and otherwise pool and counter stay; and while a refill is due no boundary is, so the refill
comes before the grants of a boundary at the same tick. -/
def Obligations.PermitPoolFollowsItsRule : Prop :=
  (∀ s t : State, s.powerLaw → step s = .next t → t.powerLaw) ∧
  (∀ s : State, s.powerLaw → s.pool = 64 - (s.charged - s.refilled).toNat) ∧
  (∀ (s : State) (mean : Nat), s.windowDue = true →
    s.boundaryDue = false ∧ ∃ t, exec (.permitRefill mean) s = .next t ∧ t.charged = s.charged ∧
      (mean < 3900000 ∧ s.pool < 64 → t.pool = s.pool + 1 ∧ t.refilled = s.refilled + 1) ∧
      (¬(mean < 3900000 ∧ s.pool < 64) → t.pool = s.pool ∧ t.refilled = s.refilled))
end

