-- ==== Sys2Proof/Laws/Arithmetic.lean ====
section
/-!
SUPPORT. The integer arithmetic of the model in terms of bit vectors: readings of operands, res(), and the operations
of the bit class.
-/
namespace Sys2Proof.Machine

/-! ## Readings and results -/

theorem toInt_eq_intOfBits (sg : Bool) {n : Nat} (x : DWord) (h : n ≤ 64) :
    toInt sg n x.toNat = intOfBits sg n x := by
  unfold toInt intOfBits
  cases sg
  · simp
  · simp only [Bool.true_and, decide_eq_true_eq, if_true, BitVec.toInt_eq_toNat_cond, BitVec.toNat_setWidth]
    rcases n with _ | n
    · simp [Nat.mod_one]
    · rw [Nat.pow_succ]
      simp only [Nat.add_sub_cancel]
      split <;> split <;> first | rfl | omega

theorem ofNat_wrapInt (n : Nat) (v : Int) (h : n ≤ 64) :
    BitVec.ofNat 64 (wrapInt n v) = (BitVec.ofInt n v).setWidth 64 := by
  apply BitVec.eq_of_toNat_eq
  have : 2 ^ n ≤ 2 ^ 64 := Nat.pow_le_pow_right (by omega) h
  have hp : (0 : Int) < 2 ^ n := by positivity
  simp [wrapInt, BitVec.toNat_ofInt]

theorem clampInt_rangeOf (sg : Bool) (n : Nat) (v : Int) :
    clampInt (rangeOf sg n).1 (rangeOf sg n).2 v = clampTo sg n v := by
  have h1 : (0 : Int) < 2 ^ (n - 1) := by positivity
  have h2 : (0 : Int) < 2 ^ n := by positivity
  unfold clampInt rangeOf clampTo
  cases sg <;> simp only [Bool.false_eq_true, if_true, if_false] <;> split <;> (try split) <;> omega

theorem ofNat_narrow (sat sg : Bool) (n : Nat) (v : Int) (h : n ≤ 64) :
    BitVec.ofNat 64 (narrow sat sg n v) = resBits sat sg n v := by
  unfold narrow resBits
  cases sat
  · simpa using ofNat_wrapInt n v h
  · simpa [clampInt_rangeOf] using ofNat_wrapInt n (clampTo sg n v) h

theorem fields_bits (w : Fields) : Fields.bits w = wordBits (Fields.wide w) := rfl
theorem fields_wbits (w : Fields) : Fields.wbits w = wordBits (Fields.w64 w) := rfl

theorem wordBits_le (b : Bool) : wordBits b ≤ 64 := by cases b <;> decide

theorem valA_eq (s : State) (c : Ctx) (t : Nat) : valA s c t = typedA c s t :=
  toInt_eq_intOfBits _ _ (wordBits_le _)
theorem valB_eq (s : State) (c : Ctx) (t : Nat) : valB s c t = typedB c s t :=
  toInt_eq_intOfBits _ _ (wordBits_le _)
theorem valC_eq (s : State) (c : Ctx) (t : Nat) : valC s c t = typedC c s t :=
  toInt_eq_intOfBits _ _ (wordBits_le _)

theorem intBits_eq (w : Fields) (sat : Bool) (v : Int) :
    intBits w sat v = resBits sat (Fields.signed w) (wordBits (Fields.wide w)) v :=
  ofNat_narrow _ _ _ _ (wordBits_le _)

theorem intResults_eq (c : Ctx) (sat : Bool) (f : Nat → Int) :
    intResults c (fun t => intBits c.w sat (f t)) = typedResults c sat f := by
  unfold intResults typedResults
  simp only [intBits_eq]

/-! ## Words of the bit class -/

/-- A source of a width has no bits above it. -/
theorem source_lt (s : State) (c : Ctx) (wide u : Bool) (x : BitVec 8) (t : Nat) :
    (source s c wide u x t).toNat < 2 ^ wordBits wide := by
  cases wide
  · unfold source
    split
    · simp only [low32, wordBits, Bool.false_eq_true, if_false, BitVec.toNat_setWidth]; omega
    · simp only [vecOperand, wordBits, Bool.false_eq_true, if_false, BitVec.toNat_setWidth]; omega
  · exact BitVec.isLt _

theorem srcA_lt (s : State) (c : Ctx) (wide : Bool) (t : Nat) : (srcA s c wide t).toNat < 2 ^ wordBits wide :=
  source_lt _ _ _ _ _ _
theorem srcC_lt (s : State) (c : Ctx) (wide : Bool) (t : Nat) : (srcC s c wide t).toNat < 2 ^ wordBits wide :=
  source_lt _ _ _ _ _ _
theorem srcB_lt (s : State) (c : Ctx) (wide : Bool) (t : Nat) : (srcB s c wide t).toNat < 2 ^ wordBits wide := by
  unfold srcB
  split
  · cases wide
    · simp only [Bool.false_eq_true, if_false, low32, wordBits, BitVec.toNat_setWidth]; omega
    · exact BitVec.isLt _
  · exact source_lt _ _ _ _ _ _

/-- Reading a word of a width back gives its number. -/
theorem toNat_setWidth_of_lt {x : DWord} {n : Nat} (h : x.toNat < 2 ^ n) : (x.setWidth n).toNat = x.toNat := by
  simp [BitVec.toNat_setWidth, Nat.mod_eq_of_lt h]

/-- A number below 2^n of a bit vector, as 64 bits. -/
theorem ofNat_mod_eq {n : Nat} (x : BitVec n) (v : Nat) (hv : v % 2 ^ n = x.toNat) :
    BitVec.ofNat 64 (v % 2 ^ n) = x.setWidth 64 := by
  apply BitVec.eq_of_toNat_eq
  simp [hv]

end Sys2Proof.Machine
end

