-- ==== Sys2Proof/Laws/Issue.lean ====
section
/-!
SUPPORT. What issuing does, once: an undisturbed instruction takes the effect of its body, and each way in which an
instruction can be kept from it.
-/
namespace Sys2Proof.Machine

variable {s : State} {i : Instr} {c : Ctx} {op : Nat} {w : Fields} {body : Ctx → State → Effect}

/-- The context of an instruction has its opcode and its fields. -/
theorem State.context_fields {r : FibreRef} {word : Word} (h : s.context r op w word = some c) :
    c.r = r ∧ c.op = op ∧ c.w = w ∧ c.word = word := by
  unfold State.context at h
  split at h
  · split at h
    · cases h
    · simp only at h
      split at h
      · cases h; exact ⟨rfl, rfl, rfl, rfl⟩
      · cases h
  · cases h

/-- What contextOf answers, in terms of the current fibre's context. -/
theorem State.contextOf_spec (h : s.contextOf i = some c) :
    s.cur = some c.r ∧ opFields i = some (c.op, c.w) ∧
      s.context c.r c.op c.w (firstWord (BitVec.ofNat 8 c.op) c.w) = some c := by
  unfold State.contextOf at h
  split at h
  · rename_i r op w hr ho
    obtain ⟨h1, h2, h3, -⟩ := State.context_fields h
    subst h1 h2 h3
    exact ⟨hr, ho, h⟩
  · cases h

/-- clear names a context in which no check stops the instruction. -/
theorem State.clear_spec (h : s.clear i = some c) :
    s.contextOf i = some c ∧ c.settled = true ∧ (s.begun c).onTime c = true ∧ (s.begun c).legal c = true ∧
      readsMarked (s.begun c) c ((s.begun c).made c) = false := by
  unfold State.clear at h
  rw [Option.filter_eq_some_iff] at h
  obtain ⟨h, hc⟩ := h
  simp only [Bool.and_eq_true, Bool.not_eq_true'] at hc
  exact ⟨h, hc.1.1.1, hc.1.1.2, hc.1.2, hc.2⟩

/-- With nothing in its way an instruction's body takes effect. -/
theorem State.issueIn_clear (hs : c.settled = true) (ht : s.onTime c = true) (hl : s.legal c = true)
    (hm : readsMarked s c (s.made c) = false) : s.issueIn c body = s.apply c (body c s) := by
  unfold State.issueIn
  simp only [Ctx.settled, Ctx.reads] at hs
  simp only [State.onTime, State.made, Bool.or_eq_true, Bool.not_eq_true', Option.isNone_iff_eq_none] at ht
  simp only [State.legal, Option.isNone_iff_eq_none] at hl
  simp only [State.made] at hm
  simp only [hs, Bool.not_true, Bool.false_eq_true, if_false, hl, hm]
  split
  · rename_i r h
    rcases ht with h' | h' <;> simp [h'] at h
  · rfl

/-- An undisturbed instruction answers the state in which its body has taken effect. -/
theorem exec_clear (h : s.clear i = some c) (he : exec i s = s.issue op w body) (ho : opFields i = some (op, w)) :
    exec i s = .next ((s.begun c).apply c (body c (s.begun c))) := by
  obtain ⟨hc, hs, ht, hl, hm⟩ := State.clear_spec h
  obtain ⟨hr, ho', hx⟩ := State.contextOf_spec hc
  rw [ho] at ho'
  cases ho'
  rw [he]
  unfold State.issue
  simp only [hr, hx]
  rw [show s.setFibre c.r c.f = s.begun c from rfl, State.issueIn_clear hs ht hl hm]

/-- A local effect completes. -/
theorem completes_of_done {d : Ctx → State → Done} (he : ∀ s, exec i s = s.issue op w body)
    (ho : opFields i = some (op, w))
    (hb : ∀ c s, c.op = op → c.w = w → body c s = .done (d c s) ∧ (d c s).remote = []) : Completes i d := by
  intro s c h
  obtain ⟨-, ho', -⟩ := State.contextOf_spec (State.clear_spec h).1
  rw [ho] at ho'
  cases ho'
  obtain ⟨hb, hr⟩ := hb c (s.begun c) rfl rfl
  rw [exec_clear h (he s) ho, hb]
  simp only [State.apply, hr, State.moves, List.any_nil, Bool.false_eq_true, if_false]

end Sys2Proof.Machine
end

