-- ==== Sys2Proof/Laws/Memory.lean ====
section
/-!
SUPPORT. Sparse tables and byte memories: what is read after a write, and that every write keeps the canonical form.
-/
namespace Sys2Proof.Machine

variable {α : Type} [DecidableEq α] (d : α)

/-! ## Reading after a write -/

theorem look_put (m : Sparse α) (k x : Nat) (v : α) : look d (put d m k v) x = if x = k then v else look d m x := by
  induction m with
  | nil =>
    unfold put
    split
    · subst_vars; simp [look]
    · simp only [look, eq_comm (a := k)]
  | cons e m ih =>
    obtain ⟨k', v'⟩ := e
    unfold put
    split
    · subst_vars
      split
      · rw [ih]
        by_cases h : x = k' <;> simp [look, h, eq_comm (a := k')]
      · simp only [look, eq_comm (a := k')]
        split <;> simp_all
    · split
      · by_cases h : x = k <;> simp [look, h, eq_comm (a := k)]
      · simp only [look, ih]
        by_cases h : x = k
        · simp [h]
          simp_all
        · simp [h]

@[simp] theorem look_put_self (m : Sparse α) (k : Nat) (v : α) : look d (put d m k v) k = v := by simp [look_put]

theorem look_put_ne (m : Sparse α) {k x : Nat} (v : α) (h : x ≠ k) : look d (put d m k v) x = look d m x := by
  simp [look_put, h]

theorem look_modify (m : Sparse α) (k x : Nat) (f : α → α) :
    look d (modify d m k f) x = if x = k then f (look d m k) else look d m x := by
  unfold modify
  rw [look_put]

omit [DecidableEq α] in
theorem look_append (m n : Sparse α) (x : Nat) :
    look d (m ++ n) x = if m.any (fun e => e.1 == x) then look d m x else look d n x := by
  induction m with
  | nil => simp
  | cons e m ih =>
    obtain ⟨k, v⟩ := e
    by_cases h : k = x
    · simp [look, h]
    · have : (k == x) = false := by simpa using h
      simp only [List.cons_append, look, h, if_false, ih, List.any_cons, this, Bool.false_or]

omit [DecidableEq α] in
theorem look_filter (m : Sparse α) (p : Nat → Bool) (x : Nat) :
    look d (m.filter fun e => p e.1) x = if p x then look d m x else d := by
  induction m with
  | nil => simp [look]
  | cons e m ih =>
    obtain ⟨k, v⟩ := e
    by_cases hp : p k
    · rw [List.filter_cons_of_pos (by simpa using hp)]
      by_cases h : k = x
      · subst h; simp [look, hp]
      · simp [look, h, ih]
    · rw [List.filter_cons_of_neg (by simpa using hp), ih]
      by_cases h : k = x
      · subst h; simp [hp]
      · simp [look, h]

omit [DecidableEq α] in
theorem look_of_absent (m : Sparse α) (x : Nat) (h : m.any (fun e => e.1 == x) = false) : look d m x = d := by
  induction m with
  | nil => rfl
  | cons e m ih =>
    obtain ⟨k, v⟩ := e
    simp only [List.any_cons, Bool.or_eq_false_iff, beq_eq_false_iff_ne] at h
    simp [look, h.1, ih h.2]

theorem look_listed (vs : List α) (k x : Nat) :
    look d (listed d k vs) x = if k ≤ x ∧ x < k + vs.length then vs.getD (x - k) d else d := by
  induction vs generalizing k with
  | nil => simp [listed, look]
  | cons v vs ih =>
    unfold listed
    have hstep : look d (listed d (k + 1) vs) x = if k + 1 ≤ x ∧ x < k + 1 + vs.length then vs.getD (x - (k + 1)) d else d :=
      ih (k + 1)
    have hge : k + 1 ≤ x → (v :: vs).getD (x - k) d = vs.getD (x - (k + 1)) d := by
      intro h
      obtain ⟨j, rfl⟩ : ∃ j, x = k + 1 + j := ⟨x - (k + 1), by omega⟩
      rw [show k + 1 + j - k = j + 1 by omega, show k + 1 + j - (k + 1) = j by omega]
      rfl
    by_cases hx : x = k
    · subst hx
      split
      · rw [hstep]; simp [*]
      · simp [look]
    · have : (k ≤ x ∧ x < k + (v :: vs).length) ↔ (k + 1 ≤ x ∧ x < k + 1 + vs.length) := by
        simp only [List.length_cons]; omega
      simp only [this]
      split
      · rw [hstep]
        split
        · rw [hge (by omega)]
        · rfl
      · simp only [look, hstep, eq_comm (a := k), hx, if_false]
        split
        · rw [hge (by omega)]
        · rfl

theorem listed_any (vs : List α) (k x : Nat) (h : (listed d k vs).any (fun e => e.1 == x) = true) : k ≤ x ∧ x < k + vs.length := by
  induction vs generalizing k with
  | nil => simp [listed] at h
  | cons v vs ih =>
    unfold listed at h
    split at h
    · have := ih _ h; simp only [List.length_cons]; omega
    · simp only [List.any_cons, Bool.or_eq_true, beq_iff_eq] at h
      rcases h with h | h
      · simp only [List.length_cons]; omega
      · have := ih _ h; simp only [List.length_cons]; omega

/-- What consecutive writes leave: the written values, and every other value as it was. -/
theorem look_putAll (m : Sparse α) (k x : Nat) (vs : List α) :
    look d (putAll d m k vs) x = if k ≤ x ∧ x < k + vs.length then vs.getD (x - k) d else look d m x := by
  unfold putAll
  have hlow : ∀ y, (m.filter fun e => decide (e.1 < k)).any (fun e => e.1 == y) = true → y < k := by
    intro y h
    simp only [List.any_eq_true, List.mem_filter, decide_eq_true_eq, beq_iff_eq] at h
    obtain ⟨e, ⟨-, h1⟩, rfl⟩ := h
    exact h1
  rw [List.append_assoc, look_append, look_append, look_filter d m (fun y => decide (y < k)), look_listed,
    look_filter d m (fun y => decide (k + vs.length ≤ y))]
  by_cases h1 : x < k
  · have h2 : (listed d k vs).any (fun e => e.1 == x) = false := by
      by_contra h; have := listed_any d vs k x (by simpa using h); omega
    have h3 : ¬k + vs.length ≤ x := by omega
    by_cases ha : (m.filter fun e => decide (e.1 < k)).any (fun e => e.1 == x) = true
    · simp [ha, h1, show ¬k ≤ x by omega]
    · have hm : look d m x = d := by
        apply look_of_absent
        simp only [Bool.not_eq_true, List.any_eq_false, List.mem_filter, decide_eq_true_eq, beq_iff_eq] at ha ⊢
        intro e he hx
        exact ha e ⟨he, by omega⟩ hx
      simp only [Bool.not_eq_true] at ha
      simp [ha, h2, h3, hm, show ¬k ≤ x by omega]
  · have ha : (m.filter fun e => decide (e.1 < k)).any (fun e => e.1 == x) = false := by
      by_contra h; exact h1 (hlow x (by simpa using h))
    rw [ha]
    by_cases h4 : k ≤ x ∧ x < k + vs.length
    · by_cases hl : (listed d k vs).any (fun e => e.1 == x) = true
      · simp [hl, h4]
      · simp only [Bool.not_eq_true] at hl
        have := look_of_absent d (listed d k vs) x hl
        rw [look_listed, if_pos h4] at this
        rw [hl, if_pos h4, this]
        simp [show ¬k + vs.length ≤ x by omega, h1]
    · have h2 : (listed d k vs).any (fun e => e.1 == x) = false := by
        by_contra h; exact h4 (listed_any d vs k x (by simpa using h))
      simp [h2, h4, show k + vs.length ≤ x by omega]

/-! ## The canonical form -/

theorem canonical_iff (m : Sparse α) :
    canonical d m = true ↔ m.Pairwise (fun x y => x.1 < y.1) ∧ ∀ x ∈ m, x.2 ≠ d := by
  simp [canonical]

theorem canonical_nil : canonical d ([] : Sparse α) = true := by simp [canonical]

theorem canonical_filter (m : Sparse α) (p : Nat × α → Bool) (h : canonical d m = true) : canonical d (m.filter p) = true := by
  rw [canonical_iff] at *
  exact ⟨h.1.filter p, fun x hx => h.2 x (List.mem_filter.1 hx).1⟩

theorem mem_put {m : Sparse α} {k : Nat} {v : α} {e : Nat × α} (h : e ∈ put d m k v) : e.1 = k ∨ e ∈ m := by
  induction m with
  | nil => unfold put at h; split at h <;> simp_all
  | cons x m ih =>
    obtain ⟨k', v'⟩ := x
    unfold put at h
    split at h
    · split at h
      · rcases ih h with h | h <;> simp [h]
      · rcases List.mem_cons.1 h with h | h <;> simp [h]
    · split at h
      · rcases List.mem_cons.1 h with h | h
        · exact .inl (by simp [h])
        · exact .inr h
      · rcases List.mem_cons.1 h with h | h
        · simp [h]
        · rcases ih h with h | h <;> simp [h]

theorem canonical_put (m : Sparse α) (k : Nat) (v : α) (h : canonical d m = true) : canonical d (put d m k v) = true := by
  induction m with
  | nil =>
    unfold put
    split
    · exact canonical_nil d
    · simp [canonical, *]
  | cons e m ih =>
    obtain ⟨k', v'⟩ := e
    rw [canonical_iff, List.pairwise_cons] at h
    obtain ⟨⟨h1, h2⟩, h3⟩ := h
    have hm : canonical d m = true := (canonical_iff d m).2 ⟨h2, fun x hx => h3 x (List.mem_cons_of_mem _ hx)⟩
    unfold put
    split
    · subst_vars
      split
      · exact ih hm
      · rename_i hv
        rw [canonical_iff, List.pairwise_cons]
        refine ⟨⟨h1, h2⟩, fun x hx => ?_⟩
        rcases List.mem_cons.1 hx with rfl | hx
        · exact hv
        · exact h3 x (List.mem_cons_of_mem _ hx)
    · split
      · rename_i hk
        rw [canonical_iff, List.pairwise_cons, List.pairwise_cons]
        refine ⟨⟨fun x hx => ?_, h1, h2⟩, fun x hx => ?_⟩
        · rcases List.mem_cons.1 hx with rfl | hx
          · exact hk.1
          · exact hk.1.trans (h1 x hx)
        · rcases List.mem_cons.1 hx with rfl | hx
          · exact hk.2
          · exact h3 x hx
      · rename_i hne hk
        have ih := (canonical_iff d _).1 (ih hm)
        rw [canonical_iff, List.pairwise_cons]
        refine ⟨⟨fun x hx => ?_, ih.1⟩, fun x hx => ?_⟩
        · rcases mem_put d hx with hx' | hx'
          · rcases Nat.lt_or_ge k k' with hlt | hge
            · have hv : v = d := by by_contra hv; exact hk ⟨hlt, hv⟩
              exfalso
              have hl : look d (put d m k v) k = d := by rw [look_put_self, hv]
              have : ∀ (n : Sparse α), n.Pairwise (fun x y => x.1 < y.1) → (∀ x ∈ n, x.2 ≠ d) → x ∈ n → look d n x.1 ≠ d := by
                intro n
                induction n with
                | nil => intro _ _ h; cases h
                | cons e n ihn =>
                  intro hp hd hx
                  rw [List.pairwise_cons] at hp
                  rcases List.mem_cons.1 hx with rfl | hx
                  · simpa [look] using hd _ (List.mem_cons_self ..)
                  · have : e.1 ≠ x.1 := (hp.1 x hx).ne
                    simpa [look, this] using ihn hp.2 (fun y hy => hd y (List.mem_cons_of_mem _ hy)) hx
              exact this _ ih.1 ih.2 hx (by rw [hx']; exact hl)
            · rw [hx']; omega
          · exact h1 x hx'
        · rcases List.mem_cons.1 hx with rfl | hx
          · exact h3 _ (List.mem_cons_self ..)
          · exact ih.2 x hx

theorem canonical_modify (m : Sparse α) (k : Nat) (f : α → α) (h : canonical d m = true) : canonical d (modify d m k f) = true :=
  canonical_put d m k _ h

theorem canonical_listed (vs : List α) (k : Nat) :
    canonical d (listed d k vs) = true ∧ ∀ e ∈ listed d k vs, k ≤ e.1 ∧ e.1 < k + vs.length := by
  induction vs generalizing k with
  | nil => exact ⟨canonical_nil d, fun _ h => by cases h⟩
  | cons v vs ih =>
    obtain ⟨h1, h2⟩ := ih (k + 1)
    unfold listed
    split
    · refine ⟨h1, fun e he => ?_⟩
      have := h2 e he
      simp only [List.length_cons]; omega
    · rename_i hv
      rw [canonical_iff] at *
      refine ⟨⟨List.pairwise_cons.2 ⟨fun e he => by have := h2 e he; simp only; omega, h1.1⟩, fun e he => ?_⟩, fun e he => ?_⟩
      · rcases List.mem_cons.1 he with rfl | he
        · exact hv
        · exact h1.2 e he
      · rcases List.mem_cons.1 he with rfl | he
        · simp only [List.length_cons]; omega
        · have := h2 e he
          simp only [List.length_cons]; omega

theorem canonical_putAll (m : Sparse α) (k : Nat) (vs : List α) (h : canonical d m = true) :
    canonical d (putAll d m k vs) = true := by
  have hl := canonical_filter d m (fun e => decide (e.1 < k)) h
  have hh := canonical_filter d m (fun e => decide (k + vs.length ≤ e.1)) h
  obtain ⟨hm, hr⟩ := canonical_listed d vs k
  unfold putAll
  rw [canonical_iff] at *
  refine ⟨List.pairwise_append.2 ⟨List.pairwise_append.2 ⟨hl.1, hm.1, fun x hx y hy => ?_⟩, hh.1, fun x hx y hy => ?_⟩, fun x hx => ?_⟩
  · have h1 := (List.mem_filter.1 hx).2
    have h2 := hr y hy
    simp only [decide_eq_true_eq] at h1
    omega
  · have h2 := (List.mem_filter.1 hy).2
    simp only [decide_eq_true_eq] at h2
    rcases List.mem_append.1 hx with hx | hx
    · have h1 := (List.mem_filter.1 hx).2
      simp only [decide_eq_true_eq] at h1
      omega
    · have := hr x hx
      omega
  · rcases List.mem_append.1 hx with hx | hx
    · rcases List.mem_append.1 hx with hx | hx
      · exact hl.2 x hx
      · exact hm.2 x hx
    · exact hh.2 x hx

theorem canonical_slice (m : Sparse α) (lo n : Nat) (h : canonical d m = true) : canonical d (slice m lo n) = true := by
  rw [canonical_iff] at *
  unfold slice
  refine ⟨?_, fun x hx => ?_⟩
  · rw [List.pairwise_map]
    refine List.Pairwise.imp_of_mem ?_ (h.1.filter _)
    intro a b ha hb hab
    have h1 := (List.mem_filter.1 ha).2
    have h2 := (List.mem_filter.1 hb).2
    simp only [Bool.and_eq_true, decide_eq_true_eq] at h1 h2
    omega
  · obtain ⟨e, he, rfl⟩ := List.mem_map.1 hx
    exact h.2 e (List.mem_filter.1 he).1

/-! ## Bytes -/

theorem byteAt_putAll (m : List Host.Cell) (a x : Nat) (bs : List Byte) :
    byteAt (putAll 0 m a bs) x = if a ≤ x ∧ x < a + bs.length then bs.getD (x - a) 0 else byteAt m x :=
  look_putAll 0 m a x bs

theorem wf_putAll (m : List Host.Cell) (a : Nat) (bs : List Byte) (h : Memory.wf m = true) :
    Memory.wf (putAll 0 m a bs) = true := canonical_putAll 0 m a bs h

@[simp] theorem length_bytesLE (v n : Nat) : (bytesLE v n).length = n := by
  induction n generalizing v with
  | zero => rfl
  | succ n ih => simp [bytesLE, ih]

theorem natLE_bytesLE (v n : Nat) : natLE (bytesLE v n) = v % 256 ^ n := by
  induction n generalizing v with
  | zero => simp [bytesLE, natLE, Nat.mod_one]
  | succ n ih =>
    simp only [bytesLE, natLE, ih, BitVec.toNat_ofNat]
    have h : ∀ m, v % 256 + 256 * (v / 256 % m) = v % (256 * m) := fun m => (Nat.mod_mul ..).symm
    have e : 256 ^ (n + 1) = 256 * 256 ^ n := Nat.pow_succ'
    rw [e, ← h]

omit [DecidableEq α] in
theorem lookAll_eq (m : Sparse α) (k n : Nat) : lookAll d m k n = (List.range n).map fun i => look d m (k + i) := by
  induction n generalizing k with
  | zero => rfl
  | succ n ih =>
    rw [lookAll, ih, List.range_succ_eq_map, List.map_cons, List.map_map]
    simp only [Nat.add_zero, List.cons.injEq, true_and]
    refine List.map_congr_left fun i _ => ?_
    simp only [Function.comp]
    congr 1
    omega

/-- A number is read back where it was written. -/
theorem numAt_putAll (m : List Host.Cell) (a n v : Nat) : numAt (putAll 0 m a (bytesLE v n)) a n = v % 256 ^ n := by
  unfold numAt
  rw [lookAll_eq]
  have : ((List.range n).map fun i => look (0 : Byte) (putAll 0 m a (bytesLE v n)) (a + i)) = bytesLE v n := by
    refine List.ext_getElem (by simp) fun i h1 h2 => ?_
    simp only [List.length_map, List.length_range] at h1
    simp only [List.getElem_map, List.getElem_range, look_putAll, length_bytesLE]
    rw [if_pos (by omega), show a + i - a = i by omega]
    rw [List.getD_eq_getElem?_getD, List.getElem?_eq_getElem h2]
    rfl
  rw [this, natLE_bytesLE]

/-- Numbers that a write does not touch read as before. -/
theorem numAt_putAll_of_disjoint (m : List Host.Cell) (a b n : Nat) (bs : List Byte) (h : b + n ≤ a ∨ a + bs.length ≤ b) :
    numAt (putAll 0 m a bs) b n = numAt m b n := by
  unfold numAt
  rw [lookAll_eq, lookAll_eq]
  congr 1
  refine List.map_congr_left fun i hi => ?_
  rw [List.mem_range] at hi
  rw [look_putAll, if_neg (by omega)]

end Sys2Proof.Machine
end

