-- ==== Sys2Proof/Laws/PerInstr.lean ====
section
/-!
SUPPORT. A property of every instruction as syntax: the opcode and fields of an instruction with words name it again.
-/
namespace Sys2Proof.Laws.WordForm
open Sys2Proof Sys2Proof.Machine

/-- The opcode of an instruction with words is assigned, and where the instruction is well-formed its opcode and fields
read as the instruction itself (R70, Tables 3.9 and 3.10). -/
def Statement (i : Instr) : Prop := ∀ op w, opFields i = some (op, w) →
  opAssigned op = true ∧ (i.wf = true → encodingReason op w none = none ∧ fieldsCanonical w = true ∧ instrOf op w = some i)

/-- What well-formedness says of an instruction with words. -/
theorem wf_spec {i : Instr} {op : Nat} {w : Fields} (ho : opFields i = some (op, w)) (h : i.wf = true) :
    i.isShortRow = (w.form == .short) ∧ encodingReason op w none = none ∧ fieldsCanonical w = true := by
  simp only [Instr.wf, ho, Bool.and_eq_true, beq_iff_eq, Option.isNone_iff_eq_none] at h
  exact ⟨h.1.1, h.1.2, h.2⟩

theorem of_step {i : Instr} (h : opFields i = none) : Statement i := fun op w ho => by simp [h] at ho

theorem of_long {i : Instr} {op : Nat} {w : Fields} {f : Fields → Instr} (ho : opFields i = some (op, w))
    (ha : opAssigned op = true) (hs : i.isShortRow = false) (hl : ctors.lookup op = some f) (hf : f w = i) :
    Statement i := fun op' w' h => by
  rw [ho] at h
  cases h
  refine ⟨ha, fun hw => ?_⟩
  obtain ⟨h1, h2, h3⟩ := wf_spec ho hw
  refine ⟨h2, h3, ?_⟩
  have : w.form ≠ .short := fun e => by simp [hs, e] at h1
  simp [instrOf, this, hl, hf]

theorem of_short {i : Instr} {op : Nat} {w : Fields} {f : Fields → Instr} (ho : opFields i = some (op, w))
    (ha : opAssigned op = true) (hs : w.form = .short) (hl : ctorsShort.lookup op = some f) (hf : f w = i) :
    Statement i := fun op' w' h => by
  rw [ho] at h
  cases h
  refine ⟨ha, fun hw => ?_⟩
  obtain ⟨-, h2, h3⟩ := wf_spec ho hw
  exact ⟨h2, h3, by simp [instrOf, hs, hl, hf]⟩

theorem nopShort (u : Bool) (y : Bool) : Statement (.nopShort u y) := of_short rfl rfl rfl rfl rfl
theorem nop (w : Fields) : Statement (.nop w) := of_long rfl rfl rfl rfl rfl
theorem yieldShort (y : Bool) : Statement (.yieldShort y) := of_short rfl rfl rfl rfl rfl
theorem yield (w : Fields) : Statement (.yield w) := of_long rfl rfl rfl rfl rfl
theorem exitShort (y : Bool) : Statement (.exitShort y) := of_short rfl rfl rfl rfl rfl
theorem exit (w : Fields) : Statement (.exit w) := of_long rfl rfl rfl rfl rfl
theorem call (w : Fields) : Statement (.call w) := of_long rfl rfl rfl rfl rfl
theorem callx (w : Fields) : Statement (.callx w) := of_long rfl rfl rfl rfl rfl
theorem jx (w : Fields) : Statement (.jx w) := of_long rfl rfl rfl rfl rfl
theorem retShort (a : BitVec 8) (y : Bool) : Statement (.retShort a y) := of_short rfl rfl rfl rfl rfl
theorem ret (w : Fields) : Statement (.ret w) := of_long rfl rfl rfl rfl rfl
theorem sigck (w : Fields) : Statement (.sigck w) := of_long rfl rfl rfl rfl rfl
theorem trap (w : Fields) : Statement (.trap w) := of_long rfl rfl rfl rfl rfl
theorem tretShort (s : Bool) (y : Bool) : Statement (.tretShort s y) :=
  of_short rfl rfl rfl rfl (by cases s <;> simp [shortWord, bit4])
theorem tret (w : Fields) : Statement (.tret w) := of_long rfl rfl rfl rfl rfl
theorem sysc (w : Fields) : Statement (.sysc w) := of_long rfl rfl rfl rfl rfl
theorem brkShort (n : BitVec 4) (y : Bool) : Statement (.brkShort n y) := of_short rfl rfl rfl rfl rfl
theorem brk (w : Fields) : Statement (.brk w) := of_long rfl rfl rfl rfl rfl
theorem sleepShort (a : BitVec 8) (r : Bool) (y : Bool) : Statement (.sleepShort a r y) :=
  of_short rfl rfl rfl rfl (by cases r <;> simp [shortWord, bit4])
theorem sleep (w : Fields) : Statement (.sleep w) := of_long rfl rfl rfl rfl rfl
theorem fprioImmShort (p : BitVec 4) (y : Bool) : Statement (.fprioImmShort p y) := of_short rfl rfl rfl rfl rfl
theorem fprioRegShort (a : BitVec 8) (y : Bool) : Statement (.fprioRegShort a y) := of_short rfl rfl rfl rfl rfl
theorem fprio (w : Fields) : Statement (.fprio w) := of_long rfl rfl rfl rfl rfl
theorem srdShort (a : BitVec 8) (d : BitVec 8) (u : Bool) (y : Bool) : Statement (.srdShort a d u y) :=
  of_short rfl rfl rfl rfl rfl
theorem srd (w : Fields) : Statement (.srd w) := of_long rfl rfl rfl rfl rfl
theorem swrShort (a : BitVec 8) (d : BitVec 8) (y : Bool) : Statement (.swrShort a d y) :=
  of_short rfl rfl rfl rfl rfl
theorem swr (w : Fields) : Statement (.swr w) := of_long rfl rfl rfl rfl rfl
theorem tckptShort (y : Bool) : Statement (.tckptShort y) := of_short rfl rfl rfl rfl rfl
theorem tckpt (w : Fields) : Statement (.tckpt w) := of_long rfl rfl rfl rfl rfl
theorem tlbinv (w : Fields) : Statement (.tlbinv w) := of_long rfl rfl rfl rfl rfl
theorem iadd (w : Fields) : Statement (.iadd w) := of_long rfl rfl rfl rfl rfl
theorem isub (w : Fields) : Statement (.isub w) := of_long rfl rfl rfl rfl rfl
theorem iaddc (w : Fields) : Statement (.iaddc w) := of_long rfl rfl rfl rfl rfl
theorem isubb (w : Fields) : Statement (.isubb w) := of_long rfl rfl rfl rfl rfl
theorem imul (w : Fields) : Statement (.imul w) := of_long rfl rfl rfl rfl rfl
theorem imulh (w : Fields) : Statement (.imulh w) := of_long rfl rfl rfl rfl rfl
theorem imad (w : Fields) : Statement (.imad w) := of_long rfl rfl rfl rfl rfl
theorem imadw (w : Fields) : Statement (.imadw w) := of_long rfl rfl rfl rfl rfl
theorem idiv (w : Fields) : Statement (.idiv w) := of_long rfl rfl rfl rfl rfl
theorem irem (w : Fields) : Statement (.irem w) := of_long rfl rfl rfl rfl rfl
theorem imin (w : Fields) : Statement (.imin w) := of_long rfl rfl rfl rfl rfl
theorem imax (w : Fields) : Statement (.imax w) := of_long rfl rfl rfl rfl rfl
theorem iabsShort (a : BitVec 8) (d : BitVec 8) (u : Bool) (y : Bool) : Statement (.iabsShort a d u y) :=
  of_short rfl rfl rfl rfl rfl
theorem iabs (w : Fields) : Statement (.iabs w) := of_long rfl rfl rfl rfl rfl
theorem inegShort (a : BitVec 8) (d : BitVec 8) (u : Bool) (y : Bool) : Statement (.inegShort a d u y) :=
  of_short rfl rfl rfl rfl rfl
theorem ineg (w : Fields) : Statement (.ineg w) := of_long rfl rfl rfl rfl rfl
theorem isad (w : Fields) : Statement (.isad w) := of_long rfl rfl rfl rfl rfl
theorem icmp (w : Fields) : Statement (.icmp w) := of_long rfl rfl rfl rfl rfl
theorem lea (w : Fields) : Statement (.lea w) := of_long rfl rfl rfl rfl rfl
theorem and (w : Fields) : Statement (.and w) := of_long rfl rfl rfl rfl rfl
theorem or (w : Fields) : Statement (.or w) := of_long rfl rfl rfl rfl rfl
theorem xor (w : Fields) : Statement (.xor w) := of_long rfl rfl rfl rfl rfl
theorem andn (w : Fields) : Statement (.andn w) := of_long rfl rfl rfl rfl rfl
theorem bmix (w : Fields) : Statement (.bmix w) := of_long rfl rfl rfl rfl rfl
theorem shl (w : Fields) : Statement (.shl w) := of_long rfl rfl rfl rfl rfl
theorem shr (w : Fields) : Statement (.shr w) := of_long rfl rfl rfl rfl rfl
theorem sar (w : Fields) : Statement (.sar w) := of_long rfl rfl rfl rfl rfl
theorem rot (w : Fields) : Statement (.rot w) := of_long rfl rfl rfl rfl rfl
theorem fshl (w : Fields) : Statement (.fshl w) := of_long rfl rfl rfl rfl rfl
theorem fshr (w : Fields) : Statement (.fshr w) := of_long rfl rfl rfl rfl rfl
theorem bfx (w : Fields) : Statement (.bfx w) := of_long rfl rfl rfl rfl rfl
theorem bfi (w : Fields) : Statement (.bfi w) := of_long rfl rfl rfl rfl rfl
theorem popcShort (a : BitVec 8) (d : BitVec 8) (u : Bool) (y : Bool) : Statement (.popcShort a d u y) :=
  of_short rfl rfl rfl rfl rfl
theorem popc (w : Fields) : Statement (.popc w) := of_long rfl rfl rfl rfl rfl
theorem clzShort (a : BitVec 8) (d : BitVec 8) (u : Bool) (y : Bool) : Statement (.clzShort a d u y) :=
  of_short rfl rfl rfl rfl rfl
theorem clz (w : Fields) : Statement (.clz w) := of_long rfl rfl rfl rfl rfl
theorem ctzShort (a : BitVec 8) (d : BitVec 8) (u : Bool) (y : Bool) : Statement (.ctzShort a d u y) :=
  of_short rfl rfl rfl rfl rfl
theorem ctz (w : Fields) : Statement (.ctz w) := of_long rfl rfl rfl rfl rfl
theorem brevShort (a : BitVec 8) (d : BitVec 8) (u : Bool) (y : Bool) : Statement (.brevShort a d u y) :=
  of_short rfl rfl rfl rfl rfl
theorem brev (w : Fields) : Statement (.brev w) := of_long rfl rfl rfl rfl rfl
theorem bperm (w : Fields) : Statement (.bperm w) := of_long rfl rfl rfl rfl rfl
theorem iadd2 (w : Fields) : Statement (.iadd2 w) := of_long rfl rfl rfl rfl rfl
theorem isub2 (w : Fields) : Statement (.isub2 w) := of_long rfl rfl rfl rfl rfl
theorem imin2 (w : Fields) : Statement (.imin2 w) := of_long rfl rfl rfl rfl rfl
theorem imax2 (w : Fields) : Statement (.imax2 w) := of_long rfl rfl rfl rfl rfl
theorem icmp2 (w : Fields) : Statement (.icmp2 w) := of_long rfl rfl rfl rfl rfl
theorem iacs2 (w : Fields) : Statement (.iacs2 w) := of_long rfl rfl rfl rfl rfl
theorem fadd (w : Fields) : Statement (.fadd w) := of_long rfl rfl rfl rfl rfl
theorem fsub (w : Fields) : Statement (.fsub w) := of_long rfl rfl rfl rfl rfl
theorem fmul (w : Fields) : Statement (.fmul w) := of_long rfl rfl rfl rfl rfl
theorem ffma (w : Fields) : Statement (.ffma w) := of_long rfl rfl rfl rfl rfl
theorem fmin (w : Fields) : Statement (.fmin w) := of_long rfl rfl rfl rfl rfl
theorem fmax (w : Fields) : Statement (.fmax w) := of_long rfl rfl rfl rfl rfl
theorem fcmp (w : Fields) : Statement (.fcmp w) := of_long rfl rfl rfl rfl rfl
theorem fclass (w : Fields) : Statement (.fclass w) := of_long rfl rfl rfl rfl rfl
theorem frcpShort (a : BitVec 8) (d : BitVec 8) (u : Bool) (y : Bool) : Statement (.frcpShort a d u y) :=
  of_short rfl rfl rfl rfl rfl
theorem frcp (w : Fields) : Statement (.frcp w) := of_long rfl rfl rfl rfl rfl
theorem frsqShort (a : BitVec 8) (d : BitVec 8) (u : Bool) (y : Bool) : Statement (.frsqShort a d u y) :=
  of_short rfl rfl rfl rfl rfl
theorem frsq (w : Fields) : Statement (.frsq w) := of_long rfl rfl rfl rfl rfl
theorem fsqrtShort (a : BitVec 8) (d : BitVec 8) (u : Bool) (y : Bool) : Statement (.fsqrtShort a d u y) :=
  of_short rfl rfl rfl rfl rfl
theorem fsqrt (w : Fields) : Statement (.fsqrt w) := of_long rfl rfl rfl rfl rfl
theorem fdiv (w : Fields) : Statement (.fdiv w) := of_long rfl rfl rfl rfl rfl
theorem fex2Short (a : BitVec 8) (d : BitVec 8) (u : Bool) (y : Bool) : Statement (.fex2Short a d u y) :=
  of_short rfl rfl rfl rfl rfl
theorem fex2 (w : Fields) : Statement (.fex2 w) := of_long rfl rfl rfl rfl rfl
theorem flg2Short (a : BitVec 8) (d : BitVec 8) (u : Bool) (y : Bool) : Statement (.flg2Short a d u y) :=
  of_short rfl rfl rfl rfl rfl
theorem flg2 (w : Fields) : Statement (.flg2 w) := of_long rfl rfl rfl rfl rfl
theorem fsinShort (a : BitVec 8) (d : BitVec 8) (u : Bool) (y : Bool) : Statement (.fsinShort a d u y) :=
  of_short rfl rfl rfl rfl rfl
theorem fsin (w : Fields) : Statement (.fsin w) := of_long rfl rfl rfl rfl rfl
theorem fcosShort (a : BitVec 8) (d : BitVec 8) (u : Bool) (y : Bool) : Statement (.fcosShort a d u y) :=
  of_short rfl rfl rfl rfl rfl
theorem fcos (w : Fields) : Statement (.fcos w) := of_long rfl rfl rfl rfl rfl
theorem frnd (w : Fields) : Statement (.frnd w) := of_long rfl rfl rfl rfl rfl
theorem dadd (w : Fields) : Statement (.dadd w) := of_long rfl rfl rfl rfl rfl
theorem dsub (w : Fields) : Statement (.dsub w) := of_long rfl rfl rfl rfl rfl
theorem dmul (w : Fields) : Statement (.dmul w) := of_long rfl rfl rfl rfl rfl
theorem dfma (w : Fields) : Statement (.dfma w) := of_long rfl rfl rfl rfl rfl
theorem dmin (w : Fields) : Statement (.dmin w) := of_long rfl rfl rfl rfl rfl
theorem dmax (w : Fields) : Statement (.dmax w) := of_long rfl rfl rfl rfl rfl
theorem dcmp (w : Fields) : Statement (.dcmp w) := of_long rfl rfl rfl rfl rfl
theorem dclass (w : Fields) : Statement (.dclass w) := of_long rfl rfl rfl rfl rfl
theorem drcpShort (a : BitVec 8) (d : BitVec 8) (u : Bool) (y : Bool) : Statement (.drcpShort a d u y) :=
  of_short rfl rfl rfl rfl rfl
theorem drcp (w : Fields) : Statement (.drcp w) := of_long rfl rfl rfl rfl rfl
theorem dsqrtShort (a : BitVec 8) (d : BitVec 8) (u : Bool) (y : Bool) : Statement (.dsqrtShort a d u y) :=
  of_short rfl rfl rfl rfl rfl
theorem dsqrt (w : Fields) : Statement (.dsqrt w) := of_long rfl rfl rfl rfl rfl
theorem ddiv (w : Fields) : Statement (.ddiv w) := of_long rfl rfl rfl rfl rfl
theorem drnd (w : Fields) : Statement (.drnd w) := of_long rfl rfl rfl rfl rfl
theorem fadd2 (w : Fields) : Statement (.fadd2 w) := of_long rfl rfl rfl rfl rfl
theorem fmul2 (w : Fields) : Statement (.fmul2 w) := of_long rfl rfl rfl rfl rfl
theorem ffma2 (w : Fields) : Statement (.ffma2 w) := of_long rfl rfl rfl rfl rfl
theorem fmin2 (w : Fields) : Statement (.fmin2 w) := of_long rfl rfl rfl rfl rfl
theorem fmax2 (w : Fields) : Statement (.fmax2 w) := of_long rfl rfl rfl rfl rfl
theorem cvt (w : Fields) : Statement (.cvt w) := of_long rfl rfl rfl rfl rfl
theorem tripck (w : Fields) : Statement (.tripck w) := of_long rfl rfl rfl rfl rfl
theorem triunp (w : Fields) : Statement (.triunp w) := of_long rfl rfl rfl rfl rfl
theorem movShort (a : BitVec 8) (d : BitVec 8) (u : Bool) (y : Bool) : Statement (.movShort a d u y) :=
  of_short rfl rfl rfl rfl rfl
theorem mov (w : Fields) : Statement (.mov w) := of_long rfl rfl rfl rfl rfl
theorem movi (w : Fields) : Statement (.movi w) := of_long rfl rfl rfl rfl rfl
theorem sel (w : Fields) : Statement (.sel w) := of_long rfl rfl rfl rfl rfl
theorem pmix (w : Fields) : Statement (.pmix w) := of_long rfl rfl rfl rfl rfl
theorem pset (w : Fields) : Statement (.pset w) := of_long rfl rfl rfl rfl rfl
theorem pget (w : Fields) : Statement (.pget w) := of_long rfl rfl rfl rfl rfl
theorem pcol (w : Fields) : Statement (.pcol w) := of_long rfl rfl rfl rfl rfl
theorem gswz (w : Fields) : Statement (.gswz w) := of_long rfl rfl rfl rfl rfl
theorem rdth (w : Fields) : Statement (.rdth w) := of_long rfl rfl rfl rfl rfl
theorem wrth (w : Fields) : Statement (.wrth w) := of_long rfl rfl rfl rfl rfl
theorem gred (w : Fields) : Statement (.gred w) := of_long rfl rfl rfl rfl rfl
theorem gscan (w : Fields) : Statement (.gscan w) := of_long rfl rfl rfl rfl rfl
theorem ld (w : Fields) : Statement (.ld w) := of_long rfl rfl rfl rfl rfl
theorem st (w : Fields) : Statement (.st w) := of_long rfl rfl rfl rfl rfl
theorem lds (w : Fields) : Statement (.lds w) := of_long rfl rfl rfl rfl rfl
theorem sts (w : Fields) : Statement (.sts w) := of_long rfl rfl rfl rfl rfl
theorem ldu (w : Fields) : Statement (.ldu w) := of_long rfl rfl rfl rfl rfl
theorem stu (w : Fields) : Statement (.stu w) := of_long rfl rfl rfl rfl rfl
theorem aadd (w : Fields) : Statement (.aadd w) := of_long rfl rfl rfl rfl rfl
theorem amin (w : Fields) : Statement (.amin w) := of_long rfl rfl rfl rfl rfl
theorem amax (w : Fields) : Statement (.amax w) := of_long rfl rfl rfl rfl rfl
theorem alog (w : Fields) : Statement (.alog w) := of_long rfl rfl rfl rfl rfl
theorem axchg (w : Fields) : Statement (.axchg w) := of_long rfl rfl rfl rfl rfl
theorem acas (w : Fields) : Statement (.acas w) := of_long rfl rfl rfl rfl rfl
theorem afadd (w : Fields) : Statement (.afadd w) := of_long rfl rfl rfl rfl rfl
theorem fence (w : Fields) : Statement (.fence w) := of_long rfl rfl rfl rfl rfl
theorem pf (w : Fields) : Statement (.pf w) := of_long rfl rfl rfl rfl rfl
theorem cctl (w : Fields) : Statement (.cctl w) := of_long rfl rfl rfl rfl rfl
theorem icinv (w : Fields) : Statement (.icinv w) := of_long rfl rfl rfl rfl rfl
theorem cadd (w : Fields) : Statement (.cadd w) := of_long rfl rfl rfl rfl rfl
theorem cwait (w : Fields) : Statement (.cwait w) := of_long rfl rfl rfl rfl rfl
theorem cwaitd (w : Fields) : Statement (.cwaitd w) := of_long rfl rfl rfl rfl rfl
theorem cpoll (w : Fields) : Statement (.cpoll w) := of_long rfl rfl rfl rfl rfl
theorem cread (w : Fields) : Statement (.cread w) := of_long rfl rfl rfl rfl rfl
theorem carm (w : Fields) : Statement (.carm w) := of_long rfl rfl rfl rfl rfl
theorem cinit (w : Fields) : Statement (.cinit w) := of_long rfl rfl rfl rfl rfl
theorem ewait (w : Fields) : Statement (.ewait w) := of_long rfl rfl rfl rfl rfl
theorem eread (w : Fields) : Statement (.eread w) := of_long rfl rfl rfl rfl rfl
theorem cpt (w : Fields) : Statement (.cpt w) := of_long rfl rfl rfl rfl rfl
theorem cpl (w : Fields) : Statement (.cpl w) := of_long rfl rfl rfl rfl rfl
theorem cpg (w : Fields) : Statement (.cpg w) := of_long rfl rfl rfl rfl rfl
theorem cps (w : Fields) : Statement (.cps w) := of_long rfl rfl rfl rfl rfl
theorem cpx (w : Fields) : Statement (.cpx w) := of_long rfl rfl rfl rfl rfl
theorem cpa (w : Fields) : Statement (.cpa w) := of_long rfl rfl rfl rfl rfl
theorem cpr (w : Fields) : Statement (.cpr w) := of_long rfl rfl rfl rfl rfl
theorem cpz (w : Fields) : Statement (.cpz w) := of_long rfl rfl rfl rfl rfl
theorem rflush (w : Fields) : Statement (.rflush w) := of_long rfl rfl rfl rfl rfl
theorem tclaim (w : Fields) : Statement (.tclaim w) := of_long rfl rfl rfl rfl rfl
theorem trel (w : Fields) : Statement (.trel w) := of_long rfl rfl rfl rfl rfl
theorem aclaim (w : Fields) : Statement (.aclaim w) := of_long rfl rfl rfl rfl rfl
theorem arel (w : Fields) : Statement (.arel w) := of_long rfl rfl rfl rfl rfl
theorem mma (fam : MmaFamily) (w : Fields) : Statement (.mma fam w) := by cases fam <;> exact of_long rfl rfl rfl rfl rfl
theorem asa (w : Fields) : Statement (.asa w) := of_long rfl rfl rfl rfl rfl
theorem azero (w : Fields) : Statement (.azero w) := of_long rfl rfl rfl rfl rfl
theorem ard (w : Fields) : Statement (.ard w) := of_long rfl rfl rfl rfl rfl
theorem awr (w : Fields) : Statement (.awr w) := of_long rfl rfl rfl rfl rfl
theorem ared (w : Fields) : Statement (.ared w) := of_long rfl rfl rfl rfl rfl
theorem illegalInstruction (bits : BitVec 160) : Statement (.illegalInstruction bits) := of_step rfl
theorem starvationRaise (core lane slot : Nat) : Statement (.starvationRaise core lane slot) := of_step rfl
theorem watchdog (core lane slot : Nat) : Statement (.watchdog core lane slot) := of_step rfl
theorem variableLatencyResult (fib : FibreRef) (k : Nat) : Statement (.variableLatencyResult fib k) := of_step rfl
theorem fibreResume (col token : Nat) : Statement (.fibreResume col token) := of_step rfl
theorem fibreConvert (col token : Nat) : Statement (.fibreConvert col token) := of_step rfl
theorem fibreTerminate (col token : Nat) : Statement (.fibreTerminate col token) := of_step rfl
theorem launchSignal (op : LaunchSignalOp) : Statement (.launchSignal op) := of_step rfl
theorem teamPlacement (p : Placement) : Statement (.teamPlacement p) := of_step rfl
theorem preEmption (team : TeamRef) : Statement (.preEmption team) := of_step rfl
theorem teamRestore (p : Placement) : Statement (.teamRestore p) := of_step rfl
theorem copyRequestStart (core : Nat) : Statement (.copyRequestStart core) := of_step rfl
theorem copyReleaseAdd (core req : Nat) : Statement (.copyReleaseAdd core req) := of_step rfl
theorem copyCompletion (core req : Nat) : Statement (.copyCompletion core req) := of_step rfl
theorem scheduleEntryIssue (team : TeamRef) : Statement (.scheduleEntryIssue team) := of_step rfl
theorem replayRelease (core entry : Nat) : Statement (.replayRelease core entry) := of_step rfl
theorem replayTerminate (core entry : Nat) : Statement (.replayTerminate core entry) := of_step rfl
theorem cpaReadPhase (core req : Nat) : Statement (.cpaReadPhase core req) := of_step rfl
theorem engineOpStart (core : Nat) : Statement (.engineOpStart core) := of_step rfl
theorem engineOpComplete (core : Nat) : Statement (.engineOpComplete core) := of_step rfl
theorem wcAgeingDrain (core : Nat) : Statement (.wcAgeingDrain core) := of_step rfl
theorem syscAnswer (fib : FibreRef) (thread : Nat) : Statement (.syscAnswer fib thread) := of_step rfl
theorem heldEventWrite (col : Nat) : Statement (.heldEventWrite col) := of_step rfl
theorem waitWakeup (k : Nat) : Statement (.waitWakeup k) := of_step rfl
theorem pollRetry (k : Nat) : Statement (.pollRetry k) := of_step rfl
theorem promiseMissed (fib : FibreRef) : Statement (.promiseMissed fib) := of_step rfl
theorem sleepWake (fib : FibreRef) (split : Nat) : Statement (.sleepWake fib split) := of_step rfl
theorem userEventDelivery (hart : Nat) : Statement (.userEventDelivery hart) := of_step rfl
theorem userEventInterrupt (hart : Nat) : Statement (.userEventInterrupt hart) := of_step rfl
theorem uevasidWrite (hart : Nat) (value : DWord) : Statement (.uevasidWrite hart value) := of_step rfl
theorem lodgePoisonConsumption (hart : Nat) (pa : Nat) : Statement (.lodgePoisonConsumption hart pa) := of_step rfl
theorem translationWalk (core : Nat) (asid : Nat) (root : Nat) (va : DWord) : Statement (.translationWalk core asid root va) :=
  of_step rfl
theorem sfenceVma (asid : Option Nat) (va : Option DWord) : Statement (.sfenceVma asid va) := of_step rfl
theorem insoleBankSleep (col bank : Nat) : Statement (.insoleBankSleep col bank) := of_step rfl
theorem coreGate (core : Nat) : Statement (.coreGate core) := of_step rfl
theorem scrubVisit (col : Nat) (level : ScrubLevel) (place : Nat) (found : ScrubFinding) : Statement (.scrubVisit col level place found) :=
  of_step rfl
theorem shankTestRow (col shank : Nat) (failing : Bool) : Statement (.shankTestRow col shank failing) := of_step rfl
theorem shankTestResume (col : Nat) : Statement (.shankTestResume col) := of_step rfl
theorem sparePathFailure (col : Nat) : Statement (.sparePathFailure col) := of_step rfl
theorem boostBoundary (drawMilliwatt : Nat) : Statement (.boostBoundary drawMilliwatt) := of_step rfl
theorem permitRefill (meanDrawMilliwatt : Nat) : Statement (.permitRefill meanDrawMilliwatt) := of_step rfl
theorem governorSample (col temp : Nat) : Statement (.governorSample col temp) := of_step rfl
theorem govctlWrite (col : Nat) (value : DWord) : Statement (.govctlWrite col value) := of_step rfl
theorem ttripWrite (col : Nat) (value : DWord) : Statement (.ttripWrite col value) := of_step rfl
theorem supplyDroopSample (col drop : Nat) : Statement (.supplyDroopSample col drop) := of_step rfl
theorem ringSizeWrite (col : Nat) (sysc : Bool) (value : DWord) : Statement (.ringSizeWrite col sysc value) :=
  of_step rfl
theorem savePoolWrite (col : Nat) (size : Bool) (value : DWord) : Statement (.savePoolWrite col size value) :=
  of_step rfl
theorem registerWrite (reg : DeviceReg) (value : DWord) : Statement (.registerWrite reg value) := of_step rfl
theorem ckcmdCapture (sole : Nat) : Statement (.ckcmdCapture sole) := of_step rfl
theorem ckcmdRestore (sole : Nat) : Statement (.ckcmdRestore sole) := of_step rfl
theorem captureT0 (sole : Nat) : Statement (.captureT0 sole) := of_step rfl
theorem nvmeCommandCompletion (sole : Nat) (ok : Bool) (data : List Byte) : Statement (.nvmeCommandCompletion sole ok data) :=
  of_step rfl
theorem nvmeTimeout (sole : Nat) : Statement (.nvmeTimeout sole) := of_step rfl
theorem pcieInboundRequest (port addr : Nat) (op : OuterOp) : Statement (.pcieInboundRequest port addr op) :=
  of_step rfl
theorem peerRequest (pkg addr : Nat) (op : OuterOp) : Statement (.peerRequest pkg addr op) := of_step rfl
theorem remoteWakeup (k : Nat) : Statement (.remoteWakeup k) := of_step rfl
theorem ualinkPortDown (port : Nat) : Statement (.ualinkPortDown port) := of_step rfl
theorem lostTimeout (port : Nat) : Statement (.lostTimeout port) := of_step rfl
theorem lodgeHartMemoryAccess (hart addr : Nat) (op : OuterOp) : Statement (.lodgeHartMemoryAccess hart addr op) :=
  of_step rfl
theorem timebaseWaitSatisfied (k : Nat) : Statement (.timebaseWaitSatisfied k) := of_step rfl
theorem pendingBitClear (core req : Nat) : Statement (.pendingBitClear core req) := of_step rfl
theorem pcieLinkDown (port : Nat) : Statement (.pcieLinkDown port) := of_step rfl
theorem pcieLinkUp (port : Nat) : Statement (.pcieLinkUp port) := of_step rfl
theorem addressSpaceTeardown (asid : Nat) : Statement (.addressSpaceTeardown asid) := of_step rfl
theorem helloReceived (h : Hello) : Statement (.helloReceived h) := of_step rfl
theorem entriesReceived (leader : Nat) (entries : List ScopeDraft) : Statement (.entriesReceived leader entries) :=
  of_step rfl
theorem entryAckReceived (pkg : Nat) : Statement (.entryAckReceived pkg) := of_step rfl
theorem commitReceived (gen : Nat) : Statement (.commitReceived gen) := of_step rfl
theorem abdicationReceived (leader : Nat) : Statement (.abdicationReceived leader) := of_step rfl
theorem mergeRequestReceived (pkg : Nat) (members : List Nat) : Statement (.mergeRequestReceived pkg members) :=
  of_step rfl
theorem packageReset (facts : StartFacts) : Statement (.packageReset facts) := of_step rfl
theorem linkReattest (port : Nat) : Statement (.linkReattest port) := of_step rfl
theorem flitTagFailure (port : Nat) (replayed : Bool) : Statement (.flitTagFailure port replayed) := of_step rfl
theorem portRestored (port : Nat) : Statement (.portRestored port) := of_step rfl
theorem reserveCopyComplete (sole page : Nat) : Statement (.reserveCopyComplete sole page) := of_step rfl
theorem regionDisplacement (region : Nat) : Statement (.regionDisplacement region) := of_step rfl
theorem regionLoss (region : Nat) : Statement (.regionLoss region) := of_step rfl
theorem displacementSwitch (region : Nat) : Statement (.displacementSwitch region) := of_step rfl
theorem uevret : Statement (.uevret) := of_step rfl
theorem electionStart : Statement (.electionStart) := of_step rfl
theorem heartbeatTimeout : Statement (.heartbeatTimeout) := of_step rfl
theorem commitTimeout : Statement (.commitTimeout) := of_step rfl
theorem helloPeriodEnd : Statement (.helloPeriodEnd) := of_step rfl
theorem startWatchdogExpiry : Statement (.startWatchdogExpiry) := of_step rfl
theorem bootdone : Statement (.bootdone) := of_step rfl
theorem leaderHeartbeat : Statement (.leaderHeartbeat) := of_step rfl

end Sys2Proof.Laws.WordForm
end

