-- ==== Sys2Proof/Laws/Power.lean ====
section
/-!
SUPPORT. The boost state of the package (pool, rotation, operating points, refusals, counters 2 to 4): no operation
but the boundary, the refill and a package reset changes it.
-/
namespace Sys2Proof.Machine

/-- Pool, rotation, operating points, refusals and the counters of permits. -/
def State.power (s : State) : Nat × Nat × Sparse Nat × Sparse Nat × DWord × DWord × Sparse DWord :=
  (s.pool, s.rotation, s.opPoint, s.refusals, s.charged, s.refilled, s.clusterCharged)

/-- The state in which an effect, if it takes any, leaves the package before the issue ends. -/
def Effect.keeps (s : State) : Effect → Prop
  | .done d => d.s.power = s.power
  | .held t _ => t.power = s.power
  | .unacked t _ => t.power = s.power
  | _ => True

@[simp] theorem keeps_done (s : State) (d : Done) : (Effect.done d).keeps s ↔ d.s.power = s.power := Iff.rfl
@[simp] theorem keeps_stop (s : State) (x : Stop) : (Effect.stop x).keeps s ↔ True := Iff.rfl
@[simp] theorem keeps_held (s t : State) (x : Hold) : (Effect.held t x).keeps s ↔ t.power = s.power := Iff.rfl
@[simp] theorem keeps_unacked (s t : State) (l : List Nat) : (Effect.unacked t l).keeps s ↔ t.power = s.power := Iff.rfl
@[simp] theorem keeps_stalled (s : State) (l : List Nat) : (Effect.stalled l).keeps s ↔ True := Iff.rfl

@[simp] theorem foldl_power {α : Type} {f : State → α → State} (h : ∀ s x, (f s x).power = s.power) (l : List α) (s : State) :
    (l.foldl f s).power = s.power := by
  induction l generalizing s with
  | nil => rfl
  | cons x l ih => rw [List.foldl_cons, ih, h]

@[simp] theorem foldl_snd_power {α β : Type} {f : β × State → α → β × State} (h : ∀ p x, (f p x).2.power = p.2.power)
    (l : List α) (p : β × State) : (l.foldl f p).2.power = p.2.power := by
  induction l generalizing p with
  | nil => rfl
  | cons x l ih => rw [List.foldl_cons, ih, h]

@[simp] theorem foldl_fst_power {α β : Type} {f : State × β → α → State × β} (h : ∀ p x, (f p x).1.power = p.1.power)
    (l : List α) (p : State × β) : (l.foldl f p).1.power = p.1.power := by
  induction l generalizing p with
  | nil => rfl
  | cons x l ih => rw [List.foldl_cons, ih, h]

@[simp] theorem power_ite (p : Prop) [Decidable p] (s t : State) :
    (if p then s else t).power = if p then s.power else t.power := by split <;> rfl
@[simp] theorem power_ite_fst {α : Type} (p : Prop) [Decidable p] (s t : State × α) :
    (if p then s else t).1.power = if p then s.1.power else t.1.power := by split <;> rfl
@[simp] theorem power_ite_snd {α : Type} (p : Prop) [Decidable p] (s t : α × State) :
    (if p then s else t).2.power = if p then s.2.power else t.2.power := by split <;> rfl
@[simp] theorem keeps_ite (p : Prop) [Decidable p] (s : State) (x y : Effect) :
    (if p then x else y).keeps s ↔ if p then x.keeps s else y.keeps s := by split <;> rfl

@[simp] theorem power_eta (s : State) :
    (s.pool, s.rotation, s.opPoint, s.refusals, s.charged, s.refilled, s.clusterCharged) = s.power := rfl

@[simp] theorem power_mk (x0 : Nat) (x1 : List Turn) (x2 : Option FibreRef) (x3 : Nat) (x4 : Nat) (x5 : Nat) (x6 : Nat) (x7 : Nat) (x8 : List Host.Cell) (x9 : List Nat) (x10 : List Team) (x11 : List SavedTeam) (x12 : Sparse Core) (x13 : Sparse Column) (x14 : Sparse Hart) (x15 : List Waiter) (x16 : Nat) (x17 : Nat) (x18 : Nat) (x19 : Nat) (x20 : Sparse Bool) (x21 : Sparse Nat) (x22 : Sparse Nat) (x23 : DWord) (x24 : DWord) (x25 : Sparse DWord) (x26 : BitVec 10) (x27 : DWord) (x28 : Sparse Port) (x29 : Sparse Nat) (x30 : List Stalled) (x31 : Sparse Bool) (x32 : List Nat) (x33 : Sparse ScopeEntry) (x34 : Sparse Region) (x35 : Nat) (x36 : Sparse Checkpoint) (x37 : Pavilion) :
    (State.mk x0 x1 x2 x3 x4 x5 x6 x7 x8 x9 x10 x11 x12 x13 x14 x15 x16 x17 x18 x19 x20 x21 x22 x23 x24 x25 x26 x27 x28 x29 x30 x31 x32 x33 x34 x35 x36 x37).power = (x18, x19, x21, x22, x23, x24, x25) := rfl

theorem keeps_trans {s t : State} {e : Effect} (h : t.power = s.power) : e.keeps t ↔ e.keeps s := by
  cases e <;> simp [Effect.keeps, h]

theorem ok_ite {α β : Type} {p : Prop} [Decidable p] {e : α} {x : Except α β} {y : β} (h : (if p then .error e else x) = .ok y) :
    x = .ok y := by
  split at h
  · cases h
  · exact h

@[simp] theorem State.setCol_power (s : State) (c : Nat) (x : Column) : (State.setCol s c x).power = s.power := by
  simp [State.setCol]

@[simp] theorem State.modCol_power (s : State) (c : Nat) (f : Column → Column) : (State.modCol s c f).power = s.power := by
  simp [State.modCol]

@[simp] theorem State.setCore_power (s : State) (k : Nat) (x : Core) : (State.setCore s k x).power = s.power := by
  simp [State.setCore]

@[simp] theorem State.modCore_power (s : State) (k : Nat) (f : Core → Core) : (State.modCore s k f).power = s.power := by
  simp [State.modCore]

@[simp] theorem State.modLane_power (s : State) (k : Nat) (l : Nat) (f : Lane → Lane) : (State.modLane s k l f).power = s.power := by
  simp [State.modLane]

@[simp] theorem State.modHart_power (s : State) (h : Nat) (f : Hart → Hart) : (State.modHart s h f).power = s.power := by
  simp [State.modHart]

@[simp] theorem State.modCkpt_power (s : State) (i : Nat) (f : Checkpoint → Checkpoint) : (State.modCkpt s i f).power = s.power := by
  simp [State.modCkpt]

@[simp] theorem State.modPort_power (s : State) (q : Nat) (f : Port → Port) : (State.modPort s q f).power = s.power := by
  simp [State.modPort]

@[simp] theorem State.rebase_power (s : State) (c : Nat) : (State.rebase s c).power = s.power := by
  simp [State.rebase]

@[simp] theorem State.wakeCore_power (s : State) (k : Nat) : (State.wakeCore s k).power = s.power := by
  simp [State.wakeCore]

@[simp] theorem State.takeFree_power (s : State) : (State.takeFree s).2.power = s.power := by
  simp [State.takeFree]

@[simp] theorem State.throughSlice_power (s : State) (a : Nat) (n : Nat) (write : Bool) : (State.throughSlice s a n write).power = s.power := by
  simp [State.throughSlice]

@[simp] theorem State.evictFrame_power (s : State) (col : Nat) (frame : Nat) : (State.evictFrame s col frame).power = s.power := by
  simp [State.evictFrame]

@[simp] theorem State.mark_power (s : State) (sector : Nat) : (State.mark s sector).power = s.power := by
  simp [State.mark]

@[simp] theorem State.wakeRegion_power (s : State) (r : Nat) : (State.wakeRegion s r).power = s.power := by
  simp [State.wakeRegion]

@[simp] theorem State.demand_power (s : State) (o : Nat) : (State.demand s o).power = s.power := by
  simp [State.demand]

@[simp] theorem State.wakePage_power (s : State) (insole : Bool) (page : Nat) : (State.wakePage s insole page).power = s.power := by
  simp [State.wakePage]

@[simp] theorem State.modTeam_power (s : State) (r : TeamRef) (f : Team → Team) : (State.modTeam s r f).power = s.power := by
  simp [State.modTeam]

@[simp] theorem State.modGroup_power (s : State) (r : TeamRef) (g : Nat) (f : Group → Group) : (State.modGroup s r g f).power = s.power := by
  simp [State.modGroup]

@[simp] theorem State.modFibre_power (s : State) (r : FibreRef) (f : Fibre → Fibre) : (State.modFibre s r f).power = s.power := by
  simp [State.modFibre]

@[simp] theorem State.modLaunch_power (s : State) (seq : Nat) (f : Launch → Launch) : (State.modLaunch s seq f).power = s.power := by
  simp [State.modLaunch]

@[simp] theorem State.userEvent_power (s : State) (hart : Nat) (e : UserEvent) : (State.userEvent s hart e).power = s.power := by
  simp [State.userEvent]

@[simp] theorem fireOne_power (s : State) (w : Waiter) : (fireOne s w).power = s.power := by
  unfold fireOne; split <;> simp

@[simp] theorem State.evaluate_power (s : State) (p : CounterRef → Bool) : (State.evaluate s p).power = s.power := by
  simp [State.evaluate]

@[simp] theorem State.putLoc_power (s : State) (a : Nat) (bs : List Byte) : (State.putLoc s a bs).power = s.power := by
  simp [State.putLoc]

@[simp] theorem State.copyAside_power (s : State) (sole : Nat) (insole : Bool) (page : Nat) : (State.copyAside s sole insole page).power = s.power := by
  unfold State.copyAside; dsimp only; (repeat' split) <;> simp

@[simp] theorem captureFault_power (s : State) (a : Nat) : (captureFault s a).power = s.power := by
  unfold captureFault; split <;> simp

@[simp] theorem State.writeLoc_power (s : State) (a : Nat) (bs : List Byte) : (State.writeLoc s a bs).power = s.power := by
  simp [State.writeLoc]

@[simp] theorem State.writeBits_power (s : State) (a : Nat) (bs : List Byte) (mask : List Byte) : (State.writeBits s a bs mask).power = s.power := by
  simp [State.writeBits]

@[simp] theorem State.writeNum_power (s : State) (a : Nat) (n : Nat) (v : Nat) : (State.writeNum s a n v).power = s.power := by
  simp [State.writeNum]

@[simp] theorem State.addLoc_power (s : State) (a : Nat) (inc : DWord) : (State.addLoc s a inc).power = s.power := by
  simp [State.addLoc]

@[simp] theorem State.addLaunchCounter_power (s : State) (seq : Nat) (n : Nat) (k : Nat) : (State.addLaunchCounter s seq n k).power = s.power := by
  simp [State.addLaunchCounter]

@[simp] theorem State.evaluateDevice_power (s : State) (n : Nat) : (State.evaluateDevice s n).power = s.power := by
  simp [State.evaluateDevice]

@[simp] theorem State.addCorrected_power (s : State) (col : Nat) (n : Nat) : (State.addCorrected s col n).power = s.power := by
  simp [State.addCorrected]

@[simp] theorem State.addUncorrected_power (s : State) (col : Nat) (n : Nat) : (State.addUncorrected s col n).power = s.power := by
  simp [State.addUncorrected]

@[simp] theorem State.poisonCopied_power (s : State) (before : List Nat) (loc : Nat) (n : Nat) : (State.poisonCopied s before loc n).power = s.power := by
  unfold State.poisonCopied; dsimp only; (repeat' split) <;> simp

@[simp] theorem State.writeEvent_power (s : State) (c : Nat) (e : EventRecord) : (State.writeEvent s c e).power = s.power := by
  simp [State.writeEvent]

@[simp] theorem State.event_power (s : State) (c : Nat) (e : EventRecord) : (State.event s c e).power = s.power := by
  simp [State.event]

@[simp] theorem State.logError_power (s : State) (c : Nat) (e : ErrorNote) : (State.logError s c e).power = s.power := by
  simp only [State.logError]; (repeat' split)
  all_goals simp

theorem takePool_power {s : State} {c : Nat} {n : Nat} {out : Nat × State} (hout : takePool s c n = some out) : out.2.power = s.power := by
  unfold takePool at hout
  split at hout
  · cases hout
  · simp only [Option.map_eq_some_iff] at hout
    obtain ⟨a, -, rfl⟩ := hout
    simp

@[simp] theorem freePool_power (s : State) (a : Nat) : (freePool s a).power = s.power := by
  simp [freePool]

theorem needSpill_power {s : State} {r : FibreRef} {c : Nat} {out : State} (hout : needSpill s r c = some out) : out.power = s.power := by
  cases hf : s.fibre? r with
  | none => rw [needSpill, hf] at hout; cases hout; rfl
  | some f =>
    rw [needSpill, hf] at hout
    dsimp only at hout
    generalize (if f.hnd = true then f.hspill else f.spill).isSome = b at hout
    cases b
    · rw [if_neg (by decide), Option.map_eq_some_iff] at hout
      obtain ⟨⟨a, u⟩, h, rfl⟩ := hout
      simpa using takePool_power h
    · cases hout; rfl

@[simp] theorem writeEntries_power (s : State) (block : Option Nat) (l : List Split) : (writeEntries s block l).power = s.power := by
  unfold writeEntries; (repeat' split) <;> simp

@[simp] theorem writeSpilled_power (s : State) (r : FibreRef) : (writeSpilled s r).power = s.power := by
  unfold writeSpilled; (repeat' split)
  all_goals simp

@[simp] theorem writeTables_power (s : State) (r : FibreRef) : (writeTables s r).power = s.power := by
  unfold writeTables; (repeat' split) <;> simp

@[simp] theorem State.journal_power (s : State) (r : TeamRef) (u : UnitRef) : (State.journal s r u).power = s.power := by
  unfold State.journal; (repeat' split)
  all_goals simp

@[simp] theorem State.makeUnsafe_power (s : State) (r : TeamRef) : (State.makeUnsafe s r).power = s.power := by
  simp [State.makeUnsafe]

@[simp] theorem State.unmark_power (s : State) (r : TeamRef) (p : UnitRef → Bool) : (State.unmark s r p).power = s.power := by
  simp [State.unmark]

@[simp] theorem State.commit_power (s : State) (r : FibreRef) (ws : List RegWrite) : (State.commit s r ws).power = s.power := by
  simp [State.commit]

@[simp] theorem State.produce_power (s : State) (r : FibreRef) (ws : List RegWrite) (left : Nat) (cycle : Nat) : (State.produce s r ws left cycle).power = s.power := by
  unfold State.produce; (repeat' split)
  all_goals simp

@[simp] theorem State.settleArrivals_power (s : State) (r : TeamRef) (gid : Nat) : (State.settleArrivals s r gid).power = s.power := by
  unfold State.settleArrivals; split <;> simp

@[simp] theorem State.writeNow_power (s : State) (r : FibreRef) (ws : List RegWrite) : (State.writeNow s r ws).power = s.power := by
  simp [State.writeNow]

@[simp] theorem State.expect_power (s : State) (r : FibreRef) (ws : List RegWrite) (flags : optParam (BitVec 5) 0) (remote : optParam (List (Nat × Bool)) []) (float : optParam Bool false) (due : optParam (Option Nat) none) (pc : optParam DWord 0) (reload : optParam (Option Reload) none) : (State.expect s r ws flags remote float due pc reload).power = s.power := by
  simp [State.expect]

@[simp] theorem State.writeScratch_power (s : State) (r : TeamRef) (o : Nat) (bs : List Byte) (old : Bool) : (State.writeScratch s r o bs old).power = s.power := by
  simp [State.writeScratch]

@[simp] theorem State.writeSlot_power (s : State) (r : TeamRef) (slot : Nat) (off : Nat) (bs : List Byte) (old : Bool) : (State.writeSlot s r slot off bs old).power = s.power := by
  simp [State.writeSlot]

@[simp] theorem State.writeCells_power (s : State) (r : TeamRef) (cs : List (Nat × Nat × Word)) (old : Bool) : (State.writeCells s r cs old).power = s.power := by
  simp [State.writeCells]

@[simp] theorem State.writeSlotCounter_power (s : State) (r : TeamRef) (g : Nat) (n : Nat) (v : DWord) : (State.writeSlotCounter s r g n v).power = s.power := by
  simp [State.writeSlotCounter]

@[simp] theorem State.yieldPoint_power (s : State) (r : FibreRef) : (State.yieldPoint s r).power = s.power := by
  simp [State.yieldPoint]

@[simp] theorem State.passSlot_power (s : State) (r : FibreRef) (gone : Bool) : (State.passSlot s r gone).power = s.power := by
  simp [State.passSlot]

@[simp] theorem State.regain_power (s : State) (r : FibreRef) : (State.regain s r).power = s.power := by
  simp [State.regain]

@[simp] theorem State.withdraw_power (s : State) (p : WaitAgent → Bool) : (State.withdraw s p).power = s.power := by
  simp [State.withdraw]

@[simp] theorem State.retry_power (s : State) (p : Hold → Bool) : (State.retry s p).power = s.power := by
  simp [State.retry]

@[simp] theorem State.enterHandler_power (s : State) (r : FibreRef) (t : TrapInfo) : (State.enterHandler s r t).power = s.power := by
  simp only [State.enterHandler]; (repeat' split)
  all_goals first | (simp; done) | (simp_all; done) | exact needSpill_power ‹_› | (simp; first | exact needSpill_power ‹_› | exact (needSpill_power ‹_›).trans (by simp)) | (have hx := needSpill_power ‹_›; simp at hx; simp [hx]; done) | (have hx := needSpill_power ‹_›; simp_all; done)

@[simp] theorem State.enterWaiting_power (s : State) (r : FibreRef) : (State.enterWaiting s r).power = s.power := by
  unfold State.enterWaiting; (repeat' split) <;> simp

@[simp] theorem State.poolFreed_power (s : State) : (State.poolFreed s).power = s.power := by
  unfold State.poolFreed
  rw [foldl_power (fun s t => foldl_power (fun s g => foldl_power (fun s f => s.enterWaiting_power _) _ _) _ _)]
  simp

@[simp] theorem State.freeArea_power (s : State) (a : Option Nat) : (State.freeArea s a).power = s.power := by
  unfold State.freeArea; split <;> simp

@[simp] theorem State.moveClass_power (s : State) (cls : Nat) : (State.moveClass s cls).power = s.power := by
  simp only [State.moveClass]; (repeat' split)
  all_goals simp

@[simp] theorem State.reroute_power (s : State) : (State.reroute s).power = s.power := by
  simp [State.reroute]

@[simp] theorem State.settleRoutes_power (s : State) : (State.settleRoutes s).power = s.power := by
  simp only [State.settleRoutes]
  split <;> simp

@[simp] theorem State.l1Update_power (s : State) (core : Nat) (loc : Nat) (bs : List Byte) : (State.l1Update s core loc bs).power = s.power := by
  simp [State.l1Update]

@[simp] theorem State.landLine_power (s : State) (core : Nat) (l : WcLine) : (State.landLine s core l).power = s.power := by
  simp [State.landLine]

@[simp] theorem State.drainLine_power (s : State) (core : Nat) (l : WcLine) : (State.drainLine s core l).power = s.power := by
  simp [State.drainLine]

@[simp] theorem State.drain_power (s : State) (core : Nat) : (State.drain s core).power = s.power := by
  simp [State.drain]

@[simp] theorem State.landAll_power (s : State) (core : Nat) : (State.landAll s core).power = s.power := by
  simp [State.landAll]

@[simp] theorem State.drainHome_power (s : State) (core : Nat) : (State.drainHome s core).power = s.power := by
  simp [State.drainHome]

@[simp] theorem State.release_power (s : State) (core : Nat) (pair : Bool) (scope : Nat) : (State.release s core pair scope).power = s.power := by
  simp [State.release]

@[simp] theorem State.drainAt_power (s : State) (core : Nat) (loc : Nat) : (State.drainAt s core loc).power = s.power := by
  simp [State.drainAt]

@[simp] theorem State.drainLaunch_power (s : State) (seq : Nat) : (State.drainLaunch s seq).power = s.power := by
  simp [State.drainLaunch]

@[simp] theorem State.completeLaunch_power (s : State) (seq : Nat) : (State.completeLaunch s seq).power = s.power := by
  unfold State.completeLaunch; (repeat' split)
  all_goals simp

@[simp] theorem State.dropCopyWaiters_power (s : State) (r : TeamRef) (p : CopyWaiter → Bool) : (State.dropCopyWaiters s r p).power = s.power := by
  simp [State.dropCopyWaiters]

@[simp] theorem State.retireTeam_power (s : State) (r : TeamRef) : (State.retireTeam s r).power = s.power := by
  unfold State.retireTeam; split <;> simp

@[simp] theorem State.wakeTeam_power (s : State) (t : Team) : (State.wakeTeam s t).power = s.power := by
  simp [State.wakeTeam]

@[simp] theorem State.openIfArrived_power (s : State) (r : TeamRef) : (State.openIfArrived s r).power = s.power := by
  unfold State.openIfArrived; split <;> simp

@[simp] theorem State.rouseAcks_power (s : State) : (State.rouseAcks s).power = s.power := by
  simp [State.rouseAcks]

@[simp] theorem State.land_power (s : State) (core : Nat) : (State.land s core).power = s.power := by
  simp [State.land]

@[simp] theorem State.exitFibre_power (s : State) (r : FibreRef) : (State.exitFibre s r).power = s.power := by
  simp [State.exitFibre]

@[simp] theorem State.killWaits_power (s : State) (cs : List CounterRef) : (State.killWaits s cs).power = s.power := by
  simp [State.killWaits]

@[simp] theorem State.terminate_power (s : State) (seq : Nat) (b : Blame) : (State.terminate s seq b).power = s.power := by
  unfold State.terminate; split <;> simp

@[simp] theorem State.takeTrap_power (s : State) (r : FibreRef) (t : TrapInfo) : (State.takeTrap s r t).power = s.power := by
  simp only [State.takeTrap]; (repeat' split)
  all_goals first | (simp; done) | (simp; first | exact needSpill_power ‹_› | exact takePool_power ‹_› | exact roomFor_power ‹_›)

@[simp] theorem State.freeze_power (s : State) (r : FibreRef) (x : LodgeFault) : (State.freeze s r x).power = s.power := by
  unfold State.freeze; split <;> simp

@[simp] theorem State.keepPath_power (s : State) (w : Space) (va : Nat) : (State.keepPath s w va).power = s.power := by
  simp [State.keepPath]

@[simp] theorem State.touch_power (s : State) (w : Space) (use : Use) (va : Nat) : (State.touch s w use va).power = s.power := by
  unfold State.touch; split <;> simp

@[simp] theorem State.dropTlb_power (s : State) (p : TlbEntry → Bool) : (State.dropTlb s p).power = s.power := by
  simp [State.dropTlb]

@[simp] theorem State.keepBlock_power (s : State) (w : Space) (va : Nat) (loc : Nat) : (State.keepBlock s w va loc).power = s.power := by
  simp [State.keepBlock]

theorem State.fetchWord_power {s : State} {w : Space} {va : Nat} {out : Word × State} (hout : State.fetchWord s w va = .ok out) : out.2.power = s.power := by
  unfold State.fetchWord at hout; (repeat' split at hout)
  all_goals (first | (simp_all; done) | (cases hout; simp; done))

theorem State.fetchWords_power {s : State} {w : Space} {va : Nat} {x3 : Nat} {out : List Word × State} (hout : State.fetchWords s w va x3 = .ok out) : out.2.power = s.power := by
  induction x3 generalizing s va out with
  | zero => unfold State.fetchWords at hout; cases hout; rfl
  | succ n ih =>
    unfold State.fetchWords at hout
    split at hout
    · cases hout
    · rename_i x u h
      split at hout
      · cases hout
      · rename_i xs v h'
        cases hout
        exact (ih h').trans (State.fetchWord_power h)

theorem State.fetch_power {s : State} {w : Space} {va : Nat} {out : BitVec 160 × State} (hout : State.fetch s w va = .ok out) : out.2.power = s.power := by
  unfold State.fetch at hout
  split at hout
  · cases hout
  · rename_i x u h
    split at hout
    · cases hout
    · rename_i xs v h'
      cases hout
      exact (State.fetchWords_power h').trans (State.fetchWord_power h)

@[simp] theorem State.putScratch_power (s : State) (r : TeamRef) (p : Piece) (old : Bool) : (State.putScratch s r p old).power = s.power := by
  unfold State.putScratch; split <;> simp

@[simp] theorem State.settleReq_power (s : State) (core : Nat) (line : Nat) (q : CopyReq) : (State.settleReq s core line q).power = s.power := by
  simp [State.settleReq]

@[simp] theorem State.settleLine_power (s : State) (r : TeamRef) (line : Nat) : (State.settleLine s r line).power = s.power := by
  unfold State.settleLine; split <;> simp

@[simp] theorem State.settleLines_power (s : State) (r : TeamRef) (o : Nat) (n : Nat) : (State.settleLines s r o n).power = s.power := by
  simp [State.settleLines]

@[simp] theorem State.scratchStore_power (s : State) (r : TeamRef) (o : Nat) (bs : List Byte) : (State.scratchStore s r o bs).power = s.power := by
  simp [State.scratchStore]

@[simp] theorem State.l1Fill_power (s : State) (core : Nat) (hint : Nat) (loc : Nat) : (State.l1Fill s core hint loc).power = s.power := by
  simp [State.l1Fill]

@[simp] theorem State.l1Drop_power (s : State) (core : Nat) (loc : Nat) : (State.l1Drop s core loc).power = s.power := by
  simp [State.l1Drop]

@[simp] theorem State.acquire_power (s : State) (core : Nat) (scope : Nat) : (State.acquire s core scope).power = s.power := by
  simp [State.acquire]

@[simp] theorem State.buffer_power (s : State) (core : Nat) (r : TeamRef) (id : Nat) (loc : Nat) (bs : List Byte) : (State.buffer s core r id loc bs).power = s.power := by
  simp only [State.buffer]; (repeat' split)
  all_goals simp

@[simp] theorem State.loadMem_power (s : State) (core : Nat) (hint : Nat) (p : Phys) (n : Nat) : (State.loadMem s core hint p n).2.power = s.power := by
  unfold State.loadMem
  dsimp only
  refine foldl_snd_power (fun q x => ?_) _ _
  obtain ⟨acc, u⟩ := q
  obtain ⟨a, k⟩ := x
  dsimp only
  split
  · rfl
  · (repeat' split) <;> simp

@[simp] theorem State.loadSpans_power (s : State) (c : Ctx) (hint : Nat) (ps : List Span) : (State.loadSpans s c hint ps).2.power = s.power := by
  unfold State.loadSpans; refine foldl_snd_power (fun _ _ => ?_) _ _; (repeat' split)
  all_goals simp

@[simp] theorem State.releaseFor_power (s : State) (c : Ctx) (remote : Bool) (scope : Nat) : (State.releaseFor s c remote scope).power = s.power := by
  simp [State.releaseFor]

@[simp] theorem State.sendNow_power (s : State) (core : Nat) (r : TeamRef) (id : Nat) (loc : Nat) (bs : List Byte) : (State.sendNow s core r id loc bs).power = s.power := by
  simp [State.sendNow]

@[simp] theorem State.storeMem_power (s : State) (c : Ctx) (id : Nat) (p : Phys) (bs : List Byte) : (State.storeMem s c id p bs).power = s.power := by
  unfold State.storeMem; refine foldl_power (fun _ _ => ?_) _ _; (repeat' split)
  all_goals simp

@[simp] theorem State.storeSpans_power (s : State) (c : Ctx) (ps : List Span) (bs : List Byte) : (State.storeSpans s c ps bs).power = s.power := by
  unfold State.storeSpans; refine foldl_power (fun _ _ => ?_) _ _; (repeat' split)
  all_goals simp

@[simp] theorem State.homeOpen_power (s : State) (c : Ctx) (use : Use) (h : Home) (n : Nat) : (State.homeOpen s c use h n).power = s.power := by
  unfold State.homeOpen; split <;> simp

@[simp] theorem State.homeWrite_power (s : State) (r : TeamRef) (h : Home) (n : Nat) (v : Nat) : (State.homeWrite s r h n v).power = s.power := by
  unfold State.homeWrite; split <;> simp

@[simp] theorem State.clearMarks_power (s : State) (core : Nat) (xs : List Nat) : (State.clearMarks s core xs).power = s.power := by
  simp [State.clearMarks]

@[simp] theorem State.enqueue_power (s : State) (core : Nat) (r : FibreRef) (op : Nat) (w : Fields) (pc : DWord) (lane : Nat) : (State.enqueue s core r op w pc lane).power = s.power := by
  simp [State.enqueue]

@[simp] theorem State.retryEngine_power (s : State) (core : Nat) : (State.retryEngine s core).power = s.power := by
  simp [State.retryEngine]

@[simp] theorem State.noteFill_power (s : State) (core : Nat) (r : TeamRef) (slot : Nat) (off : Nat) (bs : List Byte) : (State.noteFill s core r slot off bs).power = s.power := by
  simp [State.noteFill]

@[simp] theorem State.engineStart_power (s : State) (core : Nat) : (State.engineStart s core).power = s.power := by
  unfold State.engineStart; (repeat' split)
  all_goals simp

@[simp] theorem State.finishOp_power (s : State) (core : Nat) (e : EngineOp) : (State.finishOp s core e).power = s.power := by
  unfold State.finishOp; split
  · rfl
  · simp

@[simp] theorem State.engineFinish_power (s : State) (core : Nat) : (State.engineFinish s core).power = s.power := by
  simp only [State.engineFinish]; split
  · rfl
  · simp

@[simp] theorem State.finishTeamOps_power (s : State) (core : Nat) (r : TeamRef) : (State.finishTeamOps s core r).1.power = s.power := by
  unfold State.finishTeamOps
  refine (foldl_fst_power (fun q x => ?_) _ _)
  dsimp only
  split <;> simp

@[simp] theorem State.modReq_power (s : State) (core : Nat) (i : Nat) (f : CopyReq → CopyReq) : (State.modReq s core i f).power = s.power := by
  simp [State.modReq]

@[simp] theorem State.refreshPending_power (s : State) (r : TeamRef) : (State.refreshPending s r).power = s.power := by
  simp [State.refreshPending]

theorem State.park_power {s : State} {core : Nat} {team : TeamRef} {o : CopyOrigin} {op : Nat} {req : Option (Nat × Nat)} {x : Element}
    {b : Bool} {c r n a : Nat} {out : State} (hout : s.park core team o op req x b c r n a = some out) : out.power = s.power := by
  unfold State.park at hout
  dsimp only at hout
  (repeat' split at hout)
  all_goals first | (cases hout; done) | (cases hout; simp; done) | (simp_all; done)

theorem park_getD_power (u : State) (core : Nat) (team : TeamRef) (o : CopyOrigin) (op : Nat) (req : Option (Nat × Nat)) (x : Element)
    (b : Bool) (c r n a : Nat) : ((u.park core team o op req x b c r n a).getD u).power = u.power := by
  cases h' : u.park core team o op req x b c r n a with
  | none => rfl
  | some v => exact State.park_power h'

theorem State.parkReq_power {s : State} {core : Nat} {q : CopyReq} {x : Element} {unrepairable : Bool}
    {cause reason unit addr : Nat} {out : State} (hout : State.parkReq s core q x unrepairable cause reason unit addr = some out) :
    out.power = s.power := State.park_power hout

theorem State.fetchData_power {s : State} {w : Space} {seq : Nat} {use : Use} {va : Nat} {n : Nat} {out : List Byte × State} (hout : State.fetchData s w seq use va n = .ok out) : out.2.power = s.power := by
  unfold State.fetchData at hout
  split at hout
  · cases hout
  · split at hout
    · cases hout
    · cases hout
      rw [power_ite]
      simp only [State.addLaunchCounter_power, ite_self]
      refine foldl_snd_power (fun q p => ?_) _ _
      split <;> simp

theorem State.fetchItem_power {s : State} {w : Space} {seq : Nat} {use : Use} {table : Bool} {num : Nat} {va : Nat} {n : Nat} {out : List Byte × State} (hout : State.fetchItem s w seq use table num va n = .ok out) : out.2.power = s.power := by
  unfold State.fetchItem at hout
  split at hout
  · cases hout; rfl
  · split at hout
    · cases hout
    · rename_i h
      cases hout
      simpa using State.fetchData_power h

theorem State.fetchRecord_power {s : State} {w : Space} {seq : Nat} {k : Kernel} {handle : Nat} {out : Option (List Byte) × State} (hout : State.fetchRecord s w seq k handle = .ok out) : out.2.power = s.power := by
  unfold State.fetchRecord at hout
  split at hout
  · cases hout; rfl
  · split at hout
    · cases hout
    · rename_i h
      dsimp only at hout
      split at hout
      · cases hout; exact State.fetchData_power h
      · split at hout
        · cases hout
        · rename_i h'
          cases hout
          exact (State.fetchItem_power h').trans (State.fetchData_power h)

theorem State.placeCounter_power {s : State} {w : Space} {a : DWord} {out : Option (Nat ⊕ Nat) × State} (hout : State.placeCounter s w a = .ok out) : out.2.power = s.power := by
  unfold State.placeCounter at hout; (repeat' split at hout)
  all_goals (first | (simp_all; done) | (cases hout; simp; done))

theorem State.fetchRecords_power {s : State} {w : Space} {seq : Nat} {k : Kernel} {x4 : List (Nat × Nat)} {out : List (Nat × Option (List Byte)) × State} (hout : State.fetchRecords s w seq k x4 = .ok out) : out.2.power = s.power := by
  induction x4 generalizing s out with
  | nil => unfold State.fetchRecords at hout; cases hout; rfl
  | cons x l ih =>
    obtain ⟨pos, h⟩ := x
    unfold State.fetchRecords at hout
    split at hout
    · cases hout
    · rename_i h1
      split at hout
      · cases hout
      · rename_i h2
        cases hout
        exact (ih h2).trans (State.fetchRecord_power h1)

theorem State.checkCopy_power {s : State} {w : Space} {t : Team} {k : Kernel} {c : CopyCmd} {out : CopyOk}
    (hout : State.checkCopy s w t k c = .ok out) : out.state.power = s.power := by
  unfold State.checkCopy at hout
  split at hout
  · cases hout
  · dsimp only at hout
    split at hout
    · cases hout
    · split at hout
      · cases hout
      · rename_i h1
        split at hout
        · cases hout
        · rename_i h2
          split at hout
          · cases hout
          · rename_i h3
            split at hout
            · cases hout
            · cases hout
              exact (State.placeCounter_power h3).trans ((State.placeCounter_power h2).trans (State.fetchRecords_power h1))

@[simp] theorem State.dropCopied_power (s : State) (r : TeamRef) (loc : Nat) (n : Nat) : (State.dropCopied s r loc n).power = s.power := by
  unfold State.dropCopied
  split
  · exact foldl_power (fun _ _ => foldl_power (fun _ _ => by simp) _ _) _ _
  · rfl

@[simp] theorem State.copyAdd_power (s : State) (q : CopyReq) (at_ : Option (Nat ⊕ Nat)) (inc : BitVec 32) : (State.copyAdd s q at_ inc).1.power = s.power := by
  unfold State.copyAdd; (repeat' split) <;> simp

@[simp] theorem State.drainTeam_power (s : State) (t : Team) (k : Kernel) : (State.drainTeam s t k).1.power = s.power := by
  simp [State.drainTeam]

/-- The state that an attempt at a counter add leaves. -/
def AddOut.state : AddOut → State
  | .no s => s
  | .go s _ => s

@[simp] theorem AddOut.state_no (s : State) : (AddOut.no s).state = s := rfl
@[simp] theorem AddOut.state_go (s : State) (a : Option (Nat ⊕ Nat)) : (AddOut.go s a).state = s := rfl

@[simp] theorem State.parkAdd_power (s : State) (core : Nat) (q : CopyReq) (cause reason : Nat) (va : DWord) :
    (s.parkAdd core q cause reason va).state.power = s.power := by
  unfold State.parkAdd
  split
  · rename_i h
    exact State.parkReq_power h
  · simp

theorem readyAdd_power (s : State) (core : Nat) (q : CopyReq) (a : Option (Nat ⊕ Nat)) (va : DWord) :
    (s.readyAdd core q a va).state.power = s.power := by
  unfold State.readyAdd
  dsimp only
  (repeat' split) <;> first | rfl | (simp; done) | (simp_all; done)

theorem readyAdd_no_power {s t : State} {core : Nat} {q : CopyReq} {a : Option (Nat ⊕ Nat)} {va : DWord}
    (h : s.readyAdd core q a va = .no t) : t.power = s.power := by
  have := readyAdd_power s core q a va
  rwa [h] at this

theorem readyAdd_go_power {s t : State} {core : Nat} {q : CopyReq} {a b : Option (Nat ⊕ Nat)} {va : DWord}
    (h : s.readyAdd core q a va = .go t b) : t.power = s.power := by
  have := readyAdd_power s core q a va
  rwa [h] at this

@[simp] theorem State.claimRegion_power (s : State) (core : Nat) (i : Nat) (p : Place) : (State.claimRegion s core i p).power = s.power := by
  unfold State.claimRegion; (repeat' split) <;> simp

@[simp] theorem State.touchRegion_power (s : State) (core : Nat) (i : Nat) (p : Place) : (State.touchRegion s core i p).power = s.power := by
  unfold State.touchRegion; split <;> simp

theorem readRun_power {s t : State} {core num n : Nat} {q : CopyReq} {p : Place} {b : Bool}
    (h : s.readRun core q num p n = .done t b) : t.power = s.power := by
  unfold State.readRun at h
  dsimp only at h
  (repeat' split at h) <;> first | cases h | (cases h; simp)
  all_goals first | rfl | simp

theorem readRun_wait_power {s t : State} {core num n : Nat} {q : CopyReq} {p : Place}
    (h : s.readRun core q num p n = .wait t) : t.power = s.power := by
  unfold State.readRun at h
  dsimp only at h
  (repeat' split at h) <;> first | cases h | (cases h; simp)
  all_goals first | rfl | simp

@[simp] theorem State.haltReq_power (s : State) (core i : Nat) : (State.haltReq s core i).power = s.power := by
  simp [State.haltReq]

@[simp] theorem State.unhalt_power (s : State) (core i : Nat) : (State.unhalt s core i).power = s.power := by
  unfold State.unhalt; split <;> simp

@[simp] theorem State.readRuns_power (s : State) (core : Nat) (i : Nat) (runs : List (Nat × Place × Nat)) : (State.readRuns s core i runs).1.power = s.power := by
  unfold State.readRuns
  refine (foldl_fst_power (fun q x => ?_) _ _).trans (by simp)
  dsimp only
  split
  · rfl
  · split
    · rfl
    · split
      · exact readRun_power ‹_›
      · exact readRun_wait_power ‹_›
      · split
        · simpa using State.parkReq_power ‹_›
        · simp

@[simp] theorem State.readIndex_power (s : State) (core : Nat) (i : Nat) (q : CopyReq) : (State.readIndex s core i q).1.power = s.power := by
  simp only [State.readIndex]; (repeat' split)
  all_goals simp

@[simp] theorem State.goOn_power (s : State) (core : Nat) (i : Nat) (runs : List (Nat × Place × Nat)) : (State.goOn s core i runs).power = s.power := by
  unfold State.goOn; (repeat' split) <;> simp

@[simp] theorem State.copyRead_power (s : State) (core : Nat) (i : Nat) : (State.copyRead s core i).1.power = s.power := by
  unfold State.copyRead
  split
  · rfl
  · split
    · rfl
    · dsimp only
      split
      · simp
      · split
        · simp
        · split
          · simp
          · split
            · simp
            · split
              · rename_i h
                simpa using readyAdd_no_power h
              · rename_i h
                simpa using readyAdd_go_power h

theorem writePiece_power {s t : State} {core : Nat} {q : CopyReq} {p : Piece} (h : s.writePiece core q p = .done t) :
    t.power = s.power := by
  unfold State.writePiece at h
  dsimp only at h
  (repeat' split at h) <;> first | cases h | (cases h; simp)
  all_goals first | rfl | simp

theorem writePiece_wait_power {s t : State} {core : Nat} {q : CopyReq} {p : Piece} (h : s.writePiece core q p = .wait t) :
    t.power = s.power := by
  unfold State.writePiece at h
  dsimp only at h
  (repeat' split at h) <;> first | cases h | (cases h; simp)
  all_goals first | rfl | simp

@[simp] theorem State.writePieces_power (s : State) (core : Nat) (i : Nat) (pick : Piece → Bool) : (State.writePieces s core i pick).power = s.power := by
  unfold State.writePieces
  split
  · rfl
  · simp only [State.refreshPending_power]
    refine (foldl_power (fun q x => ?_) _ _).trans (by simp)
    split
    · rfl
    · split
      · rfl
      · split
        · simpa using writePiece_power ‹_›
        · exact writePiece_wait_power ‹_›
        · split
          · simpa using State.parkReq_power ‹_›
          · simp

@[simp] theorem State.clearLine_power (s : State) (core : Nat) (i : Nat) : (State.clearLine s core i).power = s.power := by
  unfold State.clearLine; (repeat' split)
  all_goals simp

@[simp] theorem State.countCopies_power (s : State) (r : FibreRef) : (State.countCopies s r).power = s.power := by
  simp [State.countCopies]

@[simp] theorem State.copyFinish_power (s : State) (core : Nat) (i : Nat) : (State.copyFinish s core i).1.power = s.power := by
  unfold State.copyFinish
  split
  · rfl
  · split
    · rfl
    · dsimp only
      split
      · simp
      · split
        · simp
        · split
          · rename_i h
            simpa using readyAdd_no_power h
          · rename_i h
            have := readyAdd_go_power h
            simp only [State.writePieces_power] at this
            split <;> simp [this]

@[simp] theorem State.cpaRead_power (s : State) (core : Nat) (i : Nat) : (State.cpaRead s core i).power = s.power := by
  unfold State.cpaRead; (repeat' split)
  all_goals simp

@[simp] theorem State.startCopy_power (s : State) (core : Nat) (i : Nat) (team : TeamRef) (origin : CopyOrigin) (pc : DWord) (cmd : CopyCmd) (ok : CopyOk) (promise : Nat) : (State.startCopy s core i team origin pc cmd ok promise).power = s.power := by
  simp [State.startCopy]

@[simp] theorem State.promise_power (s : State) : (State.promise s).2.power = s.power := by
  simp [State.promise]

@[simp] theorem State.startDynamic_power (s : State) (core : Nat) (i : Nat) (r : FibreRef) (cmd : CopyCmd) (pc : DWord) (ok : CopyOk) : (State.startDynamic s core i r cmd pc ok).2.power = s.power := by
  simp [State.startDynamic]

@[simp] theorem State.leaveQueue_power (s : State) (core : Nat) (r : FibreRef) : (State.leaveQueue s core r).power = s.power := by
  simp [State.leaveQueue]

@[simp] theorem State.awaitEntry_power (s : State) (core : Nat) (r : FibreRef) : (State.awaitEntry s core r).power = s.power := by
  simp [State.awaitEntry]

theorem State.reachEntry_power {s : State} {t : Team} {kn : Kernel} {k : Nat} {out} (hout : State.reachEntry s t kn k = .ok out) : out.2.power = s.power := by
  simp only [State.reachEntry] at hout; (repeat' split at hout)
  all_goals (first | (simp_all; done) | (cases hout; simp; done) | (cases hout; first | (simp; done) | (simp_all; done) | exact State.fetchData_power ‹_› | (simp; first | exact State.fetchData_power ‹_› | exact (State.fetchData_power ‹_›).trans (by simp)) | (have hx := State.fetchData_power ‹_›; simp at hx; simp [hx]; done) | (have hx := State.fetchData_power ‹_›; simp_all; done)))

theorem nextEntry_go_power {s u : State} {t : Team} {k : Nat} {cmd : CopyCmd} {ok : CopyOk}
    (h : s.nextEntry t = .go u k cmd ok) : u.power = s.power := by
  unfold State.nextEntry at h
  dsimp only at h
  (repeat' split at h) <;> cases h
  have h2 := State.checkCopy_power ‹_›
  have h1 := State.reachEntry_power ‹_›
  exact h2.trans ((State.drainTeam_power _ _ _).trans h1)

theorem nextEntry_park_power {s u : State} {t : Team} {k op : Nat} {b : Bool} {c r n a : Nat}
    (h : s.nextEntry t = .park u k op b c r n a) : u.power = s.power := by
  unfold State.nextEntry at h
  dsimp only at h
  (repeat' split at h) <;> cases h <;>
    first | rfl | exact State.reachEntry_power ‹_› | exact (State.drainTeam_power _ _ _).trans (State.reachEntry_power ‹_›)

theorem nextEntry_gated_power {s u : State} {t : Team} (h : s.nextEntry t = .gated u) : u.power = s.power := by
  unfold State.nextEntry at h
  dsimp only at h
  (repeat' split at h) <;> cases h <;>
    first | rfl | exact State.reachEntry_power ‹_› | exact (State.drainTeam_power _ _ _).trans (State.reachEntry_power ‹_›)

@[simp] theorem State.advancePosition_power (s : State) (t : TeamRef) (k : Nat) : (State.advancePosition s t k).power = s.power := by
  simp [State.advancePosition]

@[simp] theorem State.startEntry_power (s : State) (t : Team) (i : Nat) (k : Nat) (cmd : CopyCmd) (ok : CopyOk) : (State.startEntry s t i k cmd ok).power = s.power := by
  simp [State.startEntry]

@[simp] theorem State.issueEntry_power (s : State) (r : TeamRef) : (State.issueEntry s r).power = s.power := by
  unfold State.issueEntry
  split
  · rfl
  · split
    · rfl
    · exact nextEntry_gated_power ‹_›
    · rfl
    · exact (park_getD_power _ _ _ _ _ _ _ _ _ _ _ _).trans (nextEntry_park_power ‹_›)
    · have h := nextEntry_go_power ‹_›
      dsimp only
      split
      · split <;> simp [h]
      · simp [h]

@[simp] theorem State.grantEntry_power (s : State) (core : Nat) : (State.grantEntry s core).power = s.power := by
  unfold State.grantEntry
  dsimp only
  split
  · split
    · rfl
    · split
      · simp
      · split
        · simp
        · split
          · simp
          · exact (nextEntry_gated_power ‹_›).trans (by simp)
          · simp
          · exact (park_getD_power _ _ _ _ _ _ _ _ _ _ _ _).trans ((nextEntry_park_power ‹_›).trans (by simp))
          · have h := nextEntry_go_power ‹_›
            simp only [State.modCore_power] at h
            simp [h]
  · rfl

@[simp] theorem State.replayRelease_power (s : State) (core : Nat) (e : Nat) : (State.replayRelease s core e).power = s.power := by
  unfold State.replayRelease; (repeat' split)
  all_goals simp

@[simp] theorem State.replayTerminate_power (s : State) (core : Nat) (e : Nat) : (State.replayTerminate s core e).power = s.power := by
  unfold State.replayTerminate; split <;> simp

@[simp] theorem State.driveCopies_power (s : State) (r : TeamRef) : (State.driveCopies s r).1.power = s.power := by
  simp [State.driveCopies]

@[simp] theorem State.putUnit_power (s : State) (r : TeamRef) (e : JournalEntry) : (State.putUnit s r e).power = s.power := by
  unfold State.putUnit; split <;> simp

@[simp] theorem State.countRollback_power (s : State) (r : TeamRef) : (State.countRollback s r).power = s.power := by
  unfold State.countRollback; (repeat' split) <;> simp

@[simp] theorem State.finishRollback_power (s : State) (r : TeamRef) : (State.finishRollback s r).power = s.power := by
  unfold State.finishRollback; (repeat' split)
  all_goals simp

@[simp] theorem State.continueRollback_power (s : State) (r : TeamRef) : (State.continueRollback s r).power = s.power := by
  unfold State.continueRollback; split <;> simp

@[simp] theorem State.startRollback_power (s : State) (t : Team) : (State.startRollback s t).power = s.power := by
  simp [State.startRollback]

@[simp] theorem State.teamError_power (s : State) (r : TeamRef) (cause : Nat) (fib : Option FibreRef) (pc : DWord) : (State.teamError s r cause fib pc).power = s.power := by
  unfold State.teamError; (repeat' split)
  all_goals simp

@[simp] theorem State.afterCopy_power (p : State × Bool) (q : CopyReq) : (State.afterCopy p q).power = p.1.power := by
  unfold State.afterCopy
  split <;> simp

@[simp] theorem State.setFibre_power (s : State) (r : FibreRef) (f : Fibre) : (State.setFibre s r f).power = s.power := by
  simp [State.setFibre]

@[simp] theorem State.holdLane_power (s : State) (g : Group) (h : Nat) : (State.holdLane s g h).power = s.power := by
  simp [State.holdLane]

@[simp] theorem State.issued_power (s : State) (c : Ctx) (h : Nat) : (State.issued s c h).power = s.power := by
  simp [State.issued]

@[simp] theorem State.handOff_power (s : State) (c : Ctx) : (State.handOff s c).power = s.power := by
  unfold State.handOff; split <;> simp

@[simp] theorem State.endSplits_power (s : State) (r : FibreRef) (sige : Bool) (pc : DWord) (e : SplitEnd) : (State.endSplits s r sige pc e).power = s.power := by
  simp only [State.endSplits]; (repeat' split)
  all_goals simp

@[simp] theorem State.deliver_power (s : State) (c : Ctx) (d : Done) : (State.deliver s c d).power = s.power := by
  unfold State.deliver; (repeat' split)
  all_goals simp

theorem roomFor_power {s : State} {c : Ctx} {kids : Nat} {out : State} (hout : roomFor s c kids = some out) : out.power = s.power := by
  unfold roomFor at hout
  split at hout
  · exact needSpill_power hout
  · cases hout; rfl

theorem State.finishIssue_power (s : State) (c : Ctx) (d : Done) (h : d.s.power = s.power) :
    (s.finishIssue c d).power = s.power := by
  simp only [State.finishIssue]
  split
  · simp
  · have := roomFor_power ‹_›
    (repeat' split) <;> simp [this, h]

@[simp] theorem State.stopIssue_power (s : State) (c : Ctx) (x : Stop) : (State.stopIssue s c x).power = s.power := by
  unfold State.stopIssue; (repeat' split)
  all_goals simp

@[simp] theorem State.parkSplit_power (s : State) (c : Ctx) (p : Park) : (State.parkSplit s c p).power = s.power := by
  unfold State.parkSplit; split <;> simp

@[simp] theorem State.stall_power (s : State) (c : Ctx) (ids : List Nat) : (State.stall s c ids).power = s.power := by
  simp [State.stall]

@[simp] theorem State.awaitAcks_power (s : State) (c : Ctx) (cores : List Nat) : (State.awaitAcks s c cores).power = s.power := by
  simp [State.awaitAcks]

@[simp] theorem State.holdFibre_power (s : State) (c : Ctx) (h : Hold) : (State.holdFibre s c h).power = s.power := by
  simp [State.holdFibre]

theorem State.apply_power (s : State) (c : Ctx) (e : Effect) (h : e.keeps s) : (s.apply c e).power = s.power := by
  cases e with
  | done d => 
    simp only [State.apply]
    split
    · simp
    · exact State.finishIssue_power s c d h
  | stop x => simp [State.apply]
  | held t x => simpa [State.apply] using h
  | stalled l => simp [State.apply]
  | unacked t l => simpa [State.apply] using h

theorem State.issueIn_power (s : State) (c : Ctx) (body : Ctx → State → Effect) (h : (body c s).keeps s) :
    (s.issueIn c body).power = s.power := by
  simp only [State.issueIn]
  (repeat' split) <;> first | (simp; done) | exact State.apply_power _ _ _ h

@[simp] theorem noEffect_power (s : State) : (noEffect s).keeps s := by
  simp [noEffect]

@[simp] theorem illegalBody_power (bits : BitVec 160) (c : Ctx) (s : State) : (illegalBody bits c s).keeps s := by
  simp only [illegalBody]; (repeat' split)
  all_goals simp

@[simp] theorem intTwo_power (f : ℤ → ℤ → ℤ) (c : Ctx) (s : State) : (intTwo f c s).keeps s := by
  simp [intTwo]

@[simp] theorem intThree_power (f : ℤ → ℤ → ℤ → ℤ) (c : Ctx) (s : State) : (intThree f c s).keeps s := by
  simp [intThree]

@[simp] theorem intOne_power (f : ℤ → ℤ) (c : Ctx) (s : State) : (intOne f c s).keeps s := by
  simp [intOne]

@[simp] theorem intDivide_power (f : ℤ → ℤ → DWord) (c : Ctx) (s : State) : (intDivide f c s).keeps s := by
  simp [intDivide]

@[simp] theorem intCarry_power (value : Nat → Nat → Nat → ℤ) (out : Nat → Nat → Nat → Bool) (c : Ctx) (s : State) : (intCarry value out c s).keeps s := by
  simp [intCarry]

@[simp] theorem intMadw_power (c : Ctx) (s : State) : (intMadw c s).keeps s := by
  simp [intMadw]

@[simp] theorem intCompare_power (c : Ctx) (s : State) : (intCompare c s).keeps s := by
  simp [intCompare]

@[simp] theorem leaBody_power (c : Ctx) (s : State) : (leaBody c s).keeps s := by
  simp [leaBody]

@[simp] theorem bitTwo_power (f : Nat → Nat → Nat) (c : Ctx) (s : State) : (bitTwo f c s).keeps s := by
  simp [bitTwo]

@[simp] theorem bitShift_power (f : Nat → Nat → Nat → Nat) (c : Ctx) (s : State) : (bitShift f c s).keeps s := by
  simp [bitShift]

@[simp] theorem bitFunnel_power (f : Nat → Nat → Nat → Nat → Nat) (c : Ctx) (s : State) : (bitFunnel f c s).keeps s := by
  simp [bitFunnel]

@[simp] theorem bitCount_power (f : Nat → Nat → Nat) (c : Ctx) (s : State) : (bitCount f c s).keeps s := by
  simp [bitCount]

@[simp] theorem bitMix_power (c : Ctx) (s : State) : (bitMix c s).keeps s := by
  simp [bitMix]

@[simp] theorem packedTwo_power (f : ℤ → ℤ → ℤ) (c : Ctx) (s : State) : (packedTwo f c s).keeps s := by
  simp [packedTwo]

@[simp] theorem packedCompare_power (c : Ctx) (s : State) : (packedCompare c s).keeps s := by
  simp [packedCompare]

@[simp] theorem trellis_power (c : Ctx) (s : State) : (trellis c s).keeps s := by
  simp [trellis]

@[simp] theorem floatDone_power (k : FloatClass) (s : State) (ws : List RegWrite) (fs : List Flags) : (floatDone k s ws fs).keeps s := by
  unfold floatDone; split <;> simp

@[simp] theorem floatBy_power (k : FloatClass) (f : Nat → Nat × Flags) (c : Ctx) (s : State) : (floatBy k f c s).keeps s := by
  simp [floatBy]

@[simp] theorem floatOne_power (k : FloatClass) (f : Fmt → Rounding → Nat → Nat × Flags) (c : Ctx) (s : State) : (floatOne k f c s).keeps s := by
  simp [floatOne]

@[simp] theorem floatTwo_power (k : FloatClass) (f : Fmt → Rounding → Nat → Nat → Nat × Flags) (c : Ctx) (s : State) : (floatTwo k f c s).keeps s := by
  simp [floatTwo]

@[simp] theorem floatThree_power (k : FloatClass) (f : Fmt → Rounding → Nat → Nat → Nat → Nat × Flags) (c : Ctx) (s : State) : (floatThree k f c s).keeps s := by
  simp [floatThree]

@[simp] theorem floatCompare_power (k : FloatClass) (c : Ctx) (s : State) : (floatCompare k c s).keeps s := by
  simp [floatCompare]

@[simp] theorem floatClass_power (k : FloatClass) (c : Ctx) (s : State) : (floatClass k c s).keeps s := by
  simp [floatClass]

@[simp] theorem floatApprox_power (c : Ctx) (s : State) : (floatApprox c s).keeps s := by
  simp [floatApprox]

@[simp] theorem packedFloatTwo_power (f : Fmt → Rounding → Nat → Nat → Nat × Flags) (c : Ctx) (s : State) : (packedFloatTwo f c s).keeps s := by
  simp [packedFloatTwo]

@[simp] theorem packedFloatThree_power (f : Fmt → Rounding → Nat → Nat → Nat → Nat × Flags) (c : Ctx) (s : State) : (packedFloatThree f c s).keeps s := by
  simp [packedFloatThree]

@[simp] theorem convertBody_power (c : Ctx) (s : State) : (convertBody c s).keeps s := by
  simp [convertBody]

@[simp] theorem tripckBody_power (c : Ctx) (s : State) : (tripckBody c s).keeps s := by
  simp [tripckBody]

@[simp] theorem triunpBody_power (c : Ctx) (s : State) : (triunpBody c s).keeps s := by
  simp [triunpBody]

@[simp] theorem moveBody_power (c : Ctx) (s : State) : (moveBody c s).keeps s := by
  simp [moveBody]

@[simp] theorem moviBody_power (c : Ctx) (s : State) : (moviBody c s).keeps s := by
  simp [moviBody]

@[simp] theorem selBody_power (c : Ctx) (s : State) : (selBody c s).keeps s := by
  simp [selBody]

@[simp] theorem pmixBody_power (c : Ctx) (s : State) : (pmixBody c s).keeps s := by
  simp [pmixBody]

@[simp] theorem psetBody_power (c : Ctx) (s : State) : (psetBody c s).keeps s := by
  simp [psetBody]

@[simp] theorem pgetBody_power (c : Ctx) (s : State) : (pgetBody c s).keeps s := by
  simp [pgetBody]

@[simp] theorem pcolBody_power (c : Ctx) (s : State) : (pcolBody c s).keeps s := by
  simp [pcolBody]

@[simp] theorem gswzBody_power (c : Ctx) (s : State) : (gswzBody c s).keeps s := by
  simp [gswzBody]

@[simp] theorem rdthBody_power (c : Ctx) (s : State) : (rdthBody c s).keeps s := by
  simp [rdthBody]

@[simp] theorem wrthBody_power (c : Ctx) (s : State) : (wrthBody c s).keeps s := by
  simp [wrthBody]

@[simp] theorem foldDone_power (ty : Nat) (s : State) (ws : List RegWrite) (fl : Flags) : (foldDone ty s ws fl).keeps s := by
  simp [foldDone]

@[simp] theorem gredBody_power (c : Ctx) (s : State) : (gredBody c s).keeps s := by
  simp [gredBody]

@[simp] theorem gscanBody_power (c : Ctx) (s : State) : (gscanBody c s).keeps s := by
  simp [gscanBody]

@[simp] theorem State.performLoads_power (s : State) (c : Ctx) (l : Located) : (State.performLoads s c l).2.power = s.power := by
  simp [State.performLoads]

@[simp] theorem loadBody_power (scratch : Bool) (c : Ctx) (s : State) : (loadBody scratch c s).keeps s := by
  simp only [loadBody]; (repeat' split)
  all_goals simp

@[simp] theorem storeBody_power (scratch : Bool) (c : Ctx) (s : State) : (storeBody scratch c s).keeps s := by
  simp only [storeBody]; (repeat' split)
  all_goals simp

@[simp] theorem fenceBody_power (c : Ctx) (s : State) : (fenceBody c s).keeps s := by
  simp [fenceBody]

@[simp] theorem State.prefetch_power (s : State) (c : Ctx) (q : Req) : (State.prefetch s c q).power = s.power := by
  unfold State.prefetch; (repeat' split)
  all_goals simp

@[simp] theorem pfBody_power (c : Ctx) (s : State) : (pfBody c s).keeps s := by
  simp [pfBody]

@[simp] theorem cctlBody_power (c : Ctx) (s : State) : (cctlBody c s).keeps s := by
  simp [cctlBody]

@[simp] theorem icinvBody_power (c : Ctx) (s : State) : (icinvBody c s).keeps s := by
  simp [icinvBody]

@[simp] theorem State.atomicAt_power (s : State) (c : Ctx) (h : Home) (b : Nat) (k : Nat) : (State.atomicAt s c h b k).2.power = s.power := by
  simp only [State.atomicAt]; (repeat' split)
  all_goals simp

@[simp] theorem State.atomics_power (s : State) (c : Ctx) (s0 : State) (l : Located) : (s.atomics c s0 l).2.power = s.power := by
  unfold State.atomics
  refine foldl_snd_power (fun q x => ?_) _ _
  simp

@[simp] theorem atomicBody_power (c : Ctx) (s : State) : (atomicBody c s).keeps s := by
  simp only [atomicBody]; (repeat' split)
  all_goals simp

@[simp] theorem nopBody_power (x0 : Ctx) (s : State) : (nopBody x0 s).keeps s := by
  simp [nopBody]

@[simp] theorem yieldBody_power (c : Ctx) (s : State) : (yieldBody c s).keeps s := by
  simp [yieldBody]

@[simp] theorem exitBody_power (c : Ctx) (s : State) : (exitBody c s).keeps s := by
  simp [exitBody]

@[simp] theorem callBody_power (c : Ctx) (s : State) : (callBody c s).keeps s := by
  simp [callBody]

@[simp] theorem retBody_power (c : Ctx) (s : State) : (retBody c s).keeps s := by
  simp [retBody]

theorem State.fetchTable_power {s : State} {c : Ctx} {n : Nat} {out : List Byte × State} (hout : State.fetchTable s c n = .ok out) : out.2.power = s.power := by
  unfold State.fetchTable at hout
  dsimp only at hout
  split at hout
  · cases hout; rfl
  · split at hout
    · cases hout
    · rename_i h1
      split at hout
      · cases hout
      · rename_i h2
        exact (State.fetchItem_power hout).trans ((State.fetchData_power h2).trans (State.fetchData_power h1))

@[simp] theorem jumpBody_power (callx : Bool) (c : Ctx) (s : State) : (jumpBody callx c s).keeps s := by
  simp only [jumpBody]
  split
  · simp
  · split
    · simp
    · split
      · simp
      · have := State.fetchTable_power ‹_›
        split
        · simp
        · split <;> simpa using this

@[simp] theorem sigckBody_power (c : Ctx) (s : State) : (sigckBody c s).keeps s := by
  simp [sigckBody]

@[simp] theorem sleepBody_power (c : Ctx) (s : State) : (sleepBody c s).keeps s := by
  simp [sleepBody]

@[simp] theorem fprioBody_power (c : Ctx) (s : State) : (fprioBody c s).keeps s := by
  simp [fprioBody]

@[simp] theorem State.register_power (s : State) (w : Waiter) : (State.register s w).power = s.power := by
  simp [State.register]

@[simp] theorem State.proceed_power (s : State) (c : Ctx) (fl : Flow) (yes : Mask) : (s.proceed c fl yes).power = s.power := by
  unfold State.proceed
  split
  · simp
  · split <;> simp [roomFor_power ‹_›]

@[simp] theorem State.endWait_power (s : State) (c : Ctx) (ws : List RegWrite) : (State.endWait s c ws).power = s.power := by
  simp only [State.endWait]; (repeat' split) <;> simp

@[simp] theorem State.finishWait_power (s : State) (r : FibreRef) (x : Split) (yes : Mask) (op : Nat) (w : Fields) : (s.finishWait r x yes op w).power = s.power := by
  unfold State.finishWait; split <;> simp

@[simp] theorem State.completeUniform_power (s : State) (r : FibreRef) (killed : Bool) : (State.completeUniform s r killed).power = s.power := by
  simp only [State.completeUniform]; (repeat' split)
  all_goals simp

@[simp] theorem State.evalEwait_power (s : State) (r : FibreRef) : (State.evalEwait s r).power = s.power := by
  unfold State.evalEwait; (repeat' split)
  all_goals simp

@[simp] theorem State.evalEwaits_power (s : State) (r : TeamRef) : (State.evalEwaits s r).power = s.power := by
  unfold State.evalEwaits; split <;> simp

@[simp] theorem State.wakeThread_power (s : State) (r : FibreRef) (key : Nat) (t : Nat) (killed : Bool) : (State.wakeThread s r key t killed).power = s.power := by
  simp only [State.wakeThread]; (repeat' split)
  all_goals simp

@[simp] theorem State.wake_power (s : State) (w : Waiter) : (State.wake s w).power = s.power := by
  unfold State.wake; split <;> simp

@[simp] theorem State.writeSysc_power (s : State) (c : Ctx) (q : SyscRun) : (State.writeSysc s c q).1.power = s.power := by
  simp [State.writeSysc]

@[simp] theorem State.endSysc_power (s : State) (r : FibreRef) : (State.endSysc s r).power = s.power := by
  simp only [State.endSysc]; (repeat' split)
  all_goals simp

@[simp] theorem State.retrySysc_power (s : State) (col : Nat) : (State.retrySysc s col).power = s.power := by
  unfold State.retrySysc
  dsimp only
  refine foldl_power (fun _ _ => foldl_power (fun _ _ => foldl_power (fun _ _ => ?_) _ _) _ _) _ _
  (repeat' split) <;> simp

@[simp] theorem State.answerSysc_power (s : State) (r : FibreRef) (t : Nat) : (State.answerSysc s r t).power = s.power := by
  unfold State.answerSysc; (repeat' split)
  all_goals simp

@[simp] theorem State.takeStep_power (s : State) (c : Nat) (new : Nat) (sub : Nat) : (State.takeStep s c new sub).power = s.power := by
  simp [State.takeStep]

@[simp] theorem State.stepLevel_power (s : State) (c : Nat) (new : Nat) (sub : Nat) : (State.stepLevel s c new sub).power = s.power := by
  simp [State.stepLevel]

@[simp] theorem State.takeSteps_power (s : State) (c : Nat) : (State.takeSteps s c).power = s.power := by
  simp [State.takeSteps]

@[simp] theorem State.writeGovctl_power (s : State) (c : Nat) (v : DWord) : (State.writeGovctl s c v).power = s.power := by
  simp [State.writeGovctl]

@[simp] theorem State.writeTtrip_power (s : State) (c : Nat) (v : DWord) : (State.writeTtrip s c v).power = s.power := by
  simp [State.writeTtrip]

@[simp] theorem State.writePower_power (s : State) (c : Nat) (n : Nat) (v : DWord) : (State.writePower s c n v).power = s.power := by
  unfold State.writePower; split <;> simp

@[simp] theorem raiseBody_power (cause : Nat) (code : Nat) (c : Ctx) (s : State) : (raiseBody cause code c s).keeps s := by
  simp [raiseBody]

@[simp] theorem trapBody_power (c : Ctx) (s : State) : (trapBody c s).keeps s := by
  simp [trapBody]

@[simp] theorem brkBody_power (c : Ctx) (s : State) : (brkBody c s).keeps s := by
  simp [brkBody]

@[simp] theorem State.forgetFreed_power (s : State) (r : FibreRef) : (State.forgetFreed s r).power = s.power := by
  simp [State.forgetFreed]

@[simp] theorem tretDone_power (c : Ctx) (s : State) (z : Frozen) (pc : DWord) (sig : Word) : (tretDone c s z pc sig).keeps s := by
  simp [tretDone]

@[simp] theorem tretBody_power (c : Ctx) (s : State) : (tretBody c s).keeps s := by
  unfold tretBody
  split
  · simp
  · split
    · split
      · simp
      · exact (keeps_trans (State.fetchWord_power ‹_›)).1 (tretDone_power _ _ _ _ _)
    · simp

@[simp] theorem srdBody_power (c : Ctx) (s : State) : (srdBody c s).keeps s := by
  simp [srdBody]

@[simp] theorem State.writeSysReg_power (s : State) (c : Ctx) (n : Nat) (v : DWord) : (State.writeSysReg s c n v).power = s.power := by
  unfold State.writeSysReg; split <;> simp

@[simp] theorem swrBody_power (c : Ctx) (s : State) : (swrBody c s).keeps s := by
  simp [swrBody]

@[simp] theorem syscRun_power (s : State) (c : Ctx) : (syscRun s c).1.power = s.power := by
  unfold syscRun; split <;> simp

@[simp] theorem syscBody_power (c : Ctx) (s : State) : (syscBody c s).keeps s := by
  simp [syscBody]

@[simp] theorem tckptBody_power (c : Ctx) (s : State) : (tckptBody c s).keeps s := by
  simp [tckptBody]

@[simp] theorem State.wakeFibre_power (s : State) (r : FibreRef) : (State.wakeFibre s r).power = s.power := by
  unfold State.wakeFibre; split <;> simp

@[simp] theorem State.reissue_power (s : State) (a : WaitAgent) : (State.reissue s a).power = s.power := by
  unfold State.reissue; split <;> simp

theorem State.rereadBad_power {s : State} {w : Waiter} {out : State} (hout : State.rereadBad s w = some out) : out.power = s.power := by
  unfold State.rereadBad at hout
  split at hout
  · rw [Option.map_eq_some_iff] at hout
    obtain ⟨x, -, rfl⟩ := hout
    simp
  · cases hout

@[simp] theorem State.remap_power (s : State) (w : Waiter) : (State.remap s w).power = s.power := by
  simp only [State.remap]; (repeat' split)
  all_goals first | (simp; done) | (simp_all; done) | exact State.xlate_power ‹_› | (simp; first | exact State.xlate_power ‹_› | exact (State.xlate_power ‹_›).trans (by simp)) | (have hx := State.xlate_power ‹_›; simp at hx; simp [hx]; done) | (have hx := State.xlate_power ‹_›; simp_all; done) | exact State.rereadBad_power ‹_› | (simp; first | exact State.rereadBad_power ‹_› | exact (State.rereadBad_power ‹_›).trans (by simp)) | (have hx := State.rereadBad_power ‹_›; simp at hx; simp [hx]; done) | (have hx := State.rereadBad_power ‹_›; simp_all; done)

@[simp] theorem State.flushStores_power (s : State) : (State.flushStores s).power = s.power := by
  simp [State.flushStores]

@[simp] theorem State.shoot_power (s : State) (asid : Option Nat) (va : Option Nat) : (State.shoot s asid va).power = s.power := by
  simp [State.shoot]

@[simp] theorem tlbinvBody_power (c : Ctx) (s : State) : (tlbinvBody c s).keeps s := by
  unfold tlbinvBody; split <;> simp

theorem State.openCounters_power {s : State} {c : Ctx} {pre local_ : Option Stop} {out : List CounterAt × State} (hout : State.openCounters s c pre local_ = .ok out) : out.2.power = s.power := by
  simp only [State.openCounters] at hout; (repeat' split at hout)
  all_goals (first | (simp_all; done) | (cases hout; simp; done))

@[simp] theorem State.writeCounter_power (s : State) (c : Ctx) (a : CounterAt) (v : DWord) : (State.writeCounter s c a v).power = s.power := by
  unfold State.writeCounter; split <;> simp

@[simp] theorem caddBody_power (c : Ctx) (s : State) : (caddBody c s).keeps s := by
  unfold caddBody
  split
  · simp [noEffect]
  · split
    · simp
    · have := State.openCounters_power ‹_›
      dsimp only at this ⊢
      split
      · simp [this]
      · simp only [keeps_done]
        rw [foldl_snd_power]
        · split <;> simp [this]
        · intro q x
          dsimp only
          rw [State.writeCounter_power]
          split
          · split <;> simp
          · rfl

@[simp] theorem waitDone_power (c : Ctx) (s : State) : (waitDone c s).keeps s := by
  simp [waitDone]

@[simp] theorem State.await_power (s : State) (c : Ctx) (agent : WaitAgent) (a : CounterAt) (thr : DWord) : (State.await s c agent a thr).power = s.power := by
  simp [State.await]

@[simp] theorem cwaitBody_power (c : Ctx) (s : State) : (cwaitBody c s).keeps s := by
  unfold cwaitBody
  split
  · simp
  · split
    · simp
    · have := State.openCounters_power ‹_›
      dsimp only at this ⊢
      split
      · simp
      · split
        · simp [this]
        · split
          · exact (keeps_trans this).1 (waitDone_power _ _)
          · split
            · simp [this]
            · simp only [keeps_done]
              rw [foldl_power (fun _ _ => State.await_power _ _ _ _ _)]
              split <;> simp [this]

@[simp] theorem cwaitdBody_power (c : Ctx) (s : State) : (cwaitdBody c s).keeps s := by
  unfold cwaitdBody
  dsimp only
  split
  · simp
  · have := State.openCounters_power ‹_›
    dsimp only at this
    split
    · simp [noEffect, this]
    · split
      · simp [this]
      · split
        · exact (keeps_trans this).1 (waitDone_power _ _)
        · (repeat' split) <;> simp [this]

@[simp] theorem cpollBody_power (c : Ctx) (s : State) : (cpollBody c s).keeps s := by
  simp only [cpollBody]
  split
  · simp
  · split
    · simp
    · have := State.openCounters_power ‹_›
      dsimp only at this
      (repeat' split) <;> simp [this]

@[simp] theorem creadBody_power (c : Ctx) (s : State) : (creadBody c s).keeps s := by
  simp only [creadBody]
  split
  · simp
  · split
    · simp
    · have := State.openCounters_power ‹_›
      dsimp only at this
      simp [this]

@[simp] theorem cinitBody_power (c : Ctx) (s : State) : (cinitBody c s).keeps s := by
  simp only [cinitBody]
  split
  · simp
  · have := State.openCounters_power ‹_›
    dsimp only at this
    split <;> simp [this]

@[simp] theorem carmBody_power (c : Ctx) (s : State) : (carmBody c s).keeps s := by
  simp only [carmBody]
  split
  · simp
  · split
    · simp
    · have := State.openCounters_power ‹_›
      dsimp only at this
      split
      · simp [noEffect, this]
      · (repeat' split) <;> simp [this]

@[simp] theorem ewaitBody_power (c : Ctx) (s : State) : (ewaitBody c s).keeps s := by
  simp [ewaitBody]

@[simp] theorem ereadBody_power (c : Ctx) (s : State) : (ereadBody c s).keeps s := by
  simp [ereadBody]

@[simp] theorem copyBody_power (c : Ctx) (s : State) : (copyBody c s).keeps s := by
  unfold copyBody
  dsimp only
  split
  · simp [noEffect]
  · split
    · simp
    · split
      · simp
      · have := State.checkCopy_power ‹_›
        simp at this
        split
        · split <;> simp [this]
        · simp

@[simp] theorem rflushBody_power (c : Ctx) (s : State) : (rflushBody c s).keeps s := by
  simp [rflushBody]

@[simp] theorem Ctx.claims_power (c : Ctx) (s : State) (t : Team) (f : Team → Team) : (Ctx.claims c s t f).keeps s := by
  simp [Ctx.claims]

@[simp] theorem claimBody_power (region : Bool) (c : Ctx) (s : State) : (claimBody region c s).keeps s := by
  simp only [claimBody]; (repeat' split)
  all_goals simp

@[simp] theorem releaseBody_power (region : Bool) (c : Ctx) (s : State) : (releaseBody region c s).keeps s := by
  simp only [releaseBody]; (repeat' split)
  all_goals simp

@[simp] theorem queueOp_power (c : Ctx) (s : State) (t : Team) : (queueOp c s t).keeps s := by
  simp [queueOp]

@[simp] theorem checkedOp_power (check : Team → Ctx → Except Stop Unit) (c : Ctx) (s : State) : (checkedOp check c s).keeps s := by
  unfold checkedOp; (repeat' split)
  all_goals simp

@[simp] theorem portBody_power (pos reg : Nat) (act : Team → List (Nat × Nat × Nat) → Ctx → State → Effect) (c : Ctx) (s : State)
    (h : ∀ t l, (act t l c s).keeps s) : (portBody pos reg act c s).keeps s := by
  unfold portBody
  split
  · simp
  · dsimp only
    split
    · simp
    · rw [keeps_ite]
      simp [h]

@[simp] theorem ardBody_power (c : Ctx) (s : State) : (ardBody c s).keeps s := by
  simp [ardBody]

@[simp] theorem awrBody_power (c : Ctx) (s : State) : (awrBody c s).keeps s := by
  simp [awrBody]

@[simp] theorem State.arriveResult_power (s : State) (r : FibreRef) (id : Nat) : (State.arriveResult s r id).power = s.power := by
  unfold State.arriveResult; split <;> simp

@[simp] theorem State.settleFlags_power (s : State) (r : FibreRef) : (s.settleFlags r).power = s.power := by
  unfold State.settleFlags; split <;> simp

@[simp] theorem State.arriveAll_power (s : State) (r : FibreRef) : (State.arriveAll s r).power = s.power := by
  unfold State.arriveAll; split <;> simp

@[simp] theorem State.promiseTrap_power (s : State) (r : FibreRef) : (State.promiseTrap s r).power = s.power := by
  unfold State.promiseTrap; (repeat' split)
  all_goals simp

@[simp] theorem State.missPromises_power (s : State) : (State.missPromises s).power = s.power := by
  simp [State.missPromises]

@[simp] theorem State.dropHeld_power (s : State) (core : Nat) (r : FibreRef) : (State.dropHeld s core r).power = s.power := by
  simp [State.dropHeld]

@[simp] theorem State.fibreCommand_power (s : State) (token : Nat) (action : Nat) : (State.fibreCommand s token action).power = s.power := by
  unfold State.fibreCommand; split <;> simp

@[simp] theorem State.fenceCores_power (s : State) (cores : List Nat) : (State.fenceCores s cores).power = s.power := by
  simp [State.fenceCores]

@[simp] theorem State.restTeam_power (s : State) (t : Team) : (State.restTeam s t).1.power = s.power := by
  simp [State.restTeam]

@[simp] theorem State.stopTeam_power (s : State) (t : Team) (k : Kernel) : (State.stopTeam s t k).power = s.power := by
  simp only [State.stopTeam]
  simp
  rw [foldl_power]
  · simp
  · intro u g
    split <;> simp

@[simp] theorem State.saveBlocks_power (s : State) (r : FibreRef) : (State.saveBlocks s r).power = s.power := by
  simp only [State.saveBlocks]; (repeat' split) <;> simp

theorem State.eachFibre_power (s : State) (r : TeamRef) (f : State → FibreRef → State) (h : ∀ s x, (f s x).power = s.power) :
    (s.eachFibre r f).power = s.power := by
  unfold State.eachFibre
  split
  · exact foldl_power (fun _ _ => foldl_power (fun _ _ => h _ _) _ _) _ _
  · rfl

@[simp] theorem State.storeTeam_power (s : State) (r : TeamRef) : (State.storeTeam s r).power = s.power := by
  unfold State.storeTeam
  split
  · dsimp only
    split
    · rfl
    · have := takePool_power ‹_›
      simp at this
      split <;> simp [this, State.eachFibre_power _ _ _ State.saveBlocks_power]
  · rfl

@[simp] theorem State.saveTeams_power (s : State) (l : List Team) : (State.saveTeams s l).power = s.power := by
  have h : (l.foldl (fun (p : State × List (TeamRef × Option FibreRef × DWord)) t =>
      let (s, x) := p.1.restTeam t; (s, p.2 ++ x.map fun b => (t.ref, b))) (s, [])).1.power = s.power :=
    foldl_fst_power (fun p t => by simp) _ _
  unfold State.saveTeams
  dsimp only
  split
  · rw [foldl_power (fun _ _ => by simp)]
    exact h
  · split
    · rfl
    · rw [foldl_power (fun _ _ => State.storeTeam_power _ _)]
      exact h

@[simp] theorem State.saveTeam_power (s : State) (r : TeamRef) : (State.saveTeam s r).power = s.power := by
  simp [State.saveTeam]

@[simp] theorem State.rewait_power (s : State) (r : FibreRef) : (State.rewait s r).power = s.power := by
  simp only [State.rewait]; (repeat' split)
  all_goals first | (simp; done) | (simp_all; done) | exact State.xlate_power ‹_› | (simp; first | exact State.xlate_power ‹_› | exact (State.xlate_power ‹_›).trans (by simp)) | (have hx := State.xlate_power ‹_›; simp at hx; simp [hx]; done) | (have hx := State.xlate_power ‹_›; simp_all; done) | exact State.rereadBad_power ‹_› | (simp; first | exact State.rereadBad_power ‹_› | exact (State.rereadBad_power ‹_›).trans (by simp)) | (have hx := State.rereadBad_power ‹_›; simp at hx; simp [hx]; done) | (have hx := State.rereadBad_power ‹_›; simp_all; done)

@[simp] theorem State.receive_power (s : State) (core : Nat) (asid : Nat) : (State.receive s core asid).power = s.power := by
  simp [State.receive]

@[simp] theorem State.addWait_power (s : State) (a : Area) (k : Kernel) (r : FibreRef) : (State.addWait s a k r).power = s.power := by
  unfold State.addWait; dsimp only; (repeat' split) <;> simp

@[simp] theorem State.restoreTeam_power (s : State) (p : Placement) : (State.restoreTeam s p).power = s.power := by
  unfold State.restoreTeam
  split
  · dsimp only
    split
    · simp
    · rw [foldl_power (fun _ _ => State.fibreCommand_power _ _ _), State.retireTeam_power,
        State.eachFibre_power _ _ _ (fun _ _ => by simp)]
      simp
  · rfl

@[simp] theorem State.placeTeam_power (s : State) (l : Launch) (idx : Nat) (core : Nat) (seats : List Seat) : (State.placeTeam s l idx core seats).power = s.power := by
  simp [State.placeTeam]

theorem State.placeMany_power {l : Launch} {x1 : Nat} {x2 : State} {out : State} (hout : State.placeMany l x1 x2 = some out) : out.power = x2.power := by
  induction x1 generalizing x2 l with
  | zero => unfold State.placeMany at hout; cases hout; rfl
  | succ n ih =>
    unfold State.placeMany at hout
    split at hout
    · cases hout; rfl
    · split at hout
      · cases hout
      · exact (ih hout).trans (by simp)

theorem State.restoreMany_power {x0 : List Nat} {x1 : Launch} {x2 : State} {out : State} (hout : State.restoreMany x0 x1 x2 = some out) : out.power = x2.power := by
  induction x0 generalizing x2 with
  | nil => unfold State.restoreMany at hout; cases hout; rfl
  | cons i rest ih =>
    unfold State.restoreMany at hout
    split at hout
    · cases hout
    · exact (ih hout).trans (by simp)

theorem State.placeRest_power {s : State} {l : Launch} {out : State} (hout : State.placeRest s l = some out) : out.power = s.power := by
  unfold State.placeRest at hout
  split at hout
  · exact State.placeMany_power hout
  · cases hout; rfl

theorem State.judge_power {s : State} {op : LaunchSignalOp} {out : State} (hout : State.judge s op = .ok out) : out.power = s.power := by
  unfold State.judge at hout
  dsimp only at hout
  generalize ht : s.touch _ .load (lineField op.data 63 0) = u at hout
  have hu : u.power = s.power := by rw [← ht]; simp
  clear ht
  split at hout
  · exact absurd hout (by simp only [reduceCtorEq, not_false_eq_true])
  · replace hout := ok_ite (ok_ite hout)
    split at hout
    · exact absurd hout (by simp only [reduceCtorEq, not_false_eq_true])
    · generalize u.bytesAt _ 256 = bs at hout
      split at hout
      · exact absurd hout (by simp only [reduceCtorEq, not_false_eq_true])
      · generalize recKernel op.data bs = k at hout
        generalize limitBad _ _ _ = lb at hout
        cases lb with
        | some x => exact absurd hout (by simp only [reduceCtorEq, not_false_eq_true])
        | none =>
          generalize (if lineField op.data 191 128 = 0 then some none else _) = x at hout
          generalize (if lineField op.data 319 256 = 0 then some none else _) = y at hout
          cases x with
          | none => exact absurd hout (by simp only [reduceCtorEq, not_false_eq_true])
          | some x =>
            cases y with
            | none => exact absurd hout (by simp only [reduceCtorEq, not_false_eq_true])
            | some y =>
              replace hout := ok_ite hout
              replace hout := ok_ite hout
              (repeat' split at hout) <;> first
                | exact absurd hout (by simp only [reduceCtorEq, not_false_eq_true])
                | (simp only [Except.ok.injEq] at hout
                   rw [← hout]
                   (repeat' split) <;> simp [hu])

theorem State.consumeEntry_power {s : State} {u : UnitRef} {team : TeamRef} {fib : Option FibreRef} {pc : DWord} {out} (hout : State.consumeEntry s u team fib pc = some out) : out.power = s.power := by
  simp only [State.consumeEntry] at hout; (repeat' split at hout)
  all_goals (first | (simp_all; done) | (cases hout; simp; done) | (cases hout; first | (simp; done) | (simp_all; done)))

@[simp] theorem State.replayed_power (s : State) (core : Nat) (entry : Nat) : (State.replayed s core entry).power = s.power := by
  unfold State.replayed; (repeat' split) <;> simp

@[simp] theorem State.writeRingSize_power (s : State) (col : Nat) (sysc : Bool) (v : DWord) : (State.writeRingSize s col sysc v).power = s.power := by
  simp [State.writeRingSize]

@[simp] theorem State.writeSavePool_power (s : State) (col : Nat) (size : Bool) (v : DWord) : (State.writeSavePool s col size v).power = s.power := by
  simp [State.writeSavePool]

@[simp] theorem State.hartTrap_power (s : State) (hart : Nat) (code : Nat) (stval : DWord) : (State.hartTrap s hart code stval).power = s.power := by
  simp [State.hartTrap]

@[simp] theorem State.hartIllegal_power (s : State) (hart : Nat) : (State.hartIllegal s hart).power = s.power := by
  simp [State.hartIllegal]

@[simp] theorem State.writeUevCsr_power (s : State) (hart : Nat) (n : Nat) (v : DWord) : (State.writeUevCsr s hart n v).power = s.power := by
  simp [State.writeUevCsr]

@[simp] theorem State.replayGo_power (s : State) (core : Nat) (entry : Nat) : (s.replayGo core entry).power = s.power := by
  unfold State.replayGo
  split
  · rfl
  · cases h : s.consumeEntry (.replayEntry core entry) _ none 0 with
    | none => simp
    | some t => simp [State.consumeEntry_power h]

@[simp] theorem State.replayCommand_power (s : State) (core : Nat) (entry : Nat) (v : DWord) : (State.replayCommand s core entry v).power = s.power := by
  unfold State.replayCommand; (repeat' split)
  all_goals simp

@[simp] theorem State.writeFcmd_power (s : State) (v : DWord) : (State.writeFcmd s v).power = s.power := by
  simp [State.writeFcmd]

@[simp] theorem State.writeRegister_power (s : State) (reg : DeviceReg) (v : DWord) : (State.writeRegister s reg v).power = s.power := by
  unfold State.writeRegister; (repeat' split) <;> simp

@[simp] theorem State.takeSample_power (s : State) (col : Nat) (u : Nat) (temp : BitVec 16) : (State.takeSample s col u temp).power = s.power := by
  unfold State.takeSample; dsimp only; (repeat' split) <;> simp

@[simp] theorem State.missedSample_power (s : State) (col : Nat) : (State.missedSample s col).power = s.power := by
  simp [State.missedSample]

@[simp] theorem State.supplyEvent_power (s : State) (col : Nat) (mean : Nat) : (State.supplyEvent s col mean).power = s.power := by
  simp [State.supplyEvent]

@[simp] theorem State.poisonAt_power (s : State) (col : Nat) (loc : Nat) (n : Nat) : (State.poisonAt s col loc n).power = s.power := by
  simp [State.poisonAt]

@[simp] theorem State.markUnit_power (s : State) (r : TeamRef) (u : UnitRef) : (State.markUnit s r u).power = s.power := by
  unfold State.markUnit; (repeat' split) <;> simp

@[simp] theorem State.someOf_power (s : State) (l : List (TeamRef × UnitRef)) : (State.someOf s l).2.power = s.power := by
  simp [State.someOf]

@[simp] theorem State.scrubWakes_power (s : State) (col : Nat) (level : ScrubLevel) (place : Nat) : (State.scrubWakes s col level place).power = s.power := by
  unfold State.scrubWakes; split <;> simp

@[simp] theorem State.scrubBad_power (s : State) (col : Nat) (level : ScrubLevel) (place : Nat) (unit : Option (TeamRef × UnitRef)) : (State.scrubBad s col level place unit).power = s.power := by
  unfold State.scrubBad
  dsimp only
  split
  · split <;> simp
  · split <;> simp
  all_goals simp

@[simp] theorem State.noteSweep_power (s : State) (col : Nat) (level : ScrubLevel) (u : Nat ⊕ ErrorUnit) : (State.noteSweep s col level u).power = s.power := by
  simp [State.noteSweep]

@[simp] theorem State.correctAt_power (s : State) (col : Nat) (level : ScrubLevel) (place : Nat) (unit : Option (TeamRef × UnitRef)) (byScrub : Bool) : (State.correctAt s col level place unit byScrub).power = s.power := by
  unfold State.correctAt
  dsimp only
  simp

@[simp] theorem State.scrubFinds_power (s : State) (col : Nat) (level : ScrubLevel) (place : Nat) (unit : Option (TeamRef × UnitRef)) (f : ScrubFinding) :
    (s.scrubFinds col level place unit f).power = s.power := by
  cases f <;> simp [State.scrubFinds]

@[simp] theorem State.visitUnit_power (s : State) (col : Nat) (level : ScrubLevel) (place : Nat) (found : ScrubFinding) :
    (s.visitUnit col level place found).power = s.power := by
  unfold State.visitUnit
  split
  · split <;> simp
  · dsimp only
    split <;> simp

@[simp] theorem State.endSweep_power (s : State) (col : Nat) (level : ScrubLevel) : (s.endSweep col level).power = s.power := by
  unfold State.endSweep
  dsimp only
  split
  · rfl
  · split <;> simp

@[simp] theorem State.endSweeps_power (s : State) (col : Nat) : (s.endSweeps col).power = s.power :=
  foldl_power (fun _ _ => State.endSweep_power _ _ _) _ _

@[simp] theorem State.failingRow_power (s : State) (col : Nat) (shank : Nat) : (State.failingRow s col shank).power = s.power := by
  unfold State.failingRow
  dsimp only
  split <;> simp

@[simp] theorem State.setRegion_power (s : State) (r : Nat) (e : Region) : (State.setRegion s r e).power = s.power := by
  simp [State.setRegion]

theorem power_memory (s : State) (m : List Host.Cell) (p : List Nat) : ({ s with mem := m, poison := p } : State).power = s.power := rfl

@[simp] theorem State.spillRegion_power (s : State) (region : Nat) : (State.spillRegion s region).power = s.power := by
  unfold State.spillRegion
  dsimp only
  rw [power_memory, State.wakeRegion_power]

@[simp] theorem State.complete_power (s : State) (w : Waiter) : (State.complete s w).power = s.power := by
  simp [State.complete]

@[simp] theorem State.remoteEnd_power (s : State) (w : Waiter) (loc : Nat) : (s.remoteEnd w loc).power = s.power := by
  simp only [State.remoteEnd]
  split <;> simp

@[simp] theorem State.remoteKilled_power (s : State) (loc k : Nat) : (s.remoteKilled loc k).power = s.power := by
  unfold State.remoteKilled
  (repeat' split) <;> simp

@[simp] theorem State.outerUpdate_power (s : State) (addr : Nat) (n : Nat) (v : Nat) : (State.outerUpdate s addr n v).power = s.power := by
  simp [State.outerUpdate]

@[simp] theorem State.outer_power (s : State) (addr : Nat) (op : OuterOp) : (State.outer s addr op).power = s.power := by
  unfold State.outer
  cases op
  case store => exact State.writeLoc_power _ _ _
  case counterInit => exact (power_ite _ _ _).trans (by rw [State.outerUpdate_power, ite_self])
  case load => exact State.throughSlice_power _ _ _ _
  case loadReserved => exact State.throughSlice_power _ _ _ _
  case loadReservedWord => exact State.throughSlice_power _ _ _ _
  case amoAdd => exact State.outerUpdate_power _ _ _ _
  case amoSet => exact State.outerUpdate_power _ _ _ _
  case amoWord => exact State.outerUpdate_power _ _ _ _
  all_goals rfl

@[simp] theorem State.peerWait_power (s : State) (pkg : Nat) (addr : Nat) (thr : DWord) (tag : Nat) : (State.peerWait s pkg addr thr tag).power = s.power := by
  simp [State.peerWait]

@[simp] theorem State.portLost_power (s : State) (port : Nat) : (State.portLost s port).power = s.power := by
  simp [State.portLost]

@[simp] theorem State.portBack_power (s : State) (port : Nat) : (State.portBack s port).power = s.power := by
  simp [State.portBack]

@[simp] theorem State.forget_power (s : State) (port : Nat) : (State.forget s port).power = s.power := by
  simp [State.forget]

@[simp] theorem State.loadAgain_power (s : State) (q : LostRequest) : (s.loadAgain q).power = s.power := by
  simp [State.loadAgain]

@[simp] theorem State.lose_power (s : State) (port : Nat) : (s.lose port).power = s.power := by
  simp only [State.lose]
  rw [foldl_power (fun _ _ => State.teamError_power _ _ _ _ _), foldl_power State.land_power]
  split <;> simp

@[simp] theorem State.modPav_power (s : State) (f : Pavilion → Pavilion) : (State.modPav s f).power = s.power := by
  simp [State.modPav]

@[simp] theorem State.send_power (s : State) (pkg : Nat) (m : PavMsg) : (State.send s pkg m).power = s.power := by
  simp [State.send]

@[simp] theorem State.sendHello_power (s : State) : (State.sendHello s).power = s.power := by
  simp [State.sendHello]

@[simp] theorem State.sendMembers_power (s : State) (m : PavMsg) : (State.sendMembers s m).power = s.power := by
  simp [State.sendMembers]

@[simp] theorem State.clearScopes_power (s : State) : (State.clearScopes s).power = s.power := by
  simp [State.clearScopes]

@[simp] theorem State.startElection_power (s : State) : (State.startElection s).power = s.power := by
  simp [State.startElection]

@[simp] theorem State.newElection_power (s : State) : (State.newElection s).power = s.power := by
  simp [State.newElection]

@[simp] theorem State.abdicate_power (s : State) (leader : Nat) : (State.abdicate s leader).power = s.power := by
  simp [State.abdicate]

@[simp] theorem State.storeScopes_power (s : State) (l : List ScopeDraft) (valid : Bool) : (State.storeScopes s l valid).power = s.power := by
  simp [State.storeScopes]

@[simp] theorem State.keyLinks_power (s : State) : (State.keyLinks s).power = s.power := by
  simp [State.keyLinks]

@[simp] theorem State.commitIfReady_power (s : State) : (State.commitIfReady s).power = s.power := by
  simp [State.commitIfReady]

@[simp] theorem State.leaderWork_power (s : State) (ids : List Nat) : (State.leaderWork s ids).power = s.power := by
  simp [State.leaderWork]

@[simp] theorem State.report_power (s : State) (reason : Nat) : (State.report s reason).power = s.power := by
  simp [State.report]

@[simp] theorem State.failedStart_power (s : State) (reason : Nat) : (State.failedStart s reason).power = s.power := by
  simp [State.failedStart]

@[simp] theorem State.minimalMode_power (s : State) (f : StartFacts) : (State.minimalMode s f).power = s.power := by
  simp [State.minimalMode]

@[simp] theorem State.bootDone_power (s : State) : (State.bootDone s).power = s.power := by
  simp [State.bootDone]

@[simp] theorem State.countPoison_power (s : State) (k : Checkpoint) : (State.countPoison s k).power = s.power := by
  simp [State.countPoison]

@[simp] theorem State.ckRecord_power (s : State) (sole : Nat) (code : Nat) : (State.ckRecord s sole code).power = s.power := by
  simp [State.ckRecord]

@[simp] theorem State.ckRefuse_power (s : State) (sole : Nat) (code : Nat) : (State.ckRefuse s sole code).power = s.power := by
  simp [State.ckRefuse]

@[simp] theorem State.ckFail_power (s : State) (sole : Nat) (code : Nat) : (State.ckFail s sole code).power = s.power := by
  simp [State.ckFail]

@[simp] theorem State.ckDone_power (s : State) (sole : Nat) : (State.ckDone s sole).power = s.power := by
  simp [State.ckDone]

@[simp] theorem State.ckIssue_power (s : State) (sole : Nat) (n : Nat) (p : CkPage) : (State.ckIssue s sole n p).power = s.power := by
  simp [State.ckIssue]

@[simp] theorem State.ckNext_power (s : State) (sole : Nat) : (State.ckNext s sole).power = s.power := by
  unfold State.ckNext; (repeat' split) <;> simp

@[simp] theorem State.ckCommand_power (s : State) (sole : Nat) (cmd : Nat) : (State.ckCommand s sole cmd).power = s.power := by
  simp only [State.ckCommand]; (repeat' split)
  all_goals simp

@[simp] theorem State.captureT0_power (s : State) (sole : Nat) : (State.captureT0 s sole).power = s.power := by
  unfold State.captureT0; (repeat' split) <;> simp

@[simp] theorem State.restorePage_power (s : State) (k : Checkpoint) (c : NvmeCmd) (data : List Byte) : (State.restorePage s k c data).power = s.power := by
  unfold State.restorePage; (repeat' split) <;> simp

@[simp] theorem State.orEvent_power (s : State) (tab : DWord) (asid : Nat) (p : DWord) (c : DWord) : (State.orEvent s tab asid p c).power = s.power := by
  simp [State.orEvent]

@[simp] theorem State.takeEvent_power (s : State) (hart : Nat) (e : UserEvent) : (State.takeEvent s hart e).power = s.power := by
  simp [State.takeEvent]

@[simp] theorem State.switchAsid_power (s : State) (hart : Nat) (x : BitVec 16) : (State.switchAsid s hart x).power = s.power := by
  simp [State.switchAsid]

@[simp] theorem State.storeControl_power (s : State) (c : Nat) (p : Nat) (v : DWord) : (State.storeControl s c p v).power = s.power := by
  unfold State.storeControl; (repeat' split)
  all_goals simp

@[simp] theorem State.storePackage_power (s : State) (p : Nat) (v : DWord) : (State.storePackage s p v).power = s.power := by
  simp [State.storePackage]

@[simp] theorem State.storeRegister_power (s : State) (o : Nat) (v : DWord) : (State.storeRegister s o v).power = s.power := by
  simp [State.storeRegister]

@[simp] theorem State.hartLoaded_power (s : State) (hart : Nat) (v : DWord) : (State.hartLoaded s hart v).power = s.power := by
  simp [State.hartLoaded]

@[simp] theorem State.hartDevice_power (s : State) (hart : Nat) (o : Nat) (op : OuterOp) : (State.hartDevice s hart o op).power = s.power := by
  unfold State.hartDevice; (repeat' split) <;> simp

@[simp] theorem State.hartAmo_power (s : State) (hart : Nat) (addr : Nat) (n : Nat) (new : Nat) : (State.hartAmo s hart addr n new).power = s.power := by
  simp [State.hartAmo]

@[simp] theorem State.hartReserve_power (s : State) (hart : Nat) (addr : Nat) (n : Nat) : (State.hartReserve s hart addr n).power = s.power := by
  simp [State.hartReserve]

@[simp] theorem State.hartConditional_power (s : State) (hart : Nat) (addr : Nat) (n : Nat) (v : Nat) : (State.hartConditional s hart addr n v).power = s.power := by
  simp [State.hartConditional]

@[simp] theorem State.hartHbm_power (s : State) (hart : Nat) (addr : Nat) (op : OuterOp) : (State.hartHbm s hart addr op).power = s.power := by
  unfold State.hartHbm; split <;> simp

@[simp] theorem State.hartFault_power (s : State) (hart : Nat) (addr : Nat) (op : OuterOp) : (State.hartFault s hart addr op).power = s.power := by
  simp [State.hartFault]

@[simp] theorem State.hartPeer_power (s : State) (hart : Nat) (p : Nat) (a : Nat) (op : OuterOp) : (State.hartPeer s hart p a op).power = s.power := by
  simp [State.hartPeer]

@[simp] theorem State.hartPcie_power (s : State) (hart : Nat) (i : Nat) (a : Nat) (op : OuterOp) : (State.hartPcie s hart i a op).power = s.power := by
  unfold State.hartPcie; (repeat' split) <;> simp

@[simp] theorem State.fetchFault_power (s : State) (r : FibreRef) (g : Group) (x : Split) (cause : Nat) (reason : Nat) : (State.fetchFault s r g x cause reason).power = s.power := by
  simp [State.fetchFault]

@[simp] theorem State.pass_power (s : State) (n : Nat) : (State.pass s n).power = s.power := by
  simp [State.pass]

@[simp] theorem State.completeOp_power (s : State) (core : Nat) : (s.completeOp core).power = s.power := by
  unfold State.completeOp
  split
  · rfl
  · dsimp only
    (repeat' split) <;> simp

@[simp] theorem State.arrive_power (s : State) : (State.arrive s).power = s.power := by
  simp [State.arrive]

@[simp] theorem State.parityError_power (s : State) (r : FibreRef) : (State.parityError s r).power = s.power := by
  unfold State.parityError; split <;> simp

@[simp] theorem State.unitError_power (s : State) (r : TeamRef) (u : UnitRef) : (State.unitError s r u).power = s.power := by
  unfold State.unitError; split <;> simp

@[simp] theorem State.sectorError_power (s : State) (loc : Nat) : (State.sectorError s loc).power = s.power := by
  simp only [State.sectorError]; (repeat' split)
  all_goals simp

@[simp] theorem State.frameError_power (s : State) (frame : Nat) : (State.frameError s frame).power = s.power := by
  simp [State.frameError]

@[simp] theorem State.demandCorrected_power (s : State) (col : Nat) (level : ScrubLevel) (place : Nat) : (State.demandCorrected s col level place).power = s.power := by
  simp [State.demandCorrected]

@[simp] theorem State.dropEntry_power (s : State) (u : CacheUnit) : (State.dropEntry s u).power = s.power := by
  unfold State.dropEntry
  split <;> simp

@[simp] theorem State.cacheParity_power (s : State) (u : CacheUnit) : (State.cacheParity s u).power = s.power := by
  simp [State.cacheParity]

@[simp] theorem State.consumeLines_power (s : State) (core : Nat) : (State.consumeLines s core).power = s.power := by
  simp [State.consumeLines]

@[simp] theorem State.claimIdentity_power (s : State) (hart : Nat) (id : Nat) : (State.claimIdentity s hart id).power = s.power := by
  simp [State.claimIdentity]

@[simp] theorem State.withFetchWord_power (s : State) (nbits : Nat) (w : Nat) : (State.withFetchWord s nbits w).power = s.power := by
  simp [State.withFetchWord]

end Sys2Proof.Machine
end

