-- ==== Sys2Proof/Laws/PowerSteps.lean ====
section
/-!
SUPPORT. The steps of the package and its boost state: every meaning but those of the boundary, the refill and a package
reset keeps it.
-/
namespace Sys2Proof.Machine

/-- The next state, if there is one, has the boost state of s. -/
def OutcomeKeeps (s : State) : Host.Outcome State Fault Refusal → Prop
  | .next t => t.power = s.power
  | _ => True

@[simp] theorem outcomeKeeps_next (s t : State) : OutcomeKeeps s (.next t) ↔ t.power = s.power := Iff.rfl
@[simp] theorem outcomeKeeps_refused (s : State) (r : Refusal) : OutcomeKeeps s (.refused r) ↔ True := Iff.rfl
@[simp] theorem outcomeKeeps_fault (s : State) (x : Fault) : OutcomeKeeps s (.fault x) ↔ True := Iff.rfl

/-- An optional state that keeps the boost state, or a default that does. -/
theorem getD_power {s u : State} {o : Option State} (h : ∀ x, o = some x → x.power = s.power) (hu : u.power = s.power) :
    (o.getD u).power = s.power := by
  cases o with
  | none => exact hu
  | some x => exact h x rfl

theorem State.issue_power (s : State) (op : Nat) (w : Fields) (body : Ctx → State → Effect)
    (h : ∀ c u, (body c u).keeps u) : OutcomeKeeps s (s.issue op w body) := by
  unfold State.issue
  split
  · simp
  · split
    · simp
    · simpa [State.setFibre] using State.issueIn_power (s.setFibre _ _) _ body (h _ _)

theorem execIadd_power (w : Fields) (s : State) : OutcomeKeeps s (execIadd w s) := by
  unfold execIadd; exact State.issue_power _ _ _ _ fun _ _ => by simp

theorem execIsub_power (w : Fields) (s : State) : OutcomeKeeps s (execIsub w s) := by
  unfold execIsub; exact State.issue_power _ _ _ _ fun _ _ => by simp

theorem execIaddc_power (w : Fields) (s : State) : OutcomeKeeps s (execIaddc w s) := by
  unfold execIaddc; exact State.issue_power _ _ _ _ fun _ _ => by simp

theorem execIsubb_power (w : Fields) (s : State) : OutcomeKeeps s (execIsubb w s) := by
  unfold execIsubb; exact State.issue_power _ _ _ _ fun _ _ => by simp

theorem execImul_power (w : Fields) (s : State) : OutcomeKeeps s (execImul w s) := by
  unfold execImul; exact State.issue_power _ _ _ _ fun _ _ => by simp

theorem execImulh_power (w : Fields) (s : State) : OutcomeKeeps s (execImulh w s) := by
  unfold execImulh; exact State.issue_power _ _ _ _ fun _ _ => by simp

theorem execImad_power (w : Fields) (s : State) : OutcomeKeeps s (execImad w s) := by
  unfold execImad; exact State.issue_power _ _ _ _ fun _ _ => by simp

theorem execImadw_power (w : Fields) (s : State) : OutcomeKeeps s (execImadw w s) := by
  unfold execImadw; exact State.issue_power _ _ _ _ fun _ _ => by simp

theorem execIdiv_power (w : Fields) (s : State) : OutcomeKeeps s (execIdiv w s) := by
  unfold execIdiv; exact State.issue_power _ _ _ _ fun _ _ => by simp

theorem execIrem_power (w : Fields) (s : State) : OutcomeKeeps s (execIrem w s) := by
  unfold execIrem; exact State.issue_power _ _ _ _ fun _ _ => by simp

theorem execImin_power (w : Fields) (s : State) : OutcomeKeeps s (execImin w s) := by
  unfold execImin; exact State.issue_power _ _ _ _ fun _ _ => by simp

theorem execImax_power (w : Fields) (s : State) : OutcomeKeeps s (execImax w s) := by
  unfold execImax; exact State.issue_power _ _ _ _ fun _ _ => by simp

theorem execIabs_power (w : Fields) (s : State) : OutcomeKeeps s (execIabs w s) := by
  unfold execIabs; exact State.issue_power _ _ _ _ fun _ _ => by simp

theorem execIabsShort_power (a : BitVec 8) (d : BitVec 8) (u : Bool) (y : Bool) (s : State) : OutcomeKeeps s (execIabsShort a d u y s) := by
  unfold execIabsShort; exact State.issue_power _ _ _ _ fun _ _ => by simp

theorem execIneg_power (w : Fields) (s : State) : OutcomeKeeps s (execIneg w s) := by
  unfold execIneg; exact State.issue_power _ _ _ _ fun _ _ => by simp

theorem execInegShort_power (a : BitVec 8) (d : BitVec 8) (u : Bool) (y : Bool) (s : State) : OutcomeKeeps s (execInegShort a d u y s) := by
  unfold execInegShort; exact State.issue_power _ _ _ _ fun _ _ => by simp

theorem execIsad_power (w : Fields) (s : State) : OutcomeKeeps s (execIsad w s) := by
  unfold execIsad; exact State.issue_power _ _ _ _ fun _ _ => by simp

theorem execIcmp_power (w : Fields) (s : State) : OutcomeKeeps s (execIcmp w s) := by
  unfold execIcmp; exact State.issue_power _ _ _ _ fun _ _ => by simp

theorem execLea_power (w : Fields) (s : State) : OutcomeKeeps s (execLea w s) := by
  unfold execLea; exact State.issue_power _ _ _ _ fun _ _ => by simp

theorem execAnd_power (w : Fields) (s : State) : OutcomeKeeps s (execAnd w s) := by
  unfold execAnd; exact State.issue_power _ _ _ _ fun _ _ => by simp

theorem execOr_power (w : Fields) (s : State) : OutcomeKeeps s (execOr w s) := by
  unfold execOr; exact State.issue_power _ _ _ _ fun _ _ => by simp

theorem execXor_power (w : Fields) (s : State) : OutcomeKeeps s (execXor w s) := by
  unfold execXor; exact State.issue_power _ _ _ _ fun _ _ => by simp

theorem execAndn_power (w : Fields) (s : State) : OutcomeKeeps s (execAndn w s) := by
  unfold execAndn; exact State.issue_power _ _ _ _ fun _ _ => by simp

theorem execBmix_power (w : Fields) (s : State) : OutcomeKeeps s (execBmix w s) := by
  unfold execBmix; exact State.issue_power _ _ _ _ fun _ _ => by simp

theorem execShl_power (w : Fields) (s : State) : OutcomeKeeps s (execShl w s) := by
  unfold execShl; exact State.issue_power _ _ _ _ fun _ _ => by simp

theorem execShr_power (w : Fields) (s : State) : OutcomeKeeps s (execShr w s) := by
  unfold execShr; exact State.issue_power _ _ _ _ fun _ _ => by simp

theorem execSar_power (w : Fields) (s : State) : OutcomeKeeps s (execSar w s) := by
  unfold execSar; exact State.issue_power _ _ _ _ fun _ _ => by simp

theorem execRot_power (w : Fields) (s : State) : OutcomeKeeps s (execRot w s) := by
  unfold execRot; exact State.issue_power _ _ _ _ fun _ _ => by simp

theorem execFshl_power (w : Fields) (s : State) : OutcomeKeeps s (execFshl w s) := by
  unfold execFshl; exact State.issue_power _ _ _ _ fun _ _ => by simp

theorem execFshr_power (w : Fields) (s : State) : OutcomeKeeps s (execFshr w s) := by
  unfold execFshr; exact State.issue_power _ _ _ _ fun _ _ => by simp

theorem execBfx_power (w : Fields) (s : State) : OutcomeKeeps s (execBfx w s) := by
  unfold execBfx; exact State.issue_power _ _ _ _ fun _ _ => by simp

theorem execBfi_power (w : Fields) (s : State) : OutcomeKeeps s (execBfi w s) := by
  unfold execBfi; exact State.issue_power _ _ _ _ fun _ _ => by simp

theorem execPopc_power (w : Fields) (s : State) : OutcomeKeeps s (execPopc w s) := by
  unfold execPopc; exact State.issue_power _ _ _ _ fun _ _ => by simp

theorem execPopcShort_power (a : BitVec 8) (d : BitVec 8) (u : Bool) (y : Bool) (s : State) : OutcomeKeeps s (execPopcShort a d u y s) := by
  unfold execPopcShort; exact State.issue_power _ _ _ _ fun _ _ => by simp

theorem execClz_power (w : Fields) (s : State) : OutcomeKeeps s (execClz w s) := by
  unfold execClz; exact State.issue_power _ _ _ _ fun _ _ => by simp

theorem execClzShort_power (a : BitVec 8) (d : BitVec 8) (u : Bool) (y : Bool) (s : State) : OutcomeKeeps s (execClzShort a d u y s) := by
  unfold execClzShort; exact State.issue_power _ _ _ _ fun _ _ => by simp

theorem execCtz_power (w : Fields) (s : State) : OutcomeKeeps s (execCtz w s) := by
  unfold execCtz; exact State.issue_power _ _ _ _ fun _ _ => by simp

theorem execCtzShort_power (a : BitVec 8) (d : BitVec 8) (u : Bool) (y : Bool) (s : State) : OutcomeKeeps s (execCtzShort a d u y s) := by
  unfold execCtzShort; exact State.issue_power _ _ _ _ fun _ _ => by simp

theorem execBrev_power (w : Fields) (s : State) : OutcomeKeeps s (execBrev w s) := by
  unfold execBrev; exact State.issue_power _ _ _ _ fun _ _ => by simp

theorem execBrevShort_power (a : BitVec 8) (d : BitVec 8) (u : Bool) (y : Bool) (s : State) : OutcomeKeeps s (execBrevShort a d u y s) := by
  unfold execBrevShort; exact State.issue_power _ _ _ _ fun _ _ => by simp

theorem execBperm_power (w : Fields) (s : State) : OutcomeKeeps s (execBperm w s) := by
  unfold execBperm; exact State.issue_power _ _ _ _ fun _ _ => by simp

theorem execIadd2_power (w : Fields) (s : State) : OutcomeKeeps s (execIadd2 w s) := by
  unfold execIadd2; exact State.issue_power _ _ _ _ fun _ _ => by simp

theorem execIsub2_power (w : Fields) (s : State) : OutcomeKeeps s (execIsub2 w s) := by
  unfold execIsub2; exact State.issue_power _ _ _ _ fun _ _ => by simp

theorem execImin2_power (w : Fields) (s : State) : OutcomeKeeps s (execImin2 w s) := by
  unfold execImin2; exact State.issue_power _ _ _ _ fun _ _ => by simp

theorem execImax2_power (w : Fields) (s : State) : OutcomeKeeps s (execImax2 w s) := by
  unfold execImax2; exact State.issue_power _ _ _ _ fun _ _ => by simp

theorem execIcmp2_power (w : Fields) (s : State) : OutcomeKeeps s (execIcmp2 w s) := by
  unfold execIcmp2; exact State.issue_power _ _ _ _ fun _ _ => by simp

theorem execIacs2_power (w : Fields) (s : State) : OutcomeKeeps s (execIacs2 w s) := by
  unfold execIacs2; exact State.issue_power _ _ _ _ fun _ _ => by simp

theorem execFadd_power (w : Fields) (s : State) : OutcomeKeeps s (execFadd w s) := by
  unfold execFadd; exact State.issue_power _ _ _ _ fun _ _ => by simp

theorem execFsub_power (w : Fields) (s : State) : OutcomeKeeps s (execFsub w s) := by
  unfold execFsub; exact State.issue_power _ _ _ _ fun _ _ => by simp

theorem execFmul_power (w : Fields) (s : State) : OutcomeKeeps s (execFmul w s) := by
  unfold execFmul; exact State.issue_power _ _ _ _ fun _ _ => by simp

theorem execFfma_power (w : Fields) (s : State) : OutcomeKeeps s (execFfma w s) := by
  unfold execFfma; exact State.issue_power _ _ _ _ fun _ _ => by simp

theorem execFmin_power (w : Fields) (s : State) : OutcomeKeeps s (execFmin w s) := by
  unfold execFmin; exact State.issue_power _ _ _ _ fun _ _ => by simp

theorem execFmax_power (w : Fields) (s : State) : OutcomeKeeps s (execFmax w s) := by
  unfold execFmax; exact State.issue_power _ _ _ _ fun _ _ => by simp

theorem execFcmp_power (w : Fields) (s : State) : OutcomeKeeps s (execFcmp w s) := by
  unfold execFcmp; exact State.issue_power _ _ _ _ fun _ _ => by simp

theorem execFclass_power (w : Fields) (s : State) : OutcomeKeeps s (execFclass w s) := by
  unfold execFclass; exact State.issue_power _ _ _ _ fun _ _ => by simp

theorem execFrcp_power (w : Fields) (s : State) : OutcomeKeeps s (execFrcp w s) := by
  unfold execFrcp; exact State.issue_power _ _ _ _ fun _ _ => by simp

theorem execFrcpShort_power (a : BitVec 8) (d : BitVec 8) (u : Bool) (y : Bool) (s : State) : OutcomeKeeps s (execFrcpShort a d u y s) := by
  unfold execFrcpShort; exact State.issue_power _ _ _ _ fun _ _ => by simp

theorem execFrsq_power (w : Fields) (s : State) : OutcomeKeeps s (execFrsq w s) := by
  unfold execFrsq; exact State.issue_power _ _ _ _ fun _ _ => by simp

theorem execFrsqShort_power (a : BitVec 8) (d : BitVec 8) (u : Bool) (y : Bool) (s : State) : OutcomeKeeps s (execFrsqShort a d u y s) := by
  unfold execFrsqShort; exact State.issue_power _ _ _ _ fun _ _ => by simp

theorem execFsqrt_power (w : Fields) (s : State) : OutcomeKeeps s (execFsqrt w s) := by
  unfold execFsqrt; exact State.issue_power _ _ _ _ fun _ _ => by simp

theorem execFsqrtShort_power (a : BitVec 8) (d : BitVec 8) (u : Bool) (y : Bool) (s : State) : OutcomeKeeps s (execFsqrtShort a d u y s) := by
  unfold execFsqrtShort; exact State.issue_power _ _ _ _ fun _ _ => by simp

theorem execFdiv_power (w : Fields) (s : State) : OutcomeKeeps s (execFdiv w s) := by
  unfold execFdiv; exact State.issue_power _ _ _ _ fun _ _ => by simp

theorem execFex2_power (w : Fields) (s : State) : OutcomeKeeps s (execFex2 w s) := by
  unfold execFex2; exact State.issue_power _ _ _ _ fun _ _ => by simp

theorem execFex2Short_power (a : BitVec 8) (d : BitVec 8) (u : Bool) (y : Bool) (s : State) : OutcomeKeeps s (execFex2Short a d u y s) := by
  unfold execFex2Short; exact State.issue_power _ _ _ _ fun _ _ => by simp

theorem execFlg2_power (w : Fields) (s : State) : OutcomeKeeps s (execFlg2 w s) := by
  unfold execFlg2; exact State.issue_power _ _ _ _ fun _ _ => by simp

theorem execFlg2Short_power (a : BitVec 8) (d : BitVec 8) (u : Bool) (y : Bool) (s : State) : OutcomeKeeps s (execFlg2Short a d u y s) := by
  unfold execFlg2Short; exact State.issue_power _ _ _ _ fun _ _ => by simp

theorem execFsin_power (w : Fields) (s : State) : OutcomeKeeps s (execFsin w s) := by
  unfold execFsin; exact State.issue_power _ _ _ _ fun _ _ => by simp

theorem execFsinShort_power (a : BitVec 8) (d : BitVec 8) (u : Bool) (y : Bool) (s : State) : OutcomeKeeps s (execFsinShort a d u y s) := by
  unfold execFsinShort; exact State.issue_power _ _ _ _ fun _ _ => by simp

theorem execFcos_power (w : Fields) (s : State) : OutcomeKeeps s (execFcos w s) := by
  unfold execFcos; exact State.issue_power _ _ _ _ fun _ _ => by simp

theorem execFcosShort_power (a : BitVec 8) (d : BitVec 8) (u : Bool) (y : Bool) (s : State) : OutcomeKeeps s (execFcosShort a d u y s) := by
  unfold execFcosShort; exact State.issue_power _ _ _ _ fun _ _ => by simp

theorem execFrnd_power (w : Fields) (s : State) : OutcomeKeeps s (execFrnd w s) := by
  unfold execFrnd; exact State.issue_power _ _ _ _ fun _ _ => by simp

theorem execDadd_power (w : Fields) (s : State) : OutcomeKeeps s (execDadd w s) := by
  unfold execDadd; exact State.issue_power _ _ _ _ fun _ _ => by simp

theorem execDsub_power (w : Fields) (s : State) : OutcomeKeeps s (execDsub w s) := by
  unfold execDsub; exact State.issue_power _ _ _ _ fun _ _ => by simp

theorem execDmul_power (w : Fields) (s : State) : OutcomeKeeps s (execDmul w s) := by
  unfold execDmul; exact State.issue_power _ _ _ _ fun _ _ => by simp

theorem execDfma_power (w : Fields) (s : State) : OutcomeKeeps s (execDfma w s) := by
  unfold execDfma; exact State.issue_power _ _ _ _ fun _ _ => by simp

theorem execDmin_power (w : Fields) (s : State) : OutcomeKeeps s (execDmin w s) := by
  unfold execDmin; exact State.issue_power _ _ _ _ fun _ _ => by simp

theorem execDmax_power (w : Fields) (s : State) : OutcomeKeeps s (execDmax w s) := by
  unfold execDmax; exact State.issue_power _ _ _ _ fun _ _ => by simp

theorem execDcmp_power (w : Fields) (s : State) : OutcomeKeeps s (execDcmp w s) := by
  unfold execDcmp; exact State.issue_power _ _ _ _ fun _ _ => by simp

theorem execDclass_power (w : Fields) (s : State) : OutcomeKeeps s (execDclass w s) := by
  unfold execDclass; exact State.issue_power _ _ _ _ fun _ _ => by simp

theorem execDrcp_power (w : Fields) (s : State) : OutcomeKeeps s (execDrcp w s) := by
  unfold execDrcp; exact State.issue_power _ _ _ _ fun _ _ => by simp

theorem execDrcpShort_power (a : BitVec 8) (d : BitVec 8) (u : Bool) (y : Bool) (s : State) : OutcomeKeeps s (execDrcpShort a d u y s) := by
  unfold execDrcpShort; exact State.issue_power _ _ _ _ fun _ _ => by simp

theorem execDsqrt_power (w : Fields) (s : State) : OutcomeKeeps s (execDsqrt w s) := by
  unfold execDsqrt; exact State.issue_power _ _ _ _ fun _ _ => by simp

theorem execDsqrtShort_power (a : BitVec 8) (d : BitVec 8) (u : Bool) (y : Bool) (s : State) : OutcomeKeeps s (execDsqrtShort a d u y s) := by
  unfold execDsqrtShort; exact State.issue_power _ _ _ _ fun _ _ => by simp

theorem execDdiv_power (w : Fields) (s : State) : OutcomeKeeps s (execDdiv w s) := by
  unfold execDdiv; exact State.issue_power _ _ _ _ fun _ _ => by simp

theorem execDrnd_power (w : Fields) (s : State) : OutcomeKeeps s (execDrnd w s) := by
  unfold execDrnd; exact State.issue_power _ _ _ _ fun _ _ => by simp

theorem execFadd2_power (w : Fields) (s : State) : OutcomeKeeps s (execFadd2 w s) := by
  unfold execFadd2; exact State.issue_power _ _ _ _ fun _ _ => by simp

theorem execFmul2_power (w : Fields) (s : State) : OutcomeKeeps s (execFmul2 w s) := by
  unfold execFmul2; exact State.issue_power _ _ _ _ fun _ _ => by simp

theorem execFfma2_power (w : Fields) (s : State) : OutcomeKeeps s (execFfma2 w s) := by
  unfold execFfma2; exact State.issue_power _ _ _ _ fun _ _ => by simp

theorem execFmin2_power (w : Fields) (s : State) : OutcomeKeeps s (execFmin2 w s) := by
  unfold execFmin2; exact State.issue_power _ _ _ _ fun _ _ => by simp

theorem execFmax2_power (w : Fields) (s : State) : OutcomeKeeps s (execFmax2 w s) := by
  unfold execFmax2; exact State.issue_power _ _ _ _ fun _ _ => by simp

theorem execCvt_power (w : Fields) (s : State) : OutcomeKeeps s (execCvt w s) := by
  unfold execCvt; exact State.issue_power _ _ _ _ fun _ _ => by simp

theorem execTripck_power (w : Fields) (s : State) : OutcomeKeeps s (execTripck w s) := by
  unfold execTripck; exact State.issue_power _ _ _ _ fun _ _ => by simp

theorem execTriunp_power (w : Fields) (s : State) : OutcomeKeeps s (execTriunp w s) := by
  unfold execTriunp; exact State.issue_power _ _ _ _ fun _ _ => by simp

theorem execMov_power (w : Fields) (s : State) : OutcomeKeeps s (execMov w s) := by
  unfold execMov; exact State.issue_power _ _ _ _ fun _ _ => by simp

theorem execMovShort_power (a : BitVec 8) (d : BitVec 8) (u : Bool) (y : Bool) (s : State) : OutcomeKeeps s (execMovShort a d u y s) := by
  unfold execMovShort; exact State.issue_power _ _ _ _ fun _ _ => by simp

theorem execMovi_power (w : Fields) (s : State) : OutcomeKeeps s (execMovi w s) := by
  unfold execMovi; exact State.issue_power _ _ _ _ fun _ _ => by simp

theorem execSel_power (w : Fields) (s : State) : OutcomeKeeps s (execSel w s) := by
  unfold execSel; exact State.issue_power _ _ _ _ fun _ _ => by simp

theorem execPmix_power (w : Fields) (s : State) : OutcomeKeeps s (execPmix w s) := by
  unfold execPmix; exact State.issue_power _ _ _ _ fun _ _ => by simp

theorem execPset_power (w : Fields) (s : State) : OutcomeKeeps s (execPset w s) := by
  unfold execPset; exact State.issue_power _ _ _ _ fun _ _ => by simp

theorem execPget_power (w : Fields) (s : State) : OutcomeKeeps s (execPget w s) := by
  unfold execPget; exact State.issue_power _ _ _ _ fun _ _ => by simp

theorem execPcol_power (w : Fields) (s : State) : OutcomeKeeps s (execPcol w s) := by
  unfold execPcol; exact State.issue_power _ _ _ _ fun _ _ => by simp

theorem execGswz_power (w : Fields) (s : State) : OutcomeKeeps s (execGswz w s) := by
  unfold execGswz; exact State.issue_power _ _ _ _ fun _ _ => by simp

theorem execRdth_power (w : Fields) (s : State) : OutcomeKeeps s (execRdth w s) := by
  unfold execRdth; exact State.issue_power _ _ _ _ fun _ _ => by simp

theorem execWrth_power (w : Fields) (s : State) : OutcomeKeeps s (execWrth w s) := by
  unfold execWrth; exact State.issue_power _ _ _ _ fun _ _ => by simp

theorem execGred_power (w : Fields) (s : State) : OutcomeKeeps s (execGred w s) := by
  unfold execGred; exact State.issue_power _ _ _ _ fun _ _ => by simp

theorem execGscan_power (w : Fields) (s : State) : OutcomeKeeps s (execGscan w s) := by
  unfold execGscan; exact State.issue_power _ _ _ _ fun _ _ => by simp

theorem execLd_power (w : Fields) (s : State) : OutcomeKeeps s (execLd w s) := by
  unfold execLd; exact State.issue_power _ _ _ _ fun _ _ => by simp

theorem execSt_power (w : Fields) (s : State) : OutcomeKeeps s (execSt w s) := by
  unfold execSt; exact State.issue_power _ _ _ _ fun _ _ => by simp

theorem execLds_power (w : Fields) (s : State) : OutcomeKeeps s (execLds w s) := by
  unfold execLds; exact State.issue_power _ _ _ _ fun _ _ => by simp

theorem execSts_power (w : Fields) (s : State) : OutcomeKeeps s (execSts w s) := by
  unfold execSts; exact State.issue_power _ _ _ _ fun _ _ => by simp

theorem execLdu_power (w : Fields) (s : State) : OutcomeKeeps s (execLdu w s) := by
  unfold execLdu; exact State.issue_power _ _ _ _ fun _ _ => by simp

theorem execStu_power (w : Fields) (s : State) : OutcomeKeeps s (execStu w s) := by
  unfold execStu; exact State.issue_power _ _ _ _ fun _ _ => by simp

theorem execFence_power (w : Fields) (s : State) : OutcomeKeeps s (execFence w s) := by
  unfold execFence; exact State.issue_power _ _ _ _ fun _ _ => by simp

theorem execPf_power (w : Fields) (s : State) : OutcomeKeeps s (execPf w s) := by
  unfold execPf; exact State.issue_power _ _ _ _ fun _ _ => by simp

theorem execCctl_power (w : Fields) (s : State) : OutcomeKeeps s (execCctl w s) := by
  unfold execCctl; exact State.issue_power _ _ _ _ fun _ _ => by simp

theorem execIcinv_power (w : Fields) (s : State) : OutcomeKeeps s (execIcinv w s) := by
  unfold execIcinv; exact State.issue_power _ _ _ _ fun _ _ => by simp

theorem execAadd_power (w : Fields) (s : State) : OutcomeKeeps s (execAadd w s) := by
  unfold execAadd; exact State.issue_power _ _ _ _ fun _ _ => by simp

theorem execAmin_power (w : Fields) (s : State) : OutcomeKeeps s (execAmin w s) := by
  unfold execAmin; exact State.issue_power _ _ _ _ fun _ _ => by simp

theorem execAmax_power (w : Fields) (s : State) : OutcomeKeeps s (execAmax w s) := by
  unfold execAmax; exact State.issue_power _ _ _ _ fun _ _ => by simp

theorem execAlog_power (w : Fields) (s : State) : OutcomeKeeps s (execAlog w s) := by
  unfold execAlog; exact State.issue_power _ _ _ _ fun _ _ => by simp

theorem execAxchg_power (w : Fields) (s : State) : OutcomeKeeps s (execAxchg w s) := by
  unfold execAxchg; exact State.issue_power _ _ _ _ fun _ _ => by simp

theorem execAcas_power (w : Fields) (s : State) : OutcomeKeeps s (execAcas w s) := by
  unfold execAcas; exact State.issue_power _ _ _ _ fun _ _ => by simp

theorem execAfadd_power (w : Fields) (s : State) : OutcomeKeeps s (execAfadd w s) := by
  unfold execAfadd; exact State.issue_power _ _ _ _ fun _ _ => by simp

theorem execNopShort_power (u : Bool) (y : Bool) (s : State) : OutcomeKeeps s (execNopShort u y s) := by
  unfold execNopShort; exact State.issue_power _ _ _ _ fun _ _ => by simp

theorem execNop_power (w : Fields) (s : State) : OutcomeKeeps s (execNop w s) := by
  unfold execNop; exact State.issue_power _ _ _ _ fun _ _ => by simp

theorem execYieldShort_power (y : Bool) (s : State) : OutcomeKeeps s (execYieldShort y s) := by
  unfold execYieldShort; exact State.issue_power _ _ _ _ fun _ _ => by simp

theorem execYield_power (w : Fields) (s : State) : OutcomeKeeps s (execYield w s) := by
  unfold execYield; exact State.issue_power _ _ _ _ fun _ _ => by simp

theorem execExitShort_power (y : Bool) (s : State) : OutcomeKeeps s (execExitShort y s) := by
  unfold execExitShort; exact State.issue_power _ _ _ _ fun _ _ => by simp

theorem execExit_power (w : Fields) (s : State) : OutcomeKeeps s (execExit w s) := by
  unfold execExit; exact State.issue_power _ _ _ _ fun _ _ => by simp

theorem execCall_power (w : Fields) (s : State) : OutcomeKeeps s (execCall w s) := by
  unfold execCall; exact State.issue_power _ _ _ _ fun _ _ => by simp

theorem execCallx_power (w : Fields) (s : State) : OutcomeKeeps s (execCallx w s) := by
  unfold execCallx; exact State.issue_power _ _ _ _ fun _ _ => by simp

theorem execJx_power (w : Fields) (s : State) : OutcomeKeeps s (execJx w s) := by
  unfold execJx; exact State.issue_power _ _ _ _ fun _ _ => by simp

theorem execRetShort_power (a : BitVec 8) (y : Bool) (s : State) : OutcomeKeeps s (execRetShort a y s) := by
  unfold execRetShort; exact State.issue_power _ _ _ _ fun _ _ => by simp

theorem execRet_power (w : Fields) (s : State) : OutcomeKeeps s (execRet w s) := by
  unfold execRet; exact State.issue_power _ _ _ _ fun _ _ => by simp

theorem execSigck_power (w : Fields) (s : State) : OutcomeKeeps s (execSigck w s) := by
  unfold execSigck; exact State.issue_power _ _ _ _ fun _ _ => by simp

theorem execSleepShort_power (a : BitVec 8) (r : Bool) (y : Bool) (s : State) : OutcomeKeeps s (execSleepShort a r y s) := by
  unfold execSleepShort; exact State.issue_power _ _ _ _ fun _ _ => by simp

theorem execSleep_power (w : Fields) (s : State) : OutcomeKeeps s (execSleep w s) := by
  unfold execSleep; exact State.issue_power _ _ _ _ fun _ _ => by simp

theorem execFprioImmShort_power (p : BitVec 4) (y : Bool) (s : State) : OutcomeKeeps s (execFprioImmShort p y s) := by
  unfold execFprioImmShort; exact State.issue_power _ _ _ _ fun _ _ => by simp

theorem execFprioRegShort_power (a : BitVec 8) (y : Bool) (s : State) : OutcomeKeeps s (execFprioRegShort a y s) := by
  unfold execFprioRegShort; exact State.issue_power _ _ _ _ fun _ _ => by simp

theorem execFprio_power (w : Fields) (s : State) : OutcomeKeeps s (execFprio w s) := by
  unfold execFprio; exact State.issue_power _ _ _ _ fun _ _ => by simp

theorem execTrap_power (w : Fields) (s : State) : OutcomeKeeps s (execTrap w s) := by
  unfold execTrap; exact State.issue_power _ _ _ _ fun _ _ => by simp

theorem execTretShort_power (k : Bool) (y : Bool) (s : State) : OutcomeKeeps s (execTretShort k y s) := by
  unfold execTretShort; exact State.issue_power _ _ _ _ fun _ _ => by simp

theorem execTret_power (w : Fields) (s : State) : OutcomeKeeps s (execTret w s) := by
  unfold execTret; exact State.issue_power _ _ _ _ fun _ _ => by simp

theorem execSysc_power (w : Fields) (s : State) : OutcomeKeeps s (execSysc w s) := by
  unfold execSysc; exact State.issue_power _ _ _ _ fun _ _ => by simp

theorem execBrkShort_power (n : BitVec 4) (y : Bool) (s : State) : OutcomeKeeps s (execBrkShort n y s) := by
  unfold execBrkShort; exact State.issue_power _ _ _ _ fun _ _ => by simp

theorem execBrk_power (w : Fields) (s : State) : OutcomeKeeps s (execBrk w s) := by
  unfold execBrk; exact State.issue_power _ _ _ _ fun _ _ => by simp

theorem execSrdShort_power (a : BitVec 8) (d : BitVec 8) (u : Bool) (y : Bool) (s : State) : OutcomeKeeps s (execSrdShort a d u y s) := by
  unfold execSrdShort; exact State.issue_power _ _ _ _ fun _ _ => by simp

theorem execSrd_power (w : Fields) (s : State) : OutcomeKeeps s (execSrd w s) := by
  unfold execSrd; exact State.issue_power _ _ _ _ fun _ _ => by simp

theorem execSwrShort_power (a : BitVec 8) (d : BitVec 8) (y : Bool) (s : State) : OutcomeKeeps s (execSwrShort a d y s) := by
  unfold execSwrShort; exact State.issue_power _ _ _ _ fun _ _ => by simp

theorem execSwr_power (w : Fields) (s : State) : OutcomeKeeps s (execSwr w s) := by
  unfold execSwr; exact State.issue_power _ _ _ _ fun _ _ => by simp

theorem execTckptShort_power (y : Bool) (s : State) : OutcomeKeeps s (execTckptShort y s) := by
  unfold execTckptShort; exact State.issue_power _ _ _ _ fun _ _ => by simp

theorem execTckpt_power (w : Fields) (s : State) : OutcomeKeeps s (execTckpt w s) := by
  unfold execTckpt; exact State.issue_power _ _ _ _ fun _ _ => by simp

theorem execIllegalInstruction_power (bits : BitVec 160) (s : State) : OutcomeKeeps s (execIllegalInstruction bits s) := by
  unfold execIllegalInstruction State.issueIllegal
  split
  · simp
  · split
    · simp
    · dsimp only
      rw [outcomeKeeps_next]
      split
      · exact (State.issueIn_power _ _ _ (illegalBody_power _ _ _)).trans (by simp [State.setFibre])
      · exact (State.apply_power _ _ _ (illegalBody_power _ _ _)).trans (by simp [State.setFibre])

theorem execTlbinv_power (w : Fields) (s : State) : OutcomeKeeps s (execTlbinv w s) := by
  unfold execTlbinv; exact State.issue_power _ _ _ _ fun _ _ => by simp

theorem execCadd_power (w : Fields) (s : State) : OutcomeKeeps s (execCadd w s) := by
  unfold execCadd; exact State.issue_power _ _ _ _ fun _ _ => by simp

theorem execCwait_power (w : Fields) (s : State) : OutcomeKeeps s (execCwait w s) := by
  unfold execCwait; exact State.issue_power _ _ _ _ fun _ _ => by simp

theorem execCwaitd_power (w : Fields) (s : State) : OutcomeKeeps s (execCwaitd w s) := by
  unfold execCwaitd; exact State.issue_power _ _ _ _ fun _ _ => by simp

theorem execCpoll_power (w : Fields) (s : State) : OutcomeKeeps s (execCpoll w s) := by
  unfold execCpoll; exact State.issue_power _ _ _ _ fun _ _ => by simp

theorem execCread_power (w : Fields) (s : State) : OutcomeKeeps s (execCread w s) := by
  unfold execCread; exact State.issue_power _ _ _ _ fun _ _ => by simp

theorem execCarm_power (w : Fields) (s : State) : OutcomeKeeps s (execCarm w s) := by
  unfold execCarm; exact State.issue_power _ _ _ _ fun _ _ => by simp

theorem execCinit_power (w : Fields) (s : State) : OutcomeKeeps s (execCinit w s) := by
  unfold execCinit; exact State.issue_power _ _ _ _ fun _ _ => by simp

theorem execEwait_power (w : Fields) (s : State) : OutcomeKeeps s (execEwait w s) := by
  unfold execEwait; exact State.issue_power _ _ _ _ fun _ _ => by simp

theorem execEread_power (w : Fields) (s : State) : OutcomeKeeps s (execEread w s) := by
  unfold execEread; exact State.issue_power _ _ _ _ fun _ _ => by simp

theorem execCpt_power (w : Fields) (s : State) : OutcomeKeeps s (execCpt w s) := by
  unfold execCpt; exact State.issue_power _ _ _ _ fun _ _ => by simp

theorem execCpl_power (w : Fields) (s : State) : OutcomeKeeps s (execCpl w s) := by
  unfold execCpl; exact State.issue_power _ _ _ _ fun _ _ => by simp

theorem execCpg_power (w : Fields) (s : State) : OutcomeKeeps s (execCpg w s) := by
  unfold execCpg; exact State.issue_power _ _ _ _ fun _ _ => by simp

theorem execCps_power (w : Fields) (s : State) : OutcomeKeeps s (execCps w s) := by
  unfold execCps; exact State.issue_power _ _ _ _ fun _ _ => by simp

theorem execCpx_power (w : Fields) (s : State) : OutcomeKeeps s (execCpx w s) := by
  unfold execCpx; exact State.issue_power _ _ _ _ fun _ _ => by simp

theorem execCpa_power (w : Fields) (s : State) : OutcomeKeeps s (execCpa w s) := by
  unfold execCpa; exact State.issue_power _ _ _ _ fun _ _ => by simp

theorem execCpr_power (w : Fields) (s : State) : OutcomeKeeps s (execCpr w s) := by
  unfold execCpr; exact State.issue_power _ _ _ _ fun _ _ => by simp

theorem execCpz_power (w : Fields) (s : State) : OutcomeKeeps s (execCpz w s) := by
  unfold execCpz; exact State.issue_power _ _ _ _ fun _ _ => by simp

theorem execRflush_power (w : Fields) (s : State) : OutcomeKeeps s (execRflush w s) := by
  unfold execRflush; exact State.issue_power _ _ _ _ fun _ _ => by simp

theorem execTclaim_power (w : Fields) (s : State) : OutcomeKeeps s (execTclaim w s) := by
  unfold execTclaim; exact State.issue_power _ _ _ _ fun _ _ => by simp

theorem execTrel_power (w : Fields) (s : State) : OutcomeKeeps s (execTrel w s) := by
  unfold execTrel; exact State.issue_power _ _ _ _ fun _ _ => by simp

theorem execAclaim_power (w : Fields) (s : State) : OutcomeKeeps s (execAclaim w s) := by
  unfold execAclaim; exact State.issue_power _ _ _ _ fun _ _ => by simp

theorem execArel_power (w : Fields) (s : State) : OutcomeKeeps s (execArel w s) := by
  unfold execArel; exact State.issue_power _ _ _ _ fun _ _ => by simp

theorem execMma_power (fam : MmaFamily) (w : Fields) (s : State) : OutcomeKeeps s (execMma fam w s) := by
  unfold execMma; exact State.issue_power _ _ _ _ fun _ _ => by simp

theorem execAsa_power (w : Fields) (s : State) : OutcomeKeeps s (execAsa w s) := by
  unfold execAsa; exact State.issue_power _ _ _ _ fun _ _ => by simp

theorem execAzero_power (w : Fields) (s : State) : OutcomeKeeps s (execAzero w s) := by
  unfold execAzero; exact State.issue_power _ _ _ _ fun _ _ => by simp

theorem execArd_power (w : Fields) (s : State) : OutcomeKeeps s (execArd w s) := by
  unfold execArd; exact State.issue_power _ _ _ _ fun _ _ => by simp

theorem execAwr_power (w : Fields) (s : State) : OutcomeKeeps s (execAwr w s) := by
  unfold execAwr; exact State.issue_power _ _ _ _ fun _ _ => by simp

theorem execAred_power (w : Fields) (s : State) : OutcomeKeeps s (execAred w s) := by
  unfold execAred; exact State.issue_power _ _ _ _ fun _ _ => by simp

theorem execVariableLatencyResult_power (fib : FibreRef) (k : Nat) (s : State) : OutcomeKeeps s (execVariableLatencyResult fib k s) := by
  unfold execVariableLatencyResult; (repeat' split) <;> simp

theorem execSleepWake_power (fib : FibreRef) (split : Nat) (s : State) : OutcomeKeeps s (execSleepWake fib split s) := by
  unfold execSleepWake; simp

theorem execPromiseMissed_power (fib : FibreRef) (s : State) : OutcomeKeeps s (execPromiseMissed fib s) := by
  unfold execPromiseMissed; simp

theorem execStarvationRaise_power (core : Nat) (lane : Nat) (slot : Nat) (s : State) : OutcomeKeeps s (execStarvationRaise core lane slot s) := by
  unfold execStarvationRaise; (repeat' split) <;> simp

theorem execWatchdog_power (core : Nat) (lane : Nat) (slot : Nat) (s : State) : OutcomeKeeps s (execWatchdog core lane slot s) := by
  unfold execWatchdog; (repeat' split) <;> simp

theorem execFibreResume_power (x0 : Nat) (token : Nat) (s : State) : OutcomeKeeps s (execFibreResume x0 token s) := by
  unfold execFibreResume; simp

theorem execFibreConvert_power (x0 : Nat) (token : Nat) (s : State) : OutcomeKeeps s (execFibreConvert x0 token s) := by
  unfold execFibreConvert; simp

theorem execFibreTerminate_power (x0 : Nat) (token : Nat) (s : State) : OutcomeKeeps s (execFibreTerminate x0 token s) := by
  unfold execFibreTerminate; simp

theorem execTeamPlacement_power (p : Placement) (s : State) : OutcomeKeeps s (execTeamPlacement p s) := by
  unfold execTeamPlacement
  (repeat' split) <;> first | (simp; done) | rfl | skip
  exact getD_power (fun x h => (State.placeRest_power h).trans (by simp)) rfl

theorem execTeamRestore_power (p : Placement) (s : State) : OutcomeKeeps s (execTeamRestore p s) := by
  unfold execTeamRestore
  split
  · simp
  · split
    · dsimp only
      rw [outcomeKeeps_next]
      split
      · exact getD_power (fun x h => (State.restoreMany_power h).trans (by simp)) rfl
      · simp
    · simp

theorem execPreEmption_power (team : TeamRef) (s : State) : OutcomeKeeps s (execPreEmption team s) := by
  unfold execPreEmption; (repeat' split) <;> simp

theorem execLaunchSignal_power (op : LaunchSignalOp) (s : State) : OutcomeKeeps s (execLaunchSignal op s) := by
  simp only [execLaunchSignal]
  split
  · simp
  · rw [outcomeKeeps_next, power_ite]
    split
    · split
      · simp
      · have := State.judge_power ‹_›
        simpa using this
    · simp

theorem execCopyRequestStart_power (core : Nat) (s : State) : OutcomeKeeps s (execCopyRequestStart core s) := by
  unfold execCopyRequestStart; simp

theorem execCopyReleaseAdd_power (core : Nat) (req : Nat) (s : State) : OutcomeKeeps s (execCopyReleaseAdd core req s) := by
  unfold execCopyReleaseAdd
  split
  · exact getD_power (fun x h => State.consumeEntry_power h) (by simp)
  · simp

theorem execCopyCompletion_power (core : Nat) (req : Nat) (s : State) : OutcomeKeeps s (execCopyCompletion core req s) := by
  unfold execCopyCompletion
  split
  · exact getD_power (fun x h => State.consumeEntry_power h) (by simp)
  · simp

theorem execScheduleEntryIssue_power (team : TeamRef) (s : State) : OutcomeKeeps s (execScheduleEntryIssue team s) := by
  unfold execScheduleEntryIssue; simp

theorem execCpaReadPhase_power (core : Nat) (req : Nat) (s : State) : OutcomeKeeps s (execCpaReadPhase core req s) := by
  unfold execCpaReadPhase
  split
  · dsimp only
    exact getD_power (fun x h => State.consumeEntry_power h) (by simp)
  · simp

theorem execPendingBitClear_power (core : Nat) (req : Nat) (s : State) : OutcomeKeeps s (execPendingBitClear core req s) := by
  unfold execPendingBitClear
  split
  · exact getD_power (fun x h => State.consumeEntry_power h) (by simp)
  · simp

theorem execReplayRelease_power (core : Nat) (entry : Nat) (s : State) : OutcomeKeeps s (execReplayRelease core entry s) := by
  unfold execReplayRelease; simp

theorem execReplayTerminate_power (core : Nat) (entry : Nat) (s : State) : OutcomeKeeps s (execReplayTerminate core entry s) := by
  unfold execReplayTerminate; simp

theorem execEngineOpStart_power (core : Nat) (s : State) : OutcomeKeeps s (execEngineOpStart core s) := by
  unfold execEngineOpStart; simp

theorem execEngineOpComplete_power (core : Nat) (s : State) : OutcomeKeeps s (execEngineOpComplete core s) := by
  unfold execEngineOpComplete; (repeat' split) <;> simp

theorem execWcAgeingDrain_power (core : Nat) (s : State) : OutcomeKeeps s (execWcAgeingDrain core s) := by
  unfold execWcAgeingDrain; (repeat' split) <;> simp

theorem execRegisterWrite_power (reg : DeviceReg) (value : DWord) (s : State) : OutcomeKeeps s (execRegisterWrite reg value s) := by
  unfold execRegisterWrite; simp

theorem execRingSizeWrite_power (col : Nat) (sysc : Bool) (value : DWord) (s : State) : OutcomeKeeps s (execRingSizeWrite col sysc value s) := by
  unfold execRingSizeWrite; simp

theorem execSavePoolWrite_power (col : Nat) (size : Bool) (value : DWord) (s : State) : OutcomeKeeps s (execSavePoolWrite col size value s) := by
  unfold execSavePoolWrite; simp

theorem execGovctlWrite_power (col : Nat) (value : DWord) (s : State) : OutcomeKeeps s (execGovctlWrite col value s) := by
  unfold execGovctlWrite; simp

theorem execTtripWrite_power (col : Nat) (value : DWord) (s : State) : OutcomeKeeps s (execTtripWrite col value s) := by
  unfold execTtripWrite; simp

theorem execGovernorSample_power (col : Nat) (temp : Nat) (s : State) : OutcomeKeeps s (execGovernorSample col temp s) := by
  simp only [execGovernorSample]; (repeat' split) <;> simp

theorem execSupplyDroopSample_power (col : Nat) (drop : Nat) (s : State) : OutcomeKeeps s (execSupplyDroopSample col drop s) := by
  unfold execSupplyDroopSample; simp

theorem execCoreGate_power (core : Nat) (s : State) : OutcomeKeeps s (execCoreGate core s) := by
  unfold execCoreGate; simp

theorem execInsoleBankSleep_power (col : Nat) (bank : Nat) (s : State) : OutcomeKeeps s (execInsoleBankSleep col bank s) := by
  unfold execInsoleBankSleep; simp

theorem execScrubVisit_power (col : Nat) (level : ScrubLevel) (place : Nat) (found : ScrubFinding) (s : State) : OutcomeKeeps s (execScrubVisit col level place found s) := by
  unfold execScrubVisit; (repeat' split) <;> simp

theorem execShankTestRow_power (col : Nat) (shank : Nat) (failing : Bool) (s : State) : OutcomeKeeps s (execShankTestRow col shank failing s) := by
  unfold execShankTestRow; simp

theorem execShankTestResume_power (col : Nat) (s : State) : OutcomeKeeps s (execShankTestResume col s) := by
  unfold execShankTestResume
  dsimp only
  (repeat' split) <;> simp

theorem execSparePathFailure_power (col : Nat) (s : State) : OutcomeKeeps s (execSparePathFailure col s) := by
  unfold execSparePathFailure; simp

theorem execRegionDisplacement_power (region : Nat) (s : State) : OutcomeKeeps s (execRegionDisplacement region s) := by
  unfold execRegionDisplacement; simp

theorem execDisplacementSwitch_power (region : Nat) (s : State) : OutcomeKeeps s (execDisplacementSwitch region s) := by
  unfold execDisplacementSwitch; simp

theorem execRegionLoss_power (region : Nat) (s : State) : OutcomeKeeps s (execRegionLoss region s) := by
  unfold execRegionLoss; simp

theorem execSyscAnswer_power (fib : FibreRef) (thread : Nat) (s : State) : OutcomeKeeps s (execSyscAnswer fib thread s) := by
  unfold execSyscAnswer; simp

theorem execHeldEventWrite_power (col : Nat) (s : State) : OutcomeKeeps s (execHeldEventWrite col s) := by
  unfold execHeldEventWrite; (repeat' split) <;> simp

theorem execWaitWakeup_power (k : Nat) (s : State) : OutcomeKeeps s (execWaitWakeup k s) := by
  unfold execWaitWakeup; (repeat' split) <;> simp

theorem execPollRetry_power (k : Nat) (s : State) : OutcomeKeeps s (execPollRetry k s) := by
  unfold execPollRetry
  (repeat' split) <;> first | (simp; done) | exact State.rereadBad_power ‹_›

theorem execTimebaseWaitSatisfied_power (k : Nat) (s : State) : OutcomeKeeps s (execTimebaseWaitSatisfied k s) := by
  unfold execTimebaseWaitSatisfied; (repeat' split) <;> simp

theorem execRemoteWakeup_power (k : Nat) (s : State) : OutcomeKeeps s (execRemoteWakeup k s) := by
  simp only [execRemoteWakeup]; (repeat' split) <;> simp

theorem execAddressSpaceTeardown_power (asid : Nat) (s : State) : OutcomeKeeps s (execAddressSpaceTeardown asid s) := by
  unfold execAddressSpaceTeardown; simp

theorem execPcieInboundRequest_power (port : Nat) (addr : Nat) (op : OuterOp) (s : State) : OutcomeKeeps s (execPcieInboundRequest port addr op s) := by
  unfold execPcieInboundRequest; simp

theorem execPeerRequest_power (pkg : Nat) (addr : Nat) (op : OuterOp) (s : State) : OutcomeKeeps s (execPeerRequest pkg addr op s) := by
  unfold execPeerRequest; (repeat' split) <;> simp

theorem execPcieLinkDown_power (port : Nat) (s : State) : OutcomeKeeps s (execPcieLinkDown port s) := by
  unfold execPcieLinkDown; simp

theorem execPcieLinkUp_power (port : Nat) (s : State) : OutcomeKeeps s (execPcieLinkUp port s) := by
  unfold execPcieLinkUp; simp

theorem execUalinkPortDown_power (port : Nat) (s : State) : OutcomeKeeps s (execUalinkPortDown port s) := by
  unfold execUalinkPortDown; simp

theorem execPortRestored_power (port : Nat) (s : State) : OutcomeKeeps s (execPortRestored port s) := by
  unfold execPortRestored; simp

theorem execFlitTagFailure_power (port : Nat) (replayed : Bool) (s : State) : OutcomeKeeps s (execFlitTagFailure port replayed s) := by
  unfold execFlitTagFailure; simp

theorem execLinkReattest_power (port : Nat) (s : State) : OutcomeKeeps s (execLinkReattest port s) := by
  unfold execLinkReattest; simp

theorem execLostTimeout_power (port : Nat) (s : State) : OutcomeKeeps s (execLostTimeout port s) := by
  simp only [execLostTimeout]; (repeat' split) <;> simp

theorem execElectionStart_power (s : State) : OutcomeKeeps s (execElectionStart s) := by
  unfold execElectionStart; simp

theorem execHeartbeatTimeout_power (s : State) : OutcomeKeeps s (execHeartbeatTimeout s) := by
  unfold execHeartbeatTimeout; simp

theorem execCommitTimeout_power (s : State) : OutcomeKeeps s (execCommitTimeout s) := by
  unfold execCommitTimeout; simp

theorem execHelloReceived_power (h : Hello) (s : State) : OutcomeKeeps s (execHelloReceived h s) := by
  unfold execHelloReceived; (repeat' split) <;> simp

theorem execHelloPeriodEnd_power (s : State) : OutcomeKeeps s (execHelloPeriodEnd s) := by
  simp only [execHelloPeriodEnd]; (repeat' split) <;> simp

theorem execEntriesReceived_power (leader : Nat) (entries : List ScopeDraft) (s : State) : OutcomeKeeps s (execEntriesReceived leader entries s) := by
  unfold execEntriesReceived; simp

theorem execEntryAckReceived_power (pkg : Nat) (s : State) : OutcomeKeeps s (execEntryAckReceived pkg s) := by
  unfold execEntryAckReceived; simp

theorem execCommitReceived_power (gen : Nat) (s : State) : OutcomeKeeps s (execCommitReceived gen s) := by
  unfold execCommitReceived; simp

theorem execAbdicationReceived_power (leader : Nat) (s : State) : OutcomeKeeps s (execAbdicationReceived leader s) := by
  unfold execAbdicationReceived; simp

theorem execMergeRequestReceived_power (x0 : Nat) (x1 : List Nat) (s : State) : OutcomeKeeps s (execMergeRequestReceived x0 x1 s) := by
  unfold execMergeRequestReceived; simp

theorem execLeaderHeartbeat_power (s : State) : OutcomeKeeps s (execLeaderHeartbeat s) := by
  unfold execLeaderHeartbeat; simp

theorem execBootdone_power (s : State) : OutcomeKeeps s (execBootdone s) := by
  unfold execBootdone; simp

theorem execCkcmdCapture_power (sole : Nat) (s : State) : OutcomeKeeps s (execCkcmdCapture sole s) := by
  unfold execCkcmdCapture; simp

theorem execCkcmdRestore_power (sole : Nat) (s : State) : OutcomeKeeps s (execCkcmdRestore sole s) := by
  unfold execCkcmdRestore; simp

theorem execCaptureT0_power (sole : Nat) (s : State) : OutcomeKeeps s (execCaptureT0 sole s) := by
  simp only [execCaptureT0]; (repeat' split) <;> simp

theorem execNvmeCommandCompletion_power (sole : Nat) (ok : Bool) (data : List Byte) (s : State) : OutcomeKeeps s (execNvmeCommandCompletion sole ok data s) := by
  simp only [execNvmeCommandCompletion]; (repeat' split) <;> simp

theorem execNvmeTimeout_power (sole : Nat) (s : State) : OutcomeKeeps s (execNvmeTimeout sole s) := by
  unfold execNvmeTimeout; (repeat' split) <;> simp

theorem execReserveCopyComplete_power (sole : Nat) (page : Nat) (s : State) : OutcomeKeeps s (execReserveCopyComplete sole page s) := by
  simp only [execReserveCopyComplete]; (repeat' split) <;> simp

theorem execUserEventDelivery_power (hart : Nat) (s : State) : OutcomeKeeps s (execUserEventDelivery hart s) := by
  unfold execUserEventDelivery; (repeat' split) <;> simp

theorem execUserEventInterrupt_power (hart : Nat) (s : State) : OutcomeKeeps s (execUserEventInterrupt hart s) := by
  unfold execUserEventInterrupt; simp

theorem execUevret_power (s : State) : OutcomeKeeps s (execUevret s) := by
  unfold execUevret; simp

theorem execUevasidWrite_power (hart : Nat) (value : DWord) (s : State) : OutcomeKeeps s (execUevasidWrite hart value s) := by
  unfold execUevasidWrite; simp

theorem execLodgeHartMemoryAccess_power (hart : Nat) (addr : Nat) (op : OuterOp) (s : State) : OutcomeKeeps s (execLodgeHartMemoryAccess hart addr op s) := by
  unfold execLodgeHartMemoryAccess; simp

theorem execLodgePoisonConsumption_power (hart : Nat) (pa : Nat) (s : State) : OutcomeKeeps s (execLodgePoisonConsumption hart pa s) := by
  unfold execLodgePoisonConsumption; simp

theorem execTranslationWalk_power (core : Nat) (asid : Nat) (root : Nat) (va : DWord) (s : State) : OutcomeKeeps s (execTranslationWalk core asid root va s) := by
  unfold execTranslationWalk; simp

theorem execSfenceVma_power (asid : Option Nat) (va : Option DWord) (s : State) : OutcomeKeeps s (execSfenceVma asid va s) := by
  unfold execSfenceVma; simp

/-- The steps that change the boost state. -/
def changesPower : Instr → Bool
  | .boostBoundary _ | .permitRefill _ | .packageReset _ | .startWatchdogExpiry => true
  | _ => false

theorem exec_power (i : Instr) (s : State) (h : changesPower i = false) : OutcomeKeeps s (exec i s) := by
  cases i with
  | nopShort a0 a1 => exact execNopShort_power a0 a1 s
  | nop a0 => exact execNop_power a0 s
  | yieldShort a0 => exact execYieldShort_power a0 s
  | yield a0 => exact execYield_power a0 s
  | exitShort a0 => exact execExitShort_power a0 s
  | exit a0 => exact execExit_power a0 s
  | call a0 => exact execCall_power a0 s
  | callx a0 => exact execCallx_power a0 s
  | jx a0 => exact execJx_power a0 s
  | retShort a0 a1 => exact execRetShort_power a0 a1 s
  | ret a0 => exact execRet_power a0 s
  | sigck a0 => exact execSigck_power a0 s
  | trap a0 => exact execTrap_power a0 s
  | tretShort a0 a1 => exact execTretShort_power a0 a1 s
  | tret a0 => exact execTret_power a0 s
  | sysc a0 => exact execSysc_power a0 s
  | brkShort a0 a1 => exact execBrkShort_power a0 a1 s
  | brk a0 => exact execBrk_power a0 s
  | sleepShort a0 a1 a2 => exact execSleepShort_power a0 a1 a2 s
  | sleep a0 => exact execSleep_power a0 s
  | fprioImmShort a0 a1 => exact execFprioImmShort_power a0 a1 s
  | fprioRegShort a0 a1 => exact execFprioRegShort_power a0 a1 s
  | fprio a0 => exact execFprio_power a0 s
  | srdShort a0 a1 a2 a3 => exact execSrdShort_power a0 a1 a2 a3 s
  | srd a0 => exact execSrd_power a0 s
  | swrShort a0 a1 a2 => exact execSwrShort_power a0 a1 a2 s
  | swr a0 => exact execSwr_power a0 s
  | tckptShort a0 => exact execTckptShort_power a0 s
  | tckpt a0 => exact execTckpt_power a0 s
  | tlbinv a0 => exact execTlbinv_power a0 s
  | iadd a0 => exact execIadd_power a0 s
  | isub a0 => exact execIsub_power a0 s
  | iaddc a0 => exact execIaddc_power a0 s
  | isubb a0 => exact execIsubb_power a0 s
  | imul a0 => exact execImul_power a0 s
  | imulh a0 => exact execImulh_power a0 s
  | imad a0 => exact execImad_power a0 s
  | imadw a0 => exact execImadw_power a0 s
  | idiv a0 => exact execIdiv_power a0 s
  | irem a0 => exact execIrem_power a0 s
  | imin a0 => exact execImin_power a0 s
  | imax a0 => exact execImax_power a0 s
  | iabsShort a0 a1 a2 a3 => exact execIabsShort_power a0 a1 a2 a3 s
  | iabs a0 => exact execIabs_power a0 s
  | inegShort a0 a1 a2 a3 => exact execInegShort_power a0 a1 a2 a3 s
  | ineg a0 => exact execIneg_power a0 s
  | isad a0 => exact execIsad_power a0 s
  | icmp a0 => exact execIcmp_power a0 s
  | lea a0 => exact execLea_power a0 s
  | and a0 => exact execAnd_power a0 s
  | or a0 => exact execOr_power a0 s
  | xor a0 => exact execXor_power a0 s
  | andn a0 => exact execAndn_power a0 s
  | bmix a0 => exact execBmix_power a0 s
  | shl a0 => exact execShl_power a0 s
  | shr a0 => exact execShr_power a0 s
  | sar a0 => exact execSar_power a0 s
  | rot a0 => exact execRot_power a0 s
  | fshl a0 => exact execFshl_power a0 s
  | fshr a0 => exact execFshr_power a0 s
  | bfx a0 => exact execBfx_power a0 s
  | bfi a0 => exact execBfi_power a0 s
  | popcShort a0 a1 a2 a3 => exact execPopcShort_power a0 a1 a2 a3 s
  | popc a0 => exact execPopc_power a0 s
  | clzShort a0 a1 a2 a3 => exact execClzShort_power a0 a1 a2 a3 s
  | clz a0 => exact execClz_power a0 s
  | ctzShort a0 a1 a2 a3 => exact execCtzShort_power a0 a1 a2 a3 s
  | ctz a0 => exact execCtz_power a0 s
  | brevShort a0 a1 a2 a3 => exact execBrevShort_power a0 a1 a2 a3 s
  | brev a0 => exact execBrev_power a0 s
  | bperm a0 => exact execBperm_power a0 s
  | iadd2 a0 => exact execIadd2_power a0 s
  | isub2 a0 => exact execIsub2_power a0 s
  | imin2 a0 => exact execImin2_power a0 s
  | imax2 a0 => exact execImax2_power a0 s
  | icmp2 a0 => exact execIcmp2_power a0 s
  | iacs2 a0 => exact execIacs2_power a0 s
  | fadd a0 => exact execFadd_power a0 s
  | fsub a0 => exact execFsub_power a0 s
  | fmul a0 => exact execFmul_power a0 s
  | ffma a0 => exact execFfma_power a0 s
  | fmin a0 => exact execFmin_power a0 s
  | fmax a0 => exact execFmax_power a0 s
  | fcmp a0 => exact execFcmp_power a0 s
  | fclass a0 => exact execFclass_power a0 s
  | frcpShort a0 a1 a2 a3 => exact execFrcpShort_power a0 a1 a2 a3 s
  | frcp a0 => exact execFrcp_power a0 s
  | frsqShort a0 a1 a2 a3 => exact execFrsqShort_power a0 a1 a2 a3 s
  | frsq a0 => exact execFrsq_power a0 s
  | fsqrtShort a0 a1 a2 a3 => exact execFsqrtShort_power a0 a1 a2 a3 s
  | fsqrt a0 => exact execFsqrt_power a0 s
  | fdiv a0 => exact execFdiv_power a0 s
  | fex2Short a0 a1 a2 a3 => exact execFex2Short_power a0 a1 a2 a3 s
  | fex2 a0 => exact execFex2_power a0 s
  | flg2Short a0 a1 a2 a3 => exact execFlg2Short_power a0 a1 a2 a3 s
  | flg2 a0 => exact execFlg2_power a0 s
  | fsinShort a0 a1 a2 a3 => exact execFsinShort_power a0 a1 a2 a3 s
  | fsin a0 => exact execFsin_power a0 s
  | fcosShort a0 a1 a2 a3 => exact execFcosShort_power a0 a1 a2 a3 s
  | fcos a0 => exact execFcos_power a0 s
  | frnd a0 => exact execFrnd_power a0 s
  | dadd a0 => exact execDadd_power a0 s
  | dsub a0 => exact execDsub_power a0 s
  | dmul a0 => exact execDmul_power a0 s
  | dfma a0 => exact execDfma_power a0 s
  | dmin a0 => exact execDmin_power a0 s
  | dmax a0 => exact execDmax_power a0 s
  | dcmp a0 => exact execDcmp_power a0 s
  | dclass a0 => exact execDclass_power a0 s
  | drcpShort a0 a1 a2 a3 => exact execDrcpShort_power a0 a1 a2 a3 s
  | drcp a0 => exact execDrcp_power a0 s
  | dsqrtShort a0 a1 a2 a3 => exact execDsqrtShort_power a0 a1 a2 a3 s
  | dsqrt a0 => exact execDsqrt_power a0 s
  | ddiv a0 => exact execDdiv_power a0 s
  | drnd a0 => exact execDrnd_power a0 s
  | fadd2 a0 => exact execFadd2_power a0 s
  | fmul2 a0 => exact execFmul2_power a0 s
  | ffma2 a0 => exact execFfma2_power a0 s
  | fmin2 a0 => exact execFmin2_power a0 s
  | fmax2 a0 => exact execFmax2_power a0 s
  | cvt a0 => exact execCvt_power a0 s
  | tripck a0 => exact execTripck_power a0 s
  | triunp a0 => exact execTriunp_power a0 s
  | movShort a0 a1 a2 a3 => exact execMovShort_power a0 a1 a2 a3 s
  | mov a0 => exact execMov_power a0 s
  | movi a0 => exact execMovi_power a0 s
  | sel a0 => exact execSel_power a0 s
  | pmix a0 => exact execPmix_power a0 s
  | pset a0 => exact execPset_power a0 s
  | pget a0 => exact execPget_power a0 s
  | pcol a0 => exact execPcol_power a0 s
  | gswz a0 => exact execGswz_power a0 s
  | rdth a0 => exact execRdth_power a0 s
  | wrth a0 => exact execWrth_power a0 s
  | gred a0 => exact execGred_power a0 s
  | gscan a0 => exact execGscan_power a0 s
  | ld a0 => exact execLd_power a0 s
  | st a0 => exact execSt_power a0 s
  | lds a0 => exact execLds_power a0 s
  | sts a0 => exact execSts_power a0 s
  | ldu a0 => exact execLdu_power a0 s
  | stu a0 => exact execStu_power a0 s
  | aadd a0 => exact execAadd_power a0 s
  | amin a0 => exact execAmin_power a0 s
  | amax a0 => exact execAmax_power a0 s
  | alog a0 => exact execAlog_power a0 s
  | axchg a0 => exact execAxchg_power a0 s
  | acas a0 => exact execAcas_power a0 s
  | afadd a0 => exact execAfadd_power a0 s
  | fence a0 => exact execFence_power a0 s
  | pf a0 => exact execPf_power a0 s
  | cctl a0 => exact execCctl_power a0 s
  | icinv a0 => exact execIcinv_power a0 s
  | cadd a0 => exact execCadd_power a0 s
  | cwait a0 => exact execCwait_power a0 s
  | cwaitd a0 => exact execCwaitd_power a0 s
  | cpoll a0 => exact execCpoll_power a0 s
  | cread a0 => exact execCread_power a0 s
  | carm a0 => exact execCarm_power a0 s
  | cinit a0 => exact execCinit_power a0 s
  | ewait a0 => exact execEwait_power a0 s
  | eread a0 => exact execEread_power a0 s
  | cpt a0 => exact execCpt_power a0 s
  | cpl a0 => exact execCpl_power a0 s
  | cpg a0 => exact execCpg_power a0 s
  | cps a0 => exact execCps_power a0 s
  | cpx a0 => exact execCpx_power a0 s
  | cpa a0 => exact execCpa_power a0 s
  | cpr a0 => exact execCpr_power a0 s
  | cpz a0 => exact execCpz_power a0 s
  | rflush a0 => exact execRflush_power a0 s
  | tclaim a0 => exact execTclaim_power a0 s
  | trel a0 => exact execTrel_power a0 s
  | aclaim a0 => exact execAclaim_power a0 s
  | arel a0 => exact execArel_power a0 s
  | mma a0 a1 => exact execMma_power a0 a1 s
  | asa a0 => exact execAsa_power a0 s
  | azero a0 => exact execAzero_power a0 s
  | ard a0 => exact execArd_power a0 s
  | awr a0 => exact execAwr_power a0 s
  | ared a0 => exact execAred_power a0 s
  | illegalInstruction a0 => exact execIllegalInstruction_power a0 s
  | starvationRaise a0 a1 a2 => exact execStarvationRaise_power a0 a1 a2 s
  | watchdog a0 a1 a2 => exact execWatchdog_power a0 a1 a2 s
  | variableLatencyResult a0 a1 => exact execVariableLatencyResult_power a0 a1 s
  | fibreResume a0 a1 => exact execFibreResume_power a0 a1 s
  | fibreConvert a0 a1 => exact execFibreConvert_power a0 a1 s
  | fibreTerminate a0 a1 => exact execFibreTerminate_power a0 a1 s
  | launchSignal a0 => exact execLaunchSignal_power a0 s
  | teamPlacement a0 => exact execTeamPlacement_power a0 s
  | preEmption a0 => exact execPreEmption_power a0 s
  | teamRestore a0 => exact execTeamRestore_power a0 s
  | copyRequestStart a0 => exact execCopyRequestStart_power a0 s
  | copyReleaseAdd a0 a1 => exact execCopyReleaseAdd_power a0 a1 s
  | copyCompletion a0 a1 => exact execCopyCompletion_power a0 a1 s
  | scheduleEntryIssue a0 => exact execScheduleEntryIssue_power a0 s
  | replayRelease a0 a1 => exact execReplayRelease_power a0 a1 s
  | replayTerminate a0 a1 => exact execReplayTerminate_power a0 a1 s
  | cpaReadPhase a0 a1 => exact execCpaReadPhase_power a0 a1 s
  | engineOpStart a0 => exact execEngineOpStart_power a0 s
  | engineOpComplete a0 => exact execEngineOpComplete_power a0 s
  | wcAgeingDrain a0 => exact execWcAgeingDrain_power a0 s
  | syscAnswer a0 a1 => exact execSyscAnswer_power a0 a1 s
  | heldEventWrite a0 => exact execHeldEventWrite_power a0 s
  | waitWakeup a0 => exact execWaitWakeup_power a0 s
  | pollRetry a0 => exact execPollRetry_power a0 s
  | promiseMissed a0 => exact execPromiseMissed_power a0 s
  | sleepWake a0 a1 => exact execSleepWake_power a0 a1 s
  | userEventDelivery a0 => exact execUserEventDelivery_power a0 s
  | userEventInterrupt a0 => exact execUserEventInterrupt_power a0 s
  | uevasidWrite a0 a1 => exact execUevasidWrite_power a0 a1 s
  | lodgePoisonConsumption a0 a1 => exact execLodgePoisonConsumption_power a0 a1 s
  | translationWalk a0 a1 a2 a3 => exact execTranslationWalk_power a0 a1 a2 a3 s
  | sfenceVma a0 a1 => exact execSfenceVma_power a0 a1 s
  | insoleBankSleep a0 a1 => exact execInsoleBankSleep_power a0 a1 s
  | coreGate a0 => exact execCoreGate_power a0 s
  | scrubVisit a0 a1 a2 a3 => exact execScrubVisit_power a0 a1 a2 a3 s
  | shankTestRow a0 a1 a2 => exact execShankTestRow_power a0 a1 a2 s
  | shankTestResume a0 => exact execShankTestResume_power a0 s
  | sparePathFailure a0 => exact execSparePathFailure_power a0 s
  | boostBoundary a0 => cases h
  | permitRefill a0 => cases h
  | governorSample a0 a1 => exact execGovernorSample_power a0 a1 s
  | govctlWrite a0 a1 => exact execGovctlWrite_power a0 a1 s
  | ttripWrite a0 a1 => exact execTtripWrite_power a0 a1 s
  | supplyDroopSample a0 a1 => exact execSupplyDroopSample_power a0 a1 s
  | ringSizeWrite a0 a1 a2 => exact execRingSizeWrite_power a0 a1 a2 s
  | savePoolWrite a0 a1 a2 => exact execSavePoolWrite_power a0 a1 a2 s
  | registerWrite a0 a1 => exact execRegisterWrite_power a0 a1 s
  | ckcmdCapture a0 => exact execCkcmdCapture_power a0 s
  | ckcmdRestore a0 => exact execCkcmdRestore_power a0 s
  | captureT0 a0 => exact execCaptureT0_power a0 s
  | nvmeCommandCompletion a0 a1 a2 => exact execNvmeCommandCompletion_power a0 a1 a2 s
  | nvmeTimeout a0 => exact execNvmeTimeout_power a0 s
  | pcieInboundRequest a0 a1 a2 => exact execPcieInboundRequest_power a0 a1 a2 s
  | peerRequest a0 a1 a2 => exact execPeerRequest_power a0 a1 a2 s
  | remoteWakeup a0 => exact execRemoteWakeup_power a0 s
  | ualinkPortDown a0 => exact execUalinkPortDown_power a0 s
  | lostTimeout a0 => exact execLostTimeout_power a0 s
  | lodgeHartMemoryAccess a0 a1 a2 => exact execLodgeHartMemoryAccess_power a0 a1 a2 s
  | timebaseWaitSatisfied a0 => exact execTimebaseWaitSatisfied_power a0 s
  | pendingBitClear a0 a1 => exact execPendingBitClear_power a0 a1 s
  | pcieLinkDown a0 => exact execPcieLinkDown_power a0 s
  | pcieLinkUp a0 => exact execPcieLinkUp_power a0 s
  | addressSpaceTeardown a0 => exact execAddressSpaceTeardown_power a0 s
  | helloReceived a0 => exact execHelloReceived_power a0 s
  | entriesReceived a0 a1 => exact execEntriesReceived_power a0 a1 s
  | entryAckReceived a0 => exact execEntryAckReceived_power a0 s
  | commitReceived a0 => exact execCommitReceived_power a0 s
  | abdicationReceived a0 => exact execAbdicationReceived_power a0 s
  | mergeRequestReceived a0 a1 => exact execMergeRequestReceived_power a0 a1 s
  | packageReset a0 => cases h
  | linkReattest a0 => exact execLinkReattest_power a0 s
  | flitTagFailure a0 a1 => exact execFlitTagFailure_power a0 a1 s
  | portRestored a0 => exact execPortRestored_power a0 s
  | reserveCopyComplete a0 a1 => exact execReserveCopyComplete_power a0 a1 s
  | regionDisplacement a0 => exact execRegionDisplacement_power a0 s
  | regionLoss a0 => exact execRegionLoss_power a0 s
  | displacementSwitch a0 => exact execDisplacementSwitch_power a0 s
  | uevret => exact execUevret_power s
  | electionStart => exact execElectionStart_power s
  | heartbeatTimeout => exact execHeartbeatTimeout_power s
  | commitTimeout => exact execCommitTimeout_power s
  | helloPeriodEnd => exact execHelloPeriodEnd_power s
  | startWatchdogExpiry => cases h
  | bootdone => exact execBootdone_power s
  | leaderHeartbeat => exact execLeaderHeartbeat_power s

/-! ## What a turn leads to -/

/-- What a turn leads to has the boost state of s before its instruction, if any, is executed. -/
def Next.keeps (s : State) : Next → Prop
  | .run _ t | .done t => t.power = s.power
  | .refuse _ => True

@[simp] theorem next_keeps_run (s t : State) (i : Instr) : (Next.run i t).keeps s ↔ t.power = s.power := Iff.rfl
@[simp] theorem next_keeps_done (s t : State) : (Next.done t).keeps s ↔ t.power = s.power := Iff.rfl
@[simp] theorem next_keeps_refuse (s : State) (r : Refusal) : (Next.refuse r).keeps s ↔ True := Iff.rfl

theorem State.issueSplit_keeps (s : State) (r : FibreRef) (g : Group) (f : Fibre) (x : Split) :
    (s.issueSplit r g f x).keeps s := by
  unfold State.issueSplit
  split
  · simp
  · split
    · simp
    · split
      · simp
      · simpa using State.fetch_power ‹_›

theorem next_keeps_trans {s t : State} {n : Next} (h : t.power = s.power) : n.keeps t ↔ n.keeps s := by
  cases n <;> simp [h]

theorem State.issueFibre_keeps (s : State) (r : FibreRef) : (s.issueFibre r).keeps s := by
  unfold State.issueFibre
  dsimp only
  split
  · split
    · exact (next_keeps_trans (by simp [State.setFibre])).1 (State.issueSplit_keeps _ _ _ _ _)
    · split <;> simp
  · simp

theorem State.issueLane_keeps (s : State) (core lane : Nat) : (s.issueLane core lane).keeps s := by
  unfold State.issueLane
  dsimp only
  split
  · simp
  · split
    · simp
    · split
      · simp
      · split
        · exact State.issueFibre_keeps _ _
        · simp

theorem State.lodgeStep_keeps (s : State) (hart : Nat) : (s.lodgeStep hart).keeps s := by
  unfold State.lodgeStep
  dsimp only
  (repeat' split) <;> simp

/-- A turn other than the passing of time keeps the boost state up to its instruction. -/
theorem State.turn_keeps (s : State) (t : Turn) (h : ∀ n, t ≠ .advance n) : (s.turn t).keeps s := by
  unfold State.turn
  dsimp only
  split
  case _ => exact (next_keeps_trans (by simp)).1 (State.issueLane_keeps _ _ _)
  case _ => simp
  case _ => exact absurd rfl (h _)
  case _ => exact (next_keeps_trans (by simp)).1 (State.lodgeStep_keeps _ _)
  all_goals simp

theorem powerLaw_of_power {s t : State} (h : t.power = s.power) (hs : s.powerLaw) : t.powerLaw := by
  simp only [State.power, Prod.mk.injEq] at h
  obtain ⟨h1,h2,h3,h4,h5,h6,h7⟩ := h
  unfold State.powerLaw at *
  rw [h1,h2,h3,h4,h5,h6]; exact hs

end Sys2Proof.Machine
end

