-- ==== Sys2Proof/Laws/PowerTime.lean ====
section
/-!
SUPPORT. The boundary, the refill and the passing of time keep the law of the boost state (R412, R413).
-/
namespace Sys2Proof.Machine

/-! ## Operating points -/

@[simp] theorem State.rebase_foldl_power (l : List Nat) (c : Nat) (s : State) :
    (l.foldl (fun s i => s.rebase (32 * c + i)) s).power = s.power := foldl_power (fun _ _ => State.rebase_power _ _) _ _

/-- A change of operating point changes that table only. -/
theorem State.setPoint_spec (s : State) (c p : Nat) :
    ∃ o, (s.setPoint c p).power = { s with opPoint := o }.power ∧ ∀ x, look 0 o x = if x = c then p else look 0 s.opPoint x := by
  unfold State.setPoint
  split
  · exact ⟨s.opPoint, rfl, fun x => by split <;> simp_all⟩
  · refine ⟨put 0 s.opPoint c p, ?_, fun x => look_put ..⟩
    have h := State.rebase_foldl_power (List.range 32) c s
    simp only [State.power, Prod.mk.injEq] at h ⊢
    obtain ⟨h1, h2, h3, h4, h5, h6, h7⟩ := h
    exact ⟨h1, h2, by rw [h3], h4, h5, h6, h7⟩

/-- The law by its parts. -/
theorem powerLaw_intro {s t : State} (h : s.powerLaw) (hp : t.pool ≤ 64)
    (hc : t.charged - t.refilled = BitVec.ofNat 64 (64 - t.pool)) (hr : t.rotation < 4)
    (ho : ∀ x, look 0 t.opPoint x ≤ 2 ∨ look 0 t.opPoint x = look 0 s.opPoint x)
    (hn : ∀ x, look 0 t.refusals x ≤ 2 ∨ look 0 t.refusals x = look 0 s.refusals x) : t.powerLaw := by
  refine ⟨hp, hc, hr, fun c => ⟨?_, ?_⟩⟩
  · rcases ho c with h' | h'
    · exact h'
    · rw [h']; exact (h.2.2.2 c).1
  · rcases hn c with h' | h'
    · exact h'
    · rw [h']; exact (h.2.2.2 c).2

/-- A grant takes one permit. -/
theorem State.grant_law (s : State) (c : Nat) (h : s.powerLaw) (hp : 1 ≤ s.pool) :
    (s.grant c).powerLaw ∧ (s.grant c).pool = s.pool - 1 := by
  obtain ⟨o, ho, hx⟩ := s.setPoint_spec c 2
  simp only [State.power, Prod.mk.injEq] at ho
  obtain ⟨h1, h2, h3, h4, h5, h6, h7⟩ := ho
  refine ⟨powerLaw_intro h ?_ ?_ ?_ (fun x => ?_) fun x => ?_, rfl⟩
  · have := h.1
    simp only [State.grant]
    omega
  · simp only [State.grant]
    rw [h6]
    have hs := h.2.1
    have : BitVec.ofNat 64 (64 - (s.pool - 1)) = BitVec.ofNat 64 (64 - s.pool) + 1 := by
      have := h.1
      rw [show 64 - (s.pool - 1) = (64 - s.pool) + 1 by omega, BitVec.ofNat_add]
      rfl
    rw [this, ← hs]
    bv_omega
  · simp only [State.grant]
    rw [h2]; exact h.2.2.1
  · simp only [State.grant]
    rw [h3, hx]
    split
    · exact .inl (Nat.le_refl 2)
    · exact .inr rfl
  · simp only [State.grant, look_put]
    split
    · exact .inl (Nat.zero_le 2)
    · exact .inr rfl

/-- Another operating point of a cluster and another count of its refusals, both at most 2, keep the law and the pool. -/
theorem State.point_law (s : State) (c p n : Nat) (h : s.powerLaw) (hp : p ≤ 2) (hn : n ≤ 2) :
    ({ s.setPoint c p with refusals := put 0 s.refusals c n } : State).powerLaw ∧ (s.setPoint c p).pool = s.pool := by
  obtain ⟨o, ho, hx⟩ := s.setPoint_spec c p
  simp only [State.power, Prod.mk.injEq] at ho
  obtain ⟨h1, h2, h3, h4, h5, h6, h7⟩ := ho
  refine ⟨powerLaw_intro h ?_ ?_ ?_ (fun x => ?_) fun x => ?_, h1⟩
  · show (s.setPoint c p).pool ≤ 64
    rw [h1]; exact h.1
  · show (s.setPoint c p).charged - (s.setPoint c p).refilled = BitVec.ofNat 64 (64 - (s.setPoint c p).pool)
    rw [h1, h5, h6]; exact h.2.1
  · show (s.setPoint c p).rotation < 4
    rw [h2]; exact h.2.2.1
  · show look 0 (s.setPoint c p).opPoint x ≤ 2 ∨ _
    rw [h3, hx]
    split
    · exact .inl hp
    · exact .inr rfl
  · show look 0 (put 0 s.refusals c n) x ≤ 2 ∨ _
    rw [look_put]
    split
    · exact .inl hn
    · exact .inr rfl

theorem State.refuse_law (s : State) (c : Nat) (h : s.powerLaw) : (s.refuse c).powerLaw := by
  refine (s.point_law c _ _ h ?_ ?_).1
  · split <;> omega
  · omega

theorem State.atNominal_law (s : State) (c : Nat) (h : s.powerLaw) : (s.atNominal c).powerLaw :=
  (s.point_law c 0 0 h (by omega) (by omega)).1

theorem foldl_law {α : Type} {f : State → α → State} (h : ∀ s x, s.powerLaw → (f s x).powerLaw) (l : List α) (s : State)
    (hs : s.powerLaw) : (l.foldl f s).powerLaw := by
  induction l generalizing s with
  | nil => exact hs
  | cons x l ih => exact ih _ (h s x hs)

/-- As many grants as there are permits. -/
theorem State.grants_law (l : List Nat) (s : State) (h : s.powerLaw) (hl : l.length ≤ s.pool) :
    (l.foldl State.grant s).powerLaw := by
  induction l generalizing s with
  | nil => exact h
  | cons c l ih =>
    simp only [List.length_cons] at hl
    obtain ⟨h1, h2⟩ := s.grant_law c h (by omega)
    exact ih _ h1 (by omega)

/-! ## Boundary, refill, time -/

/-- The boundary keeps the law. -/
theorem State.boundary_law (s : State) (ceiling : Bool) (h : s.powerLaw) : (s.boundary ceiling).powerLaw := by
  unfold State.boundary
  dsimp only
  refine powerLaw_of_power ((State.evaluateDevice_power _ _).trans (State.evaluateDevice_power _ _)) (foldl_law State.atNominal_law _ _ (foldl_law State.refuse_law _ _ ?_))
  have hg : ((if (s.requests.isEmpty || ceiling) = true then [] else s.requests.take (min s.pool s.requests.length)).foldl
      State.grant s).powerLaw := by
    refine State.grants_law _ _ h ?_
    split
    · exact Nat.zero_le _
    · rw [List.length_take]; omega
  generalize (if (s.requests.isEmpty || ceiling) = true then [] else s.requests.take (min s.pool s.requests.length)) = l at hg ⊢
  split
  · split
    · exact hg
    · exact ⟨hg.1, hg.2.1, Nat.mod_lt _ (by decide), hg.2.2.2⟩
  · exact hg

theorem State.takeBoundary_law (s : State) (draw : Nat) (h : s.powerLaw) : (s.takeBoundary draw).powerLaw := by
  unfold State.takeBoundary
  split
  · exact s.boundary_law _ h
  · exact h

/-- The refill keeps the law: at most 64 permits. -/
theorem State.takeRefill_law (s : State) (draw : Nat) (h : s.powerLaw) : (s.takeRefill draw).powerLaw := by
  unfold State.takeRefill
  split
  · exact h
  · dsimp only
    split
    · rename_i hp
      refine powerLaw_of_power (State.evaluateDevice_power _ _) ⟨by have := hp.1; simp only; omega, ?_, h.2.2.1, h.2.2.2⟩
      have hs := h.2.1
      have hb : BitVec.ofNat 64 (64 - s.pool) = BitVec.ofNat 64 (64 - (s.pool + 1)) + 1 := by
        have := hp.1
        rw [show 64 - s.pool = (64 - (s.pool + 1)) + 1 by omega, BitVec.ofNat_add]
        rfl
      show s.charged - (s.refilled + 1) = BitVec.ofNat 64 (64 - (s.pool + 1))
      rw [hb] at hs
      bv_omega
    · exact h

theorem State.takeFree_law (s : State) (h : s.powerLaw) : s.takeFree.2.powerLaw := powerLaw_of_power (by simp) h

theorem State.leaveTick_law (s : State) (h : s.powerLaw) : s.leaveTick.powerLaw := by
  have h1 : (if s.windowDue = true then s.takeFree.2.takeRefill s.takeFree.1 else s).powerLaw := by
    split
    · exact State.takeRefill_law _ _ (s.takeFree_law h)
    · exact h
  have h2 (u : State) (hu : u.powerLaw) : (if u.boundaryDue = true then u.takeFree.2.takeBoundary u.takeFree.1 else u).powerLaw := by
    split
    · exact State.takeBoundary_law _ _ (State.takeFree_law _ hu)
    · exact hu
  exact h2 _ h1

theorem State.advanceTo_law (n : Nat) (s : State) (goal : Nat) (h : s.powerLaw) : (State.advanceTo n s goal).powerLaw := by
  induction n generalizing s with
  | zero => exact h
  | succ n ih =>
    unfold State.advanceTo
    split
    · exact h
    · refine ih _ (powerLaw_of_power (State.arrive_power _) (powerLaw_of_power (State.pass_power _ _) ?_))
      have := s.leaveTick_law h
      split
      · exact powerLaw_of_power (by simp) this
      · exact this

/-- The passing of time keeps the law. -/
theorem State.advance_law (s : State) (n : Nat) (h : s.powerLaw) : (s.advance n).powerLaw := State.advanceTo_law _ _ _ h

end Sys2Proof.Machine
end

