-- ==== Sys2Proof/Laws/State.lean ====
section
/-!
SUPPORT. The updates of a state by name: one lemma per field that an update leaves, and what is read after a write.
-/
namespace Sys2Proof.Machine

variable (s : State)

/-! ## `setCol` -/

@[simp] theorem State.setCol_now (c : Nat) (x : Column) : (s.setCol c x).now = s.now := rfl
@[simp] theorem State.setCol_agenda (c : Nat) (x : Column) : (s.setCol c x).agenda = s.agenda := rfl
@[simp] theorem State.setCol_cur (c : Nat) (x : Column) : (s.setCol c x).cur = s.cur := rfl
@[simp] theorem State.setCol_hart (c : Nat) (x : Column) : (s.setCol c x).hart = s.hart := rfl
@[simp] theorem State.setCol_freeCtr (c : Nat) (x : Column) : (s.setCol c x).freeCtr = s.freeCtr := rfl
@[simp] theorem State.setCol_nextSeq (c : Nat) (x : Column) : (s.setCol c x).nextSeq = s.nextSeq := rfl
@[simp] theorem State.setCol_nextToken (c : Nat) (x : Column) : (s.setCol c x).nextToken = s.nextToken := rfl
@[simp] theorem State.setCol_nextId (c : Nat) (x : Column) : (s.setCol c x).nextId = s.nextId := rfl
@[simp] theorem State.setCol_mem (c : Nat) (x : Column) : (s.setCol c x).mem = s.mem := rfl
@[simp] theorem State.setCol_poison (c : Nat) (x : Column) : (s.setCol c x).poison = s.poison := rfl
@[simp] theorem State.setCol_teams (c : Nat) (x : Column) : (s.setCol c x).teams = s.teams := rfl
@[simp] theorem State.setCol_saved (c : Nat) (x : Column) : (s.setCol c x).saved = s.saved := rfl
@[simp] theorem State.setCol_cores (c : Nat) (x : Column) : (s.setCol c x).cores = s.cores := rfl
@[simp] theorem State.setCol_harts (c : Nat) (x : Column) : (s.setCol c x).harts = s.harts := rfl
@[simp] theorem State.setCol_waiters (c : Nat) (x : Column) : (s.setCol c x).waiters = s.waiters := rfl
@[simp] theorem State.setCol_boundaries (c : Nat) (x : Column) : (s.setCol c x).boundaries = s.boundaries := rfl
@[simp] theorem State.setCol_windows (c : Nat) (x : Column) : (s.setCol c x).windows = s.windows := rfl
@[simp] theorem State.setCol_pool (c : Nat) (x : Column) : (s.setCol c x).pool = s.pool := rfl
@[simp] theorem State.setCol_rotation (c : Nat) (x : Column) : (s.setCol c x).rotation = s.rotation := rfl
@[simp] theorem State.setCol_breq (c : Nat) (x : Column) : (s.setCol c x).breq = s.breq := rfl
@[simp] theorem State.setCol_opPoint (c : Nat) (x : Column) : (s.setCol c x).opPoint = s.opPoint := rfl
@[simp] theorem State.setCol_refusals (c : Nat) (x : Column) : (s.setCol c x).refusals = s.refusals := rfl
@[simp] theorem State.setCol_charged (c : Nat) (x : Column) : (s.setCol c x).charged = s.charged := rfl
@[simp] theorem State.setCol_refilled (c : Nat) (x : Column) : (s.setCol c x).refilled = s.refilled := rfl
@[simp] theorem State.setCol_clusterCharged (c : Nat) (x : Column) : (s.setCol c x).clusterCharged = s.clusterCharged := rfl
@[simp] theorem State.setCol_pkgid (c : Nat) (x : Column) : (s.setCol c x).pkgid = s.pkgid := rfl
@[simp] theorem State.setCol_lostto (c : Nat) (x : Column) : (s.setCol c x).lostto = s.lostto := rfl
@[simp] theorem State.setCol_ports (c : Nat) (x : Column) : (s.setCol c x).ports = s.ports := rfl
@[simp] theorem State.setCol_route (c : Nat) (x : Column) : (s.setCol c x).route = s.route := rfl
@[simp] theorem State.setCol_stalled (c : Nat) (x : Column) : (s.setCol c x).stalled = s.stalled := rfl
@[simp] theorem State.setCol_pciewin (c : Nat) (x : Column) : (s.setCol c x).pciewin = s.pciewin := rfl
@[simp] theorem State.setCol_pcieDown (c : Nat) (x : Column) : (s.setCol c x).pcieDown = s.pcieDown := rfl
@[simp] theorem State.setCol_scopes (c : Nat) (x : Column) : (s.setCol c x).scopes = s.scopes := rfl
@[simp] theorem State.setCol_regions (c : Nat) (x : Column) : (s.setCol c x).regions = s.regions := rfl
@[simp] theorem State.setCol_spillSlots (c : Nat) (x : Column) : (s.setCol c x).spillSlots = s.spillSlots := rfl
@[simp] theorem State.setCol_ckpt (c : Nat) (x : Column) : (s.setCol c x).ckpt = s.ckpt := rfl
@[simp] theorem State.setCol_pav (c : Nat) (x : Column) : (s.setCol c x).pav = s.pav := rfl

/-! ## `modCol` -/

@[simp] theorem State.modCol_now (c : Nat) (f : Column → Column) : (s.modCol c f).now = s.now := rfl
@[simp] theorem State.modCol_agenda (c : Nat) (f : Column → Column) : (s.modCol c f).agenda = s.agenda := rfl
@[simp] theorem State.modCol_cur (c : Nat) (f : Column → Column) : (s.modCol c f).cur = s.cur := rfl
@[simp] theorem State.modCol_hart (c : Nat) (f : Column → Column) : (s.modCol c f).hart = s.hart := rfl
@[simp] theorem State.modCol_freeCtr (c : Nat) (f : Column → Column) : (s.modCol c f).freeCtr = s.freeCtr := rfl
@[simp] theorem State.modCol_nextSeq (c : Nat) (f : Column → Column) : (s.modCol c f).nextSeq = s.nextSeq := rfl
@[simp] theorem State.modCol_nextToken (c : Nat) (f : Column → Column) : (s.modCol c f).nextToken = s.nextToken := rfl
@[simp] theorem State.modCol_nextId (c : Nat) (f : Column → Column) : (s.modCol c f).nextId = s.nextId := rfl
@[simp] theorem State.modCol_mem (c : Nat) (f : Column → Column) : (s.modCol c f).mem = s.mem := rfl
@[simp] theorem State.modCol_poison (c : Nat) (f : Column → Column) : (s.modCol c f).poison = s.poison := rfl
@[simp] theorem State.modCol_teams (c : Nat) (f : Column → Column) : (s.modCol c f).teams = s.teams := rfl
@[simp] theorem State.modCol_saved (c : Nat) (f : Column → Column) : (s.modCol c f).saved = s.saved := rfl
@[simp] theorem State.modCol_cores (c : Nat) (f : Column → Column) : (s.modCol c f).cores = s.cores := rfl
@[simp] theorem State.modCol_harts (c : Nat) (f : Column → Column) : (s.modCol c f).harts = s.harts := rfl
@[simp] theorem State.modCol_waiters (c : Nat) (f : Column → Column) : (s.modCol c f).waiters = s.waiters := rfl
@[simp] theorem State.modCol_boundaries (c : Nat) (f : Column → Column) : (s.modCol c f).boundaries = s.boundaries := rfl
@[simp] theorem State.modCol_windows (c : Nat) (f : Column → Column) : (s.modCol c f).windows = s.windows := rfl
@[simp] theorem State.modCol_pool (c : Nat) (f : Column → Column) : (s.modCol c f).pool = s.pool := rfl
@[simp] theorem State.modCol_rotation (c : Nat) (f : Column → Column) : (s.modCol c f).rotation = s.rotation := rfl
@[simp] theorem State.modCol_breq (c : Nat) (f : Column → Column) : (s.modCol c f).breq = s.breq := rfl
@[simp] theorem State.modCol_opPoint (c : Nat) (f : Column → Column) : (s.modCol c f).opPoint = s.opPoint := rfl
@[simp] theorem State.modCol_refusals (c : Nat) (f : Column → Column) : (s.modCol c f).refusals = s.refusals := rfl
@[simp] theorem State.modCol_charged (c : Nat) (f : Column → Column) : (s.modCol c f).charged = s.charged := rfl
@[simp] theorem State.modCol_refilled (c : Nat) (f : Column → Column) : (s.modCol c f).refilled = s.refilled := rfl
@[simp] theorem State.modCol_clusterCharged (c : Nat) (f : Column → Column) : (s.modCol c f).clusterCharged = s.clusterCharged := rfl
@[simp] theorem State.modCol_pkgid (c : Nat) (f : Column → Column) : (s.modCol c f).pkgid = s.pkgid := rfl
@[simp] theorem State.modCol_lostto (c : Nat) (f : Column → Column) : (s.modCol c f).lostto = s.lostto := rfl
@[simp] theorem State.modCol_ports (c : Nat) (f : Column → Column) : (s.modCol c f).ports = s.ports := rfl
@[simp] theorem State.modCol_route (c : Nat) (f : Column → Column) : (s.modCol c f).route = s.route := rfl
@[simp] theorem State.modCol_stalled (c : Nat) (f : Column → Column) : (s.modCol c f).stalled = s.stalled := rfl
@[simp] theorem State.modCol_pciewin (c : Nat) (f : Column → Column) : (s.modCol c f).pciewin = s.pciewin := rfl
@[simp] theorem State.modCol_pcieDown (c : Nat) (f : Column → Column) : (s.modCol c f).pcieDown = s.pcieDown := rfl
@[simp] theorem State.modCol_scopes (c : Nat) (f : Column → Column) : (s.modCol c f).scopes = s.scopes := rfl
@[simp] theorem State.modCol_regions (c : Nat) (f : Column → Column) : (s.modCol c f).regions = s.regions := rfl
@[simp] theorem State.modCol_spillSlots (c : Nat) (f : Column → Column) : (s.modCol c f).spillSlots = s.spillSlots := rfl
@[simp] theorem State.modCol_ckpt (c : Nat) (f : Column → Column) : (s.modCol c f).ckpt = s.ckpt := rfl
@[simp] theorem State.modCol_pav (c : Nat) (f : Column → Column) : (s.modCol c f).pav = s.pav := rfl

/-! ## `setCore` -/

@[simp] theorem State.setCore_now (k : Nat) (x : Core) : (s.setCore k x).now = s.now := rfl
@[simp] theorem State.setCore_agenda (k : Nat) (x : Core) : (s.setCore k x).agenda = s.agenda := rfl
@[simp] theorem State.setCore_cur (k : Nat) (x : Core) : (s.setCore k x).cur = s.cur := rfl
@[simp] theorem State.setCore_hart (k : Nat) (x : Core) : (s.setCore k x).hart = s.hart := rfl
@[simp] theorem State.setCore_freeCtr (k : Nat) (x : Core) : (s.setCore k x).freeCtr = s.freeCtr := rfl
@[simp] theorem State.setCore_nextSeq (k : Nat) (x : Core) : (s.setCore k x).nextSeq = s.nextSeq := rfl
@[simp] theorem State.setCore_nextToken (k : Nat) (x : Core) : (s.setCore k x).nextToken = s.nextToken := rfl
@[simp] theorem State.setCore_nextId (k : Nat) (x : Core) : (s.setCore k x).nextId = s.nextId := rfl
@[simp] theorem State.setCore_mem (k : Nat) (x : Core) : (s.setCore k x).mem = s.mem := rfl
@[simp] theorem State.setCore_poison (k : Nat) (x : Core) : (s.setCore k x).poison = s.poison := rfl
@[simp] theorem State.setCore_teams (k : Nat) (x : Core) : (s.setCore k x).teams = s.teams := rfl
@[simp] theorem State.setCore_saved (k : Nat) (x : Core) : (s.setCore k x).saved = s.saved := rfl
@[simp] theorem State.setCore_columns (k : Nat) (x : Core) : (s.setCore k x).columns = s.columns := rfl
@[simp] theorem State.setCore_harts (k : Nat) (x : Core) : (s.setCore k x).harts = s.harts := rfl
@[simp] theorem State.setCore_waiters (k : Nat) (x : Core) : (s.setCore k x).waiters = s.waiters := rfl
@[simp] theorem State.setCore_boundaries (k : Nat) (x : Core) : (s.setCore k x).boundaries = s.boundaries := rfl
@[simp] theorem State.setCore_windows (k : Nat) (x : Core) : (s.setCore k x).windows = s.windows := rfl
@[simp] theorem State.setCore_pool (k : Nat) (x : Core) : (s.setCore k x).pool = s.pool := rfl
@[simp] theorem State.setCore_rotation (k : Nat) (x : Core) : (s.setCore k x).rotation = s.rotation := rfl
@[simp] theorem State.setCore_breq (k : Nat) (x : Core) : (s.setCore k x).breq = s.breq := rfl
@[simp] theorem State.setCore_opPoint (k : Nat) (x : Core) : (s.setCore k x).opPoint = s.opPoint := rfl
@[simp] theorem State.setCore_refusals (k : Nat) (x : Core) : (s.setCore k x).refusals = s.refusals := rfl
@[simp] theorem State.setCore_charged (k : Nat) (x : Core) : (s.setCore k x).charged = s.charged := rfl
@[simp] theorem State.setCore_refilled (k : Nat) (x : Core) : (s.setCore k x).refilled = s.refilled := rfl
@[simp] theorem State.setCore_clusterCharged (k : Nat) (x : Core) : (s.setCore k x).clusterCharged = s.clusterCharged := rfl
@[simp] theorem State.setCore_pkgid (k : Nat) (x : Core) : (s.setCore k x).pkgid = s.pkgid := rfl
@[simp] theorem State.setCore_lostto (k : Nat) (x : Core) : (s.setCore k x).lostto = s.lostto := rfl
@[simp] theorem State.setCore_ports (k : Nat) (x : Core) : (s.setCore k x).ports = s.ports := rfl
@[simp] theorem State.setCore_route (k : Nat) (x : Core) : (s.setCore k x).route = s.route := rfl
@[simp] theorem State.setCore_stalled (k : Nat) (x : Core) : (s.setCore k x).stalled = s.stalled := rfl
@[simp] theorem State.setCore_pciewin (k : Nat) (x : Core) : (s.setCore k x).pciewin = s.pciewin := rfl
@[simp] theorem State.setCore_pcieDown (k : Nat) (x : Core) : (s.setCore k x).pcieDown = s.pcieDown := rfl
@[simp] theorem State.setCore_scopes (k : Nat) (x : Core) : (s.setCore k x).scopes = s.scopes := rfl
@[simp] theorem State.setCore_regions (k : Nat) (x : Core) : (s.setCore k x).regions = s.regions := rfl
@[simp] theorem State.setCore_spillSlots (k : Nat) (x : Core) : (s.setCore k x).spillSlots = s.spillSlots := rfl
@[simp] theorem State.setCore_ckpt (k : Nat) (x : Core) : (s.setCore k x).ckpt = s.ckpt := rfl
@[simp] theorem State.setCore_pav (k : Nat) (x : Core) : (s.setCore k x).pav = s.pav := rfl

/-! ## `modCore` -/

@[simp] theorem State.modCore_now (k : Nat) (f : Core → Core) : (s.modCore k f).now = s.now := rfl
@[simp] theorem State.modCore_agenda (k : Nat) (f : Core → Core) : (s.modCore k f).agenda = s.agenda := rfl
@[simp] theorem State.modCore_cur (k : Nat) (f : Core → Core) : (s.modCore k f).cur = s.cur := rfl
@[simp] theorem State.modCore_hart (k : Nat) (f : Core → Core) : (s.modCore k f).hart = s.hart := rfl
@[simp] theorem State.modCore_freeCtr (k : Nat) (f : Core → Core) : (s.modCore k f).freeCtr = s.freeCtr := rfl
@[simp] theorem State.modCore_nextSeq (k : Nat) (f : Core → Core) : (s.modCore k f).nextSeq = s.nextSeq := rfl
@[simp] theorem State.modCore_nextToken (k : Nat) (f : Core → Core) : (s.modCore k f).nextToken = s.nextToken := rfl
@[simp] theorem State.modCore_nextId (k : Nat) (f : Core → Core) : (s.modCore k f).nextId = s.nextId := rfl
@[simp] theorem State.modCore_mem (k : Nat) (f : Core → Core) : (s.modCore k f).mem = s.mem := rfl
@[simp] theorem State.modCore_poison (k : Nat) (f : Core → Core) : (s.modCore k f).poison = s.poison := rfl
@[simp] theorem State.modCore_teams (k : Nat) (f : Core → Core) : (s.modCore k f).teams = s.teams := rfl
@[simp] theorem State.modCore_saved (k : Nat) (f : Core → Core) : (s.modCore k f).saved = s.saved := rfl
@[simp] theorem State.modCore_columns (k : Nat) (f : Core → Core) : (s.modCore k f).columns = s.columns := rfl
@[simp] theorem State.modCore_harts (k : Nat) (f : Core → Core) : (s.modCore k f).harts = s.harts := rfl
@[simp] theorem State.modCore_waiters (k : Nat) (f : Core → Core) : (s.modCore k f).waiters = s.waiters := rfl
@[simp] theorem State.modCore_boundaries (k : Nat) (f : Core → Core) : (s.modCore k f).boundaries = s.boundaries := rfl
@[simp] theorem State.modCore_windows (k : Nat) (f : Core → Core) : (s.modCore k f).windows = s.windows := rfl
@[simp] theorem State.modCore_pool (k : Nat) (f : Core → Core) : (s.modCore k f).pool = s.pool := rfl
@[simp] theorem State.modCore_rotation (k : Nat) (f : Core → Core) : (s.modCore k f).rotation = s.rotation := rfl
@[simp] theorem State.modCore_breq (k : Nat) (f : Core → Core) : (s.modCore k f).breq = s.breq := rfl
@[simp] theorem State.modCore_opPoint (k : Nat) (f : Core → Core) : (s.modCore k f).opPoint = s.opPoint := rfl
@[simp] theorem State.modCore_refusals (k : Nat) (f : Core → Core) : (s.modCore k f).refusals = s.refusals := rfl
@[simp] theorem State.modCore_charged (k : Nat) (f : Core → Core) : (s.modCore k f).charged = s.charged := rfl
@[simp] theorem State.modCore_refilled (k : Nat) (f : Core → Core) : (s.modCore k f).refilled = s.refilled := rfl
@[simp] theorem State.modCore_clusterCharged (k : Nat) (f : Core → Core) : (s.modCore k f).clusterCharged = s.clusterCharged := rfl
@[simp] theorem State.modCore_pkgid (k : Nat) (f : Core → Core) : (s.modCore k f).pkgid = s.pkgid := rfl
@[simp] theorem State.modCore_lostto (k : Nat) (f : Core → Core) : (s.modCore k f).lostto = s.lostto := rfl
@[simp] theorem State.modCore_ports (k : Nat) (f : Core → Core) : (s.modCore k f).ports = s.ports := rfl
@[simp] theorem State.modCore_route (k : Nat) (f : Core → Core) : (s.modCore k f).route = s.route := rfl
@[simp] theorem State.modCore_stalled (k : Nat) (f : Core → Core) : (s.modCore k f).stalled = s.stalled := rfl
@[simp] theorem State.modCore_pciewin (k : Nat) (f : Core → Core) : (s.modCore k f).pciewin = s.pciewin := rfl
@[simp] theorem State.modCore_pcieDown (k : Nat) (f : Core → Core) : (s.modCore k f).pcieDown = s.pcieDown := rfl
@[simp] theorem State.modCore_scopes (k : Nat) (f : Core → Core) : (s.modCore k f).scopes = s.scopes := rfl
@[simp] theorem State.modCore_regions (k : Nat) (f : Core → Core) : (s.modCore k f).regions = s.regions := rfl
@[simp] theorem State.modCore_spillSlots (k : Nat) (f : Core → Core) : (s.modCore k f).spillSlots = s.spillSlots := rfl
@[simp] theorem State.modCore_ckpt (k : Nat) (f : Core → Core) : (s.modCore k f).ckpt = s.ckpt := rfl
@[simp] theorem State.modCore_pav (k : Nat) (f : Core → Core) : (s.modCore k f).pav = s.pav := rfl

/-! ## `modLane` -/

@[simp] theorem State.modLane_now (k l : Nat) (f : Lane → Lane) : (s.modLane k l f).now = s.now := rfl
@[simp] theorem State.modLane_agenda (k l : Nat) (f : Lane → Lane) : (s.modLane k l f).agenda = s.agenda := rfl
@[simp] theorem State.modLane_cur (k l : Nat) (f : Lane → Lane) : (s.modLane k l f).cur = s.cur := rfl
@[simp] theorem State.modLane_hart (k l : Nat) (f : Lane → Lane) : (s.modLane k l f).hart = s.hart := rfl
@[simp] theorem State.modLane_freeCtr (k l : Nat) (f : Lane → Lane) : (s.modLane k l f).freeCtr = s.freeCtr := rfl
@[simp] theorem State.modLane_nextSeq (k l : Nat) (f : Lane → Lane) : (s.modLane k l f).nextSeq = s.nextSeq := rfl
@[simp] theorem State.modLane_nextToken (k l : Nat) (f : Lane → Lane) : (s.modLane k l f).nextToken = s.nextToken := rfl
@[simp] theorem State.modLane_nextId (k l : Nat) (f : Lane → Lane) : (s.modLane k l f).nextId = s.nextId := rfl
@[simp] theorem State.modLane_mem (k l : Nat) (f : Lane → Lane) : (s.modLane k l f).mem = s.mem := rfl
@[simp] theorem State.modLane_poison (k l : Nat) (f : Lane → Lane) : (s.modLane k l f).poison = s.poison := rfl
@[simp] theorem State.modLane_teams (k l : Nat) (f : Lane → Lane) : (s.modLane k l f).teams = s.teams := rfl
@[simp] theorem State.modLane_saved (k l : Nat) (f : Lane → Lane) : (s.modLane k l f).saved = s.saved := rfl
@[simp] theorem State.modLane_columns (k l : Nat) (f : Lane → Lane) : (s.modLane k l f).columns = s.columns := rfl
@[simp] theorem State.modLane_harts (k l : Nat) (f : Lane → Lane) : (s.modLane k l f).harts = s.harts := rfl
@[simp] theorem State.modLane_waiters (k l : Nat) (f : Lane → Lane) : (s.modLane k l f).waiters = s.waiters := rfl
@[simp] theorem State.modLane_boundaries (k l : Nat) (f : Lane → Lane) : (s.modLane k l f).boundaries = s.boundaries := rfl
@[simp] theorem State.modLane_windows (k l : Nat) (f : Lane → Lane) : (s.modLane k l f).windows = s.windows := rfl
@[simp] theorem State.modLane_pool (k l : Nat) (f : Lane → Lane) : (s.modLane k l f).pool = s.pool := rfl
@[simp] theorem State.modLane_rotation (k l : Nat) (f : Lane → Lane) : (s.modLane k l f).rotation = s.rotation := rfl
@[simp] theorem State.modLane_breq (k l : Nat) (f : Lane → Lane) : (s.modLane k l f).breq = s.breq := rfl
@[simp] theorem State.modLane_opPoint (k l : Nat) (f : Lane → Lane) : (s.modLane k l f).opPoint = s.opPoint := rfl
@[simp] theorem State.modLane_refusals (k l : Nat) (f : Lane → Lane) : (s.modLane k l f).refusals = s.refusals := rfl
@[simp] theorem State.modLane_charged (k l : Nat) (f : Lane → Lane) : (s.modLane k l f).charged = s.charged := rfl
@[simp] theorem State.modLane_refilled (k l : Nat) (f : Lane → Lane) : (s.modLane k l f).refilled = s.refilled := rfl
@[simp] theorem State.modLane_clusterCharged (k l : Nat) (f : Lane → Lane) : (s.modLane k l f).clusterCharged = s.clusterCharged := rfl
@[simp] theorem State.modLane_pkgid (k l : Nat) (f : Lane → Lane) : (s.modLane k l f).pkgid = s.pkgid := rfl
@[simp] theorem State.modLane_lostto (k l : Nat) (f : Lane → Lane) : (s.modLane k l f).lostto = s.lostto := rfl
@[simp] theorem State.modLane_ports (k l : Nat) (f : Lane → Lane) : (s.modLane k l f).ports = s.ports := rfl
@[simp] theorem State.modLane_route (k l : Nat) (f : Lane → Lane) : (s.modLane k l f).route = s.route := rfl
@[simp] theorem State.modLane_stalled (k l : Nat) (f : Lane → Lane) : (s.modLane k l f).stalled = s.stalled := rfl
@[simp] theorem State.modLane_pciewin (k l : Nat) (f : Lane → Lane) : (s.modLane k l f).pciewin = s.pciewin := rfl
@[simp] theorem State.modLane_pcieDown (k l : Nat) (f : Lane → Lane) : (s.modLane k l f).pcieDown = s.pcieDown := rfl
@[simp] theorem State.modLane_scopes (k l : Nat) (f : Lane → Lane) : (s.modLane k l f).scopes = s.scopes := rfl
@[simp] theorem State.modLane_regions (k l : Nat) (f : Lane → Lane) : (s.modLane k l f).regions = s.regions := rfl
@[simp] theorem State.modLane_spillSlots (k l : Nat) (f : Lane → Lane) : (s.modLane k l f).spillSlots = s.spillSlots := rfl
@[simp] theorem State.modLane_ckpt (k l : Nat) (f : Lane → Lane) : (s.modLane k l f).ckpt = s.ckpt := rfl
@[simp] theorem State.modLane_pav (k l : Nat) (f : Lane → Lane) : (s.modLane k l f).pav = s.pav := rfl

/-! ## `modReq` -/

@[simp] theorem State.modReq_now (k i : Nat) (f : CopyReq → CopyReq) : (s.modReq k i f).now = s.now := rfl
@[simp] theorem State.modReq_agenda (k i : Nat) (f : CopyReq → CopyReq) : (s.modReq k i f).agenda = s.agenda := rfl
@[simp] theorem State.modReq_cur (k i : Nat) (f : CopyReq → CopyReq) : (s.modReq k i f).cur = s.cur := rfl
@[simp] theorem State.modReq_hart (k i : Nat) (f : CopyReq → CopyReq) : (s.modReq k i f).hart = s.hart := rfl
@[simp] theorem State.modReq_freeCtr (k i : Nat) (f : CopyReq → CopyReq) : (s.modReq k i f).freeCtr = s.freeCtr := rfl
@[simp] theorem State.modReq_nextSeq (k i : Nat) (f : CopyReq → CopyReq) : (s.modReq k i f).nextSeq = s.nextSeq := rfl
@[simp] theorem State.modReq_nextToken (k i : Nat) (f : CopyReq → CopyReq) : (s.modReq k i f).nextToken = s.nextToken := rfl
@[simp] theorem State.modReq_nextId (k i : Nat) (f : CopyReq → CopyReq) : (s.modReq k i f).nextId = s.nextId := rfl
@[simp] theorem State.modReq_mem (k i : Nat) (f : CopyReq → CopyReq) : (s.modReq k i f).mem = s.mem := rfl
@[simp] theorem State.modReq_poison (k i : Nat) (f : CopyReq → CopyReq) : (s.modReq k i f).poison = s.poison := rfl
@[simp] theorem State.modReq_teams (k i : Nat) (f : CopyReq → CopyReq) : (s.modReq k i f).teams = s.teams := rfl
@[simp] theorem State.modReq_saved (k i : Nat) (f : CopyReq → CopyReq) : (s.modReq k i f).saved = s.saved := rfl
@[simp] theorem State.modReq_columns (k i : Nat) (f : CopyReq → CopyReq) : (s.modReq k i f).columns = s.columns := rfl
@[simp] theorem State.modReq_harts (k i : Nat) (f : CopyReq → CopyReq) : (s.modReq k i f).harts = s.harts := rfl
@[simp] theorem State.modReq_waiters (k i : Nat) (f : CopyReq → CopyReq) : (s.modReq k i f).waiters = s.waiters := rfl
@[simp] theorem State.modReq_boundaries (k i : Nat) (f : CopyReq → CopyReq) : (s.modReq k i f).boundaries = s.boundaries := rfl
@[simp] theorem State.modReq_windows (k i : Nat) (f : CopyReq → CopyReq) : (s.modReq k i f).windows = s.windows := rfl
@[simp] theorem State.modReq_pool (k i : Nat) (f : CopyReq → CopyReq) : (s.modReq k i f).pool = s.pool := rfl
@[simp] theorem State.modReq_rotation (k i : Nat) (f : CopyReq → CopyReq) : (s.modReq k i f).rotation = s.rotation := rfl
@[simp] theorem State.modReq_breq (k i : Nat) (f : CopyReq → CopyReq) : (s.modReq k i f).breq = s.breq := rfl
@[simp] theorem State.modReq_opPoint (k i : Nat) (f : CopyReq → CopyReq) : (s.modReq k i f).opPoint = s.opPoint := rfl
@[simp] theorem State.modReq_refusals (k i : Nat) (f : CopyReq → CopyReq) : (s.modReq k i f).refusals = s.refusals := rfl
@[simp] theorem State.modReq_charged (k i : Nat) (f : CopyReq → CopyReq) : (s.modReq k i f).charged = s.charged := rfl
@[simp] theorem State.modReq_refilled (k i : Nat) (f : CopyReq → CopyReq) : (s.modReq k i f).refilled = s.refilled := rfl
@[simp] theorem State.modReq_clusterCharged (k i : Nat) (f : CopyReq → CopyReq) : (s.modReq k i f).clusterCharged = s.clusterCharged := rfl
@[simp] theorem State.modReq_pkgid (k i : Nat) (f : CopyReq → CopyReq) : (s.modReq k i f).pkgid = s.pkgid := rfl
@[simp] theorem State.modReq_lostto (k i : Nat) (f : CopyReq → CopyReq) : (s.modReq k i f).lostto = s.lostto := rfl
@[simp] theorem State.modReq_ports (k i : Nat) (f : CopyReq → CopyReq) : (s.modReq k i f).ports = s.ports := rfl
@[simp] theorem State.modReq_route (k i : Nat) (f : CopyReq → CopyReq) : (s.modReq k i f).route = s.route := rfl
@[simp] theorem State.modReq_stalled (k i : Nat) (f : CopyReq → CopyReq) : (s.modReq k i f).stalled = s.stalled := rfl
@[simp] theorem State.modReq_pciewin (k i : Nat) (f : CopyReq → CopyReq) : (s.modReq k i f).pciewin = s.pciewin := rfl
@[simp] theorem State.modReq_pcieDown (k i : Nat) (f : CopyReq → CopyReq) : (s.modReq k i f).pcieDown = s.pcieDown := rfl
@[simp] theorem State.modReq_scopes (k i : Nat) (f : CopyReq → CopyReq) : (s.modReq k i f).scopes = s.scopes := rfl
@[simp] theorem State.modReq_regions (k i : Nat) (f : CopyReq → CopyReq) : (s.modReq k i f).regions = s.regions := rfl
@[simp] theorem State.modReq_spillSlots (k i : Nat) (f : CopyReq → CopyReq) : (s.modReq k i f).spillSlots = s.spillSlots := rfl
@[simp] theorem State.modReq_ckpt (k i : Nat) (f : CopyReq → CopyReq) : (s.modReq k i f).ckpt = s.ckpt := rfl
@[simp] theorem State.modReq_pav (k i : Nat) (f : CopyReq → CopyReq) : (s.modReq k i f).pav = s.pav := rfl

/-! ## `modHart` -/

@[simp] theorem State.modHart_now (h : Nat) (f : Hart → Hart) : (s.modHart h f).now = s.now := rfl
@[simp] theorem State.modHart_agenda (h : Nat) (f : Hart → Hart) : (s.modHart h f).agenda = s.agenda := rfl
@[simp] theorem State.modHart_cur (h : Nat) (f : Hart → Hart) : (s.modHart h f).cur = s.cur := rfl
@[simp] theorem State.modHart_hart (h : Nat) (f : Hart → Hart) : (s.modHart h f).hart = s.hart := rfl
@[simp] theorem State.modHart_freeCtr (h : Nat) (f : Hart → Hart) : (s.modHart h f).freeCtr = s.freeCtr := rfl
@[simp] theorem State.modHart_nextSeq (h : Nat) (f : Hart → Hart) : (s.modHart h f).nextSeq = s.nextSeq := rfl
@[simp] theorem State.modHart_nextToken (h : Nat) (f : Hart → Hart) : (s.modHart h f).nextToken = s.nextToken := rfl
@[simp] theorem State.modHart_nextId (h : Nat) (f : Hart → Hart) : (s.modHart h f).nextId = s.nextId := rfl
@[simp] theorem State.modHart_mem (h : Nat) (f : Hart → Hart) : (s.modHart h f).mem = s.mem := rfl
@[simp] theorem State.modHart_poison (h : Nat) (f : Hart → Hart) : (s.modHart h f).poison = s.poison := rfl
@[simp] theorem State.modHart_teams (h : Nat) (f : Hart → Hart) : (s.modHart h f).teams = s.teams := rfl
@[simp] theorem State.modHart_saved (h : Nat) (f : Hart → Hart) : (s.modHart h f).saved = s.saved := rfl
@[simp] theorem State.modHart_cores (h : Nat) (f : Hart → Hart) : (s.modHart h f).cores = s.cores := rfl
@[simp] theorem State.modHart_columns (h : Nat) (f : Hart → Hart) : (s.modHart h f).columns = s.columns := rfl
@[simp] theorem State.modHart_waiters (h : Nat) (f : Hart → Hart) : (s.modHart h f).waiters = s.waiters := rfl
@[simp] theorem State.modHart_boundaries (h : Nat) (f : Hart → Hart) : (s.modHart h f).boundaries = s.boundaries := rfl
@[simp] theorem State.modHart_windows (h : Nat) (f : Hart → Hart) : (s.modHart h f).windows = s.windows := rfl
@[simp] theorem State.modHart_pool (h : Nat) (f : Hart → Hart) : (s.modHart h f).pool = s.pool := rfl
@[simp] theorem State.modHart_rotation (h : Nat) (f : Hart → Hart) : (s.modHart h f).rotation = s.rotation := rfl
@[simp] theorem State.modHart_breq (h : Nat) (f : Hart → Hart) : (s.modHart h f).breq = s.breq := rfl
@[simp] theorem State.modHart_opPoint (h : Nat) (f : Hart → Hart) : (s.modHart h f).opPoint = s.opPoint := rfl
@[simp] theorem State.modHart_refusals (h : Nat) (f : Hart → Hart) : (s.modHart h f).refusals = s.refusals := rfl
@[simp] theorem State.modHart_charged (h : Nat) (f : Hart → Hart) : (s.modHart h f).charged = s.charged := rfl
@[simp] theorem State.modHart_refilled (h : Nat) (f : Hart → Hart) : (s.modHart h f).refilled = s.refilled := rfl
@[simp] theorem State.modHart_clusterCharged (h : Nat) (f : Hart → Hart) : (s.modHart h f).clusterCharged = s.clusterCharged := rfl
@[simp] theorem State.modHart_pkgid (h : Nat) (f : Hart → Hart) : (s.modHart h f).pkgid = s.pkgid := rfl
@[simp] theorem State.modHart_lostto (h : Nat) (f : Hart → Hart) : (s.modHart h f).lostto = s.lostto := rfl
@[simp] theorem State.modHart_ports (h : Nat) (f : Hart → Hart) : (s.modHart h f).ports = s.ports := rfl
@[simp] theorem State.modHart_route (h : Nat) (f : Hart → Hart) : (s.modHart h f).route = s.route := rfl
@[simp] theorem State.modHart_stalled (h : Nat) (f : Hart → Hart) : (s.modHart h f).stalled = s.stalled := rfl
@[simp] theorem State.modHart_pciewin (h : Nat) (f : Hart → Hart) : (s.modHart h f).pciewin = s.pciewin := rfl
@[simp] theorem State.modHart_pcieDown (h : Nat) (f : Hart → Hart) : (s.modHart h f).pcieDown = s.pcieDown := rfl
@[simp] theorem State.modHart_scopes (h : Nat) (f : Hart → Hart) : (s.modHart h f).scopes = s.scopes := rfl
@[simp] theorem State.modHart_regions (h : Nat) (f : Hart → Hart) : (s.modHart h f).regions = s.regions := rfl
@[simp] theorem State.modHart_spillSlots (h : Nat) (f : Hart → Hart) : (s.modHart h f).spillSlots = s.spillSlots := rfl
@[simp] theorem State.modHart_ckpt (h : Nat) (f : Hart → Hart) : (s.modHart h f).ckpt = s.ckpt := rfl
@[simp] theorem State.modHart_pav (h : Nat) (f : Hart → Hart) : (s.modHart h f).pav = s.pav := rfl

/-! ## `modCkpt` -/

@[simp] theorem State.modCkpt_now (i : Nat) (f : Checkpoint → Checkpoint) : (s.modCkpt i f).now = s.now := rfl
@[simp] theorem State.modCkpt_agenda (i : Nat) (f : Checkpoint → Checkpoint) : (s.modCkpt i f).agenda = s.agenda := rfl
@[simp] theorem State.modCkpt_cur (i : Nat) (f : Checkpoint → Checkpoint) : (s.modCkpt i f).cur = s.cur := rfl
@[simp] theorem State.modCkpt_hart (i : Nat) (f : Checkpoint → Checkpoint) : (s.modCkpt i f).hart = s.hart := rfl
@[simp] theorem State.modCkpt_freeCtr (i : Nat) (f : Checkpoint → Checkpoint) : (s.modCkpt i f).freeCtr = s.freeCtr := rfl
@[simp] theorem State.modCkpt_nextSeq (i : Nat) (f : Checkpoint → Checkpoint) : (s.modCkpt i f).nextSeq = s.nextSeq := rfl
@[simp] theorem State.modCkpt_nextToken (i : Nat) (f : Checkpoint → Checkpoint) : (s.modCkpt i f).nextToken = s.nextToken := rfl
@[simp] theorem State.modCkpt_nextId (i : Nat) (f : Checkpoint → Checkpoint) : (s.modCkpt i f).nextId = s.nextId := rfl
@[simp] theorem State.modCkpt_mem (i : Nat) (f : Checkpoint → Checkpoint) : (s.modCkpt i f).mem = s.mem := rfl
@[simp] theorem State.modCkpt_poison (i : Nat) (f : Checkpoint → Checkpoint) : (s.modCkpt i f).poison = s.poison := rfl
@[simp] theorem State.modCkpt_teams (i : Nat) (f : Checkpoint → Checkpoint) : (s.modCkpt i f).teams = s.teams := rfl
@[simp] theorem State.modCkpt_saved (i : Nat) (f : Checkpoint → Checkpoint) : (s.modCkpt i f).saved = s.saved := rfl
@[simp] theorem State.modCkpt_cores (i : Nat) (f : Checkpoint → Checkpoint) : (s.modCkpt i f).cores = s.cores := rfl
@[simp] theorem State.modCkpt_columns (i : Nat) (f : Checkpoint → Checkpoint) : (s.modCkpt i f).columns = s.columns := rfl
@[simp] theorem State.modCkpt_harts (i : Nat) (f : Checkpoint → Checkpoint) : (s.modCkpt i f).harts = s.harts := rfl
@[simp] theorem State.modCkpt_waiters (i : Nat) (f : Checkpoint → Checkpoint) : (s.modCkpt i f).waiters = s.waiters := rfl
@[simp] theorem State.modCkpt_boundaries (i : Nat) (f : Checkpoint → Checkpoint) : (s.modCkpt i f).boundaries = s.boundaries := rfl
@[simp] theorem State.modCkpt_windows (i : Nat) (f : Checkpoint → Checkpoint) : (s.modCkpt i f).windows = s.windows := rfl
@[simp] theorem State.modCkpt_pool (i : Nat) (f : Checkpoint → Checkpoint) : (s.modCkpt i f).pool = s.pool := rfl
@[simp] theorem State.modCkpt_rotation (i : Nat) (f : Checkpoint → Checkpoint) : (s.modCkpt i f).rotation = s.rotation := rfl
@[simp] theorem State.modCkpt_breq (i : Nat) (f : Checkpoint → Checkpoint) : (s.modCkpt i f).breq = s.breq := rfl
@[simp] theorem State.modCkpt_opPoint (i : Nat) (f : Checkpoint → Checkpoint) : (s.modCkpt i f).opPoint = s.opPoint := rfl
@[simp] theorem State.modCkpt_refusals (i : Nat) (f : Checkpoint → Checkpoint) : (s.modCkpt i f).refusals = s.refusals := rfl
@[simp] theorem State.modCkpt_charged (i : Nat) (f : Checkpoint → Checkpoint) : (s.modCkpt i f).charged = s.charged := rfl
@[simp] theorem State.modCkpt_refilled (i : Nat) (f : Checkpoint → Checkpoint) : (s.modCkpt i f).refilled = s.refilled := rfl
@[simp] theorem State.modCkpt_clusterCharged (i : Nat) (f : Checkpoint → Checkpoint) : (s.modCkpt i f).clusterCharged = s.clusterCharged := rfl
@[simp] theorem State.modCkpt_pkgid (i : Nat) (f : Checkpoint → Checkpoint) : (s.modCkpt i f).pkgid = s.pkgid := rfl
@[simp] theorem State.modCkpt_lostto (i : Nat) (f : Checkpoint → Checkpoint) : (s.modCkpt i f).lostto = s.lostto := rfl
@[simp] theorem State.modCkpt_ports (i : Nat) (f : Checkpoint → Checkpoint) : (s.modCkpt i f).ports = s.ports := rfl
@[simp] theorem State.modCkpt_route (i : Nat) (f : Checkpoint → Checkpoint) : (s.modCkpt i f).route = s.route := rfl
@[simp] theorem State.modCkpt_stalled (i : Nat) (f : Checkpoint → Checkpoint) : (s.modCkpt i f).stalled = s.stalled := rfl
@[simp] theorem State.modCkpt_pciewin (i : Nat) (f : Checkpoint → Checkpoint) : (s.modCkpt i f).pciewin = s.pciewin := rfl
@[simp] theorem State.modCkpt_pcieDown (i : Nat) (f : Checkpoint → Checkpoint) : (s.modCkpt i f).pcieDown = s.pcieDown := rfl
@[simp] theorem State.modCkpt_scopes (i : Nat) (f : Checkpoint → Checkpoint) : (s.modCkpt i f).scopes = s.scopes := rfl
@[simp] theorem State.modCkpt_regions (i : Nat) (f : Checkpoint → Checkpoint) : (s.modCkpt i f).regions = s.regions := rfl
@[simp] theorem State.modCkpt_spillSlots (i : Nat) (f : Checkpoint → Checkpoint) : (s.modCkpt i f).spillSlots = s.spillSlots := rfl
@[simp] theorem State.modCkpt_pav (i : Nat) (f : Checkpoint → Checkpoint) : (s.modCkpt i f).pav = s.pav := rfl

/-! ## `modPort` -/

@[simp] theorem State.modPort_now (q : Nat) (f : Port → Port) : (s.modPort q f).now = s.now := rfl
@[simp] theorem State.modPort_agenda (q : Nat) (f : Port → Port) : (s.modPort q f).agenda = s.agenda := rfl
@[simp] theorem State.modPort_cur (q : Nat) (f : Port → Port) : (s.modPort q f).cur = s.cur := rfl
@[simp] theorem State.modPort_hart (q : Nat) (f : Port → Port) : (s.modPort q f).hart = s.hart := rfl
@[simp] theorem State.modPort_freeCtr (q : Nat) (f : Port → Port) : (s.modPort q f).freeCtr = s.freeCtr := rfl
@[simp] theorem State.modPort_nextSeq (q : Nat) (f : Port → Port) : (s.modPort q f).nextSeq = s.nextSeq := rfl
@[simp] theorem State.modPort_nextToken (q : Nat) (f : Port → Port) : (s.modPort q f).nextToken = s.nextToken := rfl
@[simp] theorem State.modPort_nextId (q : Nat) (f : Port → Port) : (s.modPort q f).nextId = s.nextId := rfl
@[simp] theorem State.modPort_mem (q : Nat) (f : Port → Port) : (s.modPort q f).mem = s.mem := rfl
@[simp] theorem State.modPort_poison (q : Nat) (f : Port → Port) : (s.modPort q f).poison = s.poison := rfl
@[simp] theorem State.modPort_teams (q : Nat) (f : Port → Port) : (s.modPort q f).teams = s.teams := rfl
@[simp] theorem State.modPort_saved (q : Nat) (f : Port → Port) : (s.modPort q f).saved = s.saved := rfl
@[simp] theorem State.modPort_cores (q : Nat) (f : Port → Port) : (s.modPort q f).cores = s.cores := rfl
@[simp] theorem State.modPort_columns (q : Nat) (f : Port → Port) : (s.modPort q f).columns = s.columns := rfl
@[simp] theorem State.modPort_harts (q : Nat) (f : Port → Port) : (s.modPort q f).harts = s.harts := rfl
@[simp] theorem State.modPort_waiters (q : Nat) (f : Port → Port) : (s.modPort q f).waiters = s.waiters := rfl
@[simp] theorem State.modPort_boundaries (q : Nat) (f : Port → Port) : (s.modPort q f).boundaries = s.boundaries := rfl
@[simp] theorem State.modPort_windows (q : Nat) (f : Port → Port) : (s.modPort q f).windows = s.windows := rfl
@[simp] theorem State.modPort_pool (q : Nat) (f : Port → Port) : (s.modPort q f).pool = s.pool := rfl
@[simp] theorem State.modPort_rotation (q : Nat) (f : Port → Port) : (s.modPort q f).rotation = s.rotation := rfl
@[simp] theorem State.modPort_breq (q : Nat) (f : Port → Port) : (s.modPort q f).breq = s.breq := rfl
@[simp] theorem State.modPort_opPoint (q : Nat) (f : Port → Port) : (s.modPort q f).opPoint = s.opPoint := rfl
@[simp] theorem State.modPort_refusals (q : Nat) (f : Port → Port) : (s.modPort q f).refusals = s.refusals := rfl
@[simp] theorem State.modPort_charged (q : Nat) (f : Port → Port) : (s.modPort q f).charged = s.charged := rfl
@[simp] theorem State.modPort_refilled (q : Nat) (f : Port → Port) : (s.modPort q f).refilled = s.refilled := rfl
@[simp] theorem State.modPort_clusterCharged (q : Nat) (f : Port → Port) : (s.modPort q f).clusterCharged = s.clusterCharged := rfl
@[simp] theorem State.modPort_pkgid (q : Nat) (f : Port → Port) : (s.modPort q f).pkgid = s.pkgid := rfl
@[simp] theorem State.modPort_lostto (q : Nat) (f : Port → Port) : (s.modPort q f).lostto = s.lostto := rfl
@[simp] theorem State.modPort_route (q : Nat) (f : Port → Port) : (s.modPort q f).route = s.route := rfl
@[simp] theorem State.modPort_stalled (q : Nat) (f : Port → Port) : (s.modPort q f).stalled = s.stalled := rfl
@[simp] theorem State.modPort_pciewin (q : Nat) (f : Port → Port) : (s.modPort q f).pciewin = s.pciewin := rfl
@[simp] theorem State.modPort_pcieDown (q : Nat) (f : Port → Port) : (s.modPort q f).pcieDown = s.pcieDown := rfl
@[simp] theorem State.modPort_scopes (q : Nat) (f : Port → Port) : (s.modPort q f).scopes = s.scopes := rfl
@[simp] theorem State.modPort_regions (q : Nat) (f : Port → Port) : (s.modPort q f).regions = s.regions := rfl
@[simp] theorem State.modPort_spillSlots (q : Nat) (f : Port → Port) : (s.modPort q f).spillSlots = s.spillSlots := rfl
@[simp] theorem State.modPort_ckpt (q : Nat) (f : Port → Port) : (s.modPort q f).ckpt = s.ckpt := rfl
@[simp] theorem State.modPort_pav (q : Nat) (f : Port → Port) : (s.modPort q f).pav = s.pav := rfl

/-! ## `modPav` -/

@[simp] theorem State.modPav_now (f : Pavilion → Pavilion) : (s.modPav f).now = s.now := rfl
@[simp] theorem State.modPav_agenda (f : Pavilion → Pavilion) : (s.modPav f).agenda = s.agenda := rfl
@[simp] theorem State.modPav_cur (f : Pavilion → Pavilion) : (s.modPav f).cur = s.cur := rfl
@[simp] theorem State.modPav_hart (f : Pavilion → Pavilion) : (s.modPav f).hart = s.hart := rfl
@[simp] theorem State.modPav_freeCtr (f : Pavilion → Pavilion) : (s.modPav f).freeCtr = s.freeCtr := rfl
@[simp] theorem State.modPav_nextSeq (f : Pavilion → Pavilion) : (s.modPav f).nextSeq = s.nextSeq := rfl
@[simp] theorem State.modPav_nextToken (f : Pavilion → Pavilion) : (s.modPav f).nextToken = s.nextToken := rfl
@[simp] theorem State.modPav_nextId (f : Pavilion → Pavilion) : (s.modPav f).nextId = s.nextId := rfl
@[simp] theorem State.modPav_mem (f : Pavilion → Pavilion) : (s.modPav f).mem = s.mem := rfl
@[simp] theorem State.modPav_poison (f : Pavilion → Pavilion) : (s.modPav f).poison = s.poison := rfl
@[simp] theorem State.modPav_teams (f : Pavilion → Pavilion) : (s.modPav f).teams = s.teams := rfl
@[simp] theorem State.modPav_saved (f : Pavilion → Pavilion) : (s.modPav f).saved = s.saved := rfl
@[simp] theorem State.modPav_cores (f : Pavilion → Pavilion) : (s.modPav f).cores = s.cores := rfl
@[simp] theorem State.modPav_columns (f : Pavilion → Pavilion) : (s.modPav f).columns = s.columns := rfl
@[simp] theorem State.modPav_harts (f : Pavilion → Pavilion) : (s.modPav f).harts = s.harts := rfl
@[simp] theorem State.modPav_waiters (f : Pavilion → Pavilion) : (s.modPav f).waiters = s.waiters := rfl
@[simp] theorem State.modPav_boundaries (f : Pavilion → Pavilion) : (s.modPav f).boundaries = s.boundaries := rfl
@[simp] theorem State.modPav_windows (f : Pavilion → Pavilion) : (s.modPav f).windows = s.windows := rfl
@[simp] theorem State.modPav_pool (f : Pavilion → Pavilion) : (s.modPav f).pool = s.pool := rfl
@[simp] theorem State.modPav_rotation (f : Pavilion → Pavilion) : (s.modPav f).rotation = s.rotation := rfl
@[simp] theorem State.modPav_breq (f : Pavilion → Pavilion) : (s.modPav f).breq = s.breq := rfl
@[simp] theorem State.modPav_opPoint (f : Pavilion → Pavilion) : (s.modPav f).opPoint = s.opPoint := rfl
@[simp] theorem State.modPav_refusals (f : Pavilion → Pavilion) : (s.modPav f).refusals = s.refusals := rfl
@[simp] theorem State.modPav_charged (f : Pavilion → Pavilion) : (s.modPav f).charged = s.charged := rfl
@[simp] theorem State.modPav_refilled (f : Pavilion → Pavilion) : (s.modPav f).refilled = s.refilled := rfl
@[simp] theorem State.modPav_clusterCharged (f : Pavilion → Pavilion) : (s.modPav f).clusterCharged = s.clusterCharged := rfl
@[simp] theorem State.modPav_pkgid (f : Pavilion → Pavilion) : (s.modPav f).pkgid = s.pkgid := rfl
@[simp] theorem State.modPav_lostto (f : Pavilion → Pavilion) : (s.modPav f).lostto = s.lostto := rfl
@[simp] theorem State.modPav_ports (f : Pavilion → Pavilion) : (s.modPav f).ports = s.ports := rfl
@[simp] theorem State.modPav_route (f : Pavilion → Pavilion) : (s.modPav f).route = s.route := rfl
@[simp] theorem State.modPav_stalled (f : Pavilion → Pavilion) : (s.modPav f).stalled = s.stalled := rfl
@[simp] theorem State.modPav_pciewin (f : Pavilion → Pavilion) : (s.modPav f).pciewin = s.pciewin := rfl
@[simp] theorem State.modPav_pcieDown (f : Pavilion → Pavilion) : (s.modPav f).pcieDown = s.pcieDown := rfl
@[simp] theorem State.modPav_scopes (f : Pavilion → Pavilion) : (s.modPav f).scopes = s.scopes := rfl
@[simp] theorem State.modPav_regions (f : Pavilion → Pavilion) : (s.modPav f).regions = s.regions := rfl
@[simp] theorem State.modPav_spillSlots (f : Pavilion → Pavilion) : (s.modPav f).spillSlots = s.spillSlots := rfl
@[simp] theorem State.modPav_ckpt (f : Pavilion → Pavilion) : (s.modPav f).ckpt = s.ckpt := rfl

/-! ## `setRegion` -/

@[simp] theorem State.setRegion_now (r : Nat) (e : Region) : (s.setRegion r e).now = s.now := rfl
@[simp] theorem State.setRegion_agenda (r : Nat) (e : Region) : (s.setRegion r e).agenda = s.agenda := rfl
@[simp] theorem State.setRegion_cur (r : Nat) (e : Region) : (s.setRegion r e).cur = s.cur := rfl
@[simp] theorem State.setRegion_hart (r : Nat) (e : Region) : (s.setRegion r e).hart = s.hart := rfl
@[simp] theorem State.setRegion_freeCtr (r : Nat) (e : Region) : (s.setRegion r e).freeCtr = s.freeCtr := rfl
@[simp] theorem State.setRegion_nextSeq (r : Nat) (e : Region) : (s.setRegion r e).nextSeq = s.nextSeq := rfl
@[simp] theorem State.setRegion_nextToken (r : Nat) (e : Region) : (s.setRegion r e).nextToken = s.nextToken := rfl
@[simp] theorem State.setRegion_nextId (r : Nat) (e : Region) : (s.setRegion r e).nextId = s.nextId := rfl
@[simp] theorem State.setRegion_mem (r : Nat) (e : Region) : (s.setRegion r e).mem = s.mem := rfl
@[simp] theorem State.setRegion_poison (r : Nat) (e : Region) : (s.setRegion r e).poison = s.poison := rfl
@[simp] theorem State.setRegion_teams (r : Nat) (e : Region) : (s.setRegion r e).teams = s.teams := rfl
@[simp] theorem State.setRegion_saved (r : Nat) (e : Region) : (s.setRegion r e).saved = s.saved := rfl
@[simp] theorem State.setRegion_cores (r : Nat) (e : Region) : (s.setRegion r e).cores = s.cores := rfl
@[simp] theorem State.setRegion_columns (r : Nat) (e : Region) : (s.setRegion r e).columns = s.columns := rfl
@[simp] theorem State.setRegion_harts (r : Nat) (e : Region) : (s.setRegion r e).harts = s.harts := rfl
@[simp] theorem State.setRegion_waiters (r : Nat) (e : Region) : (s.setRegion r e).waiters = s.waiters := rfl
@[simp] theorem State.setRegion_boundaries (r : Nat) (e : Region) : (s.setRegion r e).boundaries = s.boundaries := rfl
@[simp] theorem State.setRegion_windows (r : Nat) (e : Region) : (s.setRegion r e).windows = s.windows := rfl
@[simp] theorem State.setRegion_pool (r : Nat) (e : Region) : (s.setRegion r e).pool = s.pool := rfl
@[simp] theorem State.setRegion_rotation (r : Nat) (e : Region) : (s.setRegion r e).rotation = s.rotation := rfl
@[simp] theorem State.setRegion_breq (r : Nat) (e : Region) : (s.setRegion r e).breq = s.breq := rfl
@[simp] theorem State.setRegion_opPoint (r : Nat) (e : Region) : (s.setRegion r e).opPoint = s.opPoint := rfl
@[simp] theorem State.setRegion_refusals (r : Nat) (e : Region) : (s.setRegion r e).refusals = s.refusals := rfl
@[simp] theorem State.setRegion_charged (r : Nat) (e : Region) : (s.setRegion r e).charged = s.charged := rfl
@[simp] theorem State.setRegion_refilled (r : Nat) (e : Region) : (s.setRegion r e).refilled = s.refilled := rfl
@[simp] theorem State.setRegion_clusterCharged (r : Nat) (e : Region) : (s.setRegion r e).clusterCharged = s.clusterCharged := rfl
@[simp] theorem State.setRegion_pkgid (r : Nat) (e : Region) : (s.setRegion r e).pkgid = s.pkgid := rfl
@[simp] theorem State.setRegion_lostto (r : Nat) (e : Region) : (s.setRegion r e).lostto = s.lostto := rfl
@[simp] theorem State.setRegion_ports (r : Nat) (e : Region) : (s.setRegion r e).ports = s.ports := rfl
@[simp] theorem State.setRegion_route (r : Nat) (e : Region) : (s.setRegion r e).route = s.route := rfl
@[simp] theorem State.setRegion_stalled (r : Nat) (e : Region) : (s.setRegion r e).stalled = s.stalled := rfl
@[simp] theorem State.setRegion_pciewin (r : Nat) (e : Region) : (s.setRegion r e).pciewin = s.pciewin := rfl
@[simp] theorem State.setRegion_pcieDown (r : Nat) (e : Region) : (s.setRegion r e).pcieDown = s.pcieDown := rfl
@[simp] theorem State.setRegion_scopes (r : Nat) (e : Region) : (s.setRegion r e).scopes = s.scopes := rfl
@[simp] theorem State.setRegion_spillSlots (r : Nat) (e : Region) : (s.setRegion r e).spillSlots = s.spillSlots := rfl
@[simp] theorem State.setRegion_ckpt (r : Nat) (e : Region) : (s.setRegion r e).ckpt = s.ckpt := rfl
@[simp] theorem State.setRegion_pav (r : Nat) (e : Region) : (s.setRegion r e).pav = s.pav := rfl

/-! ## `modTeam` -/

@[simp] theorem State.modTeam_now (r : TeamRef) (f : Team → Team) : (s.modTeam r f).now = s.now := rfl
@[simp] theorem State.modTeam_agenda (r : TeamRef) (f : Team → Team) : (s.modTeam r f).agenda = s.agenda := rfl
@[simp] theorem State.modTeam_cur (r : TeamRef) (f : Team → Team) : (s.modTeam r f).cur = s.cur := rfl
@[simp] theorem State.modTeam_hart (r : TeamRef) (f : Team → Team) : (s.modTeam r f).hart = s.hart := rfl
@[simp] theorem State.modTeam_freeCtr (r : TeamRef) (f : Team → Team) : (s.modTeam r f).freeCtr = s.freeCtr := rfl
@[simp] theorem State.modTeam_nextSeq (r : TeamRef) (f : Team → Team) : (s.modTeam r f).nextSeq = s.nextSeq := rfl
@[simp] theorem State.modTeam_nextToken (r : TeamRef) (f : Team → Team) : (s.modTeam r f).nextToken = s.nextToken := rfl
@[simp] theorem State.modTeam_nextId (r : TeamRef) (f : Team → Team) : (s.modTeam r f).nextId = s.nextId := rfl
@[simp] theorem State.modTeam_mem (r : TeamRef) (f : Team → Team) : (s.modTeam r f).mem = s.mem := rfl
@[simp] theorem State.modTeam_poison (r : TeamRef) (f : Team → Team) : (s.modTeam r f).poison = s.poison := rfl
@[simp] theorem State.modTeam_saved (r : TeamRef) (f : Team → Team) : (s.modTeam r f).saved = s.saved := rfl
@[simp] theorem State.modTeam_cores (r : TeamRef) (f : Team → Team) : (s.modTeam r f).cores = s.cores := rfl
@[simp] theorem State.modTeam_columns (r : TeamRef) (f : Team → Team) : (s.modTeam r f).columns = s.columns := rfl
@[simp] theorem State.modTeam_harts (r : TeamRef) (f : Team → Team) : (s.modTeam r f).harts = s.harts := rfl
@[simp] theorem State.modTeam_waiters (r : TeamRef) (f : Team → Team) : (s.modTeam r f).waiters = s.waiters := rfl
@[simp] theorem State.modTeam_boundaries (r : TeamRef) (f : Team → Team) : (s.modTeam r f).boundaries = s.boundaries := rfl
@[simp] theorem State.modTeam_windows (r : TeamRef) (f : Team → Team) : (s.modTeam r f).windows = s.windows := rfl
@[simp] theorem State.modTeam_pool (r : TeamRef) (f : Team → Team) : (s.modTeam r f).pool = s.pool := rfl
@[simp] theorem State.modTeam_rotation (r : TeamRef) (f : Team → Team) : (s.modTeam r f).rotation = s.rotation := rfl
@[simp] theorem State.modTeam_breq (r : TeamRef) (f : Team → Team) : (s.modTeam r f).breq = s.breq := rfl
@[simp] theorem State.modTeam_opPoint (r : TeamRef) (f : Team → Team) : (s.modTeam r f).opPoint = s.opPoint := rfl
@[simp] theorem State.modTeam_refusals (r : TeamRef) (f : Team → Team) : (s.modTeam r f).refusals = s.refusals := rfl
@[simp] theorem State.modTeam_charged (r : TeamRef) (f : Team → Team) : (s.modTeam r f).charged = s.charged := rfl
@[simp] theorem State.modTeam_refilled (r : TeamRef) (f : Team → Team) : (s.modTeam r f).refilled = s.refilled := rfl
@[simp] theorem State.modTeam_clusterCharged (r : TeamRef) (f : Team → Team) : (s.modTeam r f).clusterCharged = s.clusterCharged := rfl
@[simp] theorem State.modTeam_pkgid (r : TeamRef) (f : Team → Team) : (s.modTeam r f).pkgid = s.pkgid := rfl
@[simp] theorem State.modTeam_lostto (r : TeamRef) (f : Team → Team) : (s.modTeam r f).lostto = s.lostto := rfl
@[simp] theorem State.modTeam_ports (r : TeamRef) (f : Team → Team) : (s.modTeam r f).ports = s.ports := rfl
@[simp] theorem State.modTeam_route (r : TeamRef) (f : Team → Team) : (s.modTeam r f).route = s.route := rfl
@[simp] theorem State.modTeam_stalled (r : TeamRef) (f : Team → Team) : (s.modTeam r f).stalled = s.stalled := rfl
@[simp] theorem State.modTeam_pciewin (r : TeamRef) (f : Team → Team) : (s.modTeam r f).pciewin = s.pciewin := rfl
@[simp] theorem State.modTeam_pcieDown (r : TeamRef) (f : Team → Team) : (s.modTeam r f).pcieDown = s.pcieDown := rfl
@[simp] theorem State.modTeam_scopes (r : TeamRef) (f : Team → Team) : (s.modTeam r f).scopes = s.scopes := rfl
@[simp] theorem State.modTeam_regions (r : TeamRef) (f : Team → Team) : (s.modTeam r f).regions = s.regions := rfl
@[simp] theorem State.modTeam_spillSlots (r : TeamRef) (f : Team → Team) : (s.modTeam r f).spillSlots = s.spillSlots := rfl
@[simp] theorem State.modTeam_ckpt (r : TeamRef) (f : Team → Team) : (s.modTeam r f).ckpt = s.ckpt := rfl
@[simp] theorem State.modTeam_pav (r : TeamRef) (f : Team → Team) : (s.modTeam r f).pav = s.pav := rfl

/-! ## `modGroup` -/

@[simp] theorem State.modGroup_now (r : TeamRef) (g : Nat) (f : Group → Group) : (s.modGroup r g f).now = s.now := rfl
@[simp] theorem State.modGroup_agenda (r : TeamRef) (g : Nat) (f : Group → Group) : (s.modGroup r g f).agenda = s.agenda := rfl
@[simp] theorem State.modGroup_cur (r : TeamRef) (g : Nat) (f : Group → Group) : (s.modGroup r g f).cur = s.cur := rfl
@[simp] theorem State.modGroup_hart (r : TeamRef) (g : Nat) (f : Group → Group) : (s.modGroup r g f).hart = s.hart := rfl
@[simp] theorem State.modGroup_freeCtr (r : TeamRef) (g : Nat) (f : Group → Group) : (s.modGroup r g f).freeCtr = s.freeCtr := rfl
@[simp] theorem State.modGroup_nextSeq (r : TeamRef) (g : Nat) (f : Group → Group) : (s.modGroup r g f).nextSeq = s.nextSeq := rfl
@[simp] theorem State.modGroup_nextToken (r : TeamRef) (g : Nat) (f : Group → Group) : (s.modGroup r g f).nextToken = s.nextToken := rfl
@[simp] theorem State.modGroup_nextId (r : TeamRef) (g : Nat) (f : Group → Group) : (s.modGroup r g f).nextId = s.nextId := rfl
@[simp] theorem State.modGroup_mem (r : TeamRef) (g : Nat) (f : Group → Group) : (s.modGroup r g f).mem = s.mem := rfl
@[simp] theorem State.modGroup_poison (r : TeamRef) (g : Nat) (f : Group → Group) : (s.modGroup r g f).poison = s.poison := rfl
@[simp] theorem State.modGroup_saved (r : TeamRef) (g : Nat) (f : Group → Group) : (s.modGroup r g f).saved = s.saved := rfl
@[simp] theorem State.modGroup_cores (r : TeamRef) (g : Nat) (f : Group → Group) : (s.modGroup r g f).cores = s.cores := rfl
@[simp] theorem State.modGroup_columns (r : TeamRef) (g : Nat) (f : Group → Group) : (s.modGroup r g f).columns = s.columns := rfl
@[simp] theorem State.modGroup_harts (r : TeamRef) (g : Nat) (f : Group → Group) : (s.modGroup r g f).harts = s.harts := rfl
@[simp] theorem State.modGroup_waiters (r : TeamRef) (g : Nat) (f : Group → Group) : (s.modGroup r g f).waiters = s.waiters := rfl
@[simp] theorem State.modGroup_boundaries (r : TeamRef) (g : Nat) (f : Group → Group) : (s.modGroup r g f).boundaries = s.boundaries := rfl
@[simp] theorem State.modGroup_windows (r : TeamRef) (g : Nat) (f : Group → Group) : (s.modGroup r g f).windows = s.windows := rfl
@[simp] theorem State.modGroup_pool (r : TeamRef) (g : Nat) (f : Group → Group) : (s.modGroup r g f).pool = s.pool := rfl
@[simp] theorem State.modGroup_rotation (r : TeamRef) (g : Nat) (f : Group → Group) : (s.modGroup r g f).rotation = s.rotation := rfl
@[simp] theorem State.modGroup_breq (r : TeamRef) (g : Nat) (f : Group → Group) : (s.modGroup r g f).breq = s.breq := rfl
@[simp] theorem State.modGroup_opPoint (r : TeamRef) (g : Nat) (f : Group → Group) : (s.modGroup r g f).opPoint = s.opPoint := rfl
@[simp] theorem State.modGroup_refusals (r : TeamRef) (g : Nat) (f : Group → Group) : (s.modGroup r g f).refusals = s.refusals := rfl
@[simp] theorem State.modGroup_charged (r : TeamRef) (g : Nat) (f : Group → Group) : (s.modGroup r g f).charged = s.charged := rfl
@[simp] theorem State.modGroup_refilled (r : TeamRef) (g : Nat) (f : Group → Group) : (s.modGroup r g f).refilled = s.refilled := rfl
@[simp] theorem State.modGroup_clusterCharged (r : TeamRef) (g : Nat) (f : Group → Group) : (s.modGroup r g f).clusterCharged = s.clusterCharged := rfl
@[simp] theorem State.modGroup_pkgid (r : TeamRef) (g : Nat) (f : Group → Group) : (s.modGroup r g f).pkgid = s.pkgid := rfl
@[simp] theorem State.modGroup_lostto (r : TeamRef) (g : Nat) (f : Group → Group) : (s.modGroup r g f).lostto = s.lostto := rfl
@[simp] theorem State.modGroup_ports (r : TeamRef) (g : Nat) (f : Group → Group) : (s.modGroup r g f).ports = s.ports := rfl
@[simp] theorem State.modGroup_route (r : TeamRef) (g : Nat) (f : Group → Group) : (s.modGroup r g f).route = s.route := rfl
@[simp] theorem State.modGroup_stalled (r : TeamRef) (g : Nat) (f : Group → Group) : (s.modGroup r g f).stalled = s.stalled := rfl
@[simp] theorem State.modGroup_pciewin (r : TeamRef) (g : Nat) (f : Group → Group) : (s.modGroup r g f).pciewin = s.pciewin := rfl
@[simp] theorem State.modGroup_pcieDown (r : TeamRef) (g : Nat) (f : Group → Group) : (s.modGroup r g f).pcieDown = s.pcieDown := rfl
@[simp] theorem State.modGroup_scopes (r : TeamRef) (g : Nat) (f : Group → Group) : (s.modGroup r g f).scopes = s.scopes := rfl
@[simp] theorem State.modGroup_regions (r : TeamRef) (g : Nat) (f : Group → Group) : (s.modGroup r g f).regions = s.regions := rfl
@[simp] theorem State.modGroup_spillSlots (r : TeamRef) (g : Nat) (f : Group → Group) : (s.modGroup r g f).spillSlots = s.spillSlots := rfl
@[simp] theorem State.modGroup_ckpt (r : TeamRef) (g : Nat) (f : Group → Group) : (s.modGroup r g f).ckpt = s.ckpt := rfl
@[simp] theorem State.modGroup_pav (r : TeamRef) (g : Nat) (f : Group → Group) : (s.modGroup r g f).pav = s.pav := rfl

/-! ## `modFibre` -/

@[simp] theorem State.modFibre_now (r : FibreRef) (f : Fibre → Fibre) : (s.modFibre r f).now = s.now := rfl
@[simp] theorem State.modFibre_agenda (r : FibreRef) (f : Fibre → Fibre) : (s.modFibre r f).agenda = s.agenda := rfl
@[simp] theorem State.modFibre_cur (r : FibreRef) (f : Fibre → Fibre) : (s.modFibre r f).cur = s.cur := rfl
@[simp] theorem State.modFibre_hart (r : FibreRef) (f : Fibre → Fibre) : (s.modFibre r f).hart = s.hart := rfl
@[simp] theorem State.modFibre_freeCtr (r : FibreRef) (f : Fibre → Fibre) : (s.modFibre r f).freeCtr = s.freeCtr := rfl
@[simp] theorem State.modFibre_nextSeq (r : FibreRef) (f : Fibre → Fibre) : (s.modFibre r f).nextSeq = s.nextSeq := rfl
@[simp] theorem State.modFibre_nextToken (r : FibreRef) (f : Fibre → Fibre) : (s.modFibre r f).nextToken = s.nextToken := rfl
@[simp] theorem State.modFibre_nextId (r : FibreRef) (f : Fibre → Fibre) : (s.modFibre r f).nextId = s.nextId := rfl
@[simp] theorem State.modFibre_mem (r : FibreRef) (f : Fibre → Fibre) : (s.modFibre r f).mem = s.mem := rfl
@[simp] theorem State.modFibre_poison (r : FibreRef) (f : Fibre → Fibre) : (s.modFibre r f).poison = s.poison := rfl
@[simp] theorem State.modFibre_saved (r : FibreRef) (f : Fibre → Fibre) : (s.modFibre r f).saved = s.saved := rfl
@[simp] theorem State.modFibre_cores (r : FibreRef) (f : Fibre → Fibre) : (s.modFibre r f).cores = s.cores := rfl
@[simp] theorem State.modFibre_columns (r : FibreRef) (f : Fibre → Fibre) : (s.modFibre r f).columns = s.columns := rfl
@[simp] theorem State.modFibre_harts (r : FibreRef) (f : Fibre → Fibre) : (s.modFibre r f).harts = s.harts := rfl
@[simp] theorem State.modFibre_waiters (r : FibreRef) (f : Fibre → Fibre) : (s.modFibre r f).waiters = s.waiters := rfl
@[simp] theorem State.modFibre_boundaries (r : FibreRef) (f : Fibre → Fibre) : (s.modFibre r f).boundaries = s.boundaries := rfl
@[simp] theorem State.modFibre_windows (r : FibreRef) (f : Fibre → Fibre) : (s.modFibre r f).windows = s.windows := rfl
@[simp] theorem State.modFibre_pool (r : FibreRef) (f : Fibre → Fibre) : (s.modFibre r f).pool = s.pool := rfl
@[simp] theorem State.modFibre_rotation (r : FibreRef) (f : Fibre → Fibre) : (s.modFibre r f).rotation = s.rotation := rfl
@[simp] theorem State.modFibre_breq (r : FibreRef) (f : Fibre → Fibre) : (s.modFibre r f).breq = s.breq := rfl
@[simp] theorem State.modFibre_opPoint (r : FibreRef) (f : Fibre → Fibre) : (s.modFibre r f).opPoint = s.opPoint := rfl
@[simp] theorem State.modFibre_refusals (r : FibreRef) (f : Fibre → Fibre) : (s.modFibre r f).refusals = s.refusals := rfl
@[simp] theorem State.modFibre_charged (r : FibreRef) (f : Fibre → Fibre) : (s.modFibre r f).charged = s.charged := rfl
@[simp] theorem State.modFibre_refilled (r : FibreRef) (f : Fibre → Fibre) : (s.modFibre r f).refilled = s.refilled := rfl
@[simp] theorem State.modFibre_clusterCharged (r : FibreRef) (f : Fibre → Fibre) : (s.modFibre r f).clusterCharged = s.clusterCharged := rfl
@[simp] theorem State.modFibre_pkgid (r : FibreRef) (f : Fibre → Fibre) : (s.modFibre r f).pkgid = s.pkgid := rfl
@[simp] theorem State.modFibre_lostto (r : FibreRef) (f : Fibre → Fibre) : (s.modFibre r f).lostto = s.lostto := rfl
@[simp] theorem State.modFibre_ports (r : FibreRef) (f : Fibre → Fibre) : (s.modFibre r f).ports = s.ports := rfl
@[simp] theorem State.modFibre_route (r : FibreRef) (f : Fibre → Fibre) : (s.modFibre r f).route = s.route := rfl
@[simp] theorem State.modFibre_stalled (r : FibreRef) (f : Fibre → Fibre) : (s.modFibre r f).stalled = s.stalled := rfl
@[simp] theorem State.modFibre_pciewin (r : FibreRef) (f : Fibre → Fibre) : (s.modFibre r f).pciewin = s.pciewin := rfl
@[simp] theorem State.modFibre_pcieDown (r : FibreRef) (f : Fibre → Fibre) : (s.modFibre r f).pcieDown = s.pcieDown := rfl
@[simp] theorem State.modFibre_scopes (r : FibreRef) (f : Fibre → Fibre) : (s.modFibre r f).scopes = s.scopes := rfl
@[simp] theorem State.modFibre_regions (r : FibreRef) (f : Fibre → Fibre) : (s.modFibre r f).regions = s.regions := rfl
@[simp] theorem State.modFibre_spillSlots (r : FibreRef) (f : Fibre → Fibre) : (s.modFibre r f).spillSlots = s.spillSlots := rfl
@[simp] theorem State.modFibre_ckpt (r : FibreRef) (f : Fibre → Fibre) : (s.modFibre r f).ckpt = s.ckpt := rfl
@[simp] theorem State.modFibre_pav (r : FibreRef) (f : Fibre → Fibre) : (s.modFibre r f).pav = s.pav := rfl

/-! ## `setFibre` -/

@[simp] theorem State.setFibre_now (r : FibreRef) (f : Fibre) : (s.setFibre r f).now = s.now := rfl
@[simp] theorem State.setFibre_agenda (r : FibreRef) (f : Fibre) : (s.setFibre r f).agenda = s.agenda := rfl
@[simp] theorem State.setFibre_cur (r : FibreRef) (f : Fibre) : (s.setFibre r f).cur = s.cur := rfl
@[simp] theorem State.setFibre_hart (r : FibreRef) (f : Fibre) : (s.setFibre r f).hart = s.hart := rfl
@[simp] theorem State.setFibre_freeCtr (r : FibreRef) (f : Fibre) : (s.setFibre r f).freeCtr = s.freeCtr := rfl
@[simp] theorem State.setFibre_nextSeq (r : FibreRef) (f : Fibre) : (s.setFibre r f).nextSeq = s.nextSeq := rfl
@[simp] theorem State.setFibre_nextToken (r : FibreRef) (f : Fibre) : (s.setFibre r f).nextToken = s.nextToken := rfl
@[simp] theorem State.setFibre_nextId (r : FibreRef) (f : Fibre) : (s.setFibre r f).nextId = s.nextId := rfl
@[simp] theorem State.setFibre_mem (r : FibreRef) (f : Fibre) : (s.setFibre r f).mem = s.mem := rfl
@[simp] theorem State.setFibre_poison (r : FibreRef) (f : Fibre) : (s.setFibre r f).poison = s.poison := rfl
@[simp] theorem State.setFibre_saved (r : FibreRef) (f : Fibre) : (s.setFibre r f).saved = s.saved := rfl
@[simp] theorem State.setFibre_cores (r : FibreRef) (f : Fibre) : (s.setFibre r f).cores = s.cores := rfl
@[simp] theorem State.setFibre_columns (r : FibreRef) (f : Fibre) : (s.setFibre r f).columns = s.columns := rfl
@[simp] theorem State.setFibre_harts (r : FibreRef) (f : Fibre) : (s.setFibre r f).harts = s.harts := rfl
@[simp] theorem State.setFibre_waiters (r : FibreRef) (f : Fibre) : (s.setFibre r f).waiters = s.waiters := rfl
@[simp] theorem State.setFibre_boundaries (r : FibreRef) (f : Fibre) : (s.setFibre r f).boundaries = s.boundaries := rfl
@[simp] theorem State.setFibre_windows (r : FibreRef) (f : Fibre) : (s.setFibre r f).windows = s.windows := rfl
@[simp] theorem State.setFibre_pool (r : FibreRef) (f : Fibre) : (s.setFibre r f).pool = s.pool := rfl
@[simp] theorem State.setFibre_rotation (r : FibreRef) (f : Fibre) : (s.setFibre r f).rotation = s.rotation := rfl
@[simp] theorem State.setFibre_breq (r : FibreRef) (f : Fibre) : (s.setFibre r f).breq = s.breq := rfl
@[simp] theorem State.setFibre_opPoint (r : FibreRef) (f : Fibre) : (s.setFibre r f).opPoint = s.opPoint := rfl
@[simp] theorem State.setFibre_refusals (r : FibreRef) (f : Fibre) : (s.setFibre r f).refusals = s.refusals := rfl
@[simp] theorem State.setFibre_charged (r : FibreRef) (f : Fibre) : (s.setFibre r f).charged = s.charged := rfl
@[simp] theorem State.setFibre_refilled (r : FibreRef) (f : Fibre) : (s.setFibre r f).refilled = s.refilled := rfl
@[simp] theorem State.setFibre_clusterCharged (r : FibreRef) (f : Fibre) : (s.setFibre r f).clusterCharged = s.clusterCharged := rfl
@[simp] theorem State.setFibre_pkgid (r : FibreRef) (f : Fibre) : (s.setFibre r f).pkgid = s.pkgid := rfl
@[simp] theorem State.setFibre_lostto (r : FibreRef) (f : Fibre) : (s.setFibre r f).lostto = s.lostto := rfl
@[simp] theorem State.setFibre_ports (r : FibreRef) (f : Fibre) : (s.setFibre r f).ports = s.ports := rfl
@[simp] theorem State.setFibre_route (r : FibreRef) (f : Fibre) : (s.setFibre r f).route = s.route := rfl
@[simp] theorem State.setFibre_stalled (r : FibreRef) (f : Fibre) : (s.setFibre r f).stalled = s.stalled := rfl
@[simp] theorem State.setFibre_pciewin (r : FibreRef) (f : Fibre) : (s.setFibre r f).pciewin = s.pciewin := rfl
@[simp] theorem State.setFibre_pcieDown (r : FibreRef) (f : Fibre) : (s.setFibre r f).pcieDown = s.pcieDown := rfl
@[simp] theorem State.setFibre_scopes (r : FibreRef) (f : Fibre) : (s.setFibre r f).scopes = s.scopes := rfl
@[simp] theorem State.setFibre_regions (r : FibreRef) (f : Fibre) : (s.setFibre r f).regions = s.regions := rfl
@[simp] theorem State.setFibre_spillSlots (r : FibreRef) (f : Fibre) : (s.setFibre r f).spillSlots = s.spillSlots := rfl
@[simp] theorem State.setFibre_ckpt (r : FibreRef) (f : Fibre) : (s.setFibre r f).ckpt = s.ckpt := rfl
@[simp] theorem State.setFibre_pav (r : FibreRef) (f : Fibre) : (s.setFibre r f).pav = s.pav := rfl

/-! ## `modLaunch` -/

@[simp] theorem State.modLaunch_now (n : Nat) (f : Launch → Launch) : (s.modLaunch n f).now = s.now := rfl
@[simp] theorem State.modLaunch_agenda (n : Nat) (f : Launch → Launch) : (s.modLaunch n f).agenda = s.agenda := rfl
@[simp] theorem State.modLaunch_cur (n : Nat) (f : Launch → Launch) : (s.modLaunch n f).cur = s.cur := rfl
@[simp] theorem State.modLaunch_hart (n : Nat) (f : Launch → Launch) : (s.modLaunch n f).hart = s.hart := rfl
@[simp] theorem State.modLaunch_freeCtr (n : Nat) (f : Launch → Launch) : (s.modLaunch n f).freeCtr = s.freeCtr := rfl
@[simp] theorem State.modLaunch_nextSeq (n : Nat) (f : Launch → Launch) : (s.modLaunch n f).nextSeq = s.nextSeq := rfl
@[simp] theorem State.modLaunch_nextToken (n : Nat) (f : Launch → Launch) : (s.modLaunch n f).nextToken = s.nextToken := rfl
@[simp] theorem State.modLaunch_nextId (n : Nat) (f : Launch → Launch) : (s.modLaunch n f).nextId = s.nextId := rfl
@[simp] theorem State.modLaunch_mem (n : Nat) (f : Launch → Launch) : (s.modLaunch n f).mem = s.mem := rfl
@[simp] theorem State.modLaunch_poison (n : Nat) (f : Launch → Launch) : (s.modLaunch n f).poison = s.poison := rfl
@[simp] theorem State.modLaunch_teams (n : Nat) (f : Launch → Launch) : (s.modLaunch n f).teams = s.teams := rfl
@[simp] theorem State.modLaunch_saved (n : Nat) (f : Launch → Launch) : (s.modLaunch n f).saved = s.saved := rfl
@[simp] theorem State.modLaunch_cores (n : Nat) (f : Launch → Launch) : (s.modLaunch n f).cores = s.cores := rfl
@[simp] theorem State.modLaunch_harts (n : Nat) (f : Launch → Launch) : (s.modLaunch n f).harts = s.harts := rfl
@[simp] theorem State.modLaunch_waiters (n : Nat) (f : Launch → Launch) : (s.modLaunch n f).waiters = s.waiters := rfl
@[simp] theorem State.modLaunch_boundaries (n : Nat) (f : Launch → Launch) : (s.modLaunch n f).boundaries = s.boundaries := rfl
@[simp] theorem State.modLaunch_windows (n : Nat) (f : Launch → Launch) : (s.modLaunch n f).windows = s.windows := rfl
@[simp] theorem State.modLaunch_pool (n : Nat) (f : Launch → Launch) : (s.modLaunch n f).pool = s.pool := rfl
@[simp] theorem State.modLaunch_rotation (n : Nat) (f : Launch → Launch) : (s.modLaunch n f).rotation = s.rotation := rfl
@[simp] theorem State.modLaunch_breq (n : Nat) (f : Launch → Launch) : (s.modLaunch n f).breq = s.breq := rfl
@[simp] theorem State.modLaunch_opPoint (n : Nat) (f : Launch → Launch) : (s.modLaunch n f).opPoint = s.opPoint := rfl
@[simp] theorem State.modLaunch_refusals (n : Nat) (f : Launch → Launch) : (s.modLaunch n f).refusals = s.refusals := rfl
@[simp] theorem State.modLaunch_charged (n : Nat) (f : Launch → Launch) : (s.modLaunch n f).charged = s.charged := rfl
@[simp] theorem State.modLaunch_refilled (n : Nat) (f : Launch → Launch) : (s.modLaunch n f).refilled = s.refilled := rfl
@[simp] theorem State.modLaunch_clusterCharged (n : Nat) (f : Launch → Launch) : (s.modLaunch n f).clusterCharged = s.clusterCharged := rfl
@[simp] theorem State.modLaunch_pkgid (n : Nat) (f : Launch → Launch) : (s.modLaunch n f).pkgid = s.pkgid := rfl
@[simp] theorem State.modLaunch_lostto (n : Nat) (f : Launch → Launch) : (s.modLaunch n f).lostto = s.lostto := rfl
@[simp] theorem State.modLaunch_ports (n : Nat) (f : Launch → Launch) : (s.modLaunch n f).ports = s.ports := rfl
@[simp] theorem State.modLaunch_route (n : Nat) (f : Launch → Launch) : (s.modLaunch n f).route = s.route := rfl
@[simp] theorem State.modLaunch_stalled (n : Nat) (f : Launch → Launch) : (s.modLaunch n f).stalled = s.stalled := rfl
@[simp] theorem State.modLaunch_pciewin (n : Nat) (f : Launch → Launch) : (s.modLaunch n f).pciewin = s.pciewin := rfl
@[simp] theorem State.modLaunch_pcieDown (n : Nat) (f : Launch → Launch) : (s.modLaunch n f).pcieDown = s.pcieDown := rfl
@[simp] theorem State.modLaunch_scopes (n : Nat) (f : Launch → Launch) : (s.modLaunch n f).scopes = s.scopes := rfl
@[simp] theorem State.modLaunch_regions (n : Nat) (f : Launch → Launch) : (s.modLaunch n f).regions = s.regions := rfl
@[simp] theorem State.modLaunch_spillSlots (n : Nat) (f : Launch → Launch) : (s.modLaunch n f).spillSlots = s.spillSlots := rfl
@[simp] theorem State.modLaunch_ckpt (n : Nat) (f : Launch → Launch) : (s.modLaunch n f).ckpt = s.ckpt := rfl
@[simp] theorem State.modLaunch_pav (n : Nat) (f : Launch → Launch) : (s.modLaunch n f).pav = s.pav := rfl

/-! ## Reading after a write -/

@[simp] theorem State.setCol_columns (c : Nat) (x : Column) : (s.setCol c x).columns = put {} s.columns c x := rfl
@[simp] theorem State.setCore_cores (k : Nat) (x : Core) : (s.setCore k x).cores = put {} s.cores k x := rfl
@[simp] theorem State.modPav_pav (f : Pavilion → Pavilion) : (s.modPav f).pav = f s.pav := rfl

theorem State.col_setCol (c d : Nat) (x : Column) : (s.setCol c x).col d = if d = c then x else s.col d :=
  look_put ({} : Column) s.columns c d x

theorem State.col_modCol (c d : Nat) (f : Column → Column) :
    (s.modCol c f).col d = if d = c then f (s.col c) else s.col d := s.col_setCol c d _

theorem State.core_setCore (k l : Nat) (x : Core) : (s.setCore k x).core l = if l = k then x else s.core l :=
  look_put ({} : Core) s.cores k l x

theorem State.core_modCore (k l : Nat) (f : Core → Core) :
    (s.modCore k f).core l = if l = k then f (s.core k) else s.core l := s.core_setCore k l _

theorem State.hartAt_modHart (h i : Nat) (f : Hart → Hart) :
    (s.modHart h f).hartAt i = if i = h then f (s.hartAt h) else s.hartAt i := look_modify ({} : Hart) s.harts h i f

theorem State.ckptAt_modCkpt (i j : Nat) (f : Checkpoint → Checkpoint) :
    (s.modCkpt i f).ckptAt j = if j = i then f (s.ckptAt i) else s.ckptAt j := look_modify ({} : Checkpoint) s.ckpt i j f

theorem State.portAt_modPort (q r : Nat) (f : Port → Port) :
    (s.modPort q f).portAt r = if r = q then f (s.portAt q) else s.portAt r := look_modify ({} : Port) s.ports q r f

theorem Core.lane_modLane (k l m : Nat) (f : Lane → Lane) :
    ((s.modLane k l f).core k).lane m = if m = l then f ((s.core k).lane l) else (s.core k).lane m := by
  simp [State.modLane, State.core_modCore, Core.lane, look_modify]

@[simp] theorem State.core_setCol (c : Nat) (x : Column) : (s.setCol c x).core = s.core := rfl
@[simp] theorem State.core_modCol (c : Nat) (f : Column → Column) : (s.modCol c f).core = s.core := rfl
@[simp] theorem State.core_modTeam (r : TeamRef) (f : Team → Team) : (s.modTeam r f).core = s.core := rfl
@[simp] theorem State.core_modFibre (r : FibreRef) (f : Fibre → Fibre) : (s.modFibre r f).core = s.core := rfl
@[simp] theorem State.col_setCore (k : Nat) (x : Core) : (s.setCore k x).col = s.col := rfl
@[simp] theorem State.col_modCore (k : Nat) (f : Core → Core) : (s.modCore k f).col = s.col := rfl
@[simp] theorem State.col_modTeam (r : TeamRef) (f : Team → Team) : (s.modTeam r f).col = s.col := rfl
@[simp] theorem State.col_modFibre (r : FibreRef) (f : Fibre → Fibre) : (s.modFibre r f).col = s.col := rfl

/-! ## Teams, groups and fibres by their names -/

/-- The first entry with a key, after a change of that entry which keeps its key. -/
theorem find?_map_update {α : Type} (p q : α → Bool) (f : α → α) (l : List α) (h : ∀ x, q x = true → p x = true)
    (hf : ∀ x, q x = true → p (f x) = p x) (hq : ∀ x, p x = true → q x = true) :
    (l.map fun x => if q x then f x else x).find? p = (l.find? p).map f := by
  induction l with
  | nil => rfl
  | cons a l ih =>
    by_cases ha : q a = true
    · simp [ha, hf a ha, h a ha]
    · have : p a = false := by
        cases e : p a
        · rfl
        · exact absurd (hq a e) ha
      simp [ha, this, ih]

theorem State.team?_modTeam (r : TeamRef) (f : Team → Team) (hf : ∀ t, (f t).ref = t.ref) :
    (s.modTeam r f).team? r = (s.team? r).map f :=
  find?_map_update _ _ f s.teams (fun _ h => h) (fun x _ => by rw [hf x]) fun _ h => h

theorem Team.group?_modGroup (t : Team) (g : Nat) (f : Group → Group) (hf : ∀ x, (f x).gid = x.gid) :
    (t.modGroup g f).group? g = (t.group? g).map f :=
  find?_map_update _ _ f t.groups (fun _ h => h) (fun x _ => by rw [hf x]) fun _ h => h

theorem Group.fibre?_modFibre (g : Group) (i : Nat) (f : Fibre → Fibre) (hf : ∀ x, (f x).fid = x.fid) :
    (g.modFibre i f).fibre? i = (g.fibre? i).map f :=
  find?_map_update _ _ f g.fibres (fun _ h => h) (fun x _ => by rw [hf x]) fun _ h => h

@[simp] theorem Team.modGroup_ref (t : Team) (g : Nat) (f : Group → Group) : (t.modGroup g f).ref = t.ref := rfl
@[simp] theorem Group.modFibre_gid (g : Group) (i : Nat) (f : Fibre → Fibre) : (g.modFibre i f).gid = g.gid := rfl

theorem State.group?_modGroup (r : TeamRef) (g : Nat) (f : Group → Group) (hf : ∀ x, (f x).gid = x.gid) (i : Nat) :
    (s.modGroup r g f).group? { team := r, gid := g, fid := i } =
      (s.group? { team := r, gid := g, fid := i }).map f := by
  simp only [State.group?, State.modGroup]
  rw [s.team?_modTeam r (fun t => t.modGroup g f) fun t => rfl]
  cases s.team? r with
  | none => rfl
  | some t => exact t.group?_modGroup g f hf

theorem State.fibre?_modFibre (r : FibreRef) (f : Fibre → Fibre) (hf : ∀ x, (f x).fid = x.fid) :
    (s.modFibre r f).fibre? r = (s.fibre? r).map f := by
  simp only [State.fibre?, State.modFibre]
  rw [show r = { team := r.team, gid := r.gid, fid := r.fid } from rfl,
    s.group?_modGroup r.team r.gid (fun g => g.modFibre r.fid f) (fun x => rfl) r.fid]
  cases s.group? r with
  | none => rfl
  | some g => exact g.fibre?_modFibre r.fid f hf

/-- The fibre that was set is read back, if there was one of its name. -/
theorem State.fibre?_setFibre (r : FibreRef) (f : Fibre) (hf : f.fid = r.fid) :
    (s.setFibre r f).fibre? r = (s.fibre? r).map fun _ => f := by
  have h : ∀ g : Group, (g.modFibre r.fid fun _ => f).fibre? r.fid = (g.fibre? r.fid).map fun _ => f := fun g =>
    find?_map_update _ _ (fun _ => f) g.fibres (fun _ h => h) (fun x hx => by simp_all) fun _ h => h
  simp only [State.fibre?, State.setFibre, State.modFibre]
  rw [show r = { team := r.team, gid := r.gid, fid := r.fid } from rfl,
    s.group?_modGroup r.team r.gid (fun g => g.modFibre r.fid fun _ => f) (fun x => rfl) r.fid]
  cases s.group? r with
  | none => rfl
  | some g => exact h g

end Sys2Proof.Machine
end

