-- ==== Sys2Proof/Laws/Writes.lean ====
section
/-!
SUPPORT. The operations that write memory: what they do to memory and to the memories of teams, and that each of them
keeps the canonical form.
-/
namespace Sys2Proof.Machine

/-! ## Memory of the package -/

@[simp] theorem fireOne_mem (s : State) (w : Waiter) : (fireOne s w).mem = s.mem := by
  unfold fireOne
  split <;> rfl
@[simp] theorem fireOne_teams (s : State) (w : Waiter) : (fireOne s w).teams = s.teams := by
  unfold fireOne
  split <;> rfl
@[simp] theorem fireOne_poison (s : State) (w : Waiter) : (fireOne s w).poison = s.poison := by
  unfold fireOne
  split <;> rfl

/-- A fold of steps that keep something keeps it. -/
theorem foldl_keeps {α β : Type} (g : State → β) {f : State → α → State} (h : ∀ s x, g (f s x) = g s) (l : List α)
    (s : State) : g (l.foldl f s) = g s := by
  induction l generalizing s with
  | nil => rfl
  | cons x l ih => rw [List.foldl_cons, ih, h]

@[simp] theorem State.evaluate_mem (s : State) (p : CounterRef → Bool) : (s.evaluate p).mem = s.mem :=
  foldl_keeps (·.mem) fireOne_mem _ _
@[simp] theorem State.evaluate_teams (s : State) (p : CounterRef → Bool) : (s.evaluate p).teams = s.teams :=
  foldl_keeps (·.teams) fireOne_teams _ _
@[simp] theorem State.evaluate_poison (s : State) (p : CounterRef → Bool) : (s.evaluate p).poison = s.poison :=
  foldl_keeps (·.poison) fireOne_poison _ _

@[simp] theorem State.throughSlice_mem (s : State) (a n : Nat) (w : Bool) : (s.throughSlice a n w).mem = s.mem := by
  unfold State.throughSlice
  split
  · refine foldl_keeps (·.mem) (f := fun s l => s.modCol _ _) (fun _ _ => ?_) _ _
    rfl
  · rfl
@[simp] theorem State.throughSlice_teams (s : State) (a n : Nat) (w : Bool) : (s.throughSlice a n w).teams = s.teams := by
  unfold State.throughSlice
  split
  · refine foldl_keeps (·.teams) (f := fun s l => s.modCol _ _) (fun _ _ => ?_) _ _
    rfl
  · rfl
@[simp] theorem State.throughSlice_poison (s : State) (a n : Nat) (w : Bool) : (s.throughSlice a n w).poison = s.poison := by
  unfold State.throughSlice
  split
  · refine foldl_keeps (·.poison) (f := fun s l => s.modCol _ _) (fun _ _ => ?_) _ _
    rfl
  · rfl

/-- The bytes of a write replace those at its place. -/
@[simp] theorem State.putLoc_mem (s : State) (a : Nat) (bs : List Byte) : (s.putLoc a bs).mem = putAll 0 s.mem a bs := by
  simp [State.putLoc]
@[simp] theorem State.putLoc_teams (s : State) (a : Nat) (bs : List Byte) : (s.putLoc a bs).teams = s.teams := by
  simp [State.putLoc]

@[simp] theorem State.demand_mem (s : State) (o : Nat) : (s.demand o).mem = s.mem := by
  unfold State.demand State.wakeRegion
  dsimp only
  split <;> rfl
@[simp] theorem State.demand_teams (s : State) (o : Nat) : (s.demand o).teams = s.teams := by
  unfold State.demand State.wakeRegion
  dsimp only
  split <;> rfl
@[simp] theorem State.wakePage_mem (s : State) (ins : Bool) (p : Nat) : (s.wakePage ins p).mem = s.mem := by
  unfold State.wakePage
  split <;> simp
@[simp] theorem State.wakePage_teams (s : State) (ins : Bool) (p : Nat) : (s.wakePage ins p).teams = s.teams := by
  unfold State.wakePage
  split <;> simp
@[simp] theorem State.copyAside_teams (s : State) (i : Nat) (ins : Bool) (p : Nat) :
    (s.copyAside i ins p).teams = s.teams := by
  unfold State.copyAside
  dsimp only
  split
  · split <;> simp [State.modCkpt]
  · rfl

/-- Copying a page aside keeps memory's canonical form. -/
theorem State.copyAside_wf (s : State) (i : Nat) (ins : Bool) (p : Nat) (h : Memory.wf s.mem = true) :
    Memory.wf (s.copyAside i ins p).mem = true := by
  unfold State.copyAside
  dsimp only
  split
  · split
    · simpa [State.modCkpt] using wf_putAll _ _ _ h
    · simpa [State.modCkpt] using h
  · exact h

theorem foldl_pred {α : Type} {P : State → Prop} {f : State → α → State} (h : ∀ s x, P s → P (f s x)) (l : List α)
    (s : State) (hs : P s) : P (l.foldl f s) := by
  induction l generalizing s with
  | nil => exact hs
  | cons x l ih => exact ih _ (h s x hs)

@[simp] theorem captureFault_teams (s : State) (a : Nat) : (captureFault s a).teams = s.teams := by
  unfold captureFault
  split
  · rfl
  · refine foldl_keeps (·.teams) (fun s x => ?_) _ _
    obtain ⟨i, c⟩ := x
    dsimp only
    split
    · simp [State.modCkpt]
    · rfl

theorem captureFault_wf (s : State) (a : Nat) (h : Memory.wf s.mem = true) : Memory.wf (captureFault s a).mem = true := by
  unfold captureFault
  split
  · exact h
  · refine foldl_pred (P := fun s => Memory.wf s.mem = true) (fun s x hs => ?_) _ _ h
    obtain ⟨i, c⟩ := x
    dsimp only
    split
    · exact s.copyAside_wf _ _ _ hs
    · exact hs

/-- No checkpoint engine protects a page: a write copies nothing aside. -/
theorem captureFault_none (s : State) (a : Nat) (h : ∀ k ∈ s.ckpt, ∀ p ∈ k.2.pages, p.isProtected = false) :
    captureFault s a = s := by
  have hk (ins : Bool) (page : Nat) : ∀ k ∈ s.ckpt,
      (k.2.pages.any fun p => p.isProtected && p.insole == ins && p.page == page) = false := fun k hk => by
    rw [List.any_eq_false]
    intro p hp
    simp [h k hk p hp]
  unfold captureFault
  split
  · rfl
  · generalize s.ckpt = l at hk
    induction l generalizing s with
    | nil => rfl
    | cons k l ih =>
      rename_i ins page _
      have := hk ins page k (by simp)
      rw [List.foldl_cons]
      simp only [this, Bool.false_eq_true, if_false]
      exact ih s h ‹_› fun i p k hk' => hk i p k (by simp [hk'])

/-- A write at a location replaces its bytes, once its pages' images are aside. -/
theorem State.writeLoc_mem (s : State) (a : Nat) (bs : List Byte) :
    (s.writeLoc a bs).mem = putAll 0 ((pagesOf a bs.length).foldl captureFault s).mem a bs := by
  simp [State.writeLoc]
@[simp] theorem State.writeLoc_teams (s : State) (a : Nat) (bs : List Byte) : (s.writeLoc a bs).teams = s.teams := by
  simpa [State.writeLoc] using foldl_keeps (·.teams) captureFault_teams _ _

/-- What a byte of the write reads as after it. -/
theorem State.byteAt_writeLoc (s : State) (a x : Nat) (bs : List Byte) (h : a ≤ x ∧ x < a + bs.length) :
    byteAt (s.writeLoc a bs).mem x = bs.getD (x - a) 0 := by
  rw [s.writeLoc_mem, byteAt_putAll, if_pos h]

/-! ## Canonical form -/

theorem memoryWf_iff (s : State) : s.memoryWf = true ↔
    Memory.wf s.mem = true ∧ ∀ t ∈ s.teams, Memory.wf t.scratch = true ∧ Memory.wf t.slotBytes = true := by
  simp [State.memoryWf]

/-- Only memory and teams decide. -/
theorem memoryWf_congr {s t : State} (hm : t.mem = s.mem) (ht : t.teams = s.teams) : t.memoryWf = s.memoryWf := by
  simp [State.memoryWf, hm, ht]

theorem memoryWf_modTeam {s : State} (r : TeamRef) (f : Team → Team) (h : s.memoryWf = true)
    (hf : ∀ t ∈ s.teams, Memory.wf t.scratch = true → Memory.wf t.slotBytes = true →
      Memory.wf (f t).scratch = true ∧ Memory.wf (f t).slotBytes = true) : (s.modTeam r f).memoryWf = true := by
  rw [memoryWf_iff] at *
  refine ⟨h.1, fun t ht => ?_⟩
  simp only [State.modTeam, List.mem_map] at ht
  obtain ⟨u, hu, rfl⟩ := ht
  split
  · exact hf u hu (h.2 u hu).1 (h.2 u hu).2
  · exact h.2 u hu

theorem foldl_memoryWf {α : Type} {f : State → α → State} (h : ∀ s x, s.memoryWf = true → (f s x).memoryWf = true)
    (l : List α) (s : State) (hs : s.memoryWf = true) : (l.foldl f s).memoryWf = true := by
  induction l generalizing s with
  | nil => exact hs
  | cons x l ih => exact ih _ (h s x hs)

theorem State.writeLoc_memoryWf (s : State) (a : Nat) (bs : List Byte) (h : s.memoryWf = true) :
    (s.writeLoc a bs).memoryWf = true := by
  rw [memoryWf_iff] at *
  rw [State.writeLoc_mem, State.writeLoc_teams]
  exact ⟨wf_putAll _ a bs (foldl_pred (P := fun s => Memory.wf s.mem = true) captureFault_wf _ s h.1), h.2⟩

theorem State.writeNum_memoryWf (s : State) (a n v : Nat) (h : s.memoryWf = true) : (s.writeNum a n v).memoryWf = true :=
  s.writeLoc_memoryWf a _ h

theorem State.addLoc_memoryWf (s : State) (a : Nat) (v : DWord) (h : s.memoryWf = true) : (s.addLoc a v).memoryWf = true :=
  s.writeNum_memoryWf a 8 _ h

theorem State.journal_memoryWf (s : State) (r : TeamRef) (u : UnitRef) (h : s.memoryWf = true) :
    (s.journal r u).memoryWf = true := by
  unfold State.journal
  split
  · split
    · split
      · exact h
      · dsimp only
        split
        all_goals exact memoryWf_modTeam r _ h fun t _ h1 h2 => ⟨h1, h2⟩
    · exact h
  · exact h

theorem State.writeScratch_memoryWf (s : State) (r : TeamRef) (o : Nat) (bs : List Byte) (old : Bool)
    (h : s.memoryWf = true) : (s.writeScratch r o bs old).memoryWf = true := by
  unfold State.writeScratch
  dsimp only
  rw [memoryWf_congr (State.evaluate_mem _ _) (State.evaluate_teams _ _)]
  refine memoryWf_modTeam r _ ?_ fun t _ h1 h2 => ⟨wf_putAll t.scratch o bs h1, h2⟩
  split
  · exact h
  · exact foldl_memoryWf (fun s x hs => s.journal_memoryWf r _ hs) _ s h

theorem State.writeSlot_memoryWf (s : State) (r : TeamRef) (slot off : Nat) (bs : List Byte) (old : Bool)
    (h : s.memoryWf = true) : (s.writeSlot r slot off bs old).memoryWf = true := by
  unfold State.writeSlot
  dsimp only
  refine memoryWf_modTeam r _ ?_ fun t _ h1 h2 => ⟨h1, wf_putAll t.slotBytes (slotKey slot off) bs h2⟩
  split
  · exact h
  · exact foldl_memoryWf (fun s x hs => s.journal_memoryWf r _ hs) _ s h

theorem State.writeCells_memoryWf (s : State) (r : TeamRef) (cs : List (Nat × Nat × Word)) (old : Bool)
    (h : s.memoryWf = true) : (s.writeCells r cs old).memoryWf = true := by
  unfold State.writeCells
  dsimp only
  refine memoryWf_modTeam r _ ?_ fun t _ h1 h2 => ⟨h1, h2⟩
  split
  · exact h
  · exact foldl_memoryWf (fun s x hs => s.journal_memoryWf r _ hs) _ s h

theorem State.withFetchWord_memoryWf (s : State) (nbits w : Nat) (h : s.memoryWf = true) :
    (s.withFetchWord nbits w).memoryWf = true := by
  rw [memoryWf_iff] at *
  unfold State.withFetchWord
  dsimp only
  split
  · exact ⟨wf_putAll _ _ _ h.1, h.2⟩
  · refine ⟨wf_putAll _ _ _ (wf_putAll _ _ _ h.1), fun t ht => ?_⟩
    rcases List.mem_cons.1 ht with rfl | ht
    · exact ⟨rfl, rfl⟩
    · exact h.2 t (List.mem_filter.1 ht).1

theorem State.reset_memoryWf : State.reset.memoryWf = true := rfl

end Sys2Proof.Machine
end

