-- ==== Sys2Proof/Tests/Slice0.lean ====
section
/-!
SUPPORT. Tests: what the well-formedness checks refuse, words written out from the encoding tables, one step of
instructions whose results the spec works out, and for every statement states and operands that meet its hypotheses.
-/
namespace Sys2Proof.Tests
open Sys2Proof Sys2Proof.Machine

/-! ## A small machine -/

/-- Fibre 0 of the one team of the launch that `withFetchWord` places. -/
def fib0 : FibreRef := { team := { seq := 1, idx := 0 }, gid := 0, fid := 0 }

/-- That fibre is about to execute an instruction. -/
def small : State := { State.reset.withFetchWord 32 0x10 with cur := some fib0, agenda := [] }

def withFibre (f : Fibre → Fibre) : State := small.modFibre fib0 f
def withTeam (f : Team → Team) : State := small.modTeam fib0.team f
def withKernel (f : Kernel → Kernel) : State := small.modLaunch 1 fun l => { l with kernel := f l.kernel }
/-- The running split with other threads. -/
def withThreads (m : Mask) : State := withFibre fun f => { f with splits := f.splits.map fun x => { x with mask := m } }

/-- An extended word whose fields are zero. -/
def blank : Fields := { shortWord false false 0 0 0 with form := .ext }
def blankU : Fields := { blank with u := true }

/-- Virtual addresses from 2^48 on lie in HBM of package 4, behind port 0. -/
def peered : State := { small.modPort 0 (fun p => { p with up := true, keyed := true }) with
  mem := putAll 0 small.mem (fetchRoot * 4096 + 8) (bytesLE (0xDF + 2 ^ 46 + 2 ^ 54 + 2 ^ 58) 8) }
/-- Every fibre names such an address: in registers 0 and 1 of its threads, and in s0. -/
def toPeer : State := peered.modFibre fib0 fun f => { f with v := (List.range 16).map fun t => (64 + t, 0x10000), s := [(0, 2 ^ 48)] }
/-- Virtual addresses from 2^48 on lie on a STRONG page, of HBM here and of package 4, whose class moves to another
port; the fibre's vector registers 0 and 1 and s0 name them. -/
def strongAt (leaf : Nat) (s : State) : State :=
  { s with mem := putAll 0 s.mem (fetchRoot * 4096 + 8) (bytesLE (0xDF + 2 ^ 56 + 2 ^ 62 + leaf) 8) }.modFibre fib0 fun f =>
    { f with v := (List.range 16).map fun t => (64 + t, 0x10000), s := [(0, 2 ^ 48)] }
def strong : State := strongAt 0 small
def strongPeer : State := { (strongAt (2 ^ 46 + 2 ^ 54 + 2 ^ 58) small).modPort 0 (fun p => { p with up := true, keyed := true }) with
  stalled := [{ cls := 0, port := 5 }] }
/-- A line of core 0 is on its way to a peer by a port that is down. -/
def sent (s : State) : State := s.modCore 0 fun k => { k with flight := [{ loc := 2 ^ 64, entered := 0, age := 0, port := some 5 }] }
/-- The class of that line moves to another port. -/
def moving (s : State) : State := { s with stalled := [{ cls := 0, port := 5 }] }

/-- Nothing keeps an instruction from its effect at s, and its context and state meet p. -/
def meets (s : State) (i : Instr) (p : Ctx → State → Bool) : Bool :=
  match s.clear i with
  | some c => p c (s.begun c)
  | none => false

/-- Nothing keeps any of the instructions from its effect. -/
def allClear (s : State) (l : List Instr) : Bool := l.all fun i => (s.clear i).isSome

/-! ## Hypotheses of the statements are met: arithmetic -/

theorem test_witness_IntegerArithmeticGivesRes : allClear small
    [.iadd blank, .isub blank, .imul blank, .imulh blank, .imad blank, .imin blank, .imax blank, .isad blank, .iabs blank,
     .iabsShort 0 0 false false, .ineg blank, .inegShort 0 0 true true, .iadd { blank with m := 8 }] = true ∧
    (∀ i ∈ [Instr.imulh blank, .imin blank, .imax blank], i.wf = true) := by decide

theorem test_witness_CarryChainsAndDivision : allClear small [.iaddc blank, .isubb blankU, .idiv blank, .irem blankU] = true := by
  decide

theorem test_witness_WideMultiplyCompareAndAddress : allClear small
    [.imadw blank, .icmp blank, .icmp { blank with f := 5 }, .lea { blank with form := .extLit, lit := 0x40 }] = true := by decide

theorem test_witness_LogicAndShiftsWorkOnTheWidth :
    allClear small [.and blank, .or blank, .xor blank, .andn blank, .bmix { blank with x := 0xE8 }, .shl blank, .shr blank,
      .sar blank, .rot blank, .fshl blank, .fshr blank] = true ∧
    (Instr.bmix { blank with x := 255 }).wf = true ∧ 256 ≤ ({ blank with x := 256 } : Fields).x.toNat := by decide

theorem test_witness_FieldsCountsAndBytes : allClear small
    [.bfx blank, .bfi blank, .popc blank, .popcShort 0 0 false false, .clz blank, .clzShort 0 0 false false, .ctz blank,
     .ctzShort 0 0 false false, .brev blank, .brevShort 0 0 false false, .bperm blank] = true := by decide

theorem test_witness_PackedElementsAreSeparate : allClear small
    [.iadd2 blank, .isub2 blank, .imin2 blank, .imax2 blank, .icmp2 blank, .icmp2 { blankU with f := 5 }] = true := by decide

theorem test_witness_TrellisStepKeepsTheBetterPath : allClear small [.iacs2 blank] = true ∧ (Instr.iacs2 blank).wf = true ∧
    ({ blank with m := 64 } : Fields).m.getLsbD 6 = true := by decide

theorem test_witness_FloatArithmeticFixedLatency : allClear small
    [.fadd blank, .fsub blank, .fmul blank, .ffma blank, .fmin blank, .fmax blank, .frnd blank, .dadd blank, .dsub blank,
     .dmul blank, .dfma blank, .dmin blank, .dmax blank, .drnd blank, .fadd2 blank, .fmul2 blank, .ffma2 blank, .fmin2 blank,
     .fmax2 blank] = true ∧
    ([fp32, fp64, bf16].all fun f => f.low == 0 && !f.e4m3 && decide (f.infinity true < 2 ^ (f.fb + f.eb + 1))) = true := by decide

theorem test_witness_FloatComparesAndVariableLatency : allClear small
    [.fcmp blank, .dcmp blank, .fclass blank, .dclass blank, .fdiv blank, .frcp blank, .frcpShort 0 0 false false, .fsqrt blank,
     .fsqrtShort 0 0 false false, .ddiv blank, .drcp blank, .drcpShort 0 0 false false, .dsqrt blank,
     .dsqrtShort 0 0 false false, .frsq blank, .frsqShort 0 0 false false, .fex2 blank, .fex2Short 0 0 false false, .flg2 blank,
     .flg2Short 0 0 false false, .fsin blank, .fsinShort 0 0 false false, .fcos blank, .fcosShort 0 0 false false] = true := by
  decide

/-- Values of each kind that its clauses name: the last condition; a signalling NaN, both infinities, both zeros, −1.0 and
4.0 of FP32; for FEX2 the first result that overflows and the exponents at the ends of its exact ones. -/
theorem test_witness_FloatComparesAndVariableLatency_values :
    13 < 14 ∧ fp32.value 0x7F800001 = .nan true ∧ fp32.value 0x7F800000 = .inf false ∧ fp32.value 0xFF800000 = .inf true ∧
    fp32.value 0 = .fin false 0 (-149) ∧ fp32.value 0x80000000 = .fin true 0 (-149) ∧
    fp32.value 0xBF800000 = .fin true (2 ^ 23) (-23) ∧ (fp32.value 0x40800000 = .fin false (2 ^ 23) (-21) ∧ (-21 : Int) + 23 = 2 * 1) ∧
    (fp32.value 0x43000000 = .fin false (2 ^ 23) (-16) ∧ 128 * 2 ^ 16 ≤ 2 ^ 23 * 2 ^ 0) ∧
    (fp32.value 0x42FE0000 = .fin false 0xFE0000 (-17) ∧ (0xFE0000 : Int) * 2 ^ 0 = 127 * 2 ^ 17) ∧
    (fp32.value 0xC3150000 = .fin true 0x950000 (-16) ∧ -(0x950000 : Int) * 2 ^ 0 = -149 * 2 ^ 16) := by decide

/-- The greatest finite value of each format, and zero. -/
theorem test_witness_RoundingFollowsTheModes :
    ([(fp64, 0x7FEFFFFFFFFFFFFF), (fp32, 0x7F7FFFFF), (bf16, 0x7F7F), (fp16, 0x7BFF), (e4m3, 0x7E), (e5m2, 0x7B), (e8m10, 0)].all
      fun p => decide (p.2 < 2 ^ (p.1.low + p.1.fb + p.1.eb + 1)) && p.2 % 2 ^ p.1.low == 0 &&
        match p.1.value p.2 with
        | .fin _ _ _ => true
        | _ => false) = true := by decide

/-- Types of each kind: FP16 and E5M2, the first and the last format; I8 and I2, the first and the last integer. -/
theorem test_witness_ConversionsAndTernary : allClear small [.cvt blank, .tripck blank, .triunp blank] = true ∧
    fmtOf 8 = some fp16 ∧ fmtOf 14 = some e5m2 ∧ (fmtOf 0 = none ∧ intOf 0 = some (true, 8)) ∧
    (fmtOf 20 = none ∧ intOf 20 = some (true, 2)) := by decide

theorem test_witness_MovesAndPredicates : allClear small
    [.mov blank, .movShort 0 0 false false, .movi { blank with form := .extLit }, .sel blank, .sel blankU, .pmix blank,
     .pset blank, .pget blank, .pcol blank, .pcol { blank with f := 4 }] = true := by decide

theorem test_witness_ThreadsExchangeAndFold : allClear small
    [.gswz blank, .gswz { blank with f := 4, m := 4 }, .rdth { blank with m := 0x80 }, .wrth { blank with m := 0x80 },
     .gred { blank with m := 2 }, .gred { blank with m := 11 }, .gscan { blank with m := 10, f := 8 }] = true ∧
    fmtOf 10 = some fp32 ∧ (fmtOf 7 = none ∧ intOf 7 = some (false, 64) ∧ 2 ^ 64 - 1 < 2 ^ 64) := by decide

/-! ## Control and system instructions -/

theorem test_witness_ControlInstructionsComplete : allClear small
    [.nop blank, .nopShort true true, .yield blankU, .yieldShort false, .exit blank, .exitShort true, .call blankU, .ret blankU,
     .retShort 0 false, .fprio blankU, .fprioImmShort 15 false, .fprioRegShort 0 false] = true := by decide

/-- Checking is on, and FSIG agrees with the literal or differs from it; the deadlines of SLEEP at the ends of their
ranges: now, 1 and 2^62 ahead, 2^62 + 1 ahead. -/
theorem test_witness_SigckComparesAndSleepParks :
    let sigs := withKernel fun k => { k with signatures := true }
    let lit : Fields := { blankU with form := .extLit }
    let at_ (v : DWord) : State := withFibre fun f => { f with s := [(0, v)] }
    meets sigs (.sigck lit) (fun c _ => c.k.signatures && c.f.fsig == c.w.lit.setWidth 32) = true ∧
    meets small (.sigck { lit with lit := 5 }) (fun c _ => !c.k.signatures) = true ∧
    meets sigs (.sigck { lit with lit := 5 }) (fun c _ => c.k.signatures && c.f.fsig != c.w.lit.setWidth 32) = true ∧
    (∀ i ∈ [Instr.sleep blankU, .sleepShort 0 true true],
      meets (at_ 0) i (fun c s => satisfies (BitVec.ofNat 64 s.tick) (uniOperand s c c.w.a.toNat uniThread)) = true ∧
      ([(1 : DWord), 0x4000000000000000].all fun v => meets (at_ v) i fun c s =>
        let dl := uniOperand s c c.w.a.toNat uniThread
        !satisfies (BitVec.ofNat 64 s.tick) dl && !distant (BitVec.ofNat 64 s.tick) dl) = true ∧
      ([(0x4000000000000001 : DWord), 0x8000000000000000].all fun v => meets (at_ v) i fun c s =>
        let dl := uniOperand s c c.w.a.toNat uniThread
        !satisfies (BitVec.ofNat 64 s.tick) dl && distant (BitVec.ofNat 64 s.tick) dl) = true) := by decide

/-- A target table of two entries: an index inside it, the first index outside it, no threads, no table. -/
theorem test_witness_IndirectJumpsStayInTheTable :
    let table : List Byte := bytesLE 0x200100 8 ++ bytesLE 2 8 ++ bytesLE 0x200040 8 ++ bytesLE 0x200080 8
    let cached (v : Word) : State := ((withKernel fun k => { k with pttCount := 1 }).modFibre fib0 fun f => { f with v := [(0, v)] }).modCore 0
      fun k => { k with records := [{ seq := 1, table := true, num := 0, bytes := table }] }
    let read (c : Ctx) (s : State) : Option (DWord × List DWord) :=
      match s.fetchTable c 0 with
      | .ok (bs, _) => parseTable bs
      | .error _ => none
    ∀ i ∈ [Instr.jx blank, .callx blank],
      meets (withThreads 0) i (fun c _ => c.act == 0) = true ∧
      meets small i (fun c _ => c.act != 0 && decide (c.k.pttCount ≤ 0)) = true ∧
      meets (cached 1) i (fun c s => c.act != 0 && decide (0 < c.k.pttCount) && match read c s with
        | some (_, ts) => (threads c.parts).all fun t => decide ((vecOperand c false c.w.a.toNat t).toNat < ts.length)
        | none => false) = true ∧
      meets (cached 2) i (fun c s => c.act != 0 && bit c.parts 0 && match read c s with
        | some (_, ts) => decide (ts.length ≤ (vecOperand c false c.w.a.toNat 0).toNat)
        | none => false) = true := by decide

theorem test_witness_TrapAndBreakRaiseTheirCauses :
    (∀ i ∈ [Instr.trap { blank with x := 0x2A }, .brk { blank with f := 7 }, .brkShort 7 false],
      meets small i (fun c _ => c.parts != 0) = true ∧ meets (withThreads 0) i (fun c _ => c.parts == 0) = true) ∧
    (Instr.trap { blank with x := 0xFFFF }).wf = true ∧ (Instr.brk { blank with f := 15 }).wf = true := by decide

/-- A split table with one running split, and inside a handler. -/
def inHandler : State := withFibre fun f =>
  match f.splits with
  | x :: _ => { f with frozen := some { splits := [{ x with hw := none }], fsig := 0, run := 0 }, tpc := 0x200000 }
  | [] => f

theorem test_witness_TrapReturnRestoresTheFrozenTable :
    (∀ i ∈ [Instr.tret blankU, .tretShort false false, .tretShort true false],
      meets small i (fun c _ => c.f.frozen == none) = true) ∧
    (∀ i ∈ [Instr.tret blankU, .tretShort false false],
      meets inHandler i (fun c _ => c.f.frozen.isSome && !c.w.f.getLsbD 0) = true) ∧
    (∀ i ∈ [Instr.tret { blankU with f := 1 }, .tretShort true false],
      meets inHandler i (fun c s => c.f.frozen.isSome && c.w.f.getLsbD 0 && match s.fetchWord c.space c.f.tpc.toNat with
        | .ok _ => true
        | .fault _ _ => false) = true) ∧
    (match small.fibre? fib0 with
      | some f => f.frozen == none && (f.splits.all fun x => x.mask != 0) && (f.splits.map (·.idx)).Nodup &&
          match f.run? with
          | some x => !x.slp && x.park == .none && f.splits.all fun y => y.st != .running || y == x
          | none => false
      | none => false) = true := by decide

theorem test_witness_SystemRegistersReadAndWritten :
    (∀ i ∈ [Instr.srd blankU, .srd { blankU with a := 4 }, .srd { blank with a := 0x0A }, .srdShort 4 0 true false,
        .swr { blankU with d := 4 }, .swr { blankU with d := 2 }, .swrShort 0 4 false],
      meets small i (fun c _ => !c.f.outstanding.any (·.float)) = true) ∧
    7 ∉ [0x02, 0x03, 0x04, 0x05, 0x06] := by decide

/-- A floating-point result outstanding, and one of fixed latency that lands after its instruction's hold. -/
theorem test_witness_SystemRegistersReadAndWritten_flags :
    let late : State := withFibre fun f => { f with outstanding := [{ id := 0, writes := [], flags := 1, float := true }] }
    (∀ i ∈ [Instr.srd { blankU with a := 4 }, .srdShort 4 0 true false, .swr { blankU with d := 4 }, .swrShort 0 4 false],
      meets late i (fun c _ => c.f.outstanding.any (·.float) && (c.w.a == 4 || c.w.d == 4)) = true) ∧
    meets (withThreads 1) (.dadd blank) (fun c s =>
      let x := floatFixed true 16 (on2 true (fAdd fp64)) c s
      raisesFlags c.op c.w && x.remote.isEmpty && x.later.isNone && decide (c.hold < x.lat) && (s.fibre? c.r).isSome) = true := by decide

theorem test_witness_SyscallCheckpointAndShootdown :
    let rb (f : Fibre → Fibre) : State := (withKernel fun k => { k with rollback := true }).modFibre fib0 f
    meets (withThreads 0) (.sysc { blank with m := 0x80 }) (fun c _ => c.parts == 0) = true ∧
    meets small (.sysc { blank with m := 0x80 }) (fun c s => c.parts != 0 &&
      let q := (syscRun s c).1.writeSysc c (syscRun s c).2
      q.2.todo != 0 || !q.2.entries.isEmpty) = true ∧
    (∀ i ∈ [Instr.tckpt blankU, .tckptShort false],
      meets small i (fun c _ => !c.k.rollback) = true ∧
      meets (rb fun f => { f with ckptPass := true }) i (fun c _ => c.k.rollback && c.f.ckptPass) = true ∧
      meets (rb id) i (fun c _ => c.k.rollback && !c.f.ckptPass && c.f.outstanding.isEmpty) = true ∧
      meets (rb fun f => { f with outstanding := [{ id := 0, writes := [], flags := 0 }] }) i
        (fun c _ => c.k.rollback && !c.f.ckptPass && c.f.outstanding.any fun p => p.due.isNone) = true) ∧
    (∀ i ∈ [Instr.tlbinv blankU, .tlbinv { blankU with f := 3 }],
      meets small i (fun _ s => s.flushStores.allAcked) = true ∧ meets (sent small) i (fun _ s => !s.flushStores.allAcked) = true) ∧
    (∀ x ∈ small.waiters, small.shootsWait none none x = false) := by decide

/-- Thread 63 asks last, with room in the ring; no ring; a line on its way; every fibre of a team has arrived. -/
theorem test_witness_SyscallCheckpointAndShootdown_last :
    let s : State := small.modCol 0 fun c => { c with scbase := 0x1000, scsize := 4, scprod := 0x2000 }
    let q : SyscRun := { pc := 0, sig := 0, todo := 1#64 <<< 63, entries := [], w := blank, number := 0 }
    let t : State := withFibre fun f => { f with hold := .checkpoint }
    (q.todo ≠ 0 ∧ (s.core 0).wcb = [] ∧ (s.core 0).flight = [] ∧ s.syscRingFull 0 = false) ∧ small.syscRingFull 0 = true ∧
    (((sent s).drainHome 0).core 0).flight ≠ [] ∧
    (t.team? fib0.team).map Team.allArrived = some true := by decide

/-! ## Memory instructions -/

/-- The checks of a load, of a store and of an atomic, as the statements ask for them. -/
def loadAt (s : State) (c : Ctx) (scratch : Bool) : Option Located :=
  match s.checkPlain c .load (sizeBytes (sizeOf_ c.w)) (sizeOf_ c.w) (requests s c scratch) with
  | .ok r =>
    if (requests s c scratch).isEmpty || (ordOf c.w == 1 && s.scopeMissing (scopeOf c.w)) ||
      (s.strongFirst c r).consumes (some c.core) c.r.team false (r.flatMap (·.2)) || s.moves (remotePlaces r false) then none
    else some r
  | .error _ => none

def storeAt (s : State) (c : Ctx) (scratch : Bool) : Option Located :=
  match s.checkPlain c .store (sizeBytes (sizeOf_ c.w)) (sizeOf_ c.w) (requests s c scratch) with
  | .ok r => if (requests s c scratch).isEmpty || (ordOf c.w == 2 && s.scopeMissing (scopeOf c.w)) then none else some r
  | .error _ => none

def modifyAt (s : State) (c : Ctx) : Option Located :=
  match s.checkAligned c .rmw (atomicBytes c.w) (if atomicWide c.w then 5 else 4)
    (c.steps.map fun t => Req.generic t (srcA s c true t)) with
  | .ok r =>
    if c.steps.isEmpty || s.scopeMissing (scopeOf c.w) || s.consumes none c.r.team true (r.flatMap (·.2)) ||
      s.moves (remotePlaces r true) then none
    else some r
  | .error _ => none

theorem loadAt_mayLoad {s : State} {c : Ctx} {scratch : Bool} {r : Located} (h : loadAt s c scratch = some r) :
    s.mayLoad c scratch r := by
  unfold loadAt at h
  split at h
  · split at h
    · cases h
    · rename_i h1 h2
      cases h
      simp only [Bool.or_eq_true, not_or, Bool.not_eq_true, Bool.and_eq_false_iff, List.isEmpty_eq_false_iff] at h2
      refine ⟨h2.1.1.1, ?_, h1, h2.1.2, h2.2⟩
      rintro ⟨ho, hm⟩
      rcases h2.1.1.2 with h | h
      · simp [ho] at h
      · simp [hm] at h
  · cases h

/-- Thread 0 loads from a line that L1 holds, the other threads do not. -/
def halfPresent : State := (withFibre fun f => { f with v := (List.range 15).map fun t => (t + 1, 0x1000) }).modCore 0 fun k =>
  { k with l1 := [{ addr := 0, bytes := List.replicate 128 0 }] }

/-- No participants; every thread at one address; a STRONG page, with a line on its way or without; a divided load. -/
theorem test_witness_LoadsDeliverWhatTheyRead :
    (∀ x ∈ [(Instr.ld blank, false), (.lds blank, true)],
      meets (withThreads 0) x.1 (fun c s => (requests s c x.2).isEmpty) = true) ∧
    ((∀ x ∈ [(Instr.ld blank, false), (.lds blank, true), (.ldu blankU, false)],
      meets small x.1 (fun c s => match loadAt s c x.2 with
        | some r => !(c.w.m.getLsbD 0 && (r.any fun x => !x.2.all (s.present c)) && s.missing c r != c.act)
        | none => false) = true) ∧
    (∀ x ∈ [(strong, true), (sent strong, false)], meets x.1 (.ld blank) (fun c s => match loadAt s c false with
      | some r => anyStrong r && (s.strongFirst c r).acked c.core == x.2
      | none => false) = true) ∧
    meets halfPresent (.ld { blank with m := 1, form := .extLit, x := 0x800000 }) (fun c s => match loadAt s c false with
        | some r => c.w.m.getLsbD 0 && (r.any fun x => !x.2.all (s.present c)) && s.missing c r != c.act
        | none => false) = true) := by decide

/-- The spans of 16-byte loads, and a run of the last bytes of a line; a team without pending lines. -/
theorem test_witness_LoadsDeliverWhatTheyRead_values :
    meets small (.ldu { blankU with f := 6 }) (fun c s => match loadAt s c false with
      | some r => r.all (fun x => (x.2.map (·.len)).sum == 16) && r.all fun x => x.2.all fun p => match p.home with
        | .mem _ q => q.peer == none && q.type != .strong && isLocal q.loc && decide (q.loc % 128 + p.len ≤ 128)
        | .scratch _ => false
      | none => false) = true ∧
    (sizeOf_ { blankU with f := 6 } = 6 ∧ { blankU with f := 6 : Fields }.u = true) ∧
    ((small.core 0).wcb = [] ∧ (small.core 0).flight = [] ∧ small.poison = [] ∧ (small.core 0).l1 = []) ∧
    (small.team? fib0.team).map (·.pendingLines) = some [] := by decide

/-- A release store waits behind a line on its way, and so does one to a STRONG page; one without marks about, and one
with; two STRONG ones, whose buffer leaves for home at once or for a peer. -/
theorem test_witness_StoresPerformInThreadOrder :
    let first (s : State) (c : Ctx) (r : Located) : State :=
      (if ordOf c.w == 2 && drains c.k.pair (scopeOf c.w) then s.drainHome c.core else s).strongFirst c r
    let waits (s : State) (c : Ctx) (r : Located) : Bool :=
      (ordOf c.w == 2 && drains c.k.pair (scopeOf c.w) || anyStrong r) && !(first s c r).acked c.core
    let ready (i : Instr × Bool) (s : State) (c : Ctx) : Bool := match storeAt s c i.2 with
      | some r => !waits s c r
      | none => false
    let strongly (home : Bool) (c : Ctx) (s : State) : Bool := match storeAt s c false with
      | some r => anyStrong r && !waits s c r && home ==
        (r.foldl (fun u q => u.storeSpans c q.2 (storeDatum s c q.1.t)) ((first s c r).makeUnsafe c.r.team)).acked c.core
      | none => false
    let release (w : Fields) : Fields := { w with m := 0x18, x := 0x2000000 }
    (∀ x ∈ [(Instr.st blank, false), (.sts blank, true)],
      meets (withThreads 0) x.1 (fun c s => (requests s c x.2).isEmpty) = true) ∧
    (∀ x ∈ [(Instr.st blank, false), (.sts blank, true), (.stu blankU, false)],
      meets small x.1 (fun c s => ready x s c && s.poison.isEmpty) = true ∧
      meets { small with poison := [0] } x.1 (fun c s => ready x s c && !s.poison.isEmpty) = true) ∧
    (∀ x ∈ [(Instr.st (release blank), false), (.sts (release blank), true), (.stu (release blankU), false)],
      meets (sent small) x.1 (fun c s => match storeAt s c x.2 with
        | some r => waits s c r && !anyStrong r
        | none => false) = true) ∧
    meets (sent strong) (.st blank) (fun c s => match storeAt s c false with
      | some r => waits s c r && anyStrong r
      | none => false) = true ∧
    meets strong (.st blank) (strongly true) = true ∧ meets strongPeer (.st blank) (strongly false) = true ∧
    coveredSectors [(.generic 0 0, [{ pos := 0, len := 32, home := .mem 0 { loc := 64, type := .normal, etp := false } }])] = [2] := by
  decide +kernel

/-- With .rel an atomic waits behind a line on its way, but not an ACAS that fails; scratchpad offset 0x10, and the first
one behind the header. -/
theorem test_witness_AtomicsReturnOldValues :
    meets (sent (withFibre fun f => { f with v := (List.range 16).map fun t => (64 + t, 5) })) (.acas { blank with f := 8, m := 0x18, c := 1 })
      (fun c s => match modifyAt s c with
        | some r => c.w.f.getLsbD 3 && !(s.atomics c s r).1.any fun x => x.2.toNat == (srcC s c (atomicWide c.w) x.1).toNat
        | none => false) = true ∧
    (∀ i ∈ [Instr.aadd blank, .amin blank, .amax blank, .alog blank, .axchg blank, .acas blank, .afadd blank],
      meets (withThreads 0) i (fun c _ => c.steps.isEmpty) = true ∧
      meets small i (fun c s => (modifyAt s c).isSome && !c.w.f.getLsbD 3) = true) ∧
    meets (sent small) (.aadd { blank with f := 8, m := 0x18 }) (fun c s => match modifyAt s c with
      | some r => c.w.f.getLsbD 3 && (anyRemote r || drains c.k.pair (scopeOf c.w)) && !(s.drainHome c.core).acked c.core
      | none => false) = true ∧
    2 ^ 32 - 1 < 2 ^ (8 * atomicBytes blank) ∧ (small.team? fib0.team).map (·.pendingLines) = some [] ∧
    (0x3C % atomicBytes blank = 0 ∧ 0x40 % atomicBytes blank = 0) := by decide +kernel

/-- Scopes: of the package, valid, and fabric scope 0 before it is valid; a line on its way; a range of one byte at the end
of a block; the last page of the lower half of the address space. -/
theorem test_witness_FencesAndFlushes :
    (∀ i ∈ [Instr.fence blankU, .rflush blankU], meets small i (fun c s => !s.scopeMissing (scopeOf c.w) &&
      ((s.drain c.core).core c.core).flight.isEmpty && !(s.release c.core c.k.pair (scopeOf c.w)).unreleased c.core c.k.pair (scopeOf c.w)) = true) ∧
    meets (sent small) (.fence { blankU with m := 0x20 }) (fun c s => !s.scopeMissing (scopeOf c.w) && decide (4 ≤ scopeOf c.w) &&
      !((s.drain c.core).core c.core).flight.isEmpty) = true ∧
    meets (sent small) (.rflush { blankU with m := 0x20 }) (fun c s => !s.scopeMissing (scopeOf c.w) &&
      (s.release c.core c.k.pair (scopeOf c.w)).unreleased c.core c.k.pair (scopeOf c.w)) = true ∧
    (1 < 2 ^ 64 ∧ 0x5F < 2 ^ 64 ∧ ({ addr := 0x40, bytes := [] } : CacheLine).addr % 32 = 0) ∧
    (match small.xlate { core := 0, asid := 0, root := fetchRoot } .load (max 0x2FFFFF ((0x2FFFFF + 1) / 4096 * 4096)) with
      | .ok p => p.loc == 0x300000
      | .fault _ _ => false) = true ∧
    (∀ i ∈ [Instr.fence { blankU with m := 0x28 }, .rflush { blankU with m := 0x28 }],
      meets small i (fun c s => s.scopeMissing (scopeOf c.w)) = true) ∧
    allClear small [.pf blank, .cctl blankU, .cctl { blankU with f := 1 }, .icinv blankU, .icinv { blankU with f := 1 }] = true := by decide

theorem test_witness_MemoryWritesAreExact : (small.team? fib0.team).isSome = true ∧ small.ckpt = [] ∧
    Memory.wf small.mem = true := by decide

/-- A run of a store of eight bytes at HBM byte 0x1000, and one at team offset 0x3C, at the edge of the header words. -/
theorem test_witness_StoresTouchOnlyTheirBytes :
    meets small (.st blank) (fun c s => match s.locateAll c.space .store 8 [Req.generic 0 0x1000] with
      | .ok [(_, [p])] => (match p.home with
        | .mem _ q => q.peer == none && q.type != .strong && q.type != .wc && decide (p.pos + p.len ≤ 8)
        | .scratch _ => false)
      | _ => false) = true ∧
    meets small (.sts blank) (fun c s => match s.locateAll c.space .store 8 [Req.team 0 0x3C] with
      | .ok [(_, [p])] => (match p.home with
        | .mem _ _ => false
        | .scratch o => o == 0x3C && decide (p.pos + p.len ≤ 8))
      | _ => false) = true ∧
    ((small.team? fib0.team).map (·.pendingLines)) = some [] ∧
    (small.ckpt = [] ∧ (small.core 0).wcb = [] ∧ (small.core 0).flight = []) ∧
    (let q : Phys := { loc := 0x78, type := .wc, etp := false }
     q.combines = true ∧ q.loc % 128 + 8 ≤ 128) := by decide

/-! ## Counters -/

/-- Values against a threshold at the ends of the three ranges: met, ahead, distant. -/
theorem test_witness_ThresholdsAreMetOrAheadOrDistant :
    ([(0, 0), (0x7FFFFFFFFFFFFFFF, 0), (0, 0x8000000000000001)].all fun p : DWord × DWord => satisfies p.1 p.2) = true ∧
    ([(0, 1), (0, 0x4000000000000000)].all fun p : DWord × DWord => !satisfies p.1 p.2 && !distant p.1 p.2) = true ∧
    ([(0, 0x4000000000000001), (0, 0x8000000000000000)].all fun p : DWord × DWord => distant p.1 p.2) = true := by decide

/-- The counters of an instruction, and the state in which they are open. -/
def opened (s : State) (c : Ctx) : Option (List CounterAt × State) :=
  match s.openCounters c none with
  | .ok x => some x
  | .error _ => none

def otherFibre : FibreRef := { fib0 with gid := 1 }

/-- Thresholds given by a literal, 64 bits. -/
def against (v : DWord) : Fields := { blank with form := .extLit, lit := v }

/-- Someone waits on the counter at location 0. -/
def waited : State := { small with waiters := [{ agent := .fibre fib0, counter := .mem 0, threshold := 1 }] }

theorem test_witness_CountersAddReadPollAndSet :
    (∀ i ∈ [Instr.cadd blank, .cpoll (against 0), .cread blank], meets (withThreads 0) i (fun c _ => c.steps.isEmpty) = true) ∧
    (∀ i ∈ [Instr.cadd blank, .cpoll (against 0), .cread blank, .cinit { against 0 with u := true }],
      meets ((withFibre fun f => { f with v := [(0, 4)], s := [(0, 4)] })) i
        (fun c s => !c.steps.isEmpty && (opened s c).isNone) = true ∧
      meets small i (fun c s => !c.steps.isEmpty && match opened s c with
        | some (l, _) => !s.moves (remotesOf l true) && !s.moves (remotesOf l false) && !(!(remotesOf l true).isEmpty || drains c.k.pair (scopeOf c.w))
        | none => false) = true) ∧
    (∀ x ∈ [(small, true), (sent small, false)], meets x.1 (.cadd { blank with m := 0x18 }) (fun c s => match opened s c with
      | some (_, t) => drains c.k.pair (scopeOf c.w) && (t.drainHome c.core).acked c.core == x.2
      | none => false) = true) ∧
    ([(0 : DWord), 1, 0x4000000000000000].all fun v => meets small (.cpoll (against v)) fun c s => match opened s c with
      | some (l, t) => !l.any fun a => distant (t.counter a.ref) (srcB t c true a.t)
      | none => false) = true ∧
    meets small (.cpoll (against 0x4000000000000001)) (fun c s => match opened s c with
      | some (l, t) => l.any fun a => distant (t.counter a.ref) (srcB t c true a.t)
      | none => false) = true ∧
    meets small (.cinit { against 0 with u := true }) (fun c s => match opened s c with
      | some (l, t) => !l.any fun a => t.waitedOn a.ref
      | none => false) = true ∧
    meets waited (.cinit { against 0 with u := true }) (fun c s => match opened s c with
      | some (l, t) => l.any fun a => t.waitedOn a.ref
      | none => false) = true := by decide +kernel

/-- Uniform and per-thread waits: met, ahead by 1 and by 2^62, distant; on a peer whose class moves; deadlines that have
come and that lie ahead. -/
theorem test_witness_WaitsRegisterOrGoOn :
    let far (w : Fields) : Bool := meets small (.cwait w) fun c s => !c.steps.isEmpty && match opened s c with
      | some (l, t) => l.any fun a => !c.x.again && distant (t.counter a.ref) (srcB t c true a.t)
      | none => false
    let wait (w : Fields) : Option Bool := (small.clear (.cwait w)).bind fun c => (opened (small.begun c) c).map fun x =>
      x.1.any fun a => !satisfies (x.2.counter a.ref) (srcB x.2 c true a.t)
    let timed (s : State) (w : Fields) (p : DWord → DWord → DWord → DWord → Bool) : Bool := meets s (.cwaitd w) fun c s =>
      let now : DWord := BitVec.ofNat 64 s.tick
      ((c.x.again && !c.x.missed) || !distant now (deadlineOf s c)) && match opened s c with
        | some (a :: _, t) => !t.moves (remotesOf [a] false) && p (t.counter a.ref) (srcB t c true a.t) now (deadlineOf s c)
        | _ => false
    let unmet (v t : DWord) : Bool := !satisfies v t && !distant v t
    let later : State := withFibre fun f => { f with s := [(1, 1)] }
    let onSlot : Fields := { blankU with f := 1, form := .extLit, c := 1 }
    meets (withThreads 0) (.cwait blank) (fun c _ => c.steps.isEmpty) = true ∧
    far (against 0x4000000000000001) = true ∧ far { against 0x8000000000000000 with u := true } = true ∧
    wait (against 0) = some false ∧ wait (against 1) = some true ∧
    (∀ x ∈ [(toPeer, false), (moving toPeer, true)], meets x.1 (.cwait { against 1 with u := true }) (fun c s => match opened s c with
      | some (l, t) => t.moves (remotesOf l false) == x.2
      | none => false) = true) ∧
    wait { against 0 with u := true } = some false ∧ wait { against 0x4000000000000000 with u := true } = some true ∧
    timed later { onSlot with lit := 0 } (fun v t _ _ => satisfies v t) = true ∧
    timed small { onSlot with lit := 1, c := 0 } (fun v t now dl => unmet v t && satisfies now dl) = true ∧
    timed later { onSlot with lit := 0x4000000000000001 } (fun v t _ _ => !satisfies v t && distant v t) = true ∧
    timed later { onSlot with lit := 1 } (fun v t now dl => unmet v t && !satisfies now dl) = true := by decide +kernel

/-- As many host waiters as a home of memory counters holds. -/
def fullHome : State := { small with waiters := List.replicate 4096 { agent := .fibre otherFibre, counter := .mem 64, threshold := 1 } }

theorem test_witness_HostWaitersAndEngineCounts :
    let arm (v : DWord) : Fields := { against v with u := true }
    let armed (s : State) (v : DWord) (p : State → DWord → DWord → CounterRef → Bool) : Bool := meets s (.carm (arm v)) fun c s =>
      let target := uniOperand s c c.w.c.toNat uniThread
      let va := srcA s c true uniThread
      va.toNat % 8 == 0 && carmStop target va == none && match s.openCounters c none (some (misuse 5 8 0)) with
        | .ok (a :: l, t) => (remotesOf (a :: l) true).isEmpty && !distant (t.counter a.ref) (srcB t c true a.t) &&
            p t (t.counter a.ref) (srcB t c true a.t) a.ref
        | _ => false
    let busy : State := withFibre fun f => { f with counts := { f.counts with matI := 1 } }
    armed small 0 (fun _ v t _ => satisfies v t) = true ∧
    armed small 0x4000000000000000 (fun t v h r => !satisfies v h && !t.homeFull r) = true ∧
    armed fullHome 1 (fun t v h r => !satisfies v h && t.homeFull r) = true ∧
    meets small (.ewait { arm 0 with f := 1 }) (fun c s =>
      decide ((c.f.counts.left (counterKind c.w)).toNat ≤ (srcB s c true uniThread).toNat)) = true ∧
    meets busy (.ewait { arm 1 with f := 1 }) (fun c s =>
      decide ((c.f.counts.left (counterKind c.w)).toNat ≤ (srcB s c true uniThread).toNat)) = true ∧
    meets busy (.ewait { arm 0 with f := 1 }) (fun c s =>
      decide ((srcB s c true uniThread).toNat < (c.f.counts.left (counterKind c.w)).toNat)) = true ∧
    allClear small [.eread blankU, .eread { blankU with f := 9 }] = true := by decide +kernel

/-! ## Copies and the matrix engine -/

def aCopy : CopyCmd := { op := 0xE7, f := 0, m := 0, scope := 2, w0 := 0, w1 := 0, w2 := 0, rel := 0, comp := 0, relInc := 1, compInc := 1 }
def aRequest (i : Nat) : CopyReq :=
  { idx := i, team := fib0.team, origin := .fibre fib0 0, cmd := aCopy, relLoc := none, compLoc := none, promise := 0, mark := 0 }
def copyChecked (s : State) (c : Ctx) : Option CopyOk :=
  match s.team? c.r.team with
  | some t =>
    match (s.drainHome t.core).checkCopy c.space t c.k (copyCommand c) with
    | .ok k => some k
    | .error _ => none
  | none => none

/-- The fibre's s0 names record 0, whose box is empty, and a rectangle of BF16 elements of region 0, which the team holds. -/
def copier : State :=
  let s := (((withTeam fun t => { t with regions := [(0, .fp32)] }).modFibre fib0 fun f => { f with s := [(0, 0x08000000)] }).modLaunch 1 fun l =>
    { l with kernel := { l.kernel with recCount := 1, recTable := 0x2000 } })
  { s with mem := putAll 0 (putAll 0 s.mem 0x2000 (bytesLE 0x3000 8)) 0x3000 [0x80] }

/-- The queue with 31 and with 32 entries in use, and with another fibre waiting; a line on its way; a poisoned counter. -/
theorem test_witness_CopiesTakeARequestEntry :
    let queue (n : Nat) : State := copier.modCore 0 fun k => { k with reqs := (List.range n).map aRequest }
    let nonEmpty : State := withFibre fun f => { f with s := [(2, 0x10001)] }
    let behind : State := copier.modCore 0 fun k =>
      { k with copyWaiters := [{ team := fib0.team, fib := some otherFibre, k := 0, since := 0 }] }
    meets { copier with poison := [0x400000] } (.cpz blankU) (fun c s => match copyChecked s c with
      | some k => k.state.startBad (copyCommand c) k
      | none => false) = true ∧
    (∀ i ∈ [Instr.cpt blankU, .cpx { blankU with f := 3 }, .cpa blankU], meets nonEmpty i (fun c s => (copyChecked s c).isNone) = true) ∧
    (∀ i ∈ [Instr.cpt blankU, .cpa blankU, .cpl blankU, .cpg blankU, .cps blankU, .cpx blankU, .cpr blankU, .cpz blankU],
      (∀ x ∈ [(queue 31, true), (sent (queue 31), false)], meets x.1 i (fun c s => match copyChecked s c with
        | some k => (s.core c.core).mayTake c.r && (s.core c.core).freeReq == some 31 && !c.k.pair &&
          !k.state.startBad (copyCommand c) k && ((s.drainHome 0).core 0).flight.isEmpty == x.2
        | none => false) = true) ∧
      meets (queue 32) i (fun c s => (copyChecked s c).isSome && (s.core c.core).freeReq == none) = true ∧
      meets behind i (fun c s => (copyChecked s c).isSome && !(s.core c.core).mayTake c.r) = true) := by decide +kernel

/-- A record of a box of four by two FP32 elements in a tensor of eight by one. -/
def someRec : LayoutRec :=
  { insole := false, type := 10, rank := 2, swizzle := 0, base := 0x1000, len := 1024, dims := [8, 1], strides := [0, 32], box := [4, 2]
    fill := 0, bad := false }

/-- The kinds of endpoint at each position, with a run inside the tensor and one past its end; the commands of each
opcode; CPX of one row of five trits; CPA with and without a scale, of NaN, an infinity and zero, and of one block; boxes
whose second row lies outside, packed to scratchpad and to a slot, written back, with one row past the tensor's length. -/
theorem test_witness_CopiesTakeARequestEntry_bytes :
    let cmd (op : Nat) (f : BitVec 4) : CopyCmd := { aCopy with op, f }
    let kind (c : CopyCmd) (pos : Nat) : Option Nat := (c.endpoints.find? fun e => e.1 == pos).map (·.2.1)
    ((List.range 4).all fun n => kind (cmd 0xE1 (BitVec.ofNat 4 n)) 4 == some n && kind (cmd 0xE1 (BitVec.ofNat 4 (4 * n))) 5 == some n) = true ∧
    (recAt (cmd 0xE1 2) [someRec] 4 = some someRec ∧ 0 + 1024 ≤ someRec.len ∧ someRec.len < 1 + 1024) ∧
    (let c : CopyCmd := { cmd 0xE4 0 with w2 := 0x10005 }
     (fld c.w2 15 0 = 5 ∧ fld c.w2 31 16 = 1) ∧ [(1 : Byte), 2, 3].length = 1 * ((5 + 4) / 5) + 2 * 1) ∧
    (let c : CopyCmd := { cmd 0xE5 0 with w0 := 0x3F8000000A000000 }
     let d : CopyCmd := { cmd 0xE5 4 with w0 := 0x3F8000000A000000 }
     fmtOf (cpaType c) = some fp32 ∧ c.fbits 2 2 = 0 ∧ d.fbits 2 2 = 1 ∧ (fp32.value (fld d.w0 63 32)).isFin = true ∧
       (tagValue .fp32 0x7FC00000).isNaN = true ∧ (tagValue .fp32 0x7F800000).isInf = true ∧ tagValue .fp32 0 = .fin false 0 (-149)) ∧
    (isBlockType (cpaType { cmd 0xE5 0 with w0 := 0xF000000 }) = true ∧ (List.replicate 32 (0 : DWord)).length = 32) ∧
    (let c := cmd 0xE0 0
     ((cptRows c someRec).map fun x => (x.row, x.lo, x.hi)) = [(some 0, 0, 4), (none, 0, 0)] ∧
       (let x := { first := 0, row := some 0, lo := 0, hi := 4 : BoxRow }
        (rowSpan 32 x).2 = 16 ∧ (0 : Int) + 0 + 16 ≤ someRec.len) ∧
       (c.fbits 0 0 = 0 ∧ c.fbits 1 1 = 0 ∧ c.fbits 2 2 = 0 ∧ packedBytes someRec = 32 ∧ isBlockType someRec.type = false)) ∧
    ((cmd 0xE0 2).fbits 1 1 = 1 ∧ (cmd 0xE0 1).fbits 0 0 = 1 ∧ (cmd 0xE0 4).fbits 2 2 = 1) := by decide +kernel

/-- Items 47 (the last slot) and 15 (the last region) are free; item 48 and 16 are not backed; item 0 is under release, or
free with an earlier claim of it waiting. -/
theorem test_witness_ClaimsAndReleasesOfRanges :
    let team (s : State) (c : Ctx) (p : Team → Bool) : Bool := ((s.team? c.r.team).map p).getD false
    let owner : State := withTeam fun t => { t with tiles := [0, 47], regions := [(0, .fp32), (15, .fp32)] }
    let leaving : State := withTeam fun t => { t with
      tiles := [0], regions := [(0, .fp32)]
      releases := [{ fib := otherFibre, region := false, first := 0, count := 1 }, { fib := otherFibre, region := true, first := 0, count := 1 }] }
    let past (region : Bool) : Release := { fib := fib0, region, first := 0, count := 1, freed := true }
    let withEarlier (region : Bool) (s : State) : State := s.modTeam fib0.team fun t => { t with
      claims := [{ fib := otherFibre, region, first := 0, count := 1 }] }
    let busy : State := (withTeam fun t => { t with tiles := List.range 48, regions := (List.range 16).map fun n => (n, .fp32) }).modCore 0 fun k =>
      { k with engine := [{ num := 0, fib := fib0, op := 0xF5, w := blankU }, { num := 1, fib := fib0, op := 0xFC, w := blankU }] }
    (∀ d ∈ [0, 47], meets small (.tclaim { blankU with d := BitVec.ofNat 8 d }) (fun c s => team s c fun t =>
      ((claimRange c).all fun n => decide (n < c.k.slots) && !t.tiles.contains n && !t.releasing false n) && !t.behind (claimOf false c)) = true) ∧
    (∀ x ∈ [(small, false), (leaving, true)], meets (withEarlier false x.1) (.tclaim blankU) (fun c s => team s c fun t =>
      ((claimRange c).all fun n => decide (n < c.k.slots) && (!t.tiles.contains n || t.releasing false n)) &&
        t.behind (claimOf false c) && ((claimRange c).any fun n => t.releasing false n) == x.2) = true) ∧
    (∀ x ∈ [(small, false), (leaving, true)], meets (withEarlier true x.1) (.aclaim { blankU with m := 1 }) (fun c s => team s c fun t =>
      ((claimRange c).all fun n => decide (n < c.k.regions) && (t.tag? n == none || t.releasing true n)) &&
        t.behind (claimOf true c) && ((claimRange c).any fun n => t.releasing true n) == x.2) = true) ∧
    (∀ d ∈ [0, 15], meets small (.aclaim { blankU with m := 1, d := BitVec.ofNat 8 d }) (fun c s => team s c fun t =>
      ((claimRange c).all fun n => decide (n < c.k.regions) && t.tag? n == none && !t.releasing true n) && !t.behind (claimOf true c)) = true) ∧
    meets owner (.tclaim { blankU with d := 47 }) (fun c s => team s c fun t =>
      ((claimRange c).find? fun n => decide (c.k.slots ≤ n) || (t.tiles.contains n && !t.releasing false n)).isSome) = true ∧
    meets owner (.aclaim { blankU with m := 2, d := 15 }) (fun c s => team s c fun t =>
      ((claimRange c).find? fun n => decide (c.k.regions ≤ n) || ((t.tag? n).isSome && !t.releasing true n)).isSome) = true ∧
    (∀ x ∈ [(Instr.trel blankU, false), (.arel blankU, true)],
      meets owner x.1 (fun c s => team s c fun t => t.releases.isEmpty && (claimRange c).all (fun n =>
        if x.2 then (t.regionOk c.k n).isSome else t.tileOk c.k n) && !s.releaseBusy t (claimOf x.2 c)) = true ∧
      meets busy x.1 (fun c s => team s c fun t => t.releases.isEmpty && (claimRange c).all (fun n =>
        if x.2 then (t.regionOk c.k n).isSome else t.tileOk c.k n) && s.releaseBusy t (claimOf x.2 c)) = true ∧
      meets (withTeam fun t => { t with releases := [past x.2] }) x.1 (fun c s => team s c fun t =>
        t.releases.contains { claimOf x.2 c with freed := true }) = true ∧
      meets (withTeam fun t => { t with releases := [{ past x.2 with freed := false }] }) x.1 (fun c s => team s c fun t =>
        t.releases.contains (claimOf x.2 c) && !s.releaseBusy t (claimOf x.2 c)) = true ∧
      meets small x.1 (fun c s => team s c fun t => t.releases.isEmpty && ((claimRange c).find? fun n =>
        !(if x.2 then (t.regionOk c.k n).isSome else t.tileOk c.k n)).isSome) = true) := by decide

/-- A team that holds every slot and region. -/
def holder (tag : Tag) (queued : Nat) : State :=
  (withTeam fun t => { t with tiles := List.range 48, regions := (List.range 16).map fun n => (n, tag) }).modCore 0 fun k =>
    { k with engine := (List.range queued).map fun n => { num := n, fib := fib0, op := 0xFC, w := blankU }, engineSeq := queued }

/-- Nothing claimed; three operations queued, so that one entry is left; and four. -/
theorem test_witness_EngineOperationsEnterTheQueue :
    let ok (f : Team → Ctx → Except Stop Unit) (want : Bool) (s : State) (c : Ctx) : Bool := match s.team? c.r.team with
      | some t => (match f t c with
        | .ok () => want
        | .error _ => !want)
      | none => false
    ∀ x ∈ [(Instr.mma .fp64 blankU, checkMma, Tag.fp64), (.mma .single blankU, checkMma, .fp32), (.mma .half blankU, checkMma, .fp32),
        (.mma .fp8 blankU, checkMma, .fp32), (.mma .block blankU, checkMma, .fp32), (.mma .integer blankU, checkMma, .int32),
        (.mma .complex blankU, checkMma, .fp64), (.asa { blankU with a := 8 }, checkAsa, .fp32), (.azero blankU, checkAzero, .fp32),
        (.ared { blankU with a := 8 }, checkAred, .fp32)],
      meets small x.1 (fun c s => ok x.2.1 false s c) = true ∧
      meets (holder x.2.2 3) x.1 (fun c s => ok x.2.1 true s c && (s.core 0).engine.length == 3) = true ∧
      meets (holder x.2.2 4) x.1 (fun c s => ok x.2.1 true s c && (s.core 0).engine.length == 4) = true := by decide

/-- Formats of each kind; one group, and one group before another. -/
theorem test_witness_EngineOperationsComputeTheirCells :
    (match mmaElem 0xF9 (mmaA blankU), mmaElem 0xF9 (mmaB blankU) with
      | .int _ _, .int _ _ => true
      | _, _ => false) = true ∧
    (let w : Fields := { blankU with m := 0x36 }
     mmaElem 0xF9 (mmaA w) = .bit ∧ mmaElem 0xF9 (mmaB w) = .bit) ∧
    (∃ vs : List FVal, vs ≠ [] ∧ vs.length ≤ 8) ∧ (List.replicate 8 (FVal.nan false)).length = 8 ∧
    (∀ a e, (mmaElem 0xF4 (mmaA blankU)).real a e = some (fp64.value (bitsAt a (64 * e) 64))) ∧
    (∀ a e, ((mmaElem 0xF8 (mmaB blankU)).real a e).isSome = true) ∧
    mmaElem 0xFA (mmaA blankU) = .complex fp64 64 ∧ (.fp32 : Tag) ≠ .int32 := by
  refine ⟨by decide, by decide, ⟨[.nan false], by decide, by decide⟩, by decide, fun a e => rfl, fun a e => rfl, by decide, by decide⟩

theorem test_witness_AccumulatorPortReadsAndWrites :
    let free (s : State) (c : Ctx) (reg : Nat) : Bool := match s.team? c.r.team with
      | some t =>
        let cells := c.steps.map fun i => (i, portCell s c reg i)
        t.marked.isEmpty && (cells.all fun x => (portFails t c reg x.2).isNone) &&
          (s.fibreOps t.core c.r).all fun e => (opWrites t e.op e.w).all fun r => cells.all fun x =>
            !r.overlaps { r0 := x.2.1, c0 := x.2.2, rows := 1, cols := if portWide c then 2 else 1 }
      | none => false
    meets (holder .fp32 0) (.ard blank) (fun c s => free s c c.w.a.toNat) = true ∧
    meets (holder .fp32 0) (.awr { blank with d := 15 }) (fun c s => free s c c.w.d.toNat) = true := by decide

/-! ## How an instruction issues -/

/-- The fibre that sequencing leaves, where it goes on with nothing of its table spilled. -/
def goes (d : Done) (c : Ctx) : Option Fibre :=
  match d.delivered c with
  | none => none
  | some t =>
    match t.fibre? c.r with
    | none => none
    | some g =>
      match (d.flow.getD c.sequence).run g with
      | .ok h =>
        match h.settle c.sige 256 with
        | .ok f => if f.spill = none ∧ f.hspill = none then some f else none
        | _ => none
      | _ => none

theorem goes_goesOn {d : Done} {c : Ctx} {f : Fibre} (h : goes d c = some f) : d.goesOn c f := by
  unfold goes at h
  split at h
  · cases h
  · rename_i t ht
    split at h
    · cases h
    · rename_i g hg
      split at h
      · rename_i k hk
        split at h
        · rename_i x hx
          split at h
          · rename_i hs
            cases h
            exact ⟨hs.1, hs.2, t, g, k, ht, hg, hk, hx⟩
          · cases h
        · cases h
      · cases h

def inRangeB : RegRef → Bool
  | .vec _ t | .pred _ t => decide (t < 64)
  | .uni _ => true

theorem inRange_of (r : RegRef) (h : inRangeB r = true) : r.inRange := by
  cases r <;> simp_all [inRangeB, RegRef.inRange]

theorem allInRange {l : List RegWrite} (h : (l.all fun w => inRangeB w.reg) = true) : ∀ w ∈ l, w.reg.inRange :=
  fun w hw => inRange_of _ (List.all_eq_true.1 h w hw)

/-- The context of an addition, and its results. -/
def addCtx : Ctx := (small.clear (.iadd blank)).get (by decide)
def addDone : Done := integerDone (fun a b _ => a + b) addCtx (small.begun addCtx)
/-- The same with variable latency and flags. -/
def divDone : Done := floatLater false (on2 false (fDiv fp32)) addCtx (small.begun addCtx)

/-- The same with a flow that keeps the fibre as it is. -/
def keptDone : Done := { addDone with flow := some { run := fun f => .ok f } }

theorem addDone_goesOn : ∃ f, addDone.goesOn addCtx f := ⟨(goes addDone addCtx).get (by decide), goes_goesOn (by simp)⟩

/-- Each check fails alone: a result is outstanding, an operand is early, the word is illegal, an operand is marked;
words of an unassigned opcode and of CPT without U. -/
theorem test_witness_ChecksBeforeAnEffectComeInOrder :
    let late : State := withFibre fun f => { f with outstanding := [{ id := 0, writes := [⟨.vec 0 3, 1⟩], flags := 0 }] }
    let early : State := ((withKernel fun k => { k with check := true }).modFibre fib0 fun f =>
      { f with early := [{ reg := .vec 0 3, old := 1, left := 1 }] }).modCore 0 fun k => { k with chk := true }
    let at_ (s : State) (w : Fields) (p : Ctx → State → Bool) : Bool :=
      ((s.contextOf (.iadd w)).map fun c => p c (s.begun c)).getD false
    at_ late blank (fun c _ => !c.settled) = true ∧
    at_ early blank (fun c s => c.settled && checking s c.k c.core && (earlyRead c.f (s.made c)).isSome) = true ∧
    at_ small { blank with f := 1 } (fun c s => c.settled && s.onTime c && (encodingReason c.op c.w (some (c.env s))).isSome) = true ∧
    at_ (withTeam fun t => { t with marked := [.vec 0 0 0] }) blank
      (fun c s => c.settled && s.onTime c && s.legal c && readsMarked s c (s.made c)) = true ∧
    (∀ bits ∈ [(0x130 : Nat), 0x5007F000000000E05], ((small.context fib0 (opOf (BitVec.ofNat 160 bits)).toNat
      (fieldsOf (BitVec.ofNat 160 bits)) ((BitVec.ofNat 160 bits).extractLsb' 0 32)).map fun c =>
        !opAssigned (opOf (BitVec.ofNat 160 bits)).toNat || c.settled && (small.begun c).onTime c &&
        (encodingReason (opOf (BitVec.ofNat 160 bits)).toNat (fieldsOf (BitVec.ofNat 160 bits)) (some (c.env (small.begun c)))).isSome) =
      some true) := by decide

theorem test_witness_LaneTimeAndSignatureHash :
    (∃ f f0, addDone.s.fibre? addCtx.r = some f0 ∧ addDone.goesOn addCtx f) ∧
    ((withFibre fun f => { f with tvec := 0x400000 }).fibre? fib0).map (fun f => f.tvec != 0 && f.frozen == none) = some true :=
  ⟨⟨_, (addDone.s.fibre? addCtx.r).get (by decide), by simp, goes_goesOn (f := (goes addDone addCtx).get (by decide)) (by simp)⟩,
    by decide⟩

theorem test_witness_IssueDeliversResults :
    (∃ f f0, addDone.flow = none ∧ addDone.after = id ∧ addDone.s.fibre? addCtx.r = some f0 ∧ addDone.goesOn addCtx f ∧
      (∀ w ∈ addDone.fixed, w.reg.inRange) ∧ addDone.fixed ≠ [] ∧
      addCtx.w.seq = 0 ∧ f0.run? = some addCtx.x ∧ addCtx.x.rpc = noRpc ∧ addDone.hashed = true ∧ addCtx.x.again = false) ∧
    (∃ f f0 ws, divDone.flow = none ∧ divDone.after = id ∧ divDone.s.fibre? addCtx.r = some f0 ∧ divDone.goesOn addCtx f ∧
      divDone.later = some ws) := by
  exact ⟨⟨(goes addDone addCtx).get (by decide), (addDone.s.fibre? addCtx.r).get (by decide), rfl, rfl, by simp,
    goes_goesOn (by simp), allInRange (by decide), by decide, by decide, by decide, by decide, by decide, by decide⟩,
    (goes divDone addCtx).get (by decide), (divDone.s.fibre? addCtx.r).get (by decide), _, rfl, rfl, by simp,
    goes_goesOn (by simp), rfl⟩

/-- The same issue, and one whose flow keeps the fibre as it is. -/
theorem test_witness_IssueChangesOnlyItsFibre :
    ((∃ f f0, keptDone.s.fibre? addCtx.r = some f0 ∧ keptDone.goesOn addCtx f) ∧ keptDone.after = id ∧
       ∀ x y : Fibre, (keptDone.flow.getD addCtx.sequence).run x = .ok y → y = x) ∧
    ∃ f f0, addDone.s.fibre? addCtx.r = some f0 ∧ addDone.goesOn addCtx f ∧
      (∀ w ∈ addDone.fixed ++ (addDone.flow.getD addCtx.sequence).writes, w.reg.inRange) ∧ addDone.after = id ∧
      addDone.flow = none := by
  exact ⟨⟨⟨(goes keptDone addCtx).get (by decide), (keptDone.s.fibre? addCtx.r).get (by decide), by simp, goes_goesOn (by simp)⟩, rfl,
      fun x y h => by cases h; rfl⟩,
    (goes addDone addCtx).get (by decide), (addDone.s.fibre? addCtx.r).get (by decide), by simp, goes_goesOn (by simp),
    allInRange (by decide), rfl, rfl⟩

/-- A handler and room for the frozen table; no handler; inside one. -/
theorem test_witness_TrapEntryGoesToTheHandlerOrEnds :
    let ready : State := (withFibre fun f => { f with tvec := 0x400000 }).modCol 0 fun c =>
      { c with spbase := 0x10000000, spsize := 0x100000 }
    (ready.fibre? fib0).map (fun f => f.tvec != 0 && f.frozen == none) = some true ∧ (ready.group? fib0).isSome = true ∧
    (needSpill ready fib0 0).isSome = true ∧
    (small.fibre? fib0).map (fun f => f.tvec == 0) = some true ∧ (small.launch? 1).isSome = true ∧
    (inHandler.fibre? fib0).map (fun f => f.hnd) = some true ∧ (inHandler.launch? 1).isSome = true := by decide

/-- Every selector; the reductions of GOIF; SPLIT without a thread that branches, with all and with one of two; a root
split that divides into threads 0 to 7 and 8 to 15. -/
theorem test_witness_SequencingAndDivision :
    (let goif (n : Nat) : Ctx := { addCtx with w := { addCtx.w with seq := 2, x := BitVec.ofNat 26 (256 * n) } }
     let split (act : Mask) : Ctx := { addCtx with
       w := { addCtx.w with seq := 3 }, x := { addCtx.x with mask := act }, f := { addCtx.f with p := [(0, 1)] } }
     let takes (c : Ctx) : List Nat := (List.range 64).filter fun t =>
       bit c.act t && (readPred c.f (c.w.x.extractLsb' 0 7).toNat t != c.w.x.getLsbD 7)
     (∀ n < 4, ((goif n).w.x.extractLsb' 8 2).toNat = n ∧ (goif n).w.seq = 2) ∧
       takes (split 2) = [] ∧ takes (split 1) = [0] ∧ takes (split 3) = [0]) ∧
    (∀ q ∈ [0, 1, 2, 4], allClear small [.iadd { blank with seq := BitVec.ofNat 3 q }] = true) ∧
    (match small.fibre? fib0 with
      | some f => (match f.splits with
        | [x] => x.st == .running && x.idx == 0 && x.par == noParent && x.rpc == noRpc && x.hw == some 0 &&
            (0x00FF ||| 0xFF00 : Mask) == x.mask
        | _ => false)
      | none => false) = true := by decide

/-! ## Steps of the device -/

/-- Time since package reset, in ticks. -/
def at_ (s : State) (ticks : Nat) : State := { s with now := 504 * ticks }
/-- The group with two fibres, the second one ready. -/
def pair : State := withTeam fun t => { t with groups := t.groups.map fun g =>
  { g with starve := 65536, watch := 2 ^ 26, fibres := g.fibres ++ g.fibres.map fun f =>
      { f with fid := 1, splits := f.splits.map fun x => { x with st := .ready } } } }

theorem test_witness_ResultsTimersAndCommands :
    let fib (s : State) (p : Fibre → Bool) : Bool := ((s.fibre? fib0).map p).getD false
    let result : Pending := { id := 3, writes := [⟨.vec 7 0, 9⟩], flags := 1 }
    let wait : UniformWait := { kind := 2, counterKind := 0, operand := 0, threshold := 1, deadline := 5, op := 0xD2, w := blankU, sig := none }
    let run : SyscRun := { pc := 0, sig := 0, todo := 0, entries := [(0, 0x1000)], w := blank, number := 0 }
    let asked : State := { withFibre fun f => { f with sysc := some run, hold := .syscall } with mem := putAll 0 small.mem 0x1030 [1] }
    let lastUnit : State := { small with now := 504 * 6 - 1 }
    let frozen : State := withFibre fun f => { f with lodge := some { token := 4, cause := 17, info := 0, mask := 1, addrs := [], pc := 0 } }
    let away : State := { frozen with teams := [], saved := frozen.teams.map fun t => { team := t, col := 0, addr := 0, bytes := 0 } }
    ((pair.seated 0 0 0).map fun x => decide (x.1 = fib0.team ∧ 2 ^ 16 ≤ x.2.starve)) = some true ∧
    ((pair.seated 0 0 0).map fun x => decide (x.2.gid = 0 ∧ x.2.holder = some 0 ∧ 2 ^ (pair.wdtNow 0).toNat ≤ x.2.watch) &&
      x.2.siblingReady && match x.2.fibre? 0 with
        | some f => f.lastSplit.isSome
        | none => false) = some true ∧
    ((pair.core 0).wdtOld = none ∧ ((pair.modCore 0 fun k => { k with wdtOld := some (9, 20) }).core 0).wdtOld = some (9, 20)) ∧
    ((small.core 0).lane 0).busy ≤ small.coreCycle 0 ∧
    (let due (p : Pending) : Bool := (p.due.all fun n => decide (n ≤ small.coreCycle 0)) &&
       p.remote.all fun x => (small.portAt (small.portOf (classOf x.1))).live
     due result = true ∧ due { result with due := some 0 } = true ∧ due { result with due := some 100 } = false ∧
       due { result with remote := [(2 ^ 64, false)] } = false) ∧
    small.stalled = [] ∧ fib (withFibre fun f => { f with outstanding := [result] }) (fun f => f.outstanding[0]? == some result &&
      (f.outstanding.find? fun q => q.id == result.id) == some result && result.writes.all fun w => inRangeB w.reg) = true ∧
    fib small (fun f => f.frozen.isNone && decide (f.splits.map (·.idx)).Nodup) = true ∧
    fib { withFibre fun f => { f with hold := .wait wait } with now := lastUnit.now } (fun f => match f.hold with
      | .wait u => u.kind == 2 && satisfies (BitVec.ofNat 64 ((lastUnit.now + 1) / unitsPerTick) - 1) u.deadline
      | _ => false) = true ∧
    fib asked (fun f => match f.sysc with
      | some q => q.entries.lookup 0 == some 0x1000 && f.hold == .syscall
      | none => false) = true ∧ satisfies (asked.wordAt 0x1030) 1 = true ∧
    (frozen.tokenFibre 4).isSome = true ∧ away.tokenFibre 4 = none ∧
    (away.saved.map fun x => x.team.hasToken 4 && x.commands.isEmpty) = [true] := by decide

theorem test_witness_WaitsEndAsTheirCountersSay :
    let w : Waiter := { agent := .fibre fib0, counter := .mem 0, threshold := 1 }
    let one (w : Waiter) : State := { at_ small 64 with waiters := [w] }
    let met : State := { one { w with poll := some (64, 64) } with mem := [(0, 1)] }
    let polls : Waiter := { w with poll := some (64, 64) }
    let remote : Waiter := { w with counter := .mem (2 ^ 64) }
    (met.rereadBad polls = none ∧ ({ one polls with poison := [0] }.rereadBad polls).isSome = true) ∧
    { w with satisfied := true : Waiter }.isRemote = false ∧ small.peerOpen (2 ^ 64) = false ∧ peered.peerOpen (2 ^ 64) = true ∧
    w.isGate = false ∧ { w with agent := .gate 1 : Waiter }.isGate = true ∧ (w.reachable small = true ∧ remote.reachable small = false) ∧
    64 ≤ met.tick ∧ satisfies (met.counter w.counter) w.threshold = true ∧
    satisfies ((one w).counter w.counter) w.threshold = false ∧
    satisfies ((one w).deviceCounter fib0 0) 64 = true ∧ satisfies ((one w).deviceCounter fib0 1) 0 = true ∧
    isPeer (2 ^ 64) = true ∧ isPeer (2 ^ 64 * 1025 - 1) = true ∧
    (peerLoc 1 0 = 2 ^ 64 * 2 ∧ isPeer (peerLoc 1 0) = true ∧ peered.pkgid.toNat ≠ 1 ∧ peered.anyPort = true ∧
      peered.peerOpen (peerLoc 1 0) = true) ∧
    satisfies ((one remote).wordAt (2 ^ 64)) 1 = false ∧ satisfies ((one remote).wordAt (2 ^ 64)) 0 = true ∧
    (one remote).waiters.all (fun x => !x.atHome) = true := by decide

/-- A launch record at 0x300000: one team of one group of 16 threads with one fibre that starts at 0x200000. -/
def recorded : State :=
  { small with mem := putAll 0 (putAll 0 small.mem 0x300000 (bytesLE 0x110 4)) 0x300010 (bytesLE 128 4) |>
      fun m => putAll 0 m 0x300080 (bytesLE 0x200000 8) }
def signal (line : BitVec 1024) : LaunchSignalOp :=
  { col := 127, page := 63, line := 31, data := line, satp := 0xA0000000000001FF }

/-- The least record, from the greatest submission line; a line that is malformed. -/
theorem test_witness_DispatcherPlacesSavesAndRestores_signals :
    let written (v : BitVec 1024) : State := recorded.writeLoc (submissionLoc 127 63 31) (bytesLE v.toNat 128)
    (match (written 0x300000).judge (signal 0x300000) with
      | .ok _ => true
      | .error _ => false) = true ∧
    (match (written 1).judge (signal 1) with
      | .ok _ => false
      | .error _ => true) = true := by decide +kernel

/-- The launch before its team is placed; the team saved; four teams that fill column 0 while another launch waits. -/
def unplaced : State := { small.modLaunch 1 fun l => { l with placed := 0 } with teams := [] }
def saved : State := { small with
  teams := [], saved := small.teams.map fun t => { team := t, col := 0, addr := 0x10000000, bytes := 4096 } }
def crowded : State := { small.modCol 0 (fun c => { c with
    spbase := 0x10000000, spsize := 0x1000000
    queue := c.queue ++ c.queue.map fun l => { l with seq := 2, placed := 0, kernel := { l.kernel with pri := 15 } } }) with
  teams := small.teams.flatMap fun t => (List.range 4).map fun i => { t with
    ref := { t.ref with idx := i }, core := i, groups := t.groups.map fun g => { g with core := i } } }

theorem test_witness_DispatcherPlacesSavesAndRestores :
    let seats : List Seat := [{ core := 0, lane := 63, slot := 3, base := 0 }]
    (recorded.hartRuns 127 = true ∧ look 0 (small.col 0).spt 0 = 0 ∧
      (look 0 ((small.modCol 0 fun c => { c with spt := [(0, 1)] }).col 0).spt 0).getLsbD 0 = true) ∧
    (unplaced.served.map fun l => !l.marked && !l.kernel.coresident && decide (unplaced.nextTeam l = .place 0) &&
      ((unplaced.findPlace unplaced.teams l).map fun x => x.1 == 0) == some true && seats.length == l.kernel.groups &&
      seatsGood (unplaced.taken unplaced.teams) l.kernel.footprint (teamCores l.kernel 0) seats) = some true ∧
    ((crowded.team? fib0.team).map fun t => crowded.ordered.any (fun w => crowded.mayPreempt w t) && crowded.poolsFit [t]) =
      some true ∧
    ((crowded.launch? 1).map fun l => l.kernel.coresident) = some false ∧
    (saved.served.map fun l => !l.kernel.coresident && decide (saved.nextTeam l = .restore 0) && (saved.targets l).contains 3 &&
      saved.storesFit saved.teams l.kernel 3 && seatsGood (saved.taken saved.teams) l.kernel.footprint (teamCores l.kernel 3)
        [{ core := 3, lane := 0, slot := 0, base := 0 }]) = some true := by decide

/-- Teams that are saved; one whose entry of the matrix queue is marked; no save pool; a copy that waits for a
displacement. -/
theorem test_witness_DispatcherPlacesSavesAndRestores_saves :
    let failing : State := (withTeam fun t => { t with marked := [.engineEntry 0 0] }).modCore 0 fun k =>
      { k with engine := [{ num := 0, fib := fib0, op := 0xFC, w := blankU }] }
    (crowded.teams.all fun t => (crowded.restTeam t).2.isEmpty && (crowded.restTeam t).1.savable t) = true ∧
    (crowded.teams ≠ [] ∧ crowded.poolsFit crowded.teams = true ∧ small.poolsFit small.teams = false) ∧
    (failing.teams.any fun t => !(failing.restTeam t).2.isEmpty) = true ∧
    ((sent small).teams.any fun t => ((sent small).restTeam t).2.isEmpty && !((sent small).restTeam t).1.savable t) = true := by
  decide +kernel

/-- A copy request of eight bytes of scratchpad, from 0x100 to 0x200, its counters at 0x40; the same with its piece ready. -/
def copying : CopyReq := { aRequest 30 with
  cmd := { aCopy with op := 0xE1, f := 5, w0 := 0x100, w1 := 0x200, w2 := 8 }, relLoc := some (.inr 0x40), compLoc := some (.inr 0x40) }
def finishing : CopyReq := { copying with released := true, pieces := [{ place := .scratch 0x200, bytes := List.replicate 8 1 }] }
/-- The same with its piece elsewhere. -/
def finishingAt (p : Place) : CopyReq := { finishing with pieces := [{ place := p, bytes := List.replicate 8 1 }] }
def withReq (q : CopyReq) : State := (holder .fp32 0).modCore 0 fun k => { k with reqs := [q] }
def theTeam : Team := ((holder .fp32 0).team? fib0.team).get (by decide)

theorem theTeam_calm : theTeam.calm := by
  refine ⟨by decide, by decide, by decide, fun g hg f hf u hu => ?_⟩
  have h : theTeam.groups.all (fun g => g.fibres.all fun f => f.hold == .none) = true := by decide
  have h2 := List.all_eq_true.1 (List.all_eq_true.1 h g hg) f hf
  rw [hu] at h2
  cases h2

/-- A request that has not begun reads scratchpad and adds to a counter there; reads of memory that change nothing else, and
counters in memory. -/
theorem test_witness_EnginesAndBuffersStepInOrder_reads :
    let s := withReq copying
    (s.reqLive 0 30 = some copying ∧ s.team? copying.team = some theTeam ∧ theTeam.calm ∧ theTeam.pendingLines = [] ∧ copying.fresh ∧
      s.parkedOf 0 copying = [] ∧ theTeam.marked = [] ∧
      (∀ r ∈ copying.indexRuns ++ copying.dataRuns [], s.finds 0 copying r.2.1 r.2.2 (List.replicate 8 0)) ∧
      s.takesAdd 0 copying copying.relLoc copying.cmd.rel) ∧
    ({ theTeam with marked := [.copyEntry 0 30] } : Team).marked.contains (.copyEntry 0 30) = true ∧
    (let warm := ((s.touch (s.reqSpace 0 copying) .copyRead 0x3000).throughSlice 0x3000 8 false)
     warm.finds 0 copying (.va 0x3000) 8 (warm.bytesAt 0x3000 8) ∧ s.takesAdd 0 copying (some (.inl 0x3000)) 0x3000) := by
  refine ⟨⟨by decide, by decide, theTeam_calm, by decide, ⟨rfl, rfl, rfl, rfl, rfl, rfl, rfl, rfl⟩, by decide, by decide, ?_,
    by decide, by decide, trivial⟩, by decide, ?_, by decide, by decide, by decide, by decide, by decide, ?_, by decide +kernel⟩
  · have h : copying.indexRuns ++ copying.dataRuns [] = [(0, .scratch 0x100, 8)] := by decide
    rw [h]
    intro r hr
    rw [List.mem_singleton.1 hr]
    exact .inl ⟨0x100, by decide, by decide⟩
  · exact .inr ⟨0x3000, some false, by decide +kernel, by decide +kernel, rfl, fun a h => by cases h; decide +kernel⟩
  · intro x hx
    cases hx

/-- A request with its piece ready: to scratchpad, to a slot and to memory. -/
theorem test_witness_EnginesAndBuffersStepInOrder_writes :
    let s := withReq finishing
    let piece (p : Place) : Piece := { place := p, bytes := List.replicate 8 1 }
    (s.reqLive 0 30 = some finishing ∧ s.team? finishing.team = some theTeam ∧ theTeam.calm ∧ canonical {} s.cores = true ∧
      finishing.released = true ∧ finishing.halted = false ∧ s.apart 0 finishing ∧
      (∀ p ∈ finishing.pieces, s.takesPiece 0 finishing p) ∧ s.takesAdd 0 finishing finishing.compLoc finishing.cmd.comp ∧
      (∀ x ∈ s.cores, ∀ y ∈ x.2.reqs, y.team = finishing.team → (x.1 = 0 ∧ y.idx = 30) ∨ y.openLine = none)) ∧
    (finishing.openLine = some 0x200 ∧ s.reach 0 finishing .copyWrite (.scratch 0x200) 8 = .scratch 0x200 ∧
      finishing.pieces.all (pieceIn 0x200) = true) ∧
    s.takesPiece 0 (finishingAt (.slotByte 3 0)) (piece (.slotByte 3 0)) ∧ s.takesPiece 0 (finishingAt (.va 0x3000)) (piece (.va 0x3000)) := by
  have h1 : (withReq finishing).reach 0 finishing .copyWrite (.scratch 0x200) 8 = .scratch 0x200 := by decide
  refine ⟨⟨by decide, by decide, theTeam_calm, by decide, rfl, rfl, ⟨by decide, by decide⟩, ?_, ⟨by decide, by decide, trivial⟩,
    by decide⟩, ⟨by decide, h1, by decide⟩, ⟨.inl rfl, ?_⟩, .inl rfl, ?_⟩
  · intro p hp
    rw [List.mem_singleton.1 hp]
    refine ⟨.inl rfl, ?_⟩
    show (match (withReq finishing).reach 0 finishing .copyWrite (.scratch 0x200) 8 with | _ => _)
    rw [h1]
    trivial
  · have h2 : (withReq finishing).reach 0 (finishingAt (.slotByte 3 0)) .copyWrite (.slotByte 3 0) 8 = .slot 3 0 := by decide
    show (match (withReq finishing).reach 0 (finishingAt (.slotByte 3 0)) .copyWrite (.slotByte 3 0) 8 with | _ => _)
    rw [h2]
    exact ⟨by decide, by decide⟩
  · have h3 : (withReq finishing).reach 0 (finishingAt (.va 0x3000)) .copyWrite (.va 0x3000) 8 = .mem 0x3000 (some false) := by decide
    show (match (withReq finishing).reach 0 (finishingAt (.va 0x3000)) .copyWrite (.va 0x3000) 8 with | _ => _)
    rw [h3]
    refine ⟨rfl, fun loc h => ?_, fun x hx => ?_, fun a h => ?_⟩
    · cases h
    · cases hx
    · cases h
      decide

/-- Copies: a request that is live, and one of CPA that waits for its rectangle; the engine with one operation; a line
that has aged; replay entries. -/
theorem test_witness_EnginesAndBuffersStepInOrder :
    let waiter : CopyWaiter := { team := fib0.team, fib := some fib0, k := 0, since := 0 }
    let cpa : CopyReq := { aRequest 31 with cmd := { aCopy with op := 0xE5 } }
    let op : EngineOp := { num := 0, fib := fib0, op := 0xFC, w := blankU }
    let core (f : Core → Core) : State := (holder .fp32 0).modCore 0 f
    let queue : State := core fun k => { k with reqs := (List.range 31).map aRequest, copyWaiters := [waiter] }
    let waits : State := core fun k => { k with reqs := [cpa] }
    let entry : ReplayEntry :=
      { idx := 15, unrepairable := false, cause := 17, reason := 0, opcode := 0xE7, team := fib0.team, addr := 0
        origin := .entry 0, core := 0, gid := 0, elements := 1, unit := 0, req := some (0, 3) }
    let line : WcLine := { loc := 0, bytes := [{ off := 0, val := 1, team := fib0.team }], entered := 0, age := 0 }
    ((queue.core 0).copyWaiters.find? (fun w => !w.granted) = some waiter ∧ (queue.core 0).freeReq = some 31 ∧
      (queue.core 0).reqs.length + (queue.core 0).granted < 32) ∧
    queue.reqLive 0 30 = some (aRequest 30) ∧
    (waits.reqLive 0 31 = some cpa ∧ cpa.waitsPhase = true ∧ (waits.team? cpa.team).map (·.marked) = some [] ∧
      waits.fibreOps 0 fib0 = []) ∧
    (let s := core fun k => { k with replay := [entry], reqs := (List.range 4).map aRequest }
     s.replay? 0 15 = some entry ∧ entry.req = some (0, 3) ∧ s.req? 0 3 = some (aRequest 3) ∧ (aRequest 3).team = entry.team ∧
       s.teams.all (fun x => x.marked.isEmpty && x.groups.any fun g => !g.retired) = true) ∧
    (((core fun k => { k with engine := [op] }).core 0).engineFree ≤ (core id).coreCycle 0 ∧
      op.cycle < (at_ (core id) 1).colCycle (colOf 0)) ∧
    ({ op with started := true : EngineOp }.endCycle ≤ (core id).coreCycle 0 ∧ op.fresh = [] ∧
      (core id).coreCycle 0 < { op with started := true, endCycle := 4 : EngineOp }.endCycle) ∧
    (∀ l ∈ [line, { line with loc := 2 ^ 64 }],
      ((core fun k => { k with wcb := [l] }).core 0).wcb.find? (fun l => l.entered + l.age ≤ small.tick) = some l) ∧
    isPeer line.loc = false ∧ isPeer (2 ^ 64) = true ∧ line.byte? 0 = some 1 ∧ small.ckpt = [] := by decide

/-- Schedules of one entry at 0x400000: CPZ and CPL of no bytes, with and without a waiter before them; a gate of 1; an
unknown opcode; a poisoned entry; and no entry. -/
theorem test_witness_EnginesAndBuffersStepInOrder_schedule :
    let scheduled (gate op : Nat) (f : Byte) : State :=
      let s : State := withKernel fun k => { k with schedCount := 1, sched := 0x400000 }
      { s with mem := putAll 0 s.mem 0x400000 (bytesLE gate 8 ++ [BitVec.ofNat 8 op, 2, 8 * f] ++ List.replicate 53 0) }
    let next (s : State) (p : Team → Ready → Bool) : Bool := ((s.team? fib0.team).map fun t => p t (s.nextEntry t)).getD false
    (∀ x ∈ [(scheduled 0 0xE7 0, 0xE7), (scheduled 0 0xE1 5, 0xE1)], next x.1 (fun t y => match y with
      | .go s' _ cmd _ => (s'.core t.core).freeReq == some 0 && (s'.core t.core).copyWaiters.isEmpty && cmd.op == x.2 &&
          decide ((s'.core t.core).reqs.length < 32) && (s'.team? t.ref).isSome
      | _ => false) = true) ∧
    (let waiter : CopyWaiter := { team := fib0.team, fib := none, k := 0, since := 0 }
     (((scheduled 0 0xE1 5).modCore 0 fun k => { k with copyWaiters := [waiter] }).core 0).copyWaiters.find? (fun w => !w.granted) = some waiter) ∧
    next (scheduled 1 0xE7 0) (fun _ y => match y with
      | .gated _ => true
      | _ => false) = true ∧
    next { scheduled 0 0xE7 0 with poison := [0x20000] } (fun _ y => match y with
      | .consumed => true
      | _ => false) = true ∧
    next (scheduled 0 0 0) (fun _ y => match y with
      | .park _ _ _ _ _ _ _ _ => true
      | _ => false) = true ∧
    ((small.kernel? 1).map (·.schedCount)) = some 0 := by decide

/-! ## Power, errors, registers, harts, the checkpoint engine, links and the pavilion -/

/-- The first boundary; a pool with one permit and two clusters that ask; the end of the first window. -/
theorem test_witness_BoostPermitsAreGrantedInRotation :
    let s : State := { at_ State.reset 45000 with boundaries := 9, pool := 1, breq := [(1, true), (3, true)] }
    State.reset.boundaryDue = true ∧ s.boundaryDue = true ∧ s.requests = [1, 3] ∧
    { at_ State.reset 50000 with boundaries := 10 : State }.windowDue = true := by decide

theorem test_witness_PermitPoolFollowsItsRule :
    (State.reset.pool ≤ 64 ∧ State.reset.charged - State.reset.refilled = BitVec.ofNat 64 (64 - State.reset.pool) ∧
      State.reset.rotation < 4 ∧ ∀ c, look 0 State.reset.opPoint c ≤ 2 ∧ look 0 State.reset.refusals c ≤ 2) ∧
    (match step { State.reset with agenda := [.event (.boostBoundary 0)] } with
      | .next t => t.boundaries == 1
      | _ => false) = true ∧
    { at_ State.reset 50000 with boundaries := 10 : State }.windowDue = true :=
  ⟨⟨by decide, by decide, by decide, fun c => ⟨Nat.zero_le 2, Nat.zero_le 2⟩⟩, by decide, by decide⟩

/-- The trip points of reset; temperatures at each of them; the pace of 10 µs; the droop run before its last sample. -/
theorem test_witness_GovernorFollowsItsSamples :
    let s : State := small.modCol 0 fun c => { c with level := 6, lastStep := some 0 }
    let c := (at_ s 10000).col 0
    (c.tdn < c.tup ∧ c.tup < c.tcrit) ∧
    (at_ s 10000).sampleDue c.lastSample = true ∧ c.tcrit.toNat = 1680 ∧ c.tup.toNat = 1520 ∧ c.tdn.toNat = 1360 ∧
    (c.goal = 6 ∧ c.goal < 7 ∧ c.lmin.toNat < c.goal) ∧ ((at_ s 10000).now % unitsPerTick = 0 ∧ c.steps = []) ∧
    (at_ s 10000).soleRuns (clusterOf 0) = true ∧ (c.lastSample = none ∧ 999 < 1000 ∧ (at_ s 999).tick = 999) ∧ (at_ s 10000).paced c = true ∧ (at_ s 9999).paced c = false ∧
    (at_ s 10000).sampleDue c.lastDroop = true ∧ (s.modCol 0 fun c => { c with droopRun := 15 }).tick = 0 ∧
    (let idle : State := { at_ State.reset 10000 with cores := [] }
     (idle.col (colOf 511)).pgen = true ∧ (idle.core 511).gated = false ∧ idle.coreIdle 511 = true ∧
       (idle.core 511).idleFrom + (idle.col (colOf 511)).gidle.toNat ≤ idle.tick) ∧
    (at_ State.reset 100000).bankIdle 127 95 = true := by decide

theorem test_witness_GovernorFollowsItsSamples_droop :
    (∃ drop, drop ≤ Config.staticDrop 0 + 40) ∧ ∃ drop, Config.staticDrop 0 + 40 < drop :=
  ⟨⟨0, Nat.zero_le _⟩, ⟨_, Nat.lt_succ_self _⟩⟩

theorem test_witness_ErrorsAreScrubbedSparedAndDisplaced :
    let s : State := (small.modCol 0 fun c => { c with shStopped := [(1, 5), (3, 0)], shRows := [(3, 0, 16)] }).modCol 127 fun c => { c with
      spares := [(0, 0), (1, 0), (2, 0), (3, 0)] }
    let swept : State := small.modCol 0 fun c => { c with swept := [(.slice, .inl 0, 0)] }
    let visited (s : State) (x : ScrubLevel × Nat) : Bool :=
      (scrubUnit x.1 x.2).any fun u => (s.col 0).wasSwept x.1 (.inl u) (s.sweep 0 x.1)
    (∀ x ∈ [(ScrubLevel.arrays, 3), (.scratchpad, 0), (.slice, 0), (.insole, 0), (.hbm, 0)],
      scrubs 0 x.1 x.2 = true ∧ (s.col 0).period x.1 ≠ 0 ∧ visited s x = false) ∧
    (visited swept (.slice, 0) = true ∧ (s.col 0).rowsIn 3 0 ≥ (s.col 0).shRate.toNat) ∧
    (s.col 0).uncorrected.toNat < 2 ^ 63 ∧ s.eventRingFull 0 = true ∧ (s.col 0).elbase = 0 ∧
    (small.col 0).mayTest 0 0 = true ∧ (small.col 0).mayTest 3 0 = true ∧
    ((s.col 0).shStopped.find? (fun y => decide (y.2 + 10000 ≤ (at_ s 10000).tick)) = some (3, 0) ∧
      (s.col 0).shTen = true ∧ (s.col 0).shNosp = false ∧ (s.col 0).shBusy = none) ∧
    (s.regionAt 12287).st = 0 ∧ s.sparesGone 12287 = true ∧ ((s.setRegion 0 { st := 1 }).regionAt 0).st = 1 := by decide

theorem test_witness_ErrorsAreScrubbedSparedAndDisplaced_slots :
    small.spillSlots < Config.spillSlots ∧ ∃ n, Config.spillSlots ≤ { small with spillSlots := n : State }.spillSlots :=
  ⟨Nat.succ_pos _, ⟨_, Nat.le_refl _⟩⟩

/-- A pool with and without an area; an event that is held while the ring has room. -/
theorem test_witness_RegistersTakeWritesAsTheirCodesSay :
    let e : EventRecord := { kind := 1 }
    let s : State := small.modCol 0 fun c => { c with held := [e], evsize := 4, evbase := 0x1000, evprod := 0x2000 }
    (s.soleRuns (clusterOf 0) = true ∧ { s with pav := { minimal := true, minimalSole := 1 } : State }.soleRuns (clusterOf 0) = false) ∧
    (s.col 0).pool = [] ∧ ((small.modCol 0 fun c => { c with pool := [(0, 4096)] }).col 0).pool ≠ [] ∧
    (s.col 0).held = [e] ∧ s.eventRingFull 0 = false ∧
    (s.hartRuns 127 = true ∧ ((s.modHart 127 fun h => { h with mode := .user }).hartAt 127).mode = .user) ∧
    { s with pav := { minimal := true, minimalSole := 1 } : State }.hartRuns 0 = false := by decide

theorem test_witness_UserEventsReachTheirHarts :
    let hart (f : Hart → Hart) : State := small.modHart 127 f
    let e (asid : Nat) : UserEvent := { asid, vector := 63, killed := true }
    let mine : State := hart fun h => { h with inbox := [e 7], uevasid := 7, uevtab := 0x1000 }
    let other : State := hart fun h => { h with inbox := [e 9], uevasid := 7, uevtab := 0x1000 }
    let user : State := hart fun h => { h with mode := .user, uie := true, uevp := 1, uevm := 1 }
    small.hartRuns 127 = true ∧ mine.hartRuns 127 = true ∧ other.hartRuns 127 = true ∧ user.hartRuns 127 = true ∧
    ((mine.hartAt 127).inbox = [e 7] ∧ (e 7).asid = (mine.hartAt 127).uevasid.toNat) ∧
    ((other.hartAt 127).inbox = [e 9] ∧ (e 9).asid ≠ (other.hartAt 127).uevasid.toNat ∧ (other.hartAt 127).uevtab.toNat ≠ 0) ∧
    ((user.hartAt 127).mode = .user ∧ (user.hartAt 127).uie = true ∧ (user.hartAt 127).uevp &&& (user.hartAt 127).uevm ≠ 0) ∧
    { user with hart := 127 : State }.hart = 127 ∧ small.ckpt = [] ∧ (mine.hartAt 127).mode ≠ .user ∧
    (0x10000 : DWord).setWidth 16 ≠ (mine.hartAt 127).uevasid ∧
    { small with poison := [3] : State }.poison.contains (96 / 32) = true := by decide

theorem test_witness_OuterAgentsActAtTheHome :
    let last := 2 ^ 40 - 8
    let held : State := small.modHart 0 fun h => { h with reservation := some (last, 8) }
    let linked : State := small.modPort 15 fun p => { p with up := true, keyed := true }
    (small.hartRuns 0 = true ∧ last % 8 = 0 ∧ last + 8 ≤ 2 ^ 40 ∧ small.poisoned last 8 = [] ∧ small.poisoned 0 8 = []) ∧
    (held.hartAt 0).reservation = some (last, 8) ∧ (small.hartAt 0).reservation ≠ some (last, 8) ∧
    last + [(1 : Byte), 2, 3, 4, 5, 6, 7, 8].length ≤ 2 ^ 40 ∧ small.pcieDown.contains 3 = false ∧
    (1023 ≠ linked.pkgid.toNat ∧ linked.anyPort = true ∧ linked.poisoned last 8 = []) ∧
    (small.flushStores.allAcked = true ∧ (sent small).flushStores.allAcked = false) ∧
    small.tlbFind { core := 0, asid := 0, root := fetchRoot } 0x200000 = none ∧
    (match small.xlate { core := 0, asid := 0, root := fetchRoot } .load 0x200000 with
      | .ok _ => true
      | .fault _ _ => false) = true := by decide

/-- A range table of one range at 0x1000: one page of HBM at 0x2000. -/
def engineAt (f : Checkpoint → Checkpoint) : State := small.modCkpt 0 f
theorem test_witness_CheckpointEngineCapturesAndRestores :
    let page (insole : Bool) : CkPage := { insole, page := 2, entry := 0 }
    let cmd (retry : Bool) : NvmeCmd := { issued := 0, retry, write := true, page := 0, block := 0, data := [] }
    let busy : State := engineAt fun k => { k with busy := 1 }
    let table : State := { engineAt (fun k => { k with ckrt := 0x1000, ckrn := 1, ckresz := 4096, cknvq := 0x3000 }) with
      mem := putAll 0 (putAll 0 small.mem 0x1000 (bytesLE 0x2001 8 ++ bytesLE 1 8)) 0x3020 (bytesLE 1 8) }
    let ready (k : Checkpoint → Checkpoint) : State := table.modCkpt 0 k
    let flying (retry : Bool) (pages : List CkPage) : State :=
      engineAt fun k => { k with busy := 1, nvme := some (cmd retry), pages, ckresz := 4096 }
    ((busy.ckptAt 0).busy ≠ 0 ∧ small.soleRuns 0 = true) ∧
    ((table.ckptAt 0).busy = 0 ∧ (table.ckptAt 0).earlyCode table 0 = none ∧ (table.ckptAt 0).pageList table ≠ []) ∧
    (((ready fun k => { k with t0 := some 1000 }).ckptAt 0).t0 = some 1000 ∧ 1000 ≤ (at_ table 1000).tick ∧
      table.pcieDown.contains 0 = false) ∧
    (((flying false [page false]).ckptAt 0).pages[0]? = some (page false) ∧ (page false).isProtected = true ∧
      ((flying false [page false]).ckptAt 0).freeSlot = some 0 ∧ Memory.wf (flying false [page false]).mem = true) ∧
    (((flying true []).ckptAt 0).nvme = some (cmd true) ∧ ((flying false []).ckptAt 0).nvme = some (cmd false)) ∧
    ((flying true []).ckptAt 0).pages = [] ∧
    (0 + 10000 * msTicks < (at_ small (10000 * msTicks + 1)).tick ∧ 0 + 10000 * msTicks ≤ (at_ small (10000 * msTicks)).tick ∧
      (at_ small (10000 * msTicks)).tick ≤ 0 + 10000 * msTicks) ∧
    (let s := flying false [page false, page true]
     (s.ckptAt 0).pages = [page false, page true] ∧ (page true).streamed = false) ∧
    (let s := flying false [{ page false with image := some [] }, { page true with image := some [] }]
     s.ckpt.all (fun k => k.2.pages.all fun p => !p.isProtected) = true ∧ (s.ckptAt 0).pages.length = 2 ∧
       (s.ckptAt 0).ckresz.toNat / 4096 = 1 ∧ ∀ x ∈ (s.ckptAt 0).pages, x.slot ≠ some 0 ∧ x.streamed = false) ∧
    (let s := (flying false [{ page false with image := some [] }]).modCkpt 0 fun k => { k with ckrt := 0x1000, ckcnt := 0x1010 }
     s.ckpt.all (fun k => k.2.pages.all fun p => !p.isProtected) = true ∧ (s.ckptAt 0).pages.length = 1 ∧ (s.ckptAt 0).busy = 1 ∧
       (s.ckptAt 0).ckcnt.toNat + 8 ≤ (s.ckptAt 0).ckrt.toNat + 32 * (page false).entry + 24) := by decide +kernel

theorem test_witness_LinksFailAndReturn :
    let port (f : Port → Port) : State := small.modPort 15 f
    let live : State := port fun p => { p with up := true, keyed := true }
    let down : State := port fun p => { p with downAt := some 0 }
    (live.portAt 15).up = true ∧ (live.portAt 15).live = true ∧ (live.portAt 15).flitFailed = false ∧
    ((port fun p => { p with up := true, keyed := true, flitFailed := true }).portAt 15).flitFailed = true ∧
    ((port fun p => { p with up := true, keyed := true, flitFailed := true }).portAt 15).live = true ∧
    ((down.portAt 15).up = false ∧ (down.portAt 15).locked = false) ∧
    { small with pav := { fabstat := 1 } : State }.pav.fabric = true ∧
    ((port fun p => { p with locked := true }).portAt 15).locked = true ∧
    ((down.portAt 15).downAt = some 0 ∧ 0 + 1000 * (at_ down 100000).lostto.toNat ≤ (at_ down 100000).tick ∧
      (down.portAt 15).live = false ∧ down.onPort 15 = [] ∧ down.linesOn 15 = [] ∧ (at_ down 99999).tick < 0 + 1000 * down.lostto.toNat) := by
  decide

/-- A peer's line and requests on a port that has been down for LOSTTO: an atomic, then a load, which is issued again. -/
theorem test_witness_LinksFailAndReturn_lost :
    let p := small.portOf (classOf (2 ^ 64))
    let x : Reload := { op := 0xB0, w := blank, runs := [(0, [(2 ^ 64, 1)])] }
    let load : Pending := { id := 1, writes := [⟨.vec 0 0, 7⟩], flags := 0, remote := [(2 ^ 64, false)], reload := some x }
    let add : Pending := { id := 2, writes := [], flags := 0, remote := [(2 ^ 64, true)] }
    let s : State := at_ ((((withFibre fun f => { f with outstanding := [load, add] }).modCore 0 fun k =>
      { k with flight := [{ loc := 2 ^ 64, entered := 0, age := 0, port := some p }] }).modPort p fun q => { q with downAt := some 0 }).modPort (15 - p)
        fun q => { q with up := true, keyed := true }) 100000
    s.portOf (classOf (2 ^ 64)) = p ∧ (s.portAt p).live = false ∧ 0 + 1000 * s.lostto.toNat ≤ s.tick ∧
    (s.linesOn p).length = 1 ∧ (s.onPort p).map (fun q => (q.id, q.changes)) = [(1, false), (2, true)] ∧
    (s.onPort p).all (fun q => (s.fibre? q.fib).isSome) = true ∧ (x.own = [] ∧ s.poison = [] ∧ x.op ≠ 0xD3 ∧ x.op ≠ 0xD4) := by decide

theorem test_witness_PavilionStartsAndElects :
    let pav (f : Pavilion → Pavilion) : State := small.modPav f
    let h (id : Nat) : Hello := { sender := id, leader := 0, gen := 0, verified := true, hops := 1 }
    let elects (ms : Nat) (heard : List Hello) : State :=
      at_ (pav fun p => { p with fabstat := 1, electStart := some 0, heard }) (ms * msTicks)
    let draft : ScopeDraft := { hops := 1, gen := 5, members := 1 }
    let drafted : State := pav fun p => { p with fabstat := 1, leader := some 5, draft := [draft, draft, draft], draftGen := 5 }
    let leads : State := pav fun p => { p with fabstat := 1, leader := some 0, members := [0, 3], acked := [0] }
    let beats : State := pav fun p => { p with fabstat := 2, leader := some 1023, heartbeat := 0 }
    (h 3).verified = true ∧ (elects 2000 []).pav.fabric = true ∧
    (elects 2000 []).electing 2000 = true ∧ (elects 2000 []).pav.leader = none ∧
    { elects 2000 [h 3] with pkgid := 7 : State }.ownId = 7 ∧
    drafted.pav.leader = some 5 ∧ 5 ≠ drafted.ownId ∧ [draft, draft, draft].all drafted.includes = true ∧
    ({ elects 2000 [h 3] with pkgid := 7 : State }.verifiedIds = [3, 7] ∧ { elects 2000 [h 3] with pkgid := 1 : State }.verifiedIds = [1, 3]) ∧
    drafted.pav.draft ≠ [] ∧ drafted.pav.draftGen = 5 ∧
    (leads.pav.leader = some leads.ownId ∧ 3 ∈ leads.pav.members ∧ 3 ∉ leads.pav.acked) ∧
    (beats.pav.fabstat = 2 ∧ beats.pav.heartbeat + 1000 * msTicks ≤ (at_ beats (1000 * msTicks)).tick ∧
      beats.pav.leader = some 1023) ∧
    (pav fun p => { p with fabstat := 3 }).pav.fabstat = 3 ∧ (elects 5000 []).electing 5000 = true ∧
    small.pav.fsc < 3 ∧ 3 ≤ (pav fun p => { p with fsc := 3 }).pav.fsc ∧
    (pav fun p => { p with watchdog := some 0 }).pav.watchdog = some 0 := by decide +kernel

/-! ## Words and steps -/

/-- One word of each form, its operand fields at their greatest value. -/
theorem test_witness_DecodeOfEncodeIsTheInstruction :
    ∀ i ∈ [Instr.iabsShort 255 255 false true, .iadd { blank with a := 255, d := 255, b := 255, g := 127 },
      .iadd { shortWord false true 255 255 0 with form := .shortLit, lit := 0xFFFFFFFF },
      .iadd { blank with form := .extLit, lit := 0xFFFFFFFF }, .mma .integer blankU, .sysc { blank with m := 0x80 },
      .tretShort true false, .fprioRegShort 63 false],
      (opFields i).isSome = true ∧ i.wf = true ∧ (encode i).length ≤ 5 := by decide

theorem test_witness_EncodeOfDecodeIsTheWord :
    ([(0x009072C0 : BitVec 160), 0x0000006400403202, 0x000006110005000C00B0A605, 0x000000050000000600000043007F00000000001B].map fun b => match decodeBits b with
      | .ok _ n => n
      | _ => 0) = [1, 3, 3, 5] := by decide

/-- What a step meets where a word is fetched: the lane is free, its slot has a holder, and the word is read. -/
def fetching (w : Nat) : Option (BitVec 160) :=
  let s := State.reset.withFetchWord 96 w
  match s.agenda with
  | [.issue core lane] =>
    let s0 : State := { s with agenda := [], cur := none }
    if s.pav.held || (s0.core core).gated || s0.coreCycle core < ((s0.core core).lane lane).busy ||
        (s0.groupsOn core lane).any (fun x => s0.watchdogDue x.2) then none
    else
      match pickSlot ((s0.core core).lane lane).last
          ((s0.groupsOn core lane).filter fun x => decide (x.2.since ≤ s0.coreCycle core)) with
      | some (t, g) =>
        let s1 := (s0.settleArrivals t g.gid).settleFlags fib0
        match s1.fibre? fib0 with
        | some f =>
          match f.choose.run? with
          | some x =>
            let s2 := (s1.setFibre fib0 f.choose).modCore g.core fun k => { k with idleFrom := s1.tick }
            match s2.fetch (s2.spaceOf g.core t.seq) x.pc.toNat with
            | .ok (bits, _) =>
              if (x.rpc = noRpc ∨ x.pc ≠ x.rpc) ∧ x.park = .none ∧ g.holder = some 0 ∧ t = fib0.team then some bits else none
            | .fault _ _ => none
          | none => none
        | none => none
      | none => none
  | _ => none

theorem test_witness_StepRunsTheDecodedInstruction :
    fetching 0x10 = some 0x10 ∧ fetching 0x130 = some 0x130 ∧
    (match small.xlate { core := 0, asid := 0, root := fetchRoot } .fetch 0x200000 with
      | .ok p => p.loc % 32 == 0x200000 % 32 && (small.core 0).icache.isEmpty && (small.core 0).wcb.isEmpty && (small.core 0).flight.isEmpty
      | .fault _ _ => false) = true ∧
    (let s := State.reset.withFetchWord 32 0x700B
     s.agenda = [.lodge 0] ∧ s.hartRuns 0 = true ∧ s.poisoned (s.hartAt 0).pc.toNat 4 = [] ∧
       s.lodgeFetch (s.hartAt 0).pc.toNat = some 0x700B) ∧ 2 ^ 40 - 4 + 4 ≤ 2 ^ 40 := by decide

/-! ## What the well-formedness checks refuse -/

/-- One ill-formed term for each check, beside the well-formed word that it changes: the form of the row, reasons 1 to 7
and 9 of Table 3.11, fields that a form lacks, and units that do not exist. -/
theorem test_wf_form : (Instr.iadd blank).wf = true ∧ (Instr.iadd { blank with form := .short }).wf = false := by decide
theorem test_wf_reason1 : (Instr.fadd { shortWord false false 0 0 0 with form := .shortLit }).wf = true ∧
    (Instr.cpt { shortWord true false 0 0 0 with form := .shortLit }).wf = false := by decide
theorem test_wf_reason2 : (Instr.cpt blankU).wf = true ∧ (Instr.cpt blank).wf = false ∧ (Instr.gred { blankU with m := 2 }).wf = false := by decide
theorem test_wf_reason3 : (Instr.trap { blank with x := 0xFFFF }).wf = true ∧ (Instr.trap { blank with x := 0x10000 }).wf = false ∧
    (Instr.imulh { blank with m := 8 }).wf = false := by decide
theorem test_wf_reason4 : (Instr.iadd { blank with seq := 4 }).wf = true ∧ (Instr.iadd { blank with seq := 5 }).wf = false := by decide
theorem test_wf_reason5 : (Instr.iadd { blank with form := .extLit, seq := 3, x := 1, lit := 0x1 }).wf = true ∧
    (Instr.iadd { blank with seq := 3 }).wf = false ∧ (Instr.cpt { blankU with seq := 1 }).wf = false := by decide
theorem test_wf_reason6 : (Instr.iadd { blank with g := 95 }).wf = true ∧ (Instr.iadd { blank with g := 96 }).wf = false := by decide
theorem test_wf_reason7 : (Instr.idiv { blank with m := 0x20, d := 2 }).wf = true ∧
    (Instr.idiv { blank with m := 0x20, d := 3 }).wf = false ∧ (Instr.cpt { blankU with a := 62 }).wf = false := by decide
theorem test_wf_reason9 : (Instr.icmp { blank with f := 5 }).wf = true ∧ (Instr.icmp { blank with f := 6 }).wf = false := by decide
theorem test_wf_fields : (Instr.iadd { blank with lit := 1 }).wf = false ∧
    (Instr.iadd { shortWord false false 0 0 0 with form := .shortLit, b := 1 }).wf = false := by decide
theorem test_wf_units :
    (∀ i ∈ [Instr.watchdog 511 63 3, .governorSample 127 0, .copyCompletion 511 31, .replayRelease 511 15, .syscAnswer fib0 63,
        .uevasidWrite 127 0, .regionLoss 12287, .ckcmdCapture 3, .pcieLinkDown 3, .peerRequest 1023 0 (.load 8), .lostTimeout 15,
        .shankTestRow 127 3 false], i.wf = true) ∧
    (∀ i ∈ [Instr.watchdog 512 63 3, .watchdog 511 64 3, .watchdog 511 63 4, .governorSample 128 0, .copyCompletion 511 32,
        .replayRelease 511 16, .syscAnswer fib0 64, .uevasidWrite 128 0, .regionLoss 12288, .ckcmdCapture 4, .pcieLinkDown 4,
        .peerRequest 1024 0 (.load 8), .lostTimeout 16, .shankTestRow 127 4 false], i.wf = false) := by decide

/-! ## Words written out from the encoding tables -/

def reads (ws : List Word) : Option (Instr × Nat) :=
  match decode (ws.flatMap wordBytes) with
  | .ok i n => some (i, n)
  | _ => none

theorem test_decode_integer :
    reads [0x00403202, 0x64, 0] = some (.iadd { shortWord false false 4 3 0 with form := .shortLit, lit := 100 }, 3) ∧
    reads [0x009072C0] = some (.iabsShort 9 7 false false, 1) ∧
    reads [0x201042F2, 0x3E8, 0] = some (.icmp { shortWord false false 1 4 2 with form := .shortLit, y := false, lit := 0x3E8 }, 3) ∧
    reads [0x00408571, 0x88020906, 0] = some (.iacs2 { blank with d := 8, a := 4, b := 6, c := 9, g := 2, m := 0x88 }, 3) := by decide
theorem test_decode_float :
    (reads [0x00504631, 0x837F0603, 0] = some (.ffma { blank with d := 4, a := 5, b := 3, c := 6, m := 0x83 }, 3)) ∧
    reads [0x002096A0] = some (.fsqrtShort 2 9 false false, 1) ∧
    reads [0x00302901, 0x2D7F0000, 0x280] = some (.cvt { blank with d := 2, a := 3, m := 0x2D, x := 10 }, 3) := by decide
theorem test_decode_move : (reads [0x30403A72, 1, 0]).map (fun p => match p.1 with
    | .gswz w => (w.d, w.a, w.f, w.lit)
    | _ => (0, 0, 0, 0)) = some (3, 4, 3, 1) := by decide
theorem test_decode_memory :
    reads [0x40407B01, 0x007F0002, 0x20001000] = some (.ld { blank with d := 7, a := 4, f := 4, b := 2, x := 0x800040 }, 3) ∧
    (reads [0x00208BC9, 0x207F0009, 0]).map (fun p => match p.1 with
      | .afadd w => (w.d, w.a, w.b, w.m)
      | _ => (0, 0, 0, 0)) = some (8, 2, 9, 0x20) := by decide
theorem test_decode_counter_and_copy :
    (reads [0x00400D0B, 0x107F0000, 0, 1, 0]).map (fun p => match p.1 with
      | .cadd w => (w.u, w.a, w.m, w.lit)
      | _ => (false, 0, 0, 0)) = some (true, 4, 0x10, 1) ∧
    reads [0x60C09E09, 0x107F1400, 0] = some (.cpt { blankU with d := 9, a := 12, f := 6, c := 20, m := 0x10 }, 3) := by decide
theorem test_decode_matrix :
    (reads [0x00406F79, 0x017F0005, 0x00020000]).map (fun p => match p.1 with
      | .mma .fp8 w => (w.d, w.a, w.b, w.m)
      | _ => (0, 0, 0, 0)) = some (6, 4, 5, 1) ∧
    (reads [0x00400FB9, 0x017F0007, 0]).map (fun p => match p.1 with
      | .asa w => (w.d, w.a, w.b, w.m)
      | _ => (9, 0, 0, 0)) = some (0, 4, 7, 1) := by decide
theorem test_decode_control :
    reads [0x01E00078] = some (.retShort 30 false, 1) ∧ reads [0x100000A8] = some (.tretShort true false, 1) ∧
    reads [0x00000030] = some (.exitShort false, 1) ∧ (reads [0x00000091, 0x007F0000, 0x00000A80]).map (·.1) =
      some (.trap { blank with x := 0x2A }) := by decide

/-- The rows of the opcode table that give a word, with their fields zero. -/
theorem test_decode_rows :
    ([0x10, 0x28, 0x30, 0x78, 0xA8, 0xC0, 0xD8, 0xE8, 0x10E8, 0xF8, 0x108, 0x118, 0x2C0, 0x2D0, 0x4D0, 0x4E0, 0x4F0, 0x500,
      0x680, 0x690, 0x6A0, 0x6C0, 0x6D0, 0x6E0, 0x6F0, 0x800, 0x810, 0xA00, 0x700B].map (decodeTableWord 32)) =
    [Instr.nopShort false false, .yieldShort false, .exitShort false, .retShort 0 false, .tretShort false false,
     .brkShort 0 false, .sleepShort 0 false false, .fprioImmShort 0 false, .fprioRegShort 0 false, .srdShort 0 0 true false,
     .swrShort 0 0 false, .tckptShort false, .iabsShort 0 0 false false, .inegShort 0 0 false false, .popcShort 0 0 false false,
     .clzShort 0 0 false false, .ctzShort 0 0 false false, .brevShort 0 0 false false, .frcpShort 0 0 false false,
     .frsqShort 0 0 false false, .fsqrtShort 0 0 false false, .fex2Short 0 0 false false, .flg2Short 0 0 false false,
     .fsinShort 0 0 false false, .fcosShort 0 0 false false, .drcpShort 0 0 false false, .dsqrtShort 0 0 false false,
     .movShort 0 0 false false, .uevret].map some := by decide

/-! ## One step -/

/-- The value that an instruction leaves in a register, or has on its way there. -/
def after (s : State) (i : Instr) (r : RegRef) : Option Nat :=
  match exec i s with
  | .next t =>
    match t.group? fib0, t.fibre? fib0 with
    | some g, some f => some (match lastWrite (f.outstanding.flatMap (·.writes)) r with
      | some w => w.value.toNat
      | none => (rawReg g f r).toNat)
    | _, _ => none
  | _ => none
/-- What a step leaves of the fibre, and of the package. -/
def fibAfter {α : Type} (s : State) (i : Instr) (p : Fibre → α) : Option α :=
  match exec i s with
  | .next t => (t.fibre? fib0).map p
  | _ => none
def stateAfter {α : Type} (s : State) (i : Instr) (p : State → α) : Option α :=
  match exec i s with
  | .next t => some (p t)
  | _ => none
/-- Thread 0's vector registers. -/
def vecs (l : List (Nat × Word)) : State := withFibre fun f => { f with v := l.map fun x => (64 * x.1, x.2) }
def ab : Fields := { blank with d := 1, a := 2, b := 3 }
def abc : Fields := { ab with c := 4 }
/-- One operand. -/
def a1 : Fields := { blank with d := 1, a := 2 }

-- Examples of R115, R121, R124, R126, R128.
theorem test_iadd_wraps : after (vecs [(4, 0xFFFFFFFF)]) (.iadd { shortWord false false 4 3 0 with form := .shortLit, lit := 100 })
    (.vec 3 0) = some 99 := by decide
theorem test_isub_saturates : after (vecs [(2, 0x80000000), (3, 1)]) (.isub { ab with m := 8 }) (.vec 1 0) = some 0x80000000 := by decide
theorem test_lea_negative_index :
    after (vecs [(10, 0), (11, 0x1000), (12, 0xFFFFFFFE)])
      (.lea { blank with form := .extLit, d := 2, a := 10, b := 12, f := 3, lit := 0x40 }) (.vec 2 0) = some 0x30 ∧
    after (vecs [(10, 0), (11, 0x1000), (12, 0xFFFFFFFE)])
      (.lea { blank with form := .extLit, d := 2, a := 10, b := 12, f := 3, m := 0x10, lit := 0x40 }) (.vec 3 0) = some 0x1008 := by
  decide +kernel
theorem test_bfx : after (vecs [(2, 0xABCD), (3, 0x0804)]) (.bfx ab) (.vec 1 0) = some 0xBC ∧
    after (vecs [(2, 0xABCD), (3, 0x0804)]) (.bfx { ab with f := 1 }) (.vec 1 0) = some 0xFFFFFFBC := by decide
theorem test_bfi : after (vecs [(2, 0xABCD), (3, 0x0804), (4, 0xFFFFFFFF)]) (.bfi abc) (.vec 1 0) = some 0xFFFFFCDF := by decide
theorem test_bperm_sign_fill : after (vecs [(2, 0x44332211), (3, 0xF741), (4, 0x88776655)]) (.bperm abc) (.vec 1 0) =
    some 0xFF885522 := by decide
theorem test_iacs2 :
    let s := vecs [(2, 0x00010003), (3, 0x00020005), (4, 6)]
    after s (.iacs2 { abc with m := 0x10 }) (.vec 1 0) = some 0x00050003 ∧
    after s (.iacs2 { abc with m := 0x10 }) (.vec 4 0) = some 0x19 := by decide +kernel
theorem test_idiv_by_zero : after (vecs [(2, 5)]) (.idiv ab) (.vec 1 0) = some 0xFFFFFFFF ∧
    after (vecs [(2, 5)]) (.irem ab) (.vec 1 0) = some 5 := by decide
theorem test_shl_by_width : after (vecs [(2, 1), (3, 32)]) (.shl ab) (.vec 1 0) = some 0 ∧
    after (vecs [(2, 0x80000000), (3, 255)]) (.sar ab) (.vec 1 0) = some 0xFFFFFFFF := by decide

-- Examples of R141, R144, R156.
theorem test_fadd2 : after (vecs [(2, 0x40403F80), (3, 0x3B803F80)]) (.fadd2 ab) (.vec 1 0) = some 0x40404000 ∧
    fibAfter (vecs [(2, 0x40403F80), (3, 0x3B803F80)]) (.fadd2 ab) (fun f => f.fflags == flagNX) = some true := by decide
theorem test_ternary :
    let unpack : Instr := .triunp { blank with d := 4, a := 2 }
    after (vecs [(2, 0x010D)]) (.tripck { blank with d := 1, a := 2 }) (.vec 1 0) = some 0x58 ∧
    after (vecs [(2, 0xF558)]) unpack (.vec 4 0) = some 0x010D ∧
    fibAfter (vecs [(2, 0xF558)]) unpack (fun f => f.fflags == flagNV) = some true := by decide +kernel
/-- Threads 1, 4, 6 and 9 fold 1.0, 2^24, 1.0 and 1.0. -/
def folded : State := (withThreads 0x252).modFibre fib0 fun f =>
  { f with v := [(129, 0x3F800000), (132, 0x4B800000), (134, 0x3F800000), (137, 0x3F800000)] }
theorem test_gred_order : after folded (.gred { blank with d := 8, a := 2, m := 10 }) (.uni 8) = some 0x4B800000 ∧
    fibAfter folded (.gred { blank with d := 8, a := 2, m := 10 }) (fun f => f.fflags == flagNX) = some true := by decide
theorem test_gscan_exclusive : [1, 4, 6, 9, 0].map (fun t =>
    after folded (.gscan { blank with d := 3, a := 2, m := 10, f := 8 }) (.vec 3 t)) =
      [some 0, some 0x3F800000, some 0x4B800000, some 0x4B800000, some 0] := by decide

-- Examples of R219, R247, R252; R299; R360; R71.
/-- The word at 0x1000 holds 10; threads 0 to 3 add 1 to 4. -/
def adding : State := { (withThreads 15).modFibre fib0 fun f => { f with v :=
    ((List.range 4).map fun t => (128 + t, 0x1000)) ++ (List.range 4).map fun t => (256 + t, BitVec.ofNat 32 (t + 1)) } with
  mem := putAll 0 small.mem 0x1000 [10] }
theorem test_aadd_thread_order :
    [0, 1, 2, 3].map (fun t => after adding (.aadd { blank with d := 9, a := 2, b := 4, f := 1 }) (.vec 9 t)) =
      [some 10, some 11, some 13, some 16] ∧
    stateAfter adding (.aadd { blank with d := 9, a := 2, b := 4, f := 1 }) (fun t => numAt t.mem 0x1000 4) = some 20 := by decide
theorem test_awr_highest_thread_remains :
    let s : State := { ((holder .fp32 0).modFibre fib0 fun f => { f with
      splits := f.splits.map fun x => { x with mask := 15 }
      v := [(384, 10), (385, 11), (386, 12), (387, 13), (577, 0x100), (579, 0x203)] }) with nextId := 0 }
    stateAfter s (.awr { blank with d := 1, a := 6, b := 9 }) (fun t => (t.team? fib0.team).map fun x =>
      (x.cell 0 64, x.cell 0 65, x.cell 3 66)) = some (some (12, 11, 13)) := by decide
theorem test_hash : hash 0 0x18 = 0x7E8EED98 ∧ hash 0 0x10 = 0x545F4910 ∧ joinSig = 0xAAC00000 ∧
    fibAfter small (.nopShort true false) (fun f => f.fsig == 0x7E8EED98) = some true := by decide
/-- A handler at 0x400000 and room to save the split table. -/
def guarded : State := (withFibre fun f => { f with tvec := 0x400000 }).modCol 0 fun c =>
  { c with spbase := 0x10000000, spsize := 0x100000 }
theorem test_trap_entry : fibAfter guarded (.trap { blank with x := 0x2A }) (fun f =>
    (f.tcause.toNat, f.tinfo.toNat, f.tpc.toNat, f.tmask.toNat, (f.run?).map (·.pc.toNat))) =
      some (12, 0x2A, 0x200000, 0xFFFF, some 0x400000) := by decide
theorem test_illegal_words :
    fibAfter guarded (.illegalInstruction 0x130) (fun f => (f.tcause.toNat, f.tinfo.toNat)) = some (1, 0x1300) ∧
    fibAfter guarded (.illegalInstruction 0x5007F000000000E05) (fun f => (f.tcause.toNat, f.tinfo.toNat)) = some (2, 0xE002) := by
  decide
theorem test_call_and_return :
    after small (.call { blankU with d := 30, x := 0x80 }) (.uni 30) = some 0x20000C ∧
    fibAfter small (.call { blankU with d := 30, x := 0x80 }) (fun f => (f.run?).map (·.pc.toNat)) = some (some 0x200200) ∧
    fibAfter (withFibre fun f => { f with s := [(30, 0x20000F)] }) (.retShort 30 false) (fun f => (f.run?).map (·.pc.toNat)) =
      some (some 0x20000C) := by decide

-- Examples of R414, R255 and R90; R164, R400.
theorem test_clock : [(2, 0), (2, 1), (1, 1), (0, 1)].map (fun p =>
    ({ small.modCol 5 (fun c => { c with level := p.2 }) with opPoint := [(0, p.1)] } : State).clkMHz 5) = [1800, 1575, 1400, 1225] := by
  decide
theorem test_home_column : homeColumn 0x40005000 = 5 ∧ lineClass 0x400004000 = 8 := by decide
theorem test_retry_receipts : acceptReceipt 500 = 0x80000000000001F4 ∧ Retry.full.receipt = 0xC000000000000001 ∧
    (Retry.malformed true 0).receipt = 0xC000000000010003 := by decide
/-- The first step after reset with one instruction placed: a NOP goes on to the next word. -/
theorem test_step_runs_nop : (match step (State.reset.withFetchWord 32 0x10) with
    | .next t => ((t.fibre? fib0).bind fun f => f.run?).map fun x => x.pc.toNat
    | _ => none) = some 0x200004 := by decide

end Sys2Proof.Tests
end

section
/-!
The state after package reset (O59): columns, cores and the other units are at their structures' default values.
-/
namespace Sys2Proof.Machine

@[simp] theorem State.col_reset (c : Nat) : State.reset.col c = {} := rfl
@[simp] theorem State.core_reset (k : Nat) : State.reset.core k = {} := rfl
@[simp] theorem State.hartAt_reset (h : Nat) : State.reset.hartAt h = {} := rfl
@[simp] theorem State.portAt_reset (q : Nat) : State.reset.portAt q = {} := rfl
@[simp] theorem State.ckptAt_reset (i : Nat) : State.reset.ckptAt i = {} := rfl
@[simp] theorem State.opPoint_reset : State.reset.opPoint = [] := rfl

/-- At reset every cluster is at the nominal point and level 0, so that its clock is the base clock (R409). -/
theorem State.clkMHz_reset (c : Nat) : State.reset.clkMHz c = 1400 := by
  simp [State.clkMHz, State.point, pointMHz, look]

theorem State.powerLaw_reset : State.reset.powerLaw :=
  ⟨Nat.le_refl 64, rfl, Nat.zero_lt_succ 3, fun _ => ⟨Nat.zero_le 2, Nat.zero_le 2⟩⟩

/-- Settles O59: nothing is resident, and each kind of unit holds its listed reset values. -/
theorem resetLeavesTheListedValues : Obligations.ResetLeavesTheListedValues := by
  unfold Obligations.ResetLeavesTheListedValues
  refine ⟨rfl, rfl, rfl, rfl, rfl, rfl, rfl, rfl, rfl, State.powerLaw_reset, State.reset_memoryWf, rfl,
    fun c => ?_, fun k => ?_, fun q => ?_, fun _ => rfl, fun i => ?_, fun h => ?_⟩
  · simp [State.clkMHz_reset, look]
  · simp
  · simp [Port.live]
  · simp
  · simp

end Sys2Proof.Machine
end

section
/-!
Writes of memory (O25): what a write at a location leaves in the bytes and in the poison marks, and what the words read
back. While no checkpoint protects a page, nothing is copied aside first (R424), so that a write is `State.putLoc` alone.
-/
namespace Sys2Proof.Machine

/-! ## Memory of the package -/

/-- No checkpoint engine protects a page (R424). -/
def State.Unprotected (s : State) : Prop := ∀ k ∈ s.ckpt, ∀ p ∈ k.2.pages, p.isProtected = false

theorem State.writeLoc_of_unprotected {s : State} (h : s.Unprotected) (a : Nat) (bs : List Byte) :
    s.writeLoc a bs = s.putLoc a bs := by
  have aside (l : List Nat) : l.foldl captureFault s = s := by
    induction l with
    | nil => rfl
    | cons x l ih => rw [List.foldl_cons, captureFault_none s x h, ih]
  rw [State.writeLoc, aside]

theorem State.writeLoc_mem_of_unprotected {s : State} (h : s.Unprotected) (a : Nat) (bs : List Byte) :
    (s.writeLoc a bs).mem = putAll 0 s.mem a bs := by
  rw [State.writeLoc_of_unprotected h, State.putLoc_mem]

theorem State.byteAt_writeLoc_of_outside {s : State} (h : s.Unprotected) {a x : Nat} {bs : List Byte}
    (hx : x < a ∨ a + bs.length ≤ x) : byteAt (s.writeLoc a bs).mem x = byteAt s.mem x := by
  rw [State.writeLoc_mem_of_unprotected h, byteAt_putAll, if_neg (by omega)]

theorem State.writeLoc_wf {s : State} (h : Memory.wf s.mem = true) (a : Nat) (bs : List Byte) :
    Memory.wf (s.writeLoc a bs).mem = true := by
  rw [State.writeLoc_mem]
  exact wf_putAll _ a bs (foldl_pred (P := fun s => Memory.wf s.mem = true) captureFault_wf _ s h)

/-! ## Poison marks (R179) -/

/-- The bytes of a write unmark the sectors that they cover whole, and no other. -/
theorem State.mem_putLoc_poison (s : State) (a x : Nat) (bs : List Byte) :
    x ∈ (s.putLoc a bs).poison ↔ x ∈ s.poison ∧ ¬(a ≤ 32 * x ∧ 32 * x + 32 ≤ a + bs.length) := by
  simp only [State.putLoc, State.evaluate_poison, State.throughSlice_poison, List.mem_filter, Bool.not_eq_true',
    Bool.and_eq_false_iff, decide_eq_false_iff_not, not_and_or]

theorem State.not_mem_writeLoc_poison (s : State) {a x : Nat} {bs : List Byte} (h1 : a ≤ 32 * x)
    (h2 : 32 * x + 32 ≤ a + bs.length) : x ∉ (s.writeLoc a bs).poison := fun h =>
  ((State.mem_putLoc_poison _ a x bs).1 h).2 ⟨h1, h2⟩

theorem State.mem_writeLoc_poison {s : State} (h : s.Unprotected) (a x : Nat) (bs : List Byte) :
    x ∈ (s.writeLoc a bs).poison ↔ x ∈ s.poison ∧ ¬(a ≤ 32 * x ∧ 32 * x + 32 ≤ a + bs.length) := by
  rw [State.writeLoc_of_unprotected h, State.mem_putLoc_poison]

/-! ## Words -/

theorem State.wordAt_writeNum (s : State) (a : Nat) (v : DWord) : (s.writeNum a 8 v.toNat).wordAt a = v := by
  rw [State.wordAt, State.writeNum, State.writeLoc_mem, numAt_putAll, Nat.mod_eq_of_lt (b := 256 ^ 8) v.isLt,
    BitVec.ofNat_toNat, BitVec.setWidth_eq]

theorem State.wordAt_writeNum_of_disjoint {s : State} (h : s.Unprotected) {a b : Nat} (v : DWord)
    (hd : b + 8 ≤ a ∨ a + 8 ≤ b) : (s.writeNum a 8 v.toNat).wordAt b = s.wordAt b := by
  rw [State.wordAt, State.writeNum, State.writeLoc_mem_of_unprotected h,
    numAt_putAll_of_disjoint _ _ _ _ _ (by rwa [length_bytesLE]), State.wordAt]

/-! ## Team memories -/

@[simp] theorem State.team?_evaluate (s : State) (p : CounterRef → Bool) : (s.evaluate p).team? = s.team? := by
  funext r
  rw [State.team?, State.evaluate_teams, State.team?]

/-- A change of a team found under its name that keeps the name is read back. -/
theorem State.team?_modTeam_of_some {s : State} {r : TeamRef} {t : Team} (h : s.team? r = some t) (f : Team → Team)
    (hf : ∀ t, (f t).ref = t.ref) : (s.modTeam r f).team? r = some (f t) := by
  rw [s.team?_modTeam r f hf, h, Option.map_some]

/-- The journal changes the interval of its team alone (R370). -/
theorem State.team?_journal {s : State} {r : TeamRef} {t : Team} (h : s.team? r = some t) (u : UnitRef) :
    ∃ iv, (s.journal r u).team? r = some { t with interval := iv } := by
  unfold State.journal
  split
  · split
    · split
      · exact ⟨_, h⟩
      · dsimp only
        split
        · exact ⟨_, State.team?_modTeam_of_some h _ fun _ => rfl⟩
        · exact ⟨_, State.team?_modTeam_of_some h _ fun _ => rfl⟩
    · exact ⟨_, h⟩
  · exact ⟨_, h⟩

theorem State.team?_foldl_journal {s : State} {r : TeamRef} {t : Team} (h : s.team? r = some t) {α : Type} (l : List α)
    (f : α → UnitRef) : ∃ iv, (l.foldl (fun s x => s.journal r (f x)) s).team? r = some { t with interval := iv } := by
  induction l generalizing s t with
  | nil => exact ⟨_, h⟩
  | cons x l ih =>
    obtain ⟨iv, h1⟩ := State.team?_journal h (f x)
    obtain ⟨iv', h2⟩ := ih h1
    exact ⟨iv', h2⟩

/-- The same for a write that journals unless it is told that the old contents do not count. -/
theorem State.team?_journalled {s : State} {r : TeamRef} {t : Team} (h : s.team? r = some t) (old : Bool) {α : Type}
    (l : List α) (f : α → UnitRef) :
    ∃ iv, (if old then s else l.foldl (fun s x => s.journal r (f x)) s).team? r = some { t with interval := iv } := by
  cases old
  · exact State.team?_foldl_journal h l f
  · exact ⟨_, h⟩

/-- A write of scratchpad bytes changes the bytes, the journal and the marks of the team (R161). -/
theorem State.team?_writeScratch {s : State} {r : TeamRef} {t : Team} (h : s.team? r = some t) (o : Nat) (bs : List Byte)
    (old : Bool) : ∃ iv m, (s.writeScratch r o bs old).team? r =
      some { t with scratch := putAll 0 t.scratch o bs, interval := iv, marked := m } := by
  unfold State.writeScratch
  dsimp only
  rw [State.team?_evaluate]
  obtain ⟨iv, h1⟩ := State.team?_journalled h old
    (if bs.length = 0 then [] else (List.range ((o + bs.length - 1) / 128 - o / 128 + 1)).map fun i => (o / 128 + i) * 128)
    UnitRef.line
  exact ⟨iv, _, State.team?_modTeam_of_some h1 _ fun _ => rfl⟩

/-- A write of operand-slot bytes changes the bytes, the journal and the marks of the team (R177). -/
theorem State.team?_writeSlot {s : State} {r : TeamRef} {t : Team} (h : s.team? r = some t) (slot o : Nat) (bs : List Byte)
    (old : Bool) : ∃ iv m, (s.writeSlot r slot o bs old).team? r =
      some { t with slotBytes := putAll 0 t.slotBytes (slotKey slot o) bs, interval := iv, marked := m } := by
  unfold State.writeSlot
  obtain ⟨iv, h1⟩ := State.team?_journalled h old
    (if bs.length = 0 then [] else (List.range ((o + bs.length - 1) / 128 - o / 128 + 1)).map fun i => o / 128 + i)
    (UnitRef.slotUnit slot)
  exact ⟨iv, _, State.team?_modTeam_of_some h1 _ fun _ => rfl⟩

/-- A write of accumulator cells changes the cells, the journal and the marks of the team (R229). -/
theorem State.team?_writeCells {s : State} {r : TeamRef} {t : Team} (h : s.team? r = some t)
    (cs : List (Nat × Nat × Word)) (old : Bool) : ∃ iv m, (s.writeCells r cs old).team? r =
      some { t with cells := cs.foldl (fun m (i, j, v) => put 0 m (cellKey i j) v) t.cells, interval := iv, marked := m } := by
  unfold State.writeCells
  obtain ⟨iv, h1⟩ := State.team?_journalled h old
    ((cs.map fun (i, j, _) => UnitRef.row (4 * (i / 64) + j / 64) (i % 64)).eraseDups) id
  exact ⟨iv, _, State.team?_modTeam_of_some h1 _ fun _ => rfl⟩

/-- Cells have keys of their own (R78). -/
theorem cellKey_inj {i j i' j' : Nat} (hj : j < 256) (hj' : j' < 256) (h : cellKey i j = cellKey i' j') :
    i = i' ∧ j = j' := by
  unfold cellKey at h
  omega

theorem Team.cell_put (t : Team) (i j i' j' : Nat) (v : Word) (hj : j < 256) (hj' : j' < 256) :
    { t with cells := put 0 t.cells (cellKey i j) v : Team }.cell i' j' = if (i', j') = (i, j) then v.toNat else t.cell i' j' := by
  unfold Team.cell
  rw [look_put]
  by_cases h : (i', j') = (i, j)
  · obtain ⟨rfl, rfl⟩ := Prod.mk.inj h
    rw [if_pos rfl, if_pos rfl]
  · rw [if_neg h, if_neg fun e => h (by obtain ⟨rfl, rfl⟩ := cellKey_inj hj' hj e; rfl)]

/-- Settles O25: memory by the rules of `State.writeLoc`, the team's memories by those of its three writes. -/
theorem memoryWritesAreExact : Obligations.MemoryWritesAreExact := by
  unfold Obligations.MemoryWritesAreExact
  refine ⟨fun s a bs => ?_, fun s r t o slot bs old ht => ?_⟩
  · exact ⟨fun x h1 h2 => s.byteAt_writeLoc a x bs ⟨h1, h2⟩, fun free x hx => State.byteAt_writeLoc_of_outside free hx,
      fun h => State.writeLoc_wf h a bs, fun x h1 h2 => s.not_mem_writeLoc_poison h1 h2,
      fun free x => State.mem_writeLoc_poison free a x bs, s.wordAt_writeNum a,
      fun free v b hd => State.wordAt_writeNum_of_disjoint free v hd⟩
  · refine ⟨?scratch, ?slot, fun i j v hj => ?cells⟩
    case scratch =>
      obtain ⟨iv, m, hu⟩ := State.team?_writeScratch ht o bs old
      exact ⟨_, hu, rfl, rfl, fun x => byteAt_putAll t.scratch o x bs, wf_putAll t.scratch o bs⟩
    case slot =>
      obtain ⟨iv, m, hu⟩ := State.team?_writeSlot ht slot o bs old
      exact ⟨_, hu, rfl, rfl, fun x => byteAt_putAll t.slotBytes _ x bs, wf_putAll t.slotBytes _ bs⟩
    case cells =>
      obtain ⟨iv, m, hu⟩ := State.team?_writeCells ht [(i, j, v)] old
      exact ⟨_, hu, rfl, rfl, (t.cell_put i j i j v hj hj).trans (if_pos rfl),
        fun i' j' hj' hne => (t.cell_put i j i' j' v hj hj').trans (if_neg hne)⟩

end Sys2Proof.Machine
end

section
/-!
Writes of device registers (O49). The registers of a column that the host writes stand in `Column.hostRegs`; what fibres
and memory do on the way of a write, such as handler entries that room in the save pool lets go on, leaves them as they
are.
-/
namespace Sys2Proof.Machine

/-! ## The host's registers of a column (Table 24.2) -/

/-- A column's registers that hold what the host last wrote, and nothing else of it. -/
def Column.hostRegs (x : Column) : Column :=
  { spt := x.spt, lsel := x.lsel, evbase := x.evbase, scbase := x.scbase, evsize := x.evsize, scsize := x.scsize
    evprod := x.evprod, scprod := x.scprod, evcons := x.evcons, sccons := x.sccons, evirq := x.evirq
    spbase := x.spbase, spsize := x.spsize }

/-- The host's registers of every column. -/
def State.hostRegs (s : State) (c : Nat) : Column := (s.col c).hostRegs

theorem State.modCol_hostRegs (s : State) (c : Nat) (f : Column → Column) (hf : ∀ x, (f x).hostRegs = x.hostRegs) :
    (s.modCol c f).hostRegs = s.hostRegs := by
  funext d
  rw [State.hostRegs, State.col_modCol]
  split
  · subst_vars; exact hf _
  · rfl

@[simp] theorem State.modCore_hostRegs (s : State) (k : Nat) (f : Core → Core) : (s.modCore k f).hostRegs = s.hostRegs := rfl
@[simp] theorem State.setCore_hostRegs (s : State) (k : Nat) (x : Core) : (s.setCore k x).hostRegs = s.hostRegs := rfl
@[simp] theorem State.modFibre_hostRegs (s : State) (r : FibreRef) (f : Fibre → Fibre) :
    (s.modFibre r f).hostRegs = s.hostRegs := rfl
@[simp] theorem State.modCkpt_hostRegs (s : State) (i : Nat) (f : Checkpoint → Checkpoint) :
    (s.modCkpt i f).hostRegs = s.hostRegs := rfl

/-! ## Writes of memory -/

theorem hostRegs_look_map (m : Sparse Column) (f : Column → Column) (hf : ∀ x, (f x).hostRegs = x.hostRegs) (c : Nat) :
    (look ({} : Column) (m.map fun (i, x) => (i, f x)) c).hostRegs = (look {} m c).hostRegs := by
  induction m with
  | nil => rfl
  | cons e m ih =>
    simp only [List.map_cons, look]
    split
    · exact hf _
    · exact ih

@[simp] theorem State.modLaunch_hostRegs (s : State) (n : Nat) (f : Launch → Launch) :
    (s.modLaunch n f).hostRegs = s.hostRegs :=
  funext (hostRegs_look_map s.columns
    (fun x => { x with queue := x.queue.map fun l => if l.seq == n then f l else l }) fun _ => rfl)

@[simp] theorem fireOne_hostRegs (s : State) (w : Waiter) : (fireOne s w).hostRegs = s.hostRegs := by
  unfold fireOne
  split
  · exact s.modLaunch_hostRegs _ _
  · rfl
  · rfl

@[simp] theorem State.evaluate_hostRegs (s : State) (p : CounterRef → Bool) : (s.evaluate p).hostRegs = s.hostRegs :=
  foldl_keeps (·.hostRegs) fireOne_hostRegs _ _

@[simp] theorem State.throughSlice_hostRegs (s : State) (a n : Nat) (w : Bool) :
    (s.throughSlice a n w).hostRegs = s.hostRegs := by
  unfold State.throughSlice
  split
  · refine foldl_keeps (·.hostRegs) (fun s l => ?_) _ s
    exact s.modCol_hostRegs _ _ fun _ => rfl
  · rfl

@[simp] theorem State.putLoc_hostRegs (s : State) (a : Nat) (bs : List Byte) : (s.putLoc a bs).hostRegs = s.hostRegs := by
  unfold State.putLoc
  rw [State.evaluate_hostRegs]
  exact s.throughSlice_hostRegs a bs.length true

@[simp] theorem State.demand_hostRegs (s : State) (o : Nat) : (s.demand o).hostRegs = s.hostRegs := by
  unfold State.demand State.wakeRegion
  dsimp only
  split
  · rfl
  · rw [State.modCol_hostRegs]
    · exact s.modCol_hostRegs _ _ fun _ => rfl
    · intro x
      split <;> rfl

@[simp] theorem State.wakePage_hostRegs (s : State) (ins : Bool) (p : Nat) : (s.wakePage ins p).hostRegs = s.hostRegs := by
  unfold State.wakePage
  split
  · exact s.demand_hostRegs _
  · rfl

@[simp] theorem State.copyAside_hostRegs (s : State) (i : Nat) (ins : Bool) (p : Nat) :
    (s.copyAside i ins p).hostRegs = s.hostRegs := by
  unfold State.copyAside
  dsimp only
  split
  · split <;> simp
  · rfl

@[simp] theorem captureFault_hostRegs (s : State) (a : Nat) : (captureFault s a).hostRegs = s.hostRegs := by
  unfold captureFault
  split
  · rfl
  · refine foldl_keeps (·.hostRegs) (fun s x => ?_) _ _
    obtain ⟨i, c⟩ := x
    dsimp only
    split
    · simp
    · rfl

@[simp] theorem State.writeLoc_hostRegs (s : State) (a : Nat) (bs : List Byte) : (s.writeLoc a bs).hostRegs = s.hostRegs := by
  unfold State.writeLoc
  rw [State.putLoc_hostRegs]
  exact foldl_keeps (·.hostRegs) captureFault_hostRegs _ s

/-! ## Room in the save pool (R291, R357) -/

@[simp] theorem State.wakeCore_hostRegs (s : State) (k : Nat) : (s.wakeCore k).hostRegs = s.hostRegs := by
  unfold State.wakeCore
  dsimp only
  split <;> rfl

@[simp] theorem State.retry_hostRegs (s : State) (p : Hold → Bool) : (s.retry p).hostRegs = s.hostRegs :=
  foldl_keeps (·.hostRegs) State.wakeCore_hostRegs _ _

theorem takePool_hostRegs {s t : State} {c n a : Nat} (h : takePool s c n = some (a, t)) : t.hostRegs = s.hostRegs := by
  unfold takePool at h
  split at h
  · cases h
  · obtain ⟨b, -, hb⟩ := Option.map_eq_some_iff.1 h
    obtain ⟨-, rfl⟩ := Prod.mk.inj hb
    exact s.modCol_hostRegs _ _ fun _ => rfl

theorem needSpill_hostRegs {s t : State} {r : FibreRef} {c : Nat} (h : needSpill s r c = some t) :
    t.hostRegs = s.hostRegs := by
  unfold needSpill at h
  split at h
  · cases h; rfl
  · rename_i f _
    generalize (if f.hnd then f.hspill else f.spill).isSome = has at h
    cases has
    · obtain ⟨⟨a, u⟩, hu, rfl⟩ := Option.map_eq_some_iff.1 h
      exact (State.modFibre_hostRegs _ _ _).trans (takePool_hostRegs hu)
    · cases h; rfl

@[simp] theorem writeSpilled_hostRegs (s : State) (r : FibreRef) : (writeSpilled s r).hostRegs = s.hostRegs := by
  unfold writeSpilled writeEntries
  split
  · rfl
  · split
    · rfl
    · exact foldl_keeps (·.hostRegs) (fun s _ => s.writeLoc_hostRegs _ _) _ s

@[simp] theorem State.enterHandler_hostRegs (s : State) (r : FibreRef) (t : TrapInfo) :
    (s.enterHandler r t).hostRegs = s.hostRegs := by
  unfold State.enterHandler
  split
  · rfl
  · rename_i u hu
    simpa using needSpill_hostRegs hu

@[simp] theorem State.enterWaiting_hostRegs (s : State) (r : FibreRef) : (s.enterWaiting r).hostRegs = s.hostRegs := by
  unfold State.enterWaiting
  split
  · split
    · split <;> simp
    · rfl
  · rfl

@[simp] theorem State.poolFreed_hostRegs (s : State) : s.poolFreed.hostRegs = s.hostRegs := by
  unfold State.poolFreed
  rw [foldl_keeps (·.hostRegs) fun s t => foldl_keeps (·.hostRegs) (fun s g => foldl_keeps (·.hostRegs)
    (fun s f => s.enterWaiting_hostRegs _) _ _) _ _]
  exact s.retry_hostRegs _

/-! ## The writes -/

theorem ringSize_eq (v : DWord) : ringSize v = if 4 ≤ v.toNat % 32 ∧ v.toNat % 32 ≤ 16 then v.toNat % 32 else 0 := rfl

@[simp] theorem State.col_modCol_self (s : State) (c : Nat) (f : Column → Column) : (s.modCol c f).col c = f (s.col c) := by
  rw [State.col_modCol, if_pos rfl]

@[simp] theorem State.hartAt_modHart_self (s : State) (h : Nat) (f : Hart → Hart) :
    (s.modHart h f).hartAt h = f (s.hartAt h) := by
  rw [State.hartAt_modHart, if_pos rfl]

theorem State.exec_ringSizeWrite {s : State} {col : Nat} (h : s.soleRuns (clusterOf col) = true) (sysc : Bool) (v : DWord) :
    exec (.ringSizeWrite col sysc v) s = .next (s.writeRingSize col sysc v) := congrArg _ (if_pos h)

theorem State.exec_savePoolWrite {s : State} {col : Nat} (h : s.soleRuns (clusterOf col) = true) (size : Bool) (v : DWord) :
    exec (.savePoolWrite col size v) s = .next (s.writeSavePool col size v) := congrArg _ (if_pos h)

/-- A register of the save pool takes no write while an area lies in the pool (R395). -/
theorem State.writeSavePool_of_taken {s : State} {col : Nat} (h : (s.col col).pool ≠ []) (size : Bool) (v : DWord) :
    s.writeSavePool col size v = s := by
  rw [State.writeSavePool, if_pos (by simpa using h)]

theorem State.writeSavePool_of_empty {s : State} {col : Nat} (h : (s.col col).pool = []) (size : Bool) (v : DWord) :
    (s.writeSavePool col size v).hostRegs col =
      if size then { (s.hostRegs col) with spsize := v &&& ~~~0xFFF } else { (s.hostRegs col) with spbase := v &&& ~~~0xFFF } := by
  rw [State.writeSavePool, if_neg (by simp [h]), State.poolFreed_hostRegs, State.hostRegs, State.col_modCol_self]
  cases size <;> rfl

theorem State.soleRuns_of_hartRuns {s : State} {hart : Nat} (h : s.hartRuns hart = true) :
    s.soleRuns (clusterOf hart) = true := (Bool.and_eq_true_iff.1 h).1

/-- A register of a sole in reset takes no write (R405). -/
theorem State.writeRegister_of_stopped {s : State} {reg : DeviceReg} {sole : Nat} (hr : regSole reg = some sole)
    (h : s.soleRuns sole = false) (v : DWord) : s.writeRegister reg v = s :=
  if_pos (by simp [hr, h])

section Runs
variable {s : State} {col : Nat} (h : s.soleRuns (clusterOf col) = true) (v : DWord)
include h

/-- A register of a column is written under its access code where its sole runs. -/
theorem State.writeRegister_spt (n : Nat) :
    s.writeRegister (.spt col n) v = s.modCol col fun c => { c with spt := put 0 c.spt n (v &&& 3) } :=
  if_neg (by simp [regSole, h])

theorem State.writeRegister_lsel : s.writeRegister (.lsel col) v = s.modCol col fun c => { c with lsel := v } :=
  if_neg (by simp [regSole, h])

theorem State.writeRegister_evirq :
    s.writeRegister (.evirq col) v = s.modCol col fun c => { c with evirq := v &&& 0x80000000000007FF } :=
  if_neg (by simp [regSole, h])

end Runs

theorem State.writeRegister_lostto (s : State) (v : DWord) :
    (s.writeRegister .lostto v).lostto = if 1 ≤ v.toNat ∧ v.toNat ≤ 10000 then v else s.lostto := by
  have hw : s.writeRegister .lostto v = if 1 ≤ v.toNat ∧ v.toNat ≤ 10000 then { s with lostto := v } else s :=
    if_neg (by simp [regSole])
  rw [hw]
  split <;> rfl

theorem State.writeRegister_uevCsr {s : State} {hart : Nat} (h : s.hartRuns hart = true) (n : Nat) (v : DWord) :
    s.writeRegister (.uevCsr hart n) v = if n = 0x5C1 ∧ (s.hartAt hart).mode = .user then s.hartIllegal hart
      else s.modHart hart fun h => h.writeCsr n v := by
  rw [State.writeRegister, if_neg (by simp [regSole, s.soleRuns_of_hartRuns h])]
  exact if_neg (by simp [h])

theorem State.writeRegister_uevCsr_of_stopped {s : State} {hart : Nat} (h : s.hartRuns hart = false) (n : Nat) (v : DWord) :
    s.writeRegister (.uevCsr hart n) v = s := by
  have hw : s.writeUevCsr hart n v = s := if_pos (by simp [h])
  unfold State.writeRegister
  split
  · rfl
  · exact hw

/-- A hart that takes an illegal-instruction exception holds its cause, 2. -/
theorem State.exception_hartIllegal (s : State) (hart : Nat) :
    ((s.hartIllegal hart).hartAt hart).exception = some (2, BitVec.ofNat 64 s.takeFree.1) := by
  simp [State.hartIllegal, State.hartTrap]

/-- The oldest held event enters the ring once it has room (R273). -/
theorem State.exec_heldEventWrite {s : State} {col : Nat} {e : EventRecord} {rest : List EventRecord}
    (hh : (s.col col).held = e :: rest) (hf : s.eventRingFull col = false) :
    exec (.heldEventWrite col) s = .next ((s.modCol col fun c => { c with held := rest }).writeEvent col e) := by
  show execHeldEventWrite col s = _
  rw [execHeldEventWrite, hh]
  exact congrArg _ (if_neg (by simp [hf]))

/-- Settles O49: each kind of register by its own write, the save pool's through what `State.poolFreed` leaves. -/
theorem registersTakeWritesAsTheirCodesSay : Obligations.RegistersTakeWritesAsTheirCodesSay := by
  unfold Obligations.RegistersTakeWritesAsTheirCodesSay
  intro s col n v
  refine ⟨fun h => ⟨?evsize, ?scsize, fun hp => ?taken, fun hp => ?empty, ?spt, ?lsel, ?evirq⟩, fun h => ?stopped,
    ⟨_, rfl, s.writeRegister_lostto v⟩, fun hart h => ⟨?uevp, fun hm => ?barred⟩, fun hart h => ?stoppedHart,
    fun e rest => State.exec_heldEventWrite⟩
  case evsize => exact ⟨_, State.exec_ringSizeWrite h false v, by simp [State.writeRingSize, ringSize_eq]⟩
  case scsize => exact State.exec_ringSizeWrite h true v
  case taken => simp [State.exec_savePoolWrite h, State.writeSavePool_of_taken hp]
  case empty =>
    exact ⟨⟨_, State.exec_savePoolWrite h false v, congrArg Column.spbase (State.writeSavePool_of_empty hp false v)⟩,
      _, State.exec_savePoolWrite h true v, congrArg Column.spsize (State.writeSavePool_of_empty hp true v)⟩
  case spt => exact ⟨_, rfl, by simp [State.writeRegister_spt h]⟩
  case lsel => exact ⟨_, rfl, by simp [State.writeRegister_lsel h]⟩
  case evirq => exact ⟨_, rfl, by simp [State.writeRegister_evirq h]⟩
  case stopped => exact congrArg _ (State.writeRegister_of_stopped (reg := .evirq col) rfl h v)
  case uevp => exact ⟨_, rfl, by simp [State.writeRegister_uevCsr h, Hart.writeCsr]⟩
  case barred => exact ⟨_, _, rfl, by rw [State.writeRegister_uevCsr h, if_pos ⟨rfl, hm⟩, State.exception_hartIllegal]⟩
  case stoppedHart => exact congrArg _ (State.writeRegister_uevCsr_of_stopped h n v)

end Sys2Proof.Machine
end

section
/-!
The checks of an issue in their order (O36): what `State.issueIn` answers where one of them stops the instruction, and
that every instruction with words issues by it.
-/
namespace Sys2Proof.Machine

/-! ## Instructions with words -/

/-- Every instruction with words issues under its opcode and fields, whatever its body. -/
theorem exec_eq_issue {i : Instr} {op : Nat} {w : Fields} (h : opFields i = some (op, w)) :
    ∃ body, ∀ s, exec i s = s.issue op w body := by
  cases i <;> cases h <;> exact ⟨_, fun _ => rfl⟩

/-- In the context of the fibre that holds the turn an instruction goes through its checks to its body. -/
theorem exec_of_contextOf {s : State} {i : Instr} {c : Ctx} (h : s.contextOf i = some c) :
    ∃ body, exec i s = .next ((s.begun c).issueIn c body) := by
  obtain ⟨hr, ho, hx⟩ := State.contextOf_spec h
  obtain ⟨body, he⟩ := exec_eq_issue ho
  refine ⟨body, ?_⟩
  rw [he, State.issue, hr]
  simp only [hx]
  rfl

/-! ## The checks -/

section Checks
variable {s : State} {c : Ctx} {body : Ctx → State → Effect}

/-- `State.issueIn` in the words of the claims. -/
theorem State.issueIn_eq : s.issueIn c body =
    if c.settled = false then s.stall c (outstandingFor c.f c.reads)
    else match (if checking s c.k c.core then earlyRead c.f (s.made c) else none) with
    | some r => s.stopIssue c (.trap 4 (BitVec.ofNat 64 (r.field + 256 * r.pos)) (earlyThreads c r (s.made c)) [])
    | none => match encodingReason c.op c.w (some (c.env s)) with
      | some reason => s.stopIssue c (.trap 2 (BitVec.ofNat 64 (reason + 256 * c.op)) c.act [])
      | none => if readsMarked s c (s.made c) then s.stopIssue c (.team 24) else s.apply c (body c s) := by
  unfold State.issueIn Ctx.settled
  simp only [Bool.not_eq_true', Ctx.reads]
  rfl

/-- Outstanding results are waited for (R29). -/
theorem State.issueIn_unsettled (h : c.settled = false) : s.issueIn c body = s.stall c (outstandingFor c.f c.reads) := by
  rw [State.issueIn_eq, if_pos h]

/-- A read that comes too early is cause 4 (R28). -/
theorem State.issueIn_early (h : c.settled = true) (hc : checking s c.k c.core = true) {r : Read}
    (hr : earlyRead c.f (s.made c) = some r) : s.issueIn c body =
      s.stopIssue c (.trap 4 (BitVec.ofNat 64 (r.field + 256 * r.pos)) (earlyThreads c r (s.made c)) []) := by
  simp [State.issueIn_eq, h, hc, hr]

/-- On time no read stops the instruction. -/
theorem State.early_eq_none_of_onTime (h : s.onTime c = true) :
    (if checking s c.k c.core then earlyRead c.f (s.made c) else none) = none := by
  split
  · simpa [State.onTime, *] using h
  · rfl

/-- An illegal word is cause 2 (R71). -/
theorem State.issueIn_illegal (h : c.settled = true) (ht : s.onTime c = true) {k : Nat}
    (hk : encodingReason c.op c.w (some (c.env s)) = some k) : s.issueIn c body =
      s.stopIssue c (.trap 2 (BitVec.ofNat 64 (k + 256 * c.op)) c.act []) := by
  simp only [State.issueIn_eq, h, State.early_eq_none_of_onTime ht, hk, Bool.true_eq_false, if_false]

/-- A marked operand is cause 24 (R375). -/
theorem State.issueIn_marked (h : c.settled = true) (ht : s.onTime c = true) (hl : s.legal c = true)
    (hm : readsMarked s c (s.made c) = true) : s.issueIn c body = s.stopIssue c (.team 24) := by
  rw [State.legal, Option.isNone_iff_eq_none] at hl
  simp only [State.issueIn_eq, h, State.early_eq_none_of_onTime ht, hl, hm, Bool.true_eq_false, if_false, if_true]

end Checks

/-! ## Words that do not decode (R71, R72) -/

theorem exec_illegalInstruction {s : State} {r : FibreRef} {bits : BitVec 160} {c : Ctx} (hr : s.cur = some r)
    (hx : s.context r (opOf bits).toNat (fieldsOf bits) (bits.extractLsb' 0 32) = some c) :
    exec (.illegalInstruction bits) s = .next (if opAssigned (opOf bits).toNat
      then (s.begun c).issueIn c (illegalBody bits) else (s.begun c).apply c (illegalBody bits c (s.begun c))) := by
  obtain ⟨rfl, ho, -⟩ := State.context_fields hx
  show s.issueIllegal bits = _
  rw [State.issueIllegal, hr]
  simp only [hx, ho]
  rfl

/-- Settles O36: each check by what `State.issueIn` answers under it. -/
theorem checksBeforeAnEffectComeInOrder : Obligations.ChecksBeforeAnEffectComeInOrder := by
  unfold Obligations.ChecksBeforeAnEffectComeInOrder
  refine ⟨fun s i c h => ?words, fun s r bits c hr hx => ⟨fun ha => ?unassigned, fun ha hs ht k hk => ?illegal⟩⟩
  case words =>
    obtain ⟨body, he⟩ := exec_of_contextOf h
    rw [he]
    exact ⟨fun hs => congrArg _ (State.issueIn_unsettled hs),
      fun hs r hc hr => congrArg _ (State.issueIn_early hs hc hr),
      fun hs ht k hk => congrArg _ (State.issueIn_illegal hs ht hk),
      fun hs ht hl hm => congrArg _ (State.issueIn_marked hs ht hl hm)⟩
  case unassigned =>
    simp only [exec_illegalInstruction hr hx, illegalBody, ha, Bool.false_eq_true, if_false]
    rfl
  case illegal =>
    obtain ⟨-, ho, hw, -⟩ := State.context_fields hx
    rw [exec_illegalInstruction hr hx, if_pos ha]
    rw [← ho, ← hw] at hk
    rw [← ho]
    exact congrArg _ (State.issueIn_illegal hs ht hk)

end Sys2Proof.Machine
end

section
/-!
The step of the package (O58): what a turn at the head of the agenda comes to, from the choice of a lane to the instruction
that the fetched words decode to.
-/
namespace Sys2Proof.Machine

/-! ## Turns at the head of the agenda -/

/-- A package that is not held in reset takes the turn at the head of its agenda. -/
theorem step_of_agenda {s : State} {t : Turn} {rest : List Turn} (hp : s.pav.held = false) (ha : s.agenda = t :: rest) :
    step s = ({ s with agenda := rest } : State).unlessFull (({ s with agenda := rest } : State).turn t).outcome := by
  unfold step
  rw [ha]
  simp only [hp, Bool.false_and, Bool.false_eq_true, if_false]
  rfl

theorem Next.outcome_run (i : Instr) (s : State) : (Next.run i s).outcome = exec i s := rfl

theorem State.turn_issue (s : State) (core lane : Nat) :
    s.turn (.issue core lane) = State.issueLane { s with cur := none } core lane := rfl

theorem State.turn_lodge (s : State) (hart : Nat) : s.turn (.lodge hart) = State.lodgeStep { s with cur := none } hart := rfl

/-- The instruction of fetched bits is the one that they decode to (R71). -/
theorem instrAt_of_ok {bits : BitVec 160} {i : Instr} {n : Nat} (h : decodeBits bits = .ok i n) : instrAt bits = i := by
  unfold instrAt
  simp only [h]

theorem instrAt_of_not_ok {bits : BitVec 160} (h : ∀ i n, decodeBits bits ≠ .ok i n) :
    instrAt bits = .illegalInstruction bits := by
  unfold instrAt
  split
  · exact absurd ‹_› (h _ _)
  · rfl

/-! ## A lane issues (R21, R24, R26, R31) -/

/-- A free lane without a watchdog that is due issues for the holder of the slot that it picks. -/
theorem State.issueLane_of_pick {s : State} {core lane : Nat} {t : TeamRef} {g : Group} {h : Nat}
    (hg : (s.core core).gated = false) (hb : ((s.core core).lane lane).busy ≤ s.coreCycle core)
    (hw : ((s.groupsOn core lane).find? fun x => s.watchdogDue x.2) = none)
    (hp : pickSlot ((s.core core).lane lane).last (s.groupsNow core lane) = some (t, g)) (hh : g.holder = some h) :
    s.issueLane core lane = s.issueFibre { team := t, gid := g.gid, fid := h } := by
  have hfree : ((s.core core).gated || decide (s.coreCycle core < ((s.core core).lane lane).busy)) = false := by
    simp [hg, hb]
  unfold State.issueLane
  simp only [hfree, Bool.false_eq_true, if_false, hw, hp, hh]

/-- A fibre whose due results are settled goes on with its running split. -/
theorem State.issueFibre_of_run {s s1 : State} {r : FibreRef} {f : Fibre} {g : Group} {x : Split}
    (hs : (s.settleArrivals r.team r.gid).settleFlags r = s1) (hf : s1.fibre? r = some f) (hg : s1.group? r = some g)
    (hx : f.choose.run? = some x) :
    s.issueFibre r = ((s1.setFibre r f.choose).modCore g.core fun k => { k with idleFrom := s1.tick }).issueSplit r g
      f.choose x := by
  unfold State.issueFibre
  simp only [hs, hf, hg, hx]

/-- A split that neither arrives nor ends a wait runs the instruction that it fetches (R56). -/
theorem State.issueSplit_of_fetch {s u : State} {r : FibreRef} {g : Group} {f : Fibre} {x : Split} {bits : BitVec 160}
    (ha : x.rpc = noRpc ∨ x.pc ≠ x.rpc) (hp : ∀ yes op w, x.park ≠ .finished yes op w)
    (hf : s.fetch (s.spaceOf g.core r.team.seq) x.pc.toNat = .ok (bits, u)) :
    s.issueSplit r g f x = .run (instrAt bits) { u with cur := some r } := by
  have hgo : (x.rpc != noRpc && x.pc == x.rpc) = false := by
    rcases ha with h | h <;> simp [h]
  unfold State.issueSplit
  simp only [hgo, Bool.false_eq_true, if_false, hf]

/-! ## Words that are fetched -/

/-- Four bytes within a list of bytes are the number at their address. -/
theorem numAt_of_block (m : List Host.Cell) {a k n : Nat} (h : k + 4 ≤ n) :
    natLE (((lookAll 0 m a n).drop k).take 4) = numAt m (a + k) 4 := by
  rw [numAt, lookAll_eq, lookAll_eq]
  congr 1
  refine List.ext_getElem ?_ fun i h1 h2 => ?_
  · simp; omega
  · simp [Nat.add_assoc]

/-- A fetch that finds neither its block nor a buffered store reads the word of memory (R56). -/
theorem State.fetchWord_of_missed {s : State} {w : Space} {va : Nat} {p : Phys} (hx : s.xlate w .fetch va = .ok p)
    (ha : va % 4 = 0) (hp : p.loc % 32 = va % 32) (hi : ∀ l ∈ (s.core w.core).icache, l.addr ≠ blockTag w.asid va)
    (hw : (s.core w.core).wcb = []) (hf : (s.core w.core).flight = []) :
    ∃ u, s.fetchWord w va = .ok (BitVec.ofNat 32 (numAt s.mem p.loc 4), u) := by
  have hnone : ((s.core w.core).icache.find? fun l => l.addr == blockTag w.asid va) = none := by
    simpa [List.find?_eq_none] using hi
  have hblock : s.block w va p.loc = lookAll 0 s.mem (p.loc / 32 * 32) 32 := by
    simp [State.block, hnone, State.overlay, hw, hf, State.bytesAt]
  have hnum : natLE (((lookAll 0 s.mem (p.loc / 32 * 32) 32).drop (va % 32)).take 4) = numAt s.mem p.loc 4 := by
    rw [numAt_of_block s.mem (by omega), show p.loc / 32 * 32 + va % 32 = p.loc by omega]
  refine ⟨(s.touch w .fetch va).keepBlock w va p.loc, ?_⟩
  simp only [State.fetchWord, hx, hblock, hnum]

/-! ## Lodge harts -/

/-- A hart that stands at the word of UEVRET executes it (R397). -/
theorem State.lodgeStep_of_uevret {s : State} {hart : Nat} (hr : s.hartRuns hart = true)
    (hp : s.poisoned (s.hartAt hart).pc.toNat 4 = []) (hw : s.lodgeFetch (s.hartAt hart).pc.toNat = some 0x0000700B) :
    s.lodgeStep hart = .run .uevret { s with hart } := by
  simp [State.lodgeStep, hr, hp, hw, uevretWord]

theorem State.lodgeFetch_of_memory {s : State} {a : Nat} (h : a + 4 ≤ 2 ^ 40) : s.lodgeFetch a = some (numAt s.mem a 4) :=
  if_pos h

theorem State.deviceBacked_turn (s : State) (l : List Turn) (o n : Nat) :
    State.deviceBacked { s with agenda := l, cur := none } o n = s.deviceBacked o n := rfl

theorem State.deviceBytes_turn (s : State) (l : List Turn) (o n : Nat) :
    State.deviceBytes { s with agenda := l, cur := none } o n = s.deviceBytes o n := rfl

/-- What a hart fetches does not depend on whose turn it is. -/
theorem State.lodgeFetch_turn (s : State) (l : List Turn) (a : Nat) :
    State.lodgeFetch { s with agenda := l, cur := none } a = s.lodgeFetch a := by
  unfold State.lodgeFetch
  rw [State.deviceBacked_turn, State.deviceBytes_turn]

/-- Settles O58: the turn at the head by its kind, an issue by lane, fibre, split and fetch. -/
theorem stepRunsTheDecodedInstruction : Obligations.StepRunsTheDecodedInstruction := by
  unfold Obligations.StepRunsTheDecodedInstruction
  intro s rest hp
  refine ⟨fun u => rfl, fun x => rfl, fun x => rfl, ?issue, fun w va p => State.fetchWord_of_missed,
    fun i ha => step_of_agenda hp ha, fun hart ha hr hb hw => ?lodge, fun a => State.lodgeFetch_of_memory⟩
  case issue =>
    intro core lane t g h f g' x bits u ha hg hb hw hk hh r s1 hf hg' hx hpc hpark s2 hfetch
    have hfibre : State.issueFibre { s with agenda := rest, cur := none } r = s2.issueSplit r g' f.choose x :=
      State.issueFibre_of_run rfl hf hg' hx
    have hrun : s2.issueSplit r g' f.choose x = .run (instrAt bits) { u with cur := some r } :=
      State.issueSplit_of_fetch hpc hpark hfetch
    have hstep (i : Instr) (hi : instrAt bits = i) :
        step s = ({ s with agenda := rest } : State).unlessFull (exec i { u with cur := some r }) := by
      rw [step_of_agenda hp ha, State.turn_issue, State.issueLane_of_pick hg hb hw hk hh, hfibre, hrun, hi, Next.outcome_run]
    exact ⟨fun i n hi => hstep i (instrAt_of_ok hi), fun hi => hstep _ (instrAt_of_not_ok hi)⟩
  case lodge =>
    have hrun : State.lodgeStep { s with agenda := rest, cur := none } hart =
        .run .uevret { s with agenda := rest, cur := none, hart } := State.lodgeStep_of_uevret hr hb
        ((s.lodgeFetch_turn rest _).trans hw)
    rw [step_of_agenda hp ha, State.turn_lodge, hrun, Next.outcome_run]

end Sys2Proof.Machine
end

section
/-!
The frame of an issue (O39) fails in one place: `Team.memories` keeps the team's error marks, and a result that overwrites
a marked register clears its mark (R375, `State.commit`). The package below has one fibre, whose s0 is marked; the
instruction writes s0.
-/
namespace Sys2Proof.Machine

/-- A group of one fibre with one thread, at its first instruction. -/
def loneGroup : Group :=
  { gid := 0, core := 0, lane := 0, slot := 0, base := 0
    fibres := [{ fid := 0, fpri := 0, tvec := 0, splits := [rootSplit 1 0 .running] }] }

/-- A package with one team, in which an error marks s0 of the fibre. -/
def markedPackage : State :=
  { State.reset with teams := [{ ref := { seq := 1, idx := 0 }, core := 0, groups := [loneGroup], marked := [.uni 0 0 0] }] }

/-- The fibre's context for a uniform MOV of one word. -/
def loneContext : Ctx :=
  { r := { team := { seq := 1, idx := 0 }, gid := 0, fid := 0 }, core := 0, asid := 0, root := 0, k := fetchKernel
    g := loneGroup, f := { fid := 0, fpri := 0, tvec := 0, splits := [rootSplit 1 0 .running] }
    x := rootSplit 1 0 .running, op := 0xA0, w := shortWord true false 0 0 0, word := 0, pc := 0, parts := 1 }

/-- The instruction writes 1 to s0. -/
def markedWrite : Done := { s := markedPackage, fixed := [⟨.uni 0, 1⟩] }

/-- Refutes O39: the mark of s0 is gone after the issue, so that the team's memories are not as they were. -/
theorem not_issueChangesOnlyItsFibre : ¬ Obligations.IssueChangesOnlyItsFibre := by
  unfold Obligations.IssueChangesOnlyItsFibre
  rintro ⟨-, h⟩
  have hgoes : markedWrite.goesOn loneContext
      { fid := 0, s := [(0, 1)], fpri := 0, tvec := 0, splits := [rootSplit 1 4 .running] } :=
    ⟨rfl, rfl, _, _, _, rfl, rfl, rfl, rfl⟩
  have hrange : ∀ w ∈ markedWrite.fixed ++ loneContext.sequence.writes, w.reg.inRange := fun w hw => by
    cases List.mem_singleton.1 hw
    trivial
  obtain ⟨-, -, -, -, hmem, -⟩ := h loneContext markedWrite _ _ rfl hgoes hrange
  have hmarks := congrArg (Option.map fun t : Team => t.marked.length) hmem
  exact absurd hmarks (by decide)

end Sys2Proof.Machine
end

section
/-!
Fibres and their registers under the updates of an issue (R20, R73 to R75): what a register reads after writes through its
slot, which writes reach the fibre's own record, and what delivering results and sequencing leave as it was.
-/
namespace Sys2Proof.Machine

/-! ## Registers after writes -/

theorem Group.fibre?_modFibre_of_ne (g : Group) {i j : Nat} (f : Fibre → Fibre) (hf : ∀ x, (f x).fid = x.fid)
    (h : j ≠ i) : (g.modFibre j f).fibre? i = g.fibre? i := by
  unfold Group.modFibre Group.fibre?
  induction g.fibres with
  | nil => rfl
  | cons x l ih =>
    rw [List.map_cons, List.find?_cons, List.find?_cons, ih]
    by_cases hx : x.fid = j
    · have hi : (j == i) = false := beq_false_of_ne h
      simp [hx, hf, hi]
    · simp [hx]

/-- The fibre's own record after a write through its slot: a shared register is none of it (R20). -/
def Fibre.take (f : Fibre) (w : RegWrite) : Fibre := if w.reg.shared then f else f.write w

/-- Its record after several. -/
def Fibre.takeAll (f : Fibre) (ws : List RegWrite) : Fibre := ws.foldl Fibre.take f

/-- The slot after several writes of a fibre. -/
def Group.writeAll (g : Group) (fid : Nat) (ws : List RegWrite) : Group := ws.foldl (fun g w => g.write fid w) g

theorem Fibre.takeAll_cons (f : Fibre) (w : RegWrite) (ws : List RegWrite) :
    f.takeAll (w :: ws) = (f.take w).takeAll ws := rfl

theorem Group.writeAll_cons (g : Group) (fid : Nat) (w : RegWrite) (ws : List RegWrite) :
    g.writeAll fid (w :: ws) = (g.write fid w).writeAll fid ws := rfl

@[simp] theorem Fibre.write_fid (f : Fibre) (w : RegWrite) : (f.write w).fid = f.fid := by
  unfold Fibre.write
  split <;> rfl

@[simp] theorem Group.write_gid (g : Group) (i : Nat) (w : RegWrite) : (g.write i w).gid = g.gid := by
  unfold Group.write
  split
  · split <;> rfl
  · split <;> rfl
  · rfl

@[simp] theorem Group.writeAll_gid (g : Group) (i : Nat) (ws : List RegWrite) : (g.writeAll i ws).gid = g.gid := by
  induction ws generalizing g with
  | nil => rfl
  | cons w ws ih => rw [Group.writeAll_cons, ih, Group.write_gid]

/-- Writes change nothing of a fibre but its vector, uniform and predicate registers. -/
theorem Fibre.take_eq (f : Fibre) (w : RegWrite) : ∃ v s p, f.take w = { f with v, s, p } := by
  unfold Fibre.take Fibre.write
  split
  · exact ⟨_, _, _, rfl⟩
  · split <;> exact ⟨_, _, _, rfl⟩

theorem Fibre.takeAll_eq (f : Fibre) (ws : List RegWrite) : ∃ v s p, f.takeAll ws = { f with v, s, p } := by
  induction ws generalizing f with
  | nil => exact ⟨_, _, _, rfl⟩
  | cons w ws ih =>
    obtain ⟨v, s, p, h1⟩ := f.take_eq w
    obtain ⟨v', s', p', h2⟩ := ih { f with v, s, p }
    exact ⟨v', s', p', by rw [Fibre.takeAll_cons, h1, h2]⟩

/-- A write of one of the fibre's own registers goes to its record. -/
theorem Group.write_own (g : Group) (i : Nat) {w : RegWrite} (h : w.reg.shared = false) :
    g.write i w = g.modFibre i fun f => f.write w := by
  unfold Group.write
  unfold RegRef.shared at h
  split
  · simp_all
  · simp_all
  · rfl

/-- A write of a shared register goes to the slot. -/
theorem Group.write_shared (g : Group) (i : Nat) {w : RegWrite} (h : w.reg.shared = true) :
    ∃ sv ss, g.write i w = { g with sv, ss } := by
  unfold Group.write
  unfold RegRef.shared at h
  split
  · rw [if_neg (by simp_all)]
    exact ⟨_, _, rfl⟩
  · rw [if_neg (by simp_all)]
    exact ⟨_, _, rfl⟩
  · simp_all

/-- The fibre that writes finds what it wrote in its own record. -/
theorem Group.fibre?_write (g : Group) (i : Nat) (w : RegWrite) : (g.write i w).fibre? i = (g.fibre? i).map (·.take w) := by
  unfold Fibre.take
  cases h : w.reg.shared
  · rw [g.write_own i h, g.fibre?_modFibre i _ fun f => f.write_fid w]
    rfl
  · obtain ⟨sv, ss, hg⟩ := g.write_shared i h
    rw [hg]
    exact (Option.map_id' ..).symm

theorem Group.fibre?_writeAll (g : Group) (i : Nat) (ws : List RegWrite) :
    (g.writeAll i ws).fibre? i = (g.fibre? i).map (·.takeAll ws) := by
  induction ws generalizing g with
  | nil => exact (Option.map_id' ..).symm
  | cons w ws ih => rw [Group.writeAll_cons, ih, Group.fibre?_write, Option.map_map]; rfl

/-- A write through the slot, by whichever fibre, changes no more of a fibre than those registers. -/
theorem Group.fibre?_writeAll_of_some {g : Group} {i : Nat} {f : Fibre} (h : g.fibre? i = some f) (j : Nat)
    (ws : List RegWrite) : ∃ v s p, (g.writeAll j ws).fibre? i = some { f with v, s, p } := by
  by_cases hj : j = i
  · subst hj
    obtain ⟨v, s, p, he⟩ := f.takeAll_eq ws
    exact ⟨v, s, p, by rw [Group.fibre?_writeAll, h, Option.map_some, he]⟩
  · have hkeep : (g.writeAll j ws).fibre? i = g.fibre? i := by
      clear h
      induction ws generalizing g with
      | nil => rfl
      | cons w ws ih =>
        rw [Group.writeAll_cons, ih]
        cases hs : w.reg.shared
        · rw [g.write_own j hs]
          exact g.fibre?_modFibre_of_ne _ (fun f => f.write_fid w) hj
        · obtain ⟨sv, ss, hg⟩ := g.write_shared j hs
          rw [hg]
          rfl
    exact ⟨f.v, f.s, f.p, by rw [hkeep, h]⟩

theorem bit_setBit (m : Mask) {t : Nat} (x : Nat) (b : Bool) (ht : t < 64) :
    bit (setBit m t b) x = if x = t then b else bit m x := by
  have hone : (1#64 <<< t).getLsbD x = decide (x = t) := by
    rw [BitVec.getLsbD_shiftLeft, BitVec.getLsbD_one]
    by_cases h : x = t
    · simp [h, ht]
    · by_cases hx : x < 64
      · simp [h, hx]
        omega
      · simp [h, hx]
  have hin : m.getLsbD x = true → x < 64 := BitVec.lt_of_getLsbD
  unfold setBit bit
  cases b
  · rw [if_neg (by decide), BitVec.getLsbD_and, BitVec.getLsbD_not, hone]
    by_cases h : x = t
    · simp [h]
    · simp only [h, if_false, decide_false, Bool.not_false, Bool.and_true]
      grind
  · rw [if_pos rfl, BitVec.getLsbD_or, hone]
    by_cases h : x = t <;> simp [h]

/-- Registers of the 64 threads have keys of their own. -/
theorem vecKey_inj {n t n' t' : Nat} (ht : t < 64) (ht' : t' < 64) : 64 * n + t = 64 * n' + t' ↔ n = n' ∧ t = t' := by
  omega

theorem rawVec_write (g : Group) (f : Fibre) (i : Nat) {w : RegWrite} {n t : Nat} (hw : w.reg.inRange) (ht : t < 64) :
    rawVec (g.write i w) (f.take w) n t = if w.reg = .vec n t then w.value.setWidth 32 else rawVec g f n t := by
  obtain ⟨reg, value⟩ := w
  cases reg with
  | vec n' t' =>
    have ht' : t' < 64 := hw
    have hkey := vecKey_inj (n := n) (n' := n') ht ht'
    have hkey' := vecKey_inj (n := n - 192) (n' := n' - 192) ht ht'
    by_cases hn' : n' < 192 <;> by_cases hn : n < 192
    · simp [rawVec, Fibre.take, RegRef.shared, Fibre.write, hn, Nat.not_le.mpr hn', look_put, hkey, eq_comm]
    · have : n ≠ n' := by omega
      simp [rawVec, Group.write, Group.modFibre, hn, hn', this.symm]
    · have : n ≠ n' := by omega
      simp [rawVec, Fibre.take, RegRef.shared, hn, this.symm, Nat.le_of_not_lt hn']
    · have hsub : n - 192 = n' - 192 ↔ n = n' := by omega
      simp [rawVec, Group.write, hn, hn', look_put, hkey', hsub, eq_comm]
  | uni n' =>
    by_cases hn' : n' < 32
    · simp [rawVec, Group.write, Group.modFibre, Fibre.take, RegRef.shared, Fibre.write, hn', Nat.not_le.mpr hn']
    · simp [rawVec, Group.write, Fibre.take, RegRef.shared, hn', Nat.le_of_not_lt hn']
  | pred n' t' => rfl

theorem rawUni_write (g : Group) (f : Fibre) (i : Nat) (w : RegWrite) (n : Nat) :
    rawUni (g.write i w) (f.take w) n = if w.reg = .uni n then w.value else rawUni g f n := by
  obtain ⟨reg, value⟩ := w
  cases reg with
  | vec n' t' =>
    by_cases hn' : n' < 192
    · simp [rawUni, Group.write, Group.modFibre, Fibre.take, RegRef.shared, Fibre.write, hn', Nat.not_le.mpr hn']
    · simp [rawUni, Group.write, Fibre.take, RegRef.shared, hn', Nat.le_of_not_lt hn']
  | uni n' =>
    by_cases hn' : n' < 32 <;> by_cases hn : n < 32
    · simp [rawUni, Fibre.take, RegRef.shared, Fibre.write, hn, Nat.not_le.mpr hn', look_put, eq_comm]
    · have : n ≠ n' := by omega
      simp [rawUni, Group.write, Group.modFibre, hn, hn', this.symm]
    · have : n ≠ n' := by omega
      simp [rawUni, Fibre.take, RegRef.shared, hn, this.symm, Nat.le_of_not_lt hn']
    · simp [rawUni, Group.write, hn, hn', look_put, eq_comm]
  | pred n' t' => rfl

theorem predMask_write (f : Fibre) {w : RegWrite} (hw : w.reg.inRange) (n t : Nat) :
    bit (predMask (f.take w) n) t = if w.reg = .pred n t then w.value.getLsbD 0 else bit (predMask f n) t := by
  obtain ⟨reg, value⟩ := w
  cases reg with
  | vec n' t' => by_cases hn' : 192 ≤ n' <;> simp [predMask, Fibre.take, RegRef.shared, Fibre.write, hn']
  | uni n' => by_cases hn' : 32 ≤ n' <;> simp [predMask, Fibre.take, RegRef.shared, Fibre.write, hn']
  | pred n' t' =>
    have ht' : t' < 64 := hw
    by_cases hn : n = n'
    · simp [predMask, Fibre.take, RegRef.shared, Fibre.write, look_modify, hn, bit_setBit, ht', eq_comm]
    · simp [predMask, Fibre.take, RegRef.shared, Fibre.write, look_modify, hn, Ne.symm hn]

/-- What a register reads after a write: the part of the value that it keeps, where the write names it. -/
theorem rawReg_write (g : Group) (f : Fibre) (i : Nat) {w : RegWrite} {r : RegRef} (hw : w.reg.inRange) (hr : r.inRange) :
    rawReg (g.write i w) (f.take w) r = if w.reg = r then w.kept else rawReg g f r := by
  cases r with
  | vec n t =>
    rw [rawReg, rawVec_write g f i hw hr]
    split <;> simp_all [RegWrite.kept, low32, rawReg]
  | uni n =>
    rw [rawReg, rawUni_write]
    split <;> simp_all [RegWrite.kept, rawReg]
  | pred n t =>
    rw [rawReg, predMask_write f hw]
    by_cases h : w.reg = .pred n t
    · rw [if_pos h, if_pos h, RegWrite.kept, h]
    · rw [if_neg h, if_neg h, rawReg]

theorem lastWrite_append (ws : List RegWrite) (w : RegWrite) (r : RegRef) :
    lastWrite (ws ++ [w]) r = if w.reg = r then some w else lastWrite ws r := by
  unfold lastWrite
  rw [List.filter_append]
  by_cases h : w.reg = r <;> simp [h]

theorem lastWrite_mem {ws : List RegWrite} {r : RegRef} {w : RegWrite} (h : lastWrite ws r = some w) :
    w ∈ ws ∧ w.reg = r := by
  obtain ⟨hmem, hreg⟩ := List.mem_filter.mp (List.mem_of_getLast? h)
  exact ⟨hmem, beq_iff_eq.mp hreg⟩

/-- What a register reads after several writes: what the last that names it gives. -/
theorem rawReg_writeAll (g : Group) (f : Fibre) (i : Nat) {ws : List RegWrite} {r : RegRef} (hw : ∀ w ∈ ws, w.reg.inRange)
    (hr : r.inRange) :
    rawReg (g.writeAll i ws) (f.takeAll ws) r = ((lastWrite ws r).map (·.kept)).getD (rawReg g f r) := by
  induction ws using List.reverseRecOn with
  | nil => rfl
  | append_singleton ws w ih =>
    have hone : (g.writeAll i (ws ++ [w])) = (g.writeAll i ws).write i w := List.foldl_concat ..
    have htwo : f.takeAll (ws ++ [w]) = (f.takeAll ws).take w := List.foldl_concat ..
    rw [hone, htwo, rawReg_write _ _ i (hw w (by simp)) hr, lastWrite_append, ih fun x hx => hw x (by simp [hx])]
    split <;> rfl

end Sys2Proof.Machine
end

section
/-!
An issue that goes on (R26, R75, R296): the states through which it delivers its results, sequences and holds its lane, and
what these steps leave of the clock and of the lanes.
-/
namespace Sys2Proof.Machine

/-! ## Cores and their cycles -/

/-- The cores and their cycles, which no result and no sequencing changes. -/
def State.pace (s : State) : Sparse Core × (Nat → Nat) := (s.cores, s.coreCycle)

theorem State.coreCycle_of_pace {s t : State} (h : t.pace = s.pace) : t.coreCycle = s.coreCycle := congrArg Prod.snd h

@[simp] theorem State.pace_modGroup (s : State) (r : TeamRef) (g : Nat) (f : Group → Group) :
    (s.modGroup r g f).pace = s.pace := rfl
@[simp] theorem State.pace_modFibre (s : State) (r : FibreRef) (f : Fibre → Fibre) : (s.modFibre r f).pace = s.pace := rfl

/-- The journal writes its team alone (R370). -/
theorem State.journal_eq (s : State) (r : TeamRef) (u : UnitRef) : ∃ teams, s.journal r u = { s with teams } := by
  unfold State.journal
  split
  · split
    · split
      · exact ⟨_, rfl⟩
      · dsimp only
        split <;> exact ⟨_, rfl⟩
    · exact ⟨_, rfl⟩
  · exact ⟨_, rfl⟩

theorem State.foldl_journal_eq (s : State) (r : TeamRef) (us : List UnitRef) :
    ∃ teams, us.foldl (fun s u => s.journal r u) s = { s with teams } := by
  induction us generalizing s with
  | nil => exact ⟨_, rfl⟩
  | cons u us ih =>
    obtain ⟨teams, h⟩ := s.journal_eq r u
    obtain ⟨teams', h'⟩ := ih { s with teams }
    exact ⟨teams', by rw [List.foldl_cons, h, h']⟩

/-- Registers that take values change their team alone. -/
theorem State.commit_eq (s : State) (r : FibreRef) (ws : List RegWrite) : ∃ teams, s.commit r ws = { s with teams } := by
  obtain ⟨teams, h⟩ := s.foldl_journal_eq r.team (journalRegs r ws)
  unfold State.commit
  rw [h]
  exact ⟨_, rfl⟩

@[simp] theorem State.pace_commit (s : State) (r : FibreRef) (ws : List RegWrite) : (s.commit r ws).pace = s.pace := by
  obtain ⟨teams, h⟩ := s.commit_eq r ws
  rw [h]
  rfl

@[simp] theorem State.pace_produce (s : State) (r : FibreRef) (ws : List RegWrite) (left cycle : Nat) :
    (s.produce r ws left cycle).pace = s.pace := by
  unfold State.produce
  split
  · rfl
  · split
    · rfl
    · dsimp only
      rw [State.pace_modGroup, State.pace_commit, State.pace_modFibre]

@[simp] theorem State.pace_expect (s : State) (r : FibreRef) (ws : List RegWrite) (flags : BitVec 5)
    (remote : List (Nat × Bool)) (float : Bool) (due : Option Nat) (pc : DWord) (reload : Option Reload) :
    (s.expect r ws flags remote float due pc reload).pace = s.pace := rfl

@[simp] theorem State.pace_deliver (s : State) (c : Ctx) (d : Done) : (s.deliver c d).pace = s.pace := by
  have hfixed : ∀ u : State, (if d.fixed.isEmpty then u else u.produce c.r d.fixed (d.lat - c.hold)
      (u.coreCycle c.core + d.lat)).pace = u.pace := by
    intro u
    split
    · rfl
    · exact u.pace_produce ..
  unfold State.deliver
  dsimp only
  split
  · rw [State.pace_expect, hfixed, State.pace_modFibre]
  · split
    · rw [State.pace_expect, hfixed, State.pace_modFibre]
    · rw [State.pace_modFibre, hfixed, State.pace_modFibre]
  · rw [State.pace_modFibre, State.pace_expect, hfixed, State.pace_modFibre]

/-- Taking an area of a save pool changes no clock. -/
theorem takePool_pace {s t : State} {c n a : Nat} (h : takePool s c n = some (a, t)) : t.pace = s.pace := by
  unfold takePool at h
  split at h
  · cases h
  · obtain ⟨b, -, hb⟩ := Option.map_eq_some_iff.mp h
    cases hb
    have hcol (f : Column → List (Nat × Nat)) (k : Nat) :
        (s.modCol c fun x => { x with pool := f x }).colCycle k = s.colCycle k := by
      unfold State.colCycle State.point
      rw [State.col_modCol]
      split
      · next hk => subst hk; rfl
      · rfl
    refine Prod.ext rfl (funext fun k => ?_)
    unfold State.pace State.coreCycle
    dsimp only
    rw [State.core_modCol, hcol]

theorem needSpill_pace {s t : State} {r : FibreRef} {c : Nat} (h : needSpill s r c = some t) : t.pace = s.pace := by
  unfold needSpill at h
  split at h
  · cases h; rfl
  · next f _ =>
    cases hhas : (if f.hnd then f.hspill else f.spill).isSome
    · rw [hhas, if_neg Bool.false_ne_true] at h
      obtain ⟨⟨a, u⟩, hx, rfl⟩ := Option.map_eq_some_iff.mp h
      exact (State.pace_modFibre _ _ _).trans (takePool_pace hx)
    · rw [hhas, if_pos rfl] at h
      cases h; rfl

theorem roomFor_pace {s t : State} {c : Ctx} {kids : Nat} (h : roomFor s c kids = some t) : t.pace = s.pace := by
  unfold roomFor at h
  split at h
  · exact needSpill_pace h
  · cases h; rfl

/-! ## The group and the fibre of an issue -/

/-- The group of a fibre after a change of it under its name. -/
theorem State.group?_modGroup_of_ref (s : State) (r : FibreRef) (f : Group → Group) (hf : ∀ x, (f x).gid = x.gid) :
    (s.modGroup r.team r.gid f).group? r = (s.group? r).map f := s.group?_modGroup r.team r.gid f hf r.fid

theorem State.group?_modFibre (s : State) (r : FibreRef) (f : Fibre → Fibre) :
    (s.modFibre r f).group? r = (s.group? r).map fun g => g.modFibre r.fid f := s.group?_modGroup_of_ref r _ fun _ => rfl

/-- A change of its group's other fields leaves a fibre as it was. -/
theorem State.fibre?_modGroup (s : State) (r : FibreRef) (f : Group → Group) (hf : ∀ x, (f x).gid = x.gid)
    (hkeep : ∀ x, (f x).fibres = x.fibres) : (s.modGroup r.team r.gid f).fibre? r = s.fibre? r := by
  unfold State.fibre?
  rw [s.group?_modGroup_of_ref r f hf]
  cases s.group? r with
  | none => rfl
  | some g => exact congrArg (List.find? _) (hkeep g)

theorem Group.pass_eq (g : Group) (gone : Bool) : ∃ holder watch, g.pass gone = { g with holder, watch } := by
  unfold Group.pass
  split
  · exact ⟨_, _, rfl⟩
  · dsimp only
    split
    · exact ⟨_, _, rfl⟩
    · split
      · split <;> exact ⟨_, _, rfl⟩
      · exact ⟨_, _, rfl⟩

/-- The slot's passing changes who holds it, since when, and its watchdog count (R21). -/
theorem Group.passAt_eq (g : Group) (gone : Bool) (cycle : Nat) :
    ∃ holder watch since, g.passAt gone cycle = { g with holder, watch, since } := by
  obtain ⟨holder, watch, h⟩ := g.pass_eq gone
  unfold Group.passAt
  rw [h]
  dsimp only
  split <;> exact ⟨_, _, _, rfl⟩

@[simp] theorem State.fibre?_issued (s : State) (c : Ctx) (h : Nat) : (s.issued c h).fibre? c.r = s.fibre? c.r :=
  State.fibre?_modGroup _ c.r _ (fun _ => rfl) fun _ => rfl

@[simp] theorem State.fibre?_yieldPoint (s : State) (r : FibreRef) : (s.yieldPoint r).fibre? r = s.fibre? r :=
  s.fibre?_modGroup r _ (fun _ => rfl) fun _ => rfl

@[simp] theorem State.fibre?_passSlot (s : State) (r : FibreRef) (gone : Bool) :
    (s.passSlot r gone).fibre? r = s.fibre? r := by
  have hpass (g : Group) : ∃ holder watch since,
      (if g.holder == some r.fid then g.passAt gone (s.coreCycle g.core) else g) = { g with holder, watch, since } := by
    split
    · exact g.passAt_eq ..
    · exact ⟨_, _, _, rfl⟩
  refine s.fibre?_modGroup r _ (fun g => ?_) fun g => ?_
  all_goals
    obtain ⟨_, _, _, h⟩ := hpass g
    rw [h]

@[simp] theorem State.fibre?_handOff (s : State) (c : Ctx) : (s.handOff c).fibre? c.r = s.fibre? c.r := by
  unfold State.handOff
  split
  · split
    · exact s.fibre?_passSlot ..
    · rfl
  · rfl

/-! ## The steps of an issue -/

/-- Whatever fibre stands under the name of one that was set is the one that was set. -/
theorem State.eq_of_fibre?_setFibre {s : State} {r : FibreRef} {f g : Fibre} (h : (s.setFibre r f).fibre? r = some g) :
    g = f := by
  have hgroup : ∀ x : Group, (x.modFibre r.fid fun _ => f).fibre? r.fid = some g → g = f := by
    intro x hx
    have hfid := List.find?_some hx
    obtain ⟨y, -, hy⟩ := List.mem_map.mp (List.mem_of_find?_eq_some hx)
    split at hy
    · exact hy.symm
    · next hne => exact absurd (hy ▸ hfid) hne
  unfold State.fibre? State.setFibre State.modFibre at h
  rw [show r = { team := r.team, gid := r.gid, fid := r.fid } from rfl,
    s.group?_modGroup r.team r.gid (fun x => x.modFibre r.fid fun _ => f) (fun _ => rfl) r.fid] at h
  cases hg : s.group? r with
  | none => rw [show (⟨r.team, r.gid, r.fid⟩ : FibreRef) = r from rfl, hg] at h; cases h
  | some x => rw [show (⟨r.team, r.gid, r.fid⟩ : FibreRef) = r from rfl, hg] at h; exact hgroup x h

/-- A fibre without a spill block has no images to write (R291). -/
theorem writeSpilled_setFibre (s : State) (r : FibreRef) {f : Fibre} (h : f.spill = none) (h' : f.hspill = none) :
    writeSpilled (s.setFibre r f) r = s.setFibre r f := by
  unfold writeSpilled
  split
  · rfl
  · next g hg =>
    rw [State.eq_of_fibre?_setFibre hg, h, h', ite_self]
    rfl

/-- The last step of an issue: the slot's watchdog count restarts, or the slot passes on, as the effect says (R21, R31). -/
def State.leaveIssue (s : State) (c : Ctx) (d : Done) : State :=
  let s := if d.point then s.yieldPoint c.r else s
  if d.pass then s.passSlot c.r false else if d.parks then s.handOff c else s

/-- An issue that goes on delivers its results, puts its fibre as sequencing leaves it, and holds its lane. -/
theorem State.finishIssue_of_goesOn {c : Ctx} {d : Done} {f : Fibre} (h : d.goesOn c f) :
    ∃ t, d.delivered c = some t ∧ d.s.finishIssue c d = ((t.setFibre c.r f).issued c c.hold).leaveIssue c d := by
  obtain ⟨hspill, hhspill, t, g, x, hdel, hg, hrun, hsettle⟩ := h
  refine ⟨t, hdel, ?_⟩
  obtain ⟨u, hroom, rfl⟩ := Option.map_eq_some_iff.mp hdel
  unfold State.finishIssue State.leaveIssue
  dsimp only at hg ⊢
  rw [hroom]
  dsimp only
  rw [hg]
  dsimp only
  rw [hrun]
  unfold State.endSplits
  dsimp only
  rw [hsettle]
  dsimp only
  rw [writeSpilled_setFibre _ c.r hspill hhspill]

theorem Done.delivered_pace {d : Done} {c : Ctx} {t : State} (h : d.delivered c = some t) : t.pace = d.s.pace := by
  obtain ⟨u, hroom, rfl⟩ := Option.map_eq_some_iff.mp h
  dsimp only
  split
  · rw [State.pace_deliver, State.pace_modFibre, roomFor_pace hroom]
  · rw [State.pace_commit, State.pace_deliver, State.pace_modFibre, roomFor_pace hroom]

@[simp] theorem State.core_yieldPoint (s : State) (r : FibreRef) : (s.yieldPoint r).core = s.core := rfl
@[simp] theorem State.core_passSlot (s : State) (r : FibreRef) (gone : Bool) : (s.passSlot r gone).core = s.core := rfl
@[simp] theorem State.core_handOff (s : State) (c : Ctx) : (s.handOff c).core = s.core := by
  unfold State.handOff
  split
  · split <;> rfl
  · rfl

@[simp] theorem State.core_leaveIssue (s : State) (c : Ctx) (d : Done) : (s.leaveIssue c d).core = s.core := by
  unfold State.leaveIssue
  cases d.point <;> cases d.pass <;> cases d.parks <;> simp

@[simp] theorem State.fibre?_leaveIssue (s : State) (c : Ctx) (d : Done) :
    (s.leaveIssue c d).fibre? c.r = s.fibre? c.r := by
  unfold State.leaveIssue
  cases d.point <;> cases d.pass <;> cases d.parks <;> simp

/-- From its issue on an instruction holds the lane of its group (R26). -/
theorem State.busy_issued (s : State) (c : Ctx) (h : Nat) :
    (((s.issued c h).core c.g.core).lane c.g.lane).busy = s.coreCycle c.g.core + h := by
  unfold State.issued State.holdLane
  rw [State.modGroup, State.core_modTeam, Core.lane_modLane, if_pos rfl]

end Sys2Proof.Machine
end

section
/-!
What a write of memory leaves as it was: all but the bytes, their poison, the columns, the harts, the waits and the
checkpoint engines (R179, R327, R424).
-/
namespace Sys2Proof.Machine

/-- The parts of the package that no write of memory changes. -/
def State.besideMemory (s : State) : State :=
  { s with mem := [], poison := [], columns := [], harts := [], waiters := [], ckpt := [] }

@[simp] theorem fireOne_besideMemory (s : State) (w : Waiter) : (fireOne s w).besideMemory = s.besideMemory := by
  unfold fireOne
  split <;> rfl

@[simp] theorem State.evaluate_besideMemory (s : State) (p : CounterRef → Bool) :
    (s.evaluate p).besideMemory = s.besideMemory :=
  foldl_keeps (·.besideMemory) fireOne_besideMemory _ _

@[simp] theorem State.throughSlice_besideMemory (s : State) (a n : Nat) (w : Bool) :
    (s.throughSlice a n w).besideMemory = s.besideMemory := by
  unfold State.throughSlice
  split
  · refine foldl_keeps (·.besideMemory) (f := fun s l => s.modCol _ _) (fun _ _ => ?_) _ _
    rfl
  · rfl

@[simp] theorem State.putLoc_besideMemory (s : State) (a : Nat) (bs : List Byte) :
    (s.putLoc a bs).besideMemory = s.besideMemory :=
  (State.evaluate_besideMemory _ _).trans (s.throughSlice_besideMemory a bs.length true)

@[simp] theorem State.wakePage_besideMemory (s : State) (ins : Bool) (p : Nat) :
    (s.wakePage ins p).besideMemory = s.besideMemory := by
  unfold State.wakePage State.demand State.wakeRegion
  dsimp only
  split
  · split <;> rfl
  · rfl

@[simp] theorem State.copyAside_besideMemory (s : State) (i : Nat) (ins : Bool) (p : Nat) :
    (s.copyAside i ins p).besideMemory = s.besideMemory := by
  unfold State.copyAside
  dsimp only
  split
  · split
    · exact (State.putLoc_besideMemory _ _ _).trans (State.wakePage_besideMemory s ins p)
    · exact State.wakePage_besideMemory s ins p
  · rfl

@[simp] theorem captureFault_besideMemory (s : State) (a : Nat) : (captureFault s a).besideMemory = s.besideMemory := by
  unfold captureFault
  split
  · rfl
  · refine foldl_keeps (·.besideMemory) (fun s x => ?_) _ _
    obtain ⟨i, c⟩ := x
    dsimp only
    split
    · exact State.copyAside_besideMemory s i _ _
    · rfl

@[simp] theorem State.writeLoc_besideMemory (s : State) (a : Nat) (bs : List Byte) :
    (s.writeLoc a bs).besideMemory = s.besideMemory :=
  (State.putLoc_besideMemory _ _ _).trans (foldl_keeps (·.besideMemory) captureFault_besideMemory _ _)

@[simp] theorem State.writeLoc_cores (s : State) (a : Nat) (bs : List Byte) : (s.writeLoc a bs).cores = s.cores :=
  congrArg (·.cores) (s.writeLoc_besideMemory a bs)

@[simp] theorem State.writeLoc_nextSeq (s : State) (a : Nat) (bs : List Byte) : (s.writeLoc a bs).nextSeq = s.nextSeq :=
  congrArg (·.nextSeq) (s.writeLoc_besideMemory a bs)

@[simp] theorem writeSpilled_cores (s : State) (r : FibreRef) : (writeSpilled s r).cores = s.cores := by
  unfold writeSpilled writeEntries
  split
  · rfl
  · split
    · rfl
    · exact foldl_keeps (·.cores) (fun s _ => s.writeLoc_cores _ _) _ s

end Sys2Proof.Machine
end

section
/-!
How long an instruction holds its lane (R26), and the hash of FSIG (R299): O37.
-/
namespace Sys2Proof.Machine

/-! ## The time of the hold -/

theorem countMask_le (m : Mask) : countMask m ≤ 64 := List.length_filter_le _ _ |>.trans_eq List.length_range

/-- The hold is what its threads, their doubling for FP64 and its STL give, from 8 to 128 core cycles (R26). -/
theorem Ctx.hold_bounds (c : Ctx) : 8 ≤ c.hold ∧ c.hold ≤ 128 := by
  have hcount := countMask_le c.act
  have hstl := c.w.stl.isLt
  unfold Ctx.hold holdCycles
  dsimp only
  constructor
  · omega
  · split <;> split <;> omega

/-! ## A trap keeps the lanes -/

theorem State.enterHandler_cores (s : State) (r : FibreRef) (t : TrapInfo) : (s.enterHandler r t).cores = s.cores := by
  unfold State.enterHandler
  split
  · rfl
  · next u hu => exact (writeSpilled_cores _ r).trans (congrArg Prod.fst (needSpill_pace hu))

/-- A trap that enters its handler changes no core. -/
theorem State.takeTrap_cores {s : State} {r : FibreRef} {f : Fibre} (hf : s.fibre? r = some f) (htvec : f.tvec ≠ 0)
    (hfree : f.frozen = none) (t : TrapInfo) : (s.takeTrap r t).cores = s.cores := by
  have hhnd : f.hnd = false := by rw [Fibre.hnd, hfree, Option.isSome_none]
  unfold State.takeTrap
  rw [hf]
  dsimp only
  rw [if_neg htvec, hhnd, if_neg Bool.false_ne_true, State.enterHandler_cores]
  rfl

theorem State.lane_leaveQueue (s : State) (k : Nat) (r : FibreRef) (core lane : Nat) :
    ((s.leaveQueue k r).core core).lane lane = (s.core core).lane lane := by
  unfold State.leaveQueue
  rw [State.core_modCore]
  split
  · next h => rw [h]; rfl
  · rfl

/-- Where an instruction stops with a trap that enters its handler, its lane is held as for an issue (R26, R357). -/
theorem State.busy_stopIssue_trap {s : State} {c : Ctx} {f : Fibre} (hf : s.fibre? c.r = some f) (htvec : f.tvec ≠ 0)
    (hfree : f.frozen = none) (cause : Nat) (info : DWord) (mask : Mask) (addrs : Sparse DWord) :
    (((s.stopIssue c (.trap cause info mask addrs)).core c.g.core).lane c.g.lane).busy = s.coreCycle c.g.core +
      holdCycles (if opAssigned c.op && (encodingReason c.op c.w (some (c.env s))).isNone then c.op else 0) c.w c.act := by
  generalize hh : holdCycles (if opAssigned c.op && (encodingReason c.op c.w (some (c.env s))).isNone then c.op else 0)
    c.w c.act = h
  let u := (s.issued c h).leaveQueue c.core c.r
  have hu : u.fibre? c.r = some f := by
    rw [← hf, ← s.fibre?_issued c h]
    rfl
  have hlanes : ((u.core c.g.core).lane c.g.lane).busy = s.coreCycle c.g.core + h := by
    rw [← s.busy_issued c h, State.lane_leaveQueue]
  have hstop : ∃ t, s.stopIssue c (.trap cause info mask addrs) = u.takeTrap c.r t := by
    unfold State.stopIssue
    dsimp only
    rw [hh]
    cases c.w.u <;> exact ⟨_, rfl⟩
  obtain ⟨t, ht⟩ := hstop
  rw [← hlanes, ht, State.core, State.takeTrap_cores hu htvec hfree, State.core]

/-- Settles O37. An issue that goes on and a trap that enters its handler hold the lane first, and no later step of either
changes it; the hash is R299's written with shifts. -/
theorem laneTimeAndSignatureHash : Obligations.LaneTimeAndSignatureHash := by
  refine ⟨fun c => ⟨rfl, c.hold_bounds.1, c.hold_bounds.2, fun d f f0 _ hgo => ?_,
    fun s f cause info mask addrs hf htvec hfree => State.busy_stopIssue_trap hf htvec hfree cause info mask addrs⟩,
    fun s w => ?_, rfl⟩
  · obtain ⟨t, hdel, hfinish⟩ := State.finishIssue_of_goesOn hgo
    have hpace : (t.setFibre c.r f).pace = d.s.pace := (State.pace_modFibre ..).trans (Done.delivered_pace hdel)
    rw [hfinish, State.core_leaveIssue, State.busy_issued, State.coreCycle_of_pace hpace]
  · rw [hash, BitVec.rotateLeft_eq_rotateLeftAux_of_lt (by decide)]
    rfl

end Sys2Proof.Machine
end

section
/-!
The fibre of an issue under the delivery of its results (R27, R73 to R75, R370) and under sequencing (R290 to R297).
-/
namespace Sys2Proof.Machine

/-! ## Registers that take values -/

@[simp] theorem State.group?_journal (s : State) (r : FibreRef) (u : UnitRef) :
    (s.journal r.team u).group? r = s.group? r := by
  unfold State.group?
  cases h : s.team? r.team with
  | none =>
    have hs : s.journal r.team u = s := by
      unfold State.journal
      rw [h]
    rw [hs, h]
  | some t =>
    obtain ⟨iv, hiv⟩ := State.team?_journal h u
    rw [hiv]
    rfl

@[simp] theorem State.group?_unmark (s : State) (r : FibreRef) (p : UnitRef → Bool) :
    (s.unmark r.team p).group? r = s.group? r := by
  unfold State.group? State.unmark
  rw [State.team?_modTeam]
  · cases s.team? r.team <;> rfl
  · exact fun _ => rfl

/-- Values committed reach the slot (R20). -/
theorem State.group?_commit (s : State) (r : FibreRef) (ws : List RegWrite) :
    (s.commit r ws).group? r = (s.group? r).map fun g => g.writeAll r.fid ws := by
  have hjournal (u : State) : ((journalRegs r ws).foldl (fun s u => s.journal r.team u) u).group? r = u.group? r :=
    foldl_keeps (·.group? r) (fun s u => s.group?_journal r u) _ u
  unfold State.commit
  exact (State.group?_modGroup_of_ref _ r _ fun g => g.writeAll_gid r.fid ws).trans
    (by rw [State.group?_unmark, hjournal])

theorem State.fibre?_commit (s : State) (r : FibreRef) (ws : List RegWrite) :
    (s.commit r ws).fibre? r = (s.fibre? r).map (·.takeAll ws) := by
  unfold State.fibre?
  rw [s.group?_commit r ws]
  cases s.group? r with
  | none => rfl
  | some g => exact g.fibre?_writeAll r.fid ws

/-- Writes of shared registers do not reach the fibre's record. -/
theorem Fibre.takeAll_filter (f : Fibre) (ws : List RegWrite) :
    f.takeAll (ws.filter fun w => !w.reg.shared) = f.takeAll ws := by
  induction ws generalizing f with
  | nil => rfl
  | cons w ws ih =>
    rw [List.filter_cons]
    cases h : w.reg.shared
    · exact ih _
    · rw [Fibre.takeAll_cons, Fibre.take, if_pos h]
      exact ih f

/-- A private register stands in the fibre's own record (R20). -/
theorem rawReg_of_private (g g' : Group) (f : Fibre) {r : RegRef} (h : r.shared = false) : rawReg g f r = rawReg g' f r := by
  cases r with
  | vec n t =>
    have hn : n < 192 := Nat.lt_of_not_le (of_decide_eq_false h)
    rw [rawReg, rawReg, rawVec, rawVec, if_pos hn, if_pos hn]
  | uni n =>
    have hn : n < 32 := Nat.lt_of_not_le (of_decide_eq_false h)
    rw [rawReg, rawReg, rawUni, rawUni, if_pos hn, if_pos hn]
  | pred n t => rfl

/-- A register reads the vector, uniform and predicate registers of its fibre alone. -/
theorem rawReg_congr (g : Group) {f f' : Fibre} (hv : f'.v = f.v) (hs : f'.s = f.s) (hp : f'.p = f.p) (r : RegRef) :
    rawReg g f' r = rawReg g f r := by
  cases r with
  | vec n t => rw [rawReg, rawReg, rawVec, rawVec, hv]
  | uni n => rw [rawReg, rawReg, rawUni, rawUni, hs]
  | pred n t => rw [rawReg, rawReg, predMask, predMask, hp]

/-- A private register after several writes. -/
theorem rawReg_takeAll (g : Group) (f : Fibre) {ws : List RegWrite} {r : RegRef} (hw : ∀ w ∈ ws, w.reg.inRange)
    (hr : r.inRange) (hprivate : r.shared = false) :
    rawReg g (f.takeAll ws) r = ((lastWrite ws r).map (·.kept)).getD (rawReg g f r) := by
  rw [rawReg_of_private g (g.writeAll 0 ws) _ hprivate]
  exact rawReg_writeAll g f 0 hw hr

/-! ## Delivery -/

/-- What a fibre awaits does not bear on the registers that it writes. -/
theorem Fibre.takeAll_awaiting (f : Fibre) (early : List Early) (outstanding : List Pending) (ws : List RegWrite) :
    ({ f with early, outstanding } : Fibre).takeAll ws = { f.takeAll ws with early, outstanding } := by
  induction ws generalizing f with
  | nil => rfl
  | cons w ws ih =>
    have htake : ({ f with early, outstanding } : Fibre).take w = { f.take w with early, outstanding } := by
      unfold Fibre.take Fibre.write
      split
      · rfl
      · split <;> rfl
    rw [Fibre.takeAll_cons, Fibre.takeAll_cons, htake, ih]

/-- Fixed-latency results reach the fibre, which notes their issue distance and drops older results (R27, R28). -/
theorem State.fibre?_produce {s : State} {r : FibreRef} {x : Fibre} (h : s.fibre? r = some x) (ws : List RegWrite)
    (left cycle : Nat) : ∃ early, (s.produce r ws left cycle).fibre? r =
      some { x.takeAll ws with early, outstanding := dropPending ws x.outstanding } := by
  obtain ⟨g, hg, hx⟩ := Option.bind_eq_some_iff.mp h
  unfold State.produce
  rw [hg]
  dsimp only
  rw [hx]
  dsimp only
  rw [State.fibre?_modGroup, State.fibre?_commit, State.fibre?_modFibre, h, Option.map_some, Option.map_some,
    Fibre.takeAll_filter]
  · exact ⟨_, congrArg some (x.takeAll_awaiting _ _ ws)⟩
  all_goals exact fun _ => rfl

@[simp] theorem State.fibre?_setNextId (s : State) (n : Nat) (r : FibreRef) :
    ({ s with nextId := n } : State).fibre? r = s.fibre? r := rfl

/-- An operation whose results are awaited joins those of its fibre (R29). -/
theorem State.fibre?_expect {s : State} {r : FibreRef} {x : Fibre} (h : s.fibre? r = some x) (ws : List RegWrite)
    (flags : BitVec 5) (remote : List (Nat × Bool)) (float : Bool) (due : Option Nat) (pc : DWord) (reload : Option Reload) :
    (s.expect r ws flags remote float due pc reload).fibre? r = some { x with outstanding := dropPending ws x.outstanding ++
      [{ id := s.nextId, writes := ws, flags, float, remote, due, pc, reload }] } := by
  unfold State.expect
  dsimp only
  rw [State.fibre?_modFibre, State.fibre?_setNextId, h, Option.map_some]
  exact fun _ => rfl

theorem State.fibre?_raise {s : State} {r : FibreRef} {x : Fibre} (h : s.fibre? r = some x) (flags : Flags) :
    (s.modFibre r fun f => f.raise flags).fibre? r = some (x.raise flags) := by
  rw [State.fibre?_modFibre, h, Option.map_some]
  exact fun _ => rfl

theorem Fibre.advance_eq (f : Fibre) (act : Mask) (h : Nat) : ∃ early, f.advance act h = { f with early } := by
  unfold Fibre.advance
  split <;> exact ⟨_, rfl⟩

/-- Delivery gives a fibre its fixed-latency results in order, and lists its variable-latency results among the outstanding
ones; of its other state only the issue distances and the flags change (R27, R28, R82). -/
theorem State.fibre?_deliver {s : State} {c : Ctx} {x : Fibre} (h : s.fibre? c.r = some x) (d : Done) :
    ∃ early outstanding fflags,
      (s.deliver c d).fibre? c.r = some { x.takeAll d.fixed with early, outstanding, fflags } ∧
      ∀ ws, d.later = some ws → ∃ p ∈ outstanding, p.writes = ws ∧ p.flags = d.flags := by
  obtain ⟨early, hearly⟩ := x.advance_eq c.act c.hold
  have hadvance : (s.modFibre c.r fun f => f.advance c.act c.hold).fibre? c.r = some { x with early } := by
    rw [State.fibre?_modFibre, h, Option.map_some, hearly]
    intro f
    obtain ⟨_, he⟩ := f.advance_eq c.act c.hold
    rw [he]
  generalize hadvanced : s.modFibre c.r (fun f => f.advance c.act c.hold) = t at hadvance
  have hfixed : ∃ early outstanding, (if d.fixed.isEmpty then t else
      t.produce c.r d.fixed (d.lat - c.hold) (t.coreCycle c.core + d.lat)).fibre? c.r =
        some { x.takeAll d.fixed with early, outstanding } := by
    split
    · next hempty =>
      rw [List.isEmpty_iff.mp hempty]
      exact ⟨_, _, hadvance⟩
    · obtain ⟨early', he⟩ := State.fibre?_produce hadvance d.fixed (d.lat - c.hold) (t.coreCycle c.core + d.lat)
      rw [he, x.takeAll_awaiting early x.outstanding d.fixed]
      exact ⟨_, _, rfl⟩
  unfold State.deliver
  dsimp only
  rw [hadvanced]
  obtain ⟨early', outstanding, hdone⟩ := hfixed
  generalize (if d.fixed.isEmpty then t else _ : State) = u at hdone ⊢
  cases hlater : d.later with
  | some ws =>
    refine ⟨_, _, _, State.fibre?_expect hdone ..,
      fun ws' hws => ⟨_, List.mem_append_right _ (List.mem_singleton.mpr rfl), ?_⟩⟩
    exact ⟨Option.some.inj hws, rfl⟩
  | none =>
    cases d.remote with
    | nil =>
      dsimp only
      split
      · exact ⟨_, _, _, State.fibre?_expect hdone .., fun _ h => nomatch h⟩
      · exact ⟨_, _, _, State.fibre?_raise hdone _, fun _ h => nomatch h⟩
    | cons q rest =>
      exact ⟨_, _, _, State.fibre?_raise (State.fibre?_expect hdone ..) _, fun _ h => nomatch h⟩

end Sys2Proof.Machine
end

section
/-!
What sequencing leaves of a fibre: all but its split table, FSIG and the index of the split that ran last (R290 to R297).
-/
namespace Sys2Proof.Machine

/-- A fibre but for its split table, its signature and the split that ran last. -/
def Fibre.rest (f : Fibre) : Fibre := { f with splits := [], fsig := 0, last := 0 }

/-- The fibre that a change of the split table ends with. -/
def SplitEnd.fibre : SplitEnd → Fibre
  | .ok f => f
  | .exited f => f
  | .error _ f => f

@[simp] theorem Fibre.rest_start (f : Fibre) (i : Nat) : (f.start i).rest = f.rest := by
  unfold Fibre.start
  dsimp only
  split <;> rfl

@[simp] theorem Fibre.rest_choose (f : Fibre) : f.choose.rest = f.rest := by
  unfold Fibre.choose
  split
  · rfl
  · split
    · split
      · rfl
      · exact f.rest_start _
    · rfl

@[simp] theorem Fibre.rest_suspend (f : Fibre) (st : SplitState) (g : Split → Split) : (f.suspend st g).rest = f.rest := by
  unfold Fibre.suspend
  split <;> rfl

@[simp] theorem Fibre.rest_fuse (sige : Bool) (fuel : Nat) (f : Fibre) (p : Nat) :
    (Fibre.fuse sige fuel f p).fibre.rest = f.rest := by
  induction fuel generalizing f p with
  | zero => rfl
  | succ fuel ih =>
    unfold Fibre.fuse
    split
    · rfl
    · dsimp only
      split
      · rfl
      · split
        · rfl
        · split
          · split
            · split
              · exact ih _ _
              · exact Fibre.rest_choose _
            · exact Fibre.rest_choose _
          · rfl

@[simp] theorem Fibre.rest_arrive (sige : Bool) (f : Fibre) (i : Nat) : (f.arrive sige i).fibre.rest = f.rest := by
  unfold Fibre.arrive
  split
  · rfl
  · dsimp only
    split
    · split
      · exact Fibre.rest_fuse ..
      · exact Fibre.rest_choose _
    · exact Fibre.rest_choose _

@[simp] theorem Fibre.rest_goTo (sige : Bool) (f : Fibre) (next : DWord) : (f.goTo sige next).fibre.rest = f.rest := by
  unfold Fibre.goTo
  split
  · rfl
  · dsimp only
    split
    · exact Fibre.rest_arrive ..
    · rfl

@[simp] theorem Fibre.rest_divide (sige miss : Bool) (f : Fibre) (join rpc : DWord) (kids : List Child) :
    (f.divide sige miss join rpc kids).fibre.rest = f.rest := by
  unfold Fibre.divide
  split
  · rfl
  · dsimp only
    split
    · exact (Fibre.rest_start _ _).trans (Fibre.rest_suspend ..)
    · split
      · split
        · exact (Fibre.rest_fuse ..).trans (Fibre.rest_suspend ..)
        · exact (Fibre.rest_choose _).trans (Fibre.rest_suspend ..)
      · exact (Fibre.rest_choose _).trans (Fibre.rest_suspend ..)

@[simp] theorem Fibre.rest_settle (sige : Bool) (fuel : Nat) (f : Fibre) : (Fibre.settle sige fuel f).fibre.rest = f.rest := by
  induction fuel generalizing f with
  | zero => rfl
  | succ fuel ih =>
    have hend {e : SplitEnd} (he : e.fibre.rest = f.rest) :
        (match e with
          | .ok f => Fibre.settle sige fuel f
          | e => e).fibre.rest = f.rest := by
      cases e with
      | ok g => exact (ih g).trans he
      | exited g => exact he
      | error k g => exact he
    unfold Fibre.settle
    dsimp only
    split
    · split
      · split
        · exact hend ((Fibre.rest_fuse ..).trans f.rest_choose)
        · exact f.rest_choose
      · exact f.rest_choose
    · split
      · exact hend ((Fibre.rest_arrive ..).trans f.rest_choose)
      · exact f.rest_choose

theorem goFlow_rest (sige : Bool) (a : DWord) (sig : Word → Word) (f : Fibre) :
    ((goFlow sige a sig).run f).fibre.rest = f.rest := Fibre.rest_goTo ..

/-- Sequencing changes nothing else of its fibre (R296, R297). -/
theorem Ctx.sequence_rest (c : Ctx) (f : Fibre) : (c.sequence.run f).fibre.rest = f.rest := by
  unfold Ctx.sequence
  split
  · exact goFlow_rest ..
  · exact goFlow_rest ..
  · unfold Ctx.divideBy
    dsimp only
    split
    · exact goFlow_rest ..
    · split
      · exact goFlow_rest ..
      · exact Fibre.rest_divide ..
  · exact goFlow_rest ..
  · exact goFlow_rest ..

end Sys2Proof.Machine
end

section
/-!
An issue that goes on delivers its results and hashes its word (R27, R75, R299): O38.
-/
namespace Sys2Proof.Machine

/-! ## The fibre when sequencing comes -/

theorem State.fid_of_fibre? {s : State} {r : FibreRef} {f : Fibre} (h : s.fibre? r = some f) : f.fid = r.fid := by
  obtain ⟨g, -, hg⟩ := Option.bind_eq_some_iff.mp h
  exact beq_iff_eq.mp (List.find?_some (p := fun x : Fibre => x.fid == r.fid) hg)

theorem takePool_fibre? {s t : State} {c n a : Nat} (h : takePool s c n = some (a, t)) : t.fibre? = s.fibre? := by
  unfold takePool at h
  split at h
  · cases h
  · obtain ⟨b, -, hb⟩ := Option.map_eq_some_iff.mp h
    cases hb
    rfl

/-- Room for the entries that a flow makes gives the fibre at most a spill block (R291). -/
theorem fibre?_roomFor {s u : State} {c : Ctx} {kids : Nat} {f : Fibre} (hf : s.fibre? c.r = some f)
    (h : roomFor s c kids = some u) : ∃ spill hspill, u.fibre? c.r = some { f with spill, hspill } := by
  unfold roomFor at h
  split at h
  · unfold needSpill at h
    rw [hf] at h
    dsimp only at h
    cases hhas : (if f.hnd then f.hspill else f.spill).isSome
    · rw [hhas, if_neg Bool.false_ne_true] at h
      obtain ⟨⟨a, v⟩, hv, rfl⟩ := Option.map_eq_some_iff.mp h
      dsimp only
      rw [State.fibre?_modFibre, takePool_fibre? hv, hf, Option.map_some]
      · split <;> exact ⟨_, _, rfl⟩
      · intro x
        split <;> rfl
    · rw [hhas, if_pos rfl] at h
      cases h
      exact ⟨_, _, hf⟩
  · cases h
    exact ⟨_, _, hf⟩

/-- Sequencing writes uniform registers only (LOOP, R296). -/
theorem Ctx.sequence_inRange (c : Ctx) : ∀ w ∈ c.sequence.writes, w.reg.inRange := by
  have hgo (a : DWord) (sig : Word → Word) : ∀ w ∈ (goFlow c.sige a sig).writes, w.reg.inRange := fun _ h => nomatch h
  unfold Ctx.sequence
  split
  · exact hgo _ _
  · exact hgo _ _
  · unfold Ctx.divideBy
    dsimp only
    split
    · exact hgo _ _
    · split
      · exact hgo _ _
      · exact fun _ h => nomatch h
  · intro w hw
    rw [List.mem_singleton.mp hw]
    trivial
  · exact hgo _ _

theorem Ctx.fid_hashInto (c : Ctx) {d : Done} (hafter : d.after = id) (f : Fibre) : (c.hashInto d f).fid = f.fid := by
  unfold Ctx.hashInto
  rw [hafter]
  dsimp only [id]
  split <;> rfl

/-- When sequencing comes the fibre has hashed its word, taken its fixed-latency results and LOOP's count, and awaits its
variable-latency results (R27, R28, R299). -/
theorem Done.fibre?_delivered {d : Done} {c : Ctx} {f : Fibre} {t : State} (hflow : d.flow = none) (hafter : d.after = id)
    (hf : d.s.fibre? c.r = some f) (h : d.delivered c = some t) :
    ∃ x early outstanding fflags,
      t.fibre? c.r = some (({ x.takeAll d.fixed with early, outstanding, fflags } : Fibre).takeAll c.sequence.writes) ∧
      (c.sequence.kids = 0 → x = { c.hashInto d f with replays := 0 }) ∧
      ∀ ws, d.later = some ws → ∃ p ∈ outstanding, p.writes = ws ∧ p.flags = d.flags := by
  obtain ⟨u, hroom, rfl⟩ := Option.map_eq_some_iff.mp h
  have hseq : d.flow.getD c.sequence = c.sequence := by rw [hflow, Option.getD_none]
  rw [hseq] at hroom ⊢
  obtain ⟨spill, hspill, hu⟩ := fibre?_roomFor hf hroom
  have hhash : (u.modFibre c.r fun f => { c.hashInto d f with replays := 0 }).fibre? c.r =
      some { c.hashInto d { f with spill, hspill } with replays := 0 } := by
    rw [State.fibre?_modFibre, hu, Option.map_some]
    exact fun x => c.fid_hashInto hafter x
  obtain ⟨early, outstanding, fflags, hdeliver, hlater⟩ := State.fibre?_deliver hhash d
  refine ⟨{ c.hashInto d { f with spill, hspill } with replays := 0 }, early, outstanding, fflags, ?_,
    fun hkids => ?_, hlater⟩
  · dsimp only
    split
    · next hempty => rw [hdeliver, List.isEmpty_iff.mp hempty]; rfl
    · rw [State.fibre?_commit, hdeliver, Option.map_some]
  · have hsame : roomFor d.s c c.sequence.kids = some d.s := by
      rw [roomFor, hkids, if_neg (by simp)]
    have hus : d.s = u := Option.some.inj (hsame.symm.trans hroom)
    rw [← hus, hf] at hu
    rw [Option.some.inj hu]

/-! ## A split that goes on -/

/-- A change that keeps its state finds the running split again. -/
theorem runningOf_modSplit {l : List Split} {x : Split} (h : runningOf l = some x) (u : Split → Split)
    (hu : ∀ y, (u y).st = y.st) : runningOf (modSplit l x.idx u) = some (u x) := by
  have hst : ((fun y : Split => y.st == .running) ∘ fun y => if y.idx == x.idx then u y else y) =
      fun y : Split => y.st == .running := by
    funext y
    dsimp only [Function.comp_apply]
    split
    · rw [hu]
    · rfl
  unfold runningOf at h ⊢
  rw [modSplit, List.find?_map, hst, h, Option.map_some, if_pos (beq_self_eq_true _)]

/-- A running split outside a division goes on at an address, and no other split is chosen (R292, R296). -/
theorem goFlow_settles {f : Fibre} {x : Split} (hx : f.run? = some x) (hrpc : x.rpc = noRpc) (sige : Bool) (a : DWord)
    (n : Nat) :
    ∃ g, (goFlow sige a).run f = .ok g ∧ Fibre.settle sige (n + 1) g = .ok g ∧ g.fsig = f.fsig ∧
      g.run?.map (·.pc) = some a := by
  let g : Fibre := { f with splits := modSplit f.splits x.idx fun y => { y with pc := a, again := false } }
  have hrun : (goFlow sige a).run f = .ok g := by
    unfold goFlow Fibre.goTo
    dsimp only [id]
    rw [show ({ f with fsig := f.fsig } : Fibre) = f from rfl, hx]
    dsimp only
    rw [hrpc, if_neg (by simp)]
  have hgoes : g.run? = some { x with pc := a, again := false } := runningOf_modSplit hx _ fun _ => rfl
  have hsettle : Fibre.settle sige (n + 1) g = .ok g := by
    unfold Fibre.settle Fibre.choose
    rw [hgoes]
    dsimp only
    rw [hgoes]
    dsimp only
    rw [hrpc, if_neg (by simp)]
  exact ⟨g, hrun, hsettle, rfl, by rw [hgoes]; rfl⟩

/-- Settles O38. Sequencing changes only the split table, FSIG and the split that ran last, so that what delivery gave the
fibre stands. -/
theorem issueDeliversResults : Obligations.IssueDeliversResults := by
  intro c d f f0 hflow hafter hf0 hgo hrange
  obtain ⟨t, hdel, hfinish⟩ := State.finishIssue_of_goesOn hgo
  obtain ⟨-, -, t', g, h, hdel', hg, hrun, hsettle⟩ := hgo
  obtain rfl : t = t' := Option.some.inj (hdel.symm.trans hdel')
  obtain ⟨x, early, outstanding, fflags, hfibre, hx, hlater⟩ := Done.fibre?_delivered hflow hafter hf0 hdel
  obtain rfl := Option.some.inj (hfibre.symm.trans hg)
  rw [hflow, Option.getD_none] at hrun
  generalize hy : ({ x.takeAll d.fixed with early, outstanding, fflags } : Fibre) = y at hg hrun
  obtain ⟨v, s, p, htake⟩ := y.takeAll_eq c.sequence.writes
  have hrest : f.rest = (y.takeAll c.sequence.writes).rest := by
    have h1 := c.sequence_rest (y.takeAll c.sequence.writes)
    have h2 := h.rest_settle c.sige 256
    rw [hrun] at h1
    rw [hsettle] at h2
    exact h2.trans h1
  have hsame := congrArg Fibre.fid hrest
  have hname := State.fid_of_fibre? hg
  have hfid : f.fid = c.r.fid := hsame.trans hname
  have hend : (d.s.finishIssue c d).fibre? c.r = some f := by
    rw [hfinish, State.fibre?_leaveIssue, State.fibre?_issued, State.fibre?_setFibre _ _ _ hfid, hg, Option.map_some]
  refine ⟨hend, fun w hw hprivate hnone => ?_, fun ws hws => ?_, fun hseq hrun? hrpc hhashed hagain => ?_⟩
  · obtain ⟨G, hG, -⟩ := Option.bind_eq_some_iff.mp hend
    have hin : w.reg.inRange := hrange w (lastWrite_mem hw).1
    refine ⟨G, hG, ?_⟩
    calc rawReg G f w.reg
        = rawReg G (y.takeAll c.sequence.writes) w.reg :=
          rawReg_congr G (congrArg Fibre.v hrest) (congrArg Fibre.s hrest) (congrArg Fibre.p hrest) w.reg
      _ = rawReg G y w.reg := by rw [rawReg_takeAll G y c.sequence_inRange hin hprivate, hnone]; rfl
      _ = rawReg G (x.takeAll d.fixed) w.reg := by rw [← hy]; exact rawReg_congr G rfl rfl rfl w.reg
      _ = w.kept := by rw [rawReg_takeAll G x hrange hin hprivate, hw]; rfl
  · obtain ⟨p, hp, hwrites⟩ := hlater ws hws
    have hout : f.outstanding = outstanding := by
      have hkept := congrArg Fibre.outstanding hrest
      rw [htake, ← hy] at hkept
      exact hkept
    exact ⟨p, hout ▸ hp, hwrites⟩
  · have hgo : c.sequence = goFlow c.sige c.next := by
      unfold Ctx.sequence
      rw [hseq]
      rfl
    have hsplits : y.splits = f0.splits ∧ y.fsig = hash f0.fsig c.word := by
      obtain ⟨v, s, p, hfixed⟩ := x.takeAll_eq d.fixed
      have hhash : c.hashInto d f0 = { f0 with fsig := hash f0.fsig c.word } := by
        unfold Ctx.hashInto
        rw [hafter, hhashed, hagain]
        rfl
      rw [← hy, hfixed, hx (by rw [hgo]; rfl), hhash]
      exact ⟨rfl, rfl⟩
    obtain ⟨g, hgrun, hgsettle, hgsig, hgpc⟩ := goFlow_settles (f := y) (x := c.x)
      (by rw [Fibre.run?, hsplits.1]; exact hrun?) hrpc c.sige c.next 255
    rw [hgo] at hrun
    obtain rfl : g = h := SplitEnd.ok.inj (hgrun.symm.trans hrun)
    obtain rfl : g = f := SplitEnd.ok.inj (hgsettle.symm.trans hsettle)
    exact ⟨hgsig.trans hsplits.2, hgpc⟩

end Sys2Proof.Machine
end

section
/-!
Results, timers and commands that reach a fibre (R25, R29, R31, R303, R347, R358, R359, R364): O42.
-/
namespace Sys2Proof.Machine

/-! ## The watchdog and starvation (R25, R31, R85) -/

theorem State.exec_starvationRaise {s : State} {core lane slot : Nat} {r : TeamRef} {g : Group}
    (h : s.seated core lane slot = some (r, g)) (hstarve : 2 ^ 16 ≤ g.starve) :
    exec (.starvationRaise core lane slot) s = .next (s.modGroup r g.gid fun g => { g with raised := true }) := by
  change Host.Outcome.next _ = _
  rw [h]
  dsimp only
  rw [if_pos hstarve]

theorem State.exec_watchdog {s : State} {core lane slot : Nat} {r : FibreRef} {g : Group} {f : Fibre} {x : Split}
    (h : s.seated core lane slot = some (r.team, g)) (hgid : g.gid = r.gid) (hholder : g.holder = some r.fid)
    (hf : g.fibre? r.fid = some f) (hx : f.lastSplit = some x) (hwatch : 2 ^ (s.wdtNow core).toNat ≤ g.watch)
    (hsibling : g.siblingReady = true) (hfree : ((s.core core).lane lane).busy ≤ s.coreCycle core) :
    exec (.watchdog core lane slot) s = .next ((s.dropHeld core r).takeTrap r
      { cause := 5, info := BitVec.ofNat 64 (s.wdtNow core).toNat, mask := x.mask, pc := x.pc }) := by
  have hr : (⟨r.team, g.gid, r.fid⟩ : FibreRef) = r := by rw [hgid]
  change Host.Outcome.next _ = _
  rw [h]
  dsimp only
  rw [hholder]
  dsimp only
  rw [hf, Option.bind_some, hx]
  dsimp only
  rw [if_neg, hr]
  simp [hsibling, Nat.not_lt.mpr hwatch, Nat.not_lt.mpr hfree]

theorem State.wdtNow_of_none {s : State} {core : Nat} (h : (s.core core).wdtOld = none) :
    s.wdtNow core = (s.core core).wdt := by
  unfold State.wdtNow
  dsimp only
  rw [h]

theorem State.wdtNow_of_some {s : State} {core cycle : Nat} {n : BitVec 6} (h : (s.core core).wdtOld = some (cycle, n)) :
    s.wdtNow core = if s.coreCycle core ≤ cycle then n else (s.core core).wdt := by
  unfold State.wdtNow
  dsimp only
  rw [h]

/-! ## Results that arrive (R29, R75, R82, R401) -/

/-- A result can arrive once its core cycle has come and the ports of its requests are live (R82, R401). -/
theorem State.isDue_iff (s : State) (r : FibreRef) (p : Pending) : s.isDue r p = true ↔
    (∀ n g, p.due = some n → s.group? r = some g → n ≤ s.coreCycle g.core) ∧
      ∀ x ∈ p.remote, (s.portAt (s.portOf (classOf x.1))).live = true := by
  unfold State.isDue
  rw [Bool.and_eq_true, List.all_eq_true]
  refine and_congr_left fun _ => ?_
  cases p.due <;> cases s.group? r <;> simp

@[simp] theorem State.stalled_commit (s : State) (r : FibreRef) (ws : List RegWrite) :
    (s.commit r ws).stalled = s.stalled := by
  obtain ⟨teams, h⟩ := s.commit_eq r ws
  rw [h]

@[simp] theorem State.stalled_settleArrivals (s : State) (r : TeamRef) (gid : Nat) :
    (s.settleArrivals r gid).stalled = s.stalled := by
  unfold State.settleArrivals
  split
  · rfl
  · dsimp only
    split
    · rfl
    · exact State.stalled_commit _ _ _

@[simp] theorem State.stalled_wakeFibre (s : State) (r : FibreRef) : (s.wakeFibre r).stalled = s.stalled := by
  unfold State.wakeFibre State.wakeCore
  dsimp only
  split
  · split <;> rfl
  · rfl

@[simp] theorem State.group?_wakeFibre (s : State) (r q : FibreRef) : (s.wakeFibre r).group? q = s.group? q := by
  unfold State.wakeFibre State.wakeCore
  dsimp only
  split
  · split <;> rfl
  · rfl

@[simp] theorem State.fibre?_wakeFibre (s : State) (r q : FibreRef) : (s.wakeFibre r).fibre? q = s.fibre? q := by
  unfold State.fibre?
  rw [s.group?_wakeFibre]

/-- Nothing waits to move to another port: no route changes (R401). -/
theorem State.settleRoutes_of_nil {s : State} (h : s.stalled = []) : s.settleRoutes = s := by
  unfold State.settleRoutes
  rw [h]
  rfl

/-- Shared results that land leave the fibres of the slot as they are but for their registers (R75). -/
theorem State.group?_settleArrivals {s : State} {r : FibreRef} {g : Group} {f : Fibre} (hg : s.group? r = some g)
    (hf : g.fibre? r.fid = some f) : ∃ g' v t p, (s.settleArrivals r.team r.gid).group? r = some g' ∧
      g'.fibre? r.fid = some { f with v, s := t, p } := by
  have hteam : ((s.team? r.team).bind fun t => t.group? r.gid) = some g := hg
  unfold State.settleArrivals
  rw [hteam]
  dsimp only
  split
  · exact ⟨g, f.v, f.s, f.p, hg, hf⟩
  · let q : FibreRef := { team := r.team, gid := r.gid, fid := 4 }
    let ws := (byCycle (g.arrivals.filter fun a => a.cycle ≤ s.coreCycle g.core)).map (·.write)
    obtain ⟨v, t, p, hwritten⟩ := Group.fibre?_writeAll_of_some hf 4 ws
    have hcommit : (s.commit q ws).group? r = some (g.writeAll 4 ws) :=
      (s.group?_commit q ws).trans (by rw [show s.group? q = some g from hg]; rfl)
    refine ⟨{ g.writeAll 4 ws with
      arrivals := (g.writeAll 4 ws).arrivals.filter fun a => !(a.cycle ≤ s.coreCycle g.core) }, v, t, p, ?_, hwritten⟩
    rw [State.group?_modGroup_of_ref, hcommit]
    · rfl
    · exact fun _ => rfl

/-- A register of a slot depends on its shared registers alone. -/
theorem rawReg_modFibre (g : Group) (i : Nat) (u : Fibre → Fibre) (f : Fibre) (r : RegRef) :
    rawReg (g.modFibre i u) f r = rawReg g f r := by
  cases r <;> rfl

/-- What the arrival of a result makes of its fibre's record, its registers apart: the splits that waited for it are ready,
and it and its distances are listed no more (R29). -/
def Fibre.afterResult (p : Pending) (f : Fibre) : Fibre :=
  let f := f.mapSplits (Split.without p.id)
  { f with
    outstanding := f.outstanding.filter fun x => x.id != p.id
    early := f.early.filter fun e => !(p.writes.any fun w => w.reg == e.reg) }

/-- A result that arrives reaches its registers and its fibre's flags, and is outstanding no more (R29, R82). -/
theorem State.arriveResult_reaches {s : State} {r : FibreRef} {f : Fibre} {p : Pending} (hstalled : s.stalled = [])
    (hf : s.fibre? r = some f) (hp : (f.outstanding.find? fun q => q.id == p.id) = some p)
    (hrange : ∀ w ∈ p.writes, w.reg.inRange) :
    ∃ h h', (s.arriveResult r p.id).fibre? r = some h ∧ (s.arriveResult r p.id).group? r = some h' ∧
      h.outstanding = f.outstanding.filter (fun q => q.id != p.id) ∧ h.fflags = f.fflags ||| p.flags ∧
      ∀ w, lastWrite p.writes w.reg = some w → rawReg h' h w.reg = w.kept := by
  obtain ⟨g, hg, hgf⟩ := Option.bind_eq_some_iff.mp hf
  obtain ⟨g1, v, u, q, hg1, hf1⟩ := State.group?_settleArrivals hg hgf
  let x : Fibre := { f with v, s := u, p := q }
  obtain ⟨v', u', q', htake⟩ := x.takeAll_eq p.writes
  let g2 := g1.writeAll r.fid p.writes
  let h := ((x.takeAll p.writes).afterResult p).raise p.flags
  let t := (((s.settleArrivals r.team r.gid).commit r p.writes).modFibre r (Fibre.afterResult p)).modFibre r
    fun f => f.raise p.flags
  have harrive : s.arriveResult r p.id = t.wakeFibre r := by
    have hcommitted : ((s.settleArrivals r.team r.gid).commit r p.writes).stalled = [] := by
      rw [State.stalled_commit, State.stalled_settleArrivals, hstalled]
    have hquiet : (t.wakeFibre r).stalled = [] := (State.stalled_wakeFibre t r).trans hcommitted
    rw [← State.settleRoutes_of_nil hquiet, State.arriveResult, hf, Option.bind_some, hp]
    rfl
  have hcommit : ((s.settleArrivals r.team r.gid).commit r p.writes).group? r = some g2 := by
    rw [State.group?_commit, hg1, Option.map_some]
  have hgroup : t.group? r = some ((g2.modFibre r.fid (Fibre.afterResult p)).modFibre r.fid fun f => f.raise p.flags) := by
    rw [State.group?_modFibre, State.group?_modFibre, hcommit, Option.map_some, Option.map_some]
  have hfibre : t.fibre? r = some h := by
    rw [State.fibre?_modFibre, State.fibre?_modFibre, State.fibre?_commit, State.fibre?, hg1, Option.bind_some, hf1]
    · rfl
    all_goals exact fun _ => rfl
  rw [harrive, State.fibre?_wakeFibre, State.group?_wakeFibre]
  refine ⟨h, _, hfibre, hgroup, ?_, ?_, fun w hw => ?_⟩
  · change (x.takeAll p.writes).outstanding.filter _ = _
    rw [htake]
  · change (x.takeAll p.writes).fflags ||| _ = _
    rw [htake]
  · calc rawReg _ h w.reg
        = rawReg g2 (x.takeAll p.writes) w.reg := by
          rw [rawReg_modFibre, rawReg_modFibre]
          exact rawReg_congr g2 rfl rfl rfl w.reg
      _ = w.kept := by
          rw [rawReg_writeAll g1 x r.fid hrange (hrange w (lastWrite_mem hw).1), hw]
          rfl

/-! ## Sleep, deadlines and syscalls (R303, R347, R364) -/

/-- A sleeping split whose deadline has come stands under a number in its fibre's only tree. -/
theorem State.sleptOut_iff {s : State} {r : FibreRef} {n : Nat} {f : Fibre} (hn : n < 128) (hf : s.fibre? r = some f)
    (hfree : f.frozen = none) (hidx : (f.splits.map (·.idx)).Nodup) :
    s.sleptOut r n = true ↔ ∃ x ∈ f.splits, x.idx = n ∧ x.slp = true ∧
      satisfies (BitVec.ofNat 64 s.tick) x.dl = true := by
  have htree : f.treeOf n = f.splits := by
    unfold Fibre.treeOf Fibre.hnd
    rw [hfree, Option.isSome_none, Bool.and_false, if_neg Bool.false_ne_true]
  have hfind (x : Split) : findSplit f.splits n = some x ↔ x ∈ f.splits ∧ x.idx = n := by
    refine ⟨fun h => ⟨List.mem_of_find?_eq_some h, beq_iff_eq.mp (List.find?_some (p := fun x : Split => x.idx == n) h)⟩,
      fun ⟨hx, hname⟩ => ?_⟩
    cases hy : findSplit f.splits n with
    | none => exact absurd (beq_iff_eq.mpr hname) (List.find?_eq_none.mp hy x hx)
    | some y =>
      have hyname : y.idx = n := beq_iff_eq.mp (List.find?_some (p := fun x : Split => x.idx == n) hy)
      rw [List.inj_on_of_nodup_map hidx (List.mem_of_find?_eq_some hy) hx (hyname.trans hname.symm)]
  unfold State.sleptOut
  rw [hf, Option.any_some, htree, Nat.mod_eq_of_lt hn, Option.any_eq_true]
  simp only [hfind, Bool.and_eq_true, and_assoc]

/-- A sleeping split wakes at its deadline (R303). -/
theorem State.exec_sleepWake {s : State} {r : FibreRef} {n : Nat} {f : Fibre} (hn : n < 128) (hf : s.fibre? r = some f)
    (hfree : f.frozen = none) (hidx : (f.splits.map (·.idx)).Nodup) :
    ∃ t h, exec (.sleepWake r n) s = .next t ∧ t.fibre? r = some h ∧ h.splits = f.splits.map fun x =>
      if x.idx = n ∧ x.slp = true ∧ satisfies (BitVec.ofNat 64 s.tick) x.dl = true then
        { x with st := .ready, slp := false, dl := 0, park := .none }
      else x := by
  have hiff := State.sleptOut_iff hn hf hfree hidx
  have hexec : exec (.sleepWake r n) s = .next (if s.sleptOut r n then _ else s) := rfl
  by_cases hslept : s.sleptOut r n = true
  · refine ⟨_, { f with splits := modSplit f.splits n (Split.rouse (BitVec.ofNat 64 s.tick)) },
      hexec.trans (congrArg Host.Outcome.next (if_pos hslept)), ?_, List.map_congr_left fun x _ => ?_⟩
    · rw [State.fibre?_wakeFibre, State.fibre?_modFibre, hf, Option.map_some]
      · rw [Fibre.hnd, hfree, Option.isSome_none, Bool.and_false, if_neg Bool.false_ne_true, Nat.mod_eq_of_lt hn]
      · intro x
        split <;> rfl
    · unfold Split.rouse
      by_cases hname : x.idx = n <;> simp [hname]
  · refine ⟨s, f, hexec.trans (congrArg Host.Outcome.next (if_neg hslept)), hf, ?_⟩
    rw [List.map_congr_left fun x hx => if_neg fun h => hslept (hiff.mpr ⟨x, hx, h⟩), List.map_id']

theorem State.exec_promiseMissed {s : State} {r : FibreRef} {f : Fibre} {u : UniformWait} (hf : s.fibre? r = some f)
    (hhold : f.hold = .wait u) (hkind : u.kind = 2)
    (hdue : satisfies (BitVec.ofNat 64 ((s.now + 1) / unitsPerTick) - 1) u.deadline = true) :
    exec (.promiseMissed r) s = .next (s.promiseTrap r) := by
  change Host.Outcome.next _ = _
  rw [if_pos]
  unfold State.overdue
  rw [hf, Option.map_some, hhold]
  dsimp only
  rw [hkind, hdue]
  rfl

theorem State.exec_syscAnswer {s : State} {r : FibreRef} {thread loc : Nat} {f : Fibre} {q : SyscRun}
    (hf : s.fibre? r = some f) (hq : f.sysc = some q) (hloc : q.entries.lookup thread = some loc) (hhold : f.hold = .syscall)
    (hdone : satisfies (s.wordAt (loc + 0x30)) 1 = true) :
    exec (.syscAnswer r thread) s = .next
      (((s.writeNow r (vecWrites true q.w.d.toNat thread (s.wordAt (loc + 0x28)))).modFibre r fun f =>
        { f with sysc := some { q with entries := q.entries.filter fun e => e.1 != thread } }).endSysc r) := by
  change Host.Outcome.next (s.answerSysc r thread) = _
  unfold State.answerSysc
  rw [hf]
  dsimp only
  rw [hq]
  dsimp only
  rw [hloc]
  dsimp only
  rw [hhold, hdone, if_neg (by decide)]

/-! ## Commands of the lodge core (R359) -/

theorem State.exec_fibreCommands {s : State} {token : Nat} {r : FibreRef} {z : LodgeFreeze} (col : Nat)
    (h : s.tokenFibre token = some (r, z)) :
    let u := ((s.modFibre r fun f => { f with lodge := none }).regain r).wakeFibre r
    exec (.fibreResume col token) s = .next u ∧
    exec (.fibreConvert col token) s =
      .next (u.takeTrap r { cause := z.cause, info := z.info, mask := z.mask, addrs := z.addrs, pc := z.pc }) ∧
    exec (.fibreTerminate col token) s =
      .next (s.terminate r.team.seq { reason := 3, cause := z.cause, pc := z.pc, fib := some r }) := by
  have hexec (i : Instr) (n : Nat) (hi : exec i s = .next (s.fibreCommand token n)) {t : State}
      (ht : s.fibreCommand token n = t) : exec i s = .next t := by rw [hi, ht]
  refine ⟨hexec _ 1 rfl ?_, hexec _ 2 rfl ?_, hexec _ 3 rfl ?_⟩
  all_goals
    unfold State.fibreCommand
    rw [h]
    rfl

theorem State.exec_fibreConvert_saved {s : State} {token : Nat} {x : SavedTeam} (col : Nat) (h : s.tokenFibre token = none)
    (hsaved : s.saved = [x]) (htoken : x.team.hasToken token = true) (hnone : x.commands = []) :
    ∃ t y, exec (.fibreConvert col token) s = .next t ∧ t.saved = [y] ∧ y.commands = [(token, 2)] := by
  refine ⟨s.fibreCommand token 2, { x with commands := x.commands ++ [(token, 2)] }, rfl, ?_, ?_⟩
  · unfold State.fibreCommand
    rw [h]
    dsimp only
    rw [hsaved, List.map_singleton, htoken, hnone]
    rfl
  · rw [hnone]
    rfl

/-- Settles O42. A result's registers and flags are followed through the state that its arrival makes; the other clauses say
what their steps do where their conditions hold. -/
theorem resultsTimersAndCommands : Obligations.ResultsTimersAndCommands := by
  refine ⟨fun s r core lane slot g f => ⟨fun h hstarve => State.exec_starvationRaise h hstarve,
    fun x h hseat hgid hholder hh hx hwatch hsib hfree => State.exec_watchdog hseat hgid hholder hh hx hwatch hsib hfree,
    State.wdtNow_of_none, fun cycle n h => State.wdtNow_of_some h, fun k p hstalled hf hk hp hrange => ?_,
    fun n hn hf hfree hidx => State.exec_sleepWake hn hf hfree hidx,
    fun u hf hhold hkind hdue => State.exec_promiseMissed hf hhold hkind hdue,
    fun q thread loc hf hq hloc hhold hdone => State.exec_syscAnswer hf hq hloc hhold hdone⟩,
    fun s col token r z => ⟨State.exec_fibreCommands col, fun x h hsaved htoken hnone =>
      State.exec_fibreConvert_saved col h hsaved htoken hnone⟩⟩
  have hexec : exec (.variableLatencyResult r k) s = .next (if s.isDue r p then s.arriveResult r p.id else s) := by
    change Host.Outcome.next _ = _
    rw [hf, Option.bind_some, hk]
  rw [hexec, ← s.isDue_iff r p]
  refine ⟨fun hnot => by rw [if_neg hnot], fun hdue => ?_⟩
  obtain ⟨h, h', harrive⟩ := State.arriveResult_reaches hstalled hf hp hrange
  exact ⟨_, h, h', by rw [if_pos hdue], harrive⟩

end Sys2Proof.Machine
end

section
/-!
The dispatcher (R19, R33, R37, R39, R255, R257): O44.
-/
namespace Sys2Proof.Machine

/-! ## Launch signals (R255, R257) -/

theorem State.wordAt_writeNum_ofNat (s : State) (a n : Nat) : (s.writeNum a 8 n).wordAt a = BitVec.ofNat 64 n := by
  rw [State.wordAt, State.writeNum, State.writeLoc_mem, numAt_putAll]
  exact BitVec.eq_of_toNat_eq (by rw [BitVec.toNat_ofNat, BitVec.toNat_ofNat]; exact Nat.mod_mod _ _)

theorem State.spt_writeLoc (s : State) (a : Nat) (bs : List Byte) (c : Nat) :
    ((s.writeLoc a bs).col c).spt = (s.col c).spt := by
  have h : ((s.writeLoc a bs).hostRegs c).spt = (s.hostRegs c).spt := by rw [State.writeLoc_hostRegs]
  exact h

/-- A launch signal that the column takes writes its line, then looks whether the page is enabled. -/
theorem State.exec_launchSignal {s u : State} {op : LaunchSignalOp} {loc : Nat} (hcol : op.col < 128) (hpage : op.page < 64)
    (hline : op.line < 32) (hruns : s.hartRuns op.col = true) (hloc : submissionLoc op.col op.page op.line = loc)
    (hu : s.writeLoc loc (bytesLE op.data.toNat 128) = u) :
    ((look 0 (s.col op.col).spt op.page).getLsbD 0 = false → exec (.launchSignal op) s = .next u) ∧
    ((look 0 (s.col op.col).spt op.page).getLsbD 0 = true →
      (∀ e, u.judge op = .error e → exec (.launchSignal op) s = .next (u.writeNum loc 8 e.receipt)) ∧
      ∀ v, u.judge op = .ok v → exec (.launchSignal op) s = .next (v.writeNum loc 8 (acceptReceipt u.nextSeq))) := by
  have hspt : (u.col op.col).spt = (s.col op.col).spt := by rw [← hu, State.spt_writeLoc]
  have hgood : ¬(128 ≤ op.col ∨ 64 ≤ op.page ∨ 32 ≤ op.line ∨ s.hartRuns op.col = false) := by
    simp [hcol, hpage, hline, hruns]
  rw [show exec (.launchSignal op) s = execLaunchSignal op s from rfl, execLaunchSignal, if_neg hgood, ← hspt, hloc]
  dsimp only
  rw [hu]
  refine ⟨fun hoff => ?_, fun hon => ⟨fun e he => ?_, fun v hv => ?_⟩⟩
  · rw [hoff, if_neg Bool.false_ne_true]
  · rw [hon, if_pos rfl, he]
  · rw [hon, if_pos rfl, hv]

/-! ## Placement and restore (R19, R33, R39) -/

theorem State.exec_teamPlacement {s : State} {l : Launch} {idx core : Nat} {seats others : List Seat}
    (hserved : s.served = some l) (hmarked : l.marked = false) (halone : l.kernel.coresident = false)
    (hnext : s.nextTeam l = .place idx) (hplace : s.findPlace s.teams l = some (core, others))
    (hseats : seats.length = l.kernel.groups)
    (hgood : seatsGood (s.taken s.teams) l.kernel.footprint (teamCores l.kernel core) seats = true) :
    exec (.teamPlacement { team := { seq := l.seq, idx }, core, seats }) s = .next (s.placeTeam l idx core seats) := by
  change execTeamPlacement _ s = _
  unfold execTeamPlacement
  rw [hserved]
  dsimp only
  rw [hmarked, if_neg Bool.false_ne_true, hnext, if_pos (by simp), hplace]
  dsimp only
  rw [if_pos (by simp [hseats, hgood]), State.placeRest, halone, if_neg Bool.false_ne_true, Option.getD_some]

theorem State.exec_teamRestore {s : State} {l : Launch} {idx core : Nat} {seats : List Seat}
    (hserved : s.served = some l) (halone : l.kernel.coresident = false) (hnext : s.nextTeam l = .restore idx)
    (hcore : core ∈ s.targets l) (hstores : s.storesFit s.teams l.kernel core = true)
    (hseats : seats.length = l.kernel.groups)
    (hgood : seatsGood (s.taken s.teams) l.kernel.footprint (teamCores l.kernel core) seats = true) :
    exec (.teamRestore { team := { seq := l.seq, idx }, core, seats }) s =
      .next (s.restoreTeam { team := { seq := l.seq, idx }, core, seats }) := by
  change execTeamRestore _ s = _
  unfold execTeamRestore
  rw [hserved]
  dsimp only
  rw [hnext, if_pos (by simp [hcore, hstores, hseats, hgood]), halone, if_neg Bool.false_ne_true]

/-- The seats of a team at its placement are those chosen for its groups. -/
theorem startTeam_seats (s : State) (l : Launch) (idx core : Nat) (seats : List Seat) :
    (startTeam s l idx core seats).groups.map
      (fun g => { core := g.core, lane := g.lane, slot := g.slot, base := g.base : Seat }) = seats := by
  unfold startTeam
  rw [List.map_map]
  exact List.zipIdx_map_fst 0 seats

/-- The fibres of a team at its placement start as their entries say (R19, R79). -/
theorem startTeam_fibres {s : State} {l : Launch} {idx core : Nat} {seats : List Seat} {g : Group} {f : Fibre}
    (hg : g ∈ (startTeam s l idx core seats).groups) (hf : f ∈ g.fibres) :
    ∃ e, l.kernel.fibres[f.fid]? = some e ∧ rawUni g f 0 = l.kernel.args ∧ f.fpri = BitVec.ofNat 4 e.pri ∧
      f.tvec = l.kernel.tvec ∧ f.fsig = 0 ∧ f.fflags = 0 ∧
      f.splits = [rootSplit (fullMask l.kernel.width) e.entry (if f.fid = 0 then .running else .ready)] := by
  obtain ⟨⟨x, n⟩, -, rfl⟩ := List.mem_map.mp hg
  obtain ⟨⟨e, i⟩, he, rfl⟩ := List.mem_map.mp hf
  exact ⟨e, List.mem_zipIdx_iff_getElem?.mp he, look_put_self 0 [] 0 _, rfl, rfl, rfl, rfl, rfl⟩

theorem State.startTeam_mem_placeTeam (s : State) (l : Launch) (idx core : Nat) (seats : List Seat) :
    ∃ t, startTeam t l idx core seats ∈ (s.placeTeam l idx core seats).teams :=
  ⟨_, List.mem_append_right _ (List.mem_singleton.mpr rfl)⟩

/-! ## Pre-emption (R37) -/

theorem State.seq_of_launch? {s : State} {seq : Nat} {l : Launch} (h : s.launch? seq = some l) : l.seq = seq := by
  obtain ⟨⟨i, c⟩, -, hc⟩ := List.exists_of_findSome?_eq_some h
  exact beq_iff_eq.mp (List.find?_some (p := fun l : Launch => l.seq == seq) hc)

theorem State.exec_preEmption {s : State} {r : TeamRef} {t : Team} {l : Launch} (ht : s.team? r = some t)
    (hl : s.launch? r.seq = some l) :
    let all := if l.kernel.coresident then s.teams.filter fun x => x.ref.seq == r.seq else [t]
    (∃ w ∈ s.ordered, s.mayPreempt w t = true) → s.poolsFit all = true →
      exec (.preEmption r) s = .next (s.saveTeams all) := by
  intro all hwaits hfits
  have hall : s.victims t l = all := by rw [State.victims, State.seq_of_launch? hl]
  change execPreEmption r s = _
  unfold execPreEmption
  rw [ht]
  dsimp only
  rw [hl]
  dsimp only
  rw [hall, hfits, Bool.and_true, if_pos (List.any_eq_true.mpr hwaits)]

/-- The state in which some teams have come to rest, with what their work consumed of errors (R38, R375). -/
def State.atRest (s : State) (l : List Team) : State × List (TeamRef × Option FibreRef × DWord) :=
  l.foldl (fun a t => ((a.1.restTeam t).1, a.2 ++ (a.1.restTeam t).2.map fun b => (t.ref, b))) (s, [])

/-- Teams are saved once all have come to rest, with no error consumed, and can be saved (R37, R38). -/
theorem State.saveTeams_eq (s : State) (l : List Team) : s.saveTeams l =
    if !(s.atRest l).2.isEmpty then (s.atRest l).2.foldl (fun u x => u.teamError x.1 24 x.2.1 x.2.2) (s.atRest l).1
    else if !(l.all (s.atRest l).1.savable) || !(s.atRest l).1.poolsFit l then s
    else l.foldl (fun u t => u.storeTeam t.ref) (s.atRest l).1 := rfl

/-- Settles O44. Each step's conditions are taken in the order in which the model asks them; a receipt is read back at the
place where it was written, and a placed team's fibres are those that `startTeam` makes. -/
theorem dispatcherPlacesSavesAndRestores : Obligations.DispatcherPlacesSavesAndRestores := by
  intro s
  refine ⟨fun op hcol hpage hline hruns => ?_,
    fun l idx core seats others hserved hmarked halone hnext hplace hseats hgood => ⟨State.exec_teamPlacement hserved hmarked halone hnext hplace hseats hgood, ?_⟩,
    fun r t l ht hl => State.exec_preEmption ht hl, fun l => ?_,
    fun l idx core seats hserved halone hnext hcore hstores hseats hgood => State.exec_teamRestore hserved halone hnext hcore hstores hseats hgood⟩
  · intro loc u
    obtain ⟨hdisabled, henabled⟩ := State.exec_launchSignal hcol hpage hline hruns (loc := loc) (u := u) rfl rfl
    refine ⟨hdisabled, fun hon => ⟨fun e he => ⟨_, (henabled hon).1 e he, State.wordAt_writeNum_ofNat ..⟩,
      fun v hv => ⟨_, (henabled hon).2 v hv, ?_⟩⟩⟩
    rw [State.wordAt_writeNum_ofNat, State.writeLoc_nextSeq, acceptReceipt]
  · obtain ⟨t, hmem⟩ := s.startTeam_mem_placeTeam l idx core seats
    exact ⟨_, hmem, rfl, rfl, startTeam_seats .., fun g hg f hf => startTeam_fibres hg hf⟩
  · intro out
    have hout : s.atRest l = out := rfl
    rw [State.saveTeams_eq, hout]
    refine ⟨fun heaten => ?_, fun hnone hunfit => ?_, fun hnone hsavable hfits => ?_⟩
    · rw [if_pos (by simpa using heaten)]
    · rw [hnone, if_neg (by simp), if_pos]
      simpa using hunfit
    · rw [hnone, if_neg (by simp), if_neg]
      simpa [hfits] using hsavable

end Sys2Proof.Machine
end

section
/-!
The bits of an instruction and its fields (Tables 3.1 to 3.3): the encoder and the decoder undo each other on bits.
-/
namespace Sys2Proof
open Sys2Proof.Machine

@[simp] theorem formOf_len (f : Form) : formOf f.len = f := by cases f <;> rfl

theorem len_formOf (b : BitVec 2) : (formOf b).len = b := by
  revert b; decide

/-- Adjacent runs of bits join to one. -/
theorem extractLsb'_append_adjacent {n : Nat} (b : BitVec n) {hi lo m k : Nat} (h : hi = lo + k) :
    b.extractLsb' hi m ++ b.extractLsb' lo k = b.extractLsb' lo (m + k) := by
  subst h
  ext j hj
  simp only [BitVec.getElem_append, BitVec.getElem_extractLsb']
  split
  · rfl
  · rw [show lo + k + (j - k) = lo + j by omega]

/-- A single bit is a run of one. -/
theorem ofBool_getLsbD {n : Nat} (b : BitVec n) (i : Nat) : BitVec.ofBool (b.getLsbD i) = b.extractLsb' i 1 := by
  ext j hj
  obtain rfl : j = 0 := by omega
  simp

theorem opOf_firstWord (op : BitVec 8) (w : Fields) : (firstWord op w).extractLsb' 4 8 = op := by
  unfold firstWord
  simp (disch := omega) only [BitVec.extractLsb'_append_eq_of_add_le, BitVec.extractLsb'_append_eq_of_le]
  simp

theorem opOf_extBits (op : BitVec 8) (w : Fields) : (extBits op w).extractLsb' 4 8 = op := by
  unfold extBits
  simp (disch := omega) only [BitVec.extractLsb'_append_eq_of_add_le, BitVec.extractLsb'_append_eq_of_le]
  simp

theorem opOf_bitsOf (op : BitVec 8) (w : Fields) : opOf (bitsOf op w) = op := by
  unfold opOf bitsOf
  split
  · simp (disch := omega) only [BitVec.extractLsb'_setWidth_of_le, opOf_firstWord]
  · simp (disch := omega) only [BitVec.extractLsb'_setWidth_of_le, opOf_extBits]
  · simp (disch := omega) only [BitVec.extractLsb'_setWidth_of_le, BitVec.extractLsb'_append_eq_of_add_le, opOf_firstWord]
  · simp (disch := omega) only [BitVec.extractLsb'_append_eq_of_add_le, opOf_extBits]

theorem getLsbD_eq_beq {n : Nat} (b : BitVec n) (i : Nat) : b.getLsbD i = (b.extractLsb' i 1 == BitVec.ofBool true) := by
  rw [← ofBool_getLsbD]
  cases b.getLsbD i <;> rfl

@[simp] theorem ofBool_beq_true (v : Bool) : (BitVec.ofBool v == 1#1) = v := by cases v <;> rfl

/-- The fields of a canonical word are read back (Tables 3.1 to 3.3, R59). -/
theorem fieldsOf_bitsOf (op : BitVec 8) {w : Fields} (h : fieldsCanonical w = true) : fieldsOf (bitsOf op w) = w := by
  obtain ⟨form, y, u, f, a, d, b, c, g, gn, m, stl, seq, x, lit⟩ := w
  cases form
  case ext | extLit =>
    simp (disch := omega) only [fieldsOf, bitsOf, extBits, getLsbD_eq_beq, BitVec.extractLsb'_setWidth_of_le,
      BitVec.extractLsb'_append_eq_of_add_le, BitVec.extractLsb'_append_eq_of_le]
    simp_all [fieldsCanonical]
  case short | shortLit =>
    simp (disch := omega) only [fieldsOf, bitsOf, firstWord, getLsbD_eq_beq, BitVec.extractLsb'_setWidth_of_le,
      BitVec.extractLsb'_append_eq_of_add_le, BitVec.extractLsb'_append_eq_of_le]
    simp_all [fieldsCanonical, shortWord]

theorem fieldsCanonical_fieldsOf (b : BitVec 160) : fieldsCanonical (fieldsOf b) = true := by
  unfold fieldsOf
  dsimp only
  cases formOf (b.extractLsb' 0 2) <;> rfl

/-- A canonical short word holds the fields of its one word, and those of R59 in the rest. -/
theorem shortWord_of_short {w : Fields} (hs : w.form = .short) (h : fieldsCanonical w = true) :
    shortWord w.u w.y w.a w.d w.f = w := by
  obtain ⟨form, y, u, f, a, d, b, c, g, gn, m, stl, seq, x, lit⟩ := w
  obtain rfl : form = .short := hs
  simp_all [fieldsCanonical, shortWord]

/-- The fields hold every bit of the words of their form. -/
theorem bitsOf_fieldsOf (b : BitVec 160) :
    bitsOf (opOf b) (fieldsOf b) = (b.setWidth (32 * (fieldsOf b).form.words)).setWidth 160 := by
  have hlen := len_formOf (b.extractLsb' 0 2)
  unfold bitsOf opOf fieldsOf
  cases hform : formOf (b.extractLsb' 0 2) <;> rw [hform] at hlen
  all_goals
    simp (disch := rfl) only [Form.words, firstWord, extBits, shortWord, ofBool_getLsbD, hlen, extractLsb'_append_adjacent]
    simp [BitVec.setWidth_eq_extractLsb']

theorem form_fieldsOf (b : BitVec 160) : (fieldsOf b).form = formOf (b.extractLsb' 0 2) := by
  unfold fieldsOf
  cases formOf (b.extractLsb' 0 2) <;> rfl

/-! ## Words and bytes (R8) -/

theorem length_wordsOf (b : BitVec 160) (n : Nat) : (wordsOf b n).length = n := by
  induction n generalizing b with
  | zero => rfl
  | succ n ih => simp [wordsOf, ih]

theorem length_flatMap_wordBytes (ws : List Word) : (ws.flatMap wordBytes).length = 4 * ws.length := by
  induction ws with
  | nil => rfl
  | cons w ws ih => simp [wordBytes, ih]; omega

theorem bytesValue_wordBytes_append (w : Word) (bs : List Byte) :
    bytesValue (wordBytes w ++ bs) = w.toNat + 2 ^ 32 * bytesValue bs := by
  have hw := w.isLt
  simp only [wordBytes, List.cons_append, List.nil_append, bytesValue, BitVec.extractLsb'_toNat, Nat.shiftRight_eq_div_pow]
  omega

/-- The bytes of the low words hold their bits (R8). -/
theorem bytesValue_wordsOf (b : BitVec 160) (n : Nat) :
    bytesValue ((wordsOf b n).flatMap wordBytes) = b.toNat % 2 ^ (32 * n) := by
  induction n generalizing b with
  | zero => simp [wordsOf, bytesValue, Nat.mod_one]
  | succ n ih =>
    rw [wordsOf, List.flatMap_cons, bytesValue_wordBytes_append, ih]
    simp only [BitVec.extractLsb'_toNat, BitVec.toNat_ushiftRight, Nat.shiftRight_eq_div_pow]
    rw [Nat.mul_succ, Nat.add_comm (32 * n), Nat.pow_add, Nat.mod_mul]
    simp

theorem Form.words_pos (f : Form) : 0 < f.words := by cases f <;> decide

/-- The first byte of words is their lowest one. -/
theorem wordsOf_bytes_cons (b : BitVec 160) {n : Nat} (hn : 0 < n) :
    ∃ bs, (wordsOf b n).flatMap wordBytes = b.extractLsb' 0 8 :: bs := by
  obtain ⟨n, rfl⟩ := Nat.exists_eq_succ_of_ne_zero hn.ne'
  have hbyte : (b.extractLsb' 0 32).extractLsb' 0 8 = b.extractLsb' 0 8 := by
    ext j hj
    simp
  exact ⟨_, congrArg (List.cons · _) hbyte⟩

/-- The first byte holds LEN (Table 3.2). -/
theorem formOfByte_first (b : BitVec 160) : formOfByte (b.extractLsb' 0 8) = (fieldsOf b).form := by
  have hlen : (b.extractLsb' 0 8).extractLsb' 0 2 = b.extractLsb' 0 2 := by
    ext j hj
    simp
  rw [form_fieldsOf, formOfByte, hlen]

/-- The bytes of an instruction, whatever follows them, are decoded as its bits. -/
theorem decode_wordBytes (b : BitVec 160) (rest : List Byte)
    (hb : (b.setWidth (32 * (fieldsOf b).form.words)).setWidth 160 = b) :
    decode ((wordsOf b (fieldsOf b).form.words).flatMap wordBytes ++ rest) = decodeBits b := by
  obtain ⟨bs, hcons⟩ := wordsOf_bytes_cons b (Form.words_pos (fieldsOf b).form)
  have hlen : (b.extractLsb' 0 8 :: bs).length = 4 * (fieldsOf b).form.words := by
    rw [← hcons, length_flatMap_wordBytes, length_wordsOf]
  have hvalue : BitVec.ofNat 160 (bytesValue (b.extractLsb' 0 8 :: bs)) = b := by
    rw [← hcons, bytesValue_wordsOf, ← BitVec.toNat_setWidth, BitVec.ofNat_toNat, hb]
  rw [hcons, List.cons_append]
  unfold decode
  dsimp only
  rw [formOfByte_first, ← List.cons_append, if_neg (by rw [List.length_append]; omega), List.take_left' hlen, hvalue]

end Sys2Proof
end

section
/-!
The instructions and the rows of the opcode tables (Tables 3.9 and 3.10): an instruction's opcode and fields name it, and a word
that the checks pass is that of the instruction that it names.
-/
namespace Sys2Proof
open Sys2Proof.Machine

/-- A word passes the checks that the word alone decides when it passes each (Table 3.11). -/
theorem encodingReason_eq_none_iff (op : Nat) (w : Fields) :
    let i := opInfo op w
    encodingReason op w none = none ↔ badLen op w i = false ∧ ((w.u && !i.u1) || (!w.u && !i.u0)) = false ∧
      badReserved w i = false ∧ w.seq.toNat < 5 ∧ ((w.seq != 0 && !i.seqAny) || (w.seq == 3 && w.form != .extLit)) = false ∧
      badGuard w = false ∧ badRange w i = false ∧ i.bad9 = false ∧ badLoop w i = false := by
  unfold encodingReason
  simp only [Option.map_none, ite_eq_right_iff, ite_eq_iff, reduceCtorEq, and_false, false_or, imp_false, Bool.not_eq_true,
    Nat.not_le]
  simp

/-- What the checks ask of a short word (R59, R61, Table 3.11). -/
theorem shortWord_of_encodingReason {op : Nat} {u y : Bool} {a d : BitVec 8} {f : BitVec 4}
    (h : encodingReason op (shortWord u y a d f) none = none) :
    let i := opInfo op (shortWord u y a d f)
    (i.u1 = false → u = false) ∧ (i.u0 = false → u = true) ∧ (i.d = .unused → d = 0) ∧ (i.a = .unused → a = 0) ∧
      f &&& i.fZero = 0 ∧ i.bad9 = false ∧ (op = 0xA0 → f.getLsbD 0 = false) := by
  obtain ⟨hlen, hu, h3, -, -, -, -, h9, -⟩ := (encodingReason_eq_none_iff ..).mp h
  generalize opInfo op (shortWord u y a d f) = i at hlen hu h3 h9 ⊢
  simp only [badReserved, Bool.or_eq_false_iff, and_assoc, bne_eq_false_iff_eq] at h3
  obtain ⟨hd, ha, -, -, -, hf, -⟩ := h3
  refine ⟨fun hno => ?_, fun hno => ?_, fun hno => ?_, fun hno => ?_, hf, h9, ?_⟩
  · simp only [shortWord, hno, Bool.or_eq_false_iff, Bool.not_false, Bool.and_true] at hu
    exact hu.1
  · simp only [shortWord, hno, Bool.or_eq_false_iff, Bool.not_false, Bool.and_true, Bool.not_eq_false'] at hu
    exact hu.2
  · simpa [hno, kindBad3, shortWord] using hd
  · simpa [hno, kindBad3, shortWord] using ha
  · rintro rfl
    simp only [badLen, shortWord, Bool.or_eq_false_iff] at hlen
    exact hlen.2

theorem eq_zero_of_and_fifteen {f : BitVec 4} : f &&& 0xF = 0 → f = 0 := by
  revert f; decide

/-- F[0] says all of an F whose other bits are zero. -/
theorem bit4_getLsbD_zero_of_and {f : BitVec 4} : f &&& 0xE = 0 → bit4 (f.getLsbD 0) = f := by
  revert f; decide

/-- A unary operation's short word has F zero, since any other value is reserved (Table 3.10, R71). -/
theorem f_eq_zero_of_unary :
    ∀ op ∈ [0x2C, 0x2D, 0x4D, 0x4E, 0x4F, 0x50, 0x68, 0x69, 0x6A, 0x6C, 0x6D, 0x6E, 0x6F, 0x80, 0x81], ∀ u y a d f,
      (opInfo op (shortWord u y a d f)).bad9 = false → f = 0 := by
  intro op hop u y a d f h
  fin_cases hop
  all_goals
    simp [opInfo, integerInfo, bitInfo, floatInfo, shortWord] at h
    simp [h]

/-- A short word that the checks pass is that of the instruction that it decodes to (Table 3.10). -/
theorem opFields_of_mem_ctorsShort : ∀ p ∈ ctorsShort, ∀ u y a d f, encodingReason p.1 (shortWord u y a d f) none = none →
    opFields (p.2 (shortWord u y a d f)) = some (p.1, shortWord u y a d f) ∧ (p.2 (shortWord u y a d f)).isShortRow = true := by
  unfold ctorsShort
  simp only [List.forall_mem_cons]
  refine ⟨?nop, ?yield, ?exit, ?ret, ?tret, ?brk, ?sleep, ?fprio, ?srd, ?swr, ?tckpt, ?_, ?_, ?_, ?_, ?_, ?_, ?_, ?_, ?_, ?_, ?_,
    ?_, ?_, ?_, ?_, ?mov, List.forall_mem_nil _⟩
  all_goals
    intro u y a d f h
    obtain ⟨hu1, hu0, hd, ha, hf, h9, hmov⟩ := shortWord_of_encodingReason h
  case nop =>
    cases hd rfl; cases ha rfl; cases eq_zero_of_and_fifteen hf
    exact ⟨rfl, rfl⟩
  case yield | tckpt =>
    cases hu0 rfl; cases hd rfl; cases ha rfl; cases eq_zero_of_and_fifteen hf
    exact ⟨rfl, rfl⟩
  case exit =>
    cases hu1 rfl; cases hd rfl; cases ha rfl; cases eq_zero_of_and_fifteen hf
    exact ⟨rfl, rfl⟩
  case ret =>
    cases hu0 rfl; cases hd rfl; cases eq_zero_of_and_fifteen hf
    exact ⟨rfl, rfl⟩
  case tret =>
    cases hu0 rfl; cases hd rfl; cases ha rfl
    exact ⟨congrArg (fun f => some (0x0A, shortWord true y 0 0 f)) (bit4_getLsbD_zero_of_and hf), rfl⟩
  case brk =>
    cases hu1 rfl; cases hd rfl; cases ha rfl
    exact ⟨rfl, rfl⟩
  case sleep =>
    cases hu0 rfl; cases hd rfl
    exact ⟨congrArg (fun f => some (0x0D, shortWord true y a 0 f)) (bit4_getLsbD_zero_of_and hf), rfl⟩
  case fprio =>
    cases hu0 rfl
    have hlt : ¬2 ≤ d.toNat := of_decide_eq_false h9
    obtain rfl | rfl : d = 0 ∨ d = 1 := by bv_omega
    · cases ha rfl
      exact ⟨rfl, rfl⟩
    · cases eq_zero_of_and_fifteen hf
      exact ⟨rfl, rfl⟩
  case srd =>
    cases eq_zero_of_and_fifteen hf
    exact ⟨rfl, rfl⟩
  case swr =>
    cases eq_zero_of_and_fifteen hf
    cases u
    · cases h9
    · exact ⟨rfl, rfl⟩
  case mov =>
    have hzero : bit4 (f.getLsbD 0) = f := bit4_getLsbD_zero_of_and hf
    rw [hmov rfl] at hzero
    cases hzero
    exact ⟨rfl, rfl⟩
  all_goals
    cases f_eq_zero_of_unary _ (by decide) u y a d f h9
    exact ⟨rfl, rfl⟩

theorem bit4_getLsbD_zero (s : Bool) : (bit4 s).getLsbD 0 = s := by cases s <;> decide

/-- The instruction of a long form is that of its opcode and fields. -/
theorem opFields_of_mem_ctors : ∀ p ∈ ctors, ∀ w, opFields (p.2 w) = some (p.1, w) ∧ (p.2 w).isShortRow = false := by
  unfold ctors
  simp only [List.forall_mem_append, and_assoc]
  refine ⟨?_, ?_, ?_, ?_, ?_, ?_, ?_, ?_, ?_⟩
  all_goals
    repeat refine List.forall_mem_cons.mpr ⟨fun _ => ⟨rfl, rfl⟩, ?_⟩
    exact List.forall_mem_nil _

theorem lookup_ctors_of_opFields {i : Instr} {op : Nat} {w : Fields} (h : opFields i = some (op, w))
    (hrow : i.isShortRow = false) : (ctors.lookup op).map (· w) = some i := by
  cases i with
  | mma fam v => cases h; cases fam <;> rfl
  | _ => cases hrow <;> cases h <;> rfl

theorem lookup_ctorsShort_of_opFields {i : Instr} {op : Nat} {w : Fields} (h : opFields i = some (op, w))
    (hrow : i.isShortRow = true) : (ctorsShort.lookup op).map (· w) = some i := by
  cases i with
  | tretShort s y => cases h; exact congrArg (fun b => some (Instr.tretShort b y)) (bit4_getLsbD_zero s)
  | sleepShort a r y => cases h; exact congrArg (fun b => some (Instr.sleepShort a b y)) (bit4_getLsbD_zero r)
  | _ => cases hrow <;> cases h <;> rfl

/-- The opcode and fields of an instruction give it back. -/
theorem instrOf_of_opFields {i : Instr} {op : Nat} {w : Fields} (h : opFields i = some (op, w))
    (hrow : i.isShortRow = (w.form == .short)) : instrOf op w = some i := by
  unfold instrOf
  split
  next hs => exact lookup_ctorsShort_of_opFields h (by rw [hrow, hs]; rfl)
  next hs => exact lookup_ctors_of_opFields h (by rw [hrow]; exact beq_false_of_ne hs)

/-- What a table's entry makes of a value comes from an entry of its key. -/
theorem exists_mem_of_lookup_map {α β γ : Type} [BEq α] [LawfulBEq α] {l : List (α × (β → γ))} {k : α} {w : β} {i : γ}
    (h : (l.lookup k).map (· w) = some i) : ∃ p ∈ l, p.1 = k ∧ p.2 w = i := by
  obtain ⟨c, hc, hi⟩ := Option.map_eq_some_iff.mp h
  obtain ⟨l₁, l₂, rfl, -⟩ := List.lookup_eq_some_iff.mp hc
  exact ⟨(k, c), by simp, rfl, hi⟩

/-- What the checked fields of an opcode are decoded to has that opcode and those fields. -/
theorem opFields_of_instrOf {i : Instr} {op : Nat} {w : Fields} (h : instrOf op w = some i) (hw : fieldsCanonical w = true)
    (hok : encodingReason op w none = none) : opFields i = some (op, w) ∧ i.isShortRow = (w.form == .short) := by
  unfold instrOf at h
  split at h
  next hs =>
    obtain ⟨p, hp, rfl, rfl⟩ := exists_mem_of_lookup_map h
    rw [← shortWord_of_short hs hw] at hok ⊢
    exact opFields_of_mem_ctorsShort p hp _ _ _ _ _ hok
  next hs =>
    obtain ⟨p, hp, rfl, rfl⟩ := exists_mem_of_lookup_map h
    rw [beq_false_of_ne hs]
    exact opFields_of_mem_ctors p hp w

theorem opAssigned_of_mem_ctors : ∀ p ∈ ctors, opAssigned p.1 = true := by
  refine List.all_eq_true.mp ?_
  simp only [ctors, List.all_append]
  rfl

theorem opAssigned_of_mem_ctorsShort : ∀ p ∈ ctorsShort, opAssigned p.1 = true := List.all_eq_true.mp rfl

theorem opAssigned_of_instrOf {i : Instr} {op : Nat} {w : Fields} (h : instrOf op w = some i) : opAssigned op = true := by
  unfold instrOf at h
  obtain ⟨p, hp, rfl, -⟩ := exists_mem_of_lookup_map h
  split at hp
  · exact opAssigned_of_mem_ctorsShort p hp
  · exact opAssigned_of_mem_ctors p hp

theorem opAssigned_lt {op : Nat} (h : opAssigned op = true) : op < 256 := by
  simp only [opAssigned, Bool.or_eq_true, Bool.and_eq_true, decide_eq_true_eq] at h
  omega

end Sys2Proof
end

section
/-!
Decoding and encoding undo each other on words that pass the checks of Table 3.11: O55 to O57.
-/
namespace Sys2Proof
open Sys2Proof.Machine

theorem encodeBits_of_opFields {i : Instr} {op : Nat} {w : Fields} (h : opFields i = some (op, w)) :
    encodeBits i = some (bitsOf (BitVec.ofNat 8 op) w, w.form.words) := by
  unfold encodeBits
  split
  · cases h
  · rw [h]; rfl

theorem wf_iff_of_opFields {i : Instr} {op : Nat} {w : Fields} (h : opFields i = some (op, w)) :
    i.wf = true ↔ i.isShortRow = (w.form == .short) ∧ encodingReason op w none = none ∧ fieldsCanonical w = true := by
  unfold Instr.wf
  rw [h]
  simp [and_assoc]

/-- What a decoded word's fields have passed (R71). -/
theorem decodeBits_eq_ok {b : BitVec 160} {i : Instr} {n : Nat} (h : decodeBits b = .ok i n) :
    encodingReason (opOf b).toNat (fieldsOf b) none = none ∧ instrOf (opOf b).toNat (fieldsOf b) = some i ∧
      n = (fieldsOf b).form.words := by
  unfold decodeBits at h
  dsimp only at h
  split at h
  · split at h
    · cases h
    · next hok =>
      split at h
      · next hi => cases h; exact ⟨hok, hi, rfl⟩
      · cases h
  · cases h

/-- A well-formed instruction's bits decode to it. -/
theorem decodeBits_bitsOf {i : Instr} {op : Nat} {w : Fields} (h : opFields i = some (op, w)) (hwf : i.wf = true) :
    decodeBits (bitsOf (BitVec.ofNat 8 op) w) = .ok i w.form.words := by
  obtain ⟨hrow, hok, hcanon⟩ := (wf_iff_of_opFields h).mp hwf
  have hi := instrOf_of_opFields h hrow
  have hop : (BitVec.ofNat 8 op).toNat = op := Nat.mod_eq_of_lt (opAssigned_lt (opAssigned_of_instrOf hi))
  unfold decodeBits
  dsimp only
  rw [opOf_bitsOf, hop, fieldsOf_bitsOf _ hcanon, opAssigned_of_instrOf hi, if_pos rfl, hok, hi]

/-- Settles O56: the bytes hold the bits, the bits the opcode and the fields, and these name the instruction. -/
theorem decodeOfEncodeIsTheInstruction : Obligations.DecodeOfEncodeIsTheInstruction := by
  intro i rest hsome hwf
  obtain ⟨⟨op, w⟩, h⟩ := Option.isSome_iff_exists.mp hsome
  obtain ⟨-, -, hcanon⟩ := (wf_iff_of_opFields h).mp hwf
  generalize hb : bitsOf (BitVec.ofNat 8 op) w = b
  have hfields : fieldsOf b = w := by rw [← hb, fieldsOf_bitsOf _ hcanon]
  have hencode : encode i = wordsOf b (fieldsOf b).form.words := by
    rw [encode, encodeBits_of_opFields h, hb, hfields]
  have hlow : (b.setWidth (32 * (fieldsOf b).form.words)).setWidth 160 = b := by
    rw [← bitsOf_fieldsOf, hfields, ← hb, opOf_bitsOf]
  rw [encodeBytes, hencode, decode_wordBytes b rest hlow, ← hb, decodeBits_bitsOf h hwf, hb, hfields, length_wordsOf]

/-- Settles O57: the decoded instruction's opcode and fields are those of the word, and these hold all of its bits. -/
theorem encodeOfDecodeIsTheWord : Obligations.EncodeOfDecodeIsTheWord := by
  intro b i n h
  obtain ⟨hok, hi, rfl⟩ := decodeBits_eq_ok h
  have hcanon := fieldsCanonical_fieldsOf b
  obtain ⟨hfields, hrow⟩ := opFields_of_instrOf hi hcanon hok
  refine ⟨(wf_iff_of_opFields hfields).mpr ⟨hrow, hok, hcanon⟩, _, encodeBits_of_opFields hfields, ?_⟩
  rw [BitVec.ofNat_toNat, BitVec.setWidth_eq, bitsOf_fieldsOf]

/-- Settles O55, by decoding each of the written words. -/
theorem writtenWordsDecode : Obligations.WrittenWordsDecode := by
  unfold Obligations.WrittenWordsDecode
  dsimp only
  decide

end Sys2Proof
end

section
/-!
Where a split goes on (R68, R296, R297): the next address under each sequencing selector, and GOIF's condition.
-/
namespace Sys2Proof.Machine

/-! ## Masks -/

theorem bit_zero (t : Nat) : bit 0 t = false := BitVec.getLsbD_zero

theorem bit_foldl_or (p : Nat → Bool) (n : Nat) {t : Nat} (ht : t < 64) :
    bit ((List.range n).foldl (fun acc t => if p t then acc ||| (1#64 <<< t) else acc) 0) t = (decide (t < n) && p t) := by
  induction n with
  | zero => simp
  | succ n ih =>
    rw [List.range_succ, List.foldl_append]
    simp only [List.foldl_cons, List.foldl_nil]
    by_cases htn : t = n
    · subst htn
      cases hp : p t <;> simp_all
    · have hlt : decide (t < n + 1) = decide (t < n) := by simp; omega
      rw [hlt, ← ih]
      split
      · simp [BitVec.getLsbD_one]; omega
      · rfl

/-- A mask of threads holds those of its test. -/
theorem bit_maskOf (p : Nat → Bool) {t : Nat} (ht : t < 64) : bit (maskOf p) t = p t := by
  rw [maskOf, bit_foldl_or p 64 ht, decide_eq_true ht, Bool.true_and]

/-- Masks are the same when they hold the same threads. -/
theorem mask_ext {a b : Mask} (h : ∀ t < 64, bit a t = bit b t) : a = b :=
  BitVec.eq_of_getLsbD_eq fun t ht => h t ht

theorem Ctx.bit_where (c : Ctx) (n : Nat) (neg : Bool) {t : Nat} (ht : t < 64) :
    bit (c.where_ n neg) t = (bit c.act t && (readPred c.f n t != neg)) := bit_maskOf _ ht

/-- Only active threads take SPLIT's branch. -/
theorem Ctx.taken_and_act (c : Ctx) : c.taken &&& c.act = c.taken := by
  refine mask_ext fun t ht => ?_
  have hand : bit (c.taken &&& c.act) t = (bit c.taken t && bit c.act t) := BitVec.getLsbD_and
  rw [hand, Ctx.taken, c.bit_where _ _ ht]
  cases bit c.act t <;> simp

/-! ## GOIF's condition -/

theorem fld_eq_extractLsb' {n : Nat} (x : BitVec n) (hi lo : Nat) : fld x hi lo = (x.extractLsb' lo (hi + 1 - lo)).toNat :=
  (BitVec.extractLsb'_toNat ..).symm

/-- GOIF's condition asks its predicate of some thread, of every active thread, or of none, or a uniform register (R68). -/
theorem Ctx.goif_iff (c : Ctx) :
    let n := (c.w.x.extractLsb' 0 7).toNat
    let yes (t : Nat) : Bool := bit c.act t && (readPred c.f n t != c.w.x.getLsbD 7)
    ((c.w.x.extractLsb' 8 2).toNat = 0 → (c.goif = true ↔ ∃ t < 64, yes t = true)) ∧
      ((c.w.x.extractLsb' 8 2).toNat = 1 → (c.goif = true ↔ ∀ t < 64, bit c.act t = true → yes t = true)) ∧
      ((c.w.x.extractLsb' 8 2).toNat = 2 → (c.goif = true ↔ ∀ t < 64, yes t = false)) ∧
      ((c.w.x.extractLsb' 8 2).toNat = 3 → (c.goif = true ↔ (readUni c.g c.f n ≠ 0 ↔ c.w.x.getLsbD 7 = false))) := by
  intro n yes
  have hbit : ∀ t < 64, bit (c.where_ n (c.w.x.getLsbD 7)) t = yes t := fun t ht => c.bit_where _ _ ht
  have hnone : c.where_ n (c.w.x.getLsbD 7) = 0 ↔ ∀ t < 64, yes t = false := by
    refine ⟨fun h t ht => ?_, fun h => mask_ext fun t ht => ?_⟩
    · rw [← hbit t ht, h, bit_zero]
    · rw [hbit t ht, h t ht, bit_zero]
  have hall : c.where_ n (c.w.x.getLsbD 7) = c.act ↔ ∀ t < 64, bit c.act t = true → yes t = true := by
    refine ⟨fun h t ht hact => ?_, fun h => mask_ext fun t ht => ?_⟩
    · rw [← hbit t ht, h, hact]
    · rw [hbit t ht]
      cases hact : bit c.act t
      · simp [yes, hact]
      · exact h t ht hact
  unfold Ctx.goif
  simp only [fld_eq_extractLsb', Nat.reduceAdd, Nat.reduceSub]
  refine ⟨fun h => ?_, fun h => ?_, fun h => ?_, fun h => ?_⟩ <;> simp only [h]
  · rw [bne_iff_ne, Ne, hnone]
    simp
  · exact beq_iff_eq.trans hall
  · exact beq_iff_eq.trans hnone
  · cases c.w.x.getLsbD 7 <;> simp [n]

/-! ## The selectors -/

theorem Ctx.next_eq (c : Ctx) : c.next = c.pc + 4 * BitVec.ofNat 64 c.w.form.words := by
  rw [Ctx.next, BitVec.ofNat_mul]; rfl

theorem Ctx.sequence_next {c : Ctx} (h : c.w.seq = 0) : c.sequence = goFlow c.sige c.next := by
  unfold Ctx.sequence
  rw [h]; rfl

theorem Ctx.sequence_jump {c : Ctx} (h : c.w.seq = 1) : c.sequence = goFlow c.sige (c.pc + wordOffset c.w.x) := by
  unfold Ctx.sequence
  rw [h]; rfl

theorem Ctx.sequence_goif {c : Ctx} (h : c.w.seq = 2) :
    c.sequence = goFlow c.sige (if c.goif then c.pc + wordOffset (c.w.x.extractLsb' 10 16) else c.next) := by
  unfold Ctx.sequence
  rw [h]; rfl

theorem Ctx.sequence_split {c : Ctx} (h : c.w.seq = 3) : c.sequence = c.divideBy c.taken := by
  unfold Ctx.sequence
  rw [h]; rfl

/-- LOOP counts its register down, and branches until that is 0 (R68). -/
theorem Ctx.sequence_loop {c : Ctx} (h : c.w.seq = 4) :
    let n := (c.w.x.extractLsb' 0 6).toNat
    let v := readUni c.g c.f n - 1
    c.sequence = { goFlow c.sige (if v = 0 then c.next else c.pc + wordOffset (c.w.x.extractLsb' 6 20)) with
      writes := [⟨.uni n, v⟩] } := by
  intro n v
  have hn : fld c.w.x 5 0 = n := fld_eq_extractLsb' ..
  unfold Ctx.sequence
  rw [h]
  change { goFlow c.sige (if readUni c.g c.f (fld c.w.x 5 0) - 1 != 0 then _ else _) with
    writes := [⟨.uni (fld c.w.x 5 0), readUni c.g c.f (fld c.w.x 5 0) - 1⟩] } = _
  rw [hn]
  by_cases hv : v = 0
  · rw [if_pos hv, if_neg (by simpa [v] using hv)]
  · rw [if_neg hv, if_pos (by simpa [v] using hv)]

theorem startSig_eq (rc x : DWord) : startSig rc x = if x = rc then joinSig else 0 := by
  simp [startSig]

/-- SPLIT divides a split only if some of its active threads branch and some do not (R297). -/
theorem Ctx.divideBy_cases (c : Ctx) {T : Mask} (hT : T &&& c.act = T) :
    let tgt := c.pc + litOffset c.w.lit false
    let rc := c.pc + litOffset c.w.lit true
    (T = 0 → c.divideBy T = goFlow c.sige c.next fun _ => startSig rc c.next) ∧
      (T ≠ 0 → c.act &&& ~~~T = 0 → c.divideBy T = goFlow c.sige tgt fun _ => startSig rc tgt) ∧
      (T ≠ 0 → c.act &&& ~~~T ≠ 0 → c.divideBy T =
        { run := fun f => f.divide c.sige false rc rc
            [{ mask := c.act &&& ~~~T, pc := c.next, sig := startSig rc c.next }, { mask := T, pc := tgt, sig := startSig rc tgt }]
          kids := 2 }) := by
  unfold Ctx.divideBy
  dsimp only
  rw [hT]
  refine ⟨fun h => ?_, fun h hno => ?_, fun h hno => ?_⟩
  · rw [if_pos (by simpa using h)]
  · rw [if_neg (by simpa using h), if_pos (by simpa using hno)]
  · rw [if_neg (by simpa using h), if_neg (by simpa using hno)]

theorem goFlow_ends (sige : Bool) (a : DWord) (s : Word) :
    (goFlow sige a fun _ => s).kids = 0 ∧ ∃ g, (goFlow sige a fun _ => s).dest = some (a, g) ∧ (∀ v, g v = s) ∧
      ∀ f, (goFlow sige a fun _ => s).run f = { f with fsig := s }.goTo sige a :=
  ⟨rfl, _, rfl, fun _ => rfl, fun _ => rfl⟩

end Sys2Proof.Machine
end

section
/-!
A division of a whole split and its join (R290 to R293, R297): the fibre while each child runs, and after both have arrived.
-/
namespace Sys2Proof.Machine

/-- A new entry takes the lowest free index and hardware entry (R290). -/
theorem addSplit_of_free {l : List Split} {i k : Nat} (hi : freeIndex l = i) (hk : freeHw l = some k) (y : Split) :
    addSplit l y = l ++ [{ y with idx := i, hw := some k }] := by
  unfold addSplit makeRoom
  rw [hk]
  dsimp only
  rw [hi, hk]

theorem addSplit_root {p : Split} (hp : p.idx = 0) (hw : p.hw = some 0) (y : Split) :
    addSplit [p] y = [p, { y with idx := 1, hw := some 1 }] :=
  addSplit_of_free (by simp [freeIndex, hp, List.range, List.range.loop]) (by simp [freeHw, hw, List.range, List.range.loop]) y

theorem addSplit_second {p q : Split} (hp : p.idx = 0) (hw : p.hw = some 0) (hq : q.idx = 1) (hqw : q.hw = some 1) (y : Split) :
    addSplit [p, q] y = [p, q, { y with idx := 2, hw := some 2 }] :=
  addSplit_of_free (by simp [freeIndex, hp, hq, List.range, List.range.loop])
    (by simp [freeHw, hw, hqw, List.range, List.range.loop]) y

/-- A split that runs undivided: the root, in hardware entry 0. -/
def Split.whole (x : Split) : Split := { x with idx := 0, par := noParent, rpc := noRpc, hw := some 0, st := .running }

theorem Split.eq_whole {x : Split} (hst : x.st = .running) (hidx : x.idx = 0) (hpar : x.par = noParent) (hrpc : x.rpc = noRpc)
    (hhw : x.hw = some 0) : x = x.whole := by
  rw [Split.whole, ← hhw, ← hst, ← hidx, ← hpar, ← hrpc]

/-- The root as the parent of n children that it waits for at an address. -/
def Split.awaiting (x : Split) (sig : Word) (rc : DWord) (n : Nat) : Split :=
  { x.whole with st := .parent, sig, pc := rc, kids := n, miss := false, yld := false, again := false, park := .none }

/-- Child i of the root, at an address. -/
def Child.entry (k : Child) (i : Nat) (rc pc : DWord) (st : SplitState) : Split :=
  { rootSplit k.mask pc st with idx := i, rpc := rc, par := 0, sig := k.sig, hw := some i }

variable (f : Fibre) (x : Split) (a b : Child) (rc : DWord)

/-- The root has divided, and its first child runs. -/
def Fibre.firstRuns : Fibre :=
  { f with
    splits := [x.awaiting f.fsig rc 2, a.entry 1 rc a.pc .running, b.entry 2 rc b.pc .ready]
    fsig := a.sig
    last := 1 }

/-- The first child has arrived, and the second runs. -/
def Fibre.secondRuns : Fibre :=
  { f with
    splits := [x.awaiting f.fsig rc 1, a.entry 1 rc rc .arrived, b.entry 2 rc b.pc .running]
    fsig := b.sig
    last := 2 }

/-- Both children have arrived and are about to fuse. -/
def Fibre.bothArrived : Fibre :=
  { f.secondRuns x a b rc with
    splits := [x.awaiting f.fsig rc 0, a.entry 1 rc rc .arrived, b.entry 2 rc rc .arrived] }

/-- The children have fused, and the root runs on from where they met. -/
def Fibre.joined : Fibre :=
  { f with
    splits := [{ x.awaiting joinSig rc 0 with st := .running }]
    fsig := joinSig
    last := 0 }

variable {f x a b rc}

/-- A root divides into two children that have a way to go: the first of them runs (R292, R297). -/
theorem Fibre.divide_whole (hf : f.splits = [x.whole]) (ha : a.pc ≠ rc) (hb : b.pc ≠ rc) (ha' : a.park = .none)
    (hb' : b.park = .none) (sige : Bool) : f.divide sige false rc rc [a, b] = .ok (f.firstRuns x a b rc) := by
  obtain ⟨amask, apc, asig, apark⟩ := a
  obtain ⟨bmask, bpc, bsig, bpark⟩ := b
  obtain rfl : apark = .none := ha'
  obtain rfl : bpark = .none := hb'
  have hrun : f.run? = some x.whole := by rw [Fibre.run?, hf]; rfl
  have ha : (apc == rc) = false := beq_false_of_ne ha
  have hb : (bpc == rc) = false := beq_false_of_ne hb
  have hids : childIndices [x.whole] 2 = [1, 2] := rfl
  unfold Fibre.divide Fibre.suspend
  rw [hrun]
  dsimp only [List.length_cons, List.length_nil]
  rw [hf, hids]
  simp only [List.zip, List.zipWith, bne, ha, hb, Bool.not_false, Bool.false_and, Bool.true_and, List.filter, List.find?]
  simp [modSplit, Split.whole, addSplit_root, addSplit_second, Fibre.start, Fibre.firstRuns, fetchBack, findSplit, rootSplit,
    Split.awaiting, Child.entry, Park.kept]

/-- A running split that reaches its reconvergence address arrives there (R293). -/
theorem Fibre.goTo_rpc {y : Split} (hrun : f.run? = some y) (hrpc : y.rpc = rc) (hrc : rc ≠ noRpc) (sige : Bool) :
    f.goTo sige rc =
      { f with splits := modSplit f.splits y.idx fun z => { z with pc := rc, again := false } }.arrive sige y.idx := by
  unfold Fibre.goTo
  rw [hrun]
  dsimp only
  rw [if_pos (by simpa [hrpc] using hrc)]

theorem Fibre.goTo_firstRuns (hrc : rc ≠ noRpc) (sige : Bool) :
    (f.firstRuns x a b rc).goTo sige rc = .ok (f.secondRuns x a b rc) :=
  Fibre.goTo_rpc (y := a.entry 1 rc a.pc .running) rfl rfl hrc sige

/-- The children fuse to a split with all their threads and the signature of the join (R293, R299). -/
theorem Fibre.fuse_bothArrived (hrc : rc ≠ noRpc) (hmask : a.mask ||| b.mask = x.mask) (sige : Bool) (fuel : Nat) :
    Fibre.fuse sige (fuel + 1) (f.bothArrived x a b rc) 0 = .ok (f.joined x rc) := by
  have hfind : findSplit (f.bothArrived x a b rc).splits 0 = some (x.awaiting f.fsig rc 0) := rfl
  have hkids : (f.bothArrived x a b rc).splits.filter (fun y => y.par == 0 && y.st == .arrived) =
      [a.entry 1 rc rc .arrived, b.entry 2 rc rc .arrived] := rfl
  have hleft : fetchBack ((f.bothArrived x a b rc).splits.filter fun y => !(y.par == 0 && y.st == .arrived)) 0 =
      [x.awaiting f.fsig rc 0] := rfl
  have hunion : [a.entry 1 rc rc .arrived, b.entry 2 rc rc .arrived].foldl (fun m y => m ||| y.mask) 0 = x.mask := by
    rw [← hmask]
    exact congrArg (· ||| b.mask) BitVec.zero_or
  have hall : (x.awaiting f.fsig rc 0).mask = x.mask := rfl
  have hmiss : (x.awaiting f.fsig rc 0).miss = false := rfl
  have hon : ((x.awaiting f.fsig rc 0).pc == (x.awaiting f.fsig rc 0).rpc) = false := beq_false_of_ne hrc
  unfold Fibre.fuse
  rw [hfind]
  dsimp only
  rw [hkids, hunion, hleft, hall, hmiss, hon, if_neg (by simp), if_neg (by simp), if_neg (by simp)]
  simp [Fibre.bothArrived, Fibre.secondRuns, Fibre.joined, modSplit, Split.awaiting, Split.whole]

theorem Fibre.goTo_secondRuns (hrc : rc ≠ noRpc) (hmask : a.mask ||| b.mask = x.mask) (sige : Bool) :
    (f.secondRuns x a b rc).goTo sige rc = .ok (f.joined x rc) :=
  (Fibre.goTo_rpc (y := b.entry 2 rc b.pc .running) rfl rfl hrc sige).trans (Fibre.fuse_bothArrived hrc hmask sige 127)

end Sys2Proof.Machine
end

section
/-!
Sequencing and division (R68, R290 to R293, R296, R297): O41.
-/
namespace Sys2Proof.Machine

/-- Settles O41: each selector by the flow that it gives, and the tree of two children by the fibre after each of its steps. -/
theorem sequencingAndDivision : Obligations.SequencingAndDivision := by
  refine ⟨fun c => ?_, fun f x a b rc sige hsplits hst hidx hpar hrpc hhw hrc hmask ha hb hap hbp => ?_⟩
  · obtain ⟨hany, hall, hnone, huni⟩ := c.goif_iff
    refine ⟨fun h => ?_, fun h => ?_, fun h => ?_, fun h => ?_, hany, hall, hnone, huni, fun h => ⟨c.taken, fun t ht => ?_, ?_⟩⟩
    · rw [Ctx.sequence_next h, c.next_eq]; exact ⟨rfl, rfl⟩
    · rw [Ctx.sequence_jump h]; exact ⟨rfl, rfl⟩
    · rw [Ctx.sequence_goif h]; exact ⟨rfl, rfl⟩
    · rw [Ctx.sequence_loop h]; exact ⟨rfl, rfl⟩
    · rw [Ctx.taken, c.bit_where _ _ ht, fld_eq_extractLsb']
    · obtain ⟨hno, hyes, hboth⟩ := c.divideBy_cases c.taken_and_act
      rw [Ctx.sequence_split h, ← c.next_eq]
      intro next tgt rc sg ends
      have hsig (y : DWord) : sg y = startSig rc y := (startSig_eq rc y).symm
      have hends (y : DWord) (hy : c.divideBy c.taken = goFlow c.sige y fun _ => startSig rc y) : ends y := by
        unfold ends
        rw [hy, hsig]
        exact goFlow_ends ..
      refine ⟨fun h => hends _ (hno h), fun h h' => hends _ (hyes h h'), fun h h' => ?_⟩
      rw [hboth h h', hsig, hsig]
      exact ⟨rfl, rfl, fun _ => rfl⟩
  · have hf : f.splits = [x.whole] := by rw [hsplits, ← Split.eq_whole hst hidx hpar hrpc hhw]
    exact ⟨f.firstRuns x a b rc, f.secondRuns x a b rc, f.joined x rc, Fibre.divide_whole hf ha hb hap hbp sige, rfl, rfl,
      Fibre.goTo_firstRuns hrc sige, rfl, rfl, Fibre.goTo_secondRuns hrc hmask sige, rfl, rfl, rfl⟩

end Sys2Proof.Machine
end

section
/-!
Exact values of floating-point operands (R93, R94, R108): the sign, products, sums rounded once, and the order.
-/
namespace Sys2Proof.Machine

/-! ## The sign -/

@[simp] theorem FVal.opposite_opposite (x : FVal) : x.opposite.opposite = x := by cases x <;> simp [FVal.opposite]

/-- Adding the weight of the sign bit leaves the bits below it and turns it over. -/
theorem Fmt.fields_add_signBit (f : Fmt) (a : Nat) :
    f.sign (a + 2 ^ (f.low + f.fb + f.eb)) = !f.sign a ∧ f.expo (a + 2 ^ (f.low + f.fb + f.eb)) = f.expo a ∧
      f.frac (a + 2 ^ (f.low + f.fb + f.eb)) = f.frac a := by
  refine ⟨?_, ?_, ?_⟩
  · rw [Fmt.sign, Fmt.sign, Nat.shiftRight_eq_div_pow, Nat.shiftRight_eq_div_pow, Nat.add_div_right _ (by positivity)]
    rcases Nat.mod_two_eq_zero_or_one (a / 2 ^ (f.low + f.fb + f.eb)) with h | h <;> simp [Nat.succ_mod_two_eq_one_iff, h]
  · rw [Fmt.expo, Fmt.expo, Nat.shiftRight_eq_div_pow, Nat.shiftRight_eq_div_pow, Nat.pow_add _ (f.low + f.fb),
      Nat.add_mul_div_left _ _ (by positivity), Nat.add_mod_right]
  · rw [Fmt.frac, Fmt.frac, Nat.shiftRight_eq_div_pow, Nat.shiftRight_eq_div_pow, Nat.add_assoc, Nat.pow_add _ f.low,
      Nat.add_mul_div_left _ _ (by positivity), Nat.pow_add _ f.fb, Nat.add_mul_mod_self_left]

/-- fNeg turns the sign over and leaves the other fields. -/
theorem Fmt.fields_fNeg (f : Fmt) (a : Nat) :
    f.sign (fNeg f a) = !f.sign a ∧ f.expo (fNeg f a) = f.expo a ∧ f.frac (fNeg f a) = f.frac a := by
  unfold fNeg
  cases hs : f.sign a
  · rw [if_neg (by simp), ← hs]
    exact f.fields_add_signBit a
  · have hle : 2 ^ (f.low + f.fb + f.eb) ≤ a := by
      by_contra hlt
      rw [Fmt.sign, Nat.shiftRight_eq_div_pow, Nat.div_eq_of_lt (Nat.lt_of_not_le hlt)] at hs
      exact absurd hs (by decide)
    obtain ⟨hsign, hexpo, hfrac⟩ := f.fields_add_signBit (a - 2 ^ (f.low + f.fb + f.eb))
    rw [Nat.sub_add_cancel hle] at hsign hexpo hfrac
    rw [if_pos rfl, hexpo, hfrac, ← hs, hsign, Bool.not_not]
    exact ⟨rfl, rfl, rfl⟩

theorem Fmt.value_fNeg (f : Fmt) (a : Nat) : f.value (fNeg f a) = (f.value a).opposite := by
  obtain ⟨hsign, hexpo, hfrac⟩ := f.fields_fNeg a
  unfold Fmt.value
  rw [hsign, hexpo, hfrac]
  dsimp only
  split_ifs <;> rfl

/-- The zeros of both signs. -/
theorem Fmt.value_pack_not (f : Fmt) (neg : Bool) : f.value (f.pack (!neg) 0 0) = (f.value (f.pack neg 0 0)).opposite := by
  have hsign : f.sign (f.pack false 0 0) = false := by simp [Fmt.sign, Fmt.pack]
  have hneg : f.pack true 0 0 = fNeg f (f.pack false 0 0) := by
    rw [fNeg, hsign]
    simp only [Fmt.pack, Bool.false_eq_true, if_true, if_false]
    ring
  cases neg
  · rw [Bool.not_false, hneg, f.value_fNeg]
  · rw [Bool.not_true, hneg, f.value_fNeg, FVal.opposite_opposite]

/-- An operand of opposite sign has the opposite value, flushed or not (R96, R134). -/
theorem Fmt.value_flushIn_fNeg (f : Fmt) (ftz : Bool) (a : Nat) :
    f.value (f.flushIn ftz (fNeg f a)) = (f.value (f.flushIn ftz a)).opposite := by
  obtain ⟨hsign, hexpo, hfrac⟩ := f.fields_fNeg a
  unfold Fmt.flushIn Fmt.subnormal
  rw [hsign, hexpo, hfrac]
  split
  · exact f.value_pack_not _
  · exact f.value_fNeg a

/-! ## Exact sums -/

/-- Two changes of unit make one. -/
theorem two_pow_sub_mul {a b c : Int} (hab : b ≤ a) (hbc : c ≤ b) :
    (2 : Int) ^ (a - b).toNat * 2 ^ (b - c).toNat = 2 ^ (a - c).toNat := by
  rw [← pow_add]
  congr 1
  omega

/-- The signed dyadic number of a finite value. -/
def FVal.dy : FVal → Dy
  | .fin n m e => { m := if n then -(m : Int) else m, e }
  | _ => { m := 0, e := 0 }

/-- The least exponent of a list of values, at most k. -/
def leastEx (k : Int) (l : List FVal) : Int := l.foldl (fun q v => min q v.ex) k

theorem leastEx_le (k : Int) (l : List FVal) : leastEx k l ≤ k := by
  induction l generalizing k with
  | nil => exact le_rfl
  | cons v l ih => exact (ih _).trans (min_le_left ..)

theorem FVal.units_eq {x : FVal} (hx : x.isFin = true) (q : Int) :
    x.units q = x.dy.m * 2 ^ (x.ex - q).toNat ∧ x.dy.e = x.ex := by
  cases x with
  | fin n m e => exact ⟨rfl, rfl⟩
  | nan b => cases hx
  | inf n => cases hx

/-- Addends brought to their least exponent. -/
theorem Dy.foldl_add (a : Dy) {l : List FVal} (hl : ∀ v ∈ l, v.isFin = true) :
    (l.map FVal.dy).foldl Dy.add a =
      { m := a.m * 2 ^ (a.e - leastEx a.e l).toNat + (l.map (FVal.units (leastEx a.e l))).sum, e := leastEx a.e l } := by
  induction l generalizing a with
  | nil => simp [leastEx]
  | cons v l ih =>
    obtain ⟨hv, hl⟩ := List.forall_mem_cons.1 hl
    have hle : leastEx (min a.e v.ex) l ≤ min a.e v.ex := leastEx_le _ l
    obtain ⟨hunits, he⟩ := v.units_eq hv (leastEx (min a.e v.ex) l)
    rw [List.map_cons, List.foldl_cons, ih _ hl, List.map_cons, List.sum_cons]
    simp only [Dy.add, he, show leastEx a.e (v :: l) = leastEx (min a.e v.ex) l from rfl]
    rw [hunits, add_mul, mul_assoc, mul_assoc, two_pow_sub_mul (min_le_left ..) hle, two_pow_sub_mul (min_le_right ..) hle,
      add_assoc]

/-! ## Sums of terms -/

theorem FVal.isZero_fin (neg n : Bool) (m : Nat) (e : Int) : (FVal.fin n m e).isZero neg = (decide (m = 0) && n == neg) := by
  cases m <;> simp [FVal.isZero]

/-- Values without a sum: a NaN, or infinities of both signs (R108). -/
def noSum (l : List FVal) : Bool := l.any FVal.isNaN || (l.contains (.inf true) && l.contains (.inf false))

theorem noSum_pair (x y : FVal) :
    noSum [x, y] = (x.isNaN || y.isNaN || (x.isInf && y.isInf && x.neg != y.neg)) := by
  cases x with
  | nan b => rfl
  | fin n m e => cases y with
    | inf k => cases k <;> rfl
    | _ => rfl
  | inf n => cases y with
    | inf k => cases n <;> cases k <;> rfl
    | _ => cases n <;> rfl

theorem FVal.term_eq_nan_iff (x : FVal) : x.term = .nan ↔ x.isNaN = true := by cases x <;> simp [FVal.term, FVal.isNaN]
theorem FVal.term_eq_inf_iff (x : FVal) (n : Bool) : x.term = .inf n ↔ x = .inf n := by cases x <;> simp [FVal.term]

theorem contains_nan_map_term (l : List FVal) : (l.map FVal.term).contains .nan = l.any FVal.isNaN := by
  rw [Bool.eq_iff_iff, List.contains_iff_mem, List.mem_map, List.any_eq_true]
  exact exists_congr fun x => and_congr_right fun _ => x.term_eq_nan_iff

theorem contains_inf_map_term (l : List FVal) (n : Bool) : (l.map FVal.term).contains (.inf n) = l.contains (.inf n) := by
  rw [Bool.eq_iff_iff, List.contains_iff_mem, List.contains_iff_mem, List.mem_map]
  exact ⟨fun ⟨x, hx, h⟩ => (x.term_eq_inf_iff n).1 h ▸ hx, fun h => ⟨_, h, rfl⟩⟩

theorem Term.sum_of_noSum {l : List FVal} (h : noSum l = true) (rm : Nat) : Term.sum rm (l.map FVal.term) = .nan := by
  unfold Term.sum
  rw [contains_nan_map_term, contains_inf_map_term, contains_inf_map_term]
  exact if_pos h

theorem Term.sum_of_inf {l : List FVal} {n : Bool} (h : noSum l = false) (hn : l.contains (.inf n) = true) (rm : Nat) :
    Term.sum rm (l.map FVal.term) = .inf n := by
  obtain ⟨hnan, hboth⟩ := Bool.or_eq_false_iff.1 h
  unfold Term.sum
  rw [contains_nan_map_term, contains_inf_map_term, contains_inf_map_term, hnan, hboth]
  cases n with
  | true => rw [hn]; rfl
  | false =>
    rw [hn, Bool.and_true] at hboth
    rw [hn, hboth]
    rfl

section
variable {l : List FVal} (h : ∀ v ∈ l, v.isFin = true)
include h

theorem any_isNaN_of_isFin : l.any FVal.isNaN = false :=
  List.any_eq_false.2 fun v hv hnan => by
    have hfin := h v hv
    cases v with
    | nan b => cases hfin
    | _ => cases hnan

theorem contains_inf_of_isFin (n : Bool) : l.contains (.inf n) = false :=
  Bool.eq_false_iff.2 fun hmem => Bool.false_ne_true (h _ (List.contains_iff_mem.1 hmem))

theorem map_dy_of_isFin {F : Term → Dy} (hF : ∀ n d, F (.num n d) = d) : (l.map FVal.term).map F = l.map FVal.dy := by
  rw [List.map_map]
  refine List.map_congr_left fun v hv => ?_
  have hfin := h v hv
  cases v with
  | fin n m e => exact hF ..
  | _ => cases hfin

theorem all_isZero_of_isFin {p : Term → Bool} {neg : Bool} (hp : ∀ n d, p (.num n d) = (n == neg && d.m == 0)) :
    (l.map FVal.term).all p = l.all (FVal.isZero neg) := by
  rw [List.all_map, Bool.eq_iff_iff, List.all_eq_true, List.all_eq_true]
  refine forall₂_congr fun v hv => ?_
  have hfin := h v hv
  cases v with
  | fin n m e =>
    rw [Function.comp_apply, FVal.term, hp, FVal.isZero_fin]
    cases n <;> simp [Bool.and_comm]
  | _ => cases hfin

/-- A sum of finite values, exact, as it is rounded (R95, R96). -/
theorem Term.round_sum_of_isFin (f : Fmt) (r : Rounding) :
    Term.sum r.rm (l.map FVal.term) ≠ .nan ∧ (Term.sum r.rm (l.map FVal.term)).round f r = roundSum f r l := by
  have hsum : Dy.sum (l.map FVal.dy) = { m := (l.map (FVal.units (leastEx 0 l))).sum, e := leastEx 0 l } := by
    rw [Dy.sum, Dy.foldl_add _ h, zero_mul, zero_add]
  unfold Term.sum
  rw [contains_nan_map_term, contains_inf_map_term, contains_inf_map_term, any_isNaN_of_isFin h,
    contains_inf_of_isFin h, contains_inf_of_isFin h, map_dy_of_isFin h fun _ _ => rfl, hsum]
  dsimp only
  rw [all_isZero_of_isFin h fun _ _ => rfl, all_isZero_of_isFin h fun _ _ => rfl]
  unfold roundSum
  rw [show l.foldl (fun q v => min q v.ex) 0 = leastEx 0 l from rfl]
  simp only [Bool.false_and, Bool.or_false, Bool.false_eq_true, if_false]
  split
  · next hzero => exact ⟨Term.noConfusion, by rw [Term.round, hzero]; rfl⟩
  · next hzero => exact ⟨Term.noConfusion, rfl⟩

end

/-! ## Products -/

theorem FVal.isInf_inf (n : Bool) : (FVal.inf n).isInf = true := rfl
theorem FVal.neg_inf (n : Bool) : (FVal.inf n).neg = n := rfl

theorem FVal.product_fin (n k : Bool) (m d : Nat) (e g : Int) :
    (FVal.fin n m e).product (.fin k d g) = (FVal.fin n m e).times (.fin k d g) := by
  simp [FVal.product, FVal.isNaN, FVal.isInf, infTimesZero]

/-- The exact product of two terms is that of their values (R108). -/
theorem FVal.term_mul (x y : FVal) : x.term.mul y.term = (x.product y).term := by
  cases x with
  | nan b => rfl
  | inf n =>
    cases y with
    | nan b => rfl
    | inf k => rfl
    | fin k d g =>
      cases d with
      | zero => cases k <;> rfl
      | succ d => cases k <;> rfl
  | fin n m e =>
    cases y with
    | nan b => rfl
    | inf k =>
      cases m with
      | zero => cases n <;> rfl
      | succ m => cases n <;> cases k <;> rfl
    | fin k d g =>
      rw [FVal.product_fin]
      cases n <;> cases k <;> simp [FVal.term, Term.mul, FVal.times, Dy.mul]

/-- Values that are neither NaN nor infinite. -/
theorem FVal.exists_fin_of_finite {x y : FVal} (hnan : (x.isNaN || y.isNaN) = false) (hinf : (x.isInf || y.isInf) = false) :
    ∃ n m e k d g, x = .fin n m e ∧ y = .fin k d g := by
  cases x with
  | fin n m e =>
    cases y with
    | fin k d g => exact ⟨n, m, e, k, d, g, rfl, rfl⟩
    | nan b => cases hnan
    | inf k => cases hinf
  | nan b => cases hnan
  | inf n => cases hinf

theorem FVal.product_of_nan {x y : FVal} (h : (x.isNaN || y.isNaN) = true) : x.product y = .nan false := by
  rw [FVal.product, h, Bool.true_or, if_pos rfl]

theorem FVal.product_of_infTimesZero {x y : FVal} (h : infTimesZero x y = true) : x.product y = .nan false := by
  rw [FVal.product, h, Bool.or_true, if_pos rfl]

theorem FVal.product_of_isInf {x y : FVal} (hnan : (x.isNaN || y.isNaN) = false) (hzero : infTimesZero x y = false)
    (hinf : (x.isInf || y.isInf) = true) : x.product y = .inf (x.neg != y.neg) := by
  rw [FVal.product, hnan, hzero, hinf]
  rfl

theorem FVal.product_of_finite {x y : FVal} (hnan : (x.isNaN || y.isNaN) = false) (hinf : (x.isInf || y.isInf) = false) :
    x.product y = x.times y ∧ (x.times y).isFin = true := by
  obtain ⟨n, m, e, k, d, g, rfl, rfl⟩ := FVal.exists_fin_of_finite hnan hinf
  exact ⟨FVal.product_fin .., rfl⟩

/-- A product without a value, or an addend that is NaN, leaves a fused product without a sum (R108). -/
theorem noSum_product {x y z : FVal} (h : (x.isNaN || y.isNaN || z.isNaN) = true ∨ infTimesZero x y = true) :
    noSum [x.product y, z] = true := by
  rw [noSum_pair]
  rcases h with h | h
  · rcases Bool.or_eq_true_iff.1 h with h | h
    · rw [FVal.product_of_nan h]
      rfl
    · rw [h, Bool.or_true, Bool.true_or]
  · rw [FVal.product_of_infTimesZero h]
    rfl

/-! ## The order (R135, R137) -/

theorem dyLt_eq (m : Nat) (e : Int) (n : Nat) (f : Int) :
    dyLt m e n f = decide (m * 2 ^ (e - min e f).toNat < n * 2 ^ (f - min e f).toNat) := by
  unfold dyLt
  rcases le_total e f with h | h
  · rw [min_eq_left h, sub_self, Int.toNat_zero, pow_zero, mul_one, if_pos h]
  · rw [min_eq_right h, sub_self, Int.toNat_zero, pow_zero, mul_one]
    split
    · next hle =>
      obtain rfl : e = f := le_antisymm hle h
      simp
    · rfl

/-- The order of two signed magnitudes in one unit, as the model decides it from their signs. -/
theorem signed_lt (n k : Bool) (a b : Nat) :
    decide ((if n then -(a : Int) else a) < if k then -(b : Int) else b) =
      if a = 0 && b = 0 then false else if a = 0 then !k else if b = 0 then n else if n != k then n
      else if n then decide (b < a) else decide (a < b) := by
  by_cases ha : a = 0
  · cases k <;> simp [ha, Nat.pos_iff_ne_zero]
  by_cases hb : b = 0
  · cases n <;> simp [ha, hb, Nat.pos_iff_ne_zero]
  cases n with
  | false => cases k <;> simp [ha, hb]
  | true =>
    cases k with
    | false =>
      simp [ha, hb]
      omega
    | true => simp [ha, hb]

/-- The order of finite values is that of their signed magnitudes in one unit. -/
theorem fLess_fin (zeros n k : Bool) (m d : Nat) (e g : Int) :
    fLess zeros (.fin n m e) (.fin k d g) =
      (decide ((FVal.fin n m e).units (min e g) < (FVal.fin k d g).units (min e g)) ||
        (zeros && (FVal.fin n m e).isZero true && (FVal.fin k d g).isZero false)) := by
  have hunits (n : Bool) (m i : Nat) :
      (if n then -(m : Int) else m) * 2 ^ i = if n then -((m * 2 ^ i : Nat) : Int) else (m * 2 ^ i : Nat) := by
    cases n <;> simp
  have hzero (m i : Nat) : m * 2 ^ i = 0 ↔ m = 0 := by simp
  simp only [FVal.units, hunits, signed_lt, hzero, FVal.isZero_fin, fLess, dyLt_eq]
  rw [min_comm g e]
  by_cases hm : m = 0
  · by_cases hd : d = 0 <;> simp [hm, hd]
  · simp [hm]

/-- The order of values, and −0 below +0 where the zeros count (R135, R137). -/
theorem fLess_eq (zeros : Bool) (x y : FVal) :
    fLess zeros x y = (x.order y == some .lt || (zeros && x.isZero true && y.isZero false)) := by
  cases x with
  | nan b => simp [fLess, FVal.order, FVal.isZero]
  | inf n =>
    cases y with
    | nan b => simp [fLess, FVal.order, FVal.isZero]
    | inf k => cases n <;> cases k <;> simp [fLess, FVal.order, FVal.isZero, compare_lt_iff_lt]
    | fin k d g => cases n <;> simp [fLess, FVal.order, FVal.isZero]
  | fin n m e =>
    cases y with
    | nan b => simp [fLess, FVal.order, FVal.isZero]
    | inf k => cases k <;> simp [fLess, FVal.order, FVal.isZero]
    | fin k d g =>
      rw [fLess_fin, Bool.eq_iff_iff]
      simp [FVal.order, FVal.ex, compare_lt_iff_lt]

end Sys2Proof.Machine
end

section
/-!
The rounded operations through the values of their operands (R94 to R97, R134 to R136).
-/
namespace Sys2Proof.Machine

/-! ## Results and flags -/

/-- What an operation answers whose exact result is a term: the term rounded, with the flags of its operands. -/
def Term.answer (f : Fmt) (r : Rounding) (l : List FVal) (t : Term) : Nat × Flags :=
  ((t.round f r).1, (t.round f r).2 ||| invalid l t)

/-- The canonical NaN, with NV for a signalling operand or where the operation itself is invalid (R94). -/
def Fmt.nanAnswer (f : Fmt) (bad : Bool) (l : List FVal) : Nat × Flags := (f.canonNaN, nvOf l ||| if bad then flagNV else 0)

theorem nvOf_of_no_nan {l : List FVal} (h : l.any FVal.isNaN = false) : nvOf l = 0 :=
  if_neg fun hmem => List.any_eq_false.1 h _ (List.contains_iff_mem.1 hmem) rfl

theorem invalid_eq (l : List FVal) (t : Term) :
    invalid l t = nvOf l ||| if t = .nan ∧ l.any FVal.isNaN = false then flagNV else 0 := by
  have hnan : (fun v : FVal => v == .nan true || v == .nan false) = FVal.isNaN := funext fun v => by
    cases v with
    | nan b => cases b <;> rfl
    | _ => rfl
  unfold invalid
  rw [hnan]
  simp

/-- Operands with a NaN give it without NV of the operation, whatever the operation makes of them. -/
theorem Term.answer_of_any_nan {l : List FVal} (hl : l.any FVal.isNaN = true) (f : Fmt) (r : Rounding) :
    Term.nan.answer f r l = f.nanAnswer false l := by
  simp [Term.answer, invalid_eq, Fmt.nanAnswer, Term.round, hl]

theorem Term.round_term_fin (f : Fmt) (r : Rounding) (n : Bool) (m : Nat) (e : Int) :
    (FVal.fin n m e).term.round f r = roundTo f r n m e := by
  cases n <;> simp [FVal.term, Term.round]

section
variable {l : List FVal} (hl : l.any FVal.isNaN = false)
include hl

theorem Term.answer_nan_of_no_nan (f : Fmt) (r : Rounding) : Term.nan.answer f r l = f.nanAnswer true [] := by
  rw [Term.answer, invalid_eq, nvOf_of_no_nan hl, if_pos ⟨rfl, hl⟩]
  rfl

theorem Term.answer_of_no_nan {t : Term} (ht : t ≠ .nan) (f : Fmt) (r : Rounding) : t.answer f r l = t.round f r := by
  simp [Term.answer, invalid_eq, nvOf_of_no_nan hl, ht]

end

theorem FVal.isFin_eq (x : FVal) : x.isFin = (!x.isNaN && !x.isInf) := by cases x <;> rfl

theorem FVal.eq_inf_of_isInf {x : FVal} (h : x.isInf = true) : x = .inf x.neg := by
  cases x with
  | inf n => rfl
  | _ => cases h

/-- The sum of two values of which none is NaN (R95, R96, R134). -/
theorem Term.answer_sum_pair {x y : FVal} (hx : x.isNaN = false) (hy : y.isNaN = false) {l : List FVal}
    (hl : l.any FVal.isNaN = false) (f : Fmt) (r : Rounding) :
    (Term.sum r.rm ([x, y].map FVal.term)).answer f r l =
      if x.isInf && y.isInf && x.neg != y.neg then f.nanAnswer true []
      else if x.isInf then (f.infinity x.neg, 0)
      else if y.isInf then (f.infinity y.neg, 0)
      else roundSum f r [x, y] := by
  have hnone : noSum [x, y] = (x.isInf && y.isInf && x.neg != y.neg) := by simp [noSum_pair, hx, hy]
  have hinf {v : FVal} (hsum : noSum [x, y] = false) (hv : v.isInf = true) (hmem : v ∈ [x, y]) :
      (Term.sum r.rm ([x, y].map FVal.term)).answer f r l = (f.infinity v.neg, 0) := by
    rw [FVal.eq_inf_of_isInf hv] at hmem
    rw [Term.sum_of_inf hsum (List.contains_iff_mem.2 hmem), Term.answer_of_no_nan hl Term.noConfusion]
    rfl
  rw [← hnone]
  cases hsum : noSum [x, y] with
  | true => rw [if_pos rfl, Term.sum_of_noSum hsum, Term.answer_nan_of_no_nan hl]
  | false =>
    rw [if_neg Bool.false_ne_true]
    split
    · next hxinf => exact hinf hsum hxinf (by simp)
    split
    · next hyinf => exact hinf hsum hyinf (by simp)
    next hxinf hyinf =>
    have hfin : ∀ v ∈ [x, y], v.isFin = true := by simp [FVal.isFin_eq, hx, hy, hxinf, hyinf]
    obtain ⟨hne, hround⟩ := Term.round_sum_of_isFin hfin f r
    exact (Term.answer_of_no_nan hl hne f r).trans hround

/-! ## The operations -/

/-- A sum by the kinds of its operands (R94, R134). -/
theorem answer_sum (f : Fmt) (r : Rounding) (x y : FVal) :
    (Term.sum r.rm [x.term, y.term]).answer f r [x, y] =
      if x.isNaN || y.isNaN then f.nanAnswer false [x, y]
      else if x.isInf && y.isInf && x.neg != y.neg then f.nanAnswer true []
      else if x.isInf then (f.infinity x.neg, 0)
      else if y.isInf then (f.infinity y.neg, 0)
      else roundSum f r [x, y] := by
  have hany : [x, y].any FVal.isNaN = (x.isNaN || y.isNaN) := by simp
  cases hnan : x.isNaN || y.isNaN with
  | true =>
    have hsum : noSum [x, y] = true := by rw [noSum_pair, hnan, Bool.true_or]
    rw [if_pos rfl, ← Term.answer_of_any_nan (hany.trans hnan), ← Term.sum_of_noSum hsum r.rm]
    rfl
  | false =>
    obtain ⟨hx, hy⟩ := Bool.or_eq_false_iff.1 hnan
    rw [if_neg Bool.false_ne_true, ← Term.answer_sum_pair hx hy (hany.trans hnan)]
    rfl

/-- A product by the kinds of its operands (R94, R134). -/
theorem answer_product (f : Fmt) (r : Rounding) (x y : FVal) :
    (x.term.mul y.term).answer f r [x, y] =
      if x.isNaN || y.isNaN then f.nanAnswer false [x, y]
      else if infTimesZero x y then f.nanAnswer true []
      else if x.isInf || y.isInf then (f.infinity (x.neg != y.neg), 0)
      else match x, y with
        | .fin n m e, .fin k d g => roundTo f r (n != k) (m * d) (e + g)
        | _, _ => (0, 0) := by
  have hany : [x, y].any FVal.isNaN = (x.isNaN || y.isNaN) := by simp
  rw [FVal.term_mul]
  cases hnan : x.isNaN || y.isNaN with
  | true =>
    rw [FVal.product_of_nan hnan]
    exact Term.answer_of_any_nan (hany.trans hnan) f r
  | false =>
    have hl := hany.trans hnan
    cases hzero : infTimesZero x y with
    | true =>
      rw [FVal.product_of_infTimesZero hzero]
      exact Term.answer_nan_of_no_nan hl f r
    | false =>
      cases hinf : x.isInf || y.isInf with
      | true =>
        rw [FVal.product_of_isInf hnan hzero hinf]
        exact Term.answer_of_no_nan hl Term.noConfusion f r
      | false =>
        obtain ⟨n, m, e, k, d, g, rfl, rfl⟩ := FVal.exists_fin_of_finite hnan hinf
        rw [FVal.product_fin]
        exact (Term.answer_of_no_nan hl Term.noConfusion f r).trans (Term.round_term_fin ..)

/-- A fused product by the kinds of its operands; ∞ × 0 raises NV even where the addend is NaN (R94, R134). -/
theorem answer_fused (f : Fmt) (r : Rounding) (x y z : FVal) :
    let p := (Term.sum r.rm [x.term.mul y.term, z.term]).answer f r [x, y, z]
    (p.1, p.2 ||| if infTimesZero x y then flagNV else 0) =
      if x.isNaN || y.isNaN || z.isNaN then f.nanAnswer (infTimesZero x y) [x, y, z]
      else if infTimesZero x y then f.nanAnswer true []
      else if x.isInf || y.isInf then
        (if z.isInf && z.neg != (x.neg != y.neg) then f.nanAnswer true [] else (f.infinity (x.neg != y.neg), 0))
      else if z.isInf then (f.infinity z.neg, 0)
      else roundSum f r [x.times y, z] := by
  dsimp only
  have hany : [x, y, z].any FVal.isNaN = (x.isNaN || y.isNaN || z.isNaN) := by simp [Bool.or_assoc]
  have hsum : [x.term.mul y.term, z.term] = [x.product y, z].map FVal.term := by rw [FVal.term_mul]; rfl
  rw [hsum]
  cases hnan : x.isNaN || y.isNaN || z.isNaN with
  | true =>
    rw [Term.sum_of_noSum (noSum_product (.inl hnan)), Term.answer_of_any_nan (hany.trans hnan), if_pos rfl]
    simp [Fmt.nanAnswer]
  | false =>
    have hl := hany.trans hnan
    obtain ⟨hxy, hz⟩ := Bool.or_eq_false_iff.1 hnan
    rw [if_neg Bool.false_ne_true]
    cases hzero : infTimesZero x y with
    | true =>
      rw [Term.sum_of_noSum (noSum_product (.inr hzero)), Term.answer_nan_of_no_nan hl, if_pos rfl, if_pos rfl,
        Fmt.nanAnswer, if_pos rfl, BitVec.or_assoc, BitVec.or_self]
    | false =>
      rw [if_neg Bool.false_ne_true, if_neg Bool.false_ne_true]
      cases hinf : x.isInf || y.isInf with
      | true =>
        rw [FVal.product_of_isInf hxy hzero hinf, Term.answer_sum_pair rfl hz hl, FVal.isInf_inf, FVal.neg_inf, if_pos rfl,
          if_pos rfl, Bool.true_and, bne_comm]
        simp
      | false =>
        obtain ⟨hprod, hfin⟩ := FVal.product_of_finite hxy hinf
        rw [FVal.isFin_eq, Bool.and_eq_true_iff, Bool.not_eq_true', Bool.not_eq_true'] at hfin
        rw [hprod, Term.answer_sum_pair hfin.1 hz hl, hfin.2]
        simp

/-- Extremes choose an operand by the order of the values, a number before a NaN (R135). -/
theorem fMinMax_eq (f : Fmt) (ftz isMax : Bool) (a b : Nat) :
    let x := f.value (f.flushIn ftz a)
    let y := f.value (f.flushIn ftz b)
    fMinMax f ftz isMax a b =
      if x.isNaN && y.isNaN then (f.canonNaN, nvOf [x, y])
      else if x.isNaN then (f.flushIn ftz b, nvOf [x, y])
      else if y.isNaN then (f.flushIn ftz a, nvOf [x, y])
      else
        let below (u v : FVal) : Bool := u.order v == some .lt || (u.isZero true && v.isZero false)
        (f.flushIn ftz (if (if isMax then below x y else below y x) then b else a), nvOf [x, y]) := by
  have hpick (p q : Bool) : (if isMax then (if p then f.flushIn ftz b else f.flushIn ftz a)
      else if q then f.flushIn ftz b else f.flushIn ftz a) = f.flushIn ftz (if (if isMax then p else q) then b else a) := by
    cases isMax <;> exact (apply_ite ..).symm
  unfold fMinMax
  simp only [fLess_eq, Bool.true_and, hpick]
  cases f.value (f.flushIn ftz a) <;> cases f.value (f.flushIn ftz b) <;> rfl

/-- Integral values of each kind of operand (R136). -/
theorem fRound_eq (f : Fmt) (r : Rounding) (a : Nat) :
    fRound f r a =
      match f.value (f.flushIn r.ftz a) with
      | .nan _ => f.nanAnswer false [f.value (f.flushIn r.ftz a)]
      | .inf _ => (f.flushIn r.ftz a, 0)
      | .fin n m e =>
        if (roundAt r.rm n m e 0).2 then (f.flushIn r.ftz a, 0)
        else ((roundTo f {} n (roundAt r.rm n m e 0).1 0).1, flagNX) := by
  unfold fRound
  dsimp only
  cases h : f.value (f.flushIn r.ftz a) with
  | nan b => cases b <;> rfl
  | inf n => rfl
  | fin n m e => rfl

end Sys2Proof.Machine
end

section
/-!
Floating-point instructions of fixed latency (R132, R134 to R136, R141): O8.
-/
namespace Sys2Proof.Machine

section
variable {i : Instr} {op : Nat} {w : Fields}

/-- An instruction whose body gives values and flags by thread, with a fixed latency, completes with them (R132). -/
theorem completes_of_floatBy {k : FloatClass} {n : Nat} (hk : k.lat = some n) {f : Ctx → State → Nat → Nat × Flags}
    (he : ∀ s, exec i s = s.issue op w fun c s => floatBy k (f c s) c s) (ho : opFields i = some (op, w)) :
    Completes i (floatFixed k.wide n f) :=
  completes_of_done he ho fun c s _ _ => ⟨by rw [floatBy, floatDone, hk]; rfl, rfl⟩

theorem half_eq (v : DWord) : half v = elem16 v := funext fun e => by
  rw [half, elem16, BitVec.extractLsb'_toNat, Nat.shiftRight_eq_div_pow, pow_mul]
  rfl

/-- A packed instruction of two operands works on both elements (R141). -/
theorem packedFloatTwo_eq (g : Fmt → Rounding → Nat → Nat → Nat × Flags) :
    packedFloatTwo g = fun c s => floatBy single (packedFloat (fun f r a b _ e => g f r (a e) (b e)) c s) c s := by
  funext c s
  simp only [packedFloatTwo, half_eq]
  rfl

theorem packedFloatThree_eq (g : Fmt → Rounding → Nat → Nat → Nat → Nat × Flags) :
    packedFloatThree g = fun c s => floatBy single (packedFloat (fun f r a b d e => g f r (a e) (b e) (d e)) c s) c s := by
  funext c s
  simp only [packedFloatThree, half_eq]
  rfl

theorem completes_of_packedTwo {g : Fmt → Rounding → Nat → Nat → Nat × Flags}
    (he : ∀ s, exec i s = s.issue op w (packedFloatTwo g)) (ho : opFields i = some (op, w)) :
    Completes i (floatFixed false 8 (packedFloat fun f r a b _ e => g f r (a e) (b e))) :=
  completes_of_floatBy (k := single) rfl (fun s => packedFloatTwo_eq g ▸ he s) ho

theorem completes_of_packedThree {g : Fmt → Rounding → Nat → Nat → Nat → Nat × Flags}
    (he : ∀ s, exec i s = s.issue op w (packedFloatThree g)) (ho : opFields i = some (op, w)) :
    Completes i (floatFixed false 8 (packedFloat fun f r a b d e => g f r (a e) (b e) (d e))) :=
  completes_of_floatBy (k := single) rfl (fun s => packedFloatThree_eq g ▸ he s) ho

end

/-- Settles O8: each instruction by its class and operation, each operation by the kinds of its operands' values. -/
theorem floatArithmeticFixedLatency : Obligations.FloatArithmeticFixedLatency := by
  unfold Obligations.FloatArithmeticFixedLatency
  refine ⟨fun w => ?_, fun w => ?_, fun f r a b c => ?_⟩
  · refine ⟨?_, ?_, ?_, ?_, ?_, ?_, ?_, ?_, ?_, ?_, ?_, ?_, ?_, ?_⟩
    iterate 7 exact completes_of_floatBy (k := single) rfl (fun _ => rfl) rfl
    all_goals exact completes_of_floatBy (k := double) rfl (fun _ => rfl) rfl
  · exact ⟨completes_of_packedTwo (fun _ => rfl) rfl, completes_of_packedTwo (fun _ => rfl) rfl,
      completes_of_packedThree (fun _ => rfl) rfl, completes_of_packedTwo (g := minMax false) (fun _ => rfl) rfl,
      completes_of_packedTwo (g := minMax true) (fun _ => rfl) rfl⟩
  · exact ⟨answer_sum f r _ _, answer_product f r _ _, answer_fused f r _ _ _, rfl,
      fun _ _ _ => f.value_flushIn_fNeg r.ftz b, fun isMax => fMinMax_eq f r.ftz isMax a b, fRound_eq f r a⟩

end Sys2Proof.Machine
end

section
/-!
Issue under a condition: an instruction whose body completes there, or stalls there.
-/
namespace Sys2Proof.Machine

variable {i : Instr} {op : Nat} {w : Fields} {body : Ctx → State → Effect} {p : Ctx → State → Prop}

/-- The context of an instruction that nothing keeps from its effect carries its opcode and fields. -/
theorem State.fields_of_clear {s : State} {c : Ctx} (h : s.clear i = some c) (ho : opFields i = some (op, w)) :
    c.op = op ∧ c.w = w := by
  obtain ⟨-, hc, -⟩ := State.contextOf_spec (State.clear_spec h).1
  cases ho.symm.trans hc
  exact ⟨rfl, rfl⟩

/-- A local effect completes where a condition holds. -/
theorem completesIf_of_done {d : Ctx → State → Done} (he : ∀ s, exec i s = s.issue op w body)
    (ho : opFields i = some (op, w))
    (hb : ∀ c s, c.op = op → c.w = w → p c s → body c s = .done (d c s) ∧ (d c s).remote = []) : CompletesIf i p d := by
  intro s c h hp
  obtain ⟨hop, hw⟩ := State.fields_of_clear h ho
  obtain ⟨hdone, hremote⟩ := hb c (s.begun c) hop hw hp
  rw [exec_clear h (he s) ho, hdone, State.apply, hremote]
  rfl

/-- An instruction stalls where its body asks for outstanding results. -/
theorem stallsIf_of_stalled {x : Ctx → List Nat} (he : ∀ s, exec i s = s.issue op w body)
    (ho : opFields i = some (op, w)) (hb : ∀ c s, c.op = op → c.w = w → p c s → body c s = .stalled (x c)) :
    StallsIf i p x := by
  intro s c h hp
  obtain ⟨hop, hw⟩ := State.fields_of_clear h ho
  rw [exec_clear h (he s) ho, hb c _ hop hw hp]
  rfl

end Sys2Proof.Machine
end

section
/-!
SRD, SWR and the system registers (R79 to R82, R363): O19.
-/
namespace Sys2Proof.Machine

/-! ## The wait for FFLAGS -/

/-- FFLAGS is named while a floating-point or conversion result is outstanding (R82, R363). -/
def Ctx.flagsAwaited (c : Ctx) (n : Nat) : Prop := n = 0x04 ∧ c.f.outstanding.any (·.float) = true

theorem flagWaits_of_awaited {c : Ctx} {n : Nat} (h : c.flagsAwaited n) :
    flagWaits c n = (c.f.outstanding.filter (·.float)).map (·.id) ∧ (flagWaits c n).isEmpty = false := by
  obtain ⟨hn, hany⟩ := h
  rw [flagWaits, if_pos hn, List.isEmpty_map, List.isEmpty_eq_false_iff]
  obtain ⟨q, hq, hfloat⟩ := List.any_eq_true.1 hany
  exact ⟨rfl, List.ne_nil_of_mem (List.mem_filter.2 ⟨hq, hfloat⟩)⟩

theorem flagWaits_of_not_awaited {c : Ctx} {n : Nat} (h : ¬c.flagsAwaited n) : flagWaits c n = [] := by
  unfold flagWaits
  split
  · next hn =>
    rw [List.map_eq_nil_iff, List.filter_eq_nil_iff]
    exact fun q hq hfloat => h ⟨hn, List.any_eq_true.2 ⟨q, hq, hfloat⟩⟩
  · rfl

/-! ## The two bodies -/

theorem srdBody_done {c : Ctx} (h : ¬c.flagsAwaited c.w.a.toNat) (s : State) : srdBody c s = .done
    { s, fixed := c.results true false fun t => if c.w.u then sysReg s c c.w.a.toNat else look 0 c.f.taddr t } := by
  rw [srdBody, flagWaits_of_not_awaited h]
  rfl

theorem srdBody_stalled {c : Ctx} (h : c.flagsAwaited c.w.a.toNat) (s : State) :
    srdBody c s = .stalled ((c.f.outstanding.filter (·.float)).map (·.id)) := by
  obtain ⟨hids, hsome⟩ := flagWaits_of_awaited h
  rw [srdBody, hsome, hids]
  rfl

theorem swrBody_done {c : Ctx} (h : ¬c.flagsAwaited c.w.d.toNat) (s : State) : swrBody c s = .done
    { s := s.writeSysReg c c.w.d.toNat (uniOperand s c c.w.a.toNat uniThread)
      after := fun f => f.writeReg c.w.d.toNat (uniOperand s c c.w.a.toNat uniThread) } := by
  rw [swrBody, flagWaits_of_not_awaited h]
  rfl

theorem swrBody_stalled {c : Ctx} (h : c.flagsAwaited c.w.d.toNat) (s : State) :
    swrBody c s = .stalled ((c.f.outstanding.filter (·.float)).map (·.id)) := by
  obtain ⟨hids, hsome⟩ := flagWaits_of_awaited h
  rw [swrBody, hsome, hids]
  rfl

/-! ## Flags that come after the hold (R82, R132) -/

/-- The state in which the issue distances have advanced and the fixed-latency results are on their way. -/
def State.landing (s : State) (c : Ctx) (d : Done) : State :=
  let t := s.modFibre c.r fun f => f.advance c.act c.hold
  if d.fixed.isEmpty then t else t.produce c.r d.fixed (d.lat - c.hold) (t.coreCycle c.core + d.lat)

/-- Of the fibre, its registers and what it awaits are all that the results on their way touch. -/
theorem State.fibre?_landing {s : State} {c : Ctx} {f : Fibre} (h : s.fibre? c.r = some f) (d : Done) :
    ∃ early outstanding, (s.landing c d).fibre? c.r = some { f.takeAll d.fixed with early, outstanding } := by
  obtain ⟨early, hearly⟩ := f.advance_eq c.act c.hold
  have hfid (x : Fibre) : (x.advance c.act c.hold).fid = x.fid := by
    obtain ⟨_, he⟩ := x.advance_eq c.act c.hold
    rw [he]
  have hadvance : (s.modFibre c.r fun x => x.advance c.act c.hold).fibre? c.r = some { f with early } := by
    rw [State.fibre?_modFibre _ _ _ hfid, h, Option.map_some, hearly]
  unfold State.landing
  dsimp only
  split
  · next hempty =>
    rw [List.isEmpty_iff.1 hempty]
    exact ⟨_, _, hadvance⟩
  · obtain ⟨early', he⟩ := State.fibre?_produce hadvance d.fixed (d.lat - c.hold)
      ((s.modFibre c.r fun x => x.advance c.act c.hold).coreCycle c.core + d.lat)
    rw [he, f.takeAll_awaiting]
    exact ⟨_, _, rfl⟩

theorem State.pace_landing (s : State) (c : Ctx) (d : Done) : (s.landing c d).pace = s.pace := by
  unfold State.landing
  dsimp only
  split
  · exact State.pace_modFibre ..
  · exact (State.pace_produce ..).trans (State.pace_modFibre ..)

/-- A fixed-latency result that lands after its instruction's hold leaves its flags among what the fibre awaits. -/
theorem State.deliver_of_late (s : State) {c : Ctx} {d : Done} (hflags : raisesFlags c.op c.w = true)
    (hremote : d.remote = []) (hlater : d.later = none) (hlate : c.hold < d.lat) : s.deliver c d =
      (s.landing c d).expect c.r [] d.flags [] true (some (s.coreCycle c.core + d.lat)) c.pc := by
  rw [← State.coreCycle_of_pace (s.pace_landing c d)]
  unfold State.deliver
  rw [hlater, hremote, hflags]
  exact if_pos (decide_eq_true hlate)

theorem State.fibre?_deliver_of_late {s : State} {c : Ctx} {d : Done} {f : Fibre} (h : s.fibre? c.r = some f)
    (hflags : raisesFlags c.op c.w = true) (hremote : d.remote = []) (hlater : d.later = none) (hlate : c.hold < d.lat) :
    ∃ g, (s.deliver c d).fibre? c.r = some g ∧ g.fflags = f.fflags ∧
      ∃ p ∈ g.outstanding, p.float = true ∧ p.flags = d.flags ∧ p.due = some (s.coreCycle c.core + d.lat) := by
  obtain ⟨early, outstanding, hland⟩ := State.fibre?_landing h d
  obtain ⟨v, u, p, htake⟩ := f.takeAll_eq d.fixed
  rw [s.deliver_of_late hflags hremote hlater hlate]
  refine ⟨_, State.fibre?_expect hland .., ?_, _, List.mem_append_right _ (List.mem_singleton_self _), rfl, rfl, rfl⟩
  rw [htake]

/-! ## What the registers keep (R79 to R81) -/

theorem clampWdt_bounds (v : BitVec 6) : 16 ≤ (clampWdt v).toNat ∧ (clampWdt v).toNat ≤ 40 := by
  unfold clampWdt
  split
  · decide
  split
  · decide
  · next hlow hhigh =>
    exact ⟨Nat.le_of_not_lt hlow, Nat.le_of_not_lt hhigh⟩

theorem Fibre.writeReg_of_readOnly (f : Fibre) {n : Nat} (h : n ∉ [0x02, 0x03, 0x04, 0x05, 0x06]) (v : DWord) :
    f.writeReg n v = f := by
  unfold Fibre.writeReg
  split <;> simp at h ⊢

/-- Settles O19: SRD and SWR by whether FFLAGS is awaited, and late flags by what delivery leaves outstanding. -/
theorem systemRegistersReadAndWritten : Obligations.SystemRegistersReadAndWritten := by
  unfold Obligations.SystemRegistersReadAndWritten
  refine ⟨fun w a d u y => ⟨?_, ?_, ⟨?_, ?_⟩, ?_⟩, fun s c f v => ⟨?_, ?_, ?_, ?_⟩⟩
  · rintro i (rfl | rfl) <;> exact completesIf_of_done (fun _ => rfl) rfl fun c s _ _ h => ⟨srdBody_done h s, rfl⟩
  · rintro i (rfl | rfl) <;> exact completesIf_of_done (fun _ => rfl) rfl fun c s _ _ h => ⟨swrBody_done h s, rfl⟩
  · rintro i (rfl | rfl) <;> exact stallsIf_of_stalled (fun _ => rfl) rfl fun c s _ _ h => srdBody_stalled h s
  · rintro i (rfl | rfl) <;> exact stallsIf_of_stalled (fun _ => rfl) rfl fun c s _ _ h => swrBody_stalled h s
  · exact fun s c x hflags hremote hlater hlate f hf => State.fibre?_deliver_of_late hf hflags hremote hlater hlate
  · exact ⟨rfl, rfl, rfl, rfl, rfl, rfl, rfl, rfl⟩
  · exact ⟨rfl, rfl, rfl, rfl, rfl⟩
  · exact fun n hn => f.writeReg_of_readOnly hn v
  · exact clampWdt_bounds _

end Sys2Proof.Machine
end

section
/-!
Rounding to a multiple of a power of two, and of the values that a format holds (R93, R95, R96, Table 5.3): O10.
-/
namespace Sys2Proof.Machine

/-! ## Rounding to a multiple -/

/-- A multiple of 2^q is that multiple, exactly. -/
theorem roundAt_of_le (rm : Nat) (neg : Bool) (m : Nat) {e q : Int} (h : q ≤ e) :
    roundAt rm neg m e q = (m * 2 ^ (e - q).toNat, true) := if_pos h

theorem roundAt_self (rm : Nat) (neg : Bool) (m : Nat) (e : Int) : roundAt rm neg m e e = (m, true) := by
  rw [roundAt_of_le _ _ _ le_rfl, sub_self, Int.toNat_zero, pow_zero, mul_one]

@[simp] theorem roundsUp_zero (rm : Nat) (neg odd : Bool) (k : Nat) : roundsUp rm neg odd 0 k = false := if_pos rfl

theorem roundAt_natCast (rm : Nat) (neg : Bool) (m k : Nat) :
    roundAt rm neg m 0 k =
      (if roundsUp rm neg (m / 2 ^ k % 2 == 1) (m % 2 ^ k) k then m / 2 ^ k + 1 else m / 2 ^ k, m % 2 ^ k == 0) := by
  cases k with
  | zero => simp [roundAt, Nat.mod_one]
  | succ k => rw [roundAt, if_neg (by omega)]; rfl

/-! The directed modes of Table 5.3. -/

theorem roundsUp_towardZero (neg odd : Bool) (rem k : Nat) : roundsUp 1 neg odd rem k = false := ite_self _

theorem roundsUp_upward (neg odd : Bool) (rem k : Nat) : roundsUp 2 neg odd rem k = (decide (rem ≠ 0) && !neg) := by
  by_cases h : rem = 0 <;> simp [roundsUp, h]

theorem roundsUp_downward (neg odd : Bool) (rem k : Nat) : roundsUp 3 neg odd rem k = (decide (rem ≠ 0) && neg) := by
  by_cases h : rem = 0 <;> simp [roundsUp, h]

/-- A directed mode that rounds no remainder up gives the multiple below. -/
theorem roundAt_below {rm : Nat} {neg : Bool} (h : ∀ odd rem k, roundsUp rm neg odd rem k = false) (m k : Nat) :
    (roundAt rm neg m 0 k).1 = m / 2 ^ k := by rw [roundAt_natCast, h, if_neg Bool.false_ne_true]

/-- One that rounds every remainder up gives the multiple above. -/
theorem roundAt_above {rm : Nat} {neg : Bool} (h : ∀ odd rem k, rem ≠ 0 → roundsUp rm neg odd rem k = true) (m k : Nat) :
    m ≤ (roundAt rm neg m 0 k).1 * 2 ^ k ∧ (roundAt rm neg m 0 k).1 * 2 ^ k < m + 2 ^ k := by
  have hm : m / 2 ^ k * 2 ^ k + m % 2 ^ k = m := Nat.div_add_mod' ..
  have hrem : m % 2 ^ k < 2 ^ k := Nat.mod_lt _ (by positivity)
  rw [roundAt_natCast]
  by_cases h0 : m % 2 ^ k = 0
  · rw [h0, roundsUp_zero, if_neg Bool.false_ne_true]
    dsimp only
    omega
  · rw [h _ _ _ h0, if_pos rfl, Nat.add_one_mul]
    omega

theorem roundsUp_nearest {rem : Nat} (h : rem ≠ 0) (neg odd : Bool) (k : Nat) :
    roundsUp 0 neg odd rem k = (decide (2 ^ (k - 1) < rem) || (rem == 2 ^ (k - 1) && odd)) := if_neg h

/-- Nearest is at most half a unit away, and even where it is half a unit away. -/
theorem roundAt_nearest (neg : Bool) (m k : Nat) :
    let v := (roundAt 0 neg m 0 k).1
    2 * (max (v * 2 ^ k) m - min (v * 2 ^ k) m) ≤ 2 ^ k ∧
      (2 * (max (v * 2 ^ k) m - min (v * 2 ^ k) m) = 2 ^ k → v % 2 = 0) := by
  have hm : m / 2 ^ k * 2 ^ k + m % 2 ^ k = m := Nat.div_add_mod' ..
  have hrem : m % 2 ^ k < 2 ^ k := Nat.mod_lt _ (by positivity)
  rw [roundAt_natCast]
  by_cases h0 : m % 2 ^ k = 0
  · rw [h0, roundsUp_zero, if_neg Bool.false_ne_true]
    dsimp only
    omega
  · obtain ⟨j, rfl⟩ : ∃ j, k = j + 1 := ⟨k - 1, by rcases k with _ | k <;> simp_all [Nat.mod_one]⟩
    have hhalf : 2 ^ (j + 1) = 2 * 2 ^ j := Nat.pow_succ'
    rw [roundsUp_nearest h0, Nat.add_sub_cancel]
    split
    · next hup =>
      simp only [Bool.or_eq_true, decide_eq_true_eq, Bool.and_eq_true, beq_iff_eq] at hup
      dsimp only
      rw [Nat.add_one_mul (m / 2 ^ (j + 1))]
      omega
    · next hdown =>
      simp only [Bool.or_eq_true, decide_eq_true_eq, Bool.and_eq_true, beq_iff_eq, not_or, not_and] at hdown
      dsimp only
      omega

/-! ## Bits of a magnitude -/

theorem bitLength_le_iff (m k : Nat) : bitLength m ≤ k ↔ m < 2 ^ k := by
  unfold bitLength
  split
  · next h => simp [h]
  · next h => rw [Nat.succ_le_iff, Nat.log2_lt h]

theorem lt_bitLength_iff (m k : Nat) : k < bitLength m ↔ 2 ^ k ≤ m := by
  rw [← Nat.not_le, bitLength_le_iff, Nat.not_lt]

theorem bitLength_eq_succ {m k : Nat} (hlow : 2 ^ k ≤ m) (hhigh : m < 2 ^ (k + 1)) : bitLength m = k + 1 :=
  le_antisymm ((bitLength_le_iff ..).2 hhigh) ((lt_bitLength_iff ..).2 hlow)

/-! ## Values that a format holds (R93) -/

/-- The fields of an encoding without bits outside its format make it up. -/
theorem Fmt.pack_fields (f : Fmt) {x : Nat} (hx : x < 2 ^ (f.low + f.fb + f.eb + 1)) (hlow : x % 2 ^ f.low = 0) :
    f.pack (f.sign x) (f.expo x) (f.frac x) = x := by
  obtain ⟨y, rfl⟩ := Nat.dvd_of_mod_eq_zero hlow
  have hy : y / 2 ^ f.fb / 2 ^ f.eb < 2 := by
    rw [Nat.div_div_eq_div_mul, ← pow_add]
    refine Nat.div_lt_of_lt_mul (Nat.lt_of_mul_lt_mul_left (a := 2 ^ f.low) (hx.trans_eq ?_))
    ring
  have hshift (n : Nat) : (2 ^ f.low * y) >>> (f.low + n) = y / 2 ^ n := by
    rw [Nat.shiftRight_eq_div_pow, pow_add, Nat.mul_div_mul_left _ _ (by positivity)]
  have hsign : (if f.sign (2 ^ f.low * y) then 2 ^ (f.fb + f.eb) else 0) = 2 ^ f.fb * (2 ^ f.eb * (y / 2 ^ f.fb / 2 ^ f.eb)) := by
    rw [Fmt.sign, Nat.add_assoc, hshift, pow_add, ← Nat.div_div_eq_div_mul, Nat.mod_eq_of_lt hy]
    obtain h | h := Nat.lt_succ_iff_lt_or_eq.1 hy
    · simp [Nat.lt_one_iff.1 h]
    · simp [h]
  have hexpo : f.expo (2 ^ f.low * y) = y / 2 ^ f.fb % 2 ^ f.eb := by rw [Fmt.expo, hshift]
  have hfrac : f.frac (2 ^ f.low * y) = y % 2 ^ f.fb := by
    rw [Fmt.frac, Nat.shiftRight_eq_div_pow, Nat.mul_div_cancel_left _ (by positivity)]
  calc f.pack (f.sign (2 ^ f.low * y)) (f.expo (2 ^ f.low * y)) (f.frac (2 ^ f.low * y))
      = (2 ^ f.fb * (2 ^ f.eb * (y / 2 ^ f.fb / 2 ^ f.eb) + y / 2 ^ f.fb % 2 ^ f.eb) + y % 2 ^ f.fb) * 2 ^ f.low := by
        rw [Fmt.pack, hsign, hexpo, hfrac]
        ring
    _ = 2 ^ f.low * y := by rw [Nat.div_add_mod, Nat.div_add_mod, Nat.mul_comm]

theorem Fmt.frac_lt (f : Fmt) (x : Nat) : f.frac x < 2 ^ f.fb := Nat.mod_lt _ (by positivity)
theorem Fmt.expo_le_top (f : Fmt) (x : Nat) : f.expo x ≤ f.top := Nat.le_sub_one_of_lt (Nat.mod_lt _ (by positivity))

/-- A finite value, by its exponent field; the all-ones field holds one only in E4M3. -/
theorem Fmt.value_eq_fin {f : Fmt} {x : Nat} {neg : Bool} {m : Nat} {e : Int} (h : f.value x = .fin neg m e) :
    neg = f.sign x ∧ (f.expo x = f.top → f.e4m3 = true ∧ f.frac x ≠ 7) ∧
      ((f.expo x = 0 ∧ m = f.frac x ∧ e = f.qmin) ∨
        (f.expo x ≠ 0 ∧ m = f.frac x + 2 ^ f.fb ∧ e = f.expo x - 1 + f.qmin)) := by
  unfold Fmt.value at h
  dsimp only at h
  split at h
  · split_ifs at h
  · next htop =>
    have htop : f.expo x = f.top → f.e4m3 = true ∧ f.frac x ≠ 7 := by simpa using htop
    split at h <;> cases h
    · next hexpo => exact ⟨rfl, htop, .inl ⟨hexpo, rfl, rfl⟩⟩
    · next hexpo => exact ⟨rfl, htop, .inr ⟨hexpo, rfl, rfl⟩⟩

/-- A format of Table 5.2: at least two exponent fields of finite values, and E4M3 with 4 and 3 bits. -/
def Fmt.Standard (f : Fmt) : Prop := 2 ≤ f.eb ∧ (f.e4m3 = true → f.eb = 4 ∧ f.fb = 3)

theorem standard_of_mem : ∀ f ∈ [fp64, fp32, e8m10, bf16, fp16, e4m3, e5m2], f.Standard := by
  unfold Fmt.Standard
  decide

/-- The fields of a finite value are at most those of the largest. -/
theorem Fmt.Standard.fields_le_maxField {f : Fmt} (hf : f.Standard) {x : Nat}
    (htop : f.expo x = f.top → f.e4m3 = true ∧ f.frac x ≠ 7) :
    1 ≤ f.maxField.1 ∧ (f.expo x < f.maxField.1 ∨ (f.expo x = f.maxField.1 ∧ f.frac x ≤ f.maxField.2)) := by
  obtain ⟨heb, he4m3⟩ := hf
  have hexpo := f.expo_le_top x
  have hfrac := f.frac_lt x
  unfold Fmt.maxField
  split
  · next h =>
    obtain ⟨heb, hfb⟩ := he4m3 h
    rw [Fmt.top, heb] at hexpo htop
    rw [hfb] at hfrac
    omega
  · next h =>
    have htwo : 2 ^ 2 ≤ 2 ^ f.eb := Nat.pow_le_pow_right (by decide) heb
    have hne : f.expo x ≠ f.top := fun h' => h (htop h').1
    dsimp only
    unfold Fmt.top at hexpo hne ⊢
    omega

/-! ## Their rounding (R95, R96) -/

/-- A value of at most a format's precision with its fields within those of the largest number does not overflow. -/
theorem not_dyLt_max {f : Fmt} {x m : Nat} {e : Int} (hmax : 1 ≤ f.maxField.1)
    (hle : f.expo x < f.maxField.1 ∨ (f.expo x = f.maxField.1 ∧ f.frac x ≤ f.maxField.2))
    (hx : (f.expo x = 0 ∧ m = f.frac x ∧ e = f.qmin) ∨
        (f.expo x ≠ 0 ∧ m = f.frac x + 2 ^ f.fb ∧ e = f.expo x - 1 + f.qmin)) :
    dyLt (2 ^ f.fb + f.maxField.2) (f.maxField.1 - 1 + f.qmin) m e = false := by
  have hfrac := f.frac_lt x
  have hle' : e ≤ f.maxField.1 - 1 + f.qmin := by omega
  rw [dyLt_eq, min_eq_right hle', sub_self, Int.toNat_zero, pow_zero, mul_one, decide_eq_false_iff_not, Nat.not_lt]
  obtain ⟨hexpo, hm⟩ | hm : (f.expo x = f.maxField.1 ∧ m ≤ 2 ^ f.fb + f.maxField.2) ∨ m ≤ 2 ^ f.fb ∨
      (e < f.maxField.1 - 1 + f.qmin ∧ m ≤ 2 * 2 ^ f.fb) := by omega
  · exact hm.trans (Nat.le_mul_of_pos_right _ (by positivity))
  obtain hm | ⟨hlt, hm⟩ := hm
  · exact (hm.trans (Nat.le_add_right ..)).trans (Nat.le_mul_of_pos_right _ (by positivity))
  · obtain ⟨k, hk⟩ : ∃ k, (f.maxField.1 - 1 + f.qmin - e).toNat = k + 1 :=
      Nat.exists_eq_succ_of_ne_zero (by omega)
    rw [hk, pow_succ']
    calc m ≤ 2 ^ f.fb * 2 := by omega
      _ ≤ (2 ^ f.fb + f.maxField.2) * (2 * 2 ^ k) :=
        Nat.mul_le_mul (Nat.le_add_right ..) (Nat.le_mul_of_pos_right _ (by positivity))

/-- A number of full precision, at least the smallest normal one and at most the largest, is its own rounding. -/
theorem roundFin_of_normal {f : Fmt} {m : Nat} {e : Int} (hlow : 2 ^ f.fb ≤ m) (hhigh : m < 2 ^ (f.fb + 1))
    (he : f.qmin ≤ e) (hmax : dyLt (2 ^ f.fb + f.maxField.2) (f.maxField.1 - 1 + f.qmin) m e = false) (r : Rounding)
    (neg : Bool) : roundFin f r neg m e = (f.pack neg (e - f.qmin + 1).toNat (m - 2 ^ f.fb), 0) := by
  have hu : e + (bitLength m : Int) - (f.fb + 1 : Nat) = e := by rw [bitLength_eq_succ hlow hhigh]; omega
  unfold roundFin
  simp only [hu, roundAt_self, hmax, Bool.false_eq_true, if_false, if_pos he, if_neg hhigh.ne, if_true]

/-- A subnormal number is its own rounding, unless .ftz flushes it. -/
theorem roundFin_of_subnormal {f : Fmt} {m : Nat} (hlt : m < 2 ^ f.fb)
    (hmax : 1 ≤ f.maxField.1) {r : Rounding} (hr : r.ftz = false) (neg : Bool) :
    roundFin f r neg m f.qmin = (f.pack neg 0 m, 0) := by
  have hbits := (bitLength_le_iff ..).2 hlt
  obtain ⟨i, hi⟩ : ∃ i : Nat, f.qmin + (bitLength m : Int) - (f.fb + 1 : Nat) = f.qmin - (i + 1 : Nat) :=
    ⟨f.fb - bitLength m, by omega⟩
  have hdy : dyLt (2 ^ f.fb + f.maxField.2) (f.maxField.1 - 1 + f.qmin) (m * 2 ^ (i + 1)) (f.qmin - (i + 1 : Nat)) = false := by
    have hexp : f.qmin - (i + 1 : Nat) ≤ f.maxField.1 - 1 + f.qmin := by omega
    rw [dyLt_eq, min_eq_right hexp, sub_self, Int.toNat_zero, pow_zero, mul_one, decide_eq_false_iff_not, Nat.not_lt]
    exact Nat.mul_le_mul (by omega) (Nat.pow_le_pow_right (by decide) (by omega))
  have hsub : (f.qmin - (f.qmin - (i + 1 : Nat))).toNat = i + 1 := by omega
  unfold roundFin
  simp only [hi, roundAt_of_le _ _ _ (show f.qmin - (i + 1 : Nat) ≤ f.qmin by omega), hsub, hdy, Bool.false_eq_true, if_false,
    if_neg (show ¬f.qmin ≤ f.qmin - (i + 1 : Nat) by omega), roundAt_self, hr, Bool.false_and, if_pos hlt, if_true]

/-- A finite value of a format rounds to the encoding that holds it, with no flag (R95, R96). -/
theorem roundTo_value {f : Fmt} (hf : f.Standard) {x : Nat} (hx : x < 2 ^ (f.low + f.fb + f.eb + 1))
    (hlow : x % 2 ^ f.low = 0) {neg : Bool} {m : Nat} {e : Int} (h : f.value x = .fin neg m e) {r : Rounding}
    (hr : r.ftz = false) : roundTo f r neg m e = (x, 0) := by
  obtain ⟨rfl, htop, hfields⟩ := Fmt.value_eq_fin h
  obtain ⟨hmax, hle⟩ := hf.fields_le_maxField htop
  have hfrac := f.frac_lt x
  have hpack := f.pack_fields hx hlow
  have hdy := not_dyLt_max hmax hle hfields
  unfold roundTo
  obtain ⟨hexpo, rfl, rfl⟩ | ⟨hexpo, rfl, rfl⟩ := hfields
  · rw [hexpo] at hpack
    split
    · next h0 =>
      rw [h0] at hpack
      rw [hpack]
    · next h0 => rw [roundFin_of_subnormal hfrac hmax hr, hpack]
  · have hunit : ((f.expo x : Int) - 1 + f.qmin - f.qmin + 1).toNat = f.expo x := by omega
    rw [if_neg (by positivity), roundFin_of_normal (by omega) (by omega) (by omega) hdy, hunit, Nat.add_sub_cancel, hpack]

/-- Settles O10: each mode by the remainders that it rounds up, and a value of a format by its fields. -/
theorem roundingFollowsTheModes : Obligations.RoundingFollowsTheModes := by
  unfold Obligations.RoundingFollowsTheModes
  refine ⟨fun neg m k => ⟨?_, roundAt_nearest neg m k, ?_, ?_, ?_⟩, fun f hf rm sat x neg m e hx hlow h => ?_⟩
  · rw [roundAt_natCast, beq_iff_eq, ← Nat.dvd_iff_mod_eq_zero]
    exact exists_congr fun q => by rw [Nat.mul_comm]
  · dsimp only
    rw [roundAt_below (roundsUp_towardZero neg)]
    exact ⟨Nat.div_mul_le_self .., Nat.lt_mul_of_div_lt (Nat.lt_succ_self _) (by positivity)⟩
  · cases neg with
    | false => exact roundAt_above (fun _ _ _ h => by simpa [roundsUp_upward] using h) m k
    | true => exact (roundAt_below (by simp [roundsUp_upward]) m k).trans (roundAt_below (roundsUp_towardZero true) m k).symm
  · cases neg with
    | false => exact (roundAt_below (by simp [roundsUp_downward]) m k).trans (roundAt_below (roundsUp_towardZero false) m k).symm
    | true => exact roundAt_above (fun _ _ _ h => by simpa [roundsUp_downward] using h) m k
  · exact roundTo_value (standard_of_mem f hf) hx hlow h rfl

end Sys2Proof.Machine
end

section
/-!
Conversions between formats and integers, and the ternary bytes (R98, R99, R105, R142 to R144): O11.
-/
namespace Sys2Proof.Machine

/-! ## Integers in n bits -/

/-- An n-bit reading looks at the low n bits. -/
theorem toInt_mod (sg : Bool) {n k : Nat} (h : n ≤ k) (v : Nat) : toInt sg n (v % 2 ^ k) = toInt sg n v := by
  rw [toInt, toInt, Nat.mod_mod_of_dvd _ (Nat.pow_dvd_pow 2 h)]

theorem toInt_eq_intOfBits_ofNat (sg : Bool) {n : Nat} (h : n ≤ 64) (v : Nat) :
    toInt sg n v = intOfBits sg n (BitVec.ofNat 64 v) := by
  rw [← toInt_eq_intOfBits sg _ h, BitVec.toNat_ofNat, toInt_mod sg h]

theorem toInt_emod (sg : Bool) (n v : Nat) : toInt sg n v % 2 ^ n = (v : Int) % 2 ^ n := by
  unfold toInt
  dsimp only
  split <;> simp

theorem wrapInt_natCast (n v : Nat) : wrapInt n (v : Int) = v % 2 ^ n := by
  rw [wrapInt]
  norm_cast

theorem natCast_wrapInt (n : Nat) (v : Int) : ((wrapInt n v : Nat) : Int) = v % 2 ^ n :=
  Int.toNat_of_nonneg (Int.emod_nonneg _ (by positivity))

theorem wrapInt_lt (n : Nat) (v : Int) : wrapInt n v < 2 ^ n := by
  zify
  rw [natCast_wrapInt]
  exact Int.emod_lt_of_pos _ (by positivity)

/-- Wrapping to n bits and reading them back changes no residue of 2^n. -/
theorem ofInt_toInt_wrapInt (sg : Bool) (n : Nat) (v : Int) : BitVec.ofInt n (toInt sg n (wrapInt n v)) = BitVec.ofInt n v := by
  apply BitVec.eq_of_toNat_eq
  have hmod : toInt sg n (wrapInt n v) % 2 ^ n = v % 2 ^ n := by rw [toInt_emod, natCast_wrapInt, Int.emod_emod]
  rw [BitVec.toNat_ofInt, BitVec.toNat_ofInt]
  push_cast
  rw [hmod]

/-- An integer of a type's range comes back from its n bits. -/
theorem toInt_wrapInt_of_mem {sg : Bool} {n : Nat} {v : Int} (hn : 0 < n) (hlow : (rangeOf sg n).1 ≤ v)
    (hhigh : v ≤ (rangeOf sg n).2) : toInt sg n (wrapInt n v) = v := by
  obtain ⟨k, rfl⟩ : ∃ k, n = k + 1 := Nat.exists_eq_succ_of_ne_zero hn.ne'
  have htwo : (2 : Int) ^ (k + 1) = 2 * 2 ^ k := pow_succ' ..
  unfold rangeOf at hlow hhigh
  unfold toInt
  rw [Nat.mod_eq_of_lt (wrapInt_lt ..)]
  zify
  rw [natCast_wrapInt]
  cases sg with
  | false =>
    simp only [Bool.false_eq_true, if_false] at hlow hhigh
    simpa using Int.emod_eq_of_lt hlow (by omega)
  | true =>
    simp only [if_true, Nat.add_sub_cancel] at hlow hhigh
    obtain hneg | hnonneg := lt_or_ge v 0
    · have hv : v % 2 ^ (k + 1) = v + 2 ^ (k + 1) := by
        rw [← Int.add_emod_right, Int.emod_eq_of_lt (by omega) (by omega)]
      rw [hv]
      simp only [Nat.add_sub_cancel, Bool.true_and, decide_eq_true_eq]
      rw [if_pos (by omega)]
      ring
    · rw [Int.emod_eq_of_lt hnonneg (by omega)]
      simp only [Nat.add_sub_cancel, Bool.true_and, decide_eq_true_eq]
      rw [if_neg (by omega)]

/-! ## Integers in registers (Table 5.4) -/

/-- A register holds the n bits of an integer, extended to 32 bits where they are fewer. -/
theorem intRegister_eq (sg : Bool) (n : Nat) (v : Int) :
    intRegister sg n v =
      if n = 64 then BitVec.ofInt 64 (toInt sg n (wrapInt n v))
      else (BitVec.ofInt 32 (toInt sg n (wrapInt n v))).setWidth 64 := by
  unfold intRegister
  split
  · next hn => rw [hn, ofInt_toInt_wrapInt, ofNat_wrapInt 64 v le_rfl, BitVec.setWidth_eq]
  · next hn => exact ofNat_wrapInt 32 _ (by decide)

theorem intOf_width {code : Nat} {sg : Bool} {n : Nat} (h : intOf code = some (sg, n)) : 0 < n ∧ n ≤ 64 := by
  unfold intOf at h
  split at h <;> simp_all <;> omega

theorem zero_mem_rangeOf (sg : Bool) (n : Nat) : (rangeOf sg n).1 ≤ 0 ∧ 0 ≤ (rangeOf sg n).2 := by
  have hhalf : (0 : Int) < 2 ^ (n - 1) := by positivity
  have hfull : (0 : Int) < 2 ^ n := by positivity
  unfold rangeOf
  cases sg <;> simp <;> omega

/-- A conversion to an integer saturates to its range (R98). -/
theorem fToInt_mem_range (f : Fmt) (r : Rounding) {lo hi : Int} (hlo : lo ≤ 0) (hhi : 0 ≤ hi) (a : Nat) :
    lo ≤ (fToInt f r lo hi a).1 ∧ (fToInt f r lo hi a).1 ≤ hi := by
  unfold fToInt
  split
  · exact ⟨hlo, hhi⟩
  · split <;> dsimp only <;> omega
  · dsimp only
    split_ifs <;> dsimp only <;> omega

/-! ## Conversions by the kinds of the two types (R143) -/

section
variable {dst src : Nat}

theorem convert_float_float {f g : Fmt} (hs : fmtOf src = some f) (hd : fmtOf dst = some g) (r : Rounding) (a : Nat) :
    convert dst src r a = (BitVec.ofNat 64 (fToF f g r a).1, (fToF f g r a).2) := by
  rw [convert, hs, hd]

theorem convert_float_int {f : Fmt} {sg : Bool} {n : Nat} (hs : fmtOf src = some f) (hd : fmtOf dst = none)
    (hi : intOf dst = some (sg, n)) (r : Rounding) (a : Nat) :
    convert dst src r a =
      let v := fToInt f r (rangeOf sg n).1 (rangeOf sg n).2 a
      (if n = 64 then BitVec.ofInt 64 v.1 else (BitVec.ofInt 32 v.1).setWidth 64, v.2) := by
  obtain ⟨hlo, hhi⟩ := zero_mem_rangeOf sg n
  obtain ⟨hlow, hhigh⟩ := fToInt_mem_range f r hlo hhi a
  simp only [convert, hs, hd, hi, intRegister_eq, toInt_wrapInt_of_mem (intOf_width hi).1 hlow hhigh]

theorem convert_int_float {g : Fmt} {sg : Bool} {n : Nat} (hs : fmtOf src = none) (hi : intOf src = some (sg, n))
    (hd : fmtOf dst = some g) (r : Rounding) (a : Nat) :
    convert dst src r a =
      let v := intToF g r (intOfBits sg n (BitVec.ofNat 64 a))
      (BitVec.ofNat 64 v.1, v.2) := by
  simp only [convert, hs, hd, hi, toInt_eq_intOfBits_ofNat sg (intOf_width hi).2]

theorem convert_int_int {sg sg' : Bool} {n n' : Nat} (hs : fmtOf src = none) (hd : fmtOf dst = none)
    (hi : intOf src = some (sg, n)) (hi' : intOf dst = some (sg', n')) (r : Rounding) (a : Nat) :
    convert dst src r a =
      let y := intOfBits sg' n' (resBits r.sat sg' n' (intOfBits sg n (BitVec.ofNat 64 a)))
      (if n' = 64 then BitVec.ofInt 64 y else (BitVec.ofInt 32 y).setWidth 64, 0) := by
  have hwidth := (intOf_width hi').2
  simp only [convert, hs, hd, hi, hi', intRegister_eq, wrapInt_natCast, toInt_mod sg' (le_refl n'),
    toInt_eq_intOfBits_ofNat sg (intOf_width hi).2, toInt_eq_intOfBits_ofNat sg' hwidth, ofNat_narrow _ _ _ _ hwidth]

end

/-! ## Ternary bytes (R105, R144) -/

theorem foldl_add_or {α : Type} (g : α → Nat) (p : α → Bool) (l : List α) (d : Nat) (b : Bool) :
    l.foldl (fun x j => (x.1 + g j, x.2 || p j)) (d, b) = (d + (l.map g).sum, b || l.any p) := by
  induction l generalizing d b with
  | nil => simp
  | cons j l ih => simp [ih, Nat.add_assoc, Bool.or_assoc]

/-- A field of a trit as its digit of a byte, −1 as 2. -/
def tritDigit (field : Nat) : Nat :=
  match field with
  | 1 => 1
  | 3 => 2
  | _ => 0

theorem tritDigit_eq : ∀ v < 4, (if v % 2 = 0 then 0 else if v < 2 then 1 else 2) = tritDigit v := by decide

theorem tripckBits_eq (a : Nat) :
    tripckBits a = bytesNat 4 fun j => ((List.range 5).map fun i => tritDigit (a / 2 ^ (10 * j + 2 * i) % 4) * 3 ^ i).sum := by
  have hbyte (j : Nat) : tritByte (a / 2 ^ (10 * j)) =
      ((List.range 5).map fun i => tritDigit (a / 2 ^ (10 * j + 2 * i) % 4) * 3 ^ i).sum := by
    have hdiv (i : Nat) : a / 2 ^ (10 * j) / 4 ^ i = a / 2 ^ (10 * j + 2 * i) := by
      rw [show 4 = 2 ^ 2 from rfl, ← pow_mul, Nat.div_div_eq_div_mul, ← pow_add]
    have hdigit (i : Nat) := tritDigit_eq (a / 2 ^ (10 * j + 2 * i) % 4) (Nat.mod_lt _ (by decide))
    simp only [tritByte, hdigit, hdiv, List.sum_eq_foldl_nat, List.foldl_map]
  simp only [tripckBits, hbyte, bytesNat, List.sum_eq_foldl_nat, List.foldl_map]

/-- Trit i of a byte that is not reserved. -/
def tritValue (b i : Nat) : Int :=
  match b / 3 ^ i % 3 with
  | 0 => 0
  | 1 => 1
  | _ => -1

theorem tritsOf_eq (b : Nat) :
    tritsOf b = if 243 ≤ b then ([0, 0, 0, 0, 0], true) else ((List.range 5).map (tritValue b), false) := rfl

/-- The field of that trit. -/
def tritField (b i : Nat) : Nat :=
  match b / 3 ^ i % 3 with
  | 0 => 0
  | 1 => 1
  | _ => 3

theorem tritField_eq (b i : Nat) : (if tritValue b i = 0 then 0 else if tritValue b i = 1 then 1 else 3) = tritField b i := by
  unfold tritValue tritField
  split <;> rfl

theorem tritsOf_reserved (b : Nat) : (tritsOf b).2 = decide (243 ≤ b) := by
  rw [tritsOf_eq]
  split <;> simp_all

/-- The fields of a byte's trits, from bit k; those of a reserved byte are zero. -/
theorem foldl_tritsOf (b k d : Nat) :
    (tritsOf b).1.zipIdx.foldl (fun d (x, i) => d + (if x = 0 then 0 else if x = 1 then 1 else 3) * 2 ^ (k + 2 * i)) d =
      d + ((List.range 5).map fun i => (if b < 243 then tritField b i else 0) * 2 ^ (k + 2 * i)).sum := by
  rw [tritsOf_eq]
  split
  · next h => simp [Nat.not_lt.2 h, List.range_succ]
  · next h => simp [Nat.lt_of_not_le h, List.range_succ, ← tritField_eq, Nat.add_assoc]

theorem triunpBits_eq (a : Nat) :
    triunpBits a =
      (((List.range 4).map fun j => ((List.range 5).map fun i =>
          (if a / 256 ^ j % 256 < 243 then tritField (a / 256 ^ j % 256) i else 0) * 2 ^ (10 * j + 2 * i)).sum).sum,
        (List.range 4).any fun j => 243 ≤ a / 256 ^ j % 256) := by
  simp only [triunpBits, foldl_tritsOf, tritsOf_reserved, foldl_add_or, Nat.zero_add, Bool.false_or]

/-- Settles O11: the instructions by their bodies, a conversion by the kinds of its two types. -/
theorem conversionsAndTernary : Obligations.ConversionsAndTernary := by
  unfold Obligations.ConversionsAndTernary
  refine ⟨fun w => ⟨?_, ?_, ?_⟩, fun dst src r a => ⟨?_, ?_, ?_, ?_⟩⟩
  · exact completes_of_done (fun _ => rfl) rfl fun _ _ _ _ => ⟨rfl, rfl⟩
  · refine completes_of_done (body := tripckBody) (fun _ => rfl) rfl fun c s _ _ => ⟨?_, rfl⟩
    simp only [tripckBody, tripckBits_eq]
    rfl
  · refine completes_of_done (body := triunpBody) (fun _ => rfl) rfl fun c s _ _ => ⟨?_, rfl⟩
    simp only [triunpBody, triunpBits_eq]
    rfl
  · exact fun f g hs hd => convert_float_float hs hd r a
  · exact fun f sg n hs hd hi => convert_float_int hs hd hi r a
  · exact fun g sg n hs hi hd => convert_int_float hs hi hd r a
  · exact fun sg n sg' n' hs hd hi hi' => convert_int_int hs hd hi hi' r a

end Sys2Proof.Machine
end

section
/-!
Quotients and roots that stand for exact ones (R139), and the order of compared values (R137).
-/
namespace Sys2Proof.Machine

/-! ## Comparison (R137, Table 7.4) -/

theorem FVal.beq_nan (v : FVal) : (v == .nan true || v == .nan false) = v.isNaN := by
  cases v with
  | nan b => cases b <;> rfl
  | _ => rfl

theorem FVal.order_isNone (x y : FVal) : (x.order y).isNone = (x.isNaN || y.isNaN) := by
  cases x <;> cases y <;> rfl

theorem FVal.order_swap (x y : FVal) : y.order x = (x.order y).map Ordering.swap := by
  cases x with
  | nan b => cases y <;> rfl
  | inf n => cases y with
    | nan b => rfl
    | inf k => cases n <;> cases k <;> rfl
    | fin k d g => cases n <;> rfl
  | fin n m e => cases y with
    | nan b => rfl
    | inf k => cases k <;> rfl
    | fin k d g => simp [FVal.order, FVal.ex, min_comm g e, Int.compare_swap]

/-- What the conditions say of an order, by which of the orders it is. -/
theorem fCompare_eq (f : Fmt) (ftz : Bool) {cc : Nat} (hcc : cc < 14) (a b : Nat) :
    let x := f.value (f.flushIn ftz a)
    let y := f.value (f.flushIn ftz b)
    fCompare f ftz cc a b = (conditionHolds cc (x.order y),
      if (x.isNaN || y.isNaN) && decide (2 ≤ cc ∧ cc ≤ 5) then flagNV else nvOf [x, y]) := by
  have hflag (p : Bool) : (p && decide (2 ≤ cc) && decide (cc ≤ 5)) = (p && decide (2 ≤ cc ∧ cc ≤ 5)) := by
    rw [Bool.and_assoc, Bool.decide_and]
  unfold fCompare
  simp only [fLess_eq, Bool.false_and, Bool.or_false, FVal.beq_nan, ← FVal.order_isNone, hflag]
  rw [FVal.order_swap (f.value (f.flushIn ftz a))]
  generalize (f.value (f.flushIn ftz a)).order (f.value (f.flushIn ftz b)) = o
  refine Prod.ext ?_ rfl
  obtain _ | _ | _ | _ := o <;> interval_cases cc <;> rfl

/-- The classes of finite values by their magnitudes (R138, Table 7.5). -/
theorem fClass_eq (f : Fmt) (a : Nat) :
    fClass f a = match f.value a with
      | .inf n => if n then 0 else 7
      | .nan s => if s then 8 else 9
      | .fin n m _ =>
        if m = 0 then (if n then 3 else 4) else if m < 2 ^ f.fb then (if n then 2 else 5) else (if n then 1 else 6) := by
  unfold fClass
  cases h : f.value a with
  | fin n m e =>
    have hexpo : f.expo a = 0 ↔ m < 2 ^ f.fb := by
      have hfrac := f.frac_lt a
      obtain ⟨-, -, ⟨h0, rfl, -⟩ | ⟨h0, rfl, -⟩⟩ := Fmt.value_eq_fin h <;> omega
    simp only [hexpo]
  | _ => rfl

/-! ## Numbers with a sticky bit -/

theorem two_mul_add_sticky (q : Nat) (p : Prop) [Decidable p] :
    let N := 2 * q + if p then 0 else 1
    N / 2 = q ∧ (N % 2 = 0 ↔ p) ∧ (N % 2 = 1 ↔ ¬p) := by
  dsimp only
  split <;> simp_all
  omega

/-- A quotient with a sticky bit for its remainder stands for the exact one. -/
theorem stands_div (num : Nat) {den : Nat} (h : 0 < den) :
    Stands (2 * (num / den) + if num % den = 0 then 0 else 1) num den := by
  obtain ⟨hq, heven, hodd⟩ := two_mul_add_sticky (num / den) (num % den = 0)
  rw [Stands, hq, heven, hodd]
  have hdiv : num / den * den + num % den = num := Nat.div_add_mod' ..
  have hlt := Nat.lt_mul_of_div_lt (Nat.lt_succ_self (num / den)) h
  exact ⟨fun h0 => by omega, fun h0 => ⟨by omega, hlt⟩⟩

/-- The bits that the model's quotient keeps: enough that the sticky bit lies below every rounding position. -/
theorem quotient_spec (f : Fmt) {m d : Nat} (hm : m ≠ 0) (hd : d ≠ 0) (e g : Int) :
    ∃ N h : Nat, Stands N (m * 2 ^ h) d ∧ 2 ^ (f.fb + 3) ≤ N ∧ quotient f m e d g = (N, e - g - h - 1) := by
  refine ⟨_, _, stands_div (m * 2 ^ (f.fb + 4 + bitLength d)) (Nat.pos_of_ne_zero hd), ?_, rfl⟩
  have hdlt : d < 2 ^ bitLength d := (bitLength_le_iff ..).1 le_rfl
  have hq : 2 ^ (f.fb + 4) ≤ m * 2 ^ (f.fb + 4 + bitLength d) / d := by
    rw [Nat.le_div_iff_mul_le (Nat.pos_of_ne_zero hd), pow_add _ _ (bitLength d)]
    calc 2 ^ (f.fb + 4) * d ≤ 2 ^ (f.fb + 4) * 2 ^ bitLength d := Nat.mul_le_mul_left _ hdlt.le
      _ ≤ m * (2 ^ (f.fb + 4) * 2 ^ bitLength d) := Nat.le_mul_of_pos_left _ (Nat.pos_of_ne_zero hm)
  have hpow : 2 ^ (f.fb + 3) ≤ 2 ^ (f.fb + 4) := Nat.pow_le_pow_right (by decide) (by omega)
  omega

theorem roundTo_of_ne_zero (f : Fmt) (r : Rounding) (neg : Bool) {m : Nat} (h : m ≠ 0) (e : Int) :
    roundTo f r neg m e = roundFin f r neg m e := if_neg h

theorem ne_zero_of_pow_le {k n : Nat} (h : 2 ^ k ≤ n) : n ≠ 0 := ((Nat.two_pow_pos k).trans_le h).ne'

/-- A quotient of finite numbers is one rounding of a number that stands for the exact one (R139). -/
theorem fDiv_fin {f : Fmt} {r : Rounding} {a b : Nat} {n k : Bool} {m d : Nat} {e g : Int}
    (hx : f.value (f.flushIn r.ftz a) = .fin n m e) (hy : f.value (f.flushIn r.ftz b) = .fin k d g) (hm : m ≠ 0)
    (hd : d ≠ 0) : ∃ N h : Nat,
      Stands N (m * 2 ^ h) d ∧ 2 ^ (f.fb + 3) ≤ N ∧ fDiv f r a b = roundTo f r (n != k) N (e - g - h - 1) := by
  obtain ⟨N, h, hstands, hN, hquot⟩ := quotient_spec f hm hd e g
  refine ⟨N, h, hstands, hN, ?_⟩
  rw [roundTo_of_ne_zero _ _ _ (ne_zero_of_pow_le hN)]
  simp only [fDiv, hx, hy, if_neg hm, if_neg hd, hquot]

/-- A quotient by the kinds of its operands (R139). -/
theorem fDiv_eq (f : Fmt) (r : Rounding) (a b : Nat) :
    let x := f.value (f.flushIn r.ftz a)
    let y := f.value (f.flushIn r.ftz b)
    fDiv f r a b = match x, y with
      | .nan _, _ | _, .nan _ => (f.canonNaN, nvOf [x, y])
      | .inf _, .inf _ => (f.canonNaN, flagNV)
      | .inf n, .fin k _ _ => (f.infinity (n != k), 0)
      | .fin n _ _, .inf k => (f.pack (n != k) 0 0, 0)
      | .fin n m _, .fin k d _ =>
        if d = 0 then (if m = 0 then (f.canonNaN, flagNV) else (f.infinity (n != k), flagDZ))
        else if m = 0 then (f.pack (n != k) 0 0, 0)
        else fDiv f r a b := by
  dsimp only
  cases hx : f.value (f.flushIn r.ftz a) with
  | nan s => cases hy : f.value (f.flushIn r.ftz b) <;> simp only [fDiv, hx, hy]
  | inf n => cases hy : f.value (f.flushIn r.ftz b) <;> simp only [fDiv, hx, hy]
  | fin n m e =>
    cases hy : f.value (f.flushIn r.ftz b) with
    | fin k d g =>
      dsimp only
      split_ifs with hd hm hm
      · simp only [fDiv, hx, hy, if_pos hd, if_pos hm]
      · simp only [fDiv, hx, hy, if_pos hd, if_neg hm]
      · simp only [fDiv, hx, hy, if_neg hd, if_pos hm]
      · rfl
    | _ => simp only [fDiv, hx, hy]

/-! ## Square roots -/

/-- The root bit by bit: what is found is at most the root, and less than a bit's weight below it. -/
theorem isqrtFrom_spec (n : Nat) (k r : Nat) (hle : r * r ≤ n) (hlt : n < (r + 2 ^ k) * (r + 2 ^ k)) :
    isqrtFrom n k r * isqrtFrom n k r ≤ n ∧ n < (isqrtFrom n k r + 1) * (isqrtFrom n k r + 1) := by
  induction k generalizing r with
  | zero => exact ⟨hle, hlt⟩
  | succ k ih =>
    unfold isqrtFrom
    dsimp only
    split
    · next h =>
      refine ih _ h ?_
      rwa [Nat.add_assoc, ← Nat.two_mul, ← Nat.pow_succ']
    · next h => exact ih _ hle (Nat.lt_of_not_le h)

theorem isqrt_spec (n : Nat) : isqrt n * isqrt n ≤ n ∧ n < (isqrt n + 1) * (isqrt n + 1) := by
  refine isqrtFrom_spec n _ 0 (Nat.zero_le _) ?_
  rw [Nat.zero_add, ← pow_add]
  exact ((bitLength_le_iff ..).1 le_rfl).trans_le (Nat.pow_le_pow_right (by decide) (by omega))

/-- A root of a finite number is one rounding of a number that stands for the exact one (R139). -/
theorem fSqrt_fin {f : Fmt} {r : Rounding} {a m : Nat} {e : Int} (hx : f.value (f.flushIn r.ftz a) = .fin false m e)
    (hm : m ≠ 0) : ∃ (N h : Nat) (u : Int),
      e - h = 2 * (u + 1) ∧ 2 ^ (f.fb + 3) ≤ N ∧
      (N % 2 = 0 → N / 2 * (N / 2) = m * 2 ^ h) ∧
      (N % 2 = 1 → N / 2 * (N / 2) < m * 2 ^ h ∧ m * 2 ^ h < (N / 2 + 1) * (N / 2 + 1)) ∧
      fSqrt f r a = roundTo f r false N u := by
  obtain ⟨i, e2, he, hi, heven, hm2⟩ : ∃ (i : Nat) (e2 : Int), e = e2 + i ∧ (if e % 2 = 0 then e else e - 1) = e2 ∧
      e2 % 2 = 0 ∧ (if e % 2 = 0 then m else 2 * m) = m * 2 ^ i := by
    rcases Int.emod_two_eq_zero_or_one e with h | h
    · exact ⟨0, e, by simp, if_pos h, h, by simp [h]⟩
    · exact ⟨1, e - 1, by simp, if_neg (by omega), by omega, by simp [h, Nat.mul_comm]⟩
  have hbig : m * 2 ^ i * 2 ^ (2 * (f.fb + 4)) = m * 2 ^ (i + 2 * (f.fb + 4)) := by rw [pow_add, Nat.mul_assoc]
  obtain ⟨hle, hlt⟩ := isqrt_spec (m * 2 ^ (i + 2 * (f.fb + 4)))
  have hq : 2 ^ (f.fb + 4) ≤ isqrt (m * 2 ^ (i + 2 * (f.fb + 4))) := by
    refine Nat.lt_succ_iff.1 (Nat.mul_self_lt_mul_self_iff.1 (lt_of_le_of_lt ?_ hlt))
    rw [← pow_add]
    exact (Nat.pow_le_pow_right (by decide) (by omega)).trans (Nat.le_mul_of_pos_left _ (Nat.pos_of_ne_zero hm))
  have hpow : 2 ^ (f.fb + 3) ≤ 2 ^ (f.fb + 4) := Nat.pow_le_pow_right (by decide) (by omega)
  generalize hroot : isqrt (m * 2 ^ (i + 2 * (f.fb + 4))) = q at hle hlt hq
  obtain ⟨hhalf, h0, h1⟩ := two_mul_add_sticky q (q * q = m * 2 ^ (i + 2 * (f.fb + 4)))
  have hN : 2 ^ (f.fb + 3) ≤ 2 * q + if q * q = m * 2 ^ (i + 2 * (f.fb + 4)) then 0 else 1 := by omega
  refine ⟨_, i + 2 * (f.fb + 4), e2 / 2 - (f.fb + 4 : Nat) - 1, by omega, hN, ?_, ?_, ?_⟩
  · rw [hhalf, h0]
    exact id
  · rw [hhalf, h1]
    exact fun h => ⟨lt_of_le_of_ne hle h, hlt⟩
  · rw [roundTo_of_ne_zero _ _ _ (ne_zero_of_pow_le hN)]
    simp only [fSqrt, hx, if_neg hm, Bool.false_eq_true, if_false, hm2, hi, hbig, hroot]

/-- A root by the kinds of its operand (R139). -/
theorem fSqrt_eq (f : Fmt) (r : Rounding) (a : Nat) :
    let x := f.value (f.flushIn r.ftz a)
    fSqrt f r a = match x with
      | .nan _ => (f.canonNaN, nvOf [x])
      | .inf n => if n then (f.canonNaN, flagNV) else (f.infinity false, 0)
      | .fin n m _ => if m = 0 then (f.pack n 0 0, 0) else if n then (f.canonNaN, flagNV) else fSqrt f r a := by
  dsimp only
  cases hx : f.value (f.flushIn r.ftz a) with
  | nan s => cases s <;> simp only [fSqrt, hx] <;> rfl
  | inf n => simp only [fSqrt, hx]
  | fin n m e =>
    dsimp only
    split_ifs with hm hn
    · simp only [fSqrt, hx, if_pos hm]
    · simp only [fSqrt, hx, if_neg hm, if_pos hn]
    · rfl

end Sys2Proof.Machine
end

section
/-!
The exact and special cases of the approximate functions (R140, Table 7.6), and the instructions whose results have
variable latency (R132): O9.
-/
namespace Sys2Proof.Machine

/-! ## Powers of two and integer parts -/

theorem bitLength_two_pow (i : Nat) : bitLength (2 ^ i) = i + 1 :=
  bitLength_eq_succ le_rfl (Nat.pow_lt_pow_right (by decide) (Nat.lt_succ_self i))

theorem isPow2_two_pow (i : Nat) : isPow2 (2 ^ i) = true := by simp [isPow2, bitLength_two_pow]

/-- The integer part of m × 2^e. -/
def intPart (m : Nat) (e : Int) : Nat := if 0 ≤ e then m * 2 ^ e.toNat else m / 2 ^ (-e).toNat

theorem le_intPart_iff (k m : Nat) (e : Int) : k ≤ intPart m e ↔ k * 2 ^ (-e).toNat ≤ m * 2 ^ e.toNat := by
  unfold intPart
  split
  · next h => rw [show (-e).toNat = 0 by omega, pow_zero, Nat.mul_one]
  · next h => rw [show e.toNat = 0 by omega, pow_zero, Nat.mul_one, Nat.le_div_iff_mul_le (by positivity)]

/-- An integer is its own integer part. -/
theorem intPart_of_eq {k m : Nat} {e : Int} (h : m * 2 ^ e.toNat = k * 2 ^ (-e).toNat) :
    intPart m e = k ∧ (decide (0 ≤ e) || decide (m % 2 ^ (-e).toNat = 0)) = true := by
  unfold intPart
  rw [Bool.or_eq_true, decide_eq_true_eq, decide_eq_true_eq]
  split
  · next he =>
    rw [show (-e).toNat = 0 by omega, pow_zero, Nat.mul_one] at h
    exact ⟨h, .inl he⟩
  · next he =>
    rw [show e.toNat = 0 by omega, pow_zero, Nat.mul_one] at h
    exact ⟨h ▸ Nat.mul_div_cancel _ (by positivity), .inr (h ▸ Nat.mul_mod_left ..)⟩

/-- A signed magnitude that is an integer: the magnitude's integer part with the sign. -/
theorem intPart_of_signed_eq {n : Bool} {m : Nat} {e k : Int}
    (h : (if n then -(m : Int) else m) * 2 ^ e.toNat = k * 2 ^ (-e).toNat) :
    (if n then -(intPart m e : Int) else intPart m e) = k ∧
      (decide (0 ≤ e) || decide (m % 2 ^ (-e).toNat = 0)) = true := by
  obtain ⟨j, hj⟩ : ∃ j : Nat, k = if n then -(j : Int) else j := by
    have hpos : (0 : Int) < 2 ^ (-e).toNat := by positivity
    have hm : (0 : Int) ≤ m * 2 ^ e.toNat := by positivity
    cases n with
    | false =>
      exact ⟨k.toNat, (Int.toNat_of_nonneg (nonneg_of_mul_nonneg_left (h ▸ hm) hpos)).symm⟩
    | true =>
      have hk : 0 ≤ -k := nonneg_of_mul_nonneg_left (by rw [neg_mul, ← h]; simp) hpos
      exact ⟨(-k).toNat, by simp only [if_true]; omega⟩
  have hnat : m * 2 ^ e.toNat = j * 2 ^ (-e).toNat := by
    zify
    cases n <;> simpa [hj] using h
  obtain ⟨hpart, hexact⟩ := intPart_of_eq hnat
  exact ⟨by rw [hpart, hj], hexact⟩

/-! ## Operands that are not finite, or zero, or below zero -/

section
variable {op : Nat} {ftz : Bool} {a : Nat}

theorem fApprox_nan {s : Bool} (hx : fp32.value (fp32.flushIn ftz a) = .nan s) :
    fApprox op ftz a = (fp32.canonNaN, nvOf [.nan s]) := by
  simp only [fApprox, hx]
  cases s <;> rfl

theorem fApprox_inf {n : Bool} (hx : fp32.value (fp32.flushIn ftz a) = .inf n) :
    fApprox 0x69 ftz a = (if n then (fp32.canonNaN, flagNV) else (0, 0)) ∧
      fApprox 0x6C ftz a = (if n then (0, 0) else (fp32.infinity false, 0)) ∧
      fApprox 0x6D ftz a = (if n then (fp32.canonNaN, flagNV) else (fp32.infinity false, 0)) ∧
      fApprox 0x6E ftz a = (fp32.canonNaN, flagNV) ∧ fApprox 0x6F ftz a = (fp32.canonNaN, flagNV) := by
  simp only [fApprox, hx, and_self]

theorem fApprox_zero {n : Bool} {e : Int} (hx : fp32.value (fp32.flushIn ftz a) = .fin n 0 e) :
    fApprox 0x69 ftz a = (fp32.infinity n, flagDZ) ∧ fApprox 0x6C ftz a = (fp32.one, 0) ∧
      fApprox 0x6D ftz a = (fp32.infinity true, flagDZ) ∧ fApprox 0x6E ftz a = (fp32.flushIn ftz a, 0) ∧
      fApprox 0x6F ftz a = (fp32.one, 0) := by
  simp [fApprox, hx]

theorem fApprox_negative {m : Nat} {e : Int} (hx : fp32.value (fp32.flushIn ftz a) = .fin true m e) (hm : m ≠ 0) :
    fApprox 0x69 ftz a = (fp32.canonNaN, flagNV) ∧ fApprox 0x6D ftz a = (fp32.canonNaN, flagNV) := by
  simp only [fApprox, hx, if_neg hm, if_true, and_self]

/-! ## Exact results -/

/-- The reciprocal root of an even power of two is a power of two. -/
theorem fApprox_rsq_two_pow {i : Nat} {e k : Int} (hx : fp32.value (fp32.flushIn ftz a) = .fin false (2 ^ i) e)
    (hk : e + i = 2 * k) : fApprox 0x69 ftz a = roundTo fp32 {} false 1 (-k) := by
  have hlog : e + ((i + 1 : Nat) : Int) - 1 = 2 * k := by omega
  simp only [fApprox, hx, if_neg (Nat.two_pow_pos i).ne', isPow2_two_pow, bitLength_two_pow, hlog]
  simp

/-- The logarithm of a power of two is its exponent. -/
theorem fApprox_log_two_pow {i : Nat} {e : Int} (hx : fp32.value (fp32.flushIn ftz a) = .fin false (2 ^ i) e) :
    fApprox 0x6D ftz a = roundTo fp32 {} (decide (e + i < 0)) (e + i).natAbs 0 := by
  have hlog : e + ((i + 1 : Nat) : Int) - 1 = e + i := by omega
  simp only [fApprox, hx, if_neg (Nat.two_pow_pos i).ne', isPow2_two_pow, bitLength_two_pow, hlog, intToF,
    Bool.false_eq_true, if_false, if_true]

/-- An exponential overflows from 128. -/
theorem fApprox_exp_overflow {m : Nat} {e : Int} (hx : fp32.value (fp32.flushIn ftz a) = .fin false m e)
    (h : 128 * 2 ^ (-e).toNat ≤ m * 2 ^ e.toNat) : fApprox 0x6C ftz a = (fp32.infinity false, flagOF ||| flagNX) := by
  have hm : m ≠ 0 := by
    rintro rfl
    have hpos := Nat.two_pow_pos (-e).toNat
    omega
  have hpart : 128 ≤ intPart m e := (le_intPart_iff ..).2 h
  unfold intPart at hpart
  simp only [fApprox, hx, if_neg hm, hpart]
  rfl

/-- The exponential of an integer is a power of two. -/
theorem fApprox_exp_int {n : Bool} {m : Nat} {e k : Int} (hx : fp32.value (fp32.flushIn ftz a) = .fin n m e)
    (h : (if n then -(m : Int) else m) * 2 ^ e.toNat = k * 2 ^ (-e).toNat) (hlow : -149 ≤ k) (hhigh : k < 128) :
    fApprox 0x6C ftz a =
      let w := (roundTo fp32 {} false 1 k).1
      if ftz && fp32.subnormal w then (0, flagUF ||| flagNX) else (w, 0) := by
  obtain ⟨hpart, hexact⟩ := intPart_of_signed_eq h
  by_cases hm : m = 0
  · subst hm
    have hk : k = 0 := by
      rw [← hpart]
      cases n <;> simp [intPart]
    subst hk
    rw [(fApprox_zero hx).2.1]
    cases ftz <;> rfl
  · have hsmall : (!n && decide (128 ≤ intPart m e)) = false := by
      cases n with
      | true => rfl
      | false =>
        simp only [Bool.false_eq_true, if_false] at hpart
        simp only [Bool.not_false, Bool.true_and, decide_eq_false_iff_not]
        omega
    unfold intPart at hpart hsmall
    simp only [fApprox, hx, if_neg hm, hsmall, hexact, hpart, if_pos hlow, if_true, Bool.false_eq_true, if_false]

end

/-! ## Instructions -/

section
variable {i : Instr} {op : Nat} {w : Fields}

/-- An instruction whose body gives values and flags by thread, with variable latency, completes with them (R132). -/
theorem completes_of_floatBy_later {k : FloatClass} (hk : k.lat = none) {f : Ctx → State → Nat → Nat × Flags}
    (he : ∀ s, exec i s = s.issue op w fun c s => floatBy k (f c s) c s) (ho : opFields i = some (op, w)) :
    Completes i (floatLater k.wide f) :=
  completes_of_done he ho fun c s _ _ => ⟨by rw [floatBy, floatDone, hk]; rfl, rfl⟩

/-- The approximate functions are told apart by the opcode of the word (R140). -/
theorem completes_of_floatApprox (he : ∀ s, exec i s = s.issue op w floatApprox) (ho : opFields i = some (op, w)) :
    Completes i (floatLater false (on1 false fun r => fApprox op r.ftz)) :=
  completes_of_done he ho fun c s hop _ => ⟨by rw [← hop]; rfl, rfl⟩

end

/-- Settles O9: the instructions by their classes, and each function by the kinds of its operands' values. -/
theorem floatComparesAndVariableLatency : Obligations.FloatComparesAndVariableLatency := by
  unfold Obligations.FloatComparesAndVariableLatency
  refine ⟨fun w => ?_, fun w a d u y => ?_, fun f r a b cc => ?_, by decide, fun ftz a => ?_⟩
  · refine ⟨?_, ?_, ?_, ?_⟩
    all_goals exact completes_of_done (fun _ => rfl) rfl fun _ _ _ _ => ⟨rfl, rfl⟩
  · refine ⟨?_, ?_, ?_, ?_, ?_, ?_, ?_, ?_, ?_, ?_, ?_, ?_, ?_, ?_, ?_, ?_, ?_, ?_, ?_, ?_⟩
    iterate 5 exact completes_of_floatBy_later (k := singleLater) rfl (fun _ => rfl) rfl
    iterate 5 exact completes_of_floatBy_later (k := doubleLater) rfl (fun _ => rfl) rfl
    all_goals exact completes_of_floatApprox (fun _ => rfl) rfl
  · exact ⟨fun hcc => fCompare_eq f r.ftz hcc a b, fClass_eq f a, rfl, fDiv_eq f r a b,
      fun _ _ _ _ _ _ hx hy hm hd => fDiv_fin hx hy hm hd, fSqrt_eq f r a, fun _ _ hx hm => fSqrt_fin hx hm⟩
  · refine ⟨fun op _ hx => ?_, fun _ => fApprox_inf, fun _ _ => fApprox_zero, fun _ _ => fApprox_negative,
      fun _ _ _ => fApprox_rsq_two_pow, fun _ _ => fApprox_log_two_pow, fun n m e hx h hn => ?_,
      fun _ _ _ _ => fApprox_exp_int⟩
    · cases h : fp32.value (fp32.flushIn ftz a) with
      | nan s => exact fApprox_nan h
      | _ => rw [h] at hx; cases hx
    · exact fApprox_exp_overflow (hn ▸ hx) h

end Sys2Proof.Machine
end

section
/-!
Exact sums of values in groups, each rounded once (R107, R108).
-/
namespace Sys2Proof.Machine

/-! ## The value of an exact sum -/

/-- The exact sum of values, as a value: NaN for a NaN or infinities of both signs, an infinity for infinities of one; a
zero sum is −0 where every addend is (R96, R108). -/
def exactSum (l : List FVal) : FVal :=
  if noSum l then .nan false
  else if l.any FVal.isInf then .inf (l.contains (.inf true))
  else
    let v := (l.map (FVal.units (leastEx 0 l))).sum
    .fin (if v = 0 then l.all (FVal.isZero true) else decide (v < 0)) v.natAbs (leastEx 0 l)

theorem FVal.inf_beq (n : Bool) (x : FVal) : (FVal.inf n == x) = (x.isInf && x.neg == n) := by
  cases x with
  | inf k => cases n <;> cases k <;> rfl
  | _ => rfl

theorem contains_inf_cons (n : Bool) (x : FVal) (l : List FVal) :
    (x :: l).contains (.inf n) = ((x.isInf && x.neg == n) || l.contains (.inf n)) := by
  rw [List.contains_cons, FVal.inf_beq]

theorem any_isInf_eq (l : List FVal) : l.any FVal.isInf = (l.contains (.inf true) || l.contains (.inf false)) := by
  induction l with
  | nil => rfl
  | cons x l ih =>
    rw [List.any_cons, ih, contains_inf_cons, contains_inf_cons]
    cases x.isInf <;> cases x.neg <;> simp

/-- The lists of values with a sum: with infinities of one sign, or finite. -/
theorem kinds_of_sum {l : List FVal} (h : noSum l = false) :
    (∃ n, l.contains (.inf n) = true ∧ l.contains (.inf !n) = false) ∨ ∀ v ∈ l, v.isFin = true := by
  obtain ⟨hnan, hboth⟩ := Bool.or_eq_false_iff.1 h
  cases htrue : l.contains (.inf true) with
  | true =>
    rw [htrue, Bool.true_and] at hboth
    exact .inl ⟨true, htrue, hboth⟩
  | false =>
    cases hfalse : l.contains (.inf false) with
    | true => exact .inl ⟨false, hfalse, htrue⟩
    | false =>
      refine .inr fun v hv => ?_
      have hinf : l.any FVal.isInf = false := by rw [any_isInf_eq, htrue, hfalse, Bool.or_false]
      rw [FVal.isFin_eq, Bool.eq_false_iff.2 (List.any_eq_false.1 hnan v hv), Bool.eq_false_iff.2 (List.any_eq_false.1 hinf v hv)]
      rfl

section
variable {l : List FVal}

theorem noSum_of_isFin (h : ∀ v ∈ l, v.isFin = true) : noSum l = false := by
  rw [noSum, any_isNaN_of_isFin h, contains_inf_of_isFin h]
  rfl

theorem exactSum_of_noSum (h : noSum l = true) : exactSum l = .nan false := if_pos h

theorem exactSum_of_inf {n : Bool} (h : noSum l = false) (hn : l.contains (.inf n) = true)
    (hnot : l.contains (.inf !n) = false) : exactSum l = .inf n := by
  rw [exactSum, h, any_isInf_eq]
  cases n <;> simp_all

theorem exactSum_of_isFin (h : ∀ v ∈ l, v.isFin = true) :
    exactSum l =
      let v := (l.map (FVal.units (leastEx 0 l))).sum
      .fin (if v = 0 then l.all (FVal.isZero true) else decide (v < 0)) v.natAbs (leastEx 0 l) := by
  rw [exactSum, noSum_of_isFin h, any_isInf_eq, contains_inf_of_isFin h, contains_inf_of_isFin h]
  rfl

end

/-- The model's sum is the exact one. -/
theorem Term.sum_eq_exactSum (l : List FVal) : Term.sum 0 (l.map FVal.term) = (exactSum l).term := by
  cases hsum : noSum l with
  | true => rw [Term.sum_of_noSum hsum, exactSum_of_noSum hsum]; rfl
  | false =>
    obtain ⟨n, hn, hnot⟩ | hfin := kinds_of_sum hsum
    · rw [Term.sum_of_inf hsum hn, exactSum_of_inf hsum hn hnot]
      rfl
    · have hdy : Dy.sum (l.map FVal.dy) = { m := (l.map (FVal.units (leastEx 0 l))).sum, e := leastEx 0 l } := by
        rw [Dy.sum, Dy.foldl_add _ hfin, zero_mul, zero_add]
      rw [exactSum_of_isFin hfin]
      unfold Term.sum
      rw [contains_nan_map_term, contains_inf_map_term, contains_inf_map_term, any_isNaN_of_isFin hfin,
        contains_inf_of_isFin hfin, contains_inf_of_isFin hfin, map_dy_of_isFin hfin fun _ _ => rfl, hdy]
      dsimp only
      rw [all_isZero_of_isFin hfin fun _ _ => rfl]
      generalize (l.map (FVal.units (leastEx 0 l))).sum = v
      by_cases hv : v = 0
      · simp [FVal.term, hv]
      · by_cases hneg : v < 0
        · simp [FVal.term, hv, hneg, abs_of_neg hneg]
        · simp [FVal.term, hv, hneg, abs_of_nonneg (not_lt.1 hneg)]

/-! ## Sums of sums -/

theorem leastEx_min (k q : Int) (l : List FVal) : leastEx (min k q) l = min k (leastEx q l) := by
  induction l generalizing q with
  | nil => rfl
  | cons v l ih => simp only [leastEx, List.foldl_cons] at ih ⊢; rw [min_assoc, ih]

theorem leastEx_le_ex {l : List FVal} {v : FVal} (hv : v ∈ l) (k : Int) : leastEx k l ≤ v.ex := by
  induction l generalizing k with
  | nil => cases hv
  | cons x l ih =>
    obtain rfl | hv := List.mem_cons.1 hv
    · exact (leastEx_le _ l).trans (min_le_right ..)
    · exact ih hv _

/-- A value in a smaller unit. -/
theorem FVal.units_mul_two_pow {x : FVal} {p q : Int} (hp : p ≤ x.ex) (hq : q ≤ p) :
    x.units p * 2 ^ (p - q).toNat = x.units q := by
  cases x with
  | fin n m e =>
    change p ≤ e at hp
    rw [FVal.units, FVal.units, mul_assoc, two_pow_sub_mul hp hq]
  | _ => exact zero_mul _

theorem sum_units_mul_two_pow {l : List FVal} {q : Int} (hq : q ≤ leastEx 0 l) :
    (l.map (FVal.units (leastEx 0 l))).sum * 2 ^ (leastEx 0 l - q).toNat = (l.map (FVal.units q)).sum := by
  rw [← List.sum_map_mul_right]
  exact congrArg List.sum (List.map_congr_left fun v hv => FVal.units_mul_two_pow (leastEx_le_ex hv 0) hq)

theorem FVal.units_eq_zero_of_isZero {x : FVal} {n : Bool} (h : x.isZero n = true) (q : Int) : x.units q = 0 := by
  cases x with
  | fin k m e =>
    rw [FVal.isZero_fin, Bool.and_eq_true, decide_eq_true_eq] at h
    simp [FVal.units, h.1]
  | _ => rfl

theorem noSum_cons (v : FVal) (l : List FVal) :
    noSum (v :: l) = (v.isNaN || noSum l || (v.isInf && l.contains (.inf !v.neg))) := by
  rw [noSum, noSum, List.any_cons, contains_inf_cons, contains_inf_cons]
  have hother : l.contains (.inf !v.neg) = if v.neg then l.contains (.inf false) else l.contains (.inf true) := by
    cases v.neg <;> rfl
  rw [hother]
  generalize v.isNaN = nan, v.isInf = inf, v.neg = neg, l.any FVal.isNaN = nans, l.contains (.inf true) = below,
    l.contains (.inf false) = above
  revert nan inf neg nans below above
  decide

/-- An exact sum counts among addends as its own addends do. -/
theorem noSum_exactSum (l : List FVal) : noSum [exactSum l] = noSum l := by
  cases hsum : noSum l with
  | true =>
    rw [exactSum_of_noSum hsum]
    rfl
  | false =>
    obtain ⟨n, hn, hnot⟩ | hfin := kinds_of_sum hsum
    · rw [exactSum_of_inf hsum hn hnot]
      cases n <;> rfl
    · rw [exactSum_of_isFin hfin]
      rfl

theorem contains_inf_exactSum {l : List FVal} (h : noSum l = false) (n : Bool) :
    [exactSum l].contains (.inf n) = l.contains (.inf n) := by
  obtain ⟨k, hk, hnot⟩ | hfin := kinds_of_sum h
  · rw [exactSum_of_inf h hk hnot, contains_inf_cons]
    obtain rfl | rfl : n = k ∨ n = !k := by cases n <;> cases k <;> simp
    · rw [hk]
      cases n <;> rfl
    · rw [hnot]
      cases k <;> rfl
  · rw [exactSum_of_isFin hfin, contains_inf_of_isFin hfin]
    rfl

/-- A finite sum in a smaller unit. -/
theorem units_exactSum {l : List FVal} (hl : ∀ x ∈ l, x.isFin = true) {q : Int} (hq : q ≤ leastEx 0 l) :
    (exactSum l).units q = (l.map (FVal.units q)).sum := by
  rw [exactSum_of_isFin hl, ← sum_units_mul_two_pow hq]
  generalize (l.map (FVal.units (leastEx 0 l))).sum = v
  dsimp only [FVal.units]
  congr 1
  by_cases hv : v = 0
  · simp [hv]
  · by_cases hneg : v < 0
    · simp [hv, hneg, abs_of_neg hneg]
    · simp [hv, hneg, abs_of_nonneg (not_lt.1 hneg)]

/-- A finite sum is −0 where it is zero and all its addends are −0. -/
theorem isZero_exactSum {l : List FVal} (hl : ∀ x ∈ l, x.isFin = true)
    (hzero : (l.map (FVal.units (leastEx 0 l))).sum = 0) : (exactSum l).isZero true = l.all (FVal.isZero true) := by
  rw [exactSum_of_isFin hl]
  dsimp only
  rw [hzero, FVal.isZero_fin]
  simp

/-- A finite value joins a finite sum, in the least of the units. -/
theorem exactSum_cons_of_isFin {v : FVal} {l : List FVal} (hv : v.isFin = true) (hl : ∀ x ∈ l, x.isFin = true) :
    exactSum [v, exactSum l] = exactSum (v :: l) := by
  have hS : (exactSum l).isFin = true ∧ (exactSum l).ex = leastEx 0 l := by
    rw [exactSum_of_isFin hl]
    exact ⟨rfl, rfl⟩
  have hq0 : leastEx 0 l ≤ 0 := leastEx_le 0 l
  have hq : leastEx 0 (v :: l) = min v.ex (leastEx 0 l) := by
    rw [← leastEx_min, min_comm]
    rfl
  have hpair : leastEx 0 [v, exactSum l] = min v.ex (leastEx 0 l) := by
    rw [show leastEx 0 [v, exactSum l] = min (min 0 v.ex) (exactSum l).ex from rfl, hS.2]
    omega
  have hunits : ([v, exactSum l].map (FVal.units (min v.ex (leastEx 0 l)))).sum =
      ((v :: l).map (FVal.units (min v.ex (leastEx 0 l)))).sum := by
    simp [units_exactSum hl (min_le_right v.ex (leastEx 0 l))]
  rw [exactSum_of_isFin (l := [v, exactSum l]) (by simp [hv, hS.1]), exactSum_of_isFin (l := v :: l) (by simpa [hv] using hl)]
  dsimp only
  rw [hpair, hq, hunits]
  congr 1
  split
  · next hzero =>
    rw [List.all_cons, List.all_cons, List.all_cons, List.all_nil, Bool.and_true]
    cases hvz : v.isZero true with
    | false => rfl
    | true =>
      rw [List.map_cons, List.sum_cons, FVal.units_eq_zero_of_isZero hvz, zero_add,
        ← sum_units_mul_two_pow (min_le_right ..)] at hzero
      rw [isZero_exactSum hl ((mul_eq_zero.1 hzero).resolve_right (by positivity))]
  · rfl

/-- Adding to an exact sum adds to its addends. -/
theorem exactSum_cons (v : FVal) (l : List FVal) : exactSum [v, exactSum l] = exactSum (v :: l) := by
  cases hl : noSum l with
  | true =>
    rw [exactSum_of_noSum (l := v :: l) (by simp [noSum_cons, hl]), exactSum_of_noSum]
    rw [noSum_cons, noSum_exactSum, hl, Bool.or_true, Bool.true_or]
  | false =>
    have hpair : noSum [v, exactSum l] = noSum (v :: l) := by
      rw [noSum_cons v l, noSum_cons v [exactSum l], noSum_exactSum, contains_inf_exactSum hl]
    cases hsum : noSum (v :: l) with
    | true => rw [exactSum_of_noSum hsum, exactSum_of_noSum (hpair.trans hsum)]
    | false =>
      obtain ⟨n, hn, hnot⟩ | hfin := kinds_of_sum hsum
      · rw [exactSum_of_inf hsum hn hnot]
        rw [contains_inf_cons] at hn hnot
        refine exactSum_of_inf (hpair.trans hsum) ?_ ?_ <;> rwa [contains_inf_cons, contains_inf_exactSum hl]
      · obtain ⟨hv, hfin⟩ := List.forall_mem_cons.1 hfin
        exact exactSum_cons_of_isFin hv hfin

/-! ## One rounding of an exact sum -/

theorem Term.round_exactSum (f : Fmt) (l : List FVal) : ((exactSum l).term.round f {}).1 = fusedSum f l := by
  unfold fusedSum
  cases hsum : noSum l with
  | true =>
    rw [exactSum_of_noSum hsum]
    exact (if_pos hsum).symm
  | false =>
    refine Eq.trans ?_ (if_neg (Bool.eq_false_iff.1 hsum)).symm
    rw [any_isInf_eq]
    obtain ⟨n, hn, hnot⟩ | hfin := kinds_of_sum hsum
    · rw [exactSum_of_inf hsum hn hnot]
      cases n <;> simp_all [FVal.term, Term.round]
    · obtain ⟨-, hround⟩ := Term.round_sum_of_isFin hfin f {}
      rw [contains_inf_of_isFin hfin, contains_inf_of_isFin hfin, ← hround, ← Term.sum_eq_exactSum]
      rfl

/-- A flat sum, rounded once (R107, R108). -/
theorem round_sum_eq_fusedSum (f : Fmt) (l : List FVal) :
    ((Term.sum 0 (l.map FVal.term)).round f {}).1 = fusedSum f l := by
  rw [Term.sum_eq_exactSum, Term.round_exactSum]

/-- The sum of a group joins the old value, and one rounding follows (R107, R108). -/
theorem round_sum_sum_eq_fusedSum (f : Fmt) (v : FVal) (l : List FVal) :
    ((Term.sum 0 [v.term, Term.sum 0 (l.map FVal.term)]).round f {}).1 = fusedSum f (v :: l) := by
  rw [Term.sum_eq_exactSum l, ← Term.round_exactSum, ← exactSum_cons, ← Term.sum_eq_exactSum [v, exactSum l]]
  rfl

/-! ## Groups -/

/-- The fuel of groupsBy is enough. -/
theorem groupsBy_fuel {α : Type} {n : Nat} (hn : 0 < n) (j k : Nat) (l : List α) (hj : l.length ≤ j) (hk : l.length ≤ k) :
    groupsBy n j l = groupsBy n k l := by
  induction j generalizing k l with
  | zero =>
    obtain rfl := List.eq_nil_of_length_eq_zero (Nat.le_zero.1 hj)
    cases k <;> rfl
  | succ j ih =>
    cases l with
    | nil => cases k <;> rfl
    | cons x l =>
      obtain ⟨k, rfl⟩ := Nat.exists_eq_succ_of_ne_zero (Nat.ne_zero_of_lt hk)
      simp only [List.length_cons] at hj hk
      simp only [groupsBy, List.isEmpty_cons, Bool.false_eq_true, if_false]
      rw [ih k _ (by simp; omega) (by simp; omega)]

/-- A whole group is rounded before the rest. -/
theorem accumulate_append {n : Nat} (hn : 0 < n) {p : List Term} (hp : p.length = n) (f : Fmt) (c : Nat) (q : List Term) :
    accumulate f n c (p ++ q) = accumulate f n ((Term.sum 0 [(f.value c).term, Term.sum 0 p]).round f {}).1 q := by
  obtain ⟨j, hj⟩ : ∃ j, (p ++ q).length = j + 1 := Nat.exists_eq_succ_of_ne_zero (by
    rw [List.length_append]
    omega)
  have hne : (p ++ q).isEmpty = false := by
    rw [List.isEmpty_eq_false_iff, ← List.length_pos_iff_ne_nil]
    omega
  have hq : q.length ≤ j := by
    rw [List.length_append] at hj
    omega
  rw [accumulate, hj, groupsBy, hne, if_neg Bool.false_ne_true, List.take_left' hp, List.drop_left' hp,
    groupsBy_fuel hn j q.length q hq le_rfl]
  rfl

/-- The last group may be short. -/
theorem accumulate_of_le {n : Nat} {p : List Term} (hne : p ≠ []) (hp : p.length ≤ n) (f : Fmt) (c : Nat) :
    accumulate f n c p = ((Term.sum 0 [(f.value c).term, Term.sum 0 p]).round f {}).1 := by
  obtain ⟨j, hj⟩ : ∃ j, p.length = j + 1 := Nat.exists_eq_succ_of_ne_zero (by simpa using hne)
  rw [accumulate, hj, groupsBy, List.isEmpty_eq_false_iff.2 hne, if_neg Bool.false_ne_true, List.take_of_length_le hp,
    List.drop_of_length_le hp]
  cases j <;> rfl

end Sys2Proof.Machine
end

section
/-!
The cells that the operations of the matrix engine write (R100 to R109, R245 to R250): O34.
-/
namespace Sys2Proof.Machine

/-! ## Integers in words -/

theorem ofNat_wrapInt_self (n : Nat) (v : Int) : BitVec.ofNat n (wrapInt n v) = BitVec.ofInt n v := by
  apply BitVec.eq_of_toNat_eq
  rw [BitVec.toNat_ofNat, BitVec.toNat_ofInt, Nat.mod_eq_of_lt (wrapInt_lt ..)]
  rfl

/-- Wrapping or clamping to n bits (R91, R103). -/
theorem narrow_eq (sat sg : Bool) (n : Nat) (v : Int) : narrow sat sg n v = wrapInt n (if sat then clampTo sg n v else v) := by
  cases sat
  · rfl
  · exact congrArg (wrapInt n) (clampInt_rangeOf sg n v)

theorem ofNat_narrow_self (sat sg : Bool) (n : Nat) (v : Int) :
    BitVec.ofNat n (narrow sat sg n v) = BitVec.ofInt n (if sat then clampTo sg n v else v) := by
  rw [narrow_eq, ofNat_wrapInt_self]

theorem narrow_eq_toNat (sat sg : Bool) (n : Nat) (v : Int) :
    narrow sat sg n v = (BitVec.ofInt n (if sat then clampTo sg n v else v)).toNat := by
  rw [← ofNat_narrow_self, narrow_eq, BitVec.toNat_ofNat, Nat.mod_eq_of_lt (wrapInt_lt ..)]

/-- A reading of n bits comes back from them. -/
theorem toInt_wrapInt_toInt (sg : Bool) (n v : Nat) : toInt sg n (wrapInt n (toInt sg n v)) = toInt sg n v := by
  rw [← toInt_mod sg (le_refl n) v, wrapInt, toInt_emod, toInt_mod sg le_rfl]
  norm_cast
  rw [Nat.mod_mod, toInt_mod sg le_rfl]

/-! ## Elements of tiles (R100, R102, R103, R226) -/

theorem bitsAt_lt (a : Array Byte) (b n : Nat) : bitsAt a b n < 2 ^ n := Nat.mod_lt _ (by positivity)

theorem tileTerm_of_real {x : Elem} {a : Array Byte} {e : Nat} {v : FVal} (h : x.real a e = some v) :
    tileTerm x a e = [v.term] := by
  cases x with
  | float f n =>
    cases h
    rfl
  | block code =>
    cases h
    rw [tileTerm, sbValue]
    generalize hfield : bitsAt a ((sbBits code + 1) * e) (sbBits code + 1) = field
    have hlt : field < 2 * 2 ^ sbBits code := by
      rw [← hfield, ← Nat.pow_succ']
      exact bitsAt_lt ..
    have hneg : ((field >>> sbBits code) % 2 == 1) = decide (2 ^ sbBits code ≤ field) := by
      rw [Nat.shiftRight_eq_div_pow, Nat.mod_eq_of_lt (Nat.div_lt_of_lt_mul (by omega)), Bool.eq_iff_iff, beq_iff_eq,
        decide_eq_true_eq, Nat.div_eq_iff (by positivity)]
      omega
    split
    · rfl
    · rw [hneg]
      rfl
  | _ => cases h

/-- The integer opcode takes integers of at most 16 bits, and bits. -/
theorem mmaElem_int (code : Nat) :
    (∃ sg n, n ≤ 16 ∧ mmaElem 0xF9 code = .int sg n) ∨ (mmaElem 0xF9 code = .bit ∧ 6 ≤ code) :=
  match code with
  | 0 | 1 | 2 | 3 | 4 | 5 => .inl ⟨_, _, by decide, rfl⟩
  | _ + 6 => .inr ⟨rfl, Nat.le_add_left ..⟩

theorem width_le_of_mmaElem_int {code : Nat} {sg : Bool} {n : Nat} (h : mmaElem 0xF9 code = .int sg n) : n ≤ 64 := by
  obtain ⟨sg', n', hn, h'⟩ | ⟨h', -⟩ := mmaElem_int code
  · cases h.symm.trans h'
    omega
  · cases h.symm.trans h'

theorem tileTerm_of_int {code : Nat} {sg : Bool} {n : Nat} (h : mmaElem 0xF9 code = .int sg n) (a : Array Byte) (e : Nat) :
    let v := intOfBits sg n (BitVec.ofNat 64 (bitsAt a (n * e) n))
    tileTerm (mmaElem 0xF9 code) a e = [.num (decide (v < 0)) { m := v, e := 0 }] := by
  rw [h, ← toInt_eq_intOfBits_ofNat sg (width_le_of_mmaElem_int h)]
  rfl

theorem tileTerm_of_bit {code : Nat} (h : mmaElem 0xF9 code = .bit) (a : Array Byte) (e : Nat) :
    tileTerm (mmaElem 0xF9 code) a e = [.num false { m := if bitsAt a e 1 = 1 then 1 else -1, e := 0 }] := by
  rw [h]
  rfl

theorem mmaShape_of_bit {fa : Nat} (h : mmaElem 0xF9 fa = .bit) (fb : Nat) : mmaShape 0xF9 fa fb = (64, 64, 512) := by
  obtain ⟨sg, n, -, h'⟩ | ⟨-, hfa⟩ := mmaElem_int fa
  · cases h.symm.trans h'
  · simp only [mmaShape, if_neg (show ¬fa = 0 by omega), if_neg (show ¬fa ≤ 2 by omega), if_neg (show ¬fa ≤ 4 by omega)]

/-- Elements of the other kinds belong to other opcodes. -/
theorem ne_int_of_real {op code : Nat} {x : FVal} {a : Array Byte} {e : Nat} (h : (mmaElem op code).real a e = some x) :
    op ≠ 0xF9 := by
  rintro rfl
  obtain ⟨sg, n, -, h'⟩ | ⟨h', -⟩ := mmaElem_int code <;> rw [h'] at h <;> cases h

theorem ne_int_of_complex {op code n : Nat} {f : Fmt} (h : mmaElem op code = .complex f n) : op ≠ 0xF9 := by
  rintro rfl
  obtain ⟨sg, n, -, h'⟩ | ⟨h', -⟩ := mmaElem_int code <;> cases h.symm.trans h'

/-! ## Product lists (R107) -/

theorem productLists_of_single {xa xb : Elem} {a b : Array Byte} {A B : Nat → Term} (ha : ∀ e, tileTerm xa a e = [A e])
    (hb : ∀ e, tileTerm xb b e = [B e]) (kk i j : Nat) :
    productLists xa xb a b kk i j = [(List.range kk).map fun k => (A (i * kk + k)).mul (B (j * kk + k))] := by
  unfold productLists
  cases xa with
  | complex f n => exact absurd (congrArg List.length (ha 0)) (by simp [tileTerm])
  | _ => simp [ha, hb, List.map_map, Function.comp_def]

theorem FVal.negate_term (x : FVal) : x.term.negate = x.opposite.term := by
  cases x with
  | fin n m e => cases n <;> simp [FVal.term, Term.negate, FVal.opposite]
  | _ => rfl

/-- Real and imaginary part of a complex cell: lists of their own. -/
theorem productLists_complex (fa fb : Fmt) (na nb : Nat) (a b : Array Byte) (kk i j : Nat) :
    let pa (k part : Nat) : FVal := fa.value (bitsAt a (2 * na * (i * kk + k) + na * part) na)
    let pb (k part : Nat) : FVal := fb.value (bitsAt b (2 * nb * (j * kk + k) + nb * part) nb)
    productLists (.complex fa na) (.complex fb nb) a b kk i j =
      [((List.range kk).flatMap fun k => [(pa k 0).product (pb k 0), ((pa k 1).product (pb k 1)).opposite]).map FVal.term,
        ((List.range kk).flatMap fun k => [(pa k 0).product (pb k 1), (pa k 1).product (pb k 0)]).map FVal.term] := by
  simp only [productLists, tileTerm, List.flatMap_map, List.map_flatMap, List.map_cons, List.map_nil, FVal.term_mul,
    FVal.negate_term, Nat.mul_zero, Nat.mul_one, Nat.add_zero]

/-! ## Cells of an MMA (R229, R245) -/

section
variable {t : Team} {op : Nat} {w : Fields} {a b : Array Byte}

/-- An MMA with one list for each cell. -/
theorem mmaCells_of_single {A B : Nat → Term} (ha : ∀ e, tileTerm (mmaElem op (mmaA w)) a e = [A e])
    (hb : ∀ e, tileTerm (mmaElem op (mmaB w)) b e = [B e]) :
    let (m, n, kk) := mmaShape op (mmaA w) (mmaB w)
    let x := rectAt w.d.toNat (row0Of w) (col0Of w) m mmaCols
    let tag := mmaTag op (mmaA w)
    mmaCells t op w a b = (gridOf m n).flatMap fun p =>
      let l := (List.range kk).map fun k => (A (p.1 * kk + k)).mul (B (p.2 * kk + k))
      let c := t.element tag x.r0 x.c0 p.1 p.2
      elementCells tag x.r0 x.c0 p.1 p.2 (if op = 0xF9 then narrow (w.f.getLsbD 0) true 32 (toInt true 32 c + intSum l)
        else accumulate tag.fmt (mmaGroup op (mmaA w)) c l) := by
  simp [mmaCells, productLists_of_single ha hb]

/-- A floating-point or block MMA adds the products group by group. -/
theorem mmaCells_real {va vb : Nat → FVal} (ha : ∀ e, (mmaElem op (mmaA w)).real a e = some (va e))
    (hb : ∀ e, (mmaElem op (mmaB w)).real b e = some (vb e)) :
    let (m, n, kk) := mmaShape op (mmaA w) (mmaB w)
    let x := rectAt w.d.toNat (row0Of w) (col0Of w) m mmaCols
    let tag := mmaTag op (mmaA w)
    mmaCells t op w a b = (gridOf m n).flatMap fun p =>
      elementCells tag x.r0 x.c0 p.1 p.2 (accumulate tag.fmt (mmaGroup op (mmaA w)) (t.element tag x.r0 x.c0 p.1 p.2)
        ((List.range kk).map fun k => ((va (p.1 * kk + k)).product (vb (p.2 * kk + k))).term)) := by
  have hcells := mmaCells_of_single (t := t) (fun e => tileTerm_of_real (ha e)) fun e => tileTerm_of_real (hb e)
  simpa only [FVal.term_mul, if_neg (ne_int_of_real (ha 0))] using hcells

/-- A complex MMA adds to the real and to the imaginary element of each cell. -/
theorem mmaCells_complex {fa fb : Fmt} {na nb : Nat} (ha : mmaElem op (mmaA w) = .complex fa na)
    (hb : mmaElem op (mmaB w) = .complex fb nb) :
    let (m, n, kk) := mmaShape op (mmaA w) (mmaB w)
    let x := rectAt w.d.toNat (row0Of w) (col0Of w) m mmaCols
    let tag := mmaTag op (mmaA w)
    let pa (i k part : Nat) : FVal := fa.value (bitsAt a (2 * na * (i * kk + k) + na * part) na)
    let pb (j k part : Nat) : FVal := fb.value (bitsAt b (2 * nb * (j * kk + k) + nb * part) nb)
    let sum (i e : Nat) (l : Nat → List FVal) : List (Nat × Nat × Word) :=
      elementCells tag x.r0 x.c0 i e (accumulate tag.fmt (mmaGroup op (mmaA w)) (t.element tag x.r0 x.c0 i e)
        (((List.range kk).flatMap l).map FVal.term))
    mmaCells t op w a b = (gridOf m n).flatMap fun p =>
      sum p.1 (2 * p.2) (fun k => [(pa p.1 k 0).product (pb p.2 k 0), ((pa p.1 k 1).product (pb p.2 k 1)).opposite]) ++
      sum p.1 (2 * p.2 + 1) (fun k => [(pa p.1 k 0).product (pb p.2 k 1), (pa p.1 k 1).product (pb p.2 k 0)]) := by
  simp only [mmaCells, ha, hb, productLists_complex, if_neg (ne_int_of_complex ha)]
  simp

/-! ## Integer sums (R103, R245) -/

theorem foldl_add_integers {α : Type} (g : α → Int) (l : List α) (v : Int) :
    (l.map fun x => ({ m := g x, e := 0 } : Dy)).foldl Dy.add { m := v, e := 0 } = { m := v + (l.map g).sum, e := 0 } := by
  induction l generalizing v with
  | nil => simp
  | cons x l ih =>
    rw [List.map_cons, List.foldl_cons, List.map_cons, List.sum_cons, ← add_assoc, ← ih]
    simp [Dy.add]

/-- The exact sum of integer terms is that of their integers, whatever the signs of zeros. -/
theorem intSum_num {α : Type} (s : α → Bool) (g : α → Int) (l : List α) :
    intSum (l.map fun x => .num (s x) { m := g x, e := 0 }) = (l.map g).sum := by
  have hnan : (l.map fun x => Term.num (s x) { m := g x, e := 0 }).contains .nan = false := by simp
  have hinf (n : Bool) : (l.map fun x => Term.num (s x) { m := g x, e := 0 }).contains (.inf n) = false := by simp
  unfold intSum Term.sum
  rw [hnan, hinf, hinf, List.map_map]
  simp only [Function.comp_def, Dy.sum, foldl_add_integers, zero_add, Bool.false_and, Bool.or_false, Bool.false_eq_true, if_false]
  by_cases hzero : (l.map g).sum = 0
  · simp [hzero]
  · simp [hzero]

/-- An MMA of integers adds their exact sum of products and wraps or clamps. -/
theorem mmaCells_int {sa sb : Nat → Bool} {ea eb : Nat → Int}
    (ha : ∀ e, tileTerm (mmaElem 0xF9 (mmaA w)) a e = [.num (sa e) { m := ea e, e := 0 }])
    (hb : ∀ e, tileTerm (mmaElem 0xF9 (mmaB w)) b e = [.num (sb e) { m := eb e, e := 0 }]) :
    let (m, n, kk) := mmaShape 0xF9 (mmaA w) (mmaB w)
    let x := rectAt w.d.toNat (row0Of w) (col0Of w) m mmaCols
    mmaCells t 0xF9 w a b = (gridOf m n).map fun p =>
      let sum := ((List.range kk).map fun k => ea (p.1 * kk + k) * eb (p.2 * kk + k)).sum
      let old := intOfBits true 32 (BitVec.ofNat 64 (t.cell (x.r0 + p.1) (x.c0 + p.2)))
      (x.r0 + p.1, x.c0 + p.2, BitVec.ofInt 32 (if w.f.getLsbD 0 then clampTo true 32 (old + sum) else old + sum)) := by
  have hcells := mmaCells_of_single (t := t) ha hb
  simp only [Term.mul, Dy.mul, add_zero, intSum_num, if_true, mmaTag, elementCells, Team.element, ofNat_narrow_self,
    toInt_eq_intOfBits_ofNat true (show 32 ≤ 64 by decide), ← List.map_eq_flatMap] at hcells
  exact hcells

/-- Bits count 1 where they are equal, else −1 (R103). -/
theorem mul_of_bits (a b : Array Byte) (i j : Nat) :
    (if bitsAt a i 1 = 1 then 1 else -1 : Int) * (if bitsAt b j 1 = 1 then 1 else -1) =
      if bitsAt a i 1 = bitsAt b j 1 then 1 else -1 := by
  have hp := bitsAt_lt a i 1
  have hq := bitsAt_lt b j 1
  generalize bitsAt a i 1 = p at hp ⊢
  generalize bitsAt b j 1 = q at hq ⊢
  interval_cases p <;> interval_cases q <;> rfl

end

/-! ## ASA, AZERO and ARED (R247, R248, R250) -/

theorem tagTerm_eq (tag : Tag) (v : Nat) : tagTerm tag v = (tagValue tag v).term := by
  cases tag with
  | int32 =>
    rw [tagTerm, tagValue, FVal.term]
    congr 2
    by_cases hneg : toInt true 32 v < 0
    · simp [hneg, abs_of_neg hneg]
    · simp [hneg, abs_of_nonneg (not_lt.1 hneg)]
  | _ => rfl

theorem asaCells_eq (t : Team) (w : Fields) (a : Array Byte) :
    let dt := t.tagOr w.d.toNat
    let pt := t.tagOr w.a.toNat
    let x := rectAt w.d.toNat (row0Of w) (col0Of w) 0 0
    let y := rectAt w.a.toNat (row1Of w) (col1Of w) 0 0
    let scale (o : Nat) : FVal := fp32.value (bitsAt a (8 * o) 32)
    asaCells t w a = (gridOf (rowsOf w) (elsOf w)).flatMap fun p =>
      elementCells dt x.r0 x.c0 p.1 p.2 (fusedSum dt.fmt [tagValue dt (t.element dt x.r0 x.c0 p.1 p.2),
        ((scale (4 * p.1)).product (scale (256 + 4 * p.2))).product (tagValue pt (t.element pt y.r0 y.c0 p.1 p.2))]) ++
      (if w.m.getLsbD 0 then [(y.r0 + p.1, y.c0 + p.2, 0)] else []) := by
  simp only [asaCells, scaleTerm, tagTerm_eq, FVal.term_mul, ← round_sum_eq_fusedSum, List.map_cons, List.map_nil]

theorem mem_gridOf {m n : Nat} {p : Nat × Nat} : p ∈ gridOf m n ↔ p.1 < m ∧ p.2 < n := by
  obtain ⟨i, j⟩ := p
  simp [gridOf]

/-- The cells of a region are those of a grid of 64 by 64 from its origin. -/
theorem regionRect_has (n i j : Nat) :
    (regionRect n).has i j = true ↔ ∃ p ∈ gridOf 64 64, (regionRect n).r0 + p.1 = i ∧ (regionRect n).c0 + p.2 = j := by
  have hhas : (regionRect n).has i j = true ↔ ((regionRect n).r0 ≤ i ∧ i < (regionRect n).r0 + 64) ∧
      (regionRect n).c0 ≤ j ∧ j < (regionRect n).c0 + 64 := by
    simp [Rect.has, regionRect, rectAt, and_assoc]
  rw [hhas]
  constructor
  · intro h
    exact ⟨(i - (regionRect n).r0, j - (regionRect n).c0), mem_gridOf.2 ⟨by omega, by omega⟩,
      Nat.add_sub_cancel' (by omega), Nat.add_sub_cancel' (by omega)⟩
  · rintro ⟨p, hp, rfl, rfl⟩
    obtain ⟨hrow, hcol⟩ := mem_gridOf.1 hp
    omega

theorem mem_azeroCells {w : Fields} {i j : Nat} {v : Word} :
    (i, j, v) ∈ azeroCells w ↔ v = 0 ∧ ∃ k ≤ w.f.toNat, (regionRect (w.d.toNat + k)).has i j = true := by
  simp only [azeroCells, rangeRects, List.mem_flatMap, List.mem_map, List.mem_range, Nat.lt_succ_iff, regionRect_has,
    Prod.mk.injEq]
  constructor
  · rintro ⟨x, ⟨k, hk, rfl⟩, p, hp, hrow, hcol, rfl⟩
    exact ⟨rfl, k, hk, p, hp, hrow, hcol⟩
  · rintro ⟨rfl, k, hk, p, hp, hrow, hcol⟩
    exact ⟨_, ⟨k, hk, rfl⟩, p, hp, hrow, hcol, rfl⟩

theorem elementCells_fp64 (r0 c0 i j v : Nat) : elementCells .fp64 r0 c0 i j v =
    [(r0 + i, c0 + 2 * j, BitVec.ofNat 32 v), (r0 + i, c0 + 2 * j + 1, BitVec.ofNat 32 (v >>> 32))] := by
  rw [Nat.shiftRight_eq_div_pow]
  rfl

/-- A sum of a row of integers is wrapped or clamped. -/
theorem aredValue_int_sum (sat : Bool) (d : Nat) (xs : List Nat) :
    aredValue .int32 0 sat d xs = (BitVec.ofInt 32
      (let v := ((d :: xs).map fun x => intOfBits true 32 (BitVec.ofNat 64 x)).sum
       if sat then clampTo true 32 v else v)).toNat := by
  have hread : toInt true 32 = fun x => intOfBits true 32 (BitVec.ofNat 64 x) :=
    funext (toInt_eq_intOfBits_ofNat true (show 32 ≤ 64 by decide))
  rw [aredValue, narrow_eq_toNat, hread]

/-- A sum of a row of values is exact and rounded once; an extreme folds the row. -/
theorem aredValue_float {tag : Tag} (h : tag ≠ .int32) (sat : Bool) (d : Nat) (xs : List Nat) :
    aredValue tag 0 sat d xs = fusedSum tag.fmt ((d :: xs).map tag.fmt.value) ∧
      aredValue tag 1 sat d xs = xs.foldl (fun m x => (fMinMax tag.fmt false true m x).1) d ∧
      aredValue tag 2 sat d xs = xs.foldl (fun m x => (fMinMax tag.fmt false false m x).1) d := by
  have hsum : ((Term.sum 0 [(tag.fmt.value d).term, Term.sum 0 (xs.map fun x => (tag.fmt.value x).term)]).round tag.fmt {}).1 =
      fusedSum tag.fmt ((d :: xs).map tag.fmt.value) := by
    rw [List.map_cons, ← round_sum_sum_eq_fusedSum, List.map_map]
    rfl
  cases tag with
  | int32 => exact absurd rfl h
  | _ => exact ⟨hsum, rfl, rfl⟩

/-- Folding to the maximum gives the value of a member, and none is above it. -/
theorem foldl_max_spec {α β : Type} [LinearOrder β] (g : α → β) (d : α) (xs : List α) :
    (∃ v ∈ d :: xs, g v = xs.foldl (fun m x => max m (g x)) (g d)) ∧
      ∀ v ∈ d :: xs, g v ≤ xs.foldl (fun m x => max m (g x)) (g d) := by
  induction xs generalizing d with
  | nil => simp
  | cons x xs ih =>
    rw [List.foldl_cons]
    obtain hle | hle := le_total (g d) (g x)
    · obtain ⟨⟨v, hv, htop⟩, hmax⟩ := ih x
      rw [max_eq_right hle]
      exact ⟨⟨v, List.mem_cons_of_mem _ hv, htop⟩,
        List.forall_mem_cons.2 ⟨hle.trans (hmax x (List.mem_cons_self ..)), hmax⟩⟩
    · obtain ⟨⟨v, hv, htop⟩, hmax⟩ := ih d
      rw [max_eq_left hle]
      obtain ⟨hd, hxs⟩ := List.forall_mem_cons.1 hmax
      refine ⟨⟨v, ?_, htop⟩, List.forall_mem_cons.2 ⟨hd, List.forall_mem_cons.2 ⟨hle.trans hd, hxs⟩⟩⟩
      rw [List.mem_cons] at hv ⊢
      exact hv.imp_right (List.mem_cons_of_mem _)

/-- The same of the minimum. -/
theorem foldl_min_spec {α β : Type} [LinearOrder β] (g : α → β) (d : α) (xs : List α) :
    (∃ v ∈ d :: xs, g v = xs.foldl (fun m x => min m (g x)) (g d)) ∧
      ∀ v ∈ d :: xs, xs.foldl (fun m x => min m (g x)) (g d) ≤ g v :=
  foldl_max_spec (β := βᵒᵈ) g d xs

/-- The extremes of a row of integers are values of it. -/
theorem aredValue_int_extremes (sat : Bool) (d : Nat) (xs : List Nat) :
    let el (v : Nat) : Int := intOfBits true 32 (BitVec.ofNat 64 v)
    let top := el (aredValue .int32 1 sat d xs)
    let least := el (aredValue .int32 2 sat d xs)
    (∃ v ∈ d :: xs, el v = top) ∧ (∀ v ∈ d :: xs, el v ≤ top) ∧ (∃ v ∈ d :: xs, el v = least) ∧
      ∀ v ∈ d :: xs, least ≤ el v := by
  simp only [← toInt_eq_intOfBits_ofNat true (show 32 ≤ 64 by decide)]
  obtain ⟨⟨v, hv, hmax⟩, hle⟩ := foldl_max_spec (toInt true 32) d xs
  obtain ⟨⟨u, hu, hmin⟩, hge⟩ := foldl_min_spec (toInt true 32) d xs
  have htop : toInt true 32 (aredValue .int32 1 sat d xs) = toInt true 32 v := by
    rw [← toInt_wrapInt_toInt true 32 v, hmax]
    rfl
  have hleast : toInt true 32 (aredValue .int32 2 sat d xs) = toInt true 32 u := by
    rw [← toInt_wrapInt_toInt true 32 u, hmin]
    rfl
  rw [htop, hleast]
  exact ⟨⟨v, hv, rfl⟩, hmax ▸ hle, ⟨u, hu, rfl⟩, hmin ▸ hge⟩

/-- Settles O34: an MMA by the kind of its elements, the other operations by the kinds of their cells. -/
theorem engineOperationsComputeTheirCells : Obligations.EngineOperationsComputeTheirCells := by
  unfold Obligations.EngineOperationsComputeTheirCells
  intro t w a b
  refine ⟨fun sa na sb nb ha hb => ?_, fun ha hb => ?_, fun f n c vs g rest => ⟨fun hne hle => ?_, fun hg hn => ?_⟩,
    fun op va vb ha hb => mmaCells_real ha hb, fun op fa na fb nb ha hb => mmaCells_complex ha hb, asaCells_eq t w a,
    fun r0 c0 i j v => ⟨rfl, elementCells_fp64 r0 c0 i j v⟩, fun i j => ?_, fun c hc => (mem_azeroCells.1 hc).1,
    aredValue_int_sum, fun tag sat d xs h => aredValue_float h sat d xs, aredValue_int_extremes, rfl⟩
  · have hcells := mmaCells_int (t := t) (tileTerm_of_int ha a) (tileTerm_of_int hb b)
    exact hcells
  · have hcells := mmaCells_int (t := t) (tileTerm_of_bit ha a) (tileTerm_of_bit hb b)
    rw [mmaShape_of_bit ha] at hcells
    simp only [mul_of_bits] at hcells
    exact hcells
  · rw [accumulate_of_le (by simpa using hne) (by simpa using hle), round_sum_sum_eq_fusedSum]
  · have hne : g.map FVal.term ≠ [] := by
      rw [ne_eq, List.map_eq_nil_iff, ← List.length_eq_zero_iff]
      omega
    have hlen : (g.map FVal.term).length = n := by rw [List.length_map, hg]
    rw [List.map_append, accumulate_append hn hlen, accumulate_of_le hne hlen.le]
  · simp [mem_azeroCells]

end Sys2Proof.Machine
end

section
/-!
The checks of Table 3.11 for integer instructions: what a well-formed word has passed, and reserved bits of an extended
word.
-/
namespace Sys2Proof.Machine

/-! ## Well-formed instructions -/

section
variable {i : Instr} {op : Nat} {w : Fields} (ho : opFields i = some (op, w)) (h : i.wf = true)
include ho h

/-- No reserved modifier, type or F value (reason 9). -/
theorem bad9_of_wf : (opInfo op w).bad9 = false := by
  obtain ⟨-, hok, -⟩ := (wf_iff_of_opFields ho).1 h
  obtain ⟨-, -, -, -, -, -, -, h9, -⟩ := (encodingReason_eq_none_iff op w).1 hok
  exact h9

/-- No reserved bit or field (reason 3). -/
theorem badReserved_of_wf : badReserved w (opInfo op w) = false := by
  obtain ⟨-, hok, -⟩ := (wf_iff_of_opFields ho).1 h
  obtain ⟨-, -, h3, -⟩ := (encodingReason_eq_none_iff op w).1 hok
  exact h3

/-- An opcode that takes NEXT alone has no other selector (reason 5). -/
theorem seq_eq_zero_of_wf (hnext : (opInfo op w).seqAny = false) : w.seq = 0 := by
  obtain ⟨-, hok, -⟩ := (wf_iff_of_opFields ho).1 h
  obtain ⟨-, -, -, -, h5, -⟩ := (encodingReason_eq_none_iff op w).1 hok
  rw [hnext] at h5
  simpa using (Bool.or_eq_false_iff.1 h5).1

end

/-! ## Reserved bits -/

theorem badReserved_of_x {w : Fields} {i : OpInfo} (hseq : w.seq = 0) (h : w.x &&& i.xZero ≠ 0) :
    badReserved w i = true := by
  simp only [badReserved, hseq, beq_self_eq_true, bne_iff_ne.2 h, Bool.and_true, Bool.or_true, Bool.true_or]

theorem badReserved_of_m {w : Fields} {i : OpInfo} (h : w.m &&& i.mZero ≠ 0) : badReserved w i = true := by
  simp only [badReserved, bne_iff_ne.2 h, Bool.or_true, Bool.true_or]

theorem and_ne_zero_of_getLsbD {n : Nat} {x y : BitVec n} {k : Nat} (hx : x.getLsbD k = true) (hy : y.getLsbD k = true) :
    x &&& y ≠ 0 := by
  intro h
  have hbit := congrArg (BitVec.getLsbD · k) h
  simp [hx, hy] at hbit

/-- A reserved bit of an extended word is its first fault where both values of U are legal. -/
theorem encodingReason_eq_three {op : Nat} {w : Fields} (hform : w.form = .ext) (hext : (opInfo op w).ext = true)
    (hu0 : (opInfo op w).u0 = true) (hu1 : (opInfo op w).u1 = true) (h : badReserved w (opInfo op w) = true) :
    encodingReason op w none = some 3 := by
  simp [encodingReason, badLen, hform, hext, hu0, hu1, h]

end Sys2Proof.Machine
end

section
/-!
The results of integer instructions (R115 to R121): O1 to O3.
-/
namespace Sys2Proof.Machine

/-! ## Results of the instruction's type -/

section
variable {i : Instr} {op : Nat} {w : Fields}

/-- Arithmetic of up to three sources gives res() of the exact result (R115). -/
theorem intThree_eq (f : Int → Int → Int → Int) (c : Ctx) (s : State) :
    intThree f c s = .done (integerDone f c s) := by
  simp only [intThree, integerDone, intResults_eq, valA_eq, valB_eq, valC_eq]

/-- An instruction whose arithmetic may look at its word's width completes with res() of the exact result. -/
theorem completes_of_intThree {f : Ctx → Int → Int → Int → Int}
    (he : ∀ s, exec i s = s.issue op w fun c s => intThree (f c) c s) (ho : opFields i = some (op, w)) :
    Completes i fun c s => integerDone (f c) c s :=
  completes_of_done he ho fun c s _ _ => ⟨intThree_eq (f c) c s, rfl⟩

end

/-- Under an opcode without .sat it is reason 9 (Table 6.2). -/
theorem sat_eq_false_of_wf {i : Instr} {op : Nat} {w : Fields} (ho : opFields i = some (op, w))
    (hop : op ∈ [0x25, 0x2A, 0x2B]) (h : i.wf = true) : Fields.sat w = false := by
  have h9 := bad9_of_wf ho h
  have hinfo : (opInfo op w).bad9 = (w.f != 0 || (Fields.sat w && !false)) := by
    fin_cases hop <;> rfl
  rw [hinfo, Bool.not_false, Bool.and_true, Bool.or_eq_false_iff] at h9
  exact h9.2

/-- Settles O1: arithmetic of one and of two sources is that of three, of which it ignores the rest. -/
theorem integerArithmeticGivesRes : Obligations.IntegerArithmeticGivesRes := by
  unfold Obligations.IntegerArithmeticGivesRes
  intro w a d u y
  refine ⟨?_, ?_, ?_, ?_, ?_, ?_, ?max, ?_, ?_, ?_, ?_, ?_, rfl, ?noSat, ?sat⟩
  case max =>
    simp only [max_def' (α := Int)]
    exact completes_of_intThree (f := fun _ a b _ => if a ≥ b then a else b) (fun _ => rfl) rfl
  case noSat =>
    simp only [List.forall_mem_cons, List.not_mem_nil, false_implies, implies_true, and_true]
    exact ⟨sat_eq_false_of_wf rfl (by decide), sat_eq_false_of_wf rfl (by decide), sat_eq_false_of_wf rfl (by decide)⟩
  case sat =>
    intro f hf
    refine ⟨{ shortWord false false 0 0 0 with form := .ext, m := 8 }, ?_, rfl⟩
    fin_cases hf <;> rfl
  all_goals exact completes_of_intThree (fun _ => rfl) rfl

/-! ## Carry chains and division -/

/-- A carry chain writes the wrapped value to D and the carry to C (R119). -/
theorem intCarry_eq (value : Nat → Nat → Nat → Int) (out : Nat → Nat → Nat → Bool) (c : Ctx) (s : State) :
    let a t := (srcA s c (Fields.wide c.w) t).toNat
    let b t := (srcB s c (Fields.wide c.w) t).toNat
    intCarry value out c s =
      .done { s, fixed := typedResults c false (fun t => value (a t) (b t) (carryIn c t)) ++
        carryWrites c fun t => out (a t) (b t) (carryIn c t) } := by
  simp only [intCarry, intResults_eq, carryWrites]

theorem borrowOut_eq (a b k : Nat) : borrowOut a b k = decide ((a : Int) - b - k < 0) := by
  rw [borrowOut, decide_eq_decide]
  omega

/-- A quotient by zero is all ones under any type; every other one is truncated and clamped or wrapped (R92, R118). -/
theorem divBits_eq (w : Fields) (a b : Int) :
    divBits w a b =
      if b = 0 then resBits false (Fields.signed w) (wordBits (Fields.wide w)) (-1)
      else resBits (Fields.sat w) (Fields.signed w) (wordBits (Fields.wide w)) (a.tdiv b) := by
  unfold divBits quotientOf
  split
  · exact intBits_eq w false (-1)
  · exact intBits_eq w (Fields.sat w) (a.tdiv b)

/-- Settles O2: the chains by their two lists of writes, division by whether the divisor is zero. -/
theorem carryChainsAndDivision : Obligations.CarryChainsAndDivision := by
  unfold Obligations.CarryChainsAndDivision
  refine ⟨fun w => ⟨?add, ?sub⟩, fun w => ⟨?div, ?rem⟩⟩
  case add =>
    exact completes_of_done (fun _ => rfl) rfl fun c s _ _ =>
      ⟨intCarry_eq (fun a b k => (a : Int) + b + k) (carryOut (Fields.bits c.w)) c s, rfl⟩
  case sub =>
    refine completes_of_done (fun _ => rfl) rfl fun c s _ _ => ⟨?_, rfl⟩
    rw [intCarry_eq]
    simp only [borrowOut_eq]
  case div =>
    refine completes_of_done (fun _ => rfl) rfl fun c s _ _ => ⟨?_, rfl⟩
    simp only [intDivide, divBits_eq, valA_eq, valB_eq]
    rfl
  case rem =>
    refine completes_of_done (fun _ => rfl) rfl fun c s _ _ => ⟨?_, rfl⟩
    simp only [intDivide, remainderOf, valA_eq, valB_eq, intResults_eq]

/-! ## Wide products, compares and addresses -/

/-- Table 6.3. -/
theorem intCondition_eq (cc : Nat) (a b : Int) :
    intCondition cc a b =
      match cc with
      | 0 => decide (a = b) | 1 => decide (a ≠ b) | 2 => a < b | 3 => a ≤ b | 4 => a > b | _ => a ≥ b := by
  unfold intCondition
  split <;> simp [bne, Bool.beq_eq_decide_eq]

/-- The literal of LEA is its displacement, 0 where there is none (R121). -/
theorem ofInt_displacement (w : Fields) :
    BitVec.ofInt 64 (if w.hasImm then toInt true 64 w.lit.toNat else 0) = if w.hasImm then w.lit else 0 := by
  split
  · simp [toInt_eq_intOfBits, intOfBits]
  · rfl

/-- Settles O3: each of the three by its body, with operands read at the widths of R117, R120 and R121. -/
theorem wideMultiplyCompareAndAddress : Obligations.WideMultiplyCompareAndAddress := by
  unfold Obligations.WideMultiplyCompareAndAddress
  refine fun w => ⟨?madw, ?cmp, ?lea⟩
  case madw =>
    refine completes_of_done (fun _ => rfl) rfl fun c s _ _ => ⟨?_, rfl⟩
    simp only [intMadw, ofNat_narrow _ _ _ _ le_rfl, toInt_eq_intOfBits _ _ (show 32 ≤ 64 by decide),
      toInt_eq_intOfBits _ _ (le_refl 64)]
  case cmp =>
    refine completes_of_done (fun _ => rfl) rfl fun c s _ _ => ⟨?_, rfl⟩
    have htruth (t : Nat) := intCondition_eq c.w.f.toNat (typedA c s t) (typedB c s t)
    simp only [intCompare, valA_eq, valB_eq]
    exact congrArg (fun f => Effect.done { s, fixed := c.truths f }) (funext htruth)
  case lea =>
    refine completes_of_done (fun _ => rfl) rfl fun c s _ _ => ⟨?_, rfl⟩
    simp only [leaBody, ofNat_wrapInt 64 _ le_rfl, BitVec.setWidth_eq, BitVec.ofInt_add, BitVec.ofInt_natCast,
      BitVec.ofNat_toNat, ofInt_displacement, toInt_eq_intOfBits _ _ (wordBits_le _), fields_bits]

end Sys2Proof.Machine
end

section
/-!
Numbers by their bits and bytes (R122 to R126): the arithmetic of the bit class in terms of bit vectors.
-/
namespace Sys2Proof.Machine

/-! ## Sums over positions -/

/-- A fold that adds up terms is their sum. -/
theorem foldl_range_add (n : Nat) (g : Nat → Nat) :
    (List.range n).foldl (fun acc i => acc + g i) 0 = ∑ i ∈ Finset.range n, g i := by
  induction n with
  | zero => rfl
  | succ n ih => rw [List.range_succ, List.foldl_append, ih, Finset.sum_range_succ]; rfl

/-- The sum of the weights of the set bits is the number with these bits. -/
theorem sum_bits_eq_ofBits (n : Nat) (f : Nat → Bool) :
    ∑ i ∈ Finset.range n, (f i).toNat * 2 ^ i = Nat.ofBits fun i : Fin n => f i := by
  induction n generalizing f with
  | zero => rfl
  | succ n ih =>
    have hshift : ∑ i ∈ Finset.range n, (f (i + 1)).toNat * 2 ^ (i + 1) = 2 * Nat.ofBits fun i : Fin n => f (i + 1) := by
      rw [← ih fun i => f (i + 1), Finset.mul_sum]
      exact Finset.sum_congr rfl fun i _ => by ring
    rw [Finset.sum_range_succ', hshift, Nat.ofBits_succ, pow_zero, Nat.mul_one]
    rfl

/-- A bit vector is the number with given bits when it has these bits. -/
theorem ofBits_eq_toNat {n : Nat} {f : Nat → Bool} {x : BitVec n} (h : ∀ i < n, x.getLsbD i = f i) :
    (Nat.ofBits fun i : Fin n => f i) = x.toNat := by
  apply Nat.eq_of_testBit_eq
  intro i
  rw [Nat.testBit_ofBits, BitVec.testBit_toNat]
  split
  · next hi => exact (h i hi).symm
  · next hi => exact (BitVec.getLsbD_of_ge x i (Nat.le_of_not_lt hi)).symm

/-! ## Logic -/

theorem andNot_toNat {n : Nat} (a b : BitVec n) : andNot a.toNat b.toNat = (a &&& ~~~b).toNat := by
  have hxor : a &&& ~~~b = a ^^^ (a &&& b) := by
    ext i
    simp only [BitVec.getElem_and, BitVec.getElem_not, BitVec.getElem_xor]
    cases a[i] <;> cases b[i] <;> rfl
  rw [hxor, BitVec.toNat_xor, BitVec.toNat_and, andNot]

/-! ## Shifts and rotations -/

section
variable {n : Nat} (a d : BitVec n) (k : Nat)

theorem shl_toNat : (if n ≤ k then 0 else a.toNat * 2 ^ k) % 2 ^ n = (a <<< k).toNat := by
  rw [BitVec.toNat_shiftLeft, Nat.shiftLeft_eq]
  split
  · next h => rw [Nat.mod_eq_zero_of_dvd ((pow_dvd_pow 2 h).mul_left _), Nat.zero_mod]
  · rfl

theorem shr_toNat : (if n ≤ k then 0 else a.toNat / 2 ^ k) % 2 ^ n = (a >>> k).toNat := by
  have hdiv : (if n ≤ k then 0 else a.toNat / 2 ^ k) = a.toNat / 2 ^ k := by
    split
    · next h => exact (Nat.div_eq_of_lt (a.isLt.trans_le (Nat.pow_le_pow_right (by decide) h))).symm
    · rfl
  rw [hdiv, BitVec.toNat_ushiftRight, Nat.shiftRight_eq_div_pow, Nat.mod_eq_of_lt ((Nat.div_le_self ..).trans_lt a.isLt)]

/-- Reading all bits of a signed number. -/
theorem toInt_toNat : toInt true n a.toNat = a.toInt := by
  cases n with
  | zero => simp [toInt, BitVec.of_length_zero]
  | succ n =>
    simp only [toInt, Nat.mod_eq_of_lt a.isLt, BitVec.toInt_eq_msb_cond, BitVec.msb_eq_decide, Bool.true_and, Nat.cast_pow,
      Nat.cast_ofNat]

theorem wrapInt_toInt : wrapInt n a.toInt = a.toNat := by
  rw [← toInt_toNat, wrapInt, toInt_emod]
  norm_cast
  exact Nat.mod_eq_of_lt a.isLt

/-- A signed number of n bits is 0 or −1 after a shift of n − 1 and after any greater one. -/
theorem toInt_div_min : a.toInt / 2 ^ min k (n - 1) = a.toInt / 2 ^ k := by
  rcases Nat.le_total k (n - 1) with h | h
  · rw [min_eq_left h]
  rw [min_eq_right h]
  have hlow := a.le_toInt
  have hhigh := a.toInt_lt
  have hle : (2 : Int) ^ (n - 1) ≤ 2 ^ k := pow_le_pow_right₀ (by decide) h
  rcases lt_or_ge a.toInt 0 with hneg | hnonneg
  · rw [Int.ediv_eq_neg_one_of_neg_of_le hneg (by omega), Int.ediv_eq_neg_one_of_neg_of_le hneg (by omega)]
  · rw [Int.ediv_eq_zero_of_lt hnonneg hhigh, Int.ediv_eq_zero_of_lt hnonneg (by omega)]

theorem sar_toNat : sarBits n a.toNat k % 2 ^ n = (a.sshiftRight k).toNat := by
  have hshift : (a.sshiftRight k).toInt = a.toInt / 2 ^ k := by
    rw [BitVec.toInt_sshiftRight, Int.shiftRight_eq_div_pow]
    norm_cast
  rw [sarBits, toInt_toNat, toInt_div_min, ← hshift, wrapInt_toInt, Nat.mod_eq_of_lt (BitVec.isLt _)]

/-- The bits that a rotation moves over the top fill the places that it frees. -/
theorem rot_toNat (hn : 0 < n) : rotBits n a.toNat k % 2 ^ n = (a.rotateLeft (k % n)).toNat := by
  have hk : k % n < n := Nat.mod_lt _ hn
  rw [BitVec.toNat_rotateLeft, Nat.mod_mod, rotBits]
  generalize k % n = j at hk
  have hpow : 2 ^ n = 2 ^ (n - j) * 2 ^ j := by rw [← pow_add, Nat.sub_add_cancel hk.le]
  have hhigh : a.toNat / 2 ^ (n - j) < 2 ^ j := Nat.div_lt_of_lt_mul (hpow ▸ a.isLt)
  have hlow : a.toNat * 2 ^ j % 2 ^ n = a.toNat % 2 ^ (n - j) * 2 ^ j := by rw [hpow, Nat.mul_mod_mul_right]
  have hsum : a.toNat % 2 ^ (n - j) * 2 ^ j + a.toNat / 2 ^ (n - j) < 2 ^ n := by
    have hmod : a.toNat % 2 ^ (n - j) + 1 ≤ 2 ^ (n - j) := Nat.mod_lt _ (by positivity)
    calc _ < (a.toNat % 2 ^ (n - j) + 1) * 2 ^ j := by rw [Nat.add_mul, Nat.one_mul]; exact Nat.add_lt_add_left hhigh _
      _ ≤ 2 ^ n := hpow ▸ Nat.mul_le_mul_right _ hmod
  rw [Nat.shiftLeft_eq, Nat.shiftRight_eq_div_pow, ← Nat.mod_add_mod, hlow, Nat.mod_eq_of_lt hsum, ← Nat.shiftLeft_eq,
    Nat.shiftLeft_add_eq_or_of_lt hhigh]

/-- A over C in one number. -/
theorem toNat_append_eq : (a ++ d).toNat = a.toNat * 2 ^ n + d.toNat := by
  rw [BitVec.toNat_append, ← Nat.shiftLeft_add_eq_or_of_lt d.isLt, Nat.shiftLeft_eq]

theorem fshl_toNat : fshlBits n a.toNat k d.toNat % 2 ^ n = (((a ++ d) <<< (k % n)).extractLsb' n n).toNat := by
  rw [BitVec.extractLsb'_toNat, BitVec.toNat_shiftLeft, toNat_append_eq, Nat.shiftRight_eq_div_pow, Nat.shiftLeft_eq,
    pow_add, Nat.mod_mul_right_div_self, Nat.mod_mod, fshlBits]

theorem fshr_toNat : fshrBits n a.toNat k d.toNat % 2 ^ n = (((a ++ d) >>> (k % n)).extractLsb' 0 n).toNat := by
  rw [BitVec.extractLsb'_toNat, BitVec.toNat_ushiftRight, toNat_append_eq, Nat.shiftRight_zero, Nat.shiftRight_eq_div_pow,
    fshrBits]

end

/-! ## Bit fields (R124) -/

/-- The low l bits of a vector, with l at most its width. -/
theorem toNat_and_lowBits {n l : Nat} (hl : l ≤ n) (x : BitVec n) :
    (x &&& BitVec.ofNat n (2 ^ l - 1)).toNat = x.toNat % 2 ^ l := by
  have hlt : 2 ^ l - 1 < 2 ^ n := (Nat.sub_lt (by positivity) one_pos).trans_le (Nat.pow_le_pow_right (by decide) hl)
  rw [BitVec.toNat_and, BitVec.toNat_ofNat, Nat.mod_eq_of_lt hlt, Nat.and_two_pow_sub_one_eq_mod]

/-- A field of l bits has its sign bit set when it is half of 2^l or more. -/
theorem testBit_pred_eq {l v : Nat} (hl : l ≠ 0) (hv : v < 2 ^ l) : v.testBit (l - 1) = decide (2 ^ (l - 1) ≤ v) := by
  by_cases h : 2 ^ (l - 1) ≤ v
  · rw [decide_eq_true h]
    exact Nat.testBit_of_two_pow_le_and_two_pow_add_one_gt h (by rwa [Nat.sub_add_cancel (Nat.pos_of_ne_zero hl)])
  · rw [decide_eq_false h]
    exact Nat.testBit_lt_two_pow (Nat.lt_of_not_le h)

/-- Ones above a field of l bits take 2^l away from it, in n bits. -/
theorem toNat_or_highBits {n l : Nat} (hl : l ≤ n) (f : BitVec n) (hf : f.toNat < 2 ^ l) :
    (f ||| ~~~(BitVec.ofNat n (2 ^ l - 1))).toNat = f.toNat + (2 ^ n - 2 ^ l) := by
  have hlow : f &&& BitVec.ofNat n (2 ^ l - 1) = f :=
    BitVec.eq_of_toNat_eq ((toNat_and_lowBits hl f).trans (Nat.mod_eq_of_lt hf))
  have hdisjoint : f &&& ~~~(BitVec.ofNat n (2 ^ l - 1)) = 0#n := by
    apply BitVec.eq_of_toNat_eq
    rw [← andNot_toNat, andNot, ← BitVec.toNat_and, hlow, Nat.xor_self, BitVec.toNat_zero]
  have hpow : 2 ^ l ≤ 2 ^ n := Nat.pow_le_pow_right (by decide) hl
  rw [← BitVec.add_eq_or_of_and_eq_zero _ _ hdisjoint, BitVec.toNat_add, BitVec.toNat_not, BitVec.toNat_ofNat,
    Nat.mod_eq_of_lt (a := 2 ^ l - 1) (by omega), Nat.mod_eq_of_lt (by omega)]
  omega

/-- The reading of a field of l bits as a signed number fills the bits above it with its sign. -/
theorem wrapInt_toInt_field {n l : Nat} (hl : l ≤ n) (hne : l ≠ 0) (f : BitVec n) (hf : f.toNat < 2 ^ l) :
    wrapInt n (toInt true l f.toNat) =
      (if f.getLsbD (l - 1) then f ||| ~~~(BitVec.ofNat n (2 ^ l - 1)) else f).toNat := by
  have hsign : f.getLsbD (l - 1) = decide (2 ^ (l - 1) ≤ f.toNat) := testBit_pred_eq hne hf
  have hpow : 2 ^ l ≤ 2 ^ n := Nat.pow_le_pow_right (by decide) hl
  rw [toInt, Nat.mod_eq_of_lt hf, hsign]
  by_cases h : 2 ^ (l - 1) ≤ f.toNat
  · have hvalue : (f.toNat : Int) - 2 ^ l + 2 ^ n = (f.toNat + (2 ^ n - 2 ^ l) : Nat) := by push_cast [hpow]; ring
    rw [decide_eq_true h, Bool.and_self, if_pos rfl, if_pos rfl, toNat_or_highBits hl f hf, wrapInt,
      ← Int.add_emod_right, hvalue]
    norm_cast
    exact Nat.mod_eq_of_lt (by omega)
  · rw [decide_eq_false h, Bool.and_false, if_neg Bool.false_ne_true, if_neg Bool.false_ne_true, wrapInt_natCast,
      Nat.mod_eq_of_lt f.isLt]

theorem bfx_toNat (sx : Bool) {n : Nat} (a : BitVec n) (b : Nat) :
    let p := min (b % 256) n
    let l := min (b / 256 % 256) (n - p)
    let f := (a >>> p) &&& BitVec.ofNat n (2 ^ l - 1)
    bfxBits sx n a.toNat b % 2 ^ n =
      (if sx && decide (l ≠ 0) && f.getLsbD (l - 1) then f ||| ~~~(BitVec.ofNat n (2 ^ l - 1)) else f).toNat := by
  dsimp only
  unfold bfxBits fieldAt
  dsimp only
  generalize min (b % 256) n = p
  have hl : min (b / 256 % 256) (n - p) ≤ n := (min_le_right ..).trans (Nat.sub_le ..)
  generalize min (b / 256 % 256) (n - p) = l at hl
  have hf : (a >>> p &&& BitVec.ofNat n (2 ^ l - 1)).toNat = a.toNat / 2 ^ p % 2 ^ l := by
    rw [toNat_and_lowBits hl, BitVec.toNat_ushiftRight, Nat.shiftRight_eq_div_pow]
  rw [← hf]
  generalize a >>> p &&& BitVec.ofNat n (2 ^ l - 1) = f at hf
  have hlt : f.toNat < 2 ^ l := hf ▸ Nat.mod_lt _ (by positivity)
  by_cases hne : l = 0
  · subst hne
    simpa using (Nat.lt_one_iff.1 hlt).symm
  · cases sx
    · simp [hne]
    · simp [hne, wrapInt_toInt_field hl hne f hlt]

theorem bfi_toNat {n : Nat} (a d : BitVec n) (b : Nat) :
    let p := min (b % 256) n
    let l := min (b / 256 % 256) (n - p)
    let m : BitVec n := BitVec.ofNat n ((2 ^ l - 1) * 2 ^ p)
    bfiBits n a.toNat b d.toNat % 2 ^ n = ((d &&& ~~~m) ||| ((a <<< p) &&& m)).toNat := by
  dsimp only
  unfold bfiBits fieldAt
  dsimp only
  have hp : min (b % 256) n ≤ n := min_le_right ..
  generalize min (b % 256) n = p at hp
  have hl : min (b / 256 % 256) (n - p) ≤ n - p := min_le_right ..
  generalize min (b / 256 % 256) (n - p) = l at hl
  have hlt : (2 ^ l - 1) * 2 ^ p < 2 ^ n := by
    have hpred : 2 ^ l - 1 < 2 ^ l := Nat.sub_lt (by positivity) one_pos
    calc (2 ^ l - 1) * 2 ^ p < 2 ^ l * 2 ^ p := Nat.mul_lt_mul_of_pos_right hpred (by positivity)
      _ ≤ 2 ^ n := by rw [← pow_add]; exact Nat.pow_le_pow_right (by decide) (by omega)
  have hm : (2 ^ l - 1) * 2 ^ p = (BitVec.ofNat n ((2 ^ l - 1) * 2 ^ p)).toNat := (Nat.mod_eq_of_lt hlt).symm
  generalize BitVec.ofNat n ((2 ^ l - 1) * 2 ^ p) = m at hm
  rw [hm, andNot_toNat, BitVec.toNat_or, BitVec.toNat_and (a <<< p), BitVec.toNat_shiftLeft, Nat.shiftLeft_eq,
    Nat.or_mod_two_pow, Nat.and_mod_two_pow, Nat.mod_eq_of_lt (BitVec.isLt _), Nat.mod_eq_of_lt m.isLt]

/-! ## Counts, reversal and bytes (R125, R126) -/

theorem onesIn_toNat {n : Nat} (x : BitVec n) : onesIn n x.toNat = x.cpop.toNat := by
  have hprefix (k : Nat) : ((List.range k).filter fun i => x.toNat.testBit i).length = x.cpopNatRec k 0 := by
    induction k with
    | zero => rfl
    | succ k ih =>
      rw [List.range_succ, List.filter_append, List.length_append, ih, BitVec.cpopNatRec_succ,
        BitVec.cpopNatRec_eq (0 + _), BitVec.getLsbD]
      cases h : x.toNat.testBit k <;> simp [h]
  rw [BitVec.toNat_cpop, ← hprefix, onesIn]

theorem leadingZeros_toNat {n : Nat} (x : BitVec n) : leadingZeros n x.toNat = x.clz.toNat := by
  rw [leadingZeros, Nat.mod_eq_of_lt x.isLt]
  by_cases hx : x = 0#n
  · rw [BitVec.clz_eq_iff_eq_zero.2 hx, hx]
    simp [bitLength]
  · have hlt : x.clz.toNat < n := by
      have := BitVec.clz_lt_iff_ne_zero.2 hx
      rwa [BitVec.lt_def, BitVec.natCast_eq_ofNat, BitVec.toNat_ofNat, Nat.mod_two_pow_self] at this
    have hlow := BitVec.two_pow_sub_clz_le_toNat_of_ne_zero (Nat.zero_lt_of_lt hlt) hx
    have hhigh := x.toNat_lt_two_pow_sub_clz
    rw [show n - x.clz.toNat = n - 1 - x.clz.toNat + 1 by omega] at hhigh
    rw [bitLength_eq_succ hlow hhigh]
    omega

theorem trailingZeros_toNat {n : Nat} (x : BitVec n) : trailingZeros n x.toNat = x.ctz.toNat := by
  unfold trailingZeros
  by_cases hx : x = 0#n
  · have hnone : (List.range n).find? (fun i => x.toNat.testBit i) = none := by simp [hx]
    rw [hnone, BitVec.ctz_eq_reverse_clz, BitVec.clz_eq_iff_eq_zero.2 (BitVec.reverse_eq_zero_iff.2 hx)]
    simp
  · have hlt : x.ctz.toNat < n := by
      have := BitVec.ctz_lt_iff_ne_zero.2 hx
      rwa [BitVec.lt_def, BitVec.natCast_eq_ofNat, BitVec.toNat_ofNat, Nat.mod_two_pow_self] at this
    have hfirst : (List.range n).find? (fun i => x.toNat.testBit i) = some x.ctz.toNat :=
      List.find?_range_eq_some.2 ⟨BitVec.getLsbD_true_ctz_of_ne_zero hx, List.mem_range.2 hlt,
        fun j hj => by simpa [BitVec.testBit_toNat] using BitVec.getLsbD_false_of_lt_ctz hj⟩
    rw [hfirst, Option.getD_some]

theorem reversed_toNat {n : Nat} (x : BitVec n) : reversed n x.toNat = x.reverse.toNat := by
  have hterm : ∀ i ∈ Finset.range n, (if x.toNat.testBit (n - 1 - i) then 2 ^ (n - 1 - (n - 1 - i)) else 0) =
      (x.getLsbD (n - 1 - i)).toNat * 2 ^ i := by
    intro i hi
    rw [Finset.mem_range] at hi
    rw [BitVec.testBit_toNat, show n - 1 - (n - 1 - i) = i by omega]
    cases x.getLsbD (n - 1 - i) <;> simp
  rw [reversed, foldl_range_add, ← Finset.sum_range_reflect, Finset.sum_congr rfl hterm,
    sum_bits_eq_ofBits n fun i => x.getLsbD (n - 1 - i)]
  refine ofBits_eq_toNat (f := fun i => x.getLsbD (n - 1 - i)) fun i hi => ?_
  rw [BitVec.getLsbD_reverse, BitVec.getMsbD, decide_eq_true hi, Bool.true_and]

theorem permBytes_toNat {n : Nat} (a d : BitVec n) (b : Nat) :
    permBytes n a.toNat b d.toNat = bytesNat (n / 8) fun j =>
      let q := b / 16 ^ j % 16
      let byte i := ((d ++ a).extractLsb' (8 * i) 8).toNat
      if n = 64 ∨ q < 8 then byte q else if byte (q - 8) < 128 then 0 else 255 := by
  have hbyte (i : Nat) : ((d ++ a).extractLsb' (8 * i) 8).toNat = (a.toNat + 2 ^ n * d.toNat) / 256 ^ i % 256 := by
    rw [BitVec.extractLsb'_toNat, toNat_append_eq, Nat.shiftRight_eq_div_pow, pow_mul, Nat.mul_comm, Nat.add_comm]
    rfl
  simp only [permBytes, bytesNat, hbyte, List.sum_eq_foldl_nat, List.foldl_map, ← ite_or]

/-! ## Bits chosen by a code (R122) -/

theorem getLsbD_bitsBelow {n : Nat} (hn : n ≤ 64) (f : Nat → Bool) (j : Nat) :
    (bitsBelow n f).getLsbD j = (decide (j < n) && f j) := by
  induction n with
  | zero => simp [bitsBelow]
  | succ n ih =>
    have hstep : bitsBelow (n + 1) f = if f n then bitsBelow n f ||| (1#64 <<< n) else bitsBelow n f := by
      rw [bitsBelow, List.range_succ, List.foldl_append]
      rfl
    have hone : (1#64 <<< n).getLsbD j = decide (j = n) := by
      rw [← BitVec.twoPow_eq, BitVec.getLsbD_twoPow]
      grind
    rw [hstep, apply_ite (BitVec.getLsbD · j), BitVec.getLsbD_or, ih (by omega), hone]
    by_cases hj : j = n
    · subst hj
      cases h : f j <;> simp
    · have hlt : j < n + 1 ↔ j < n := by omega
      simp [hj, hlt]

theorem ofBits_eq_bitsBelow {n : Nat} (hn : n ≤ 64) (f : Nat → Bool) :
    (Nat.ofBits fun i : Fin n => f i) = (bitsBelow n f).toNat := by
  apply Nat.eq_of_testBit_eq
  intro j
  rw [Nat.testBit_ofBits, BitVec.testBit_toNat, getLsbD_bitsBelow hn]
  split <;> simp [*]

theorem bitsBelow_lt {n : Nat} (hn : n ≤ 64) (f : Nat → Bool) : (bitsBelow n f).toNat < 2 ^ n :=
  ofBits_eq_bitsBelow hn f ▸ Nat.ofBits_lt_two_pow _

/-- What the inputs with bit i set weigh together. -/
def inputWeight (a b d : DWord) (i : Nat) : Nat :=
  (if a.getLsbD i then 1 else 0) + (if b.getLsbD i then 2 else 0) + if d.getLsbD i then 4 else 0

theorem inputWeight_lt (a b d : DWord) (i : Nat) : inputWeight a b d i < 8 := by
  unfold inputWeight
  split_ifs <;> decide

theorem mixBits_eq (x : BitVec 26) {n : Nat} (hn : n ≤ 64) (a b d : DWord) :
    mixBits (fld x 7 0) n a.toNat b.toNat d.toNat = (bitsBelow n fun i => x.getLsbD (inputWeight a b d i)).toNat := by
  have hinput (v : DWord) (i : Nat) : v.toNat >>> i % 2 = (v.getLsbD i).toNat := by
    rw [Nat.shiftRight_eq_div_pow, ← Nat.toNat_testBit, BitVec.testBit_toNat]
  have hweight (i : Nat) : a.toNat >>> i % 2 + 2 * (b.toNat >>> i % 2) + 4 * (d.toNat >>> i % 2) = inputWeight a b d i := by
    rw [hinput, hinput, hinput, inputWeight]
    cases a.getLsbD i <;> cases b.getLsbD i <;> cases d.getLsbD i <;> rfl
  have hcode (k : Nat) (hk : k < 8) : fld x 7 0 >>> k % 2 = (x.getLsbD k).toNat := by
    rw [Nat.shiftRight_eq_div_pow, ← Nat.toNat_testBit, Nat.testBit_mod_two_pow]
    simp [hk, BitVec.testBit_toNat]
  rw [← ofBits_eq_bitsBelow hn, ← sum_bits_eq_ofBits n fun i => x.getLsbD (inputWeight a b d i), mixBits,
    foldl_range_add]
  exact Finset.sum_congr rfl fun i _ => by rw [hweight, hcode _ (inputWeight_lt a b d i)]

end Sys2Proof.Machine
end

section
/-!
Bit instructions (R122 to R126): O4 and O5.
-/
namespace Sys2Proof.Machine

/-! ## Results of the width -/

theorem wordBits_pos (wide : Bool) : 0 < wordBits wide := by cases wide <;> decide

/-- A result of the instruction's width is a bit vector of that width. -/
theorem bitResults_eq (c : Ctx) (f : Nat → Nat) (x : Nat → BitVec (wordBits (Fields.w64 c.w)))
    (h : ∀ t, f t % 2 ^ wordBits (Fields.w64 c.w) = (x t).toNat) :
    bitResults c f = c.results (Fields.w64 c.w) false fun t => (x t).setWidth 64 := by
  unfold bitResults
  congr 1
  exact funext fun t => ofNat_mod_eq (x t) (f t) (h t)

/-- A body on two words and a count gives the bit vectors whose numbers it computes. -/
theorem bitFunnel_eq {g : Nat → Nat → Nat → Nat → Nat} {f : (n : Nat) → BitVec n → Nat → BitVec n → BitVec n}
    (h : ∀ n, 0 < n → ∀ (a d : BitVec n) k, g n a.toNat k d.toNat % 2 ^ n = (f n a k d).toNat) (c : Ctx) (s : State) :
    bitFunnel g c s = .done (bitDone f c s) := by
  rw [bitFunnel, bitDone, bitResults_eq c _ _ fun t => ?_]
  rw [fields_wbits, bitA, bitC, countB, wordA, wordC, ← h _ (wordBits_pos _), toNat_setWidth_of_lt (srcA_lt s c _ t),
    toNat_setWidth_of_lt (srcC_lt s c _ t)]

theorem bitCount_eq {g : Nat → Nat → Nat} {f : (n : Nat) → BitVec n → Nat}
    (h : ∀ n (a : BitVec n), g n a.toNat = f n a) (c : Ctx) (s : State) : bitCount g c s = .done (countDone f c s) := by
  have hread (t : Nat) : g (wordBits (Fields.w64 c.w)) (bitA s c t) =
      f (wordBits (Fields.w64 c.w)) ((wordA c s t).setWidth _) := by
    rw [← h, wordA, toNat_setWidth_of_lt (srcA_lt s c _ t), bitA]
  simp only [bitCount, countDone, fields_wbits, hread]

/-- Logic on two words of the width gives a word of the width. -/
theorem bitTwo_eq {g : Nat → Nat → Nat} {f : DWord → DWord → DWord} (h : ∀ a b, g a.toNat b.toNat = (f a b).toNat)
    (hlt : ∀ n x y, x < 2 ^ n → y < 2 ^ n → g x y < 2 ^ n) (c : Ctx) (s : State) :
    bitTwo g c s = .done (bitDone2 f c s) := by
  have hword (t : Nat) : BitVec.ofNat 64 (g (bitA s c t) (bitB s c t) % 2 ^ wordBits (Fields.w64 c.w)) =
      f (wordA c s t) (wordB c s t) := by
    rw [bitA, bitB, Nat.mod_eq_of_lt (hlt _ _ _ (srcA_lt s c _ t) (srcB_lt s c _ t)), h, BitVec.ofNat_toNat,
      BitVec.setWidth_eq, wordA, wordB]
  simp only [bitTwo, bitDone2, bitResults, fields_wbits, hword]

section
variable {i : Instr} {op : Nat} {w : Fields}

/-- The word may choose among functions of its operands. -/
theorem completes_of_bitFunnel {g : Ctx → Nat → Nat → Nat → Nat → Nat}
    {f : Ctx → (n : Nat) → BitVec n → Nat → BitVec n → BitVec n}
    (he : ∀ s, exec i s = s.issue op w fun c s => bitFunnel (g c) c s) (ho : opFields i = some (op, w))
    (h : ∀ c n, 0 < n → ∀ (a d : BitVec n) k, g c n a.toNat k d.toNat % 2 ^ n = (f c n a k d).toNat) :
    Completes i fun c s => bitDone (f c) c s :=
  completes_of_done he ho fun c s _ _ => ⟨bitFunnel_eq (h c) c s, rfl⟩

theorem completes_of_bitShift {g : Nat → Nat → Nat → Nat} {f : (n : Nat) → BitVec n → Nat → BitVec n}
    (he : ∀ s, exec i s = s.issue op w (bitShift g)) (ho : opFields i = some (op, w))
    (h : ∀ n, 0 < n → ∀ (a : BitVec n) k, g n a.toNat k % 2 ^ n = (f n a k).toNat) :
    Completes i (bitDone fun n a k _ => f n a k) :=
  completes_of_bitFunnel (g := fun _ n a k _ => g n a k) he ho fun _ n hn a _ k => h n hn a k

theorem completes_of_bitCount {g : Nat → Nat → Nat} {f : (n : Nat) → BitVec n → Nat}
    (he : ∀ s, exec i s = s.issue op w (bitCount g)) (ho : opFields i = some (op, w))
    (h : ∀ n (a : BitVec n), g n a.toNat = f n a) : Completes i (countDone f) :=
  completes_of_done he ho fun c s _ _ => ⟨bitCount_eq h c s, rfl⟩

theorem completes_of_bitTwo {g : Nat → Nat → Nat} {f : DWord → DWord → DWord}
    (he : ∀ s, exec i s = s.issue op w (bitTwo g)) (ho : opFields i = some (op, w))
    (h : ∀ a b, g a.toNat b.toNat = (f a b).toNat) (hlt : ∀ n x y, x < 2 ^ n → y < 2 ^ n → g x y < 2 ^ n) :
    Completes i (bitDone2 f) :=
  completes_of_done he ho fun c s _ _ => ⟨bitTwo_eq h hlt c s, rfl⟩

end

/-! ## The code of BMIX (R122) -/

theorem bitMix_eq (c : Ctx) (s : State) :
    bitMix c s = .done
      { s, fixed := c.results (Fields.w64 c.w) false fun t => bitsBelow (wordBits (Fields.w64 c.w)) fun i =>
          c.w.x.getLsbD (inputWeight (wordA c s t) (wordB c s t) (wordC c s t) i) } := by
  have hword (t : Nat) : BitVec.ofNat 64 (mixBits (fld c.w.x 7 0) (wordBits (Fields.w64 c.w)) (bitA s c t) (bitB s c t)
      (bitC s c t) % 2 ^ wordBits (Fields.w64 c.w)) = bitsBelow (wordBits (Fields.w64 c.w)) fun i =>
        c.w.x.getLsbD (inputWeight (wordA c s t) (wordB c s t) (wordC c s t) i) := by
    rw [bitA, bitB, bitC, mixBits_eq c.w.x (wordBits_le _), Nat.mod_eq_of_lt (bitsBelow_lt (wordBits_le _) _),
      BitVec.ofNat_toNat, BitVec.setWidth_eq]
    rfl
  simp only [bitMix, bitResults, fields_wbits, hword]

/-- The bits above the code's byte are those that BMIX reserves. -/
theorem and_aboveByte_eq_zero_iff (x : BitVec 26) : x &&& 0x3FFFF00 = 0 ↔ x.toNat < 256 := by
  have hmask : (0x3FFFF00 : BitVec 26) = ~~~255#26 := by decide
  rw [hmask, ← BitVec.toNat_inj, ← andNot_toNat, andNot, BitVec.ofNat_eq_ofNat, BitVec.toNat_zero, Nat.xor_eq_zero_iff,
    show (255#26).toNat = 2 ^ 8 - 1 from rfl, Nat.and_two_pow_sub_one_eq_mod]
  omega

/-- Settles O4: logic by words of 64 bits, BMIX by its code, shifts and rotations by bit vectors of the width. -/
theorem logicAndShiftsWorkOnTheWidth : Obligations.LogicAndShiftsWorkOnTheWidth := by
  unfold Obligations.LogicAndShiftsWorkOnTheWidth
  refine ⟨fun w => ⟨?and, ?or, ?xor, ?andn, ?bmix, rfl, ?wf, ?reserved⟩,
    fun w => ⟨?shl, ?shr, ?sar, ?rot, ?fshl, ?fshr, rfl⟩⟩
  case and => exact completes_of_bitTwo (fun _ => rfl) rfl (fun _ _ => rfl) fun _ x _ _ hy => Nat.and_lt_two_pow x hy
  case or => exact completes_of_bitTwo (fun _ => rfl) rfl (fun _ _ => rfl) fun _ _ _ => Nat.or_lt_two_pow
  case xor => exact completes_of_bitTwo (fun _ => rfl) rfl (fun _ _ => rfl) fun _ _ _ => Nat.xor_lt_two_pow
  case andn =>
    exact completes_of_bitTwo (fun _ => rfl) rfl andNot_toNat fun _ x _ hx hy =>
      Nat.xor_lt_two_pow hx (Nat.and_lt_two_pow x hy)
  case bmix => exact completes_of_done (fun _ => rfl) rfl fun c s _ _ => ⟨bitMix_eq c s, rfl⟩
  case wf =>
    intro hwf
    have hseq := seq_eq_zero_of_wf (op := 0x44) (w := w) rfl hwf rfl
    refine ⟨hseq, (and_aboveByte_eq_zero_iff w.x).1 ?_⟩
    by_contra hx
    exact Bool.false_ne_true ((badReserved_of_wf (op := 0x44) rfl hwf).symm.trans (badReserved_of_x hseq hx))
  case reserved =>
    intro hform hseq hx
    exact encodingReason_eq_three hform rfl rfl rfl
      (badReserved_of_x hseq fun h => Nat.not_lt.2 hx ((and_aboveByte_eq_zero_iff w.x).1 h))
  case shl => exact completes_of_bitShift (fun _ => rfl) rfl fun _ _ => shl_toNat
  case shr => exact completes_of_bitShift (fun _ => rfl) rfl fun _ _ => shr_toNat
  case sar => exact completes_of_bitShift (fun _ => rfl) rfl fun _ _ => sar_toNat
  case rot =>
    exact completes_of_bitShift (f := fun n a k => a.rotateLeft (k % n)) (fun _ => rfl) rfl fun _ hn a k => rot_toNat a k hn
  case fshl =>
    exact completes_of_bitFunnel (f := fun _ n a k d => ((a ++ d) <<< (k % n)).extractLsb' n n) (fun _ => rfl) rfl
      fun _ _ _ => fshl_toNat
  case fshr =>
    exact completes_of_bitFunnel (f := fun _ n a k d => ((a ++ d) >>> (k % n)).extractLsb' 0 n) (fun _ => rfl) rfl
      fun _ _ _ => fshr_toNat

/-- Settles O5: fields, reversal and bytes by bit vectors of the width, counts by the bits that they count. -/
theorem fieldsCountsAndBytes : Obligations.FieldsCountsAndBytes := by
  unfold Obligations.FieldsCountsAndBytes
  intro w a d u y
  have hreverse (n : Nat) (_ : 0 < n) (x : BitVec n) (_ : Nat) : reversed n x.toNat % 2 ^ n = x.reverse.toNat := by
    rw [reversed_toNat, Nat.mod_eq_of_lt (BitVec.isLt _)]
  refine ⟨?bfx, ?bfi, ?_, ?_, ?_, ?_, ?_, ?_, ?_, ?_, ?bperm⟩
  case bfx =>
    exact completes_of_bitFunnel (g := fun c n a k _ => bfxBits (c.w.f.getLsbD 0) n a k) (fun _ => rfl) rfl
      fun c _ _ a _ k => bfx_toNat (c.w.f.getLsbD 0) a k
  case bfi => exact completes_of_bitFunnel (fun _ => rfl) rfl fun _ _ _ => bfi_toNat
  case bperm =>
    refine completes_of_bitFunnel (fun _ => rfl) rfl fun _ _ _ a d k => ?_
    rw [permBytes_toNat]
    rfl
  · exact completes_of_bitCount (fun _ => rfl) rfl fun _ => onesIn_toNat
  · exact completes_of_bitCount (fun _ => rfl) rfl fun _ => onesIn_toNat
  · exact completes_of_bitCount (fun _ => rfl) rfl fun _ => leadingZeros_toNat
  · exact completes_of_bitCount (fun _ => rfl) rfl fun _ => leadingZeros_toNat
  · exact completes_of_bitCount (fun _ => rfl) rfl fun _ => trailingZeros_toNat
  · exact completes_of_bitCount (fun _ => rfl) rfl fun _ => trailingZeros_toNat
  · exact completes_of_bitShift (fun _ => rfl) rfl hreverse
  · exact completes_of_bitShift (fun _ => rfl) rfl hreverse

end Sys2Proof.Machine
end

section
/-!
Packed 16-bit instructions (R127, R128): O6 and O7.
-/
namespace Sys2Proof.Machine

/-! ## Elements -/

theorem element16_eq (sg : Bool) (v : DWord) (e : Nat) : element16 sg v e = lane16 sg v e := by
  rw [element16, lane16, ← toInt_eq_intOfBits sg _ (by decide), BitVec.toNat_ushiftRight, Nat.shiftRight_eq_div_pow]

/-- Two results of 16 bits stand side by side: no carry passes between them. -/
theorem pack16_narrow (sat sg : Bool) (x y : Int) :
    pack16 (narrow sat sg 16 x) (narrow sat sg 16 y) = resBits sat sg 16 x + 65536 * resBits sat sg 16 y := by
  have hlt (v : Int) : narrow sat sg 16 v < 65536 := narrow_eq sat sg 16 v ▸ wrapInt_lt 16 _
  rw [pack16, Nat.mod_eq_of_lt (hlt x), Nat.mod_eq_of_lt (hlt y), BitVec.ofNat_add, BitVec.ofNat_mul,
    ofNat_narrow _ _ _ _ (by decide), ofNat_narrow _ _ _ _ (by decide)]
  rfl

theorem packedTwo_eq (f : Int → Int → Int) (c : Ctx) (s : State) : packedTwo f c s = .done (packedDone f c s) := by
  simp only [packedTwo, packedDone, element16_eq, pack16_narrow]

theorem completes_of_packedInt {i : Instr} {op : Nat} {w : Fields} {f : Int → Int → Int}
    (he : ∀ s, exec i s = s.issue op w (packedTwo f)) (ho : opFields i = some (op, w)) : Completes i (packedDone f) :=
  completes_of_done he ho fun c s _ _ => ⟨packedTwo_eq f c s, rfl⟩

/-- Settles O6: each element is read, worked on and put back on its own. -/
theorem packedElementsAreSeparate : Obligations.PackedElementsAreSeparate := by
  unfold Obligations.PackedElementsAreSeparate
  refine fun w => ⟨?_, ?_, ?_, ?max, ?cmp⟩
  case max =>
    simp only [max_def' (α := Int)]
    exact completes_of_packedInt (fun _ => rfl) rfl
  case cmp =>
    refine completes_of_done (fun _ => rfl) rfl fun c s _ _ => ⟨?_, rfl⟩
    simp only [packedCompare, element16_eq]
  all_goals exact completes_of_packedInt (fun _ => rfl) rfl

/-! ## The trellis step -/

/-- The two decisions of a step as the low bits of the survivor word (R128). -/
theorem ofNat_decisions (p q : Prop) [Decidable p] [Decidable q] :
    BitVec.ofNat 64 (2 * (if p then 1 else 0) + if q then 1 else 0) = 2 * (if p then 1 else 0) + if q then 1 else 0 := by
  split_ifs <;> rfl

/-- M[6] is reserved where an opcode takes no uniform C (R62). -/
theorem getLsbD_mRes_six (w : Fields) (ub : Bool) : (mRes w 0x38 ub false).getLsbD 6 = true := by
  unfold mRes
  rw [Bool.and_false, if_neg Bool.false_ne_true]
  split <;> rfl

/-- IACS2 takes no uniform C in its per-thread form. -/
theorem badReserved_trellis_of_m {w : Fields} (hm : w.m.getLsbD 6 = true) : badReserved w (opInfo 0x57 w) = true :=
  badReserved_of_m (and_ne_zero_of_getLsbD hm (getLsbD_mRes_six w true))

/-- Settles O7: the step by the two elements and their decisions, the reserved values by the opcode's description. -/
theorem trellisStepKeepsTheBetterPath : Obligations.TrellisStepKeepsTheBetterPath := by
  unfold Obligations.TrellisStepKeepsTheBetterPath
  refine fun w => ⟨?step, rfl, ?wf, ?reserved⟩
  case step =>
    refine completes_of_done (fun _ => rfl) rfl fun c s _ _ => ⟨?_, rfl⟩
    unfold trellis
    dsimp only
    simp only [element16_eq, pack16_narrow, ofNat_decisions, Bool.ite_eq_true_distrib, decide_eq_true_eq,
      gt_iff_lt, BitVec.add_assoc]
  case wf =>
    intro hwf
    have h3 : badReserved w (opInfo 0x57 w) = false := badReserved_of_wf rfl hwf
    have h9 : (w.m.getLsbD 5 || decide (2 ≤ w.f.toNat)) = false := bad9_of_wf (op := 0x57) (w := w) rfl hwf
    obtain ⟨h64, hf⟩ := Bool.or_eq_false_iff.1 h9
    refine ⟨Bool.eq_false_iff.2 fun hm => ?_, h64, by simpa using hf⟩
    exact Bool.false_ne_true (h3.symm.trans (badReserved_trellis_of_m hm))
  case reserved =>
    intro hform hm
    exact encodingReason_eq_three hform rfl rfl rfl (badReserved_trellis_of_m hm)

end Sys2Proof.Machine
end

section
/-!
Moves, selection and predicates in registers (R148 to R153): O12.
-/
namespace Sys2Proof.Machine

/-! ## Predicates as bits -/

/-- A bit of a field is a bit of the word. -/
theorem testBit_fld {n : Nat} (x : BitVec n) {hi lo k : Nat} (hk : k < hi + 1 - lo) :
    (fld x hi lo).testBit k = x.getLsbD (lo + k) := by
  rw [fld_eq_extractLsb', BitVec.testBit_toNat, BitVec.getLsbD_extractLsb', decide_eq_true hk, Bool.true_and]

/-- Three predicates choose one of the eight bits of PMIX's code (R152). -/
theorem predicateChoice_lt (p q r : Bool) :
    (if p then 1 else 0) + 2 * (if q then 1 else 0) + 4 * (if r then 1 else 0) < 8 := by
  cases p <;> cases q <;> cases r <;> decide

/-- The sum of the weights of the true tests is the word with these bits. -/
theorem ofNat_foldl_weights {n : Nat} (hn : n ≤ 64) (f : Nat → Bool) :
    BitVec.ofNat 64 ((List.range n).foldl (fun d i => d + if f i then 2 ^ i else 0) 0) = bitsBelow n f := by
  have hweight (i : Nat) : (if f i then 2 ^ i else 0) = (f i).toNat * 2 ^ i := by
    cases f i <;> simp
  simp only [hweight]
  rw [foldl_range_add, sum_bits_eq_ofBits, ofBits_eq_bitsBelow hn, BitVec.ofNat_toNat, BitVec.setWidth_eq]

/-! ## Instructions -/

/-- A group result is written whenever some thread is active (R146). -/
theorem Ctx.groupResult_eq (c : Ctx) (v : DWord) :
    c.groupResult v = if c.act = 0 then [] else [⟨.uni c.w.d.toNat, v⟩] := by
  simp only [Ctx.groupResult, beq_iff_eq]

/-- Settles O12: the moves by their bodies, PMIX and PGET by the bits of a code and of a word, PCOL by its group result. -/
theorem movesAndPredicates : Obligations.MovesAndPredicates := by
  unfold Obligations.MovesAndPredicates
  refine fun w a d u y => ⟨?mov, ?_, ?_, ?pmix, ?_, ?pget, ?pcol⟩
  case mov => rintro i (rfl | rfl) <;> exact completes_of_done (fun _ => rfl) rfl fun _ _ _ _ => ⟨rfl, rfl⟩
  case pmix =>
    refine completes_of_done (fun _ => rfl) rfl fun c s _ _ => ⟨?_, rfl⟩
    have hcode (p q r : Bool) := testBit_fld c.w.x (hi := 7) (lo := 0) (predicateChoice_lt p q r)
    simp only [pmixBody, hcode, Nat.zero_add]
  case pget =>
    refine completes_of_done (fun _ => rfl) rfl fun c s _ _ => ⟨?_, rfl⟩
    have hlen : c.w.f.toNat + 1 ≤ 64 := by omega
    simp only [pgetBody, ofNat_foldl_weights hlen]
  case pcol =>
    refine completes_of_done (fun _ => rfl) rfl fun c s _ _ => ⟨?_, rfl⟩
    simp only [pcolBody, Ctx.groupResult_eq, bne_iff_ne, ne_eq, ite_not, beq_iff_eq, Bool.or_eq_true] <;> rfl
  all_goals exact completes_of_done (fun _ => rfl) rfl fun _ _ _ _ => ⟨rfl, rfl⟩

end Sys2Proof.Machine
end

section
/-!
Registers of other threads, and folds in thread order (R154 to R157, Table 8.4): O13.
-/
namespace Sys2Proof.Machine

/-! ## Exchange (R154) -/

/-- A thread that GSWZ's mode names no source for reads its own register. -/
theorem gswzSource_getD (mode n t k : Nat) :
    (gswzSource mode n t k).getD t =
      match mode with
      | 0 => t / n * n + k % n
      | 1 => if k ≤ t % n then t - k else t
      | 2 => if t % n + k < n then t + k else t
      | 3 => t / n * n + (t % n ^^^ k % 64) % n
      | _ => t / n * n + (t % n + k) % n := by
  have hbase : t - t % n = t / n * n := Nat.sub_eq_of_eq_add (Nat.div_add_mod' t n).symm
  rw [← hbase]
  match mode with
  | 0 | 3 | _ + 4 => rfl
  | 1 | 2 => exact apply_ite (Option.getD · t) ..

/-! ## Folds of values (Table 8.4) -/

/-- A further value takes one step from the fold of the values before it. -/
theorem foldValues_append (ty op : Nat) (sat : Bool) (l : List Nat) (x y : Nat) :
    foldValues ty op sat (l ++ [x, y]) =
      let p := foldValues ty op sat (l ++ [x])
      let q := foldStep ty op sat p.1 y
      (q.1, p.2 ||| q.2) := by
  cases l with
  | nil => rfl
  | cons z l => simp only [List.cons_append, foldValues, List.foldl_append, List.foldl_cons, List.foldl_nil]

section
variable {ty : Nat} {f : Fmt} (hf : fmtOf ty = some f)
include hf

theorem foldStep_float (sat : Bool) (a x : Nat) :
    foldStep ty 0 sat a x = fAdd f {} a x ∧ foldStep ty 1 sat a x = fMinMax f false false a x ∧
      foldStep ty 2 sat a x = fMinMax f false true a x := by
  simp only [foldStep, hf, and_self]

/-- Nothing sums to 0, and the extremes of nothing are the infinities. -/
theorem foldEmpty_float :
    foldEmpty ty 0 = 0 ∧ foldEmpty ty 1 = f.infinity false ∧ foldEmpty ty 2 = f.infinity true := by
  simp only [foldEmpty, hf]
  exact ⟨rfl, rfl, rfl⟩

end

/-- res() of an integer of at most 64 bits as a number. -/
theorem narrow_eq_toNat_resBits (sat sg : Bool) {n : Nat} (h : n ≤ 64) (v : Int) :
    narrow sat sg n v = (resBits sat sg n v).toNat := by
  rw [narrow_eq_toNat, resBits, BitVec.toNat_setWidth_of_le h]

section
variable {ty : Nat} {sg : Bool} {n : Nat} (hf : fmtOf ty = none) (hi : intOf ty = some (sg, n))
include hf hi

/-- Integers: a sum by res(), an extreme, or a bitwise operation. -/
theorem foldStep_int (sat : Bool) (a x : Nat) :
    let val (v : Nat) : Int := intOfBits sg n (BitVec.ofNat 64 v)
    let res (b : Bool) (v : Int) : Nat := (resBits b sg n v).toNat
    foldStep ty 0 sat a x = (res sat (val a + val x), 0) ∧ foldStep ty 1 sat a x = (res false (min (val a) (val x)), 0) ∧
      foldStep ty 2 sat a x = (res false (max (val a) (val x)), 0) ∧ foldStep ty 3 sat a x = (a &&& x, 0) ∧
      foldStep ty 4 sat a x = (a ||| x, 0) ∧ foldStep ty 5 sat a x = (a ^^^ x, 0) := by
  have hn := (intOf_width hi).2
  have hwrap (v : Int) : wrapInt n v = (resBits false sg n v).toNat := narrow_eq_toNat_resBits false sg hn v
  simp only [foldStep, hf, hi, Option.getD_some, narrow_eq_toNat_resBits _ sg hn, hwrap,
    toInt_eq_intOfBits_ofNat sg hn, min_def, max_def' (α := Int), ge_iff_le, and_self]

/-- Nothing sums to 0, the extremes of nothing are the ends of the type's range, and all bits hold in nothing. -/
theorem foldEmpty_int :
    let val (v : Nat) : Int := intOfBits sg n (BitVec.ofNat 64 v)
    foldEmpty ty 0 = 0 ∧ val (foldEmpty ty 1) = (rangeOf sg n).2 ∧ val (foldEmpty ty 2) = (rangeOf sg n).1 ∧
      foldEmpty ty 3 = 2 ^ n - 1 ∧ foldEmpty ty 4 = 0 ∧ foldEmpty ty 5 = 0 := by
  obtain ⟨hpos, hn⟩ := intOf_width hi
  obtain ⟨hlo, hhi⟩ := zero_mem_rangeOf sg n
  have hrange := hlo.trans hhi
  simp only [foldEmpty, hf, hi, Option.getD_some, ← toInt_eq_intOfBits_ofNat sg hn,
    toInt_wrapInt_of_mem hpos hrange le_rfl, toInt_wrapInt_of_mem hpos le_rfl hrange, and_self]

end

/-! ## Instructions -/

/-- The result of a fold over a 64-bit type has variable latency (Table 8.2). -/
theorem State.apply_foldDone (s : State) (c : Ctx) (ty : Nat) (ws : List RegWrite) (fl : Flags) :
    s.apply c (foldDone ty s ws fl) = s.finishIssue c
      (if wideType ty then { s, later := some ws, flags := fl }
       else { s, fixed := ws, lat := if ty = 10 then 8 else 4, flags := fl }) := by
  unfold foldDone
  split <;> simp only [State.apply, State.moves, List.any_nil, Bool.false_eq_true, if_false]

/-- Settles O13: exchanges by the threads that they name, folds by their steps and by what they leave. -/
theorem threadsExchangeAndFold : Obligations.ThreadsExchangeAndFold := by
  unfold Obligations.ThreadsExchangeAndFold
  refine ⟨fun w => ⟨?gswz, ?rdth, ?_⟩, fun w i hi s c h => ?group, fun ty op sat => ⟨fun x => rfl, ?more, ?float, ?int⟩⟩
  case gswz =>
    refine completes_of_done (fun _ => rfl) rfl fun c s _ _ => ⟨?_, rfl⟩
    simp only [gswzBody, gswzFrom, gswzSource_getD] <;> rfl
  case rdth =>
    refine completes_of_done (fun _ => rfl) rfl fun c s _ _ => ⟨?_, rfl⟩
    simp only [rdthBody, Ctx.groupResult_eq, namedThread]
  case group =>
    rcases hi with rfl | rfl
    · rw [exec_clear (body := gredBody) h rfl rfl, gredBody, State.apply_foldDone, Ctx.groupResult_eq]
    · rw [exec_clear (body := gscanBody) h rfl rfl, gscanBody, State.apply_foldDone]
  case more => exact foldValues_append ty op sat
  case float =>
    intro f a x hf
    obtain ⟨hadd, hmin, hmax⟩ := foldStep_float hf sat a x
    obtain ⟨hsum, hleast, hgreatest⟩ := foldEmpty_float hf
    simp only [foldValues, hadd, hmin, hmax, hsum, hleast, hgreatest, and_self]
  case int =>
    intro sg n a x hf hi _ _
    obtain ⟨hadd, hmin, hmax, hand, hor, hxor⟩ := foldStep_int hf hi sat a x
    exact ⟨hadd, hmin, hmax, hand, hor, hxor, foldEmpty_int hf hi⟩
  exact completes_of_done (fun _ => rfl) rfl fun _ _ _ _ => ⟨rfl, rfl⟩

end Sys2Proof.Machine
end

section
/-!
The completion of a copy (O45) fails in one place: of the other requests of its team none may be writing a scratchpad line,
but one that stands in the queue under the completing request's own number is let through. Its line is then pending, and
the completion add to a counter of that line first completes that request's writes (R163, `State.settleLines`): they change
the counter before the add. The package below holds two such requests; the second writes 5 over the counter of the first.
-/
namespace Sys2Proof.Machine

/-- A copy that has been released and has nothing left but its completion add of 1 at scratchpad offset 0x40. -/
def endingCopy : CopyReq :=
  { idx := 0, team := { seq := 1, idx := 0 }, origin := .entry 0
    cmd := { op := 0xE0, f := 0, m := 0, scope := 0, w0 := 0, w1 := 0, w2 := 0, rel := 0, comp := 0, relInc := 0, compInc := 1 }
    relLoc := none, compLoc := some (.inr 0x40), promise := 0, mark := 0, released := true }

/-- A request under the same number, which has still to write 5 over the counter. -/
def rivalCopy : CopyReq := { endingCopy with pieces := [{ place := .scratch 0x40, bytes := bytesLE 5 8 }] }

/-- A team of one fibre on core 0. -/
def rivalTeam : Team := { ref := { seq := 1, idx := 0 }, core := 0, groups := [loneGroup] }

/-- A package whose core 0 has both requests in its queue. -/
def rivalPackage : State :=
  { State.reset with
    teams := [rivalTeam]
    cores := [(0, { reqs := [endingCopy, rivalCopy] })]
    columns := [(0, { queue := [fetchLaunch 1] })] }

theorem calm_rivalTeam : rivalTeam.calm := by
  refine ⟨rfl, rfl, ⟨loneGroup, List.mem_singleton.2 rfl, rfl⟩, fun g hg f hf u hu => ?_⟩
  obtain rfl := List.mem_singleton.1 hg
  obtain rfl := List.mem_singleton.1 hf
  nomatch hu

/-- The completion add finds the 5 of the other request, where the team's scratchpad holds 0. -/
theorem counter_rivalPackage {u : State} (h : exec (.copyCompletion 0 0) rivalPackage = .next u) :
    (u.team? endingCopy.team).map (fun t => numAt t.scratch 0x40 8) = some 6 := by
  obtain rfl := Host.Outcome.next.inj h
  decide +kernel

/-- Every other request of the team stands under the number of the completing one. -/
theorem rivalPackage_reqs : ∀ x ∈ rivalPackage.cores, ∀ y ∈ x.2.reqs, x.1 = 0 ∧ y.idx = 0 := by decide

/-- Refutes O45: a request with the number of the completing one writes over its counter before the add. -/
theorem not_enginesAndBuffersStepInOrder : ¬ Obligations.EnginesAndBuffersStepInOrder := by
  unfold Obligations.EnginesAndBuffersStepInOrder
  rintro ⟨-, h, -⟩
  obtain ⟨-, -, -, hcompletion, -⟩ := h rivalPackage 0 0 endingCopy rivalTeam (by decide +kernel) rfl
  obtain ⟨u, t', hexec, hteam, -, -, -, hcounter, -⟩ := hcompletion calm_rivalTeam (by decide) rfl rfl
    ⟨by decide, nofun⟩ nofun ⟨rfl, rfl, trivial⟩
    (fun x hx y hy _ => .inl (rivalPackage_reqs x hx y hy)) (fun o ho => ⟨by cases ho; decide, nofun⟩)
  have hsix := counter_rivalPackage hexec
  rw [hteam, Option.map_some, hcounter 0x40 rfl] at hsix
  exact absurd hsix (by decide)

end Sys2Proof.Machine
end

section
/-!
Stores (R213, R215, R216): what the body of ST, STS and STU does once its checks have passed, and which marks the sectors
lose that its threads cover together: O22.
-/
namespace Sys2Proof.Machine

/-! ## The outcome of a body -/

/-- A body whose split waits for acknowledgements. -/
theorem exec_of_unacked {i : Instr} {op : Nat} {w : Fields} {body : Ctx → State → Effect} {s : State} {c : Ctx} {u : State}
    {l : List Nat} (he : ∀ s, exec i s = s.issue op w body) (ho : opFields i = some (op, w)) (h : s.clear i = some c)
    (hb : body c (s.begun c) = .unacked u l) : exec i s = .next (u.awaitAcks c l) := by
  rw [exec_clear h (he s) ho, hb]
  rfl

/-- A body that ends, with no remote request that would have to move to another port. -/
theorem exec_of_done {i : Instr} {op : Nat} {w : Fields} {body : Ctx → State → Effect} {s : State} {c : Ctx} {d : Done}
    (he : ∀ s, exec i s = s.issue op w body) (ho : opFields i = some (op, w)) (h : s.clear i = some c)
    (hb : body c (s.begun c) = .done d) (hm : (s.begun c).moves d.remote = false) :
    exec i s = .next ((s.begun c).finishIssue c d) := by
  rw [exec_clear h (he s) ho, hb, State.apply, hm]
  rfl

/-! ## Releases and STRONG pages -/

theorem State.releaseFor_own (s : State) (c : Ctx) (scope : Nat) :
    s.releaseFor c false scope = if drains c.k.pair scope then s.drainHome c.core else s := rfl

theorem State.releaseWaits_own (s : State) (c : Ctx) (scope : Nat) :
    s.releaseWaits c false scope = (drains c.k.pair scope && !s.acked c.core) := by
  simp [State.releaseWaits, State.unreleased]

/-! ## The body of a store -/

/-- A store without participants does nothing. -/
theorem storeBody_of_no_requests {c : Ctx} {s : State} {scratch : Bool} (h : requests s c scratch = []) :
    storeBody scratch c s = .done { s } := by
  simp [storeBody, h, noEffect]

/-- The release of a store whose word asks for one and whose scope reaches other cores (R196). -/
def State.storeRelease (s : State) (c : Ctx) : State :=
  if ordOf c.w = 2 ∧ drains c.k.pair (scopeOf c.w) = true then s.drainHome c.core else s

/-- The accesses of a store in thread order, from a state, with the data as the instruction's start has them. -/
def State.performStores (s : State) (c : Ctx) (s0 : State) (r : Located) : State :=
  (r.foldl (fun u q => u.storeSpans c q.2 (storeDatum s0 c q.1.t)) (if anyRemote r then s.makeUnsafe c.r.team else s)).clearMarks
    c.core (coveredSectors r)

/-- Once its checks have passed, a store releases, waits for earlier stores, performs its accesses, and at a STRONG page
waits for its own (R171, R191, R196, R213). -/
theorem storeBody_of_mayStore {c : Ctx} {s : State} {scratch : Bool} {r : Located} (h : s.mayStore c scratch r) :
    storeBody scratch c s =
      let s1 := (s.storeRelease c).strongFirst c r
      let u := s1.performStores c s r
      if (ordOf c.w = 2 ∧ drains c.k.pair (scopeOf c.w) = true ∨ anyStrong r = true) ∧ s1.acked c.core = false then
        .unacked s1 [c.core]
      else if anyStrong r = true ∧ u.acked c.core = false then
        .done { s := u, parks := true, flow := some (c.suspendFlow .parked fun y => { y with park := .acks [c.core] }) }
      else .done { s := u } := by
  obtain ⟨hreq, hscope, hcheck⟩ := h
  have hempty : (requests s c scratch).isEmpty = false := by simpa using hreq
  have hmissing : (decide (ordOf c.w = 2) && s.scopeMissing (scopeOf c.w)) = false := by simpa using hscope
  have hrel : (if ordOf c.w = 2 then s.releaseFor c false (scopeOf c.w) else s) = s.storeRelease c := by
    rw [State.releaseFor_own, State.storeRelease]
    by_cases ho : ordOf c.w = 2 <;> simp [ho]
  simp only [storeBody, hempty, hmissing, hcheck, State.releaseWaits_own, decide_eq_true_eq, hrel, Bool.false_eq_true,
    if_false, Bool.or_eq_true, Bool.and_eq_true, Bool.not_eq_true', ← and_assoc, ← or_and_right]
  rfl

/-- The three stores share their body. -/
theorem exec_store {w : Fields} {x : Instr × Bool}
    (hx : x ∈ [(Instr.st w, false), (.sts w, true), (.stu w, false)]) :
    ∃ op, opFields x.1 = some (op, w) ∧ ∀ s, exec x.1 s = s.issue op w (storeBody x.2) := by
  simp only [List.mem_cons, List.not_mem_nil, or_false] at hx
  rcases hx with rfl | rfl | rfl
  · exact ⟨0xB1, rfl, fun _ => rfl⟩
  · exact ⟨0xB3, rfl, fun _ => rfl⟩
  · exact ⟨0xB5, rfl, fun _ => rfl⟩

/-! ## Sectors covered together -/

theorem mem_sectorsOf {a n k : Nat} : k ∈ sectorsOf a n ↔ 0 < n ∧ a / 32 ≤ k ∧ k ≤ (a + n - 1) / 32 := by
  unfold sectorsOf
  split
  · simp; omega
  · simp only [List.mem_map, List.mem_range]
    exact ⟨by rintro ⟨i, hi, rfl⟩; omega, fun h => ⟨k - a / 32, by omega, by omega⟩⟩

/-- The runs of a store that lie on local pages whose lines it accesses for all its threads together (R209). -/
def coveredRuns (l : Located) : List (Nat × Nat) :=
  l.flatMap fun x => x.2.filterMap fun p => match p.home with
    | .mem _ q => if p.ordered || q.combines then none else some (q.loc, p.len)
    | .scratch _ => none

theorem Span.ordered_of_mem {p : Span} {va : Nat} {q : Phys} (h : p.home = .mem va q) :
    p.ordered = (q.type == .device || q.type == .strong) := by
  rw [Span.ordered, h]

theorem mem_coveredRuns {l : Located} {r : Nat × Nat} : r ∈ coveredRuns l ↔
    ∃ x ∈ l, ∃ p ∈ x.2, ∃ va q, p.home = .mem va q ∧ q.type ≠ .device ∧ q.type ≠ .strong ∧ q.combines = false ∧
      r = (q.loc, p.len) := by
  simp only [coveredRuns, List.mem_flatMap, List.mem_filterMap]
  refine exists_congr fun x => and_congr_right fun _ => exists_congr fun p => and_congr_right fun _ => ?_
  cases hp : p.home with
  | scratch o => simp
  | mem va q => simp [Span.ordered_of_mem hp, eq_comm (a := r), and_assoc]

theorem coveredSectors_eq (l : Located) : coveredSectors l =
    (((coveredRuns l).flatMap fun x => sectorsOf x.1 x.2).eraseDups).filter fun k =>
      (List.range 32).all fun i => (coveredRuns l).any fun x => x.1 ≤ 32 * k + i && 32 * k + i < x.1 + x.2 := rfl

/-- A sector is covered where each of its bytes lies in some run. -/
theorem mem_coveredSectors {l : Located} {k : Nat} : k ∈ coveredSectors l ↔
    ∀ i < 32, ∃ x ∈ coveredRuns l, x.1 ≤ 32 * k + i ∧ 32 * k + i < x.1 + x.2 := by
  simp only [coveredSectors_eq, List.mem_filter, List.mem_eraseDups, List.mem_flatMap, List.all_eq_true, List.mem_range,
    List.any_eq_true, Bool.and_eq_true, decide_eq_true_eq, and_iff_right_iff_imp]
  intro h
  obtain ⟨x, hx, hlo, hhi⟩ := h 0 (by omega)
  exact ⟨x, hx, mem_sectorsOf.2 (by omega)⟩

theorem State.clearMarks_mem (s : State) (core : Nat) (xs : List Nat) : (s.clearMarks core xs).mem = s.mem := rfl

theorem State.clearMarks_teams (s : State) (core : Nat) (xs : List Nat) : (s.clearMarks core xs).teams = s.teams := rfl

theorem State.mem_clearMarks_poison {s : State} {core : Nat} {xs : List Nat} {k : Nat} :
    k ∈ (s.clearMarks core xs).poison ↔ k ∈ s.poison ∧ k ∉ xs := by
  change k ∈ s.poison.filter (fun x => !xs.contains x) ↔ _
  simp

/-- Settles O22: the outcome of the body once its checks have passed, and the sectors of which some run covers each byte. -/
theorem storesPerformInThreadOrder : Obligations.StoresPerformInThreadOrder := by
  unfold Obligations.StoresPerformInThreadOrder
  refine ⟨fun w x hx => ?body, fun s core l => ⟨rfl, rfl, fun k => State.mem_clearMarks_poison, fun k => ?covered⟩⟩
  case body =>
    obtain ⟨op, ho, he⟩ := exec_store hx
    refine ⟨completesIf_of_done he ho fun c s _ _ h => ⟨storeBody_of_no_requests h, rfl⟩, fun s c r h hr => ?_⟩
    have hbody := storeBody_of_mayStore hr
    refine ⟨fun hwaits => ?waits, fun hgo hdone => ?done, fun hgo hstrong hacked => ?parks⟩
    case waits => exact exec_of_unacked he ho h (hbody.trans (if_pos hwaits))
    case done =>
      refine exec_of_done he ho h (hbody.trans ((if_neg hgo).trans (if_neg fun hs => ?_))) rfl
      rcases hdone with hweak | hacked
      · exact Bool.false_ne_true (hweak.symm.trans hs.1)
      · exact Bool.false_ne_true (hs.2.symm.trans hacked)
    case parks => exact exec_of_done he ho h (hbody.trans ((if_neg hgo).trans (if_pos ⟨hstrong, hacked⟩))) rfl
  case covered =>
    rw [mem_coveredSectors]
    refine forall₂_congr fun i _ => ?_
    simp only [mem_coveredRuns]
    constructor
    · rintro ⟨_, ⟨x, hx, p, hp, va, q, hq, hdev, hstrong, hcomb, rfl⟩, hlo, hhi⟩
      exact ⟨x, hx, p, hp, va, q, hq, hdev, hstrong, hcomb, hlo, hhi⟩
    · rintro ⟨x, hx, p, hp, va, q, hq, hdev, hstrong, hcomb, hlo, hhi⟩
      exact ⟨_, ⟨x, hx, p, hp, va, q, hq, hdev, hstrong, hcomb, rfl⟩, hlo, hhi⟩

end Sys2Proof.Machine
end

section
/-!
What accesses leave as it was: the use of a translation (R172, R173), which changes TLBs, slices and the accessed and dirty
bits of the leaf; an access to a scratchpad of which no line is pending (R161, R163); a core's buffer that holds nothing
(R196).
-/
namespace Sys2Proof.Machine

/-! ## The use of a translation -/

/-- A property that each of its parts keeps, the use of a translation keeps: the slices read, the leaf's word written, the
TLBs filled. -/
theorem State.touch_pred {P : State → Prop} (hslice : ∀ s a n w, P s → P (s.throughSlice a n w))
    (hwrite : ∀ s a v, P s → P (s.writeNum a 8 v))
    (hcore : ∀ s k (l : List TlbEntry → List TlbEntry), P s → P (s.modCore k fun x => { x with tlb := l x.tlb }))
    (hcol : ∀ s c (l : List TlbEntry → List TlbEntry), P s → P (s.modCol c fun x => { x with tlb := l x.tlb })) {s : State}
    (hs : P s) (w : Space) (use : Use) (va : Nat) : P (s.touch w use va) := by
  unfold State.touch
  split
  · exact hs
  · rename_i l _
    have hpath : P (s.keepPath w va) := foldl_pred (fun s x hs => hcol _ _ (tlbPut 4096 _) (hslice s _ _ _ hs)) _ _ hs
    have hread : P (if (s.tlbFind w va).isSome then s else (s.keepPath w va).throughSlice l.loc 8 false) :=
      iteInduction (fun _ => hs) fun _ => hslice _ _ _ _ hpath
    exact hcol _ _ (tlbPut 4096 _) (hcore _ _ (tlbPut 128 _) (iteInduction (fun _ => hwrite _ _ _ hread) fun _ => hread))

/-- The same for a part of the package that each of them keeps. -/
theorem State.touch_keeps {β : Type} (g : State → β) (hslice : ∀ s a n w, g (s.throughSlice a n w) = g s)
    (hwrite : ∀ s a v, g (s.writeNum a 8 v) = g s)
    (hcore : ∀ s k (l : List TlbEntry → List TlbEntry), g (s.modCore k fun x => { x with tlb := l x.tlb }) = g s)
    (hcol : ∀ s c (l : List TlbEntry → List TlbEntry), g (s.modCol c fun x => { x with tlb := l x.tlb }) = g s)
    (s : State) (w : Space) (use : Use) (va : Nat) :
    g (s.touch w use va) = g s :=
  State.touch_pred (P := fun u => g u = g s) (fun u a n x h => (hslice u a n x).trans h) (fun u a v h => (hwrite u a v).trans h)
    (fun u k l h => (hcore u k l).trans h) (fun u c l h => (hcol u c l).trans h) rfl w use va

theorem State.throughSlice_core (s : State) (a n : Nat) (w : Bool) : (s.throughSlice a n w).core = s.core := by
  have h := congrArg (·.cores) (s.throughSlice_besideMemory a n w)
  funext k
  exact congrArg (fun l => look {} l k) h

theorem State.writeLoc_core (s : State) (a : Nat) (bs : List Byte) : (s.writeLoc a bs).core = s.core := by
  funext k
  exact congrArg (fun l => look {} l k) (s.writeLoc_cores a bs)

/-- Of a core the use of a translation changes the TLB alone. -/
theorem State.core_touch {β : Type} (g : Core → β) (hg : ∀ x l, g { x with tlb := l } = g x) (s : State) (w : Space)
    (use : Use) (va k : Nat) : g ((s.touch w use va).core k) = g (s.core k) := by
  refine State.touch_keeps (fun s => g (s.core k)) (fun s a n w => ?_) (fun s a v => ?_) (fun s j l => ?_) (fun _ _ _ => rfl)
    s w use va
  · rw [State.throughSlice_core]
  · rw [State.writeNum, State.writeLoc_core]
  · rw [State.core_modCore]
    split
    · subst_vars
      exact hg _ _
    · rfl

@[simp] theorem State.touch_wcb (s : State) (w : Space) (use : Use) (va k : Nat) :
    ((s.touch w use va).core k).wcb = (s.core k).wcb := State.core_touch (·.wcb) (fun _ _ => rfl) s w use va k

@[simp] theorem State.touch_flight (s : State) (w : Space) (use : Use) (va k : Nat) :
    ((s.touch w use va).core k).flight = (s.core k).flight := State.core_touch (·.flight) (fun _ _ => rfl) s w use va k

@[simp] theorem State.touch_l1 (s : State) (w : Space) (use : Use) (va k : Nat) :
    ((s.touch w use va).core k).l1 = (s.core k).l1 := State.core_touch (·.l1) (fun _ _ => rfl) s w use va k

@[simp] theorem State.touch_teams (s : State) (w : Space) (use : Use) (va : Nat) : (s.touch w use va).teams = s.teams :=
  State.touch_keeps (·.teams) State.throughSlice_teams (fun s a _ => s.writeLoc_teams a _) (fun _ _ _ => rfl) (fun _ _ _ => rfl)
    s w use va

/-! ## A buffer that holds nothing -/

/-- Nothing of a core's stores is buffered or on its way. -/
def State.quiet (s : State) (core : Nat) : Prop := (s.core core).wcb = [] ∧ (s.core core).flight = []

theorem State.quiet_touch {s : State} {core : Nat} (h : s.quiet core) (w : Space) (use : Use) (va : Nat) :
    (s.touch w use va).quiet core :=
  ⟨(s.touch_wcb w use va core).trans h.1, (s.touch_flight w use va core).trans h.2⟩

/-- A change of a core that leaves its buffer alone. -/
theorem State.quiet_modCore {s : State} {core : Nat} (h : s.quiet core) (k : Nat) {f : Core → Core}
    (hw : ∀ x, (f x).wcb = x.wcb) (hf : ∀ x, (f x).flight = x.flight) : (s.modCore k f).quiet core := by
  unfold State.quiet
  rw [State.core_modCore]
  split
  · subst_vars
    exact ⟨(hw _).trans h.1, (hf _).trans h.2⟩
  · exact h

theorem State.drainAt_of_quiet {s : State} {core : Nat} (h : s.quiet core) (loc : Nat) : s.drainAt core loc = s := by
  simp [State.drainAt, h.1, h.2]

theorem State.overlay_of_quiet {s : State} {core : Nat} (h : s.quiet core) (loc : Nat) (bs : List Byte) :
    s.overlay core loc bs = bs := by
  simp [State.overlay, h.1, h.2]

/-! ## A scratchpad without pending lines -/

theorem State.settleLines_of_none_pending {s : State} {r : TeamRef} {t : Team} (h : s.team? r = some t)
    (hp : t.pendingLines = []) (o n : Nat) : s.settleLines r o n = s := by
  have hline (l : Nat) : s.settleLine r l = s := by simp [State.settleLine, h, hp]
  unfold State.settleLines
  induction linesOf o n with
  | nil => rfl
  | cons l ls ih => rw [List.foldl_cons, hline, ih]

theorem State.scratchRead_of_team {s : State} {r : TeamRef} {t : Team} (h : s.team? r = some t) (o n : Nat) :
    s.scratchRead r o n = (List.range n).map fun i => if 0x10 ≤ o + i ∧ o + i < 0x40 then 0 else byteAt t.scratch (o + i) := by
  rw [State.scratchRead, h]

/-- A store whose bytes all lie at 0x10 to 0x3F changes nothing (R161). -/
theorem State.scratchStore_of_hidden {s : State} {r : TeamRef} {t : Team} (h : s.team? r = some t) (hp : t.pendingLines = [])
    {o : Nat} {bs : List Byte} (hlo : 0x10 ≤ o) (hhi : o + bs.length ≤ 0x40) : s.scratchStore r o bs = s := by
  have hlow : bs.take (0x10 - o) = [] := by rw [show 0x10 - o = 0 by omega, List.take_zero]
  have hhigh : bs.drop (0x40 - o) = [] := List.drop_eq_nil_of_le (by omega)
  simp [State.scratchStore, State.settleLines_of_none_pending h hp, hlow, hhigh]

/-- A write of scratchpad that is skipped where there are no bytes. -/
theorem State.team?_writeScratch_unless_empty {s : State} {r : TeamRef} {t : Team} (h : s.team? r = some t) (o : Nat)
    (bs : List Byte) : ∃ u, (if bs.isEmpty then s else s.writeScratch r o bs).team? r = some u ∧
      ∀ x, byteAt u.scratch x = if o ≤ x ∧ x < o + bs.length then bs.getD (x - o) 0 else byteAt t.scratch x := by
  split
  · rename_i hb
    obtain rfl := List.isEmpty_iff.1 hb
    exact ⟨t, h, fun x => (if_neg (by simp)).symm⟩
  · obtain ⟨iv, m, hu⟩ := State.team?_writeScratch h o bs false
    exact ⟨_, hu, fun x => byteAt_putAll t.scratch o x bs⟩

/-- The bytes of a store to scratchpad, but for those at 0x10 to 0x3F (R161). -/
theorem State.team?_scratchStore {s : State} {r : TeamRef} {t : Team} (h : s.team? r = some t) (hp : t.pendingLines = [])
    (o : Nat) (bs : List Byte) : ∃ u, (s.scratchStore r o bs).team? r = some u ∧ ∀ x, byteAt u.scratch x =
      if o ≤ x ∧ x < o + bs.length ∧ ¬(0x10 ≤ x ∧ x < 0x40) then bs.getD (x - o) 0 else byteAt t.scratch x := by
  obtain ⟨u, hu, hlow⟩ := State.team?_writeScratch_unless_empty h o (bs.take (0x10 - o))
  obtain ⟨v, hv, hhigh⟩ := State.team?_writeScratch_unless_empty hu (max o 0x40) (bs.drop (0x40 - o))
  refine ⟨v, by simpa only [State.scratchStore, State.settleLines_of_none_pending h hp] using hv, fun x => ?_⟩
  rw [hhigh, hlow, List.length_drop, List.length_take, List.getD_eq_getElem?_getD,
    List.getElem?_drop, List.getD_eq_getElem?_getD, List.getElem?_take, List.getD_eq_getElem?_getD]
  by_cases hin : o ≤ x ∧ x < o + bs.length ∧ ¬(0x10 ≤ x ∧ x < 0x40)
  · rw [if_pos hin]
    by_cases hx : x < 0x40
    · rw [if_neg (by omega), if_pos (by omega), if_pos (by omega)]
    · rw [if_pos (by omega), show 0x40 - o + (x - max o 0x40) = x - o by omega]
  · rw [if_neg hin, if_neg (by omega), if_neg (by omega)]

end Sys2Proof.Machine
end

section
/-!
Atomics (R217 to R219): what their body does once its checks have passed, the values of Table 11.9, and what one of them
reads and leaves at its home: O23.
-/
namespace Sys2Proof.Machine

/-! ## The body of an atomic -/

/-- The seven atomics share their body. -/
theorem exec_atomic {w : Fields} {i : Instr}
    (hi : i ∈ [Instr.aadd w, .amin w, .amax w, .alog w, .axchg w, .acas w, .afadd w]) :
    ∃ op, opFields i = some (op, w) ∧ ∀ s, exec i s = s.issue op w atomicBody := by
  simp only [List.mem_cons, List.not_mem_nil, or_false] at hi
  rcases hi with rfl | rfl | rfl | rfl | rfl | rfl | rfl
  · exact ⟨0xB6, rfl, fun _ => rfl⟩
  · exact ⟨0xB7, rfl, fun _ => rfl⟩
  · exact ⟨0xB8, rfl, fun _ => rfl⟩
  · exact ⟨0xB9, rfl, fun _ => rfl⟩
  · exact ⟨0xBA, rfl, fun _ => rfl⟩
  · exact ⟨0xBB, rfl, fun _ => rfl⟩
  · exact ⟨0xBC, rfl, fun _ => rfl⟩

/-- An atomic without participants does nothing. -/
theorem atomicBody_of_no_steps {c : Ctx} {s : State} (h : c.steps = []) : atomicBody c s = .done { s } := by
  simp [atomicBody, h, noEffect]

/-- An ACAS writes where the old value of some participant is the compare value; every other atomic writes. -/
theorem atomicWrites_eq (c : Ctx) (s : State) (r : Located) : atomicWrites c s r =
    (c.op != 0xBB || (s.atomics c s r).1.any fun x => x.2.toNat == (srcC s c (atomicWide c.w) x.1).toNat) := by
  by_cases hop : c.op = 0xBB
  · have hsome (m b k : Nat) : (atomicNew c.op c.w m b k).isSome = (m == k) := by
      rw [hop, atomicNew]
      by_cases h : m = k <;> simp [h]
    simp only [atomicWrites, hsome]
  · have hne : (c.op != 0xBB) = true := bne_iff_ne.2 hop
    simp only [atomicWrites, hne, Bool.true_or]

/-- An atomic is a release that orders the core's earlier stores (R196, R218). -/
def State.atomicReleases (s : State) (c : Ctx) (r : Located) : Bool :=
  c.w.f.getLsbD 3 && atomicWrites c s r && (anyRemote r || drains c.k.pair (scopeOf c.w))

/-- The state in which an atomic is performed, but for the mark of an unsafe interval. -/
def State.atomicRelease (s : State) (c : Ctx) (r : Located) : State :=
  if s.atomicReleases c r then s.drainHome c.core else s

/-- The same with the mark, where the atomic's scope or home reaches beyond the column (R371). -/
def State.atomicReady (s : State) (c : Ctx) (r : Located) : State :=
  if 2 < scopeOf c.w ∨ anyRemote r = true then (s.atomicRelease c r).makeUnsafe c.r.team else s.atomicRelease c r

theorem State.releaseFor_atomic (s : State) (c : Ctx) (r : Located) :
    (if c.w.f.getLsbD 3 = true ∧ atomicWrites c s r = true then s.releaseFor c (anyRemote r) (scopeOf c.w) else s) =
      s.atomicRelease c r := by
  simp only [State.atomicRelease, State.atomicReleases, State.releaseFor, State.release, Bool.and_eq_true, Bool.or_eq_true]
  by_cases hrel : c.w.f.getLsbD 3 = true ∧ atomicWrites c s r = true
  · cases anyRemote r <;> simp [hrel]
  · simp only [hrel, if_false, false_and]

theorem State.releaseWaits_atomic (s t : State) (c : Ctx) (r : Located) :
    (c.w.f.getLsbD 3 && atomicWrites c s r && t.releaseWaits c (anyRemote r) (scopeOf c.w)) =
      (s.atomicReleases c r && !t.acked c.core) := by
  simp only [State.atomicReleases, State.releaseWaits, State.unreleased, ← Bool.and_or_distrib_right, Bool.and_assoc]

/-- Once its checks have passed, an atomic releases, and is performed for each participant in order (R218). -/
theorem atomicBody_of_mayModify {c : Ctx} {s : State} {r : Located} (h : s.mayModify c r) :
    atomicBody c s =
      if s.atomicReleases c r = true ∧ (s.atomicRelease c r).acked c.core = false then
        .unacked (s.atomicRelease c r) [c.core]
      else
        let out := (s.atomicReady c r).atomics c s r
        .done { s := if c.w.f.getLsbD 2 then out.2.acquire c.core (scopeOf c.w) else out.2
                later := some (c.results (atomicWide c.w) (atomicExtends c.op c.w) fun t => look 0 out.1 t)
                remote := remotePlaces r true } := by
  obtain ⟨hsteps, hscope, hcheck, hclean, -⟩ := h
  have hempty : (c.steps.map fun t => Req.generic t (srcA s c true t)).isEmpty = false := by simpa using hsteps
  simp only [atomicBody, hempty, hscope, hcheck, hclean, State.releaseFor_atomic, State.releaseWaits_atomic,
    Bool.false_eq_true, if_false, Bool.or_eq_true, Bool.and_eq_true, Bool.not_eq_true', decide_eq_true_eq]
  rfl

/-! ## The values that atomics leave (Table 11.9) -/

theorem atomicBytes_cases (w : Fields) : atomicBytes w = 4 ∨ atomicBytes w = 8 := by
  unfold atomicBytes
  cases atomicWide w
  · exact .inl rfl
  · exact .inr rfl

theorem atomicBytes_le (w : Fields) : 8 * atomicBytes w ≤ 64 := by
  rcases atomicBytes_cases w with h | h <;> omega

/-- The smaller of two values by one reading of the words. -/
theorem min_of_le {val : Nat → Int} (m b : Nat) :
    ((if val m ≤ val b then m else b) = m ∨ (if val m ≤ val b then m else b) = b) ∧
      val (if val m ≤ val b then m else b) = min (val m) (val b) := by
  split <;> simp_all [Int.le_of_lt]

/-- The greater of two values by one reading of the words. -/
theorem max_of_le {val : Nat → Int} (m b : Nat) :
    ((if val b ≤ val m then m else b) = m ∨ (if val b ≤ val m then m else b) = b) ∧
      val (if val b ≤ val m then m else b) = max (val m) (val b) := by
  split <;> simp_all [Int.le_of_lt]

theorem atomicNew_amin (w : Fields) (m b k : Nat) :
    let val (x : Nat) : Int := intOfBits (!w.f.getLsbD 0) (8 * atomicBytes w) (BitVec.ofNat 64 x)
    atomicNew 0xB7 w m b k = some (if val m ≤ val b then m else b) := by
  simp only [← toInt_eq_intOfBits_ofNat _ (atomicBytes_le w)]
  rfl

theorem atomicNew_amax (w : Fields) (m b k : Nat) :
    let val (x : Nat) : Int := intOfBits (!w.f.getLsbD 0) (8 * atomicBytes w) (BitVec.ofNat 64 x)
    atomicNew 0xB8 w m b k = some (if val b ≤ val m then m else b) := by
  simp only [← toInt_eq_intOfBits_ofNat _ (atomicBytes_le w)]
  rfl

/-! ## One atomic at its home -/

theorem natLE_lt (l : List Byte) : natLE l < 2 ^ (8 * l.length) := by
  induction l with
  | nil => exact Nat.one_pos
  | cons b l ih =>
    have hb : b.toNat < 256 := b.isLt
    rw [natLE, List.length_cons, Nat.mul_succ, pow_add]
    omega

theorem natLE_of_zeros {l : List Byte} (h : ∀ b ∈ l, b = 0) : natLE l = 0 := by
  induction l with
  | nil => rfl
  | cons b l ih =>
    rw [natLE, ih fun x hx => h x (List.mem_cons_of_mem b hx), h b List.mem_cons_self]
    rfl

theorem length_lookAll {α : Type} (d : α) (m : Sparse α) (k n : Nat) : (lookAll d m k n).length = n := by
  rw [lookAll_eq, List.length_map, List.length_range]

theorem numAt_lt (m : List Host.Cell) (a n : Nat) : numAt m a n < 2 ^ (8 * n) := by
  simpa only [numAt, length_lookAll] using natLE_lt (lookAll 0 m a n)

/-- The number that stands where the bytes of a list stand. -/
theorem numAt_of_bytes {m : List Host.Cell} {a n : Nat} {bs : List Byte} (hn : bs.length = n)
    (h : ∀ i < n, byteAt m (a + i) = bs.getD i 0) : numAt m a n = natLE bs := by
  have hall : lookAll 0 m a n = bs := by
    rw [lookAll_eq]
    refine List.ext_getElem (by simp [hn]) fun i hi hb => ?_
    have hbyte := h i (hn ▸ hb)
    rw [List.getElem_map, List.getElem_range]
    exact hbyte.trans (List.getElem_eq_getD 0).symm
  rw [numAt, hall]

/-- A number written at a location is read back, as far as its bytes go. -/
theorem State.numAt_writeNum (s : State) (a n v : Nat) : numAt (s.writeNum a n v).mem a n = v % 2 ^ (8 * n) := by
  rw [State.writeNum, State.writeLoc_mem, numAt_putAll, pow_mul 2 8]
  rfl

/-- In memory an atomic reads the old value and leaves the new one. -/
theorem State.atomicAt_mem (s : State) (c : Ctx) (va : Nat) (p : Phys) (b k : Nat) :
    let n := atomicBytes c.w
    let u := s.homeOpen c .rmw (.mem va p) n
    let x := s.atomicAt c (.mem va p) b k
    let old := numAt u.mem p.loc n
    x.1 = old ∧ numAt x.2.mem p.loc n = ((atomicNew c.op c.w old b k).getD old) % 2 ^ (8 * n) := by
  intro n u x old
  have hx : x = match atomicNew c.op c.w old b k with
      | none => (old, u)
      | some v => (old, u.writeNum p.loc n v) := rfl
  cases hv : atomicNew c.op c.w old b k with
  | none =>
    rw [hx, hv]
    exact ⟨rfl, (Nat.mod_eq_of_lt (numAt_lt _ _ _)).symm⟩
  | some v =>
    rw [hx, hv]
    exact ⟨rfl, u.numAt_writeNum p.loc n v⟩

theorem State.homeOpen_mem_of_quiet {s : State} {c : Ctx} (h : s.quiet c.core) (use : Use) (va : Nat) (p : Phys) (n : Nat) :
    (s.homeOpen c use (.mem va p) n).mem = (s.touch c.space use va).mem := by
  have hdrop : ((s.touch c.space use va).l1Drop c.core p.loc).quiet c.core :=
    State.quiet_modCore (State.quiet_touch h _ _ _) _ (fun _ => rfl) fun _ => rfl
  rw [State.homeOpen, State.drainAt_of_quiet hdrop, State.throughSlice_mem]
  rfl

/-- At scratchpad offsets 0x10 to 0x3F an atomic reads 0 and changes nothing (R161). -/
theorem State.atomicAt_scratch_hidden {s : State} {c : Ctx} {t : Team} (h : s.team? c.r.team = some t)
    (hp : t.pendingLines = []) {o : Nat} (hlo : 0x10 ≤ o) (hhi : o + atomicBytes c.w ≤ 0x40) (b k : Nat) :
    s.atomicAt c (.scratch o) b k = (0, s) := by
  have hread : s.homeRead c.r.team (.scratch o) (atomicBytes c.w) = 0 := by
    refine natLE_of_zeros fun x hx => ?_
    rw [State.scratchRead_of_team h, List.mem_map] at hx
    obtain ⟨i, hi, rfl⟩ := hx
    have hi := List.mem_range.1 hi
    exact if_pos (by omega)
  have hwrite (v : Nat) : s.homeWrite c.r.team (.scratch o) (atomicBytes c.w) v = s :=
    State.scratchStore_of_hidden h hp hlo (by rwa [length_bytesLE])
  simp only [State.atomicAt, State.homeOpen, State.settleLines_of_none_pending h hp, hread, hwrite]
  split <;> rfl

/-- Elsewhere in scratchpad an atomic reads the old value and leaves the new one, and nothing else. -/
theorem State.atomicAt_scratch {s : State} {c : Ctx} {t : Team} (h : s.team? c.r.team = some t)
    (hp : t.pendingLines = []) {o : Nat} (ho : o + atomicBytes c.w ≤ 0x10 ∨ 0x40 ≤ o) (b k : Nat) :
    let n := atomicBytes c.w
    let x := s.atomicAt c (.scratch o) b k
    let old := numAt t.scratch o n
    x.1 = old ∧ ∃ u, x.2.team? c.r.team = some u ∧
      numAt u.scratch o n = ((atomicNew c.op c.w old b k).getD old) % 2 ^ (8 * n) ∧
      ∀ a, (a < o ∨ o + n ≤ a) → byteAt u.scratch a = byteAt t.scratch a := by
  intro n x old
  have hread : s.homeRead c.r.team (.scratch o) n = old := by
    have hbytes : s.scratchRead c.r.team o n = lookAll 0 t.scratch o n := by
      rw [State.scratchRead_of_team h, lookAll_eq]
      refine List.map_congr_left fun i hi => if_neg ?_
      have := List.mem_range.1 hi
      omega
    rw [State.homeRead, hbytes]
    rfl
  have hx : x = match atomicNew c.op c.w old b k with
      | none => (old, s)
      | some v => (old, s.scratchStore c.r.team o (bytesLE v n)) := by
    rw [← hread]
    simp only [x, State.atomicAt, State.homeOpen, State.settleLines_of_none_pending h hp]
    rfl
  cases hv : atomicNew c.op c.w old b k with
  | none =>
    rw [hx, hv]
    exact ⟨rfl, t, h, (Nat.mod_eq_of_lt (numAt_lt _ _ _)).symm, fun _ _ => rfl⟩
  | some v =>
    rw [hx, hv]
    obtain ⟨u, hu, hbyte⟩ := State.team?_scratchStore h hp o (bytesLE v n)
    rw [length_bytesLE] at hbyte
    refine ⟨rfl, u, hu, ?_, fun a ha => (hbyte a).trans (if_neg (by omega))⟩
    rw [numAt_of_bytes (length_bytesLE v n) fun i hi => (hbyte (o + i)).trans ?_, natLE_bytesLE, Option.getD_some,
      pow_mul 2 8]
    · rfl
    · rw [if_pos (by omega), Nat.add_sub_cancel_left]

/-- Settles O23: the outcome of the body, the cases of `atomicNew`, and one atomic in memory and in scratchpad. -/
theorem atomicsReturnOldValues : Obligations.AtomicsReturnOldValues := by
  unfold Obligations.AtomicsReturnOldValues
  refine ⟨fun w i hi => ?body, fun w m b k => ?values, fun s c b k => ⟨fun va p => ?memory, fun o t ht hp ho => ?scratch⟩⟩
  case body =>
    obtain ⟨op, ho, he⟩ := exec_atomic hi
    refine ⟨completesIf_of_done he ho fun c s _ _ h => ⟨atomicBody_of_no_steps h, rfl⟩, fun s c r h hr => ?_⟩
    have hbody := atomicBody_of_mayModify hr
    have hwrites := atomicWrites_eq c (s.begun c) r
    obtain ⟨-, -, -, -, hmoves⟩ := hr
    intro s0 scope writes home s' s1 one out
    have hhome : home = s0.atomicReleases c r := by rw [State.atomicReleases, hwrites]
    have hs' : s' = s0.atomicRelease c r := by rw [State.atomicRelease, ← hhome]
    have hout : out = (s0.atomicReady c r).atomics c s0 r := by
      rw [State.atomicReady, ← hs']
      rfl
    rw [hhome, hs', hout]
    refine ⟨fun hrel hflight => exec_of_unacked he ho h (hbody.trans (if_pos ⟨hrel, hflight⟩)), fun hgo => ?_⟩
    refine exec_of_done he ho h (hbody.trans (if_neg fun hw => ?_)) hmoves
    rcases hgo with hrel | hacked
    · exact Bool.false_ne_true (hrel.symm.trans hw.1)
    · exact Bool.false_ne_true (hw.2.symm.trans hacked)
  case values =>
    intro n sg val hm hb
    exact ⟨rfl, ⟨_, atomicNew_amin w m b k, (min_of_le (val := val) m b).1, (min_of_le (val := val) m b).2⟩,
      ⟨_, atomicNew_amax w m b k, (max_of_le (val := val) m b).1, (max_of_le (val := val) m b).2⟩, rfl, rfl, rfl, rfl⟩
  case memory =>
    obtain ⟨hold, hnew⟩ := s.atomicAt_mem c va p b k
    exact ⟨hold, hnew, fun hw hf => State.homeOpen_mem_of_quiet ⟨hw, hf⟩ _ _ _ _⟩
  case scratch =>
    have hplace : o + atomicBytes c.w ≤ 0x10 ∨ 0x10 ≤ o ∧ o + atomicBytes c.w ≤ 0x40 ∨ 0x40 ≤ o := by
      rcases atomicBytes_cases c.w with hn | hn <;> rw [hn] at ho ⊢ <;> omega
    refine ⟨fun hlo hhi => ?hidden, fun hout => State.atomicAt_scratch ht hp (by omega) b k⟩
    case hidden =>
      have hx := State.atomicAt_scratch_hidden ht hp hlo (by omega : o + atomicBytes c.w ≤ 0x40) b k
      exact ⟨congrArg Prod.fst hx, t, (congrArg (fun x => x.2.team? c.r.team) hx).trans ht, rfl⟩

end Sys2Proof.Machine
end

section
/-!
Loads (R206 to R216): what the body of LD, LDS and LDU does once its checks have passed, the values that the bytes of its
threads give to their destinations, and where the bytes of one run come from: O21.
-/
namespace Sys2Proof.Machine

/-! ## The body of a load -/

/-- The three loads share their body. -/
theorem exec_load {w : Fields} {x : Instr × Bool} (hx : x ∈ [(Instr.ld w, false), (.lds w, true), (.ldu w, false)]) :
    ∃ op, opFields x.1 = some (op, w) ∧ ∀ s, exec x.1 s = s.issue op w (loadBody x.2) := by
  simp only [List.mem_cons, List.not_mem_nil, or_false] at hx
  rcases hx with rfl | rfl | rfl
  · exact ⟨0xB0, rfl, fun _ => rfl⟩
  · exact ⟨0xB2, rfl, fun _ => rfl⟩
  · exact ⟨0xB4, rfl, fun _ => rfl⟩

/-- A load without participants does nothing. -/
theorem loadBody_of_no_requests {c : Ctx} {s : State} {scratch : Bool} (h : requests s c scratch = []) :
    loadBody scratch c s = .done { s } := by
  simp [loadBody, h, noEffect]

/-- The result of a load that its threads make together. -/
def State.wholeLoad (s : State) (c : Ctx) (r : Located) : Done :=
  { s := (s.performLoads c r).2, later := some (s.performLoads c r).1, remote := remotePlaces r false, reload := s.reloadOf c r }

/-- A write of a load to a thread that misses (R214). -/
def lateWrite (miss : Mask) (v : RegWrite) : Bool :=
  match v.reg with
  | .vec _ t => bit miss t
  | _ => false

/-- The result of a load that divides its split (R214). -/
def State.dividedLoad (s : State) (c : Ctx) (r : Located) : Done :=
  { s := (s.performLoads c r).2, fixed := (s.performLoads c r).1.filter fun v => !lateWrite (s.missing c r) v, lat := 0
    later := some ((s.performLoads c r).1.filter (lateWrite (s.missing c r))), remote := remotePlaces r false
    reload := s.reloadOf c r, flow := some (splitFlow c (s.missing c r) (s.performLoads c r).2.nextId) }

theorem isEmpty_filter_not {α : Type} (l : List α) (p : α → Bool) :
    (l.filter fun x => !p x).isEmpty = !l.any fun x => !p x := by
  induction l with
  | nil => rfl
  | cons x l ih => cases h : p x <;> simp [h, ih]

theorem State.missing_eq (s : State) (c : Ctx) (r : Located) :
    (maskOf fun t => (r.filter fun x => !x.2.all (s.present c)).any fun x => x.1.t == t) = s.missing c r := by
  simp only [State.missing, List.any_filter, Bool.and_comm]

/-- Once its checks have passed, a load waits for the core's stores where it reads a STRONG page, and then delivers what it
reads, divided where threads miss (R171, R191, R213, R214). -/
theorem loadBody_of_mayLoad {c : Ctx} {s : State} {scratch : Bool} {r : Located} (h : s.mayLoad c scratch r) :
    loadBody scratch c s =
      let s0 := s.strongFirst c r
      if anyStrong r = true ∧ s0.acked c.core = false then .unacked s0 [c.core]
      else if (c.w.m.getLsbD 0 && (r.any fun x => !x.2.all (s0.present c)) && s0.missing c r != c.act) = true then
        .done (s0.dividedLoad c r)
      else .done (s0.wholeLoad c r) := by
  obtain ⟨hreq, hscope, hcheck, hclean, -⟩ := h
  have hempty : (requests s c scratch).isEmpty = false := by simpa using hreq
  have hmissing : (decide (ordOf c.w = 1) && s.scopeMissing (scopeOf c.w)) = false := by simpa using hscope
  have hfirst : (if anyStrong r = true then s.drainHome c.core else s) = s.strongFirst c r := rfl
  simp only [loadBody, hempty, hmissing, hcheck, hfirst, hclean, Bool.false_eq_true, if_false,
    isEmpty_filter_not, Bool.not_not, State.missing_eq, Bool.and_eq_true, Bool.not_eq_true']
  rfl

theorem State.divides_iff (s : State) (c : Ctx) (r : Located) : s.divides c r ↔
    (c.w.m.getLsbD 0 && (r.any fun x => !x.2.all (s.present c)) && s.missing c r != c.act) = true := by
  simp only [State.divides, Bool.and_eq_true, bne_iff_ne, and_assoc]

/-! ## The values of loaded bytes (Table 11.4) -/

/-- The value of loaded bytes as the destination's n bits take it. -/
def valueOf (sz n : Nat) (bs : List Byte) : DWord :=
  BitVec.ofInt 64 (intOfBits (sz == 1 || sz == 3) n (BitVec.ofNat 64 (natLE (bs.take (n / 8)))))

theorem natLE_append (l m : List Byte) : natLE (l ++ m) = natLE l + 256 ^ l.length * natLE m := by
  induction l with
  | nil => simp [natLE]
  | cons b l ih => rw [List.cons_append, natLE, ih, natLE, List.length_cons, pow_succ]; ring

/-- A 64-bit word takes eight bytes. -/
theorem ofNat_natLE_take (bs : List Byte) : BitVec.ofNat 64 (natLE (bs.take 8)) = BitVec.ofNat 64 (natLE bs) := by
  refine BitVec.eq_of_toNat_eq ?_
  rw [BitVec.toNat_ofNat, BitVec.toNat_ofNat]
  rcases Nat.le_total bs.length 8 with h | h
  · rw [List.take_of_length_le h]
  · conv_rhs => rw [← List.take_append_drop 8 bs, natLE_append, List.length_take_of_le h]
    rw [show (256 : Nat) ^ 8 = 2 ^ 64 from rfl, Nat.add_mul_mod_self_left]

/-- The eight bytes of a part of a 128-bit load, or of a 64-bit one. -/
theorem valueOf_wide {sz : Nat} (h : sz = 5 ∨ sz = 6) (bs : List Byte) : valueOf sz 64 bs = loadedValue 5 bs := by
  have hsigned : (sz == 1 || sz == 3) = false := by rcases h with rfl | rfl <;> rfl
  rw [valueOf, hsigned, ofNat_natLE_take, intOfBits]
  simp only [Bool.false_eq_true, if_false, BitVec.setWidth_eq, BitVec.ofInt_natCast, BitVec.ofNat_toNat]
  rfl

/-- A size below 64 bits, zero-extended. -/
theorem valueOf_unsigned {sz n : Nat} (h : (sz == 1 || sz == 3) = false) {bs : List Byte} (hn : 8 * n ≤ 64)
    (hlen : bs.length ≤ n) : valueOf sz (8 * n) bs = BitVec.ofNat 64 (natLE bs) := by
  have hlt : natLE bs < 2 ^ (8 * n) := (natLE_lt bs).trans_le (Nat.pow_le_pow_right Nat.two_pos (by omega))
  rw [valueOf, h, Nat.mul_div_cancel_left n (by omega), List.take_of_length_le hlen, intOfBits]
  simp only [Bool.false_eq_true, if_false, BitVec.ofInt_natCast, BitVec.toNat_setWidth, BitVec.toNat_ofNat]
  rw [Nat.mod_mod_of_dvd _ (Nat.pow_dvd_pow 2 hn), Nat.mod_eq_of_lt hlt]

/-- A size below 64 bits, sign-extended. -/
theorem valueOf_signed {sz n : Nat} (h : (sz == 1 || sz == 3) = true) {bs : List Byte} (hlen : bs.length ≤ n) :
    valueOf sz (8 * n) bs = ((BitVec.ofNat 64 (natLE bs)).setWidth (8 * n)).signExtend 64 := by
  rw [valueOf, h, Nat.mul_div_cancel_left n (by omega), List.take_of_length_le hlen]
  rfl

theorem loadedValue_eq {sz : Nat} (h : sz < 6) {bs : List Byte} (hlen : bs.length ≤ sizeBytes sz) :
    loadedValue sz bs = valueOf sz (8 * sizeBytes sz) bs := by
  match sz, h with
  | 0, _ => exact (valueOf_unsigned rfl (by decide) hlen).symm
  | 1, _ => exact (valueOf_signed rfl hlen).symm
  | 2, _ => exact (valueOf_unsigned rfl (by decide) hlen).symm
  | 3, _ => exact (valueOf_signed rfl hlen).symm
  | 4, _ => exact (valueOf_unsigned rfl (by decide) hlen).symm
  | 5, _ => exact (valueOf_unsigned rfl (by decide) hlen).symm

/-- The writes of one thread's bytes by Table 11.4. -/
def writesOf (w : Fields) (t : Nat) (bs : List Byte) : List RegWrite :=
  let sz := sizeOf_ w
  let d := w.d.toNat
  if sz = 6 then [⟨.uni d, valueOf sz 64 bs⟩, ⟨.uni (d + 1), valueOf sz 64 (bs.drop 8)⟩]
  else if w.u then [⟨.uni d, valueOf sz (8 * sizeBytes sz) bs⟩]
  else if sz = 5 then [⟨.vec d t, low32 (valueOf sz 64 bs)⟩, ⟨.vec (d + 1) t, valueOf sz 64 bs >>> 32⟩]
  else [⟨.vec d t, valueOf sz (8 * sizeBytes sz) bs⟩]

theorem low32_low32 (v : DWord) : low32 (low32 v) = low32 v := by
  simp [low32]

/-- A load writes what Table 11.4 says, as far as its registers keep it. -/
theorem kept_loadWrites {w : Fields} {t : Nat} {bs : List Byte} (hsz : sizeOf_ w < 7) (hu : sizeOf_ w = 6 → w.u = true)
    (hlen : bs.length ≤ sizeBytes (sizeOf_ w)) :
    (loadWrites w t bs).map (fun v => (v.reg, v.kept)) = (writesOf w t bs).map fun v => (v.reg, v.kept) := by
  by_cases h6 : sizeOf_ w = 6
  · have htake : valueOf 6 64 (bs.take 8) = valueOf 6 64 bs := by rw [valueOf, valueOf, List.take_take]; rfl
    simp only [loadWrites, writesOf, hu h6, h6, if_true, ← valueOf_wide (.inr rfl), htake]
  · have hvalue := loadedValue_eq (Nat.lt_of_le_of_ne (Nat.le_of_lt_succ hsz) h6) hlen
    cases hw : w.u with
    | true => simp only [loadWrites, writesOf, hw, h6, if_true, if_false, hvalue]
    | false =>
      by_cases h5 : sizeOf_ w = 5
      · simp only [loadWrites, writesOf, hw, vecWrites, h5, valueOf_wide (.inl rfl), decide_true, if_true, Bool.false_eq_true,
          if_false]
        rfl
      · simp [loadWrites, writesOf, hw, vecWrites, h5, h6, hvalue, RegWrite.kept, low32_low32]

/-! ## The bytes of a run -/

theorem CacheLine.length_read_le (l : CacheLine) (a n : Nat) : (l.read a n).length ≤ n := by
  simp [CacheLine.read]

theorem State.length_cleaned (s : State) (a : Nat) (bs : List Byte) : (s.cleaned a bs).length = bs.length := by
  unfold State.cleaned
  split
  · rfl
  · simp

theorem State.length_overlay (s : State) (core loc : Nat) (bs : List Byte) : (s.overlay core loc bs).length = bs.length := by
  unfold State.overlay
  dsimp only
  split
  · rfl
  · simp

theorem sum_lineRuns (a n : Nat) : ((lineRuns a n).map (·.2)).sum = n := by
  unfold lineRuns
  dsimp only
  split
  · simp [*]
  · split
    · simp
    · simp only [List.map_cons, List.map_nil, List.sum_cons, List.sum_nil]
      omega

/-- Reads one after another: their bytes in order, each made in the state that those before it leave. -/
def readAll {α : Type} (g : State → α → List Byte × State) (l : List α) (s : State) : List Byte × State :=
  l.foldl (fun x a => (x.1 ++ (g x.2 a).1, (g x.2 a).2)) ([], s)

theorem readAll_single {α : Type} (g : State → α → List Byte × State) (a : α) (s : State) : readAll g [a] s = g s a := rfl

/-- Reads deliver at most the bytes that each of them asks for. -/
theorem length_readAll {α : Type} {g : State → α → List Byte × State} (size : α → Nat)
    (h : ∀ s a, (g s a).1.length ≤ size a) (l : List α) (s : State) : (readAll g l s).1.length ≤ (l.map size).sum := by
  have hfold (x : List Byte × State) :
      (l.foldl (fun x a => (x.1 ++ (g x.2 a).1, (g x.2 a).2)) x).1.length ≤ x.1.length + (l.map size).sum := by
    induction l generalizing x with
    | nil => exact Nat.le_refl _
    | cons a l ih =>
      have hrest := ih (x.1 ++ (g x.2 a).1, (g x.2 a).2)
      have hstep := h x.2 a
      rw [List.length_append] at hrest
      rw [List.foldl_cons, List.map_cons, List.sum_cons]
      omega
  simpa [readAll] using hfold ([], s)

/-- A load of bytes within one line of memory. -/
def State.loadLine (core hint : Nat) (cached : Bool) (s : State) (r : Nat × Nat) : List Byte × State :=
  match (if cached then s.l1Find core r.1 else none) with
  | some l => (l.read r.1 r.2, s)
  | none =>
    let t := s.throughSlice r.1 r.2 false
    (t.cleaned r.1 (t.bytesAt r.1 r.2),
      if !cached then t.l1Drop core r.1 else if hint != 3 then t.l1Fill core hint r.1 else t)

theorem State.loadMem_eq (s : State) (core hint : Nat) (p : Phys) (n : Nat) : s.loadMem core hint p n =
    let x := readAll (State.loadLine core hint (p.type == .normal && isLocal p.loc)) (lineRuns p.loc n) s
    (x.2.overlay core p.loc x.1, x.2) := by
  have hline : (fun (x : List Byte × State) (r : Nat × Nat) =>
      match (if p.type == .normal && isLocal p.loc then x.2.l1Find core r.1 else none) with
      | some l => (x.1 ++ l.read r.1 r.2, x.2)
      | none =>
        let s := x.2.throughSlice r.1 r.2 false
        (x.1 ++ s.cleaned r.1 (s.bytesAt r.1 r.2),
          if !(p.type == .normal && isLocal p.loc) then s.l1Drop core r.1 else if hint != 3 then s.l1Fill core hint r.1 else s)) =
      fun x r => (x.1 ++ (State.loadLine core hint (p.type == .normal && isLocal p.loc) x.2 r).1,
        (State.loadLine core hint (p.type == .normal && isLocal p.loc) x.2 r).2) := by
    funext x r
    unfold State.loadLine
    split <;> rfl
  rw [readAll, ← hline]
  rfl

/-- A load of one run of a thread's access. -/
def State.loadSpan (c : Ctx) (hint : Nat) (s : State) (p : Span) : List Byte × State :=
  match p.home with
  | .mem va q =>
    let t := s.touch c.space .load va
    (if q.type == .strong then t.acquire c.core 4 else t).loadMem c.core hint q p.len
  | .scratch o =>
    let t := s.settleLines c.r.team o p.len
    (t.scratchRead c.r.team o p.len, t)

theorem State.loadSpans_eq (s : State) (c : Ctx) (hint : Nat) (ps : List Span) :
    s.loadSpans c hint ps = readAll (State.loadSpan c hint) ps s := by
  unfold State.loadSpans readAll
  congr 1
  funext x p
  obtain ⟨pos, len, home⟩ := p
  cases home <;> rfl

theorem State.length_loadLine (core hint : Nat) (cached : Bool) (s : State) (r : Nat × Nat) :
    (State.loadLine core hint cached s r).1.length ≤ r.2 := by
  unfold State.loadLine
  split
  · exact CacheLine.length_read_le _ _ _
  · simp [State.length_cleaned, State.bytesAt, length_lookAll]

theorem State.length_loadMem (s : State) (core hint : Nat) (p : Phys) (n : Nat) : (s.loadMem core hint p n).1.length ≤ n := by
  rw [State.loadMem_eq]
  simpa only [State.length_overlay, sum_lineRuns] using
    length_readAll (·.2) (State.length_loadLine core hint _) (lineRuns p.loc n) s

theorem State.length_scratchRead (s : State) (r : TeamRef) (o n : Nat) : (s.scratchRead r o n).length = n := by
  unfold State.scratchRead
  split <;> simp

/-- The loads of one thread deliver at most the bytes of its runs. -/
theorem State.length_loadSpans (s : State) (c : Ctx) (hint : Nat) (ps : List Span) :
    (s.loadSpans c hint ps).1.length ≤ (ps.map (·.len)).sum := by
  rw [State.loadSpans_eq]
  refine length_readAll (·.len) (fun s p => ?_) ps s
  unfold State.loadSpan
  split
  · exact State.length_loadMem _ _ _ _ _
  · exact (State.length_scratchRead _ _ _ _).le

/-! ## The loads of all threads -/

/-- What a fold lists that carries a state: what each item gives in the state before it. -/
theorem foldl_log {α β : Type} (f : State → α → State) (g : State → α → List β) (l : List α) (s : State) :
    l.foldl (fun x a => (x.1 ++ g x.2 a, f x.2 a)) ([], s) =
      ((List.range l.length).flatMap fun n => l[n]?.elim [] fun a => g ((l.take n).foldl f s) a, l.foldl f s) := by
  induction l using List.reverseRecOn with
  | nil => rfl
  | append_singleton l a ih =>
    rw [List.foldl_concat, ih, List.length_append, List.length_singleton, List.range_succ, List.flatMap_append,
      List.foldl_concat]
    congr 2
    · refine List.flatMap_congr fun n hn => ?_
      have hn := List.mem_range.1 hn
      rw [List.getElem?_append_left hn, List.take_append_of_le_length (Nat.le_of_lt hn)]
    · simp

/-- The state before the n-th thread of a load. -/
def State.beforeThread (s : State) (c : Ctx) (r : Located) (n : Nat) : State :=
  (r.take n).foldl (fun u x => (u.loadSpans c (hintOf c.w) x.2).2) s

theorem State.performLoads_writes (s : State) (c : Ctx) (r : Located) : (s.performLoads c r).1 =
    (List.range r.length).flatMap fun n => r[n]?.elim [] fun x =>
      loadWrites c.w x.1.t ((s.beforeThread c r n).loadSpans c (hintOf c.w) x.2).1 := by
  simp only [State.performLoads]
  have hlog := congrArg Prod.fst (foldl_log (fun u (x : Req × List Span) => (u.loadSpans c (hintOf c.w) x.2).2)
    (fun u x => loadWrites c.w x.1.t (u.loadSpans c (hintOf c.w) x.2).1) r s)
  dsimp only at hlog
  rw [hlog]
  rfl

/-- Each thread's bytes give its destination the value of Table 11.4. -/
theorem State.kept_performLoads {s : State} {c : Ctx} {r : Located}
    (hlen : ∀ x ∈ r, (x.2.map (·.len)).sum = sizeBytes (sizeOf_ c.w)) (hsz : sizeOf_ c.w < 7) (hu : sizeOf_ c.w = 6 → c.w.u = true) :
    (s.performLoads c r).1.map (fun v => (v.reg, v.kept)) = ((List.range r.length).flatMap fun n => match r[n]? with
      | some x => writesOf c.w x.1.t ((s.beforeThread c r n).loadSpans c (hintOf c.w) x.2).1
      | none => []).map fun v => (v.reg, v.kept) := by
  rw [State.performLoads_writes, List.map_flatMap, List.map_flatMap]
  refine List.flatMap_congr fun n _ => ?_
  cases hx : r[n]? with
  | none => rfl
  | some x => exact kept_loadWrites hsz hu ((State.length_loadSpans _ _ _ _).trans (hlen x (List.mem_of_getElem? hx)).le)

/-! ## Where the bytes of a run come from -/

/-- A line without poison marks is read as it stands. -/
theorem CacheLine.read_of_clean {l : CacheLine} (h : l.bad = []) (a n : Nat) : l.read a n = (l.bytes.drop (a % 128)).take n := by
  simp [CacheLine.read, h]

theorem State.cleaned_of_clean {s : State} (h : s.poison = []) (a : Nat) (bs : List Byte) : s.cleaned a bs = bs := by
  simp [State.cleaned, h]

theorem lineRuns_of_one {a n : Nat} (h : a % 128 + n ≤ 128) : lineRuns a n = if n = 0 then [] else [(a, n)] := by
  have hmin : min n (128 - a % 128) = n := Nat.min_eq_left (by omega)
  simp only [lineRuns, hmin, if_true]

theorem State.quiet_throughSlice {s : State} {core : Nat} (h : s.quiet core) (a n : Nat) (w : Bool) :
    (s.throughSlice a n w).quiet core := by
  rwa [State.quiet, State.throughSlice_core]

theorem State.quiet_l1Fill {s : State} {core : Nat} (h : s.quiet core) (hint a : Nat) : (s.l1Fill core hint a).quiet core :=
  State.quiet_modCore (State.quiet_throughSlice h _ _ _) _ (fun _ => rfl) fun _ => rfl

theorem State.quiet_l1Drop {s : State} {core : Nat} (h : s.quiet core) (a : Nat) : (s.l1Drop core a).quiet core :=
  State.quiet_modCore h _ (fun _ => rfl) fun _ => rfl

/-- A load within one line leaves a quiet buffer quiet. -/
theorem State.quiet_loadLine {s : State} {core : Nat} (h : s.quiet core) (hint : Nat) (cached : Bool) (r : Nat × Nat) :
    (State.loadLine core hint cached s r).2.quiet core := by
  have ht := State.quiet_throughSlice h r.1 r.2 false
  unfold State.loadLine
  split
  · exact h
  · exact iteInduction (motive := fun t : State => t.quiet core) (fun _ => State.quiet_l1Drop ht _) fun _ =>
      iteInduction (motive := fun t : State => t.quiet core) (fun _ => State.quiet_l1Fill ht _ _) fun _ => ht

/-- The bytes that a load within one line delivers: those of the line that L1 holds, else those of memory. -/
theorem State.loadLine_bytes {s : State} {core : Nat} (hpoison : s.poison = []) (hl1 : ∀ l ∈ (s.core core).l1, l.bad = [])
    (hint : Nat) (cached : Bool) (a n : Nat) : (State.loadLine core hint cached s (a, n)).1 =
      match (if cached then s.l1Find core a else none) with
      | some l => (l.bytes.drop (a % 128)).take n
      | none => s.bytesAt a n := by
  cases hfind : (if cached then s.l1Find core a else none) with
  | some l =>
    have hmem : l ∈ (s.core core).l1 := by
      cases cached
      · cases hfind
      · exact List.mem_of_find?_eq_some hfind
    simpa only [State.loadLine, hfind] using CacheLine.read_of_clean (hl1 l hmem) a n
  | none =>
    have hclean : (s.throughSlice a n false).poison = [] := (s.throughSlice_poison a n false).trans hpoison
    simp only [State.loadLine, hfind, State.cleaned_of_clean hclean, State.bytesAt, State.throughSlice_mem]

/-- The same for a run that lies within one line, of a core with nothing buffered. -/
theorem State.loadMem_bytes {s : State} {core : Nat} (hquiet : s.quiet core) (hpoison : s.poison = [])
    (hl1 : ∀ l ∈ (s.core core).l1, l.bad = []) (hint : Nat) {p : Phys} {n : Nat} (hline : p.loc % 128 + n ≤ 128)
    (hlocal : isLocal p.loc = true) : (s.loadMem core hint p n).1 =
      match (if p.type = .normal then s.l1Find core p.loc else none) with
      | some l => (l.bytes.drop (p.loc % 128)).take n
      | none => s.bytesAt p.loc n := by
  rw [State.loadMem_eq, lineRuns_of_one hline, hlocal, Bool.and_true]
  by_cases hn : n = 0
  · subst hn
    rw [if_pos rfl]
    split
    all_goals exact State.overlay_of_quiet hquiet _ _
  · rw [if_neg hn, readAll_single]
    dsimp only
    rw [State.overlay_of_quiet (State.quiet_loadLine hquiet _ _ _), State.loadLine_bytes hpoison hl1]
    simp only [beq_iff_eq]

/-! ## Poison marks under writes -/

theorem State.poison_putLoc_nil {s : State} (h : s.poison = []) (a : Nat) (bs : List Byte) : (s.putLoc a bs).poison = [] :=
  List.eq_nil_iff_forall_not_mem.2 fun x hx => by
    rw [State.mem_putLoc_poison, h] at hx
    exact List.not_mem_nil hx.1

theorem State.wakePage_poison (s : State) (ins : Bool) (p : Nat) : (s.wakePage ins p).poison = s.poison := by
  unfold State.wakePage State.demand State.wakeRegion
  dsimp only
  split
  · split <;> rfl
  · rfl

theorem State.poison_copyAside_nil {s : State} (h : s.poison = []) (i : Nat) (ins : Bool) (p : Nat) :
    (s.copyAside i ins p).poison = [] := by
  unfold State.copyAside
  dsimp only
  split
  · split
    · exact State.poison_putLoc_nil ((s.wakePage_poison ins p).trans h) _ _
    · exact (s.wakePage_poison ins p).trans h
  · exact h

theorem poison_captureFault_nil {s : State} (h : s.poison = []) (a : Nat) : (captureFault s a).poison = [] := by
  unfold captureFault
  split
  · exact h
  · refine foldl_pred (P := fun s => s.poison = []) (fun s x hs => ?_) _ _ h
    exact iteInduction (motive := fun t : State => t.poison = []) (fun _ => State.poison_copyAside_nil hs _ _ _) fun _ => hs

theorem State.poison_writeLoc_nil {s : State} (h : s.poison = []) (a : Nat) (bs : List Byte) : (s.writeLoc a bs).poison = [] :=
  State.poison_putLoc_nil (foldl_pred (P := fun s => s.poison = []) (fun _ a hs => poison_captureFault_nil hs a) _ _ h) _ _

theorem State.poison_touch_nil {s : State} (h : s.poison = []) (w : Space) (use : Use) (va : Nat) :
    (s.touch w use va).poison = [] :=
  State.touch_pred (P := fun s => s.poison = []) (fun s a n w hs => (s.throughSlice_poison a n w).trans hs)
    (fun _ a _ hs => State.poison_writeLoc_nil hs a _) (fun _ _ _ hs => hs) (fun _ _ _ hs => hs) h w use va

/-- Settles O21: the outcome of the body, the values of Table 11.4 thread by thread, and the sources of a run's bytes. -/
theorem loadsDeliverWhatTheyRead : Obligations.LoadsDeliverWhatTheyRead := by
  unfold Obligations.LoadsDeliverWhatTheyRead
  refine ⟨fun w x hx => ?body, fun s c r => ?values, fun s c hint pos len => ⟨?memory, fun o u hu hp => ?scratch⟩⟩
  case body =>
    obtain ⟨op, ho, he⟩ := exec_load hx
    refine ⟨completesIf_of_done he ho fun c s _ _ h => ⟨loadBody_of_no_requests h, rfl⟩, fun s c r h hr => ?_⟩
    have hbody := loadBody_of_mayLoad hr
    obtain ⟨-, -, -, -, hmoves⟩ := hr
    refine ⟨fun hwaits => exec_of_unacked he ho h (hbody.trans (if_pos hwaits)), fun hgo hwhole => ?_, fun hgo hdiv => ?_⟩
    · exact exec_of_done he ho h (hbody.trans ((if_neg hgo).trans (if_neg (mt (State.divides_iff _ c r).2 hwhole)))) hmoves
    · exact exec_of_done he ho h (hbody.trans ((if_neg hgo).trans (if_pos ((State.divides_iff _ c r).1 hdiv)))) hmoves
  case values => exact fun hlen hsz hu => State.kept_performLoads hlen hsz hu
  case memory =>
    intro va q _ hweak hline hlocal hw hf hpoison hbad t
    have hspan : s.loadSpans c hint [{ pos, len, home := .mem va q }] = t.loadMem c.core hint q len := by
      rw [State.loadSpans_eq, readAll_single, State.loadSpan]
      simp [hweak, t]
    rw [hspan]
    exact State.loadMem_bytes (State.quiet_touch ⟨hw, hf⟩ _ _ _) (State.poison_touch_nil hpoison _ _ _)
      (by rwa [State.touch_l1]) hint hline hlocal
  case scratch =>
    rw [State.loadSpans_eq, readAll_single, State.loadSpan]
    dsimp only
    rw [State.settleLines_of_none_pending hu hp, State.scratchRead_of_team hu]

end Sys2Proof.Machine
end

section
/-!
The frame of a store (R173, R209, R213, R216): what the use of a translation changes of memory, how the runs of a store land
line by line, and what one that combines leaves in its core's buffer: O26.
-/
namespace Sys2Proof.Machine

/-! ## Checkpoints under writes (R424) -/

theorem fireOne_ckpt (s : State) (w : Waiter) : (fireOne s w).ckpt = s.ckpt := by
  unfold fireOne
  split <;> rfl

theorem State.evaluate_ckpt (s : State) (p : CounterRef → Bool) : (s.evaluate p).ckpt = s.ckpt :=
  foldl_keeps (·.ckpt) fireOne_ckpt _ _

theorem State.throughSlice_ckpt (s : State) (a n : Nat) (w : Bool) : (s.throughSlice a n w).ckpt = s.ckpt := by
  unfold State.throughSlice
  split
  · exact foldl_keeps (·.ckpt) (f := fun s l => s.modCol _ _) (fun _ _ => rfl) _ _
  · rfl

theorem State.writeLoc_ckpt {s : State} (h : s.Unprotected) (a : Nat) (bs : List Byte) : (s.writeLoc a bs).ckpt = s.ckpt := by
  rw [State.writeLoc_of_unprotected h]
  exact (State.evaluate_ckpt _ _).trans (s.throughSlice_ckpt a bs.length true)

theorem State.unprotected_of_ckpt {s t : State} (h : s.Unprotected) (ht : t.ckpt = s.ckpt) : t.Unprotected := by
  rwa [State.Unprotected, ht]

theorem State.unprotected_writeLoc {s : State} (h : s.Unprotected) (a : Nat) (bs : List Byte) :
    (s.writeLoc a bs).Unprotected := State.unprotected_of_ckpt h (State.writeLoc_ckpt h a bs)

theorem State.unprotected_touch {s : State} (h : s.Unprotected) (w : Space) (use : Use) (va : Nat) :
    (s.touch w use va).Unprotected :=
  State.touch_pred (P := State.Unprotected) (fun s a n w hs => State.unprotected_of_ckpt hs (s.throughSlice_ckpt a n w))
    (fun _ a _ hs => State.unprotected_writeLoc hs a _) (fun _ _ _ hs => hs) (fun _ _ _ hs => hs) h w use va

/-! ## Memory under the use of a translation (R173) -/

theorem State.keepPath_mem (s : State) (w : Space) (va : Nat) : (s.keepPath w va).mem = s.mem := by
  refine foldl_keeps (·.mem) (fun s x => ?_) _ _
  exact s.throughSlice_mem x.2.1 8 false

theorem State.keepPath_ckpt (s : State) (w : Space) (va : Nat) : (s.keepPath w va).ckpt = s.ckpt := by
  refine foldl_keeps (·.ckpt) (fun s x => ?_) _ _
  exact s.throughSlice_ckpt x.2.1 8 false

/-- The word of a leaf once an access has used it. -/
def Use.marks (use : Use) (pte : DWord) : DWord := pte ||| 0x40 ||| (if use.writes then 0x80 else 0)

theorem Use.marks_store (pte : DWord) : Use.marks .store pte = pte ||| 0xC0 := BitVec.or_assoc pte 0x40 0x80

/-- The state in which the leaf of an access is at hand: a walk, where no TLB holds it, has read its entries (R172). -/
def State.leafRead (s : State) (w : Space) (va : Nat) (l : Leaf) : State :=
  if (s.tlbFind w va).isSome then s else (s.keepPath w va).throughSlice l.loc 8 false

theorem State.leafRead_mem (s : State) (w : Space) (va : Nat) (l : Leaf) : (s.leafRead w va l).mem = s.mem :=
  iteInduction (motive := fun u : State => u.mem = s.mem) (fun _ => rfl) fun _ =>
    (State.throughSlice_mem _ _ _ _).trans (s.keepPath_mem w va)

theorem State.leafRead_ckpt (s : State) (w : Space) (va : Nat) (l : Leaf) : (s.leafRead w va l).ckpt = s.ckpt :=
  iteInduction (motive := fun u : State => u.ckpt = s.ckpt) (fun _ => rfl) fun _ =>
    (State.throughSlice_ckpt _ _ _ _).trans (s.keepPath_ckpt w va)

/-- The use of a leaf changes memory in the word of the leaf alone, and only where it still stands. -/
theorem State.touch_mem {s : State} (h : s.Unprotected) {w : Space} {use : Use} {va : Nat} {l : Leaf}
    (hl : s.leaf w use va = .ok l) : (s.touch w use va).mem =
      if (use.marks l.pte != l.pte && s.wordAt l.loc == l.pte) = true then
        putAll 0 s.mem l.loc (bytesLE (use.marks l.pte).toNat 8)
      else s.mem := by
  let u := s.leafRead w va l
  have hword : u.wordAt l.loc = s.wordAt l.loc := by rw [State.wordAt, State.leafRead_mem, State.wordAt]
  have htouch : (s.touch w use va).mem = (if (use.marks l.pte != l.pte && u.wordAt l.loc == l.pte) = true then
      u.writeNum l.loc 8 (use.marks l.pte).toNat else u).mem := by
    simp only [State.touch, hl]
    rfl
  rw [htouch, hword]
  split
  · rw [State.writeNum, State.writeLoc_mem_of_unprotected (State.unprotected_of_ckpt h (s.leafRead_ckpt w va l)),
      State.leafRead_mem]
  · exact s.leafRead_mem w va l

theorem State.touch_of_fault {s : State} {w : Space} {use : Use} {va c r : Nat} (hl : s.leaf w use va = .fault c r) :
    s.touch w use va = s := by
  simp only [State.touch, hl]

theorem walkFrom_nextId (s : State) (n va level table : Nat) :
    walkFrom { s with nextId := n } va level table = walkFrom s va level table := by
  induction level generalizing table with
  | zero => rfl
  | succ k ih =>
    unfold walkFrom
    simp only [ih]
    rfl

/-- The number that the next store takes says nothing of translations. -/
theorem State.leaf_nextId (s : State) (n : Nat) (w : Space) (use : Use) (va : Nat) :
    State.leaf { s with nextId := n } w use va = s.leaf w use va := by
  have hwalk : State.walk { s with nextId := n } w va = s.walk w va := walkFrom_nextId s n va _ _
  simp only [State.leaf, hwalk]
  rfl

/-- Nor of what memory holds once one is used. -/
theorem State.touch_mem_nextId {s : State} (h : s.Unprotected) (n : Nat) (w : Space) (use : Use) (va : Nat) :
    (State.touch { s with nextId := n } w use va).mem = (s.touch w use va).mem := by
  cases hl : s.leaf w use va with
  | fault c r => rw [State.touch_of_fault hl, State.touch_of_fault ((s.leaf_nextId n w use va).trans hl)]
  | ok l =>
    rw [State.touch_mem h hl, State.touch_mem (s := { s with nextId := n }) h ((s.leaf_nextId n w use va).trans hl)]
    rfl

/-- Outside the word of the leaf it changes no byte. -/
theorem State.byteAt_touch {s : State} (h : s.Unprotected) {w : Space} {use : Use} {va a : Nat}
    (ha : ∀ l, s.leaf w use va = .ok l → a < l.loc ∨ l.loc + 8 ≤ a) :
    byteAt (s.touch w use va).mem a = byteAt s.mem a := by
  cases hl : s.leaf w use va with
  | fault c r => rw [State.touch_of_fault hl]
  | ok l =>
    rw [State.touch_mem h hl]
    split
    · have hout := ha l hl
      rw [byteAt_putAll, length_bytesLE, if_neg (by omega)]
    · rfl

/-- In the word of the leaf only the marks rise. -/
theorem State.wordAt_touch {s : State} (h : s.Unprotected) {w : Space} {use : Use} {va : Nat} {l : Leaf}
    (hl : s.leaf w use va = .ok l) :
    (s.touch w use va).wordAt l.loc = s.wordAt l.loc ∨ (s.touch w use va).wordAt l.loc = use.marks (s.wordAt l.loc) := by
  rw [State.wordAt, State.touch_mem h hl]
  split
  · rename_i hset
    rw [Bool.and_eq_true, beq_iff_eq] at hset
    rw [numAt_putAll, hset.2, Nat.mod_eq_of_lt (b := 256 ^ 8) (BitVec.isLt _), BitVec.ofNat_toNat, BitVec.setWidth_eq]
    exact .inr rfl
  · exact .inl rfl

/-! ## A store that lands at its home -/

theorem numAt_congr {m m' : List Host.Cell} {a n : Nat} (h : ∀ i < n, byteAt m (a + i) = byteAt m' (a + i)) :
    numAt m a n = numAt m' a n := by
  rw [numAt, numAt, lookAll_eq, lookAll_eq]
  exact congrArg natLE (List.map_congr_left fun i hi => h i (List.mem_range.1 hi))

/-- The runs of a list of bytes, line by line, put into memory. -/
def putRuns (m : List Host.Cell) (loc : Nat) (bs : List Byte) : List Host.Cell :=
  (lineRuns loc bs.length).foldl (fun m r => putAll 0 m r.1 ((bs.drop (r.1 - loc)).take r.2)) m

theorem byteAt_putRuns (m : List Host.Cell) (loc x : Nat) (bs : List Byte) :
    byteAt (putRuns m loc bs) x = if loc ≤ x ∧ x < loc + bs.length then bs.getD (x - loc) 0 else byteAt m x := by
  unfold putRuns lineRuns
  dsimp only
  generalize hk : min bs.length (128 - loc % 128) = k
  split
  · rw [List.foldl_nil, if_neg (by omega)]
  · split
    · rename_i _ hall
      rw [List.foldl_cons, List.foldl_nil, Nat.sub_self, List.drop_zero, List.take_length, byteAt_putAll]
    · rw [List.foldl_cons, List.foldl_cons, List.foldl_nil, Nat.sub_self, List.drop_zero, Nat.add_sub_cancel_left,
        byteAt_putAll, byteAt_putAll, List.length_take, List.length_take, List.length_drop]
      simp only [List.getD_eq_getElem?_getD, List.getElem?_take, List.getElem?_drop]
      by_cases hin : loc ≤ x ∧ x < loc + bs.length
      · rw [if_pos hin]
        by_cases hsecond : loc + k ≤ x
        · rw [if_pos (by omega), if_pos (by omega), show k + (x - (loc + k)) = x - loc by omega]
        · rw [if_neg (by omega), if_pos (by omega), if_pos (by omega)]
      · rw [if_neg hin, if_neg (by omega), if_neg (by omega)]

theorem State.quiet_l1Update {s : State} {core : Nat} (h : s.quiet core) (loc : Nat) (bs : List Byte) :
    (s.l1Update core loc bs).quiet core := State.quiet_modCore h _ (fun _ => rfl) fun _ => rfl

theorem State.quiet_writeLoc {s : State} {core : Nat} (h : s.quiet core) (a : Nat) (bs : List Byte) :
    (s.writeLoc a bs).quiet core := by
  rwa [State.quiet, State.writeLoc_core]

/-- Bytes of a store within one line land there and in the line of L1 (R185). -/
def State.landRun (core : Nat) (part : Nat × Nat → List Byte) (s : State) (r : Nat × Nat) : State :=
  ((s.drainAt core r.1).l1Update core r.1 (part r)).writeLoc r.1 (part r)

theorem State.foldl_landRun {core : Nat} (part : Nat × Nat → List Byte) (l : List (Nat × Nat)) {s : State}
    (h : s.Unprotected) (hq : s.quiet core) :
    (l.foldl (State.landRun core part) s).mem = l.foldl (fun m r => putAll 0 m r.1 (part r)) s.mem ∧
      (l.foldl (State.landRun core part) s).teams = s.teams := by
  induction l generalizing s with
  | nil => exact ⟨rfl, rfl⟩
  | cons r l ih =>
    have hrun : State.landRun core part s r = (s.l1Update core r.1 (part r)).writeLoc r.1 (part r) := by
      rw [State.landRun, State.drainAt_of_quiet hq]
    have hfree : (s.l1Update core r.1 (part r)).Unprotected := State.unprotected_of_ckpt h rfl
    obtain ⟨hmem, hteams⟩ := ih (hrun ▸ State.unprotected_writeLoc hfree _ _)
      (hrun ▸ State.quiet_writeLoc (State.quiet_l1Update hq _ _) _ _)
    rw [List.foldl_cons, List.foldl_cons, hmem, hteams, hrun, State.writeLoc_mem_of_unprotected hfree, State.writeLoc_teams]
    exact ⟨rfl, rfl⟩

/-- A store that does not combine, of a core with nothing buffered, puts its bytes into memory and changes no team. -/
theorem State.storeMem_local {s : State} {c : Ctx} (h : s.Unprotected) (hq : s.quiet c.core) (id : Nat) {p : Phys}
    (hcomb : p.combines = false) (hpeer : p.peer = none) (bs : List Byte) :
    (s.storeMem c id p bs).mem = putRuns s.mem p.loc bs ∧ (s.storeMem c id p bs).teams = s.teams := by
  have hruns : s.storeMem c id p bs =
      (lineRuns p.loc bs.length).foldl (State.landRun c.core fun r => (bs.drop (r.1 - p.loc)).take r.2) s := by
    simp only [State.storeMem, hcomb, hpeer, Option.isSome_none, Bool.false_eq_true, if_false]
    rfl
  rw [hruns]
  exact State.foldl_landRun _ _ h hq

/-! ## A store that combines -/

/-- The line that a core's buffer opens for some bytes (R269). -/
def Core.freshLine (k : Core) (tick : Nat) (r : TeamRef) (id loc : Nat) (bs : List Byte) : WcLine :=
  ({ loc := lineOf loc, entered := tick, age := (k.wcage.toNat + 1) * 1000 } : WcLine).merge r id (loc - lineOf loc) bs

theorem find?_zipIdx {α : Type} (l : List α) {i : Nat} (hi : i < l.length) (n : Nat) :
    ((l.zipIdx n).find? fun x => x.2 == n + i) = some (l[i], n + i) := by
  induction l generalizing i n with
  | nil => exact absurd hi (Nat.not_lt_zero i)
  | cons a l ih =>
    cases i with
    | zero => simp
    | succ i =>
      have hrest := ih (Nat.lt_of_succ_lt_succ hi) (n + 1)
      rw [show n + 1 + i = n + (i + 1) by omega] at hrest
      rw [List.zipIdx_cons, List.find?_cons_of_neg (by simp), hrest]
      rfl

theorem Core.freshLine_byte (k : Core) (tick : Nat) (r : TeamRef) (id loc : Nat) (bs : List Byte) {i : Nat}
    (hi : i < bs.length) : (k.freshLine tick r id loc bs).byte? (loc % 128 + i) = some (bs.getD i 0) := by
  have hbytes : (k.freshLine tick r id loc bs).bytes =
      bs.zipIdx.map fun x => { off := loc % 128 + x.2, val := x.1, team := r } := by
    have hoff : loc - lineOf loc = loc % 128 := by unfold lineOf; omega
    simp [Core.freshLine, WcLine.merge, hoff]
  have hfind := find?_zipIdx bs hi 0
  rw [WcLine.byte?, hbytes, List.find?_map]
  have htest : ((fun b : WcByte => b.off == loc % 128 + i) ∘
      fun x : Byte × Nat => { off := loc % 128 + x.2, val := x.1, team := r }) = fun x => x.2 == 0 + i := by
    funext x
    simp
  rw [htest, hfind, Option.map_some, Option.map_some, ← List.getElem_eq_getD]

/-- Bytes that do not fill a line enter an empty buffer as a line of their own. -/
theorem State.buffer_of_quiet {s : State} {core : Nat} (hq : s.quiet core) (r : TeamRef) (id loc : Nat) {bs : List Byte}
    (h128 : bs.length ≠ 128) : s.buffer core r id loc bs =
      s.modCore core fun k => { k with wcb := k.wcb ++ [k.freshLine s.tick r id loc bs] } := by
  let l := (s.core core).freshLine s.tick r id loc bs
  let u := s.modCore core fun k => { k with wcb := k.wcb ++ [k.freshLine s.tick r id loc bs] }
  have hfull : (decide ((s.core core).wcb.length ≥ 64) && !(s.core core).wcb.any fun l => l.loc == lineOf loc) =
      false := by
    rw [hq.1]
    rfl
  have hnone : ((s.core core).wcb.find? fun l => l.loc == lineOf loc) = none := by
    rw [hq.1]
    rfl
  have hsome : ((u.core core).wcb.find? fun l => l.loc == lineOf loc) = some l := by
    rw [State.core_modCore, if_pos rfl, hq.1]
    exact List.find?_cons_of_pos (beq_self_eq_true (lineOf loc))
  have hlen : l.bytes.length = bs.length := by simp [l, Core.freshLine, WcLine.merge]
  unfold State.buffer
  simp only [hfull, Bool.false_eq_true, if_false, hnone]
  change (match (u.core core).wcb.find? fun l => l.loc == lineOf loc with
    | some l => if l.bytes.length = 128 then u.drain core else u
    | none => u) = u
  simp only [hsome, hlen, h128, if_false]

theorem State.storeMem_combining {s : State} {c : Ctx} (hq : s.quiet c.core) (id : Nat) {p : Phys}
    (hcomb : p.combines = true) {bs : List Byte} (hline : p.loc % 128 + bs.length ≤ 128) (h0 : 0 < bs.length)
    (h128 : bs.length ≠ 128) :
    (s.storeMem c id p bs).mem = s.mem ∧ ∃ l, ((s.storeMem c id p bs).core c.core).wcb = [l] ∧ l.loc = lineOf p.loc ∧
      ∀ i < bs.length, l.byte? (p.loc % 128 + i) = some (bs.getD i 0) := by
  have hone : s.storeMem c id p bs = (s.l1Update c.core p.loc bs).buffer c.core c.r.team id p.loc bs := by
    simp [State.storeMem, lineRuns_of_one hline, Nat.pos_iff_ne_zero.1 h0, hcomb]
  have hq' := State.quiet_l1Update hq p.loc bs
  rw [hone, State.buffer_of_quiet hq' _ _ _ h128]
  let u := s.l1Update c.core p.loc bs
  refine ⟨rfl, (u.core c.core).freshLine u.tick c.r.team id p.loc bs, ?_, rfl, fun i hi => Core.freshLine_byte _ _ _ _ _ _ hi⟩
  rw [State.core_modCore, if_pos rfl, hq'.1, List.nil_append]

/-! ## A store to scratchpad -/

theorem State.journal_mem (s : State) (r : TeamRef) (u : UnitRef) : (s.journal r u).mem = s.mem := by
  obtain ⟨teams, h⟩ := s.journal_eq r u
  rw [h]

theorem State.writeScratch_mem (s : State) (r : TeamRef) (o : Nat) (bs : List Byte) (old : Bool) :
    (s.writeScratch r o bs old).mem = s.mem := by
  unfold State.writeScratch
  dsimp only
  rw [State.evaluate_mem, State.modTeam_mem]
  exact iteInduction (motive := fun u : State => u.mem = s.mem) (fun _ => rfl) fun _ =>
    foldl_keeps (·.mem) (fun s l => s.journal_mem r (.line l)) _ s

theorem State.scratchStore_mem {s : State} {r : TeamRef} {t : Team} (h : s.team? r = some t) (hp : t.pendingLines = [])
    (o : Nat) (bs : List Byte) : (s.scratchStore r o bs).mem = s.mem := by
  have hskip (u : State) (a : Nat) (l : List Byte) : (if l.isEmpty then u else u.writeScratch r a l).mem = u.mem :=
    iteInduction (motive := fun v : State => v.mem = u.mem) (fun _ => rfl) fun _ => u.writeScratch_mem r a l false
  rw [State.scratchStore, State.settleLines_of_none_pending h hp]
  exact (hskip _ _ _).trans (hskip _ _ _)

/-- Settles O26: the touched leaf, then the runs of the store at its home, in the buffer, or in scratchpad. -/
theorem storesTouchOnlyTheirBytes : Obligations.StoresTouchOnlyTheirBytes := by
  unfold Obligations.StoresTouchOnlyTheirBytes
  intro s c p bs hfree t part
  refine ⟨fun va q hhome hpeer hweak hwc hw hf hpos _ => ?home, fun va q hhome hcomb hline h0 h16 hpos hw hf => ?buffer,
    fun o u hhome hu hp hpos => ?scratch⟩
  case home =>
    let u := State.touch { s with nextId := s.nextId + 1 } c.space .store va
    have ht : t = u.storeMem c s.nextId q part := by simp [t, State.storeSpans, hhome, hweak, u, part]
    have hlen : part.length = p.len := by simp [part]; omega
    have hcomb : q.combines = false := by simp [Phys.combines, hwc, hpeer]
    have hquiet : State.quiet { s with nextId := s.nextId + 1 } c.core := ⟨hw, hf⟩
    obtain ⟨hmem, hteams⟩ := State.storeMem_local (State.unprotected_touch (s := { s with nextId := s.nextId + 1 }) hfree
      c.space .store va) (State.quiet_touch hquiet _ _ _) s.nextId hcomb hpeer part
    have hbyte (x : Nat) : byteAt t.mem x = if q.loc ≤ x ∧ x < q.loc + p.len then part.getD (x - q.loc) 0
        else byteAt (s.touch c.space .store va).mem x := by
      rw [ht, hmem, byteAt_putRuns, hlen, State.touch_mem_nextId hfree]
    refine ⟨fun i hi => ?_, fun a ha hleaf => ?_, fun l hl hapart => ?_, ?_⟩
    · rw [hbyte, if_pos (by omega), Nat.add_sub_cancel_left]
    · rw [hbyte, if_neg (by omega), State.byteAt_touch hfree hleaf]
    · have hword : t.wordAt l.loc = (s.touch c.space .store va).wordAt l.loc := by
        rw [State.wordAt, State.wordAt, numAt_congr fun i hi => (hbyte (l.loc + i)).trans (if_neg (by omega))]
      rw [hword, ← Use.marks_store]
      exact State.wordAt_touch hfree hl
    · rw [ht, hteams, State.touch_teams]
  case buffer =>
    let u := State.touch { s with nextId := s.nextId + 1 } c.space .store va
    have hstrong : q.type ≠ .strong := fun h => by simp [Phys.combines, h] at hcomb
    have ht : t = u.storeMem c s.nextId q part := by simp [t, State.storeSpans, hhome, hstrong, u, part]
    have hlen : part.length = p.len := by simp [part]; omega
    have hquiet : State.quiet { s with nextId := s.nextId + 1 } c.core := ⟨hw, hf⟩
    obtain ⟨hmem, l, hl, hloc, hbyte⟩ := State.storeMem_combining (State.quiet_touch hquiet _ .store va) s.nextId hcomb
      (bs := part) (by omega) (by omega) (by omega)
    rw [ht]
    exact ⟨hmem.trans (State.touch_mem_nextId hfree _ _ _ _), l, hl, hloc, fun i hi => hbyte i (by omega)⟩
  case scratch =>
    have ht : t = State.scratchStore { s with nextId := s.nextId + 1 } c.r.team o part := by
      simp [t, State.storeSpans, hhome, part]
    have hlen : part.length = p.len := by simp [part]; omega
    obtain ⟨v, hv, hbyte⟩ := State.team?_scratchStore (s := { s with nextId := s.nextId + 1 }) hu hp o part
    rw [ht]
    exact ⟨State.scratchStore_mem (s := { s with nextId := s.nextId + 1 }) hu hp o part, v, hv, hlen ▸ hbyte⟩

end Sys2Proof.Machine
end

section
/-!
Operations of lodge harts, peers and PCIe agents on HBM (R164, R170, R197, R334, R399): O51.
-/
namespace Sys2Proof.Machine

/-! ## Reservations under writes (R197) -/

theorem look_map {α : Type} (d : α) (f : α → α) (hf : f d = d) (m : Sparse α) (k : Nat) :
    look d (m.map fun x => (x.1, f x.2)) k = f (look d m k) := by
  induction m with
  | nil => exact hf.symm
  | cons x m ih =>
    rw [List.map_cons, look, look, ih]
    split <;> rfl

theorem Hart.overwritten_reservation (h : Hart) (a n : Nat) :
    (h.overwritten a n).reservation = none ∨ (h.overwritten a n).reservation = h.reservation := by
  unfold Hart.overwritten
  split
  · split
    · exact .inl rfl
    · exact .inr rfl
  · exact .inr rfl

/-- The reservation that a hart holds. -/
def State.reservation (s : State) (hart : Nat) : Option (Nat × Nat) := (s.hartAt hart).reservation

theorem State.reservation_fireOne (s : State) (w : Waiter) (hart : Nat) : (fireOne s w).reservation hart = s.reservation hart := by
  unfold fireOne
  split
  · rfl
  · rw [State.userEvent, State.reservation, State.hartAt_modHart]
    split
    · subst_vars
      rfl
    · rfl
  · rfl

theorem State.reservation_evaluate (s : State) (p : CounterRef → Bool) (hart : Nat) :
    (s.evaluate p).reservation hart = s.reservation hart :=
  foldl_keeps (·.reservation hart) (fun s w => s.reservation_fireOne w hart) _ _

theorem State.throughSlice_harts (s : State) (a n : Nat) (w : Bool) : (s.throughSlice a n w).harts = s.harts := by
  unfold State.throughSlice
  split
  · exact foldl_keeps (·.harts) (f := fun s l => s.modCol _ _) (fun _ _ => rfl) _ _
  · rfl

/-- A write at its place ends the reservations that it overlaps and leaves the others. -/
theorem State.reservation_putLoc (s : State) (a : Nat) (bs : List Byte) (hart : Nat) :
    (s.putLoc a bs).reservation hart = ((s.hartAt hart).overwritten a bs.length).reservation := by
  rw [State.putLoc, State.reservation_evaluate, State.reservation, State.hartAt, State.throughSlice_harts,
    look_map {} (Hart.overwritten a bs.length) rfl]
  rfl

/-- No reservation of a hart but one that it may lose. -/
def State.mayHold (s : State) (hart : Nat) (r : Nat × Nat) : Prop := s.reservation hart = none ∨ s.reservation hart = some r

theorem State.mayHold_putLoc {s : State} {hart : Nat} {r : Nat × Nat} (h : s.mayHold hart r) (a : Nat) (bs : List Byte) :
    (s.putLoc a bs).mayHold hart r := by
  rw [State.mayHold, State.reservation_putLoc]
  rcases (s.hartAt hart).overwritten_reservation a bs.length with hnone | hsame
  · exact .inl hnone
  · rw [hsame]
    exact h

theorem State.wakePage_harts (s : State) (ins : Bool) (p : Nat) : (s.wakePage ins p).harts = s.harts := by
  unfold State.wakePage State.demand State.wakeRegion
  dsimp only
  split
  · split <;> rfl
  · rfl

theorem State.mayHold_of_harts {s t : State} {hart : Nat} {r : Nat × Nat} (h : s.mayHold hart r) (ht : t.harts = s.harts) :
    t.mayHold hart r := by
  rwa [State.mayHold, State.reservation, State.hartAt, ht]

theorem State.mayHold_copyAside {s : State} {hart : Nat} {r : Nat × Nat} (h : s.mayHold hart r) (i : Nat) (ins : Bool)
    (p : Nat) : (s.copyAside i ins p).mayHold hart r := by
  have hwake := State.mayHold_of_harts h (s.wakePage_harts ins p)
  unfold State.copyAside
  dsimp only
  split
  · split
    · exact State.mayHold_putLoc hwake _ _
    · exact hwake
  · exact h

theorem State.mayHold_captureFault {s : State} {hart : Nat} {r : Nat × Nat} (h : s.mayHold hart r) (a : Nat) :
    (captureFault s a).mayHold hart r := by
  unfold captureFault
  split
  · exact h
  · refine foldl_pred (P := fun s => s.mayHold hart r) (fun s x hs => ?_) _ _ h
    exact iteInduction (motive := fun t : State => t.mayHold hart r) (fun _ => State.mayHold_copyAside hs _ _ _) fun _ => hs

/-- A write over a reserved word ends the reservation. -/
theorem State.reservation_writeLoc {s : State} {hart a n : Nat} (h : s.reservation hart = some (a, n)) {bs : List Byte}
    (hn : 0 < n) (hlen : bs.length = n) : (s.writeLoc a bs).reservation hart = none := by
  have hold : State.mayHold ((pagesOf a bs.length).foldl captureFault s) hart (a, n) :=
    foldl_pred (P := fun s => s.mayHold hart (a, n)) (fun _ x hs => State.mayHold_captureFault hs x) _ _ (.inr h)
  rw [State.writeLoc, State.reservation_putLoc, Hart.overwritten]
  rcases hold with hnone | hsome
  · rw [show (State.hartAt _ hart).reservation = none from hnone]
    exact hnone
  · rw [show (State.hartAt _ hart).reservation = some (a, n) from hsome]
    dsimp only
    rw [if_pos (by simp; omega)]

/-! ## Harts -/

theorem State.hartAt_hartLoaded (s : State) (hart : Nat) (v : DWord) :
    (s.hartLoaded hart v).hartAt hart = { s.hartAt hart with loaded := v } := by
  rw [State.hartLoaded, State.hartAt_modHart, if_pos rfl]

/-- A hart that runs performs at its place an operation that lies in HBM. -/
theorem exec_hartAccess {s : State} {hart addr : Nat} {op : OuterOp} (hr : s.hartRuns hart = true)
    (hop : onlyFabric op = false) (hf : (op == .fence) = false) (ha : addr + outerBytes op ≤ 2 ^ 40) :
    exec (.lodgeHartMemoryAccess hart addr op) s = .next (s.hartHbm hart addr op) := by
  change Host.Outcome.next (if !s.hartRuns hart || onlyFabric op || op == .fence then s
    else if addr + outerBytes op ≤ deviceBase then s.hartHbm hart addr op else _) = _
  rw [hr, hop, hf, if_neg (by decide), if_pos (show addr + outerBytes op ≤ deviceBase from ha)]

/-- Bytes of a word as they stand are its value. -/
theorem State.natLE_bytesAt_eight (s : State) (a : Nat) : BitVec.ofNat 64 (natLE ((s.bytesAt a 8).take 8)) = s.wordAt a := by
  rw [State.bytesAt, List.take_of_length_le (length_lookAll 0 s.mem a 8).le]
  rfl

theorem State.wordAt_hartLoaded (s : State) (hart : Nat) (v : DWord) (a : Nat) :
    (s.hartLoaded hart v).wordAt a = s.wordAt a := rfl

section
variable {s : State} {hart addr : Nat} (hclean : s.poisoned addr 8 = []) (halign : addr % 8 = 0)

include hclean in
theorem State.hartHbm_load : s.hartHbm hart addr (.load 8) = (s.throughSlice addr 8 false).hartLoaded hart (s.wordAt addr) := by
  have hgo : ¬(!(s.poisoned addr 8).isEmpty) = true := by rw [hclean]; decide
  rw [← State.natLE_bytesAt_eight]
  exact if_neg hgo

include hclean halign in
theorem State.hartHbm_amoAdd (v : DWord) : s.hartHbm hart addr (.amoAdd v) =
    (s.writeNum addr 8 (s.wordAt addr + v).toNat).hartLoaded hart (s.wordAt addr) := by
  simp [State.hartHbm, State.hartAmo, State.hartWord, hclean, halign]

include hclean halign in
theorem State.hartHbm_loadReserved : s.hartHbm hart addr .loadReserved =
    ((s.throughSlice addr 8 false).hartLoaded hart (s.wordAt addr)).modHart hart fun h => { h with reservation := some (addr, 8) } := by
  simp [State.hartHbm, State.hartReserve, State.hartWord, hclean, halign]

include halign in
theorem State.hartHbm_storeConditional_held (h : (s.hartAt hart).reservation = some (addr, 8)) (v : DWord) :
    s.hartHbm hart addr (.storeConditional v) = (s.writeNum addr 8 v.toNat).hartLoaded hart 0 := by
  simp [State.hartHbm, State.hartConditional, halign, h]

include halign in
theorem State.hartHbm_storeConditional_lost (h : (s.hartAt hart).reservation ≠ some (addr, 8)) (v : DWord) :
    s.hartHbm hart addr (.storeConditional v) = (s.hartLoaded hart 1).modHart hart fun h => { h with reservation := none } := by
  simp [State.hartHbm, State.hartConditional, halign, h]

end

/-! ## Peers and PCIe agents -/

theorem outerInHbm_store {addr : Nat} {bs : List Byte} (h : addr + bs.length ≤ 2 ^ 40) : outerInHbm addr (.store bs) = true := by
  unfold outerInHbm
  exact Bool.and_eq_true_iff.2 ⟨decide_eq_true h, rfl⟩

theorem outerInHbm_amoAdd {addr : Nat} (h : addr + 8 ≤ 2 ^ 40) (ha : addr % 8 = 0) (v : DWord) :
    outerInHbm addr (.amoAdd v) = true := by
  unfold outerInHbm
  exact Bool.and_eq_true_iff.2 ⟨decide_eq_true h, beq_iff_eq.2 ha⟩

/-- A plain request of a peer in HBM, while a port is live, acts at its home. -/
theorem exec_peerRequest {s : State} {pkg addr : Nat} {op : OuterOp} (hpkg : pkg ≠ s.pkgid.toNat) (hport : s.anyPort = true)
    (hbm : outerInHbm addr op = true) (hop : onlyFabric op = false) :
    exec (.peerRequest pkg addr op) s = .next (s.outer addr op) := by
  have hgo : (pkg == s.pkgid.toNat || !s.anyPort || !outerInHbm addr op) = false := by simp [hpkg, hport, hbm]
  have hexec : exec (.peerRequest pkg addr op) s = execPeerRequest pkg addr op s := rfl
  simp only [hexec, execPeerRequest, hgo, Bool.false_eq_true, if_false]
  split
  case h_1 | h_2 | h_3 => cases hop
  case h_4 => rfl

/-- A plain request of a PCIe agent in HBM, whose link is up, acts at its home. -/
theorem exec_pcieRequest {s : State} {port addr : Nat} {op : OuterOp} (hlink : s.pcieDown.contains port = false)
    (hbm : outerInHbm addr op = true) (hop : onlyFabric op = false) :
    exec (.pcieInboundRequest port addr op) s = .next (s.outer addr op) := by
  have hexec : exec (.pcieInboundRequest port addr op) s = execPcieInboundRequest port addr op s := rfl
  simp only [hexec, execPcieInboundRequest, hlink, hop, hbm, Bool.not_true, Bool.or_false, Bool.false_eq_true, if_false]

/-- Settles O51: each operation at its home, by the agent's own access; a reservation ends with the word it stands on. -/
theorem outerAgentsActAtTheHome : Obligations.OuterAgentsActAtTheHome := by
  unfold Obligations.OuterAgentsActAtTheHome
  intro s agent addr bs v
  refine ⟨fun hr halign hbm hclean => ?hart, fun hbm => ?stores, fun hpkg hport halign hbm hclean => ?peer,
    fun core asid root va p hmiss hx => ?walk, fun asid va hacked => congrArg Host.Outcome.next (if_pos hacked),
    fun asid va hacked => congrArg Host.Outcome.next (if_neg (by simp [hacked]))⟩
  case hart =>
    refine ⟨⟨_, exec_hartAccess hr rfl rfl hbm, ?load⟩, ⟨_, exec_hartAccess hr rfl rfl hbm, ?add⟩,
      ⟨_, exec_hartAccess hr rfl rfl hbm, ?reserve⟩, fun hres => ⟨_, exec_hartAccess hr rfl rfl hbm, ?held⟩,
      fun hres => ⟨_, exec_hartAccess hr rfl rfl hbm, ?lost⟩⟩
    case load =>
      rw [State.hartHbm_load hclean, State.hartAt_hartLoaded]
      exact ⟨rfl, s.throughSlice_mem addr 8 false⟩
    case add =>
      rw [State.hartHbm_amoAdd hclean halign, State.hartAt_hartLoaded, State.wordAt_hartLoaded, State.wordAt_writeNum]
      exact ⟨rfl, rfl⟩
    case reserve =>
      rw [State.hartHbm_loadReserved hclean halign, State.hartAt_modHart, if_pos rfl, State.hartAt_hartLoaded]
      exact ⟨rfl, rfl⟩
    case held =>
      rw [State.hartHbm_storeConditional_held halign hres, State.hartAt_hartLoaded, State.wordAt_hartLoaded,
        State.wordAt_writeNum]
      exact ⟨rfl, rfl, State.reservation_writeLoc hres (by decide) (length_bytesLE _ _)⟩
    case lost =>
      rw [State.hartHbm_storeConditional_lost halign hres, State.hartAt_modHart, if_pos rfl, State.hartAt_hartLoaded]
      exact ⟨rfl, rfl⟩
  case stores =>
    have hin := outerInHbm_store hbm
    exact ⟨fun hr => exec_hartAccess hr rfl rfl hbm, fun hlink => exec_pcieRequest hlink hin rfl,
      fun hpkg hport => exec_peerRequest hpkg hport hin rfl⟩
  case peer =>
    refine ⟨_, exec_peerRequest hpkg hport (outerInHbm_amoAdd hbm halign v) rfl, ?_⟩
    have hupdate : s.outer addr (.amoAdd v) = s.writeNum addr 8 (s.wordAt addr + v).toNat := by
      have hgo : (s.poisoned addr 8).isEmpty = true := by rw [hclean]; rfl
      exact if_pos hgo
    rw [hupdate, State.wordAt_writeNum]
  case walk =>
    refine congrArg Host.Outcome.next (if_pos ?_)
    rw [hmiss, List.any_cons, hx]
    rfl

end Sys2Proof.Machine
end

section
/-!
Registers of a column under the device's own writes (R271, R321, R419, R421): what memory, events and error records change of
a column, and what they leave as it was.
-/
namespace Sys2Proof.Machine

/-! ## Parts of a column -/

/-- A part of a column that tells nothing of its slice, its launch queue, its events and its error records. -/
structure Column.Beside {β : Type} (g : Column → β) : Prop where
  slice : ∀ x l, g { x with slice := l } = g x
  queue : ∀ x l, g { x with queue := l } = g x
  held : ∀ x l, g { x with held := l } = g x
  evovf : ∀ x v, g { x with evovf := v } = g x
  elovf : ∀ x v, g { x with elovf := v } = g x
  record : ∀ x v l, g { x with elwidx := v, elRecent := l } = g x

/-- Nor of its insole banks and of the shank under test. -/
structure Column.BesideBanks {β : Type} (g : Column → β) : Prop where
  banks : ∀ x l m, g { x with asleep := l, lastBank := m } = g x
  shanks : ∀ x b l, g { x with shBusy := b, shStopped := l } = g x

section
variable {β : Type} {g : Column → β} {c : Nat}

theorem State.col_modCol_keeps {f : Column → Column} (hf : ∀ x, g (f x) = g x) (s : State) (d : Nat) :
    g ((s.modCol d f).col c) = g (s.col c) := by
  rw [State.col_modCol]
  split
  · subst_vars
    exact hf _
  · rfl

theorem State.col_setCol_keeps {s : State} {d : Nat} {x : Column} (hx : g x = g (s.col d)) :
    g ((s.setCol d x).col c) = g (s.col c) := by
  rw [State.col_setCol]
  split
  · subst_vars
    exact hx
  · rfl

/-! ## Writes of memory -/

theorem fireOne_col (hg : Column.Beside g) (s : State) (w : Waiter) : g ((fireOne s w).col c) = g (s.col c) := by
  unfold fireOne
  split
  · rename_i seq _
    have hmap := look_map ({} : Column)
      (fun x => { x with queue := x.queue.map fun l => if l.seq == seq then { l with gate := none } else l }) rfl s.columns c
    exact (congrArg g hmap).trans (hg.queue _ _)
  · rfl
  · rfl

theorem State.evaluate_col (hg : Column.Beside g) (s : State) (p : CounterRef → Bool) :
    g ((s.evaluate p).col c) = g (s.col c) := foldl_keeps (fun s => g (s.col c)) (fireOne_col hg) _ _

theorem State.throughSlice_col (hg : Column.Beside g) (s : State) (a n : Nat) (w : Bool) :
    g ((s.throughSlice a n w).col c) = g (s.col c) := by
  unfold State.throughSlice
  split
  · exact foldl_keeps (fun s => g (s.col c)) (fun s l => s.col_modCol_keeps (fun x => hg.slice x _) _) _ _
  · rfl

theorem State.putLoc_col (hg : Column.Beside g) (s : State) (a : Nat) (bs : List Byte) :
    g ((s.putLoc a bs).col c) = g (s.col c) :=
  (State.evaluate_col hg _ _).trans (s.throughSlice_col hg a bs.length true)

theorem State.wakeRegion_col (hb : Column.BesideBanks g) (s : State) (r : Nat) : g ((s.wakeRegion r).col c) = g (s.col c) := by
  unfold State.wakeRegion
  split
  · rfl
  · exact s.col_modCol_keeps (fun x => hb.banks x _ _) _

theorem State.demand_col (hb : Column.BesideBanks g) (s : State) (o : Nat) : g ((s.demand o).col c) = g (s.col c) := by
  unfold State.demand
  dsimp only
  split
  · rfl
  · refine (State.col_modCol_keeps (fun x => ?_) _ _).trans (s.wakeRegion_col hb _)
    split
    · exact hb.shanks x _ _
    · rfl

/-- The checkpoint page of a location below the insole store lies in HBM. -/
theorem State.ckPageOf_low (s : State) {a : Nat} (h : a < insoleLoc 0) {ins : Bool} {page : Nat}
    (hp : s.ckPageOf a = some (ins, page)) : ins = false := by
  have hoff : s.insoleOff a = none := by
    have hregion : ¬(insoleLoc 0 ≤ a ∧ a < insoleLoc insoleBytes) := fun hr => absurd hr.1 (Nat.not_le.2 h)
    have hspill : ¬spillLoc 0 0 ≤ a := by
      unfold spillLoc
      unfold insoleLoc at h
      omega
    rw [State.insoleOff, if_neg hregion, if_neg hspill]
  rw [State.ckPageOf, hoff] at hp
  split at hp
  · exact (Prod.mk.inj (Option.some.inj hp)).1.symm
  · cases hp

theorem State.copyAside_col (hg : Column.Beside g) {ins : Bool} (hp : ins = false ∨ Column.BesideBanks g) (s : State)
    (i page : Nat) : g ((s.copyAside i ins page).col c) = g (s.col c) := by
  have hwake : g ((s.wakePage ins page).col c) = g (s.col c) := by
    unfold State.wakePage
    split
    · rcases hp with hlow | hb
      · simp_all
      · exact s.demand_col hb _
    · rfl
  unfold State.copyAside
  dsimp only
  split
  · split
    · exact (State.putLoc_col hg _ _ _).trans hwake
    · exact hwake
  · rfl

theorem captureFault_col (hg : Column.Beside g) {a : Nat} (hp : a < insoleLoc 0 ∨ Column.BesideBanks g) (s : State) :
    g ((captureFault s a).col c) = g (s.col c) := by
  unfold captureFault
  split
  · rfl
  · rename_i ins page hpage
    refine foldl_keeps (fun s => g (s.col c)) (fun s x => ?_) _ _
    refine iteInduction (motive := fun t : State => g (t.col c) = g (s.col c)) (fun _ => ?_) fun _ => rfl
    exact State.copyAside_col hg (hp.imp_left fun h => State.ckPageOf_low _ h hpage) s _ _

theorem lt_of_mem_pagesOf {a n x : Nat} (h : x ∈ pagesOf a n) : x < a + n := by
  unfold pagesOf at h
  split at h
  · cases h
  · obtain ⟨i, hi, rfl⟩ := List.mem_map.1 h
    have hi := List.mem_range.1 hi
    omega

/-- A write of memory, below the insole store or for a part that banks do not change. -/
theorem State.writeLoc_col (hg : Column.Beside g) {a : Nat} {bs : List Byte}
    (hp : a + bs.length ≤ insoleLoc 0 ∨ Column.BesideBanks g) (s : State) :
    g ((s.writeLoc a bs).col c) = g (s.col c) := by
  refine (State.putLoc_col hg _ _ _).trans ?_
  refine List.foldlRecOn _ _ (motive := fun u : State => g (u.col c) = g (s.col c)) rfl fun u hu x hx => ?_
  refine (captureFault_col hg (hp.imp_left fun h => ?_) u).trans hu
  exact (lt_of_mem_pagesOf hx).trans_le h

/-! ## Events and error records -/

theorem EventRecord.length_bytes (e : EventRecord) : e.bytes.length = 64 := by
  simp [EventRecord.bytes]

theorem ErrorNote.length_bytes (e : ErrorNote) (tick : Nat) : (e.bytes tick).length = 64 := by
  simp [ErrorNote.bytes]

theorem State.writeEvent_col (hg : Column.Beside g) (s : State) (d : Nat) (e : EventRecord) :
    g ((s.writeEvent d e).col c) = g (s.col c) := by
  have hplace : (s.col d).evbase.toNat + 64 * ((s.wordAt (s.col d).evprod.toNat).toNat % 2 ^ (s.col d).evsize) +
      e.bytes.length ≤ insoleLoc 0 := by
    rw [e.length_bytes]
    have hmod := Nat.mod_le (s.wordAt (s.col d).evprod.toNat).toNat (2 ^ (s.col d).evsize)
    unfold insoleLoc
    omega
  have hcount : (s.col d).evprod.toNat + 8 ≤ insoleLoc 0 := by
    unfold insoleLoc
    omega
  have hadd (u : State) : g ((u.addLoc (s.col d).evprod.toNat 1).col c) = g (u.col c) :=
    State.writeLoc_col hg (.inl (by simpa only [length_bytesLE] using hcount)) u
  have hrecord := State.writeLoc_col (c := c) hg (.inl hplace) s
  unfold State.writeEvent
  dsimp only
  split
  all_goals exact (hadd _).trans hrecord

theorem State.event_col (hg : Column.Beside g) (s : State) (d : Nat) (e : EventRecord) :
    g ((s.event d e).col c) = g (s.col c) := by
  unfold State.event
  dsimp only
  split
  · split
    · exact State.col_setCol_keeps (hg.held _ _)
    · exact State.col_setCol_keeps (hg.evovf _ _)
  · exact s.writeEvent_col hg _ _

/-- An error record, of the shank tester or for a part that banks do not change. -/
theorem State.logError_col (hg : Column.Beside g) {e : ErrorNote} (hp : e.level = 7 ∨ Column.BesideBanks g)
    (s : State) (d : Nat) : g ((s.logError d e).col c) = g (s.col c) := by
  unfold State.logError
  dsimp only
  split
  · rename_i r hr
    rcases hp with h7 | hb
    · simp [h7] at hr
    · exact State.writeLoc_col hg (.inr hb) s
  · refine (iteInduction (motive := fun t : State => g (t.col c) = g (State.col (ite _ _ _) c))
      (fun _ => State.event_col hg _ _ _) fun _ => rfl).trans ?_
    split
    · rfl
    · split
      · exact State.col_setCol_keeps (hg.elovf _ _)
      · refine (State.col_modCol_keeps (fun x => hg.record x _ _) _ _).trans (State.writeLoc_col hg (.inl ?_) s)
        rw [e.length_bytes]
        have hmod := Nat.mod_le (s.col d).elwidx.toNat (2 ^ (s.col d).ellsz)
        unfold insoleLoc
        omega

end

end Sys2Proof.Machine
end

section
/-!
Errors in memories (R179, R321, R418 to R421): scrub visits, the shank tester, and displaced regions: O48.
-/
namespace Sys2Proof.Machine

/-! ## What a scrub visit finds -/

theorem State.wakeCore_mem (s : State) (k : Nat) : (s.wakeCore k).mem = s.mem := by
  unfold State.wakeCore
  dsimp only
  split <;> rfl

theorem State.wakeCore_poison (s : State) (k : Nat) : (s.wakeCore k).poison = s.poison := by
  unfold State.wakeCore
  dsimp only
  split <;> rfl

theorem State.wakeCore_columns (s : State) (k : Nat) : (s.wakeCore k).columns = s.columns := by
  unfold State.wakeCore
  dsimp only
  split <;> rfl

theorem State.wakeCore_now (s : State) (k : Nat) : (s.wakeCore k).now = s.now := by
  unfold State.wakeCore
  dsimp only
  split <;> rfl

theorem State.wakeRegion_mem (s : State) (r : Nat) : (s.wakeRegion r).mem = s.mem := by
  unfold State.wakeRegion
  split <;> rfl

theorem State.wakeRegion_poison (s : State) (r : Nat) : (s.wakeRegion r).poison = s.poison := by
  unfold State.wakeRegion
  split <;> rfl

theorem State.wakeRegion_now (s : State) (r : Nat) : (s.wakeRegion r).now = s.now := by
  unfold State.wakeRegion
  split <;> rfl

/-- A state that differs from another in the banks of a column and in what wakes alone. -/
structure State.Woken (s t : State) (col : Nat) : Prop where
  mem : t.mem = s.mem
  poison : t.poison = s.poison
  now : t.now = s.now
  col : ∀ {β : Type} {g : Column → β}, Column.BesideBanks g → g (t.col col) = g (s.col col)

theorem State.woken_scrubWakes (s : State) (col : Nat) (level : ScrubLevel) (place : Nat) :
    s.Woken (s.scrubWakes col level place) col := by
  have hcore : s.Woken (s.wakeCore place) col :=
    ⟨s.wakeCore_mem place, s.wakeCore_poison place, s.wakeCore_now place,
      fun {_ g} _ => congrArg (fun m => g (look {} m col)) (s.wakeCore_columns place)⟩
  cases level with
  | arrays => exact hcore
  | scratchpad => exact hcore
  | insole => exact ⟨s.wakeRegion_mem _, s.wakeRegion_poison _, s.wakeRegion_now _, fun hb => s.wakeRegion_col hb _⟩
  | slice => exact ⟨rfl, rfl, rfl, fun _ => rfl⟩
  | hbm => exact ⟨rfl, rfl, rfl, fun _ => rfl⟩

/-- The state in which a visit finds what it finds: the sweep has noted a unit, where there is one. -/
structure State.Visited (s t : State) (col : Nat) : Prop where
  mem : t.mem = s.mem
  poison : t.poison = s.poison
  col : ∀ {β : Type} {g : Column → β}, Column.BesideBanks g → (∀ x l, g { x with swept := l } = g x) →
    g (t.col col) = g (s.col col)

theorem State.Woken.visited {s t : State} {col : Nat} (h : s.Woken t col) : s.Visited t col :=
  ⟨h.mem, h.poison, fun hb _ => h.col hb⟩

theorem State.Woken.visited_noteSweep {s t : State} {col : Nat} (h : s.Woken t col) (level : ScrubLevel) (u : Nat ⊕ ErrorUnit) :
    s.Visited (t.noteSweep col level u) col :=
  ⟨h.mem, h.poison, fun hb hs => (t.col_modCol_keeps (fun x => hs x _) col).trans (h.col hb)⟩

theorem unit_beq_self (u : Nat ⊕ ErrorUnit) : (u == u) = true := by
  cases u with
  | inl n => exact beq_self_eq_true n
  | inr e => exact beq_self_eq_true e

/-- A note of a unit stands for the sweep under way. -/
theorem State.wasSwept_noteSweep {s t : State} {col : Nat} (h : s.Woken t col) (level : ScrubLevel) (u : Nat ⊕ ErrorUnit) :
    ((t.noteSweep col level u).col col).wasSwept level u (s.sweep col level) = true := by
  have hperiod : (t.col col).period level = (s.col col).period level :=
    h.col (g := fun x => x.period level) ⟨fun x _ _ => by cases level <;> rfl, fun x _ _ => by cases level <;> rfl⟩
  have hsweep : t.sweep col level = s.sweep col level := by
    rw [State.sweep, State.sweep, hperiod, State.tick, h.now]
    rfl
  rw [State.noteSweep, State.col_modCol, if_pos rfl, ← hsweep]
  have hself : ((level, u, t.sweep col level) == (level, u, t.sweep col level)) = true :=
    Bool.and_eq_true_iff.2 ⟨beq_self_eq_true level, Bool.and_eq_true_iff.2 ⟨unit_beq_self u, beq_self_eq_true _⟩⟩
  exact Bool.or_eq_true_iff.2 (.inl hself)

/-- A visit of a unit that the sweep has not visited finds what it finds after noting it. -/
theorem State.visitUnit_eq {s : State} {col : Nat} {level : ScrubLevel} {place : Nat}
    (h : ∀ u, scrubUnit level place = some u → (s.col col).wasSwept level (.inl u) (s.sweep col level) = false) :
    ∃ t unit, (∀ found, s.visitUnit col level place found = t.scrubFinds col level place unit found) ∧ s.Visited t col ∧
      ∀ u, scrubUnit level place = some u → (t.col col).wasSwept level (.inl u) (s.sweep col level) = true := by
  cases hu : scrubUnit level place with
  | some u =>
    have hwoken := s.woken_scrubWakes col level place
    refine ⟨(s.scrubWakes col level place).noteSweep col level (.inl u), none, fun found => ?_, hwoken.visited_noteSweep _ _,
      fun v hv => ?_⟩
    · simp only [State.visitUnit, hu, h u hu, Bool.false_eq_true, if_false]
    · cases hv
      exact State.wasSwept_noteSweep hwoken level (.inl u)
  | none =>
    let l := s.unswept col place level
    have hwoken : s.Woken ((s.someOf l).2.scrubWakes col level place) col :=
      let w := (s.someOf l).2.woken_scrubWakes col level place
      ⟨w.mem, w.poison, w.now, w.col⟩
    cases hunit : errorUnit (s.someOf l).1 with
    | none =>
      refine ⟨_, (s.someOf l).1, fun found => ?_, hwoken.visited, nofun⟩
      simp only [State.visitUnit, hu, l] at hunit ⊢
      rw [hunit]
    | some u =>
      refine ⟨_, (s.someOf l).1, fun found => ?_, hwoken.visited_noteSweep level (.inr u), nofun⟩
      simp only [State.visitUnit, hu, l] at hunit ⊢
      rw [hunit]

/-! ## Counts of errors (R419) -/

theorem beside_corrected : Column.Beside (·.corrected) :=
  ⟨fun _ _ => rfl, fun _ _ => rfl, fun _ _ => rfl, fun _ _ => rfl, fun _ _ => rfl, fun _ _ _ => rfl⟩

theorem besideBanks_corrected : Column.BesideBanks (·.corrected) := ⟨fun _ _ _ => rfl, fun _ _ _ => rfl⟩

theorem beside_uncorrected : Column.Beside (·.uncorrected) :=
  ⟨fun _ _ => rfl, fun _ _ => rfl, fun _ _ => rfl, fun _ _ => rfl, fun _ _ => rfl, fun _ _ _ => rfl⟩

theorem besideBanks_uncorrected : Column.BesideBanks (·.uncorrected) := ⟨fun _ _ _ => rfl, fun _ _ _ => rfl⟩

theorem State.corrected_addCorrected (s : State) (col n : Nat) :
    ((s.addCorrected col n).col col).corrected = (s.col col).corrected + BitVec.ofNat 64 n := by
  refine (State.evaluate_col beside_corrected _ _).trans ?_
  rw [State.col_modCol, if_pos rfl]

theorem State.uncorrected_addUncorrected (s : State) (col n : Nat) :
    ((s.addUncorrected col n).col col).uncorrected = (s.col col).uncorrected + BitVec.ofNat 64 n := by
  refine (State.evaluate_col beside_uncorrected _ _).trans ?_
  rw [State.col_modCol, if_pos rfl]

/-- A corrected error counts once. -/
theorem State.corrected_correctAt (s : State) (col : Nat) (level : ScrubLevel) (place : Nat) (unit : Option (TeamRef × UnitRef))
    (byScrub : Bool) : ((s.correctAt col level place unit byScrub).col col).corrected = (s.col col).corrected + 1 :=
  (State.logError_col beside_corrected (.inr besideBanks_corrected) _ _).trans (State.corrected_addCorrected _ col 1)

theorem State.mark_columns (s : State) (x : Nat) : (s.mark x).columns = s.columns := by
  unfold State.mark
  split <;> rfl

theorem length_sectorsOf_le (a n : Nat) : (sectorsOf a n).length ≤ n + 1 := by
  unfold sectorsOf
  split
  · simp
  · rw [List.length_map, List.length_range]
    omega

/-- Poison counts at least once and at most once for each byte, and one more. -/
theorem State.uncorrected_poisonAt (s : State) (col loc n : Nat) : ∃ k, 1 ≤ k ∧ k ≤ n + 1 ∧
    ((s.poisonAt col loc n).col col).uncorrected = (s.col col).uncorrected + BitVec.ofNat 64 k := by
  let new := (sectorsOf loc n).filter fun x => !s.poison.contains x
  have hlen : new.length ≤ n + 1 := (List.length_filter_le _ _).trans (length_sectorsOf_le loc n)
  have hcol : (new.foldl State.mark s).col col = s.col col :=
    congrArg (fun m => look ({} : Column) m col) (foldl_keeps (·.columns) State.mark_columns new s)
  refine ⟨max 1 new.length, by omega, by omega, (State.uncorrected_addUncorrected _ col _).trans ?_⟩
  rw [hcol]

theorem State.col_modLaunch_mark {β : Type} {g : Column → β} (hg : Column.Beside g) (s : State) (seq col : Nat) :
    g ((s.modLaunch seq fun l => { l with marked := true }).col col) = g (s.col col) :=
  (congrArg g (look_map ({} : Column)
    (fun x => { x with queue := x.queue.map fun l => if l.seq == seq then { l with marked := true } else l }) rfl
    s.columns col)).trans (hg.queue _ _)

theorem State.uncorrected_markUnit (s : State) (col : Nat) (r : TeamRef) (u : UnitRef) :
    ((s.markUnit r u).col col).uncorrected = (s.col col).uncorrected := by
  unfold State.markUnit
  split
  · exact State.col_modLaunch_mark beside_uncorrected s _ col
  · rfl

/-- A poisoned place, once recorded, has counted a page of sectors at most. -/
theorem State.uncorrected_poisonAt_logError (s : State) (col loc : Nat) {n : Nat} (hn : n ≤ 4096) (e : ErrorNote) :
    ∃ k, 1 ≤ k ∧ k ≤ 4097 ∧
      (((s.poisonAt col loc n).logError col e).col col).uncorrected = (s.col col).uncorrected + BitVec.ofNat 64 k := by
  obtain ⟨k, h1, hk, hcount⟩ := s.uncorrected_poisonAt col loc n
  exact ⟨k, h1, by omega, (State.logError_col beside_uncorrected (.inr besideBanks_uncorrected) _ _).trans hcount⟩

/-- A marked unit, once recorded, has counted once. -/
theorem State.uncorrected_addUncorrected_logError (s : State) (col : Nat) (e : ErrorNote) :
    ∃ k, 1 ≤ k ∧ k ≤ 4097 ∧
      (((s.addUncorrected col 1).logError col e).col col).uncorrected = (s.col col).uncorrected + BitVec.ofNat 64 k :=
  ⟨1, by decide, by decide, (State.logError_col beside_uncorrected (.inr besideBanks_uncorrected) _ _).trans
    (State.uncorrected_addUncorrected s col 1)⟩

/-- The marked unit, where the finding names one. -/
def State.markFound (s : State) (unit : Option (TeamRef × UnitRef)) : State :=
  match unit with
  | some (r, u) => s.markUnit r u
  | none => s

theorem State.uncorrected_markFound (s : State) (col : Nat) (unit : Option (TeamRef × UnitRef)) :
    ((s.markFound unit).col col).uncorrected = (s.col col).uncorrected := by
  cases unit with
  | none => rfl
  | some x => exact s.uncorrected_markUnit col x.1 x.2

/-- An uncorrectable finding counts, a page of sectors at most. -/
theorem State.uncorrected_scrubBad (s : State) (col : Nat) (level : ScrubLevel) (place : Nat)
    (unit : Option (TeamRef × UnitRef)) : ∃ k, 1 ≤ k ∧ k ≤ 4097 ∧
    ((s.scrubBad col level place unit).col col).uncorrected = (s.col col).uncorrected + BitVec.ofNat 64 k := by
  have hmark (e : ErrorNote) : ∃ k, 1 ≤ k ∧ k ≤ 4097 ∧
      ((((s.takeFree.2.markFound unit).addUncorrected col 1).logError col e).col col).uncorrected =
        (s.col col).uncorrected + BitVec.ofNat 64 k := by
    have h := (s.takeFree.2.markFound unit).uncorrected_addUncorrected_logError col e
    rwa [State.uncorrected_markFound] at h
  cases level with
  | arrays => cases unit <;> exact hmark _
  | scratchpad => cases unit <;> exact hmark _
  | slice =>
    simp only [State.scrubBad]
    exact State.uncorrected_poisonAt_logError s.takeFree.2.takeFree.2 col _ (by split <;> omega) _
  | insole =>
    simp only [State.scrubBad]
    exact State.uncorrected_poisonAt_logError s.takeFree.2 col _ (by omega) _
  | hbm =>
    simp only [State.scrubBad]
    exact State.uncorrected_poisonAt_logError s.takeFree.2 col _ (by omega) _

/-- A count that has not reached half its range rises. -/
theorem toNat_lt_add {v : DWord} {k : Nat} (hv : v.toNat < 2 ^ 63) (h1 : 1 ≤ k) (hk : k ≤ 4097) :
    v.toNat < (v + BitVec.ofNat 64 k).toNat := by
  rw [BitVec.toNat_add, BitVec.toNat_ofNat]
  omega

/-! ## Poisoned sectors -/

theorem State.mem_mark_poison (s : State) (x y : Nat) : y ∈ (s.mark x).poison ↔ y = x ∨ y ∈ s.poison := by
  unfold State.mark
  split
  · rename_i h
    exact ⟨.inr, fun hy => hy.elim (fun h' => h' ▸ List.contains_iff_mem.1 h) id⟩
  · exact List.mem_cons

theorem State.mem_foldl_mark_poison (l : List Nat) (s : State) (y : Nat) :
    y ∈ (l.foldl State.mark s).poison ↔ y ∈ l ∨ y ∈ s.poison := by
  induction l generalizing s with
  | nil => simp
  | cons x l ih => rw [List.foldl_cons, ih, State.mem_mark_poison, List.mem_cons, or_left_comm, or_assoc]

/-- A poisoned place has its sectors marked. -/
theorem State.mem_poisonAt_poison (s : State) (col loc n : Nat) {x : Nat} (hx : x ∈ sectorsOf loc n) :
    x ∈ (s.poisonAt col loc n).poison := by
  have hpoison : (s.poisonAt col loc n).poison =
      (((sectorsOf loc n).filter fun x => !s.poison.contains x).foldl State.mark s).poison := State.evaluate_poison _ _
  rw [hpoison, State.mem_foldl_mark_poison, List.mem_filter]
  by_cases h : x ∈ s.poison
  · exact .inr h
  · exact .inl ⟨hx, by simpa using h⟩

/-- With no error log and a full event ring an uncorrected error is recorded nowhere. -/
theorem State.poison_logError_of_full {s : State} {col : Nat} (hfull : s.eventRingFull col = true)
    (hlog : (s.col col).elbase = 0) {e : ErrorNote} (he : e.uncorrected = true) : (s.logError col e).poison = s.poison := by
  simp [State.logError, hlog, he, State.event, hfull]

/-- The registers that decide whether an event or an error record has room. -/
def Column.ringRegs (x : Column) : Nat × DWord × DWord × DWord := (x.evsize, x.evprod, x.evcons, x.elbase)

theorem beside_ringRegs : Column.Beside Column.ringRegs :=
  ⟨fun _ _ => rfl, fun _ _ => rfl, fun _ _ => rfl, fun _ _ => rfl, fun _ _ => rfl, fun _ _ _ => rfl⟩

theorem besideBanks_ringRegs : Column.BesideBanks Column.ringRegs := ⟨fun _ _ _ => rfl, fun _ _ _ => rfl⟩

theorem State.eventRingFull_congr {s t : State} {col : Nat} (hm : t.mem = s.mem)
    (hr : (t.col col).ringRegs = (s.col col).ringRegs) : t.eventRingFull col = s.eventRingFull col := by
  simp only [Column.ringRegs, Prod.mk.injEq] at hr
  obtain ⟨hsize, hprod, hcons, -⟩ := hr
  simp only [State.eventRingFull, State.wordAt, hm, hsize, hprod, hcons]

section
variable {β : Type} {g : Column → β} {col : Nat}

theorem State.addUncorrected_col (hg : Column.Beside g) (hu : ∀ x v, g { x with uncorrected := v } = g x)
    (s : State) (n : Nat) : g ((s.addUncorrected col n).col col) = g (s.col col) :=
  (State.evaluate_col hg _ _).trans (s.col_modCol_keeps (fun x => hu x _) col)

theorem State.addCorrected_col (hg : Column.Beside g) (hc : ∀ x v, g { x with corrected := v } = g x)
    (s : State) (n : Nat) : g ((s.addCorrected col n).col col) = g (s.col col) :=
  (State.evaluate_col hg _ _).trans (s.col_modCol_keeps (fun x => hc x _) col)

theorem State.poisonAt_col (hg : Column.Beside g) (hu : ∀ x v, g { x with uncorrected := v } = g x) (s : State) (loc n : Nat) :
    g ((s.poisonAt col loc n).col col) = g (s.col col) := by
  refine (State.addUncorrected_col hg hu _ _).trans ?_
  exact foldl_keeps (fun s => g (s.col col)) (fun s x => congrArg (fun m => g (look {} m col)) (s.mark_columns x)) _ s

end

theorem State.mark_mem (s : State) (x : Nat) : (s.mark x).mem = s.mem := by
  unfold State.mark
  split <;> rfl

theorem State.poisonAt_mem (s : State) (col loc n : Nat) : (s.poisonAt col loc n).mem = s.mem :=
  (State.evaluate_mem _ _).trans (foldl_keeps (·.mem) State.mark_mem _ s)

/-- A sector of HBM found bad is poisoned, whether or not a record of it has room. -/
theorem State.mem_scrubBad_hbm {s : State} {col : Nat} (hfull : s.eventRingFull col = true) (hlog : (s.col col).elbase = 0)
    (place : Nat) (unit : Option (TeamRef × UnitRef)) : place / 32 ∈ (s.scrubBad col .hbm place unit).poison := by
  let u := s.takeFree.2.poisonAt col (place / 32 * 32) 32
  have hregs : (u.col col).ringRegs = (s.col col).ringRegs :=
    State.poisonAt_col beside_ringRegs (fun _ _ => rfl) s.takeFree.2 _ _
  have hmem : u.mem = s.mem := State.poisonAt_mem s.takeFree.2 _ _ _
  have hbase : (u.col col).elbase = 0 := (congrArg (fun r => r.2.2.2) hregs).trans hlog
  have hsector : place / 32 ∈ sectorsOf (place / 32 * 32) 32 := mem_sectorsOf.2 (by omega)
  simp only [State.scrubBad]
  rw [State.poison_logError_of_full (s := u) ((State.eventRingFull_congr hmem hregs).trans hfull) hbase rfl]
  exact State.mem_poisonAt_poison _ _ _ _ hsector

/-! ## The shank tester (R418) -/

/-- What the shank tester says of a shank: the one under test, and the spares left on one. -/
def Column.testOf (shank : Nat) (x : Column) : Option Nat × Nat := (x.shBusy, x.sparesOf shank)

theorem beside_testOf (shank : Nat) : Column.Beside (Column.testOf shank) :=
  ⟨fun _ _ => rfl, fun _ _ => rfl, fun _ _ => rfl, fun _ _ => rfl, fun _ _ => rfl, fun _ _ _ => rfl⟩

/-- Spares of a shank after a spare is put to use there. -/
theorem Column.testOf_put_spares (x : Column) (shank n : Nat) :
    Column.testOf shank { x with spares := put spareRows x.spares shank n } = (x.shBusy, n) :=
  Prod.ext rfl ((look_put spareRows x.spares shank shank n).trans (if_pos rfl))

/-- A failing row takes a spare of its shank, and leaves the shank under test. -/
theorem State.testOf_failingRow (s : State) (col shank : Nat) : ((s.failingRow col shank).col col).testOf shank =
    ((s.col col).shBusy, (s.col col).sparesOf shank - 1) := by
  let u := s.takeFree.2.takeFree.2.takeFree.2.modCol col fun x =>
    { x with spares := put spareRows x.spares shank (x.sparesOf shank - 1) }
  have hu : (u.col col).testOf shank = ((s.col col).shBusy, (s.col col).sparesOf shank - 1) :=
    (congrArg (Column.testOf shank) ((State.col_modCol _ _ _ _).trans (if_pos rfl))).trans
      (Column.testOf_put_spares (s.col col) shank _)
  have hlog (v : State) (e : ErrorNote) (he : e.level = 7) :
      ((v.logError col e).col col).testOf shank = (v.col col).testOf shank :=
    State.logError_col (beside_testOf shank) (.inl he) v col
  simp only [State.failingRow]
  split
  · exact (hlog u _ rfl).trans hu
  · refine (hlog _ _ rfl).trans (Eq.trans ?_ hu)
    split
    · exact State.poisonAt_col (beside_testOf shank) (fun _ _ => rfl) u _ _
    · exact State.addCorrected_col (beside_testOf shank) (fun _ _ => rfl) u _

/-! ## Regions (R321) -/

theorem State.event_besideMemory (s : State) (c : Nat) (e : EventRecord) : (s.event c e).besideMemory = s.besideMemory := by
  unfold State.event
  dsimp only
  split
  · split <;> rfl
  · unfold State.writeEvent
    dsimp only
    have hwritten (a b : Nat) (bs : List Byte) (v : DWord) : ((s.writeLoc a bs).addLoc b v).besideMemory = s.besideMemory :=
      (State.writeLoc_besideMemory _ _ _).trans (s.writeLoc_besideMemory a bs)
    split
    · exact hwritten _ _ _ _
    · exact hwritten _ _ _ _

theorem State.regionAt_event (s : State) (c r : Nat) (e : EventRecord) : (s.event c e).regionAt r = s.regionAt r :=
  have h : (s.event c e).besideMemory.regions = s.besideMemory.regions := congrArg State.regions (s.event_besideMemory c e)
  congrArg (look ({} : Region) · r) h

theorem State.regionAt_setRegion (s : State) (r : Nat) (e : Region) : (s.setRegion r e).regionAt r = e :=
  (look_put _ _ _ _ _).trans (if_pos rfl)

/-! ## Steps that are taken -/

/-- A visit that the column scrubs is made. -/
theorem exec_scrubVisit {s : State} {col : Nat} {level : ScrubLevel} {place : Nat} (hscrubs : scrubs col level place = true)
    (hperiod : (s.col col).period level ≠ 0) (found : ScrubFinding) :
    exec (.scrubVisit col level place found) s = .next (s.visitUnit col level place found) := by
  refine congrArg Host.Outcome.next (if_neg ?_)
  simpa [hscrubs] using hperiod

/-- A unit is visited once in a sweep. -/
theorem State.visitUnit_of_swept {s : State} {col : Nat} {level : ScrubLevel} {place u : Nat}
    (hu : scrubUnit level place = some u) (hswept : (s.col col).wasSwept level (.inl u) (s.sweep col level) = true)
    (found : ScrubFinding) : s.visitUnit col level place found = s := by
  simp only [State.visitUnit, hu, hswept, if_true]

/-- The row under test is noted. -/
def State.noteRow (s : State) (col shank : Nat) : State :=
  let ms := s.tick / 1000000
  s.modCol col fun x => { x with
    shBusy := some shank
    shStopped := x.shStopped.filter (·.1 != shank)
    shRows := put (0, 0) x.shRows shank (ms, x.rowsIn shank ms + 1) }

theorem exec_shankTestRow {s : State} {col shank : Nat} (h : (s.col col).mayTest shank s.tick = true) (bad : Bool) :
    exec (.shankTestRow col shank bad) s =
      .next (if bad then (s.noteRow col shank).failingRow col shank else s.noteRow col shank) := by
  refine congrArg Host.Outcome.next (if_neg ?_)
  simp [h]

/-- No row is tested beyond RATE. -/
theorem Column.mayTest_of_rate {x : Column} {shank tick : Nat} (h : x.rowsIn shank (tick / 1000000) ≥ x.shRate.toNat) :
    x.mayTest shank tick = false := by
  simp [Column.mayTest, h]

/-- The shank under test and the spares, once a row of a shank is noted. -/
theorem State.noteRow_col (s : State) (col shank : Nat) : ((s.noteRow col shank).col col).shBusy = some shank ∧
    ((s.noteRow col shank).col col).spares = (s.col col).spares := by
  rw [State.noteRow, State.col_modCol, if_pos rfl]
  exact ⟨rfl, rfl⟩

/-- The first shank whose stop is over is under test again. -/
theorem exec_shankTestResume {s : State} {col shank since : Nat}
    (hfind : (s.col col).shStopped.find? (fun y => decide (y.2 + 10000 ≤ s.tick)) = some (shank, since))
    (hten : (s.col col).shTen = true) (hnosp : (s.col col).shNosp = false) (hbusy : (s.col col).shBusy = none) :
    exec (.shankTestResume col) s = .next (s.modCol col fun x =>
      { x with shStopped := x.shStopped.filter (·.1 != shank), shBusy := some shank }) := by
  simp only [exec, execShankTestResume, hfind]
  refine congrArg Host.Outcome.next (if_pos ?_)
  simp [hten, hnosp, hbusy]

/-- Settles O48: a visit by what it finds, the tester by its registers, and regions by their map entries. -/
theorem errorsAreScrubbedSparedAndDisplaced : Obligations.ErrorsAreScrubbedSparedAndDisplaced := by
  unfold Obligations.ErrorsAreScrubbedSparedAndDisplaced
  intro s col place shank region
  refine ⟨fun level hscrubs hperiod hfresh => ?visit, fun level u hu hswept => ?again,
    fun hscrubs hperiod hfresh hfull hlog => ?sector, fun htest => ?test, fun hrate bad => ?rate,
    fun since hfind hten hnosp hbusy => ?resume, ⟨_, rfl, ?path⟩, fun hst hgone => ⟨fun hroom => ?displaced, fun hroom => ?lost⟩,
    fun hst => ?switched⟩
  case visit =>
    obtain ⟨t, unit, hvisit, ⟨-, hpoison, hcol⟩, hswept⟩ := State.visitUnit_eq hfresh
    have hexec (found : ScrubFinding) := (exec_scrubVisit hscrubs hperiod found).trans
      (congrArg Host.Outcome.next (hvisit found))
    have hcorrected := hcol besideBanks_corrected fun _ _ => rfl
    have huncorrected := hcol besideBanks_uncorrected fun _ _ => rfl
    refine ⟨⟨_, hexec .clean, hpoison, hcorrected, hswept⟩, ⟨_, hexec .correctable, ?_⟩,
      fun hhalf => ⟨_, hexec .uncorrectable, ?_⟩⟩
    · exact (t.corrected_correctAt col level place unit true).trans (congrArg (· + 1) hcorrected)
    · obtain ⟨k, h1, hk, hcount⟩ := t.uncorrected_scrubBad col level place unit
      exact lt_of_lt_of_eq (toNat_lt_add hhalf h1 hk)
        (congrArg BitVec.toNat (hcount.trans (congrArg (· + BitVec.ofNat 64 k) huncorrected))).symm
  case again =>
    refine congrArg Host.Outcome.next ?_
    rw [State.visitUnit_of_swept hu hswept, ite_self]
  case sector =>
    obtain ⟨t, unit, hvisit, ⟨hmem, -, hcol⟩, -⟩ := State.visitUnit_eq (s := s) (level := .hbm) (place := place)
      fun u hu => Option.some.inj hu ▸ hfresh
    have hregs : (t.col col).ringRegs = (s.col col).ringRegs := hcol besideBanks_ringRegs fun _ _ => rfl
    exact ⟨_, (exec_scrubVisit hscrubs hperiod _).trans (congrArg Host.Outcome.next (hvisit _)),
      State.mem_scrubBad_hbm ((State.eventRingFull_congr hmem hregs).trans hfull)
        ((congrArg (·.2.2.2) hregs).trans hlog) place unit⟩
  case test =>
    obtain ⟨hbusy, hspares⟩ := s.noteRow_col col shank
    have hrow := Prod.mk.inj ((s.noteRow col shank).testOf_failingRow col shank)
    exact ⟨⟨_, exec_shankTestRow htest false, hbusy, hspares⟩, _, exec_shankTestRow htest true, hrow.1.trans hbusy,
      hrow.2.trans (congrArg (look spareRows · shank - 1) hspares)⟩
  case rate =>
    refine congrArg Host.Outcome.next (if_pos ?_)
    rw [Column.mayTest_of_rate hrate]
    rfl
  case resume =>
    refine ⟨_, exec_shankTestResume hfind hten hnosp hbusy, ?_⟩
    rw [State.col_modCol, if_pos rfl]
    exact ⟨rfl, rfl⟩
  case path =>
    rw [State.col_modCol, if_pos rfl]
    exact ⟨rfl, rfl⟩
  case displaced =>
    let e : Region := { s.regionAt region with st := 1, spill := BitVec.ofNat 32 s.spillSlots }
    have hentry : ({ s.setRegion region e with spillSlots := s.spillSlots + 1 } : State).regionAt region = e :=
      s.regionAt_setRegion region e
    exact ⟨_, congrArg Host.Outcome.next (if_pos (by simp [hst, hgone, hroom])), congrArg Region.st hentry,
      congrArg Region.spill hentry, rfl⟩
  case lost =>
    refine ⟨_, congrArg Host.Outcome.next (if_pos (by simp [hst, hgone, hroom])), ?_⟩
    rw [State.regionAt_event, State.regionAt_setRegion]
  case switched =>
    refine ⟨_, congrArg Host.Outcome.next (if_pos (by simp [hst])), ?_⟩
    rw [State.regionAt_event, State.regionAt_setRegion]

end Sys2Proof.Machine
end

section
/-!
Ports and links (R399, R401 to R403): which steps leave the ports as they are, which requests are outstanding on a port, and
what a load finds that is issued again: O53.
-/
namespace Sys2Proof.Machine

/-! ## Steps that change no port -/

@[simp] theorem State.wakeCore_ports (s : State) (k : Nat) : (s.wakeCore k).ports = s.ports := by
  unfold State.wakeCore
  dsimp only
  split <;> rfl

@[simp] theorem State.retry_ports (s : State) (p : Hold → Bool) : (s.retry p).ports = s.ports :=
  foldl_keeps (·.ports) State.wakeCore_ports _ _

@[simp] theorem State.moveClass_ports (s : State) (cls : Nat) : (s.moveClass cls).ports = s.ports := by
  unfold State.moveClass
  dsimp only
  split
  · rfl
  · split
    · rfl
    · split <;> rfl

@[simp] theorem State.reroute_ports (s : State) : s.reroute.ports = s.ports :=
  (State.retry_ports _ _).trans (foldl_keeps (·.ports) State.moveClass_ports _ _)

@[simp] theorem State.settleRoutes_ports (s : State) : s.settleRoutes.ports = s.ports := by
  unfold State.settleRoutes
  split
  · exact s.reroute_ports
  · rfl

@[simp] theorem State.writeLoc_ports (s : State) (a : Nat) (bs : List Byte) : (s.writeLoc a bs).ports = s.ports :=
  congrArg (·.ports) (s.writeLoc_besideMemory a bs)

@[simp] theorem State.event_ports (s : State) (c : Nat) (e : EventRecord) : (s.event c e).ports = s.ports :=
  congrArg (·.ports) (s.event_besideMemory c e)

@[simp] theorem State.landLine_ports (s : State) (core : Nat) (l : WcLine) : (s.landLine core l).ports = s.ports := by
  refine foldl_keeps (·.ports) (fun s x => ?_) _ _
  exact State.writeLoc_ports _ _ _

@[simp] theorem State.drainLine_ports (s : State) (core : Nat) (l : WcLine) : (s.drainLine core l).ports = s.ports := by
  unfold State.drainLine
  dsimp only
  split
  · rfl
  · exact State.landLine_ports _ _ _

@[simp] theorem State.landAll_ports (s : State) (core : Nat) : (s.landAll core).ports = s.ports := by
  refine foldl_keeps (·.ports) (fun s l => ?_) _ _
  split
  · exact State.landLine_ports _ _ _
  · rfl

@[simp] theorem State.drainHome_ports (s : State) (core : Nat) : (s.drainHome core).ports = s.ports :=
  (State.landAll_ports _ _).trans (foldl_keeps (·.ports) (fun s l => s.drainLine_ports core l) _ _)

@[simp] theorem State.drainLaunch_ports (s : State) (seq : Nat) : (s.drainLaunch seq).ports = s.ports := by
  refine foldl_keeps (·.ports) (fun s x => ?_) _ _
  split
  · exact s.drainHome_ports _
  · rfl

@[simp] theorem State.rouseAcks_ports (s : State) : s.rouseAcks.ports = s.ports :=
  foldl_keeps (·.ports) State.wakeCore_ports _ _

@[simp] theorem State.completeLaunch_ports (s : State) (seq : Nat) : (s.completeLaunch seq).ports = s.ports := by
  unfold State.completeLaunch
  split
  · rfl
  · rename_i l _
    dsimp only
    generalize ht : (if l.retired < l.kernel.teams then s else s.drainLaunch seq) = t
    have hports : t.ports = s.ports := by
      rw [← ht]
      split
      · rfl
      · exact s.drainLaunch_ports seq
    split
    · exact hports
    · rw [State.modCol_ports, ← hports]
      split <;> split <;> simp [State.addLoc, State.writeNum]

@[simp] theorem State.land_ports (s : State) (core : Nat) : (s.land core).ports = s.ports := by
  refine (foldl_keeps (·.ports) State.completeLaunch_ports _ _).trans ?_
  rw [State.rouseAcks_ports, State.settleRoutes_ports, State.landAll_ports]

theorem State.portAt_congr {s t : State} (h : t.ports = s.ports) (q : Nat) : t.portAt q = s.portAt q :=
  congrArg (look ({} : Port) · q) h

/-! ## Ports that fail and return -/

theorem State.portAt_modPort_self (s : State) (q : Nat) (f : Port → Port) : (s.modPort q f).portAt q = f (s.portAt q) :=
  (State.portAt_modPort ..).trans (if_pos rfl)

theorem State.portAt_portLost (s : State) (q : Nat) : (s.portLost q).portAt q = s.portAt q := by
  refine State.portAt_congr ?_ q
  unfold State.portLost
  rw [State.event_ports, State.reroute_ports]

theorem State.portAt_portLost_if (s : State) (q : Nat) (b : Bool) :
    (if b then s.portLost q else s).portAt q = s.portAt q := by
  cases b
  · rw [if_neg Bool.false_ne_true]
  · rw [if_pos rfl, s.portAt_portLost]

/-- A port that is live again is down no more; nothing else of it changes. -/
theorem State.portAt_portBack (s : State) (q : Nat) :
    (s.portBack q).portAt q = if (s.portAt q).live then { s.portAt q with downAt := none } else s.portAt q := by
  unfold State.portBack
  split
  · have hports (u : State) : ((u.cores.map (·.1)).foldl State.land u).ports = u.ports :=
      foldl_keeps (·.ports) State.land_ports _ _
    refine Eq.trans (State.portAt_congr ?_ q) (s.portAt_modPort_self q fun p => { p with downAt := none })
    exact (hports _).trans ((State.event_ports _ _ _).trans (State.reroute_ports _))
  · rfl

/-! ## Requests outstanding on a port -/

theorem State.mem_allFibres {s : State} {r : FibreRef} {f : Fibre} : (r, f) ∈ s.allFibres ↔
    ∃ t ∈ s.teams, ∃ g ∈ t.groups, f ∈ g.fibres ∧ r = { team := t.ref, gid := g.gid, fid := f.fid } := by
  simp only [State.allFibres, List.mem_flatMap, List.mem_map, Prod.mk.injEq]
  constructor
  · rintro ⟨t, ht, g, hg, x, hx, rfl, rfl⟩
    exact ⟨t, ht, g, hg, hx, rfl⟩
  · rintro ⟨t, ht, g, hg, hf, rfl⟩
    exact ⟨t, ht, g, hg, f, hf, rfl, rfl⟩

theorem State.mem_onPort {s : State} {port : Nat} {q : LostRequest} : q ∈ s.onPort port ↔
    ∃ r f x y, (r, f) ∈ s.allFibres ∧ x ∈ f.outstanding ∧ y ∈ x.remote ∧
      s.portOf (classOf y.1) = port ∧ (y.2 = true ∨ s.anyPort = true) ∧
      q = { fib := r, id := x.id, pc := x.pc, loc := y.1, changes := y.2 } := by
  simp only [State.onPort, State.uses, List.mem_flatMap, List.mem_map, List.mem_filter, Bool.and_eq_true, beq_iff_eq,
    Bool.or_eq_true]
  constructor
  · rintro ⟨⟨r, f⟩, hf, x, hx, y, ⟨hy, hport, hkind⟩, rfl⟩
    exact ⟨r, f, x, y, hf, hx, hy, hport, hkind, rfl⟩
  · rintro ⟨r, f, x, y, hf, hx, hy, hport, hkind, rfl⟩
    exact ⟨(r, f), hf, x, hx, y, ⟨hy, hport, hkind⟩, rfl⟩

theorem State.mem_linesOn {s : State} {port : Nat} {l : WcLine} :
    l ∈ s.linesOn port ↔ ∃ k ∈ s.cores, l ∈ k.2.flight ∧ l.port = some port := by
  simp only [State.linesOn, List.mem_flatMap, List.mem_filter, beq_iff_eq]

/-- No line that went by a forgotten port is on its way. -/
theorem State.port_of_mem_forget_flight {s : State} {port k : Nat} {l : WcLine}
    (h : l ∈ ((s.forget port).core k).flight) : l.port ≠ some port := by
  have hcore : (s.forget port).core k =
      { s.core k with flight := (s.core k).flight.filter fun l => l.port != some port } :=
    look_map ({} : Core) (fun k => { k with flight := k.flight.filter fun l => l.port != some port }) rfl s.cores k
  rw [hcore, List.mem_filter, bne_iff_ne] at h
  exact h.2

/-- No request is outstanding on a forgotten port. -/
theorem State.onPort_forget (s : State) (port : Nat) : (s.forget port).onPort port = [] := by
  refine List.eq_nil_iff_forall_not_mem.mpr fun q hq => ?_
  obtain ⟨r, f, x, y, hf, hx, hy, hport, hkind, -⟩ := State.mem_onPort.mp hq
  obtain ⟨t, ht, g, hg, hfg, -⟩ := State.mem_allFibres.mp hf
  obtain ⟨t0, -, rfl⟩ := List.mem_map.mp ht
  obtain ⟨g0, -, rfl⟩ := List.mem_map.mp hg
  obtain ⟨f0, -, rfl⟩ := List.mem_map.mp hfg
  obtain ⟨x0, -, rfl⟩ := List.mem_map.mp hx
  obtain ⟨-, hleft⟩ := List.mem_filter.mp hy
  have huses : (s.uses port y && (y.2 || s.anyPort)) = true := by
    rw [Bool.and_eq_true, Bool.or_eq_true, State.uses, beq_iff_eq]
    exact ⟨hport, hkind⟩
  rw [huses] at hleft
  exact absurd hleft Bool.false_ne_true

/-! ## Loads that are issued again -/

/-- What a load that is issued again makes of an outstanding result: it goes to its location once more, and takes the
values that it finds now. -/
def State.resent (s : State) (q : LostRequest) (p : Pending) : Pending :=
  if p.id != q.id then p
  else { p with
    remote := p.remote ++ [(q.loc, false)]
    writes := p.writes.map fun w => (((p.reload.map s.reread).getD []).find? fun v => v.reg == w.reg).getD w }

theorem State.fibre?_loadAgain {s : State} {q : LostRequest} {f : Fibre} (h : s.fibre? q.fib = some f) :
    (s.loadAgain q).fibre? q.fib = some { f with outstanding := f.outstanding.map (s.resent q) } := by
  rw [State.loadAgain, State.fibre?_modFibre, h]
  · rfl
  · exact fun _ => rfl

/-- A load of one run finds its bytes at their home (R216, R348). -/
theorem State.reread_of_one_run {s : State} {x : Reload} {t a n : Nat} (hruns : x.runs = [(t, [(a, n)])]) (hown : x.own = [])
    (hpoison : s.poison = []) : s.reread x = x.writes t (s.bytesAt a n) := by
  have hbytes (bs : List Byte) : (bs.zipIdx.map fun (b, i) => (look none x.own (a + i)).getD b) = bs := by
    rw [hown]
    exact List.zipIdx_map_fst 0 bs
  simp only [State.reread, hruns, List.flatMap_cons, List.flatMap_nil, List.append_nil, State.cleaned_of_clean hpoison, hbytes]

theorem Reload.writes_counter (x : Reload) (t : Nat) (bs : List Byte) (h : x.op = 0xD3) : x.writes t bs =
    [⟨if x.w.u then .uni x.w.d.toNat else .pred (x.w.d.toNat % 128) t,
      if satisfies (BitVec.ofNat 64 (natLE bs)) (look 0 x.thr t) then 1 else 0⟩] := by
  rw [Reload.writes, if_pos h]
  cases x.w.u <;> rfl

theorem Reload.writes_value (x : Reload) (t : Nat) (bs : List Byte) (h : x.op = 0xD4) : x.writes t bs =
    if x.w.u then [⟨.uni x.w.d.toNat, BitVec.ofNat 64 (natLE bs)⟩]
    else vecWrites true x.w.d.toNat t (BitVec.ofNat 64 (natLE bs)) := by
  simp [Reload.writes, h]

theorem Reload.writes_load (x : Reload) (t : Nat) (bs : List Byte) (h3 : x.op ≠ 0xD3) (h4 : x.op ≠ 0xD4) :
    x.writes t bs = loadWrites x.w t bs := by
  rw [Reload.writes, if_neg h3, if_neg h4]

/-! ## LOSTTO -/

/-- What is outstanding on a port is lost where the port is down for LOSTTO, and on no other occasion (R401). -/
theorem exec_lostTimeout {s : State} {port t0 : Nat} (h : (s.portAt port).downAt = some t0) : exec (.lostTimeout port) s =
    .next (if s.tick < t0 + 1000 * s.lostto.toNat ∨ (s.portAt port).live = true then s else s.lose port) := by
  simp only [exec, execLostTimeout, h, Bool.or_eq_true, decide_eq_true_eq]

/-- The state in which every core's lines have landed that can (R196). -/
def State.landed (s : State) : State := (s.cores.map (·.1)).foldl State.land s

/-- Nothing was outstanding: the classes of the port move, and no event tells of it. -/
theorem State.lose_of_nothing {s : State} {port : Nat} (hout : s.onPort port = []) (hlines : s.linesOn port = []) :
    s.lose port = (s.forget port).reroute.landed := by
  simp only [State.lose, State.landed, hout, hlines, firstOfTeams, List.filter_nil, List.map_nil, List.append_nil, List.foldl_nil]

/-- An event tells the first location of what is lost, and each team that loses an atomic or an add takes cause 24 (R403). -/
theorem State.lose_of_first {s : State} {port loc : Nat} {rest : List Nat}
    (h : (s.linesOn port).map WcLine.first ++ ((s.onPort port).filter (·.changes)).map (·.loc) ++
      (s.onPort port).map (·.loc) = loc :: rest) :
    s.lose port =
      let adds := (s.onPort port).filter (·.changes)
      let u := ((s.onPort port).filter fun x => !x.changes).foldl State.loadAgain (s.forget port).reroute
      (firstOfTeams adds).foldl (fun s x => s.teamError x.fib.team 24 (some x.fib) x.pc)
        (u.event portColumn (portEvent port (s.downReason port) (loc % 2 ^ 64)
          (((s.linesOn port).flatMap (·.stores)).eraseDups).length adds.length)).landed := by
  simp only [State.lose, h]
  rfl

/-- Settles O53: each step by what it leaves of its port, and LOST_TIMEOUT by the lists of what is outstanding there. -/
theorem linksFailAndReturn : Obligations.LinksFailAndReturn := by
  unfold Obligations.LinksFailAndReturn
  intro s port
  refine ⟨fun hup => ?down, fun hup hlocked hfab => ?restored, fun hlive hflit => ?flit, fun hlive hflit => ?locks,
    fun hlocked hfab => ?attested, fun h => ?idle, fun t0 h0 => ⟨fun h => ?early, fun hdue hlive => ⟨fun ho hl => ?none, fun loc rest hloc => ?told⟩⟩,
    fun q => State.mem_onPort, fun l => State.mem_linesOn, fun q f hf => ?again, fun x t a n hruns hown hpoison => ?read,
    fun k l => State.port_of_mem_forget_flight, s.onPort_forget port, ?linkDown, ?linkUp⟩
  case down =>
    refine ⟨_, congrArg Host.Outcome.next (if_neg (by simp [hup])), ?_⟩
    simp only [State.portAt_portLost_if, State.portAt_modPort_self]
    exact ⟨trivial, fun hlocked => if_pos (by simp [Port.live, hup, hlocked])⟩
  case restored =>
    refine ⟨_, congrArg Host.Outcome.next (if_neg (by simp [hup, hfab])), ?_⟩
    rw [State.portAt_portBack, State.portAt_modPort_self, if_pos (by simp [Port.live, hlocked])]
    exact ⟨by simp [Port.live, hlocked], rfl⟩
  case flit =>
    refine ⟨_, congrArg Host.Outcome.next ((if_neg (by simp [hlive])).trans ((if_neg (by simp)).trans (if_neg (by simp)))), ?_⟩
    rw [State.portAt_modPort_self]
    exact ⟨hlive, rfl, rfl⟩
  case locks =>
    refine ⟨_, congrArg Host.Outcome.next ((if_neg (by simp [hlive])).trans (if_pos (by simp [hflit]))), ?_⟩
    rw [State.portAt_portLost, State.portAt_modPort_self]
    exact ⟨rfl, by simp [Port.live]⟩
  case attested =>
    refine ⟨_, congrArg Host.Outcome.next (if_pos (by simp [hlocked, hfab])), ?_⟩
    rw [State.portAt_portBack, State.portAt_modPort_self]
    split <;> exact ⟨rfl, rfl⟩
  case idle => simp only [exec, execLostTimeout, h]
  case early => rw [exec_lostTimeout h0, if_pos h]
  case none =>
    rw [exec_lostTimeout h0, if_neg (by simp [hlive, hdue]), State.lose_of_nothing ho hl]
    rfl
  case told =>
    rw [exec_lostTimeout h0, if_neg (by simp [hlive, hdue]), State.lose_of_first hloc]
    rfl
  case again =>
    refine ⟨_, State.fibre?_loadAgain hf, List.length_map _, rfl, fun k x hx hid => ⟨s.resent q x, ?_, ?_, ?_, ?_⟩⟩
    · simp [hx]
    all_goals simp [State.resent, hid]
  case read =>
    have hread := State.reread_of_one_run hruns hown hpoison
    refine ⟨fun h3 h4 => hread.trans (x.writes_load t _ h3 h4), fun h4 => hread.trans (x.writes_value t _ h4), fun h3 => ?_⟩
    exact ⟨_, hread.trans (x.writes_counter t _ h3), rfl, rfl⟩
  case linkDown =>
    refine ⟨_, rfl, ?_⟩
    split
    · exact ⟨by assumption, rfl⟩
    · exact ⟨by simp, rfl⟩
  case linkUp => exact ⟨_, rfl, by simp, rfl⟩

end Sys2Proof.Machine
end

section
/-!
Copy instructions at issue (R192, R261, R262, R286): a body that stops or holds its fibre, and what the body that the copies
share does by each of its checks.
-/
namespace Sys2Proof.Machine

/-! ## The outcome of a body -/

/-- A body that has no effect. -/
theorem exec_of_stop {i : Instr} {op : Nat} {w : Fields} {body : Ctx → State → Effect} {s : State} {c : Ctx} {e : Stop}
    (he : ∀ s, exec i s = s.issue op w body) (ho : opFields i = some (op, w)) (h : s.clear i = some c)
    (hb : body c (s.begun c) = .stop e) : exec i s = .next ((s.begun c).stopIssue c e) := by
  rw [exec_clear h (he s) ho, hb]
  rfl

/-- A body that cannot proceed and holds its fibre. -/
theorem exec_of_held {i : Instr} {op : Nat} {w : Fields} {body : Ctx → State → Effect} {s : State} {c : Ctx} {u : State}
    {x : Hold} (he : ∀ s, exec i s = s.issue op w body) (ho : opFields i = some (op, w)) (h : s.clear i = some c)
    (hb : body c (s.begun c) = .held u x) : exec i s = .next (u.holdFibre c x) := by
  rw [exec_clear h (he s) ho, hb]
  rfl

/-! ## The body of the copies -/

/-- The eight copies share their body. -/
theorem exec_copy {w : Fields} {i : Instr}
    (hi : i ∈ [Instr.cpt w, .cpl w, .cpg w, .cps w, .cpx w, .cpa w, .cpr w, .cpz w]) :
    ∃ op, opFields i = some (op, w) ∧ ∀ s, exec i s = s.issue op w copyBody := by
  simp only [List.mem_cons, List.not_mem_nil, or_false] at hi
  rcases hi with rfl | rfl | rfl | rfl | rfl | rfl | rfl | rfl
  · exact ⟨0xE0, rfl, fun _ => rfl⟩
  · exact ⟨0xE1, rfl, fun _ => rfl⟩
  · exact ⟨0xE2, rfl, fun _ => rfl⟩
  · exact ⟨0xE3, rfl, fun _ => rfl⟩
  · exact ⟨0xE4, rfl, fun _ => rfl⟩
  · exact ⟨0xE5, rfl, fun _ => rfl⟩
  · exact ⟨0xE6, rfl, fun _ => rfl⟩
  · exact ⟨0xE7, rfl, fun _ => rfl⟩

/-- The state in which a team's cores have drained their buffers (R192, R193). -/
def State.teamDrained (s : State) (t : Team) (k : Kernel) : State := (coresOf t k).foldl State.drainHome s

/-- Every store of a team's cores has been acknowledged. -/
def State.teamQuiet (s : State) (t : Team) (k : Kernel) : Prop := ∀ n ∈ coresOf t k, (s.core n).flight = []

theorem State.all_acked_iff (s : State) (t : Team) (k : Kernel) : (coresOf t k).all s.acked = true ↔ s.teamQuiet t k := by
  simp [State.teamQuiet, State.acked]

section Body
variable {c : Ctx} {s : State} {t : Team} (ht : s.team? c.r.team = some t)
include ht

/-- A copy waits until its team's earlier stores are acknowledged (R192). -/
theorem copyBody_of_unacked (h : ¬(s.teamDrained t c.k).teamQuiet t c.k) :
    copyBody c s = .unacked (s.teamDrained t c.k) (coresOf t c.k) := by
  rw [← State.all_acked_iff] at h
  simp only [copyBody, ht, State.drainTeam]
  exact if_pos (by simpa [State.teamDrained] using h)

/-- Once they are, its checks decide: the first that fails stops it; else it takes an entry or waits for one (R261, R277). -/
theorem copyBody_of_quiet (h : (s.teamDrained t c.k).teamQuiet t c.k) :
    copyBody c s = match (s.teamDrained t c.k).checkCopy c.space t c.k (copyCommand c) with
      | .error e => .stop e
      | .ok ok =>
        match ((s.teamDrained t c.k).core c.core).mayTake c.r, ((s.teamDrained t c.k).core c.core).freeReq with
        | true, some i =>
          if ok.state.startBad (copyCommand c) ok then .stop (.team 24)
          else
            let out := (ok.state.leaveQueue c.core c.r).startDynamic c.core i c.r (copyCommand c) c.pc ok
            .done { s := out.2, fixed := [⟨.uni c.w.d.toNat, BitVec.ofNat 64 out.1⟩] }
        | _, _ => .held ((s.teamDrained t c.k).awaitEntry c.core c.r) .copyQueue := by
  rw [← State.all_acked_iff] at h
  simp only [copyBody, ht, State.drainTeam]
  refine if_neg ?_
  simpa [State.teamDrained] using h

end Body

/-- The promise of a copy does not lie in the past (R262). -/
theorem State.tick_le_startDynamic (s : State) (core i : Nat) (r : FibreRef) (cmd : CopyCmd) (pc : DWord) (ok : CopyOk) :
    s.tick ≤ (s.startDynamic core i r cmd pc ok).1 := le_max_left _ _

/-- A copy waits for its team's stores, stops at a failed check, takes an entry, or waits for one. -/
theorem exec_copy_outcome {w : Fields} {i : Instr}
    (hi : i ∈ [Instr.cpt w, .cpl w, .cpg w, .cps w, .cpx w, .cpa w, .cpr w, .cpz w]) {s : State} {c : Ctx} {t : Team}
    (hc : s.clear i = some c) (ht : (s.begun c).team? c.r.team = some t) :
    let s0 := s.begun c
    let u := s0.teamDrained t c.k
    (¬u.teamQuiet t c.k → exec i s = .next (u.awaitAcks c (coresOf t c.k))) ∧
    (∀ e, u.teamQuiet t c.k → u.checkCopy c.space t c.k (copyCommand c) = .error e → exec i s = .next (s0.stopIssue c e)) ∧
    (∀ ok, u.teamQuiet t c.k → u.checkCopy c.space t c.k (copyCommand c) = .ok ok →
      (∀ k, (u.core c.core).mayTake c.r = true → (u.core c.core).freeReq = some k →
        let out := (ok.state.leaveQueue c.core c.r).startDynamic c.core k c.r (copyCommand c) c.pc ok
        (ok.state.startBad (copyCommand c) ok = true → exec i s = .next (s0.stopIssue c (.team 24))) ∧
        (ok.state.startBad (copyCommand c) ok = false → ok.state.tick ≤ out.1 ∧
          exec i s = .next (s0.finishIssue c { s := out.2, fixed := [⟨.uni c.w.d.toNat, BitVec.ofNat 64 out.1⟩] }))) ∧
      ((u.core c.core).mayTake c.r = false ∨ (u.core c.core).freeReq = none →
        exec i s = .next ((u.awaitEntry c.core c.r).holdFibre c .copyQueue))) := by
  obtain ⟨op, ho, he⟩ := exec_copy hi
  refine ⟨fun h => exec_of_unacked he ho hc (copyBody_of_unacked ht h), fun e hq hcheck => ?_, fun ok hq hcheck =>
    ⟨fun k hmay hfree => ⟨fun hbad => ?_, fun hbad => ⟨?_, ?_⟩⟩, fun hwait => ?_⟩⟩
  · refine exec_of_stop he ho hc ?_
    rw [copyBody_of_quiet ht hq, hcheck]
  · refine exec_of_stop he ho hc ?_
    simp only [copyBody_of_quiet ht hq, hcheck, hmay, hfree, hbad, if_true]
  · exact State.tick_le_startDynamic (ok.state.leaveQueue c.core c.r) ..
  · refine exec_of_done he ho hc ?_ rfl
    simp only [copyBody_of_quiet ht hq, hcheck, hmay, hfree, hbad, Bool.false_eq_true, if_false]
  · refine exec_of_held he ho hc ?_
    simp only [copyBody_of_quiet ht hq, hcheck]
    rcases hwait with h | h
    · rw [h]
    · rw [h]
      cases ((s.begun c).teamDrained t c.k |>.core c.core).mayTake c.r <;> rfl

end Sys2Proof.Machine
end

section
/-!
Where the bytes of a copy lie (R276, R281) and what the copies read and write that move bytes as they are (R279, R282, R285,
R286): CPL, CPR, CPZ, CPG and CPS.
-/
namespace Sys2Proof.Machine

/-! ## Endpoints -/

section Endpoints
variable {c : CopyCmd} {pos kind : Nat} {w : DWord} (h : c.endpoints.find? (fun e => e.1 == pos) = some (pos, kind, w))
include h

theorem CopyCmd.at_of_plain (hkind : kind ≠ 2) (recs : List LayoutRec) (off n : Nat) :
    c.at recs pos off n = (endpointPlace kind w).plus off := by
  simp only [CopyCmd.at, h, if_neg hkind]

theorem CopyCmd.at_of_handle (hkind : kind = 2) {recs : List LayoutRec} {r : LayoutRec} (hr : recAt c recs pos = some r)
    (off n : Nat) : c.at recs pos off n = r.bytesAt (fld w 63 24 + off) n := by
  simp only [CopyCmd.at, h, if_pos hkind, hr]

end Endpoints

/-- A byte of a tensor lies from its base on, in the insole store or in memory. -/
theorem LayoutRec.place_natCast (r : LayoutRec) (o : Nat) :
    r.place (o : Int) = if r.insole then .insole (r.base * 2 ^ 21 + o) else .va ((r.base + o) % 2 ^ 64) := by
  unfold LayoutRec.place
  split
  · exact congrArg Place.insole (by rw [regionBytes]; omega)
  · exact congrArg Place.va (by omega)

theorem LayoutRec.past_place (r : LayoutRec) (o : Int) : ∃ a, (r.place o).past = .beyond a := by
  unfold LayoutRec.place
  split <;> exact ⟨_, rfl⟩

theorem LayoutRec.bytesAt_of_le {r : LayoutRec} {off n : Nat} (h : off + n ≤ r.len) : r.bytesAt off n = r.place off :=
  if_neg (Nat.not_lt.mpr h)

theorem LayoutRec.bytesAt_of_lt {r : LayoutRec} {off n : Nat} (h : r.len < off + n) : ∃ a, r.bytesAt off n = .beyond a := by
  rw [LayoutRec.bytesAt, if_pos h]
  exact r.past_place off

/-! ## Copies byte for byte (R279, R285) -/

variable {c : CopyCmd} (recs : List LayoutRec) (idx data : List Byte) (staged : Option (Tag × List DWord))

theorem CopyCmd.sources_cpl (h : c.op = 0xE1) : c.sources recs idx = [(c.at recs 4 0 c.length, c.length)] := by
  simp only [CopyCmd.sources, h]

theorem CopyCmd.outputs_cpl (h : c.op = 0xE1) : (c.outputs recs idx data staged).1 =
    [{ place := c.at recs 5 0 c.length, bytes := data, src := some 0 }] := by
  simp only [CopyCmd.outputs, h]

theorem CopyCmd.sources_cpr (h : c.op = 0xE6) : c.sources recs idx = [(c.at recs 4 0 c.length, c.length)] := by
  simp only [CopyCmd.sources, h]

theorem CopyCmd.outputs_cpr (h : c.op = 0xE6) : (c.outputs recs idx data staged).1 =
    [{ place := .va c.w1.toNat, bytes := data, src := some 0 }] := by
  simp only [CopyCmd.outputs, h]

/-! ## Patterns (R286) -/

theorem getElem?_bytesLE (v n k : Nat) : (bytesLE v n)[k]? = if k < n then some (BitVec.ofNat 8 (v / 256 ^ k)) else none := by
  induction n generalizing v k with
  | zero => rfl
  | succ n ih =>
    cases k with
    | zero => simp [bytesLE]
    | succ k =>
      rw [bytesLE, List.getElem?_cons_succ, ih]
      simp only [Nat.add_lt_add_iff_right, Nat.div_div_eq_div_mul, Nat.pow_succ']

theorem getD_bytesLE {v n k : Nat} (h : k < n) : (bytesLE v n).getD k 0 = BitVec.ofNat 8 (v / 256 ^ k) := by
  rw [List.getD_eq_getElem?_getD, getElem?_bytesLE, if_pos h, Option.getD_some]

/-- Byte k of a word, as its bits. -/
theorem getD_bytesLE_toNat {k : Nat} (x : DWord) (h : k < 8) : (bytesLE x.toNat 8).getD k 0 = x.extractLsb' (8 * k) 8 := by
  rw [getD_bytesLE h]
  apply BitVec.eq_of_toNat_eq
  rw [BitVec.extractLsb'_toNat, BitVec.toNat_ofNat, Nat.shiftRight_eq_div_pow, Nat.pow_mul]

theorem CopyCmd.sources_cpz (h : c.op = 0xE7) : c.sources recs idx = [] := by
  simp only [CopyCmd.sources, h]

theorem CopyCmd.outputs_cpz (h : c.op = 0xE7) : (c.outputs recs idx data staged).1 =
    [{ place := c.at recs 4 0 c.length
       bytes := (List.range c.length).map fun i => (bytesLE c.w1.toNat 8).getD (i % 8) 0 }] := by
  simp only [CopyCmd.outputs, h]

/-- CPZ writes its pattern again and again. -/
theorem getD_pattern (x : DWord) {n k : Nat} (h : k < n) :
    ((List.range n).map fun i => (bytesLE x.toNat 8).getD (i % 8) 0).getD k 0 = x.extractLsb' (8 * (k % 8)) 8 := by
  rw [List.getD_eq_getElem?_getD, List.getElem?_map, List.getElem?_range h, Option.map_some, Option.getD_some]
  exact getD_bytesLE_toNat x (Nat.mod_lt _ (by decide))

/-! ## Rows between far and near places (R282) -/

theorem getElem?_map_range {α : Type} (f : Nat → α) {n j : Nat} (h : j < n) : ((List.range n).map f)[j]? = some (f j) := by
  rw [List.getElem?_map, List.getElem?_range h, Option.map_some]

theorem length_map_range {α : Type} (f : Nat → α) (n : Nat) : ((List.range n).map f).length = n := by
  rw [List.length_map, List.length_range]

theorem CopyCmd.sources_cpg (h : c.op = 0xE2) : c.sources recs idx =
    (List.range (fld c.w2 31 0)).map fun j => ((gatherRow c recs idx j).1, fld c.w2 47 32) := by
  simp only [CopyCmd.sources, h]

theorem CopyCmd.sources_cps (h : c.op = 0xE3) : c.sources recs idx =
    (List.range (fld c.w2 31 0)).map fun j => ((gatherRow c recs idx j).2, fld c.w2 47 32) := by
  simp only [CopyCmd.sources, h]

theorem CopyCmd.outputs_cpg (h : c.op = 0xE2) : (c.outputs recs idx data staged).1 =
    (List.range (fld c.w2 31 0)).map fun j => { place := (gatherRow c recs idx j).2
                                                bytes := (data.drop (j * fld c.w2 47 32)).take (fld c.w2 47 32) } := by
  simp only [CopyCmd.outputs, h]

theorem CopyCmd.outputs_cps (h : c.op = 0xE3) : (c.outputs recs idx data staged).1 =
    (List.range (fld c.w2 31 0)).map fun j => { place := (gatherRow c recs idx j).1
                                                bytes := (data.drop (j * fld c.w2 47 32)).take (fld c.w2 47 32)
                                                src := some (j * fld c.w2 47 32) } := by
  simp only [CopyCmd.outputs, h]

/-- CPG and CPS read and write one run for each row. -/
theorem CopyCmd.length_rows (h : c.op = 0xE2 ∨ c.op = 0xE3) : (c.sources recs idx).length = fld c.w2 31 0 ∧
    (c.outputs recs idx data staged).1.length = fld c.w2 31 0 := by
  rcases h with h | h
  · rw [CopyCmd.sources_cpg recs idx h, CopyCmd.outputs_cpg recs idx data staged h]
    exact ⟨length_map_range .., length_map_range ..⟩
  · rw [CopyCmd.sources_cps recs idx h, CopyCmd.outputs_cps recs idx data staged h]
    exact ⟨length_map_range .., length_map_range ..⟩

end Sys2Proof.Machine
end

section
/-!
Ternary rows (R105, R283): what CPX makes of its rows and their scales.
-/
namespace Sys2Proof.Machine

/-! ## Lists of equal parts -/

theorem length_flatMap_of_length {α β : Type} {f : α → List β} {n : Nat} {l : List α} (h : ∀ x ∈ l, (f x).length = n) :
    (l.flatMap f).length = l.length * n := by
  rw [List.length_flatMap, List.map_congr_left h, List.map_const', List.sum_replicate, smul_eq_mul]

/-- Entry e of part i. -/
theorem getElem?_flatMap_of_length {α β : Type} {f : α → List β} {n e : Nat} (he : e < n) {l : List α}
    (h : ∀ x ∈ l, (f x).length = n) (i : Nat) : (l.flatMap f)[i * n + e]? = l[i]?.bind fun x => (f x)[e]? := by
  induction l generalizing i with
  | nil => rfl
  | cons x l ih =>
    have hx := h x List.mem_cons_self
    rw [List.flatMap_cons]
    cases i with
    | zero =>
      rw [List.getElem?_append_left (by omega), Nat.zero_mul, Nat.zero_add]
      rfl
    | succ i =>
      have hi : (i + 1) * n + e - (f x).length = i * n + e := by
        rw [hx, Nat.add_mul, Nat.one_mul]
        omega
      rw [List.getElem?_append_right (by rw [hx, Nat.add_mul, Nat.one_mul]; omega), hi,
        ih fun y hy => h y (List.mem_cons_of_mem x hy)]
      rfl

/-- Part i as a whole. -/
theorem take_drop_flatMap_of_length {α β : Type} {f : α → List β} {n : Nat} {l : List α} (h : ∀ x ∈ l, (f x).length = n)
    {i : Nat} {x : α} (hi : l[i]? = some x) : ((l.flatMap f).drop (i * n)).take n = f x := by
  refine List.ext_getElem? fun e => ?_
  rw [List.getElem?_take, List.getElem?_drop]
  split
  · next he => rw [getElem?_flatMap_of_length he h, hi, Option.bind_some]
  · next he =>
    rw [List.getElem?_eq_none]
    have := h x (List.mem_of_getElem? hi)
    omega

/-- Number i of a list of two-byte numbers. -/
theorem fieldLE_flatMap_bytesLE {vs : List Nat} {i v : Nat} (h : vs[i]? = some v) (hv : v < 2 ^ 16) :
    fieldLE (vs.flatMap fun v => bytesLE v 2) (2 * i) 2 = v := by
  rw [fieldLE, Nat.mul_comm, take_drop_flatMap_of_length (fun v _ => length_bytesLE v 2) h, natLE_bytesLE]
  exact Nat.mod_eq_of_lt hv

/-! ## Trits -/

theorem length_tritsOf (b : Nat) : (tritsOf b).1.length = 5 := by
  rw [tritsOf_eq]
  split <;> rfl

/-- Code e of a byte's trits: 0, 1, and 2 for −1; those of a reserved byte are 0. -/
def tritCode (b e : Nat) : Nat := if b < 243 then b / 3 ^ e % 3 else 0

theorem getElem?_tritsOf (b : Nat) {e : Nat} (he : e < 5) : ∃ t, (tritsOf b).1[e]? = some t ∧
    (t = 0 ↔ tritCode b e = 0) ∧ (t = 1 ↔ tritCode b e = 1) := by
  rw [tritsOf_eq, tritCode]
  split
  · next h =>
    have hzero : ∀ e < 5, ([0, 0, 0, 0, 0] : List Int)[e]? = some 0 := by decide
    rw [if_neg (Nat.not_lt.mpr h)]
    exact ⟨0, hzero e he, by decide, by decide⟩
  · next h =>
    rw [if_pos (Nat.lt_of_not_le h)]
    refine ⟨tritValue b e, getElem?_map_range _ he, ?_⟩
    have hlt : b / 3 ^ e % 3 < 3 := Nat.mod_lt _ (by decide)
    unfold tritValue
    generalize b / 3 ^ e % 3 = code at hlt ⊢
    interval_cases code <;> decide

/-! ## Scaled trits -/

/-- The value of a trit under a scale (R283). -/
def cpxValue (scale code : Nat) : Nat :=
  if code = 0 then 0 else if (bf16.value scale).isNaN then 0x7FC0 else if code = 1 then scale else scale ^^^ 0x8000

/-- A BF16 number of opposite sign. -/
theorem bf16_negated {x : Nat} (hx : x < 2 ^ 16) : bf16.pack (!bf16.sign x) 0 0 ^^^ (x % 2 ^ 15) = x ^^^ 0x8000 := by
  have hsign : bf16.sign x = x.testBit 15 := by
    rw [Nat.testBit_eq_decide_div_mod_eq, ← Nat.shiftRight_eq_div_pow]
    rfl
  have htop (i : Nat) : Nat.testBit 0x8000 i = decide (15 = i) := Nat.testBit_two_pow (n := 15)
  have hpack (b : Bool) (i : Nat) : (bf16.pack b 0 0).testBit i = (b && decide (15 = i)) := by
    cases b
    · exact Nat.zero_testBit i
    · exact htop i
  refine Nat.eq_of_testBit_eq fun i => ?_
  rw [Nat.testBit_xor, Nat.testBit_xor, Nat.testBit_mod_two_pow, hpack, hsign, htop]
  rcases lt_trichotomy i 15 with hi | rfl | hi
  · simp [hi, hi.ne']
  · cases x.testBit 15 <;> rfl
  · have hhigh : x.testBit i = false := Nat.testBit_lt_two_pow (hx.trans_le (Nat.pow_le_pow_right (by decide) hi))
    simp [hhigh, hi.ne, Nat.not_lt.mpr hi.le]

theorem cpxValue_lt {scale : Nat} (h : scale < 2 ^ 16) (code : Nat) : cpxValue scale code < 2 ^ 16 := by
  unfold cpxValue
  split
  · decide
  · split
    · decide
    · split
      · exact h
      · exact Nat.xor_lt_two_pow h (by decide)

/-- Value e of a row. -/
theorem getElem?_cpxValues {n scale e : Nat} (hscale : scale < 2 ^ 16) (he : e < n) {bs : List Byte} (hbs : bs.length = (n + 4) / 5) :
    (cpxValues n scale bs).1[e]? = some (cpxValue scale (tritCode (bs.getD (e / 5) 0).toNat (e % 5))) := by
  have hi : e / 5 < bs.length := by omega
  obtain ⟨t, ht, hzero, hone⟩ := getElem?_tritsOf (bs.getD (e / 5) 0).toNat (Nat.mod_lt e (by decide : 0 < 5))
  have htrit : (bs.flatMap fun b => (tritsOf b.toNat).1)[e]? = some t := by
    rw [← Nat.div_add_mod' e 5, getElem?_flatMap_of_length (Nat.mod_lt _ (by decide)) fun b _ => length_tritsOf b.toNat,
      List.getElem?_eq_getElem hi, Option.bind_some, ← ht, List.getD_eq_getElem _ _ hi]
  have hcanon : bf16.canonNaN = 0x7FC0 := by decide
  simp only [cpxValues, List.getElem?_map, List.getElem?_take, if_pos he, htrit, Option.map_some, hzero, hone,
    hcanon, bf16_negated hscale]
  rfl

theorem length_cpxValues {n scale : Nat} {bs : List Byte} (hbs : bs.length = (n + 4) / 5) : (cpxValues n scale bs).1.length = n := by
  have := length_flatMap_of_length (f := fun b : Byte => (tritsOf b.toNat).1) (l := bs) fun b _ => length_tritsOf b.toNat
  simp only [cpxValues, List.length_map, List.length_take, this]
  omega

/-! ## The command -/

/-- Trits of a row of a CPX, its bytes in memory, and the rows. -/
def CopyCmd.trits (c : CopyCmd) : Nat := fld c.w2 15 0
def CopyCmd.tritBytes (c : CopyCmd) : Nat := (c.trits + 4) / 5
def CopyCmd.tritRows (c : CopyCmd) : Nat := fld c.w2 31 16

theorem CopyCmd.sources_cpx {c : CopyCmd} (h : c.op = 0xE4) (recs : List LayoutRec) (idx : List Byte) : c.sources recs idx =
    (List.range c.tritRows).map (fun i => (cpxRow c recs i).1) ++ (List.range c.tritRows).map fun i => (cpxRow c recs i).2 := by
  simp only [CopyCmd.sources, h, List.map_map]
  rfl

/-- The bytes of the rows come first, then their scales. -/
theorem getElem?_sources_cpx {c : CopyCmd} (h : c.op = 0xE4) (recs : List LayoutRec) (idx : List Byte) {i : Nat}
    (hi : i < c.tritRows) : (c.sources recs idx)[i]? = some (cpxRow c recs i).1 ∧
      (c.sources recs idx)[c.tritRows + i]? = some (cpxRow c recs i).2 := by
  rw [CopyCmd.sources_cpx h]
  constructor
  · rw [List.getElem?_append_left (by rwa [length_map_range]), getElem?_map_range _ hi]
  · rw [List.getElem?_append_right (by rw [length_map_range]; omega), length_map_range, Nat.add_sub_cancel_left,
      getElem?_map_range _ hi]

/-- The values of row i. -/
def cpxPart (c : CopyCmd) (data : List Byte) (i : Nat) : List Nat :=
  (cpxValues c.trits (fieldLE data (c.tritRows * c.tritBytes + 2 * i) 2)
    ((data.drop (i * c.tritBytes)).take c.tritBytes)).1

theorem CopyCmd.outputs_cpx {c : CopyCmd} (h : c.op = 0xE4) (recs : List LayoutRec) (idx data : List Byte)
    (staged : Option (Tag × List DWord)) : (c.outputs recs idx data staged).1 =
      [{ place := if c.fbits 1 1 = 1 then .slotByte (fld c.w1 5 0) 0 else .scratch (fld c.w1 19 0)
         bytes := ((List.range c.tritRows).flatMap (cpxPart c data)).flatMap fun v => bytesLE v 2 }] := by
  simp only [CopyCmd.outputs, h, List.flatMap_map, List.flatMap_assoc, fieldLE, List.drop_drop, cpxPart]
  rfl

section Rows
variable {c : CopyCmd} {data : List Byte} (hdata : data.length = c.tritRows * c.tritBytes + 2 * c.tritRows)
include hdata

theorem length_cpxRowBytes {i : Nat} (hi : i < c.tritRows) :
    ((data.drop (i * c.tritBytes)).take c.tritBytes).length = (c.trits + 4) / 5 := by
  have hrow : (i + 1) * c.tritBytes ≤ c.tritRows * c.tritBytes := Nat.mul_le_mul_right _ hi
  rw [Nat.add_mul, Nat.one_mul] at hrow
  rw [List.length_take, List.length_drop, ← CopyCmd.tritBytes]
  omega

theorem length_cpxPart {i : Nat} (hi : i < c.tritRows) : (cpxPart c data i).length = c.trits :=
  length_cpxValues (length_cpxRowBytes hdata hi)

theorem length_cpxOutput : (((List.range c.tritRows).flatMap (cpxPart c data)).flatMap fun v => bytesLE v 2).length =
    2 * c.tritRows * c.trits := by
  rw [length_flatMap_of_length fun v _ => length_bytesLE v 2,
    length_flatMap_of_length fun i hi => length_cpxPart hdata (List.mem_range.mp hi), List.length_range]
  ring

/-- Trit e of row i, scaled. -/
theorem fieldLE_cpxOutput {i e : Nat} (hi : i < c.tritRows) (he : e < c.trits) :
    fieldLE (((List.range c.tritRows).flatMap (cpxPart c data)).flatMap fun v => bytesLE v 2) (2 * (i * c.trits + e)) 2 =
      cpxValue (fieldLE data (c.tritRows * c.tritBytes + 2 * i) 2)
        (tritCode (data.getD (i * c.tritBytes + e / 5) 0).toNat (e % 5)) := by
  have hscale : fieldLE data (c.tritRows * c.tritBytes + 2 * i) 2 < 2 ^ 16 :=
    (natLE_lt _).trans_le (Nat.pow_le_pow_right (by decide) (by rw [List.length_take]; omega))
  have hbyte : ((data.drop (i * c.tritBytes)).take c.tritBytes).getD (e / 5) 0 = data.getD (i * c.tritBytes + e / 5) 0 := by
    have : e / 5 < c.tritBytes := by
      rw [CopyCmd.tritBytes]
      omega
    rw [List.getD_eq_getElem?_getD, List.getElem?_take, if_pos this, List.getElem?_drop, List.getD_eq_getElem?_getD]
  refine fieldLE_flatMap_bytesLE ?_ (cpxValue_lt hscale _)
  rw [getElem?_flatMap_of_length he fun i hi => length_cpxPart hdata (List.mem_range.mp hi), List.getElem?_range hi,
    Option.bind_some, cpxPart, getElem?_cpxValues hscale he (length_cpxRowBytes hdata hi), hbyte]

end Rows

end Sys2Proof.Machine
end

section
/-!
Rows of accumulator elements converted to memory (R284): what CPA writes.
-/
namespace Sys2Proof.Machine

/-! ## Values -/

/-- The scale of a CPA. -/
def CopyCmd.scale (c : CopyCmd) : FVal := fp32.value (fld c.w0 63 32)

/-- The value that a CPA encodes for an element: its own, or its product with the scale. -/
def cpaValue (c : CopyCmd) (tag : Tag) (x : DWord) : FVal :=
  if c.fbits 2 2 = 1 then (tagValue tag x.toNat).product c.scale else tagValue tag x.toNat

/-- No value: a NaN, or ∞ × 0. -/
def cpaBad (c : CopyCmd) (a : FVal) : Bool :=
  a.isNaN || decide (c.fbits 2 2 = 1) && (c.scale.isNaN || infTimesZero a c.scale)

section Value
variable {c : CopyCmd} {tag : Tag} {x : DWord}

/-- CPA's exact term is that of its value (R108). -/
theorem cpaValue_term : (if c.fbits 2 2 = 1 then (tagTerm tag x.toNat).mul (fp32.value (fld c.w0 63 32)).term
    else tagTerm tag x.toNat) = (cpaValue c tag x).term := by
  rw [cpaValue, tagTerm_eq, FVal.term_mul]
  split <;> rfl

theorem cpaValue_of_bad (h : cpaBad c (tagValue tag x.toNat) = true) : (cpaValue c tag x).isNaN = true := by
  unfold cpaBad at h
  unfold cpaValue
  split
  · next hscaled =>
    rw [FVal.product, if_pos (by simpa [hscaled, Bool.or_assoc] using h)]
    rfl
  · next hscaled => simpa [hscaled] using h

theorem cpaValue_of_isInf (hbad : cpaBad c (tagValue tag x.toNat) = false)
    (h : ((tagValue tag x.toNat).isInf || decide (c.fbits 2 2 = 1) && c.scale.isInf) = true) :
    cpaValue c tag x = .inf ((tagValue tag x.toNat).neg != (decide (c.fbits 2 2 = 1) && c.scale.neg)) := by
  unfold cpaBad at hbad
  unfold cpaValue
  split
  · next hscaled =>
    simp only [hscaled, decide_true, Bool.true_and, Bool.or_eq_false_iff] at hbad h ⊢
    obtain ⟨ha, hk, hzero⟩ := hbad
    exact FVal.product_of_isInf (by rw [ha, hk]; rfl) hzero h
  · next hscaled =>
    simp only [hscaled, decide_false, Bool.false_and, Bool.or_false, Bool.bne_false] at h ⊢
    exact FVal.eq_inf_of_isInf h

theorem cpaValue_of_isFin (ha : (tagValue tag x.toNat).isFin = true) (hk : c.fbits 2 2 = 1 → c.scale.isFin = true) :
    cpaValue c tag x = (if c.fbits 2 2 = 1 then (tagValue tag x.toNat).times c.scale else tagValue tag x.toNat) ∧
      (cpaValue c tag x).isFin = true := by
  unfold cpaValue
  split
  · next hscaled =>
    rw [FVal.isFin_eq, Bool.and_eq_true, Bool.not_eq_true', Bool.not_eq_true'] at ha
    have hk := hk hscaled
    rw [FVal.isFin_eq, Bool.and_eq_true, Bool.not_eq_true', Bool.not_eq_true'] at hk
    obtain ⟨hproduct, hfin⟩ := FVal.product_of_finite (y := c.scale) (by rw [ha.1, hk.1]; rfl) (by rw [ha.2, hk.2]; rfl)
    exact ⟨hproduct, hproduct ▸ hfin⟩
  · exact ⟨rfl, ha⟩

end Value

/-! ## Formats -/

/-- The bits of a value in a format, rounded to nearest; `.sat` keeps infinities out of it. -/
def FVal.encoded (f : Fmt) (sat : Bool) : FVal → Nat
  | .nan _ => f.canonNaN
  | .inf n => if sat then f.maxFinite n else f.infinity n
  | .fin n m e => (roundTo f { sat } n m e).1

theorem isBlockType_of_fmtOf {ty : Nat} {f : Fmt} (h : fmtOf ty = some f) : isBlockType ty = false := by
  by_contra hblock
  simp only [isBlockType, Bool.not_eq_false, Bool.and_eq_true, decide_eq_true_eq] at hblock
  obtain ⟨hlow, hhigh⟩ := hblock
  interval_cases ty <;> cases h

theorem cpaRow_of_format {c : CopyCmd} {f : Fmt} (h : fmtOf (cpaType c) = some f) (tag : Tag) (xs : List DWord) :
    (cpaRow c tag xs).1 =
      xs.flatMap fun x => bytesLE ((cpaValue c tag x).encoded f (c.m.getLsbD 0)) (typeBits (cpaType c) / 8) := by
  simp only [cpaRow, cpaValue_term, isBlockType_of_fmtOf h, h, Bool.false_eq_true, if_false, List.flatMap_map]
  refine List.flatMap_congr fun x _ => congrArg (bytesLE · _) ?_
  cases cpaValue c tag x with
  | nan n => rfl
  | inf n => rfl
  | fin n m e => exact congrArg Prod.fst (Term.round_term_fin ..)

/-! ## Blocks -/

theorem groupsBy_of_length {α : Type} {n : Nat} {l : List α} (h : l.length = n + 1) : groupsBy (n + 1) l.length l = [l] := by
  have hne : l.isEmpty = false := by
    rw [List.isEmpty_eq_false_iff, ← List.length_pos_iff_ne_nil]
    omega
  rw [h, groupsBy, hne, if_neg Bool.false_ne_true, List.take_of_length_le h.le, List.drop_of_length_le h.le]
  cases n <;> rfl

/-- What gives the terms of finite values back gives the values back. -/
theorem map_term_of_isFin {g : Term → FVal} (hg : ∀ n d, g (.num n d) = .fin n d.m.natAbs d.e) {α : Type} {v : α → FVal}
    {xs : List α} (h : ∀ x ∈ xs, (v x).isFin = true) : (xs.map fun x => (v x).term).map g = xs.map v := by
  rw [List.map_map]
  refine List.map_congr_left fun x hx => ?_
  have hx := h x hx
  rw [Function.comp_apply]
  cases hv : v x with
  | fin n m e => cases n <;> simp [FVal.term, hg]
  | _ => simp [hv, FVal.isFin] at hx

/-- A block of finite values is the block of their exact terms. -/
theorem cpaRow_of_block {c : CopyCmd} (h : isBlockType (cpaType c) = true) {tag : Tag} {xs : List DWord} (hlen : xs.length = 32)
    (hfin : ∀ x ∈ xs, (cpaValue c tag x).isFin = true) :
    (cpaRow c tag xs).1 = (sbBlock (cpaType c) (xs.map (cpaValue c tag))).1 := by
  have hlen' : (xs.map (cpaValue c tag)).length = 31 + 1 := by rw [List.length_map, hlen]
  simp only [cpaRow, cpaValue_term, h, if_true]
  rw [map_term_of_isFin fun _ _ => rfl, groupsBy_of_length hlen']
  · rfl
  · exact hfin

/-! ## The command -/

theorem CopyCmd.sources_cpa {c : CopyCmd} (h : c.op = 0xE5) (recs : List LayoutRec) (idx : List Byte) :
    c.sources recs idx = [] := by
  simp only [CopyCmd.sources, h]

theorem CopyCmd.outputs_cpa {c : CopyCmd} (h : c.op = 0xE5) (recs : List LayoutRec) (idx data : List Byte) (tag : Tag)
    (xs : List DWord) : (c.outputs recs idx data (some (tag, xs))).1 =
      (groupsBy (cpaEls c) xs.length xs).zipIdx.map fun x =>
        { place := (c.at recs 5 0 (cpaReach c)).plus (x.2 * cpaPitch c), bytes := (cpaRow c tag x.1).1 } := by
  simp only [CopyCmd.outputs, h, List.zipIdx_map, List.map_map]
  rfl

end Sys2Proof.Machine
end

section
/-!
Boxes of tensors (R280, R318): the rows of a CPT.
-/
namespace Sys2Proof.Machine

/-! ## Dimensions above the first -/

/-- The dimensions from 1 on, below a rank. -/
def upperDims (rank : Nat) : List Nat := (List.range rank).drop 1

theorem upperDims_succ {n : Nat} (h : 0 < n) : upperDims (n + 1) = upperDims n ++ [n] := by
  rw [upperDims, List.range_succ, List.drop_append_of_le_length (by rwa [List.length_range]), upperDims]

theorem mem_upperDims {n d : Nat} : d ∈ upperDims n ↔ 1 ≤ d ∧ d < n := by
  cases n with
  | zero => simp [upperDims]
  | succ n =>
    rw [upperDims, List.range_succ_eq_map, List.drop_one, List.tail_cons, List.mem_map]
    simp only [List.mem_range]
    constructor
    · rintro ⟨e, he, rfl⟩
      omega
    · exact fun h => ⟨d - 1, by omega, by omega⟩

/-- Rows of the box in the dimensions from 1 on, below dimension d. -/
def boxBelow (r : LayoutRec) (d : Nat) : Nat := (upperDims d).foldl (fun n j => n * r.box.getD j 0) 1

theorem boxBelow_succ (r : LayoutRec) {n : Nat} (h : 0 < n) : boxBelow r (n + 1) = boxBelow r n * r.box.getD n 0 := by
  rw [boxBelow, upperDims_succ h, List.foldl_append]
  rfl

/-- A box with rows has an extent in every dimension from 1 on. -/
theorem box_ne_zero_of_boxBelow {r : LayoutRec} {n d : Nat} (h : boxBelow r n ≠ 0) (hd : d ∈ upperDims n) :
    r.box.getD d 0 ≠ 0 := by
  have hprod : boxBelow r n = ((upperDims n).map fun j => r.box.getD j 0).prod := by
    rw [List.prod_eq_foldl, List.foldl_map, boxBelow]
  exact fun hzero => h (hprod.trans (List.prod_eq_zero (List.mem_map.mpr ⟨d, hd, hzero⟩)))

theorem getD_eq_getD_of_ne_zero {l : List Nat} {d : Nat} (h : l.getD d 0 ≠ 0) : l.getD d 1 = l.getD d 0 := by
  rw [List.getD_eq_getElem?_getD] at h ⊢
  rw [List.getD_eq_getElem?_getD]
  cases hd : l[d]? with
  | none => simp [hd] at h
  | some x => rfl

/-! ## One row -/

/-- The coordinate of row q of the box in dimension d. -/
def rowCoord (c : CopyCmd) (r : LayoutRec) (q d : Nat) : Int :=
  (cptCoords c).getD d 0 + (q / boxBelow r d % r.box.getD d 0 : Nat)

/-- The row lies within the tensor in dimension d. -/
def rowWithin (c : CopyCmd) (r : LayoutRec) (q d : Nat) : Bool :=
  decide (0 ≤ rowCoord c r q d) && decide (rowCoord c r q d < r.dims.getD d 0)

/-- A step of the walk over the dimensions from 1 on: what is left of the row's number, the offset of the row, and whether it
lies within the tensor so far. -/
def rowStep (c : CopyCmd) (r : LayoutRec) (acc : Nat × Int × Bool) (d : Nat) : Nat × Int × Bool :=
  let b := r.box.getD d 1
  let x : Int := (cptCoords c).getD d 0 + (acc.1 % b : Nat)
  (acc.1 / b, acc.2.1 + x * r.strides.getD d 0, acc.2.2 && 0 ≤ x && x < r.dims.getD d 0)

/-- The walk finds the row's coordinates. -/
theorem foldl_rowStep (c : CopyCmd) {r : LayoutRec} (q : Nat) {n : Nat} (h : ∀ d ∈ upperDims n, r.box.getD d 0 ≠ 0) :
    (upperDims n).foldl (rowStep c r) (q, 0, true) =
      (q / boxBelow r n, ((upperDims n).map fun d => rowCoord c r q d * r.strides.getD d 0).sum,
        (upperDims n).all (rowWithin c r q)) := by
  induction n with
  | zero => simp [upperDims, boxBelow]
  | succ n ih =>
    rcases Nat.eq_zero_or_pos n with rfl | hn
    · simp [upperDims, boxBelow]
    · have hbox : r.box.getD n 1 = r.box.getD n 0 := getD_eq_getD_of_ne_zero (h n (mem_upperDims.mpr ⟨hn, Nat.lt_succ_self n⟩))
      have hlower : ∀ d ∈ upperDims n, r.box.getD d 0 ≠ 0 := fun d hd =>
        h d (by rw [upperDims_succ hn]; exact List.mem_append_left _ hd)
      rw [boxBelow_succ r hn, upperDims_succ hn, List.foldl_append, ih hlower, List.map_append, List.sum_append, List.all_append,
        ← Nat.div_div_eq_div_mul]
      simp only [List.foldl_cons, List.foldl_nil, List.map_cons, List.map_nil, List.sum_cons, List.sum_nil, add_zero,
        List.all_cons, List.all_nil, Bool.and_true, rowStep, hbox, rowWithin, rowCoord, Bool.and_assoc]
      rfl

/-- The row at the end of the walk, cut to the tensor's extent in dimension 0. -/
def walkedRow (c : CopyCmd) (r : LayoutRec) (q : Nat) (acc : Nat × Int × Bool) : BoxRow :=
  let x0 := (cptDim0 c r).1
  let b0 := (cptDim0 c r).2.1
  let n0 := (cptDim0 c r).2.2
  if acc.2.2 && decide (max x0 0 < min (x0 + b0) (n0 : Int)) then
    { first := q * b0, row := some acc.2.1, lo := max x0 0, hi := min (x0 + b0) n0 }
  else { first := q * b0, row := none, lo := 0, hi := 0 }

/-- Row q of the box. -/
def boxRow (c : CopyCmd) (r : LayoutRec) (q : Nat) : BoxRow :=
  let x0 := (cptDim0 c r).1
  let b0 := (cptDim0 c r).2.1
  let n0 := (cptDim0 c r).2.2
  if (upperDims r.rank).all (rowWithin c r q) = true ∧ max x0 0 < min (x0 + b0) (n0 : Int) then
    { first := q * b0, row := some ((upperDims r.rank).map fun d => rowCoord c r q d * r.strides.getD d 0).sum
      lo := max x0 0, hi := min (x0 + b0) n0 }
  else { first := q * b0, row := none, lo := 0, hi := 0 }

theorem boxRow_first (c : CopyCmd) (r : LayoutRec) (q : Nat) : (boxRow c r q).first = q * (cptDim0 c r).2.1 := by
  unfold boxRow
  dsimp only
  split <;> rfl

/-- The rows of the box in their order. -/
theorem cptRows_eq (c : CopyCmd) (r : LayoutRec) : cptRows c r =
    if (cptDim0 c r).2.1 = 0 then [] else (List.range (boxBelow r r.rank)).map (boxRow c r) := by
  unfold cptRows
  dsimp only
  refine if_congr Iff.rfl rfl (List.map_congr_left fun q hq => ?_)
  have hcount : boxBelow r r.rank ≠ 0 := Nat.ne_zero_of_lt (List.mem_range.mp hq)
  have hwalk := foldl_rowStep c q fun d hd => box_ne_zero_of_boxBelow hcount hd
  change walkedRow c r q ((upperDims r.rank).foldl (rowStep c r) (q, 0, true)) = boxRow c r q
  simp only [hwalk, walkedRow, Bool.and_eq_true, decide_eq_true_eq]
  rfl

theorem getElem?_cptRows {c : CopyCmd} {r : LayoutRec} {q : Nat} {x : BoxRow} (h : (cptRows c r)[q]? = some x) :
    (cptDim0 c r).2.1 ≠ 0 ∧ q < boxBelow r r.rank ∧ x = boxRow c r q := by
  rw [cptRows_eq] at h
  split at h
  · cases h
  · next hb =>
    have hq : q < boxBelow r r.rank := by
      by_contra hq
      rw [List.getElem?_eq_none (by rw [List.length_map, List.length_range]; omega)] at h
      cases h
    rw [List.getElem?_map, List.getElem?_range hq, Option.map_some] at h
    exact ⟨hb, hq, (Option.some.inj h).symm⟩

/-! ## Runs of a row -/

theorem rowSpan_of_some (bits : Nat) {x : BoxRow} {off : Int} (h : x.row = some off) :
    rowSpan bits x = (off + ((x.lo.toNat * bits / 8 : Nat) : Int), (x.hi.toNat * bits + 7) / 8 - x.lo.toNat * bits / 8) := by
  simp only [rowSpan, h]

theorem rowRun_of_le {r : LayoutRec} {x : BoxRow}
    (h : (rowSpan (unitBits r.type) x).1 + (rowSpan (unitBits r.type) x).2 ≤ (r.len : Int)) :
    rowRun r x = (r.place (rowSpan (unitBits r.type) x).1, (rowSpan (unitBits r.type) x).2) :=
  if_neg (not_lt.mpr h)

end Sys2Proof.Machine
end

section
/-!
The packed box of a CPT (R280, R318): its units are digits of one number, each at a place of its own.
-/
namespace Sys2Proof.Machine

/-! ## Digits -/

/-- A digit added where there was none stands there, and no other digit changes. -/
theorem digit_add {B S q d : Nat} (hB : 0 < B) (hS : S / B ^ q % B = 0) (hd : d < B) (p : Nat) :
    (S + d * B ^ q) / B ^ p % B = if p = q then d else S / B ^ p % B := by
  rcases lt_trichotomy p q with hp | rfl | hp
  · obtain ⟨k, rfl⟩ := Nat.exists_eq_add_of_lt hp
    have hshift : d * B ^ (p + k + 1) = d * B ^ k * B * B ^ p := by ring
    rw [if_neg hp.ne, hshift, Nat.add_mul_div_right _ _ (by positivity), Nat.add_mul_mod_self_right]
  · rw [if_pos rfl, Nat.add_mul_div_right _ _ (by positivity), Nat.add_mod, hS, Nat.zero_add, Nat.mod_mod, Nat.mod_eq_of_lt hd]
  · obtain ⟨k, rfl⟩ := Nat.exists_eq_add_of_lt hp
    have hpow : B ^ (q + k + 1) = B ^ q * (B * B ^ k) := by ring
    obtain ⟨m, hm⟩ := Nat.dvd_of_mod_eq_zero hS
    rw [if_neg hp.ne', hpow, ← Nat.div_div_eq_div_mul, ← Nat.div_div_eq_div_mul, ← Nat.div_div_eq_div_mul,
      ← Nat.div_div_eq_div_mul, Nat.add_mul_div_right _ _ (by positivity), hm, Nat.mul_add_div hB, Nat.div_eq_of_lt hd,
      Nat.mul_div_cancel_left _ hB, Nat.add_zero]

/-- The number with digits at some places. -/
def withDigits (B : Nat) (l : List (Nat × Nat)) (S : Nat) : Nat := l.foldl (fun p w => p + w.2 * B ^ w.1) S

/-- Digits at places of their own, where there were none, are read back, and no other digit changes. -/
theorem digit_withDigits {B : Nat} (hB : 0 < B) {l : List (Nat × Nat)} {S : Nat} (hplaces : (l.map Prod.fst).Nodup)
    (hlt : ∀ w ∈ l, w.2 < B) (hS : ∀ w ∈ l, S / B ^ w.1 % B = 0) :
    (∀ w ∈ l, withDigits B l S / B ^ w.1 % B = w.2) ∧
      ∀ p ∉ l.map Prod.fst, withDigits B l S / B ^ p % B = S / B ^ p % B := by
  induction l generalizing S with
  | nil => exact ⟨fun w hw => (List.not_mem_nil hw).elim, fun p _ => rfl⟩
  | cons a l ih =>
    rw [List.map_cons, List.nodup_cons] at hplaces
    obtain ⟨ha, hrest⟩ := hplaces
    have hadd := digit_add hB (hS a List.mem_cons_self) (hlt a List.mem_cons_self)
    have hne : ∀ w ∈ l, w.1 ≠ a.1 := fun w hw he => ha (he ▸ List.mem_map_of_mem hw)
    obtain ⟨hin, hout⟩ := ih hrest (fun w hw => hlt w (List.mem_cons_of_mem a hw)) (S := S + a.2 * B ^ a.1) fun w hw => by
      rw [hadd, if_neg (hne w hw), hS w (List.mem_cons_of_mem a hw)]
    refine ⟨fun w hw => ?_, fun p hp => ?_⟩
    · rcases List.mem_cons.mp hw with rfl | hw
      · exact (hout _ ha).trans ((hadd _).trans (if_pos rfl))
      · exact hin w hw
    · rw [List.map_cons, List.mem_cons, not_or] at hp
      exact (hout p hp.2).trans ((hadd p).trans (if_neg hp.1))

/-! ## Places of units -/

/-- The place of a unit in the packed box, which `.tr` turns over (R280). -/
def unitPlace (c : CopyCmd) (r : LayoutRec) (e : Nat) : Nat :=
  if c.fbits 2 2 = 1 then transposed (cptDim0 c r).2.1 (if 1 < r.rank then r.box.getD 1 1 else 1) e else e

/-- Turning over takes no two units to one place. -/
theorem transposed_injective {b0 b1 : Nat} (h0 : 0 < b0) (h1 : 0 < b1) : Function.Injective (transposed b0 b1) := by
  intro d e h
  have hform (e : Nat) : transposed b0 b1 e = e / b0 % b1 + b1 * (e % b0 + b0 * (e / b0 / b1)) := by
    rw [transposed]
    ring
  have hlow (e : Nat) : transposed b0 b1 e % b1 = e / b0 % b1 := by
    rw [hform, Nat.add_mul_mod_self_left, Nat.mod_mod]
  have hhigh (e : Nat) : transposed b0 b1 e / b1 = e % b0 + b0 * (e / b0 / b1) := by
    rw [hform, Nat.add_mul_div_left _ _ h1, Nat.div_eq_of_lt (Nat.mod_lt _ h1), Nat.zero_add]
  have hdigit : d / b0 % b1 = e / b0 % b1 := by rw [← hlow, ← hlow, h]
  have hrest : d % b0 + b0 * (d / b0 / b1) = e % b0 + b0 * (e / b0 / b1) := by rw [← hhigh, ← hhigh, h]
  have hcol : d % b0 = e % b0 := by
    have := congrArg (· % b0) hrest
    simpa only [Nat.add_mul_mod_self_left, Nat.mod_mod] using this
  have hrow : d / b0 / b1 = e / b0 / b1 := Nat.eq_of_mul_eq_mul_left h0 (by omega)
  have hquot : d / b0 = e / b0 := by rw [← Nat.div_add_mod (d / b0) b1, ← Nat.div_add_mod (e / b0) b1, hdigit, hrow]
  rw [← Nat.div_add_mod d b0, ← Nat.div_add_mod e b0, hcol, hquot]

theorem unitPlace_injective {c : CopyCmd} {r : LayoutRec} (h0 : (cptDim0 c r).2.1 ≠ 0) (hrows : boxBelow r r.rank ≠ 0) :
    Function.Injective (unitPlace c r) := by
  unfold unitPlace
  split
  · refine transposed_injective (Nat.pos_of_ne_zero h0) ?_
    split
    · next hrank =>
      have := box_ne_zero_of_boxBelow hrows (mem_upperDims.mpr ⟨le_rfl, hrank⟩)
      rw [getD_eq_getD_of_ne_zero this]
      exact Nat.pos_of_ne_zero this
    · exact Nat.one_pos
  · exact fun _ _ h => h

/-- Rows of n units, one after another, number them all. -/
theorem flatMap_range_mul (m n : Nat) :
    ((List.range m).flatMap fun q => (List.range n).map fun i => q * n + i) = List.range (m * n) := by
  induction m with
  | zero => simp
  | succ m ih =>
    rw [List.range_succ, List.flatMap_append, ih, Nat.succ_mul, List.range_add]
    simp

/-! ## Bytes of rows -/

/-- The rows with their bytes, which follow one another. -/
def withBytes (bits : Nat) : List BoxRow → List Byte → List (BoxRow × List Byte)
  | [], _ => []
  | x :: l, bs => (x, bs.take (rowSpan bits x).2) :: withBytes bits l (bs.drop (rowSpan bits x).2)

theorem map_fst_withBytes (bits : Nat) (l : List BoxRow) (bs : List Byte) : (withBytes bits l bs).map Prod.fst = l := by
  induction l generalizing bs with
  | nil => rfl
  | cons x l ih => rw [withBytes, List.map_cons, ih]

theorem getElem?_withBytes {bits : Nat} {l : List BoxRow} {k : Nat} {x : BoxRow} (h : l[k]? = some x) (bs : List Byte) :
    (withBytes bits l bs)[k]? =
      some (x, (bs.drop ((l.take k).map fun y => (rowSpan bits y).2).sum).take (rowSpan bits x).2) := by
  induction l generalizing k bs with
  | nil => cases h
  | cons y l ih =>
    cases k with
    | zero =>
      cases h
      rfl
    | succ k =>
      rw [List.getElem?_cons_succ] at h
      rw [withBytes, List.getElem?_cons_succ, ih h, List.drop_drop, List.take_succ_cons, List.map_cons, List.sum_cons]

/-- A fold over rows that takes each row's bytes off the rest is one over the rows with their bytes. -/
theorem foldl_withBytes {bits : Nat} (F : Nat → BoxRow → List Byte → Nat) (l : List BoxRow) (p : Nat) (bs : List Byte) :
    (l.foldl (fun (acc : Nat × List Byte) x =>
      (F acc.1 x (acc.2.take (rowSpan bits x).2), acc.2.drop (rowSpan bits x).2)) (p, bs)).1 =
      (withBytes bits l bs).foldl (fun p y => F p y.1 y.2) p := by
  induction l generalizing p bs with
  | nil => rfl
  | cons x l ih => exact ih _ _

/-! ## The packed box -/

/-- Unit i of a row with its bytes: from the tensor where it lies within, else the fill (R280, R318). -/
def unitOf (c : CopyCmd) (r : LayoutRec) (y : BoxRow × List Byte) (i : Nat) : Nat :=
  let bits := unitBits r.type
  let g : Int := (cptDim0 c r).1 + i
  if y.1.row.isSome = true ∧ y.1.lo ≤ g ∧ g < y.1.hi then
    natLE y.2 / 2 ^ (y.1.lo.toNat * bits % 8 + (g - y.1.lo).toNat * bits) % 2 ^ bits
  else r.fill % 2 ^ bits

/-- The units of the packed box, each with its place. -/
def boxUnits (c : CopyCmd) (r : LayoutRec) (data : List Byte) : List (Nat × Nat) :=
  (withBytes (unitBits r.type) (cptRows c r) data).flatMap fun y =>
    (List.range (cptDim0 c r).2.1).map fun i => (unitPlace c r (y.1.first + i), unitOf c r y i)

/-- A unit shifted to its place, as the model adds it. -/
theorem shifted_unit (c : CopyCmd) (r : LayoutRec) (x : BoxRow) (bs : List Byte) (i : Nat) :
    (if (x.row.isSome && decide (x.lo ≤ (cptDim0 c r).1 + (i : Int)) && decide ((cptDim0 c r).1 + (i : Int) < x.hi)) = true then
        natLE bs >>> (x.lo.toNat * unitBits r.type % 8) >>> (((cptDim0 c r).1 + (i : Int) - x.lo).toNat * unitBits r.type) %
          2 ^ unitBits r.type
      else r.fill % 2 ^ unitBits r.type) <<<
        (unitBits r.type *
          if (c.fbits 2 2 == 1) = true then transposed (cptDim0 c r).2.1 (if 1 < r.rank then r.box.getD 1 1 else 1) (x.first + i)
          else x.first + i) =
      unitOf c r (x, bs) i * (2 ^ unitBits r.type) ^ unitPlace c r (x.first + i) := by
  rw [Nat.shiftLeft_eq, Nat.pow_mul, ← Nat.shiftRight_add, Nat.shiftRight_eq_div_pow]
  simp only [unitOf, unitPlace, Bool.and_eq_true, decide_eq_true_eq, beq_iff_eq, and_assoc]

theorem packLoad_eq (c : CopyCmd) {r : LayoutRec} (h : isBlockType r.type = false) (data : List Byte) :
    packLoad c r data = withDigits (2 ^ unitBits r.type) (boxUnits c r data) 0 := by
  rw [withDigits, boxUnits, List.foldl_flatMap, packLoad]
  simp only [h, Bool.false_eq_true, if_false, List.foldl_map, shifted_unit]
  exact foldl_withBytes (fun p x bs => (List.range (cptDim0 c r).2.1).foldl
    (fun p i => p + unitOf c r (x, bs) i * (2 ^ unitBits r.type) ^ unitPlace c r (x.first + i)) p) _ 0 data

/-- Every unit of the box has a place of its own. -/
theorem nodup_boxUnits (c : CopyCmd) (r : LayoutRec) (data : List Byte) : ((boxUnits c r data).map Prod.fst).Nodup := by
  have hplaces : (boxUnits c r data).map Prod.fst =
      (cptRows c r).flatMap fun x => (List.range (cptDim0 c r).2.1).map fun i => unitPlace c r (x.first + i) := by
    conv_rhs => rw [← map_fst_withBytes (unitBits r.type) (cptRows c r) data, List.flatMap_map]
    rw [boxUnits, List.map_flatMap]
    simp only [List.map_map, Function.comp_def]
  rw [hplaces, cptRows_eq]
  split
  · exact List.nodup_nil
  · next h0 =>
    have hall : (((List.range (boxBelow r r.rank)).map (boxRow c r)).flatMap fun x =>
        (List.range (cptDim0 c r).2.1).map fun i => unitPlace c r (x.first + i)) =
        (List.range (boxBelow r r.rank * (cptDim0 c r).2.1)).map (unitPlace c r) := by
      rw [← flatMap_range_mul, List.flatMap_map, List.map_flatMap]
      simp only [List.map_map, Function.comp_def, boxRow_first]
    rw [hall]
    by_cases hrows : boxBelow r r.rank = 0
    · rw [hrows, Nat.zero_mul]
      exact List.nodup_nil
    · exact List.Nodup.map (unitPlace_injective h0 hrows) List.nodup_range

theorem unitOf_lt (c : CopyCmd) (r : LayoutRec) (y : BoxRow × List Byte) (i : Nat) : unitOf c r y i < 2 ^ unitBits r.type := by
  unfold unitOf
  dsimp only
  split <;> exact Nat.mod_lt _ (by positivity)

/-- Unit i of row k stands at its place in the packed box. -/
theorem unit_packLoad {c : CopyCmd} {r : LayoutRec} (h : isBlockType r.type = false) (data : List Byte) {k : Nat} {x : BoxRow}
    (hx : (cptRows c r)[k]? = some x) {i : Nat} (hi : i < (cptDim0 c r).2.1) :
    packLoad c r data / 2 ^ (unitBits r.type * unitPlace c r (x.first + i)) % 2 ^ unitBits r.type =
      unitOf c r (x, (data.drop (((cptRows c r).take k).map fun y => (rowSpan (unitBits r.type) y).2).sum).take
        (rowSpan (unitBits r.type) x).2) i := by
  have hmem : (unitPlace c r (x.first + i), unitOf c r (x, (data.drop
      (((cptRows c r).take k).map fun y => (rowSpan (unitBits r.type) y).2).sum).take (rowSpan (unitBits r.type) x).2) i) ∈
      boxUnits c r data :=
    List.mem_flatMap.mpr ⟨_, List.mem_of_getElem? (getElem?_withBytes hx data), List.mem_map.mpr ⟨i, List.mem_range.mpr hi, rfl⟩⟩
  have hlt : ∀ w ∈ boxUnits c r data, w.2 < 2 ^ unitBits r.type := by
    intro w hw
    obtain ⟨y, -, hw⟩ := List.mem_flatMap.mp hw
    obtain ⟨j, -, rfl⟩ := List.mem_map.mp hw
    exact unitOf_lt c r y j
  rw [packLoad_eq c h, Nat.pow_mul]
  exact (digit_withDigits (by positivity) (nodup_boxUnits c r data) hlt fun w _ => by rw [Nat.zero_div, Nat.zero_mod]).1 _ hmem

end Sys2Proof.Machine
end

section
/-!
What CPT reads and writes (R280, R281, R318), and the copies together: O31.
-/
namespace Sys2Proof.Machine

/-! ## The runs of a box -/

section Cpt
variable {c : CopyCmd} (h : c.op = 0xE0) (r : LayoutRec) (idx data : List Byte) (staged : Option (Tag × List DWord))
include h

theorem CopyCmd.sources_cpt_load (hload : c.fbits 0 0 = 0) : c.sources [r] idx =
    ((cptRows c r).filter fun x => x.row.isSome).map (rowRun r) := by
  simp only [CopyCmd.sources, h, hload, if_true]

theorem CopyCmd.sources_cpt_store (hstore : c.fbits 0 0 = 1) : c.sources [r] idx = (packedRuns c r).map (·.2) := by
  simp only [CopyCmd.sources, h, hstore, one_ne_zero, if_false]

theorem CopyCmd.outputs_cpt_slot (hload : c.fbits 0 0 = 0) (hslot : c.fbits 1 1 = 1) (hblock : isBlockType r.type = false) :
    (c.outputs [r] idx data staged).1 =
      [{ place := .slotByte (fld c.w0 37 32) 0, bytes := bytesLE (packLoad c r data) (packedBytes r) }] := by
  simp only [CopyCmd.outputs, h, hload, hslot, hblock, if_true, Bool.false_eq_true, if_false]

theorem CopyCmd.outputs_cpt_scratch (hload : c.fbits 0 0 = 0) (hscratch : c.fbits 1 1 = 0) :
    (c.outputs [r] idx data staged).1 = (packedRuns c r).map fun x =>
      { place := x.2.1, bytes := ((bytesLE (packLoad c r data) (packedBytes r)).drop x.1).take x.2.2 } := by
  simp only [CopyCmd.outputs, h, hload, hscratch, if_true, zero_ne_one, if_false]

theorem CopyCmd.outputs_cpt_store (hstore : c.fbits 0 0 = 1) : (c.outputs [r] idx data staged).1 =
    ((cptRows c r).filter fun x => x.row.isSome).map fun x =>
      let bits := unitBits r.type
      let n := (rowSpan bits x).2
      let sh := x.lo.toNat * bits % 8
      let count := (x.hi - x.lo).toNat
      { place := (rowRun r x).1
        bytes := bytesLE (natLE data / 2 ^ (bits * (x.first + (x.lo - (cptDim0 c r).1).toNat)) % 2 ^ (bits * count) * 2 ^ sh) n
        mask := if bits % 8 = 0 then [] else bytesLE ((2 ^ (bits * count) - 1) * 2 ^ sh) n } := by
  simp only [CopyCmd.outputs, h, hstore, one_ne_zero, if_false, Nat.shiftRight_eq_div_pow, Nat.shiftLeft_eq]

end Cpt

/-! ## The swizzle (R318) -/

/-- Turning bits from 4 on over leaves the place of a byte among its sixteen. -/
theorem xor_mul_sixteen (a b k : Nat) (hb : b < 16) : (16 * a + b) ^^^ (k * 16) = (16 * a ^^^ (k * 16)) + b := by
  have hbit (x y j : Nat) (hy : y < 16) : (16 * x + y).testBit j = if j < 4 then y.testBit j else x.testBit (j - 4) :=
    Nat.testBit_two_pow_mul_add x (i := 4) hy j
  have hmul (x j : Nat) : (16 * x).testBit j = if j < 4 then false else x.testBit (j - 4) := by
    have := hbit x 0 j (by decide)
    rwa [Nat.add_zero, Nat.zero_testBit] at this
  have hxor : 16 * a ^^^ (k * 16) = 16 * (a ^^^ k) := by
    refine Nat.eq_of_testBit_eq fun j => ?_
    rw [Nat.testBit_xor, Nat.mul_comm k, hmul, hmul, hmul, Nat.testBit_xor]
    split <;> rfl
  refine Nat.eq_of_testBit_eq fun j => ?_
  rw [hxor, Nat.testBit_xor, Nat.mul_comm k, hbit _ _ _ hb, hmul, hbit _ _ _ hb, Nat.testBit_xor]
  split
  · exact Bool.xor_false _
  · rfl

/-- Where byte o of the packed box stands in scratchpad. -/
def swizzled (c : CopyCmd) (r : LayoutRec) (o : Nat) : Place :=
  .scratch (fld c.w0 51 32 + (o ^^^ (o / 128 % 2 ^ r.swizzle * 16)))

/-- Each byte of the packed box lies in a run that puts it there. -/
theorem exists_packedRun (c : CopyCmd) {r : LayoutRec} {o : Nat} (ho : o < packedBytes r) :
    ∃ x ∈ packedRuns c r, x.1 ≤ o ∧ o < x.1 + x.2.2 ∧ x.2.1.plus (o - x.1) = swizzled c r o := by
  unfold packedRuns
  dsimp only
  split
  · next hswizzle =>
    refine ⟨(0, .scratch (fld c.w0 51 32), packedBytes r), List.mem_singleton_self _, Nat.zero_le o, by dsimp only; omega, ?_⟩
    rw [swizzled, hswizzle, Nat.pow_zero, Nat.mod_one, Nat.zero_mul, Nat.xor_zero]
    rfl
  · refine ⟨_, List.mem_map.mpr ⟨o / 16, List.mem_range.mpr (by omega), rfl⟩, by dsimp only; omega, by dsimp only; omega, ?_⟩
    have hline : 16 * (o / 16) / 128 = o / 128 := by omega
    have hxor := xor_mul_sixteen (o / 16) (o % 16) (o / 128 % 2 ^ r.swizzle) (Nat.mod_lt o (by decide))
    rw [Nat.div_add_mod] at hxor
    refine congrArg Place.scratch ?_
    dsimp only
    rw [hline, hxor]
    omega

/-- Byte o of the packed box is written where the swizzle puts it. -/
theorem exists_output_of_byte {c : CopyCmd} (h : c.op = 0xE0) {r : LayoutRec} (idx data : List Byte)
    (staged : Option (Tag × List DWord)) (hload : c.fbits 0 0 = 0) (hscratch : c.fbits 1 1 = 0) {o : Nat} (ho : o < packedBytes r) :
    ∃ y ∈ (c.outputs [r] idx data staged).1, ∃ i < y.bytes.length,
      y.bytes.getD i 0 = (bytesLE (packLoad c r data) (packedBytes r)).getD o 0 ∧ y.place.plus i = swizzled c r o := by
  obtain ⟨x, hx, hlow, hhigh, hplace⟩ := exists_packedRun c ho
  rw [CopyCmd.outputs_cpt_scratch h r idx data staged hload hscratch]
  refine ⟨_, List.mem_map.mpr ⟨x, hx, rfl⟩, o - x.1, ?_, ?_, hplace⟩
  · rw [List.length_take, List.length_drop, length_bytesLE]
    omega
  · dsimp only
    rw [List.getD_eq_getElem?_getD, List.getElem?_take, if_pos (by omega), List.getElem?_drop, Nat.add_sub_cancel' hlow,
      List.getD_eq_getElem?_getD]

end Sys2Proof.Machine
end

section
/-!
The copies of a queue together: O31.
-/
namespace Sys2Proof.Machine

/-! ## The commands one by one -/

section Plain
variable (c : CopyCmd) (recs : List LayoutRec) (idx data : List Byte) (staged : Option (Tag × List DWord))

/-- The place of each kind of endpoint (R276, R281). -/
theorem CopyCmd.at_of_endpoint {pos kind : Nat} {w : DWord} (off n : Nat)
    (h : c.endpoints.find? (fun e => e.1 == pos) = some (pos, kind, w)) :
    (kind = 0 → c.at recs pos off n = .va ((w.toNat + off) % 2 ^ 64)) ∧
    (kind = 1 → c.at recs pos off n = .scratch (w.toNat + off)) ∧
    (kind = 3 → c.at recs pos off n = .slotByte (fld w 5 0) (fld w 29 16 + off)) ∧
    (∀ r, kind = 2 → recAt c recs pos = some r →
      let o := fld w 63 24 + off
      (o + n ≤ r.len → c.at recs pos off n = if r.insole then .insole (r.base * 2 ^ 21 + o) else .va ((r.base + o) % 2 ^ 64)) ∧
      (r.len < o + n → ∃ a, c.at recs pos off n = .beyond a)) := by
  refine ⟨?_, ?_, ?_, fun r hkind hr => ?_⟩
  · rintro rfl
    exact CopyCmd.at_of_plain h (by decide) recs off n
  · rintro rfl
    exact CopyCmd.at_of_plain h (by decide) recs off n
  · rintro rfl
    exact CopyCmd.at_of_plain h (by decide) recs off n
  · rw [CopyCmd.at_of_handle h hkind hr]
    exact ⟨fun hle => (LayoutRec.bytesAt_of_le hle).trans (r.place_natCast _), LayoutRec.bytesAt_of_lt⟩

/-- Row j of a CPG or a CPS (R282). -/
theorem CopyCmd.getElem?_rows {j : Nat} (hj : j < fld c.w2 31 0) :
    let row := (data.drop (j * fld c.w2 47 32)).take (fld c.w2 47 32)
    (c.op = 0xE2 → (c.sources recs idx)[j]? = some ((gatherRow c recs idx j).1, fld c.w2 47 32) ∧
      (c.outputs recs idx data staged).1[j]? = some { place := (gatherRow c recs idx j).2, bytes := row }) ∧
    (c.op = 0xE3 → (c.sources recs idx)[j]? = some ((gatherRow c recs idx j).2, fld c.w2 47 32) ∧
      (c.outputs recs idx data staged).1[j]? =
        some { place := (gatherRow c recs idx j).1, bytes := row, src := some (j * fld c.w2 47 32) }) := by
  refine ⟨fun h => ?_, fun h => ?_⟩
  · rw [CopyCmd.sources_cpg recs idx h, CopyCmd.outputs_cpg recs idx data staged h]
    exact ⟨getElem?_map_range _ hj, getElem?_map_range _ hj⟩
  · rw [CopyCmd.sources_cps recs idx h, CopyCmd.outputs_cps recs idx data staged h]
    exact ⟨getElem?_map_range _ hj, getElem?_map_range _ hj⟩

end Plain

/-- What a CPA writes for an element in a format (R284). -/
theorem encoded_cpaValue (c : CopyCmd) (f : Fmt) (sat : Bool) (tag : Tag) (x : DWord) :
    let a := tagValue tag x.toNat
    let scaled := c.fbits 2 2 = 1
    let neg := a.neg != (decide scaled && c.scale.neg)
    (cpaBad c a = true → (cpaValue c tag x).encoded f sat = f.canonNaN) ∧
    (cpaBad c a = false → (a.isInf || decide scaled && c.scale.isInf) = true →
      (cpaValue c tag x).encoded f sat = if sat then f.maxFinite neg else f.infinity neg) ∧
    ∀ n m e, a.isFin = true → (scaled → c.scale.isFin = true) → (if scaled then a.times c.scale else a) = .fin n m e →
      (cpaValue c tag x).encoded f sat = (roundTo f { sat } n m e).1 := by
  refine ⟨fun hbad => ?_, fun hbad hinf => ?_, fun n m e ha hk hy => ?_⟩
  · have hnan := cpaValue_of_bad hbad
    cases hv : cpaValue c tag x with
    | nan n => rfl
    | _ => simp [hv, FVal.isNaN] at hnan
  · rw [cpaValue_of_isInf hbad hinf]
    rfl
  · rw [(cpaValue_of_isFin ha hk).1, hy]
    rfl

/-- Row q of the box of a CPT, its coordinates written out (R280). -/
theorem boxRow_eq (c : CopyCmd) (r : LayoutRec) (q : Nat) :
    let x0 := (cptDim0 c r).1
    let b0 := (cptDim0 c r).2.1
    let n0 := (cptDim0 c r).2.2
    boxRow c r q =
      if (∀ d ∈ upperDims r.rank, 0 ≤ rowCoord c r q d ∧ rowCoord c r q d < r.dims.getD d 0) ∧
          max x0 0 < min (x0 + b0) (n0 : Int) then
        { first := q * b0, row := some ((upperDims r.rank).map fun d => rowCoord c r q d * r.strides.getD d 0).sum
          lo := max x0 0, hi := min (x0 + b0) n0 }
      else { first := q * b0, row := none, lo := 0, hi := 0 } := by
  refine if_congr (and_congr_left' ?_) rfl rfl
  simp only [List.all_eq_true, rowWithin, Bool.and_eq_true, decide_eq_true_eq]

/-! ## All of them -/

/-- Settles O31: what the copies do at issue is their shared body's doing; what they read and write is settled command by
command, a CPT's packed box by its units' places, of which no two are one. -/
theorem copiesTakeARequestEntry : Obligations.CopiesTakeARequestEntry := by
  unfold Obligations.CopiesTakeARequestEntry
  refine ⟨fun w i hi s c t hc ht => exec_copy_outcome hi hc ht, fun c recs idx data staged => ?_, fun c r data idx h => ?_⟩
  · refine ⟨fun pos kind w off n h => c.at_of_endpoint recs off n h, fun h => ?_, fun h => ?_, fun h => ?_, fun h => ?_,
      fun h => ?_, fun tag xs h hstaged => ?_, fun tag xs => ⟨fun f hf => ?_, fun hblock hlen ha hk => ?_⟩⟩
    · exact ⟨CopyCmd.sources_cpl recs idx h, CopyCmd.outputs_cpl recs idx data staged h⟩
    · exact ⟨CopyCmd.sources_cpr recs idx h, CopyCmd.outputs_cpr recs idx data staged h⟩
    · exact ⟨CopyCmd.sources_cpz recs idx h, _, CopyCmd.outputs_cpz recs idx data staged h, rfl, length_map_range ..,
        fun k hk => getD_pattern c.w1 hk⟩
    · obtain ⟨hsrc, hout⟩ := CopyCmd.length_rows recs idx data staged h
      exact ⟨hsrc, hout, fun j hj => ⟨rfl, c.getElem?_rows recs idx data staged hj⟩⟩
    · refine ⟨fun i hi => getElem?_sources_cpx h recs idx hi, fun hdata => ?_⟩
      exact ⟨_, CopyCmd.outputs_cpx h recs idx data staged, length_cpxOutput hdata, rfl, fun i hi e he =>
        fieldLE_cpxOutput hdata hi he⟩
    · subst hstaged
      exact ⟨CopyCmd.sources_cpa h recs idx, CopyCmd.outputs_cpa h recs idx data tag xs⟩
    · exact ⟨_, cpaRow_of_format hf tag xs, fun x => encoded_cpaValue c f (c.m.getLsbD 0) tag x⟩
    · rw [cpaRow_of_block hblock hlen fun x hx => (cpaValue_of_isFin (ha x hx) hk).2,
        List.map_congr_left fun x hx => (cpaValue_of_isFin (ha x hx) hk).1]
      rfl
  · refine ⟨fun q x hx => ?_, fun x off hrow => ?_, fun hload => ⟨?_, fun hslot hblock => ?_, fun hscratch o ho => ?_,
      fun k x hx hblock i hi => ?_⟩, fun hstore => ⟨?_, ?_⟩⟩
    · obtain ⟨-, -, rfl⟩ := getElem?_cptRows hx
      exact boxRow_eq c r q
    · have hspan := rowSpan_of_some (unitBits r.type) hrow
      refine ⟨hspan, fun hle => ?_⟩
      rw [rowRun_of_le (by rwa [hspan]), hspan]
    · exact CopyCmd.sources_cpt_load h r idx hload
    · exact CopyCmd.outputs_cpt_slot h r idx data none hload hslot hblock
    · exact exists_output_of_byte h idx data none hload hscratch ho
    · exact unit_packLoad hblock data hx hi
    · exact CopyCmd.sources_cpt_store h r idx hstore
    · exact CopyCmd.outputs_cpt_store h r idx data none hstore

end Sys2Proof.Machine
end

section
/-!
FENCE, PF, CCTL and ICINV (R220 to R223) and RFLUSH (R287): what the bodies that wait for acknowledgements do in each case,
and which bytes of a virtual range the tests of CCTL and ICINV name: O24.
-/
namespace Sys2Proof.Machine

/-! ## Issue under a condition -/

section
variable {i : Instr} {op : Nat} {w : Fields} {body : Ctx → State → Effect} {p : Ctx → State → Prop}

/-- An instruction stops where its body does. -/
theorem stopsIf_of_stop {x : Ctx → State → Stop} (he : ∀ s, exec i s = s.issue op w body) (ho : opFields i = some (op, w))
    (hb : ∀ c s, p c s → body c s = .stop (x c s)) : StopsIf i p x :=
  fun _ _ h hp => exec_of_stop he ho h (hb _ _ hp)

/-- A split awaits acknowledgements where its instruction's body does. -/
theorem awaitsIf_of_unacked {x : Ctx → State → State × List Nat} (he : ∀ s, exec i s = s.issue op w body)
    (ho : opFields i = some (op, w)) (hb : ∀ c s, p c s → body c s = .unacked (x c s).1 (x c s).2) : AwaitsIf i p x :=
  fun _ _ h hp => exec_of_unacked he ho h (hb _ _ hp)

end

/-! ## FENCE (R220) -/

/-- The state in which a fence has drained its core's buffer, where its stores are to be seen on other cores. -/
def State.fenced (s : State) (c : Ctx) : State :=
  if 4 ≤ scopeOf c.w ∨ (c.w.f ≠ 1 ∧ drains c.k.pair (scopeOf c.w) = true) then s.drain c.core else s

/-- A fence waits for stores that are on their way. -/
def State.fenceWaits (s : State) (c : Ctx) : Prop :=
  (4 ≤ scopeOf c.w ∨ (c.w.f ≠ 1 ∧ drains c.k.pair (scopeOf c.w) = true)) ∧ ((s.fenced c).core c.core).flight ≠ []

theorem fenceDrains_iff (c : Ctx) :
    fenceDrains c = true ↔ 4 ≤ scopeOf c.w ∨ (c.w.f ≠ 1 ∧ drains c.k.pair (scopeOf c.w) = true) := by
  simp only [fenceDrains, Bool.or_eq_true, Bool.and_eq_true, decide_eq_true_eq, bne_iff_ne]

theorem State.fenceWaits_iff (s : State) (c : Ctx) :
    s.fenceWaits c ↔ (fenceDrains c && !(s.fenced c).acked c.core) = true := by
  rw [State.fenceWaits, Bool.and_eq_true, Bool.not_eq_true', fenceDrains_iff, State.acked, List.isEmpty_eq_false_iff]

theorem fenceBody_of_missing {c : Ctx} {s : State} (h : s.scopeMissing (scopeOf c.w) = true) :
    fenceBody c s = .stop (scopeTrap (scopeOf c.w) c.act) :=
  if_pos h

/-- A fence at a scope that is there drains, and then waits or, as it acquires, empties L1. -/
theorem fenceBody_of_scope {c : Ctx} {s : State} (h : s.scopeMissing (scopeOf c.w) = false) :
    fenceBody c s =
      if (fenceDrains c && !(s.fenced c).acked c.core) = true then .unacked (s.fenced c) [c.core]
      else .done { s := if c.w.f == 0 then s.fenced c else (s.fenced c).acquire c.core (scopeOf c.w) } := by
  have hdrained : (if fenceDrains c = true then s.drain c.core else s) = s.fenced c := if_congr (fenceDrains_iff c) rfl rfl
  rw [← hdrained]
  exact if_neg (Bool.eq_false_iff.1 h)

theorem fenceBody_of_waits {c : Ctx} {s : State} (h : s.scopeMissing (scopeOf c.w) = false) (hw : s.fenceWaits c) :
    fenceBody c s = .unacked (s.fenced c) [c.core] :=
  (fenceBody_of_scope h).trans (if_pos ((s.fenceWaits_iff c).1 hw))

/-- A release fence leaves L1 as it is, and so does any fence below team scope. -/
theorem fenceBody_of_acked {c : Ctx} {s : State} (h : s.scopeMissing (scopeOf c.w) = false) (hw : ¬s.fenceWaits c) :
    fenceBody c s = .done
      { s := if c.w.f = 0 ∨ scopeOf c.w < 2 then s.fenced c else (s.fenced c).modCore c.core fun k => { k with l1 := [] } } := by
  rw [fenceBody_of_scope h, if_neg (mt (s.fenceWaits_iff c).2 hw)]
  by_cases hf : c.w.f = 0
  · rw [if_pos (beq_iff_eq.2 hf), if_pos (.inl hf)]
  · by_cases hs : 2 ≤ scopeOf c.w
    · rw [if_neg (mt beq_iff_eq.1 hf), if_neg (not_or.2 ⟨hf, Nat.not_lt.2 hs⟩), State.acquire, if_pos hs]
    · rw [if_neg (mt beq_iff_eq.1 hf), if_pos (.inr (Nat.lt_of_not_le hs)), State.acquire, if_neg hs]

/-! ## PF (R221) -/

@[simp] theorem State.l1Fill_mem (s : State) (core hint loc : Nat) : (s.l1Fill core hint loc).mem = s.mem :=
  s.throughSlice_mem _ _ _

@[simp] theorem State.l1Fill_poison (s : State) (core hint loc : Nat) : (s.l1Fill core hint loc).poison = s.poison :=
  s.throughSlice_poison _ _ _

/-- A prefetch fills a line of its core's L1 or does nothing. -/
theorem State.prefetch_cases (s : State) (c : Ctx) (q : Req) :
    s.prefetch c q = s ∨ ∃ loc, s.prefetch c q = s.l1Fill c.core (hintOf c.w) loc := by
  unfold State.prefetch
  split
  · exact .inl rfl
  · split
    · split
      · exact .inr ⟨_, rfl⟩
      · exact .inl rfl
    · exact .inl rfl

/-! ## CCTL (R222) -/

/-- Where x is y, the elements that pass a test are kept, else none; an empty list needs no test. -/
theorem filter_unless_ne {α β : Type} [DecidableEq β] (x y : β) (p : α → Bool) (l : List α) :
    (if x != y || l.isEmpty then [] else l.filter p) = if x = y then l.filter p else [] := by
  by_cases h : x = y
  · cases l <;> simp [h]
  · simp [h]

/-- CCTL keeps the lines that no run of its range meets, or none. -/
theorem cctlBody_eq (c : Ctx) (s : State) : cctlBody c s =
    let va := (uniOperand s c c.w.a.toNat uniThread).toNat
    let n := (uniOperand s c c.w.b.toNat uniThread).toNat
    let named (l : CacheLine) : Bool := (s.rangeRuns c.space va n).any fun r => r.1 < l.addr + 128 && l.addr < r.1 + r.2
    .done { s := s.modCore c.core fun k => { k with l1 := if c.w.f = 0 then k.l1.filter (fun l => !named l) else [] } } :=
  congrArg (fun keep => Effect.done { s := s.modCore c.core fun k => { k with l1 := keep } }) (filter_unless_ne ..)

/-- The runs of a range are those of its pages that translate. -/
theorem State.mem_rangeRuns {s : State} {w : Space} {va n : Nat} {x : Nat × Nat} (hn : 0 < n) :
    x ∈ s.rangeRuns w va n ↔ ∃ i ≤ (va % 4096 + n - 1) / 4096,
      let lo := if i = 0 then va else (va / 4096 + i) * 4096
      ∃ p, s.xlate w .load (lo % 2 ^ 64) = .ok p ∧ x = (p.loc, min (va + n - lo) (4096 - lo % 4096)) := by
  rw [State.rangeRuns, if_neg (by omega), List.mem_filterMap]
  refine exists_congr fun i => and_congr (by rw [List.mem_range]; omega) ?_
  dsimp only
  cases s.xlate w .load ((if i = 0 then va else (va / 4096 + i) * 4096) % 2 ^ 64) with
  | fault c r => simp
  | ok p => simp [eq_comm]

/-- The first byte of the page's part of a range, page by page. -/
theorem rangeLow_eq {va a : Nat} : max va ((va + a) / 4096 * 4096) =
    if (va + a) / 4096 - va / 4096 = 0 then va else (va / 4096 + ((va + a) / 4096 - va / 4096)) * 4096 := by
  split <;> omega

/-- Each byte of a range that does not wrap lies in the run of its page, if that translates. -/
theorem State.exists_run_of_xlate {s : State} {w : Space} {va n a : Nat} {p : Phys} (hrange : va + n ≤ 2 ^ 64) (ha : a < n)
    (hp : s.xlate w .load (max va ((va + a) / 4096 * 4096)) = .ok p) :
    ∃ x ∈ s.rangeRuns w va n, x.1 = p.loc ∧ (va + a) - max va ((va + a) / 4096 * 4096) < x.2 := by
  have hlow : max va ((va + a) / 4096 * 4096) < 2 ^ 64 := by omega
  rw [← Nat.mod_eq_of_lt hlow, rangeLow_eq] at hp
  refine ⟨_, (State.mem_rangeRuns (by omega)).2 ⟨(va + a) / 4096 - va / 4096, by omega, p, hp, rfl⟩, rfl, ?_⟩
  rw [← rangeLow_eq]
  dsimp only
  omega

/-! ## ICINV (R223) -/

/-- A test that also asks for x to be y. -/
theorem filter_beq_and {α β : Type} [DecidableEq β] (x y : β) (p : α → Bool) (l : List α) :
    l.filter (fun a => x == y && p a) = if x = y then l.filter p else [] := by
  by_cases h : x = y <;> simp [h]

/-- ICINV keeps the blocks that its range does not meet, or none. -/
theorem icinvBody_eq (c : Ctx) (s : State) : icinvBody c s =
    let va := (uniOperand s c c.w.a.toNat uniThread).toNat
    let n := (uniOperand s c c.w.b.toNat uniThread).toNat
    .done { s := s.modCore c.core fun k => { k with
      icache := if c.w.f = 0 then k.icache.filter (fun l => !blockIn va n l) else [] } } :=
  congrArg (fun keep => Effect.done { s := s.modCore c.core fun k => { k with icache := keep } }) (filter_beq_and ..)

/-- A block overlaps a range where it holds one of its bytes, counted past 2^64 from 0 on. -/
theorem blockIn_iff {va n : Nat} {l : CacheLine} (hn : n < 2 ^ 64) (hva : va < 2 ^ 64) (hl : l.addr % 32 = 0) :
    blockIn va n l = true ↔ ∃ i < n, (va + i) % 2 ^ 64 / 32 = l.addr % 2 ^ 64 / 32 := by
  simp only [blockIn, Bool.and_eq_true, Bool.or_eq_true, decide_eq_true_eq]
  constructor
  · rintro ⟨hpos, ⟨hlo, hhi⟩ | ⟨hlo, hhi⟩⟩
    · exact ⟨l.addr % 2 ^ 64 - va, by omega, by omega⟩
    · exact ⟨l.addr % 2 ^ 64 + 2 ^ 64 - va, by omega, by omega⟩
  · rintro ⟨i, hi, hblock⟩
    omega

/-! ## RFLUSH (R287) -/

/-- The record-cache entries of its launch that RFLUSH names: all, or those of one record. -/
def State.flushes (s : State) (c : Ctx) (e : RecordEntry) : Bool :=
  e.seq == c.r.team.seq && (c.w.f.getLsbD 0 || (!e.table && e.num == fld (uniOperand s c c.w.a.toNat uniThread) 23 0))

/-- The state without the entries that a test picks in the record caches of the scope. -/
def State.flushRecords (s : State) (c : Ctx) (gone : RecordEntry → Bool) : State :=
  { s with cores := s.cores.map fun x => (x.1,
      if scopeCores c (scopeOf c.w) x.1 then { x.2 with records := x.2.records.filter fun e => !gone e } else x.2) }

theorem rflushBody_of_missing {c : Ctx} {s : State} (h : s.scopeMissing (scopeOf c.w) = true) :
    rflushBody c s = .stop (scopeTrap (scopeOf c.w) c.act) :=
  if_pos h

/-- RFLUSH at a scope that is there releases, and then waits or drops the entries that it named as it began. -/
theorem rflushBody_of_scope {c : Ctx} {s : State} (h : s.scopeMissing (scopeOf c.w) = false) :
    rflushBody c s =
      let t := s.release c.core c.k.pair (scopeOf c.w)
      if t.unreleased c.core c.k.pair (scopeOf c.w) then .unacked t [c.core]
      else .done { s := t.flushRecords c (s.flushes c) } :=
  if_neg (Bool.eq_false_iff.1 h)

/-! ## All of them -/

/-- Settles O24: each instruction by what its body does in each case, the named lines and blocks by the pages and bytes of
the range. -/
theorem fencesAndFlushes : Obligations.FencesAndFlushes := by
  unfold Obligations.FencesAndFlushes
  refine ⟨fun w => ⟨?fence, ?fenceWaits, ?fenceStops, ?pf, ?prefetch, ?cctl, ?icinv, ?blocks, ?runs⟩,
    fun w => ⟨?rflushStops, ?rflushWaits, ?rflush⟩⟩
  case fence => exact completesIf_of_done (fun _ => rfl) rfl fun c s _ _ h => ⟨fenceBody_of_acked h.1 h.2, rfl⟩
  case fenceWaits => exact awaitsIf_of_unacked (fun _ => rfl) rfl fun c s h => fenceBody_of_waits h.1 h.2
  case fenceStops => exact stopsIf_of_stop (fun _ => rfl) rfl fun c s => fenceBody_of_missing
  case pf => exact completes_of_done (fun _ => rfl) rfl fun c s _ _ => ⟨rfl, rfl⟩
  case prefetch =>
    intro s c q
    rcases s.prefetch_cases c q with h | ⟨loc, h⟩
    · rw [h]
      exact ⟨rfl, rfl⟩
    · rw [h]
      exact ⟨s.l1Fill_mem .., s.l1Fill_poison ..⟩
  case cctl => exact completes_of_done (fun _ => rfl) rfl fun c s _ _ => ⟨cctlBody_eq c s, rfl⟩
  case icinv => exact completes_of_done (fun _ => rfl) rfl fun c s _ _ => ⟨icinvBody_eq c s, rfl⟩
  case blocks => exact fun va n l => blockIn_iff
  case runs => exact fun s w va n hrange a ha p hp => State.exists_run_of_xlate hrange ha hp
  case rflushStops => exact stopsIf_of_stop (fun _ => rfl) rfl fun c s => rflushBody_of_missing
  case rflushWaits =>
    exact awaitsIf_of_unacked (fun _ => rfl) rfl fun c s h => (rflushBody_of_scope h.1).trans (if_pos h.2)
  case rflush =>
    exact completesIf_of_done (fun _ => rfl) rfl fun c s _ _ h =>
      ⟨(rflushBody_of_scope h.1).trans (if_neg (Bool.eq_false_iff.1 h.2)), rfl⟩

end Sys2Proof.Machine
end

section
/-!
The matrix engine's operations at issue (R232, R241, R244 to R250): the body that MMA, ASA, AZERO and ARED share, and the
place that an entry takes in the queue of four: O33.
-/
namespace Sys2Proof.Machine

/-! ## The body of the queued operations -/

/-- MMA, ASA, AZERO and ARED share their body, each with its own check. -/
theorem exec_checkedOp {fam : MmaFamily} {w : Fields} {x : Instr × (Team → Ctx → Except Stop Unit)}
    (hx : x ∈ [(Instr.mma fam w, checkMma), (.asa w, checkAsa), (.azero w, checkAzero), (.ared w, checkAred)]) :
    ∃ op, opFields x.1 = some (op, w) ∧ ∀ s, exec x.1 s = s.issue op w (checkedOp x.2) := by
  simp only [List.mem_cons, List.not_mem_nil, or_false] at hx
  rcases hx with rfl | rfl | rfl | rfl
  · exact ⟨mmaOp fam, rfl, fun _ => rfl⟩
  · exact ⟨0xFB, rfl, fun _ => rfl⟩
  · exact ⟨0xFC, rfl, fun _ => rfl⟩
  · exact ⟨0xFF, rfl, fun _ => rfl⟩

section Body
variable {check : Team → Ctx → Except Stop Unit} {c : Ctx} {s : State} {t : Team} (ht : s.team? c.r.team = some t)
include ht

theorem checkedOp_of_error {e : Stop} (h : check t c = .error e) : checkedOp check c s = .stop e := by
  simp only [checkedOp, ht, h]

theorem checkedOp_of_ok (h : check t c = .ok ()) : checkedOp check c s = queueOp c s t := by
  simp only [checkedOp, ht, h]

end Body

theorem queueOp_of_room {c : Ctx} {s : State} {t : Team} (h : (s.core t.core).engine.length < engineEntries) :
    queueOp c s t = .done { s := s.enqueue t.core c.r c.op c.w c.pc (lanesPerCore * (c.core - t.core) + c.g.lane) } :=
  if_neg (Nat.not_le.2 h)

theorem queueOp_of_full {c : Ctx} {s : State} {t : Team} (h : engineEntries ≤ (s.core t.core).engine.length) :
    queueOp c s t = .held s .engine :=
  if_pos h

/-! ## The place of an entry (R232) -/

/-- An entry of the queue lets another go before it: one of its own core cycle from a lower lane. -/
def EngineOp.yieldsTo (x e : EngineOp) : Prop := x.started = false ∧ x.cycle = e.cycle ∧ e.lane < x.lane

theorem EngineOp.place_cons_of_yieldsTo {e x : EngineOp} (rest : List EngineOp) (h : x.yieldsTo e) :
    e.place (x :: rest) = e :: x :: rest := by
  obtain ⟨hstarted, hcycle, hlane⟩ := h
  simp [EngineOp.place, hstarted, hcycle, hlane]

theorem EngineOp.place_cons_of_not_yieldsTo {e x : EngineOp} (rest : List EngineOp) (h : ¬x.yieldsTo e) :
    e.place (x :: rest) = x :: e.place rest :=
  if_neg (by simpa [EngineOp.yieldsTo, and_assoc] using h)

/-- An entry stands before the first one that lets it go before it, and changes nothing else of the queue. -/
theorem EngineOp.place_split (e : EngineOp) (l : List EngineOp) :
    ∃ a b, l = a ++ b ∧ e.place l = a ++ e :: b ∧ (∀ x ∈ a, ¬x.yieldsTo e) ∧ ∀ x, b.head? = some x → x.yieldsTo e := by
  induction l with
  | nil => exact ⟨[], [], rfl, rfl, by simp, by simp⟩
  | cons y l ih =>
    by_cases hy : y.yieldsTo e
    · exact ⟨[], y :: l, rfl, place_cons_of_yieldsTo l hy, by simp, by simpa using hy⟩
    · obtain ⟨a, b, hl, hplace, hbefore, hnext⟩ := ih
      refine ⟨y :: a, b, by rw [hl, List.cons_append], ?_, List.forall_mem_cons.2 ⟨hy, hbefore⟩, hnext⟩
      rw [place_cons_of_not_yieldsTo l hy, hplace, List.cons_append]

/-! ## The state with one more entry -/

section Enqueue
variable (s : State) (core : Nat) (r : FibreRef) (op : Nat) (w : Fields) (pc : DWord) (lane : Nat)

/-- The engine's core holds one more entry, placed by its core cycle and lane, and has numbered it. -/
theorem State.core_enqueue :
    (s.enqueue core r op w pc lane).core core = { s.core core with
      engine := EngineOp.place { num := (s.core core).engineSeq, fib := r, op, w, pc, cycle := s.colCycle (colOf core), lane }
        (s.core core).engine
      engineSeq := (s.core core).engineSeq + 1 } := by
  rw [State.enqueue, State.core_modFibre, State.core_modCore, if_pos rfl]

/-- Its fibre counts one more issued operation of the class (R351). -/
theorem State.fibre?_enqueue : (s.enqueue core r op w pc lane).fibre? r =
    (s.fibre? r).map fun f => { f with counts := { f.counts with matI := f.counts.matI + 1 } } :=
  State.fibre?_modFibre _ r _ fun _ => rfl

end Enqueue

/-- Settles O33: the outcome of the shared body by its check and by the queue's length, and the place of the entry. -/
theorem engineOperationsEnterTheQueue : Obligations.EngineOperationsEnterTheQueue := by
  unfold Obligations.EngineOperationsEnterTheQueue
  refine ⟨fun w fam x hx s c t hc ht => ?_, fun s core op lane r w pc => ⟨?place, ?number, fun f hf => ?count⟩⟩
  · obtain ⟨op, ho, he⟩ := exec_checkedOp hx
    refine ⟨fun e hcheck => ?stops, fun hcheck hroom => ?enters, fun hcheck hfull => ?waits⟩
    case stops => exact exec_of_stop he ho hc (checkedOp_of_error ht hcheck)
    case enters => exact exec_of_done he ho hc ((checkedOp_of_ok ht hcheck).trans (queueOp_of_room hroom)) rfl
    case waits => exact exec_of_held he ho hc ((checkedOp_of_ok ht hcheck).trans (queueOp_of_full hfull))
  case place =>
    rw [State.core_enqueue]
    exact EngineOp.place_split ..
  case number => rw [State.core_enqueue]
  case count => rw [State.fibre?_enqueue, hf, Option.map_some]

end Sys2Proof.Machine
end

section
/-!
The pool of boost permits under every step (R409, R412, R413): O60.
-/
namespace Sys2Proof.Machine

/-- A state reached has the boost law. -/
def Lawful : Host.Outcome State Fault Refusal → Prop
  | .next t => t.powerLaw
  | _ => True

theorem State.fresh_law (s : State) : s.fresh.powerLaw := State.powerLaw_reset

/-- A package reset starts from a full pool (R404). -/
theorem execPackageReset_law (facts : StartFacts) (s : State) : Lawful (execPackageReset facts s) := by
  have hfresh : ∀ t : State, t.power = s.fresh.power → t.powerLaw := fun _ h => powerLaw_of_power h s.fresh_law
  unfold execPackageReset
  refine hfresh _ ?_
  dsimp only
  split
  · exact State.modPav_power ..
  · split
    · exact State.minimalMode_power ..
    · split
      · simp
      · split <;> simp

theorem execStartWatchdogExpiry_law {s : State} (h : s.powerLaw) : Lawful (execStartWatchdogExpiry s) := by
  unfold execStartWatchdogExpiry
  show State.powerLaw _
  split
  · split
    · exact (s.report 6).fresh_law
    · exact h
  · exact h

/-- Every instruction and every step of the device keeps the law. -/
theorem exec_law {s : State} (i : Instr) (h : s.powerLaw) : Lawful (exec i s) := by
  by_cases hi : changesPower i = true
  · cases i with
    | boostBoundary draw => exact s.takeBoundary_law draw h
    | permitRefill draw => exact s.takeRefill_law draw h
    | packageReset facts => exact execPackageReset_law facts s
    | startWatchdogExpiry => exact execStartWatchdogExpiry_law h
    | _ => cases hi
  · have hkeeps := exec_power i s (by simpa using hi)
    revert hkeeps
    cases exec i s with
    | next t => exact fun hkeeps => powerLaw_of_power hkeeps h
    | fault => exact fun _ => trivial
    | refused => exact fun _ => trivial

/-- So does every turn: the passing of time by its boundaries and refills, any other by the instruction that it runs. -/
theorem State.turn_law {s : State} (t : Turn) (h : s.powerLaw) : Lawful (s.turn t).outcome := by
  by_cases ht : ∃ n, t = .advance n
  · obtain ⟨n, rfl⟩ := ht
    exact State.advance_law { s with cur := none } n h
  · have hkeeps := s.turn_keeps t fun n hn => ht ⟨n, hn⟩
    revert hkeeps
    cases s.turn t with
    | run i u => exact fun hkeeps => exec_law i (powerLaw_of_power hkeeps h)
    | done u => exact fun hkeeps => powerLaw_of_power hkeeps h
    | refuse => exact fun _ => trivial

theorem State.take_law {s u : State} {t : Turn} (h : s.powerLaw) (hu : s.take t = .next u) : u.powerLaw := by
  have hturn := s.turn_law t h
  unfold State.take at hu
  revert hturn hu
  cases (s.turn t).outcome with
  | next v =>
    intro hu hv
    cases hu
    split
    · exact h
    · exact hv
  | fault => exact fun hu => by cases hu
  | refused => exact fun hu => by cases hu

theorem State.moved_law {s u : State} {t : Turn} (h : s.powerLaw) (hu : s.moved t = some u) : u.powerLaw := by
  unfold State.moved at hu
  split at hu
  · split at hu
    · cases hu
    · cases hu
      exact State.take_law h ‹_›
  · cases hu

theorem State.findSome?_moved_law {s u : State} {l : List Turn} (h : s.powerLaw) (hu : l.findSome? s.moved = some u) :
    u.powerLaw := by
  obtain ⟨t, -, ht⟩ := List.exists_of_findSome?_eq_some hu
  exact State.moved_law h ht

theorem State.firstMove_law {s u : State} (h : s.powerLaw) (hu : s.firstMove = some u) : u.powerLaw := by
  unfold State.firstMove at hu
  split at hu
  · rename_i v hv
    cases hu
    cases hw : s.workTurns.findSome? fun t => (s.moved t).filter s.breaks with
    | none => exact State.findSome?_moved_law h hv
    | some x =>
      obtain ⟨t, -, ht⟩ := List.exists_of_findSome?_eq_some hw
      exact State.moved_law h (Option.filter_eq_some_iff.1 ht).1
  · exact State.findSome?_moved_law h hu

theorem State.auto_law {s : State} (h : s.powerLaw) : s.auto.powerLaw := by
  unfold State.auto
  split
  · exact State.firstMove_law h ‹_›
  · exact State.advance_law { s with cur := none } _ h

/-- One step of the package keeps the law. -/
theorem step_law {s t : State} (h : s.powerLaw) (ht : step s = .next t) : t.powerLaw := by
  unfold step at ht
  split at ht
  · split at ht
    · cases ht
    · exact State.take_law (s := { s with agenda := _ }) (t := _) (by exact h) ht
  · split at ht
    · cases ht
    · cases ht
      exact State.auto_law h

/-- The refill of a window that has ended (R413). -/
theorem State.takeRefill_pool {s : State} (draw : Nat) (h : s.windowDue = true) :
    let t := s.takeRefill draw
    t.windows = s.windows + 1 ∧ t.charged = s.charged ∧
      (draw < 3900000 ∧ s.pool < 64 → t.pool = s.pool + 1 ∧ t.refilled = s.refilled + 1) ∧
      (¬(draw < 3900000 ∧ s.pool < 64) → t.pool = s.pool ∧ t.refilled = s.refilled) := by
  by_cases hfill : draw < 3900000 ∧ s.pool < 64
  · have ht : s.takeRefill draw = State.evaluateDevice
        { s with windows := s.windows + 1, pool := s.pool + 1, refilled := s.refilled + 1 } 3 := by
      simp [State.takeRefill, h, hfill]
    rw [ht]
    have hkept {α : Type} (g : State → α) := congrArg g (State.evaluate_besideMemory
      { s with windows := s.windows + 1, pool := s.pool + 1, refilled := s.refilled + 1 } fun c => match c with
        | .device _ m => m == 3
        | _ => false)
    exact ⟨hkept (·.windows), hkept (·.charged), fun _ => ⟨hkept (·.pool), hkept (·.refilled)⟩, fun hn => absurd hfill hn⟩
  · have ht : s.takeRefill draw = { s with windows := s.windows + 1 } := by
      rw [and_comm] at hfill
      simp [State.takeRefill, h, hfill]
    rw [ht]
    exact ⟨rfl, rfl, fun hf => absurd hf hfill, fun _ => ⟨rfl, rfl⟩⟩

/-- While a refill is due the boundary at its tick is not (log 50). -/
theorem State.boundaryDue_of_windowDue {s : State} (h : s.windowDue = true) : s.boundaryDue = false := by
  simp only [State.windowDue, State.boundaryDue, Bool.and_eq_true, Bool.and_eq_false_iff, decide_eq_true_eq,
    decide_eq_false_iff_not] at *
  omega

/-- Settles O60: the law is kept by every turn, and the counters' difference names the permits that are out. -/
theorem permitPoolFollowsItsRule : Obligations.PermitPoolFollowsItsRule := by
  unfold Obligations.PermitPoolFollowsItsRule
  refine ⟨fun s t hs ht => step_law hs ht, fun s hs => ?_, fun s mean hdue => ⟨State.boundaryDue_of_windowDue hdue, ?_⟩⟩
  · obtain ⟨hpool, hcounters, -⟩ := hs
    rw [hcounters, BitVec.toNat_ofNat]
    omega
  · obtain ⟨-, hcharged, hfills, hstays⟩ := State.takeRefill_pool mean hdue
    exact ⟨_, rfl, hcharged, hfills, hstays⟩

end Sys2Proof.Machine
end

section
/-!
Boost permits at a boundary and at the end of a window (R412, R413): O46.
-/
namespace Sys2Proof.Machine

/-- What the package keeps of its permits, but for what it keeps of each cluster. -/
def State.permits (s : State) : Nat × DWord × DWord × Nat := (s.pool, s.charged, s.refilled, s.rotation)

/-- What it keeps of a cluster: its operating point, its refusals and its permits charged. -/
def State.cluster (s : State) (c : Nat) : Nat × Nat × DWord :=
  (look 0 s.opPoint c, look 0 s.refusals c, look 0 s.clusterCharged c)

theorem State.permits_of_power {s t : State} (h : t.power = s.power) : t.permits = s.permits := by
  simp only [State.power, State.permits, Prod.mk.injEq] at *
  obtain ⟨hpool, hrotation, -, -, hcharged, hrefilled, -⟩ := h
  exact ⟨hpool, hcharged, hrefilled, hrotation⟩

theorem State.cluster_of_power {s t : State} (h : t.power = s.power) (c : Nat) : t.cluster c = s.cluster c := by
  simp only [State.power, State.cluster, Prod.mk.injEq] at *
  obtain ⟨-, -, hpoint, hrefusals, -, -, hcharged⟩ := h
  rw [hpoint, hrefusals, hcharged]
  exact ⟨rfl, rfl, rfl⟩

/-! ## One cluster -/

theorem State.permits_setPoint (s : State) (c p : Nat) : (s.setPoint c p).permits = s.permits := by
  obtain ⟨o, h, -⟩ := s.setPoint_spec c p
  exact State.permits_of_power (s := { s with opPoint := o }) h

theorem State.cluster_setPoint (s : State) (c p x : Nat) :
    (s.setPoint c p).cluster x = (if x = c then p else (s.cluster x).1, (s.cluster x).2) := by
  obtain ⟨o, h, hlook⟩ := s.setPoint_spec c p
  rw [State.cluster_of_power h]
  simp only [State.cluster, hlook]

theorem State.permits_grant (s : State) (c : Nat) :
    (s.grant c).permits = (s.pool - 1, s.charged + 1, s.refilled, s.rotation) := by
  have h := s.permits_setPoint c 2
  simp only [State.permits, State.grant, Prod.mk.injEq] at *
  exact ⟨trivial, trivial, h.2.2⟩

/-- A granted cluster goes to boost, with one permit more. -/
theorem State.cluster_grant (s : State) (c x : Nat) :
    (s.grant c).cluster x = if x = c then (2, 0, (s.cluster x).2.2 + 1) else s.cluster x := by
  have h := s.cluster_setPoint c 2 x
  simp only [State.cluster, State.grant, look_put, Prod.mk.injEq] at *
  obtain ⟨hpoint, -, -⟩ := h
  rw [hpoint]
  split <;> simp_all

theorem State.permits_refuse (s : State) (c : Nat) : (s.refuse c).permits = s.permits :=
  s.permits_setPoint c _

/-- A refused cluster falls from boost to intermediate at the first refusal, and is nominal else. -/
theorem State.cluster_refuse (s : State) (c x : Nat) :
    (s.refuse c).cluster x = if x = c then
      (if (s.cluster x).2.1 = 0 ∧ (s.cluster x).1 = 2 then 1 else 0, min ((s.cluster x).2.1 + 1) 2, (s.cluster x).2.2)
    else s.cluster x := by
  have h := s.cluster_setPoint c (if min (look 0 s.refusals c + 1) 2 = 1 ∧ look 0 s.opPoint c = 2 then 1 else 0) x
  have hfirst : min (look 0 s.refusals c + 1) 2 = 1 ↔ look 0 s.refusals c = 0 := by omega
  simp only [State.cluster, State.refuse, look_put, Prod.mk.injEq, hfirst] at *
  obtain ⟨hpoint, -, hcharged⟩ := h
  rw [hpoint, hcharged]
  split <;> simp_all

theorem State.permits_atNominal (s : State) (c : Nat) : (s.atNominal c).permits = s.permits :=
  s.permits_setPoint c _

theorem State.cluster_atNominal (s : State) (c x : Nat) :
    (s.atNominal c).cluster x = if x = c then (0, 0, (s.cluster x).2.2) else s.cluster x := by
  have h := s.cluster_setPoint c 0 x
  simp only [State.cluster, State.atNominal, look_put, Prod.mk.injEq] at *
  obtain ⟨hpoint, -, hcharged⟩ := h
  rw [hpoint, hcharged]
  split <;> simp_all

/-! ## Lists of clusters -/

theorem foldl_cluster {f : State → Nat → State} {g : Nat × Nat × DWord → Nat × Nat × DWord}
    (hf : ∀ s c x, (f s c).cluster x = if x = c then g (s.cluster x) else s.cluster x) {l : List Nat} (hl : l.Nodup)
    (s : State) (x : Nat) : (l.foldl f s).cluster x = if x ∈ l then g (s.cluster x) else s.cluster x := by
  induction l generalizing s with
  | nil => simp
  | cons c l ih =>
    obtain ⟨hc, hl⟩ := List.nodup_cons.1 hl
    rw [List.foldl_cons, ih hl, hf]
    by_cases hx : x = c
    · subst hx
      simp [hc]
    · simp [hx]

theorem foldl_permits {f : State → Nat → State} (hf : ∀ s c, (f s c).permits = s.permits) (l : List Nat) (s : State) :
    (l.foldl f s).permits = s.permits := by
  induction l generalizing s with
  | nil => rfl
  | cons c l ih => rw [List.foldl_cons, ih, hf]

theorem State.permits_grants (l : List Nat) (s : State) :
    (l.foldl State.grant s).permits = (s.pool - l.length, s.charged + BitVec.ofNat 64 l.length, s.refilled, s.rotation) := by
  induction l generalizing s with
  | nil => simp [State.permits]
  | cons c l ih =>
    have h := s.permits_grant c
    simp only [State.permits, Prod.mk.injEq] at h
    obtain ⟨hpool, hcharged, hrefilled, hrotation⟩ := h
    rw [List.foldl_cons, ih, hpool, hcharged, hrefilled, hrotation, List.length_cons, BitVec.ofNat_add, BitVec.add_assoc,
      BitVec.add_comm (1 : DWord)]
    simp only [Nat.sub_sub, Nat.add_comm 1]
    rfl

theorem State.requests_nodup (s : State) : s.requests.Nodup := by
  refine List.Nodup.filter _ (List.Nodup.map_on (fun i hi j hj h => ?_) List.nodup_range)
  rw [List.mem_range] at hi hj
  omega

/-! ## The boundary -/

/-- The requests that a boundary grants: the first ones, as far as the pool goes; above the ceiling none (R412). -/
def State.winners (s : State) (ceiling : Bool) : List Nat := if ceiling then [] else s.requests.take s.pool

/-- The pointer moves behind the last cluster granted, where not all were. -/
def State.rotate (s : State) (won asks : List Nat) : State :=
  match won.getLast? with
  | some c => if won.length = asks.length then s else { s with rotation := (c + 1) % 4 }
  | none => s

theorem State.cluster_rotate (s : State) (won asks : List Nat) (x : Nat) : (s.rotate won asks).cluster x = s.cluster x := by
  unfold State.rotate
  split
  · split <;> rfl
  · rfl

theorem State.permits_rotate (s : State) (won asks : List Nat) :
    ∃ n, (s.rotate won asks).permits = (s.pool, s.charged, s.refilled, n) ∧
      ∀ c, won.getLast? = some c → won.length < asks.length → n = (c + 1) % 4 := by
  unfold State.rotate
  split
  · rename_i c hc
    split
    · exact ⟨s.rotation, rfl, fun _ _ h => by omega⟩
    · exact ⟨(c + 1) % 4, rfl, fun d hd _ => by rw [hc] at hd; cases hd; rfl⟩
  · rename_i hnone
    exact ⟨s.rotation, rfl, fun c hc => by rw [hnone] at hc; cases hc⟩

/-- A boundary grants, refuses, and leaves nominal the clusters that do not ask. -/
theorem State.boundary_eq (s : State) (ceiling : Bool) : s.boundary ceiling =
    ((((List.range 4).filter fun c => !s.requests.contains c).foldl State.atNominal
      ((s.requests.filter fun c => !(s.winners ceiling).contains c).foldl State.refuse
        (((s.winners ceiling).foldl State.grant s).rotate (s.winners ceiling) s.requests))).evaluateDevice 2).evaluateDevice 4 := by
  have hw : (if s.requests.isEmpty || ceiling then [] else s.requests.take (min s.pool s.requests.length)) =
      s.winners ceiling := by
    unfold State.winners
    rw [← List.take_eq_take_min]
    cases ceiling <;> cases hr : s.requests <;> simp
  rw [← hw]
  rfl

theorem State.winners_sublist (s : State) (ceiling : Bool) : (s.winners ceiling).Sublist s.requests := by
  unfold State.winners
  split
  · exact List.nil_sublist _
  · exact List.take_sublist ..

/-- What a boundary leaves of each cluster: boost for a winner, a fall for one refused, the nominal point for the rest. -/
theorem State.cluster_boundary (s : State) (ceiling : Bool) (x : Nat) :
    (s.boundary ceiling).cluster x =
      if x ∈ s.winners ceiling then (2, 0, (s.cluster x).2.2 + 1)
      else if x ∈ s.requests then
        (if (s.cluster x).2.1 = 0 ∧ (s.cluster x).1 = 2 then 1 else 0, min ((s.cluster x).2.1 + 1) 2, (s.cluster x).2.2)
      else if x < 4 then (0, 0, (s.cluster x).2.2) else s.cluster x := by
  have hsub := s.winners_sublist ceiling
  rw [State.boundary_eq, State.cluster_of_power (State.evaluateDevice_power _ _),
    State.cluster_of_power (State.evaluateDevice_power _ _),
    foldl_cluster (g := fun v => (0, 0, v.2.2)) State.cluster_atNominal (List.nodup_range.filter _),
    foldl_cluster (g := fun v => (if v.2.1 = 0 ∧ v.1 = 2 then 1 else 0, min (v.2.1 + 1) 2, v.2.2)) State.cluster_refuse
      (s.requests_nodup.filter _), State.cluster_rotate,
    foldl_cluster (g := fun v => (2, 0, v.2.2 + 1)) State.cluster_grant (hsub.nodup s.requests_nodup)]
  simp only [List.mem_filter, List.mem_range, List.contains_eq_mem, Bool.not_eq_true', decide_eq_false_iff_not]
  by_cases hwon : x ∈ s.winners ceiling
  · have hasks := hsub.subset hwon
    simp [hwon, hasks]
  · by_cases hasks : x ∈ s.requests
    · simp [hwon, hasks]
    · simp [hwon, hasks]

/-- A boundary charges the pool for its winners. -/
theorem State.permits_boundary (s : State) (ceiling : Bool) :
    let won := s.winners ceiling
    ∃ n, (s.boundary ceiling).permits = (s.pool - won.length, s.charged + BitVec.ofNat 64 won.length, s.refilled, n) ∧
      ∀ c, won.getLast? = some c → won.length < s.requests.length → n = (c + 1) % 4 := by
  intro won
  have hgrants := State.permits_grants won s
  obtain ⟨n, hpermits, hn⟩ := State.permits_rotate (won.foldl State.grant s) won s.requests
  refine ⟨n, ?_, hn⟩
  rw [State.boundary_eq, State.permits_of_power (State.evaluateDevice_power _ _),
    State.permits_of_power (State.evaluateDevice_power _ _), foldl_permits State.permits_atNominal,
    foldl_permits State.permits_refuse, hpermits]
  simp only [State.permits, Prod.mk.injEq] at hgrants ⊢
  obtain ⟨hpool, hcharged, hrefilled, -⟩ := hgrants
  exact ⟨hpool, hcharged, hrefilled, trivial⟩

/-- A boundary that is due grants nothing above the ceiling, but for the first one of all (R412). -/
theorem State.takeBoundary_eq {s : State} (draw : Nat) (h : s.boundaryDue = true) :
    s.takeBoundary draw =
      { s.boundary (decide (s.boundaries ≠ 0 ∧ 4600000 < draw)) with boundaries := s.boundaries + 1 } := by
  have hceiling : decide (s.boundaries ≠ 0 ∧ 4600000 < draw) = (s.boundaries != 0 && decide (4600000 < draw)) := by
    rw [Bool.eq_iff_iff]
    simp
  rw [hceiling]
  exact if_pos h

/-- Settles O46: a boundary by what it leaves of each cluster, a refill by what it adds to the pool. -/
theorem boostPermitsAreGrantedInRotation : Obligations.BoostPermitsAreGrantedInRotation := by
  unfold Obligations.BoostPermitsAreGrantedInRotation
  refine fun s mw => ⟨fun hdue => ?boundary, fun hdue => ?refill⟩
  case boundary =>
    have hexec : exec (.boostBoundary mw) s = .next (s.takeBoundary mw) := rfl
    rw [State.takeBoundary_eq mw hdue] at hexec
    refine ⟨_, hexec, rfl, ?_⟩
    intro asks won
    have hwon : s.winners (decide (s.boundaries ≠ 0 ∧ 4600000 < mw)) = won := by
      simp only [State.winners, decide_eq_true_eq]
      rfl
    have hcluster := s.cluster_boundary (decide (s.boundaries ≠ 0 ∧ 4600000 < mw))
    obtain ⟨n, hpermits, hn⟩ := s.permits_boundary (decide (s.boundaries ≠ 0 ∧ 4600000 < mw))
    rw [hwon, show s.requests = asks from rfl] at hcluster
    rw [hwon] at hpermits hn
    simp only [State.permits, Prod.mk.injEq] at hpermits
    obtain ⟨hpool, hcharged, hrefilled, hrotation⟩ := hpermits
    simp only [State.cluster] at hcluster
    refine ⟨hpool, hcharged, hrefilled, fun c hc => ?_, fun c hasks hc => ?_, fun c hlt hc => ?_,
      fun c hlast hlen => hrotation.trans (hn c hlast hlen)⟩
    · have h := hcluster c
      rw [if_pos hc] at h
      simp only [Prod.mk.injEq] at h
      exact ⟨h.1, h.2.2⟩
    · have h := hcluster c
      rw [if_neg hc, if_pos hasks] at h
      exact congrArg (·.1) h
    · have hlost : c ∉ won := fun h => hc ((hwon ▸ s.winners_sublist _).subset h)
      have h := hcluster c
      rw [if_neg hlost, if_neg hc, if_pos hlt] at h
      simp only [Prod.mk.injEq] at h
      exact ⟨h.1, h.2.1⟩
  case refill =>
    obtain ⟨hwindows, -, hfills, hstays⟩ := State.takeRefill_pool mw hdue
    exact ⟨_, rfl, hwindows, fun hdraw hpool => hfills ⟨hdraw, hpool⟩, fun h => hstays (by omega)⟩

end Sys2Proof.Machine
end

section
/-!
Control instructions and the two traps of a program (R295, R302 to R308, R360): O14 to O17.
-/
namespace Sys2Proof.Machine

/-! ## NOP, YIELD, EXIT, CALL, RET, FPRIO -/

/-- FPRIO's priority: the literal field, or a register saturated at 15 (R304). -/
theorem fprioBody_done (c : Ctx) (s : State) : fprioBody c s =
    .done { s, after := fun f => { f with
      fpri := if c.w.d = 1 then BitVec.ofNat 4 (min 15 (uniOperand s c c.w.a.toNat uniThread).toNat) else c.w.f } } := by
  unfold fprioBody
  by_cases hd : c.w.d = 1
  · simp only [if_pos hd]
  · simp only [if_neg hd, BitVec.ofNat_toNat, BitVec.setWidth_eq]

/-- Settles O14: each instruction by its body, which has one outcome. -/
theorem controlInstructionsComplete : Obligations.ControlInstructionsComplete := by
  unfold Obligations.ControlInstructionsComplete
  refine fun w a p u y => ⟨?nop, ?yield, ?exit, ?call, ?ret, ?fprio⟩
  case nop =>
    rintro i (rfl | rfl)
    all_goals exact completes_of_done (body := nopBody) (fun _ => rfl) rfl fun _ _ _ _ => ⟨rfl, rfl⟩
  case yield =>
    rintro i (rfl | rfl)
    all_goals exact completes_of_done (body := yieldBody) (fun _ => rfl) rfl fun _ _ _ _ => ⟨rfl, rfl⟩
  case exit =>
    rintro i (rfl | rfl)
    all_goals exact completes_of_done (body := exitBody) (fun _ => rfl) rfl fun _ _ _ _ => ⟨rfl, rfl⟩
  case call =>
    refine completes_of_done (body := callBody) (fun _ => rfl) rfl fun c _ _ _ => ⟨?_, rfl⟩
    rw [callBody, Ctx.next_eq]
    rfl
  case ret =>
    rintro i (rfl | rfl)
    all_goals exact completes_of_done (body := retBody) (fun _ => rfl) rfl fun _ _ _ _ => ⟨rfl, rfl⟩
  case fprio =>
    rintro i (rfl | rfl | rfl)
    all_goals exact completes_of_done (body := fprioBody) (fun _ => rfl) rfl fun c s _ _ => ⟨fprioBody_done c s, rfl⟩

/-! ## SIGCK and SLEEP -/

theorem sigckBody_agrees {c : Ctx} (s : State) (h : c.k.signatures = true → c.f.fsig = c.w.lit.setWidth 32) :
    sigckBody c s =
      .done { s, hashed := false, after := fun f => { f with fsig := if c.w.f.getLsbD 0 then joinSig else 0 } } := by
  refine if_neg ?_
  simpa [Ctx.sige] using h

theorem sigckBody_differs {c : Ctx} (s : State) (h : c.k.signatures = true ∧ c.f.fsig ≠ c.w.lit.setWidth 32) :
    sigckBody c s = .stop (.team 25) := by
  refine if_pos ?_
  simpa [Ctx.sige] using h

/-- The deadline of a SLEEP: relative to now, or absolute (R303). -/
def sleepDeadline (c : Ctx) (s : State) : DWord :=
  (if c.w.f.getLsbD 0 then BitVec.ofNat 64 s.tick else 0) + uniOperand s c c.w.a.toNat uniThread

theorem sleepBody_eq (c : Ctx) (s : State) : sleepBody c s =
    if satisfies (BitVec.ofNat 64 s.tick) (sleepDeadline c s) then .done { s, point := true }
    else if distant (BitVec.ofNat 64 s.tick) (sleepDeadline c s) then .stop (.trap 7 1 c.act [])
    else .done { s, point := true, parks := true, flow := some (c.suspendFlow .parked fun y =>
      { y with slp := true, dl := sleepDeadline c s, park := .sleep }) } := by
  have hdl : sleepDeadline c s = if c.w.f.getLsbD 0 then BitVec.ofNat 64 s.tick + uniOperand s c c.w.a.toNat uniThread
      else uniOperand s c c.w.a.toNat uniThread := by
    unfold sleepDeadline
    split
    · rfl
    · exact BitVec.zero_add _
  rw [hdl]
  rfl

/-- Settles O15: SIGCK by the two signatures, SLEEP by its deadline. -/
theorem sigckComparesAndSleepParks : Obligations.SigckComparesAndSleepParks := by
  unfold Obligations.SigckComparesAndSleepParks
  refine ⟨fun w => ⟨?agrees, ?differs⟩, fun w a r y i hi => ?sleep⟩
  case agrees => exact completesIf_of_done (fun _ => rfl) rfl fun c s _ _ h => ⟨sigckBody_agrees s h, rfl⟩
  case differs => exact stopsIf_of_stop (fun _ => rfl) rfl fun c s h => sigckBody_differs s h
  case sleep =>
    obtain ⟨v, ho, he⟩ : ∃ v, opFields i = some (0x0D, v) ∧ ∀ s, exec i s = s.issue 0x0D v sleepBody := by
      rcases hi with rfl | rfl
      · exact ⟨w, rfl, fun _ => rfl⟩
      · exact ⟨_, rfl, fun _ => rfl⟩
    intro now dl
    refine ⟨?met, ?far, ?waits⟩
    case met =>
      refine completesIf_of_done he ho fun c s _ _ hnow => ⟨?_, rfl⟩
      rw [sleepBody_eq]
      exact if_pos hnow
    case far =>
      refine stopsIf_of_stop he ho fun c s ⟨hahead, hfar⟩ => ?_
      rw [sleepBody_eq]
      exact (if_neg (Bool.eq_false_iff.1 hahead)).trans (if_pos hfar)
    case waits =>
      refine completesIf_of_done he ho fun c s _ _ ⟨hahead, hnear⟩ => ⟨?_, rfl⟩
      rw [sleepBody_eq]
      exact (if_neg (Bool.eq_false_iff.1 hahead)).trans (if_neg (Bool.eq_false_iff.1 hnear))

/-! ## JX and CALLX -/

/-- The threads whose index lies outside the table. -/
def badIndexes (c : Ctx) (n : Nat) : Mask :=
  maskOf fun t => bit c.parts t && decide (n ≤ (vecOperand c false c.w.a.toNat t).toNat)

theorem jumpBody_of_no_table {callx : Bool} {c : Ctx} (s : State) (hact : c.act ≠ 0) (hn : c.k.pttCount ≤ fld c.w.x 2 0) :
    jumpBody callx c s = .stop (targetTrap (fld c.w.x 2 0) false c.parts) := by
  unfold jumpBody
  simp only [beq_eq_false_iff_ne.2 hact, Bool.false_eq_true, if_false, if_pos hn]

/-- What JX and CALLX do with the table that they have read (R307). -/
theorem jumpBody_of_table {callx : Bool} {c : Ctx} {s t : State} {bs : List Byte} {rc : DWord} {ts : List DWord}
    (hact : c.act ≠ 0) (hn : fld c.w.x 2 0 < c.k.pttCount) (hfetch : s.fetchTable c (fld c.w.x 2 0) = .ok (bs, t))
    (hparse : parseTable bs = some (rc, ts)) :
    jumpBody callx c s =
      if badIndexes c ts.length ≠ 0 then .stop (targetTrap (fld c.w.x 2 0) false (badIndexes c ts.length))
      else .done
        { s := t, fixed := if callx then [⟨.uni c.w.d.toNat, c.next⟩] else []
          flow := some (jumpFlow c callx rc ts fun th =>
            if bit c.parts th then ts.getD (vecOperand c false c.w.a.toNat th).toNat 0 else c.next) } := by
  unfold jumpBody
  simp only [beq_eq_false_iff_ne.2 hact, Bool.false_eq_true, if_false, if_neg (Nat.not_le.2 hn), hfetch, hparse,
    ← List.getD_eq_getElem?_getD, bne_iff_ne]
  rfl

theorem badIndexes_eq_zero {c : Ctx} {n : Nat}
    (h : ∀ t, bit c.parts t = true → (vecOperand c false c.w.a.toNat t).toNat < n) : badIndexes c n = 0 := by
  refine mask_ext fun t ht => ?_
  rw [badIndexes, bit_maskOf _ ht, bit_zero]
  cases hp : bit c.parts t
  · rfl
  · simpa using h t hp

theorem badIndexes_ne_zero {c : Ctx} {n t : Nat} (ht : t < 64) (hp : bit c.parts t = true)
    (h : n ≤ (vecOperand c false c.w.a.toNat t).toNat) : badIndexes c n ≠ 0 := by
  intro hzero
  have hbit : bit (badIndexes c n) t = true := by
    rw [badIndexes, bit_maskOf _ ht, hp, decide_eq_true h]
    rfl
  rw [hzero, bit_zero] at hbit
  cases hbit

/-- Settles O16: a jump by its table's number, and by the indexes that lie outside the table. -/
theorem indirectJumpsStayInTheTable : Obligations.IndirectJumpsStayInTheTable := by
  unfold Obligations.IndirectJumpsStayInTheTable
  intro w callx i n index
  obtain ⟨op, ho, he⟩ : ∃ op, opFields i = some (op, w) ∧ ∀ s, exec i s = s.issue op w (jumpBody callx) := by
    cases callx
    · exact ⟨0x06, rfl, fun _ => rfl⟩
    · exact ⟨0x05, rfl, fun _ => rfl⟩
  refine ⟨?idle, ?outside, fun s c bs t rc ts hc hact hn hfetch hparse => ?table⟩
  case idle =>
    refine completesIf_of_done he ho fun c s _ _ hact => ⟨?_, rfl⟩
    exact if_pos (beq_iff_eq.2 hact)
  case outside => exact stopsIf_of_stop he ho fun c s ⟨hact, hn⟩ => jumpBody_of_no_table s hact hn
  case table =>
    have hbody := jumpBody_of_table (callx := callx) hact hn hfetch hparse
    refine ⟨fun hin => ?_, fun th hth hp hout => ?_⟩
    · rw [if_neg (not_not.2 (badIndexes_eq_zero hin))] at hbody
      exact exec_of_done he ho hc hbody rfl
    · rw [if_pos (badIndexes_ne_zero hth hp hout)] at hbody
      exact exec_of_stop he ho hc hbody

/-! ## TRAP and BRK -/

theorem raiseBody_none {cause code : Nat} {c : Ctx} (s : State) (h : c.parts = 0) : raiseBody cause code c s = .done { s } :=
  if_pos (beq_iff_eq.2 h)

theorem raiseBody_some {cause code : Nat} {c : Ctx} (s : State) (h : c.parts ≠ 0) :
    raiseBody cause code c s = .stop (.trap cause (BitVec.ofNat 64 code) c.parts []) :=
  if_neg (by simpa using h)

/-- The high bits of X that TRAP reserves (R360). -/
theorem and_trap_xZero (x : BitVec 26) : x &&& 0x3FF0000 = 0 ↔ x.toNat < 65536 := by
  have hmask : ∀ i : Fin 26, BitVec.getLsbD (0x3FF0000 : BitVec 26) i = decide (16 ≤ i.val) := by decide
  refine ⟨fun h => Nat.lt_pow_two_of_testBit (n := 16) x.toNat fun i hi => ?_, fun h => BitVec.eq_of_getLsbD_eq fun i hi => ?_⟩
  · by_cases hlt : i < 26
    · have hbit := congrArg (BitVec.getLsbD · i) h
      rw [BitVec.getLsbD_and, hmask ⟨i, hlt⟩, decide_eq_true hi, Bool.and_true] at hbit
      exact hbit.trans BitVec.getLsbD_zero
    · exact BitVec.getLsbD_of_ge x i (by omega)
  · rw [BitVec.getLsbD_and, hmask ⟨i, hi⟩]
    by_cases h16 : 16 ≤ i
    · have : x.getLsbD i = false := Nat.testBit_lt_two_pow (h.trans_le (Nat.pow_le_pow_right (n := 2) (by omega) h16))
      simp [this]
    · simp [h16]

/-- TRAP and BRK are per-thread, extended and NEXT only (R360). -/
theorem wf_of_perThreadNext {i : Instr} {op : Nat} {w : Fields} (ho : opFields i = some (op, w)) (hrow : i.isShortRow = false)
    (hinfo : (opInfo op w).shortLit = false ∧ (opInfo op w).imm = none ∧ (opInfo op w).u1 = false ∧ (opInfo op w).seqAny = false)
    (h : i.wf = true) : w.form = .ext ∧ w.u = false ∧ w.seq = 0 := by
  obtain ⟨hsl, himm, hu1, hany⟩ := hinfo
  have hseq := seq_eq_zero_of_wf ho h hany
  obtain ⟨hshort, hok, -⟩ := (wf_iff_of_opFields ho).1 h
  obtain ⟨hlen, hu, -⟩ := (encodingReason_eq_none_iff op w).1 hok
  refine ⟨?_, ?_, hseq⟩
  · rw [hrow] at hshort
    cases hform : w.form with
    | short => simp [hform] at hshort
    | ext => rfl
    | shortLit => simp [badLen, hform, hsl] at hlen
    | extLit => simp [badLen, hform, hseq, himm] at hlen
  · rw [hu1, Bool.not_false, Bool.and_true] at hu
    exact (Bool.or_eq_false_iff.1 hu).1

/-- A reserved bit of a per-thread extended word is its first fault. -/
theorem encodingReason_eq_three_of_perThread {op : Nat} {w : Fields} (hform : w.form = .ext) (hu : w.u = false)
    (hext : (opInfo op w).ext = true) (hu0 : (opInfo op w).u0 = true) (h : badReserved w (opInfo op w) = true) :
    encodingReason op w none = some 3 := by
  simp [encodingReason, badLen, hform, hext, hu, hu0, h]

/-- A field that an opcode does not have is zero, and so are its reserved bits (reason 3). -/
theorem badReserved_of_unused {w : Fields} {i : OpInfo} (hd : i.d = .unused) (ha : i.a = .unused) (hb : i.b = .unused)
    (hc : i.c = .unused) (hm : i.mZero = 0xFF)
    (h : w.d ≠ 0 ∨ w.a ≠ 0 ∨ w.b ≠ 0 ∨ w.c ≠ 0 ∨ w.m ≠ 0 ∨ (w.seq = 0 ∧ w.x &&& i.xZero ≠ 0)) :
    badReserved w i = true := by
  have hfield : ∀ v : BitVec 8, v ≠ 0 → kindBad3 .unused v = true := fun _ => bne_iff_ne.2
  rcases h with h | h | h | h | h | ⟨hseq, hx⟩
  · simp [badReserved, hd, hfield _ h]
  · simp [badReserved, ha, hfield _ h]
  · simp [badReserved, hb, hfield _ h]
  · simp [badReserved, hc, hfield _ h]
  · refine badReserved_of_m ?_
    rw [hm]
    exact fun hand => h (BitVec.and_allOnes.symm.trans hand)
  · exact badReserved_of_x hseq hx

theorem badReserved_of_f {w : Fields} {i : OpInfo} (h : w.f &&& i.fZero ≠ 0) : badReserved w i = true := by
  simp only [badReserved, bne_iff_ne.2 h, Bool.or_true, Bool.true_or]

/-- Settles O17: the two instructions by their shared body, their encodings by the checks of their rows. -/
theorem trapAndBreakRaiseTheirCauses : Obligations.TrapAndBreakRaiseTheirCauses := by
  unfold Obligations.TrapAndBreakRaiseTheirCauses
  refine fun w n y => ⟨?trapNone, ?trapSome, fun i hi => ?brk, rfl, rfl, rfl, ?trapWf, ?brkWf, ?fields, ?trapF, ?brkX, ?word⟩
  case trapNone =>
    exact completesIf_of_done (body := trapBody) (fun _ => rfl) rfl fun c s _ _ h => ⟨raiseBody_none s h, rfl⟩
  case trapSome =>
    refine stopsIf_of_stop (body := trapBody) (fun _ => rfl) rfl fun c s h => ?_
    rw [trapBody, raiseBody_some s h, fld_eq_extractLsb', BitVec.ofNat_toNat]
  case brk =>
    obtain ⟨v, ho, he⟩ : ∃ v, opFields i = some (0x0C, v) ∧ ∀ s, exec i s = s.issue 0x0C v brkBody := by
      rcases hi with rfl | rfl
      · exact ⟨w, rfl, fun _ => rfl⟩
      · exact ⟨_, rfl, fun _ => rfl⟩
    refine ⟨completesIf_of_done he ho fun c s _ _ h => ⟨raiseBody_none s h, rfl⟩, stopsIf_of_stop he ho fun c s h => ?_⟩
    rw [brkBody, raiseBody_some s h, BitVec.ofNat_toNat]
  case trapWf =>
    intro h
    obtain ⟨hform, hu, hseq⟩ := wf_of_perThreadNext rfl rfl ⟨rfl, rfl, rfl, rfl⟩ h
    refine ⟨hform, hu, hseq, (and_trap_xZero w.x).1 (by_contra fun hx => ?_)⟩
    have hbad := badReserved_of_wf rfl h
    rw [badReserved_of_x hseq hx] at hbad
    cases hbad
  case brkWf => exact fun h => wf_of_perThreadNext rfl rfl ⟨rfl, rfl, rfl, rfl⟩ h
  case fields =>
    have hzero : w.x &&& (opInfo 0x0C w).xZero = 0 → w.x = 0 := BitVec.and_allOnes.symm.trans
    intro hform hu hbad
    refine ⟨encodingReason_eq_three_of_perThread hform hu rfl rfl ?_, encodingReason_eq_three_of_perThread hform hu rfl rfl ?_⟩
    · refine badReserved_of_unused rfl rfl rfl rfl rfl (hbad.imp_right (Or.imp_right (Or.imp_right (Or.imp_right (Or.imp_right ?_)))))
      exact fun ⟨hseq, hx⟩ => ⟨hseq, fun h => absurd ((and_trap_xZero w.x).1 h) (Nat.not_lt.2 hx)⟩
    · refine badReserved_of_unused rfl rfl rfl rfl rfl (hbad.imp_right (Or.imp_right (Or.imp_right (Or.imp_right (Or.imp_right ?_)))))
      refine fun ⟨hseq, hx⟩ => ⟨hseq, fun h => ?_⟩
      rw [hzero h] at hx
      cases hx
  case trapF =>
    intro hform hu hf
    exact encodingReason_eq_three_of_perThread hform hu rfl rfl (badReserved_of_f (hf <| (BitVec.and_allOnes (x := w.f)).symm.trans ·))
  case brkX =>
    have hzero : w.x &&& (opInfo 0x0C w).xZero = 0 → w.x = 0 := BitVec.and_allOnes.symm.trans
    intro hform hu hseq hx
    exact encodingReason_eq_three_of_perThread hform hu rfl rfl (badReserved_of_x hseq fun h => hx (hzero h))
  case word => decide

end Sys2Proof.Machine
end

section
/-!
Counter instructions (R325, R345 to R351): O27 to O30.
-/
namespace Sys2Proof.Machine

/-! ## Thresholds (R325) -/

theorem satisfies_iff (v t : DWord) : satisfies v t = true ↔ (v - t).toNat < 2 ^ 63 := decide_eq_true_iff

theorem distant_iff (v t : DWord) : distant v t = true ↔ 2 ^ 62 < (t - v).toNat ∧ (t - v).toNat ≤ 2 ^ 63 := by
  simp only [distant, Bool.and_eq_true, decide_eq_true_iff]

/-- How far a threshold lies ahead of a value, and the value behind it, add up to the whole circle. -/
theorem ahead_add_behind {v t : DWord} (h : v ≠ t) : (t - v).toNat + (v - t).toNat = 2 ^ 64 := by
  bv_omega

/-- Settles O27, by the two distances on the circle of values. -/
theorem thresholdsAreMetOrAheadOrDistant : Obligations.ThresholdsAreMetOrAheadOrDistant := by
  unfold Obligations.ThresholdsAreMetOrAheadOrDistant
  refine fun v t => ⟨satisfies_iff v t, distant_iff v t, fun ⟨hmet, hfar⟩ => ?_, fun hmet hfar => ?_⟩
  · rw [satisfies_iff] at hmet
    rw [distant_iff] at hfar
    by_cases h : v = t
    · subst h
      simp at hfar
    · have := ahead_add_behind h
      omega
  · rw [← Bool.not_eq_true, satisfies_iff] at hmet
    rw [← Bool.not_eq_true, distant_iff] at hfar
    by_cases h : v = t
    · subst h
      simp at hmet
    · have := ahead_add_behind h
      omega

/-! ## CADD -/

/-- The outcomes of CADD, CPOLL and CREAD without participants, and of the four where their counters do not open. -/
theorem counterBodies_of_no_steps {c : Ctx} (s : State) (h : c.steps = []) :
    caddBody c s = .done { s } ∧ cpollBody c s = .done { s } ∧ creadBody c s = .done { s } := by
  refine ⟨?_, ?_, ?_⟩
  · exact if_pos (List.isEmpty_iff.2 h)
  · exact if_pos (List.isEmpty_iff.2 h)
  · exact if_pos (List.isEmpty_iff.2 h)

theorem not_isEmpty_of_ne {α : Type} {l : List α} (h : l ≠ []) : ¬l.isEmpty = true := fun he => h (List.isEmpty_iff.1 he)

theorem counterBodies_of_error {c : Ctx} {s : State} {e : Stop} (h : c.steps ≠ []) (hopen : s.openCounters c none = .error e) :
    caddBody c s = .stop e ∧ cpollBody c s = .stop e ∧ creadBody c s = .stop e ∧ cinitBody c s = .stop e := by
  have hsteps := not_isEmpty_of_ne h
  refine ⟨?_, ?_, ?_, ?_⟩
  · simp only [caddBody, if_neg hsteps, hopen]
  · simp only [cpollBody, if_neg hsteps, hopen]
  · simp only [creadBody, if_neg hsteps, hopen]
  · simp only [cinitBody, hopen]

/-- One add of CADD: the old value is noted and the sum written (R345). -/
def caddOne (c : Ctx) (a : Sparse DWord × State) (x : CounterAt) : Sparse DWord × State :=
  let u := match x.ref with
    | .mem loc => if scopeOf c.w ≤ 2 then a.2.journal c.r.team (.word loc) else a.2
    | _ => a.2
  (a.1 ++ [(x.t, a.2.counter x.ref)], u.writeCounter c x (a.2.counter x.ref + srcB u c false x.t))

/-- CADD sends the core's stores home before it adds: to a peer's counter always, else at a scope that reaches other cores. -/
def caddHome (c : Ctx) (l : List CounterAt) : Bool := !(remotesOf l true).isEmpty || drains c.k.pair (scopeOf c.w)

section Cadd
variable {c : Ctx} {s t : State} {l : List CounterAt} (h : c.steps ≠ []) (hopen : s.openCounters c none = .ok (l, t))
include h hopen

theorem caddBody_eq :
    caddBody c s =
      let t1 := if caddHome c l then t.drainHome c.core else t
      if caddHome c l && !t1.acked c.core then .unacked t1 [c.core]
      else
        let out := l.foldl (caddOne c) ([], if 2 < scopeOf c.w then t1.makeUnsafe c.r.team else t1)
        .done { s := out.2
                later := if c.w.m.getLsbD 0 then some (c.results true false fun i => look 0 out.1 i) else none
                remote := remotesOf l true } := by
  have hrelease : t.releaseFor c (!(remotesOf l true).isEmpty) (scopeOf c.w) =
      if caddHome c l then t.drainHome c.core else t := by
    cases hr : (remotesOf l true).isEmpty <;> simp [caddHome, hr, State.releaseFor, State.release]
  have hwaits (u : State) : u.releaseWaits c (!(remotesOf l true).isEmpty) (scopeOf c.w) =
      (caddHome c l && !u.acked c.core) := by
    cases hr : (remotesOf l true).isEmpty <;> simp [caddHome, hr, State.releaseWaits, State.unreleased]
  simp only [caddBody, if_neg (not_isEmpty_of_ne h), hopen, hrelease, hwaits]
  rfl

end Cadd

/-! ## CPOLL, CREAD, CINIT -/

section Opened
variable {c : Ctx} {s t : State} {l : List CounterAt} (hopen : s.openCounters c none = .ok (l, t))
include hopen

theorem creadBody_eq (h : c.steps ≠ []) : creadBody c s =
    .done { s := t, later := some (c.results true false fun i => look 0 (l.map fun a => (a.t, t.counter a.ref)) i)
            remote := remotesOf l false, reload := t.reloadOf c (locatedOf l) } := by
  simp only [creadBody, if_neg (not_isEmpty_of_ne h), hopen]

theorem cpollBody_far (h : c.steps ≠ []) (hfar : (l.any fun a => distant (t.counter a.ref) (srcB t c true a.t)) = true) :
    cpollBody c s = .stop (distantTrap ((l.filter fun a => distant (t.counter a.ref) (srcB t c true a.t)).map (·.t))) := by
  simp only [cpollBody, if_neg (not_isEmpty_of_ne h), hopen, threshold]
  exact if_pos (by simpa using hfar)

theorem cpollBody_near (h : c.steps ≠ []) (hfar : (l.any fun a => distant (t.counter a.ref) (srcB t c true a.t)) = false) :
    let met (a : CounterAt) : Bool := satisfies (t.counter a.ref) (srcB t c true a.t)
    cpollBody c s = .done
      { s := if l.any met then t.acquire c.core (scopeOf c.w) else t
        later := some (c.truths fun i => ((l.filter met).map (·.t)).contains i), remote := remotesOf l false
        reload := t.reloadOf c (locatedOf l) (l.map fun a => (a.t, srcB t c true a.t)) } := by
  intro met
  have hany : (if ((l.filter met).map (·.t)).isEmpty then t else t.acquire c.core (scopeOf c.w)) =
      if l.any met then t.acquire c.core (scopeOf c.w) else t := by
    have hempty : ((l.filter met).map (·.t)).isEmpty = !l.any met := by
      rw [Bool.eq_iff_iff]
      simp
    rw [hempty]
    cases l.any met <;> rfl
  rw [← hany]
  simp only [cpollBody, if_neg (not_isEmpty_of_ne h), hopen, threshold]
  exact if_neg (by simpa using hfar)

end Opened

/-- Every access has its homes. -/
theorem State.map_locateAll {s : State} {w : Space} {use : Use} {n : Nat} {l : List Req} {r : Located}
    (h : s.locateAll w use n l = .ok r) : r.map (·.1) = l := by
  unfold State.locateAll at h
  dsimp only at h
  split at h
  · cases h
  · cases h
    rw [List.map_map, List.map_map]
    exact List.map_id _

/-- A uniform instruction names one counter. -/
theorem State.openCounters_uniform {c : Ctx} {s t : State} {l : List CounterAt} {pre local_ : Option Stop} (hu : c.w.u = true)
    (hopen : s.openCounters c pre local_ = .ok (l, t)) : ∃ a, l = [a] := by
  have hsteps : c.steps = [uniThread] := by simp [Ctx.steps, hu]
  unfold State.openCounters at hopen
  dsimp only at hopen
  split at hopen
  · cases hopen
  · split at hopen
    · split at hopen
      · cases hopen
      · cases hopen
        exact ⟨_, rfl⟩
    · split at hopen
      · cases hopen
      · split at hopen
        · cases hopen
        · rename_i r hr
          split at hopen
          · cases hopen
          · split at hopen
            · cases hopen
            · cases hopen
              have hone := State.map_locateAll hr
              rw [hsteps, List.map_singleton] at hone
              obtain ⟨x, rfl, -⟩ := List.map_eq_singleton_iff.1 hone
              exact ⟨_, rfl⟩

/-- A word that a fibre may issue has a legal value of U (Table 3.11, reason 2). -/
theorem uniform_of_legal {s : State} {c : Ctx} (h : s.legal c = true) (hu0 : (opInfo c.op c.w (some c.k.width)).u0 = false) :
    c.w.u = true := by
  by_contra hu
  have hreason : encodingReason c.op c.w (some (c.env s)) ≠ none := by
    unfold encodingReason
    have hbad : (!c.w.u && !(opInfo c.op c.w (Option.map (·.width) (some (c.env s)))).u0) = true := by
      rw [Bool.eq_false_iff.2 hu, show (opInfo c.op c.w (Option.map (·.width) (some (c.env s)))).u0 = false from hu0]
      rfl
    simp only [hbad, Bool.or_true, if_true]
    split <;> simp
  exact hreason (Option.isNone_iff_eq_none.1 h)

/-- CINIT is uniform. -/
theorem uniform_of_clear_cinit {w : Fields} {s : State} {c : Ctx} (h : s.clear (.cinit w) = some c) : c.w.u = true := by
  obtain ⟨-, -, -, hlegal, -⟩ := State.clear_spec h
  obtain ⟨hop, -⟩ := State.fields_of_clear h rfl
  refine uniform_of_legal hlegal ?_
  rw [hop]
  rfl

theorem cinitBody_waited {c : Ctx} {s t : State} {l : List CounterAt} (hopen : s.openCounters c none = .ok (l, t))
    (hwait : l.any (fun a => t.waitedOn a.ref) = true) : cinitBody c s = .stop (.trap 8 0 c.act []) := by
  simp only [cinitBody, hopen]
  exact if_pos hwait

/-- CINIT writes its one counter where nobody waits. -/
theorem cinitBody_free {c : Ctx} {s t : State} {l : List CounterAt} (hu : c.w.u = true)
    (hopen : s.openCounters c none = .ok (l, t)) (hwait : l.any (fun a => t.waitedOn a.ref) = false) :
    cinitBody c s = .done { s := l.foldl (fun u a => u.writeCounter c a (srcB t c true a.t)) t } := by
  obtain ⟨a, rfl⟩ := State.openCounters_uniform hu hopen
  simp only [cinitBody, hopen, hwait, Bool.false_eq_true, if_false, List.foldl_cons, List.foldl_nil]

/-- Settles O28: each instruction by the outcome of its body once its counters have opened. -/
theorem countersAddReadPollAndSet : Obligations.CountersAddReadPollAndSet := by
  unfold Obligations.CountersAddReadPollAndSet
  intro w
  refine ⟨?idle, ?stops, fun s c l t hc hsteps hopen hstill => ?cadd, fun s c l t hc hsteps hopen hstill => ?cread,
    fun s c l t hc hsteps hopen => ?cpoll, fun s c l t hc hopen => ?cinit⟩
  case idle =>
    simp only [List.forall_mem_cons, List.not_mem_nil, false_imp_iff, implies_true, and_true]
    refine ⟨?_, ?_, ?_⟩
    · exact completesIf_of_done (body := caddBody) (fun _ => rfl) rfl fun c s _ _ h =>
        ⟨(counterBodies_of_no_steps s h).1, rfl⟩
    · exact completesIf_of_done (body := cpollBody) (fun _ => rfl) rfl fun c s _ _ h =>
        ⟨(counterBodies_of_no_steps s h).2.1, rfl⟩
    · exact completesIf_of_done (body := creadBody) (fun _ => rfl) rfl fun c s _ _ h =>
        ⟨(counterBodies_of_no_steps s h).2.2, rfl⟩
  case stops =>
    simp only [List.forall_mem_cons, List.not_mem_nil, false_imp_iff, implies_true, and_true]
    refine ⟨?_, ?_, ?_, ?_⟩ <;> intro s c e hc hsteps herr <;>
      obtain ⟨hadd, hpoll, hread, hinit⟩ := counterBodies_of_error hsteps herr
    · exact exec_of_stop (fun _ => rfl) rfl hc hadd
    · exact exec_of_stop (fun _ => rfl) rfl hc hpoll
    · exact exec_of_stop (fun _ => rfl) rfl hc hread
    · exact exec_of_stop (fun _ => rfl) rfl hc hinit
  case cadd =>
    intro home t1 t2 one out
    have hbody := caddBody_eq hsteps hopen
    refine ⟨fun hhome hunacked => ?_, fun hready => ?_⟩
    · refine exec_of_unacked (body := caddBody) (fun _ => rfl) rfl hc (hbody.trans (if_pos ?_))
      exact Bool.and_eq_true_iff.2 ⟨hhome, congrArg not hunacked⟩
    · refine exec_of_done (body := caddBody) (fun _ => rfl) rfl hc (hbody.trans (if_neg ?_)) hstill
      rintro hwaits
      obtain ⟨hhome, hunacked⟩ := Bool.and_eq_true_iff.1 hwaits
      rcases hready with h | h
      · exact Bool.false_ne_true (h.symm.trans hhome)
      · exact Bool.false_ne_true (((Bool.not_eq_true' _).mp hunacked).symm.trans h)
  case cread => exact exec_of_done (body := creadBody) (fun _ => rfl) rfl hc (creadBody_eq hopen hsteps) hstill
  case cpoll =>
    refine ⟨fun hfar => ?_, fun hfar hstill => ?_⟩
    · exact exec_of_stop (body := cpollBody) (fun _ => rfl) rfl hc (cpollBody_far hopen hsteps hfar)
    · exact exec_of_done (body := cpollBody) (fun _ => rfl) rfl hc (cpollBody_near hopen hsteps hfar) hstill
  case cinit =>
    refine ⟨fun hwait => ?_, fun hwait => ?_⟩
    · exact exec_of_stop (body := cinitBody) (fun _ => rfl) rfl hc (cinitBody_waited hopen hwait)
    · exact exec_of_done (body := cinitBody) (fun _ => rfl) rfl hc
        (cinitBody_free (uniform_of_clear_cinit hc) hopen hwait) rfl

end Sys2Proof.Machine
end

section
/-!
Waiting instructions (R346, R347, R350, R351): what each body does with its opened counters: O29 and O30.
-/
namespace Sys2Proof.Machine

/-! ## CWAIT -/

theorem cwaitBody_of_no_steps {c : Ctx} (s : State) (h : c.steps = []) : cwaitBody c s = .done { s, point := true } :=
  if_pos (List.isEmpty_iff.2 h)

/-- The counters that a CWAIT finds too far ahead; issued again it makes no such test (R325, R331). -/
def cwaitFar (c : Ctx) (t : State) (l : List CounterAt) : List CounterAt :=
  l.filter fun a => !c.x.again && distant (t.counter a.ref) (srcB t c true a.t)

/-- Those that are not satisfied yet. -/
def cwaitLeft (c : Ctx) (t : State) (l : List CounterAt) : List CounterAt :=
  l.filter fun a => !satisfies (t.counter a.ref) (srcB t c true a.t)

/-- What CWAIT does with its opened counters (R346). -/
theorem cwaitBody_eq {c : Ctx} {s t : State} {l : List CounterAt} (h : c.steps ≠ [])
    (hopen : s.openCounters c none = .ok (l, t)) : cwaitBody c s =
      if !(cwaitFar c t l).isEmpty then .stop (distantTrap ((cwaitFar c t l).map (·.t)))
      else if t.moves (remotesOf l false) then .held t .fabric
      else match cwaitLeft c t l with
        | [] => waitDone c t
        | a :: _ =>
          if c.w.u then
            .done { s := t.await c (.fibre c.r) a (srcB t c true a.t), point := true, parks := true
                    flow := some (uniformWait c 1 (counterKind c.w) (counterOperand c a) (srcB t c true a.t) 0) }
          else
            let left := maskOf fun i => (cwaitLeft c t l).any fun a => a.t == i
            .done { s := (cwaitLeft c t l).foldl
                      (fun u a => u.await c (.thread c.r (c.f.splitKey c.x.idx) a.t) a (srcB t c true a.t))
                      (if left = c.parts then t else t.acquire c.core (scopeOf c.w))
                    point := true, parks := true
                    flow := some { run := fun f => .ok (f.suspend .parked fun x =>
                      { x with park := .threads left 0 c.op c.w, again := true }) } } := by
  have hsteps : ¬c.steps.isEmpty = true := fun he => h (List.isEmpty_iff.1 he)
  simp only [cwaitBody, if_neg hsteps, hopen, threshold, beq_iff_eq]
  rfl

/-- A per-thread CWAIT registers its unsatisfied counters and parks its split (R346). -/
theorem cwaitBody_threads {c : Ctx} {s t : State} {l : List CounterAt} (h : c.steps ≠ [])
    (hopen : s.openCounters c none = .ok (l, t)) (hfar : cwaitFar c t l = []) (hstill : t.moves (remotesOf l false) = false)
    (hleft : cwaitLeft c t l ≠ []) (hu : c.w.u = false) :
    let left := maskOf fun i => (cwaitLeft c t l).any fun a => a.t == i
    cwaitBody c s = .done
      { s := (cwaitLeft c t l).foldl
          (fun u a => u.await c (.thread c.r (c.f.splitKey c.x.idx) a.t) a (srcB t c true a.t))
          (if left = c.parts then t else t.acquire c.core (scopeOf c.w))
        point := true, parks := true
        flow := some { run := fun f => .ok (f.suspend .parked fun x =>
          { x with park := .threads left 0 c.op c.w, again := true }) } } := by
  rw [cwaitBody_eq h hopen, hfar, hstill]
  generalize cwaitLeft c t l = wait at hleft ⊢
  cases wait with
  | nil => exact absurd rfl hleft
  | cons a rest => exact if_neg (Bool.eq_false_iff.1 hu)

/-! ## CWAITD -/

/-- What CWAITD does with its opened counter (R347): it tests distances unless it is issued again. -/
theorem cwaitdBody_eq {c : Ctx} {s t : State} {a : CounterAt} {rest : List CounterAt}
    (hnear : (c.x.again && !c.x.missed || !distant (BitVec.ofNat 64 s.tick) (deadlineOf s c)) = true)
    (hopen : s.openCounters c none = .ok (a :: rest, t)) (hstill : t.moves (remotesOf [a] false) = false) :
    cwaitdBody c s =
      if satisfies (t.counter a.ref) (srcB t c true a.t) then waitDone c t
      else if !(c.x.again && !c.x.missed) && distant (t.counter a.ref) (srcB t c true a.t) then .stop (distantTrap [])
      else if satisfies (BitVec.ofNat 64 s.tick) (deadlineOf s c) then .stop (.trap 6 (deadlineOf s c) c.act [])
      else .done { s := t.await c (.fibre c.r) a (srcB t c true a.t), point := true, parks := true
                   flow := some (uniformWait c 2 (counterKind c.w) (counterOperand c a) (srcB t c true a.t)
                     (deadlineOf s c)) } := by
  have htests : (!c.x.again || c.x.missed) = !(c.x.again && !c.x.missed) := by
    rw [Bool.not_and, Bool.not_not]
  have hpre : (!(c.x.again && !c.x.missed) && distant (BitVec.ofNat 64 s.tick) (deadlineOf s c)) = false := by
    rw [← Bool.not_eq_true', Bool.not_and, Bool.not_not]
    exact hnear
  simp only [cwaitdBody, hpre, Bool.false_eq_true, if_false, hopen, hstill, threshold, htests]

/-- Settles O29: CWAIT by its unsatisfied counters, CWAITD by its threshold and its deadline. -/
theorem waitsRegisterOrGoOn : Obligations.WaitsRegisterOrGoOn := by
  unfold Obligations.WaitsRegisterOrGoOn
  refine fun w s c l t => ⟨fun hc hsteps => ?idle, fun hc hsteps hopen => ?cwait, fun a rest hc hl => ?cwaitd⟩
  case idle => exact exec_of_done (body := cwaitBody) (fun _ => rfl) rfl hc (cwaitBody_of_no_steps _ hsteps) rfl
  case cwait =>
    intro thr far wait still
    have hbody := cwaitBody_eq hsteps hopen
    refine ⟨fun hfar => ?far, fun hfar hmoves => ?held, fun hfar hstill hwait => ?done, fun a rest hfar hstill hwait hu => ?uni,
      fun hfar hstill hwait hu => ?threads⟩
    case far => exact exec_of_stop (body := cwaitBody) (fun _ => rfl) rfl hc (hbody.trans (if_pos (congrArg not (List.isEmpty_eq_false_iff.2 hfar))))
    case held =>
      rw [show cwaitFar c t l = [] from hfar, Bool.eq_true_of_not_eq_false hmoves] at hbody
      exact exec_of_held (body := cwaitBody) (fun _ => rfl) rfl hc hbody
    case threads =>
      exact exec_of_done (body := cwaitBody) (fun _ => rfl) rfl hc (cwaitBody_threads hsteps hopen hfar hstill hwait hu) rfl
    all_goals rw [show cwaitFar c t l = [] from hfar, show t.moves (remotesOf l false) = false from hstill] at hbody
    case done =>
      rw [show cwaitLeft c t l = [] from hwait] at hbody
      exact exec_of_done (body := cwaitBody) (fun _ => rfl) rfl hc hbody rfl
    case uni =>
      rw [show cwaitLeft c t l = a :: rest from hwait] at hbody
      exact exec_of_done (body := cwaitBody) (fun _ => rfl) rfl hc (hbody.trans (if_pos hu)) rfl
  case cwaitd =>
    intro now dl v thr again hnear hstill hopen
    subst hl
    have hbody := cwaitdBody_eq (s := s.begun c) hnear hopen hstill
    refine ⟨fun hmet => ?met, fun hmet hagain hfar => ?far, fun hmet hclose hnow => ?promise, fun hmet hclose hnow => ?waits⟩
    case met => exact exec_of_done (body := cwaitdBody) (fun _ => rfl) rfl hc (hbody.trans (if_pos hmet)) rfl
    all_goals rw [if_neg (Bool.eq_false_iff.1 hmet)] at hbody
    case far =>
      refine exec_of_stop (body := cwaitdBody) (fun _ => rfl) rfl hc (hbody.trans (if_pos ?_))
      exact Bool.and_eq_true_iff.2 ⟨congrArg not hagain, hfar⟩
    all_goals rw [if_neg (by rw [Bool.not_eq_true, ← Bool.not_eq_true', Bool.not_and, Bool.not_not]; exact hclose)] at hbody
    case promise => exact exec_of_stop (body := cwaitdBody) (fun _ => rfl) rfl hc (hbody.trans (if_pos hnow))
    case waits =>
      exact exec_of_done (body := cwaitdBody) (fun _ => rfl) rfl hc (hbody.trans (if_neg (Bool.eq_false_iff.1 hnow))) rfl

/-! ## CARM, EWAIT, EREAD -/

/-- What CARM does with its opened counter (R350). -/
theorem carmBody_eq {c : Ctx} {s t : State} {a : CounterAt} {rest : List CounterAt}
    (halign : (srcA s c true uniThread).toNat % 8 = 0)
    (hstop : carmStop (uniOperand s c c.w.c.toNat uniThread) (srcA s c true uniThread) = none)
    (hopen : s.openCounters c none (some (misuse 5 8 0)) = .ok (a :: rest, t))
    (hnear : distant (t.counter a.ref) (srcB t c true a.t) = false) :
    carmBody c s =
      if satisfies (t.counter a.ref) (srcB t c true a.t) then
        .done { s := (t.makeUnsafe c.r.team).userEvent (fld (uniOperand s c c.w.c.toNat uniThread) 6 0)
                  { asid := c.asid, vector := fld (uniOperand s c c.w.c.toNat uniThread) 13 8, killed := false } }
      else if t.homeFull a.ref then .held t .homeList
      else .done { s := (t.makeUnsafe c.r.team).await c (.host c.asid (fld (uniOperand s c c.w.c.toNat uniThread) 6 0)
                     (fld (uniOperand s c c.w.c.toNat uniThread) 13 8)) a (srcB t c true a.t) } := by
  have hpre : ((srcA s c true uniThread).toNat % 8 != 0) = false := by rw [halign]; rfl
  simp only [carmBody, hpre, Bool.false_eq_true, if_false, hstop, hopen, threshold, hnear]
  rfl

theorem State.acquire_column (s : State) (core : Nat) : s.acquire core 2 = s.modCore core fun k => { k with l1 := [] } := rfl

/-- Settles O30: CARM and EWAIT by their thresholds, EREAD by its sub-function. -/
theorem hostWaitersAndEngineCounts : Obligations.HostWaitersAndEngineCounts := by
  unfold Obligations.HostWaitersAndEngineCounts
  refine fun w => ⟨fun s c a l t hc => ?carm, ⟨?few, ?many⟩, ?eread⟩
  case carm =>
    intro target va halign hstop hopen hart vector thr hnear
    have hbody := carmBody_eq halign hstop hopen hnear
    refine ⟨fun hmet => ?fires, fun hmet hfull => ?held, fun hmet hfull => ?registers⟩
    case fires => exact exec_of_done (body := carmBody) (fun _ => rfl) rfl hc (hbody.trans (if_pos hmet)) rfl
    all_goals rw [if_neg (Bool.eq_false_iff.1 hmet)] at hbody
    case held => exact exec_of_held (body := carmBody) (fun _ => rfl) rfl hc (hbody.trans (if_pos hfull))
    case registers =>
      exact exec_of_done (body := carmBody) (fun _ => rfl) rfl hc (hbody.trans (if_neg (Bool.eq_false_iff.1 hfull))) rfl
  case few => exact completesIf_of_done (body := ewaitBody) (fun _ => rfl) rfl fun c s _ _ h => ⟨if_pos h, rfl⟩
  case many => exact completesIf_of_done (body := ewaitBody) (fun _ => rfl) rfl fun c s _ _ h => ⟨if_neg h, rfl⟩
  case eread =>
    refine completes_of_done (body := ereadBody) (fun _ => rfl) rfl fun c s _ _ => ⟨?_, rfl⟩
    have hsel : fld c.w.f 3 2 = c.w.f.toNat / 4 % 4 := by
      rw [fld, Nat.shiftRight_eq_div_pow]
      rfl
    simp only [ereadBody, hsel]

end Sys2Proof.Machine
end

section
/-!
Claims and releases of tiles and regions (R234, R242, R243): O32.
-/
namespace Sys2Proof.Machine

/-! ## The range of a claim -/

theorem length_claimRange (c : Ctx) : (claimRange c).length = c.w.f.toNat + 1 := by
  simp [claimRange]

theorem mem_claimRange {c : Ctx} {n : Nat} :
    n ∈ claimRange c ↔ c.w.d.toNat ≤ n ∧ n < c.w.d.toNat + (c.w.f.toNat + 1) := by
  simp only [claimRange, List.mem_map, List.mem_range]
  constructor
  · rintro ⟨i, hi, rfl⟩
    omega
  · rintro ⟨hlow, hhigh⟩
    exact ⟨n - c.w.d.toNat, by omega, by omega⟩

theorem claimOf_eq (region : Bool) (c : Ctx) :
    claimOf region c = { fib := c.r, region, first := c.w.d.toNat, count := c.w.f.toNat + 1 } := by
  rw [claimOf, length_claimRange]

theorem Release.has_iff {x : Release} {n : Nat} : x.has x.region n = true ↔ x.first ≤ n ∧ n < x.first + x.count := by
  simp [Release.has]

theorem Release.has_of_region_ne {x : Release} {region : Bool} (h : x.region ≠ region) (n : Nat) : x.has region n = false := by
  simp [Release.has, h]

theorem claimOf_has (region : Bool) (c : Ctx) (n : Nat) : (claimOf region c).has region n = (claimRange c).contains n := by
  have hhas := Release.has_iff (x := claimOf region c) (n := n)
  rw [Bool.eq_iff_iff, List.contains_iff_mem, mem_claimRange]
  rw [claimOf_eq] at hhas ⊢
  exact hhas

/-! ## Claiming -/

/-- The number of backed items. -/
def claimLimit (region : Bool) (c : Ctx) : Nat := if region then c.k.regions else c.k.slots

/-- An item is claimed, releasing or not. -/
def Team.claimed (t : Team) (region : Bool) (n : Nat) : Bool := if region then (t.tag? n).isSome else t.tiles.contains n

/-- An item that is neither free nor under release (R242). -/
def Team.refusesClaim (t : Team) (region : Bool) (c : Ctx) (n : Nat) : Bool :=
  claimLimit region c ≤ n || (t.claimed region n && !t.releasing region n)

theorem Team.refusesClaim_eq_false {t : Team} {region : Bool} {c : Ctx} {n : Nat} :
    t.refusesClaim region c n = false ↔
      n < claimLimit region c ∧ (t.claimed region n = true → t.releasing region n = true) := by
  unfold Team.refusesClaim
  cases t.claimed region n <;> cases t.releasing region n <;> simp

section
variable {c : Ctx} {s : State} {t : Team} {region : Bool} (ht : s.team? c.r.team = some t)
include ht

theorem claimBody_refused {n : Nat} (h : (claimRange c).find? (t.refusesClaim region c) = some n) :
    claimBody region c s = .stop (misuse (if region then 1 else 0) 0 n) := by
  have hfind : (claimRange c).find? (fun n => (if region then c.k.regions else c.k.slots) ≤ n ||
    ((if region then (t.tag? n).isSome else t.tiles.contains n) && !t.releasing region n)) = some n := h
  simp only [claimBody, ht, hfind]

variable (h : ∀ n ∈ claimRange c, t.refusesClaim region c n = false)
include h

theorem claimBody_waits (hwait : t.behind (claimOf region c) = true ∨ ∃ n ∈ claimRange c, t.releasing region n = true) :
    claimBody region c s = .held (if claimOf region c ∈ t.claims then s
      else s.modTeam c.r.team fun t => { t with claims := t.claims ++ [claimOf region c] }) .engine := by
  have hfind : (claimRange c).find? (fun n => (if region then c.k.regions else c.k.slots) ≤ n ||
      ((if region then (t.tag? n).isSome else t.tiles.contains n) && !t.releasing region n)) = none :=
    List.find?_eq_none.2 fun n hn => Bool.eq_false_iff.1 (h n hn)
  have hany : ((claimRange c).any (t.releasing region) || t.behind (claimOf region c)) = true := by
    rw [Bool.or_eq_true, List.any_eq_true]
    exact hwait.symm
  simp only [claimBody, ht, hfind, hany, if_true, List.contains_iff_mem]

theorem claimBody_takes (hbehind : t.behind (claimOf region c) = false)
    (hfree : ∀ n ∈ claimRange c, t.releasing region n = false) :
    claimBody region c s =
      .done { s := (s.modTeam c.r.team fun t => t.claim region c).retryEngine t.core } := by
  have hfind : (claimRange c).find? (fun n => (if region then c.k.regions else c.k.slots) ≤ n ||
      ((if region then (t.tag? n).isSome else t.tiles.contains n) && !t.releasing region n)) = none :=
    List.find?_eq_none.2 fun n hn => Bool.eq_false_iff.1 (h n hn)
  have hany : ((claimRange c).any (t.releasing region) || t.behind (claimOf region c)) = false := by
    rw [hbehind, Bool.or_false, List.any_eq_false]
    exact fun n hn => Bool.eq_false_iff.1 (hfree n hn)
  simp only [claimBody, ht, hfind, hany, Bool.false_eq_true, if_false, Ctx.claims]

end

/-! ## Tags of claimed regions -/

theorem lookup_filter_key {α : Type} (p : Nat → Bool) (m : List (Nat × α)) (n : Nat) :
    (m.filter fun e => p e.1).lookup n = if p n then m.lookup n else none := by
  induction m with
  | nil => simp
  | cons e m ih =>
    obtain ⟨k, v⟩ := e
    by_cases hk : n = k
    · subst hk
      cases hp : p n <;> simp [hp, ih]
    · have hne : (n == k) = false := by simpa using hk
      cases hp : p k <;> simp [hp, ih, List.lookup_cons, hne]

/-- A tag set in the table of regions is the one that the region has; the others keep theirs. -/
theorem lookup_setTag {α : Type} (m : List (Nat × α)) (k : Nat) (v : α) (n : Nat) :
    (m.filter (·.1 < k) ++ (k, v) :: m.filter (k < ·.1)).lookup n = if n = k then some v else m.lookup n := by
  rw [List.lookup_append, lookup_filter_key (fun x => decide (x < k)), List.lookup_cons,
    lookup_filter_key (fun x => decide (k < x))]
  rcases Nat.lt_trichotomy n k with hlt | rfl | hgt
  · have hne : (n == k) = false := beq_eq_false_iff_ne.2 hlt.ne
    simp [hlt, hlt.ne, hne, Nat.not_lt.2 hlt.le]
  · simp
  · have hne : (n == k) = false := beq_eq_false_iff_ne.2 hgt.ne'
    simp [hgt, hgt.ne', hne, Nat.not_lt.2 hgt.le]

theorem lookup_setTags {α : Type} (l : List Nat) (v : α) (m : List (Nat × α)) (n : Nat) :
    (l.foldl (fun m k => m.filter (·.1 < k) ++ (k, v) :: m.filter (k < ·.1)) m).lookup n =
      if n ∈ l then some v else m.lookup n := by
  induction l generalizing m with
  | nil => simp
  | cons k l ih =>
    rw [List.foldl_cons, ih, lookup_setTag]
    by_cases hl : n ∈ l <;> by_cases hk : n = k <;> simp [hl, hk]

theorem Team.tag?_claim (t : Team) (c : Ctx) (n : Nat) :
    (t.claim true c).tag? n = if n ∈ claimRange c then some (claimTag c) else t.tag? n :=
  lookup_setTags (claimRange c) (claimTag c) t.regions n

/-! ## Releasing -/

/-- An item that a release may name: claimed and not yet under release (R242). -/
def Team.releasable (t : Team) (region : Bool) (c : Ctx) (n : Nat) : Bool :=
  if region then (t.regionOk c.k n).isSome else t.tileOk c.k n

section
variable {c : Ctx} {s : State} {t : Team} {region : Bool} (ht : s.team? c.r.team = some t)
include ht

theorem releaseBody_ended (h : { claimOf region c with freed := true } ∈ t.releases) :
    releaseBody region c s = .done { s := s.modTeam c.r.team fun t =>
      { t with releases := t.releases.filter (· != { claimOf region c with freed := true }) } } := by
  simp only [releaseBody, ht, List.contains_iff_mem.2 h, if_true]

variable (hnew : { claimOf region c with freed := true } ∉ t.releases)
include hnew

theorem releaseBody_refused (hown : claimOf region c ∉ t.releases) {n : Nat}
    (h : (claimRange c).find? (fun n => !t.releasable region c n) = some n) :
    releaseBody region c s = .stop (misuse (if region then 1 else 0) 0 n) := by
  have hfind : (claimRange c).find? (fun n => !if region then (t.regionOk c.k n).isSome else t.tileOk c.k n) = some n := h
  simp only [releaseBody, ht, List.contains_eq_mem, hnew, hown, decide_false, Bool.false_eq_true, if_false, hfind]

/-- A release that goes ahead: it waits while its items are in use, and frees them else (R234). -/
theorem releaseBody_accepted
    (h : claimOf region c ∈ t.releases ∨ ∀ n ∈ claimRange c, t.releasable region c n = true) :
    releaseBody region c s =
      if s.releaseBusy t (claimOf region c) then
        .held (if claimOf region c ∈ t.releases then s
          else s.modTeam c.r.team fun t => { t with releases := claimOf region c :: t.releases }) .engine
      else .done { s := (s.modTeam c.r.team fun t => { t.free (claimOf region c) with
        releases := t.releases.filter (· != claimOf region c) }).retryEngine t.core } := by
  have hfind : (if claimOf region c ∈ t.releases then none
      else (claimRange c).find? fun n => !if region then (t.regionOk c.k n).isSome else t.tileOk c.k n) = none := by
    by_cases hown : claimOf region c ∈ t.releases
    · exact if_pos hown
    · rw [if_neg hown]
      refine List.find?_eq_none.2 fun n hn => ?_
      have hok : (if region then (t.regionOk c.k n).isSome else t.tileOk c.k n) = true := h.resolve_left hown n hn
      rw [hok]
      simp
  simp only [releaseBody, ht, List.contains_eq_mem, hnew, decide_false, Bool.false_eq_true, if_false, decide_eq_true_eq,
    hfind, Ctx.claims]

end

/-- A freed range is the range of its instruction. -/
theorem Team.free_claimOf (t : Team) (region : Bool) (c : Ctx) : t.free (claimOf region c) = { t with
    tiles := if region then t.tiles else t.tiles.filter fun n => !(claimRange c).contains n
    regions := if region then t.regions.filter fun x => !(claimRange c).contains x.1 else t.regions } := by
  have hkind : (claimOf region c).region = region := rfl
  cases region
  · have hregions : ∀ n, (claimOf false c).has true n = false := Release.has_of_region_ne (by rw [hkind]; decide)
    simp only [Team.free, claimOf_has, hregions]
    simp
  · have htiles : ∀ n, (claimOf true c).has false n = false := Release.has_of_region_ne (by rw [hkind]; decide)
    simp only [Team.free, claimOf_has, htiles]
    simp

/-! ## When a release waits (R234, R236) -/

theorem mem_teamOps {s : State} {core : Nat} {r : TeamRef} {e : EngineOp} :
    e ∈ s.teamOps core r ↔ e ∈ (s.core core).engine ∧ e.fib.team = r := by
  simp [State.teamOps]

theorem State.releaseBusy_tiles {s : State} {t : Team} {x : Release} (h : x.region = false) :
    s.releaseBusy t x = true ↔ ∃ e ∈ (s.core t.core).engine, e.fib.team = t.ref ∧
      ∃ n ∈ opTiles e.op e.w, x.first ≤ n ∧ n < x.first + x.count := by
  have hhas (n : Nat) := Release.has_iff (x := x) (n := n)
  rw [h] at hhas
  simp only [State.releaseBusy, h, Bool.false_eq_true, if_false, List.any_eq_true, mem_teamOps, hhas, and_assoc]

theorem State.releaseBusy_regions {s : State} {t : Team} {x : Release} (h : x.region = true) :
    s.releaseBusy t x = true ↔
      (∃ e ∈ (s.core t.core).engine, e.fib.team = t.ref ∧
        ∃ y ∈ opTouches t e.op e.w, ∃ n ∈ y.regions, x.first ≤ n ∧ n < x.first + x.count) ∨
      (∃ k ∈ s.cores, ∃ q ∈ k.2.reqs, q.team = t.ref ∧ q.waitsPhase = true ∧
        ∃ n ∈ (cpaRect q.cmd (t.tagOr (cpaReg q.cmd))).regions, x.first ≤ n ∧ n < x.first + x.count) := by
  have hhas (n : Nat) := Release.has_iff (x := x) (n := n)
  rw [h] at hhas
  simp only [State.releaseBusy, h, if_true, Bool.or_eq_true, List.any_eq_true, mem_teamOps, hhas, Bool.and_eq_true,
    beq_iff_eq, and_assoc]

/-! ## Releases whose wait has ended -/

/-- An item of a release's kind is free. -/
def Team.without (t : Team) (x : Release) (n : Nat) : Prop := if x.region then t.tag? n = none else n ∉ t.tiles

/-- A release has freed its items. -/
def Team.released (t : Team) (x : Release) : Prop :=
  { x with freed := true } ∈ t.releases ∧ ∀ n, x.has x.region n = true → t.without x n

/-- One step of `State.freeEnded`. -/
def State.freeOne (s : State) (t u : Team) (y : Release) : Team :=
  if y.freed || s.releaseBusy t y then u
  else { u.free y with releases := u.releases.map fun z => if z == y then { z with freed := true } else z }

theorem Team.tag?_free (t : Team) (x : Release) (n : Nat) : (t.free x).tag? n = if x.has true n then none else t.tag? n := by
  refine (lookup_filter_key (fun n => !x.has true n) t.regions n).trans ?_
  cases x.has true n <;> rfl

theorem Team.mem_tiles_free {t : Team} {x : Release} {n : Nat} : n ∈ (t.free x).tiles ↔ n ∈ t.tiles ∧ x.has false n = false := by
  simp [Team.free]

/-- Freeing takes no item. -/
theorem Team.without_free {t : Team} {x : Release} {n : Nat} (y : Release) (h : t.without x n) : (t.free y).without x n := by
  unfold Team.without at *
  cases hr : x.region
  · simp only [hr, Bool.false_eq_true, if_false] at h ⊢
    exact fun hmem => h (Team.mem_tiles_free.1 hmem).1
  · simp only [hr, if_true] at h ⊢
    rw [Team.tag?_free, h, ite_self]

theorem Team.without_free_self {t : Team} {x : Release} {n : Nat} (h : x.has x.region n = true) : (t.free x).without x n := by
  unfold Team.without
  cases hr : x.region
  · rw [hr] at h
    simp [Team.mem_tiles_free, h]
  · rw [hr] at h
    simp [Team.tag?_free, h]

theorem State.freeOne_released {s : State} {t u : Team} {x : Release} (y : Release) (h : u.released x) :
    (s.freeOne t u y).released x := by
  unfold State.freeOne
  split
  · exact h
  · rename_i hy
    obtain ⟨hmem, hitems⟩ := h
    refine ⟨List.mem_map.2 ⟨_, hmem, if_neg ?_⟩, fun n hn => Team.without_free y (hitems n hn)⟩
    rintro heq
    rw [← beq_iff_eq.1 heq] at hy
    simp at hy

theorem State.freeOne_self {s : State} {t u : Team} {x : Release} (hx : x ∈ u.releases) (hfreed : x.freed = false)
    (hbusy : s.releaseBusy t x = false) : (s.freeOne t u x).released x := by
  unfold State.freeOne
  rw [hfreed, hbusy]
  exact ⟨List.mem_map.2 ⟨x, hx, by simp⟩, fun n hn => Team.without_free_self hn⟩

theorem State.mem_releases_freeOne {s : State} {t u : Team} {x y : Release} (hx : x ∈ u.releases) (hne : x ≠ y) :
    x ∈ (s.freeOne t u y).releases := by
  unfold State.freeOne
  split
  · exact hx
  · exact List.mem_map.2 ⟨x, hx, if_neg (by simpa using hne)⟩

theorem State.foldl_freeOne_released {s : State} {t : Team} {x : Release} (l : List Release) {u : Team}
    (hfreed : x.freed = false) (hbusy : s.releaseBusy t x = false) (h : u.released x ∨ (x ∈ l ∧ x ∈ u.releases)) :
    (l.foldl (s.freeOne t) u).released x := by
  induction l generalizing u with
  | nil => exact h.resolve_right fun h => List.not_mem_nil h.1
  | cons y l ih =>
    refine ih ?_
    rcases h with h | ⟨hl, hu⟩
    · exact .inl (s.freeOne_released y h)
    · by_cases hxy : x = y
      · subst hxy
        exact .inl (State.freeOne_self hu hfreed hbusy)
      · exact .inr ⟨(List.mem_cons.1 hl).resolve_left hxy, State.mem_releases_freeOne hu hxy⟩

theorem State.freeEnded_released {s : State} {t : Team} {x : Release} (hx : x ∈ t.releases) (hfreed : x.freed = false)
    (hbusy : s.releaseBusy t x = false) : (s.freeEnded t).released x :=
  State.foldl_freeOne_released t.releases hfreed hbusy (.inr ⟨hx, hx⟩)

theorem State.freeEnded_ref (s : State) (t : Team) : (s.freeEnded t).ref = t.ref := by
  have hfold (l : List Release) (u : Team) : (l.foldl (s.freeOne t) u).ref = u.ref := by
    induction l generalizing u with
    | nil => rfl
    | cons y l ih =>
      rw [List.foldl_cons, ih]
      unfold State.freeOne
      split <;> rfl
  exact hfold t.releases t

/-- The team whose engine tries again, with the releases that have ended. -/
theorem State.team?_retryEngine {s : State} {t : Team} (h : s.team? t.ref = some t) :
    ∃ u, (s.retryEngine t.core).team? t.ref = some u ∧ u.releases = (s.freeEnded t).releases ∧
      u.regions = (s.freeEnded t).regions ∧ u.tiles = (s.freeEnded t).tiles := by
  let go (f : Fibre) : Fibre := if f.hold == .engine then { f with hold := .none } else f
  let retried (x : Team) : Team :=
    { s.freeEnded x with groups := (s.freeEnded x).groups.map fun (g : Group) => { g with fibres := g.fibres.map go } }
  have href (x : Team) : (if x.core == t.core then retried x else x).ref = x.ref := by
    split
    · exact s.freeEnded_ref x
    · rfl
  refine ⟨retried t, ?_, rfl, rfl, rfl⟩
  show List.find? _ (s.teams.map fun x => if x.core == t.core then retried x else x) = _
  rw [List.find?_map]
  have hpred : ((fun x : Team => x.ref == t.ref) ∘ fun x => if x.core == t.core then retried x else x) = fun x => x.ref == t.ref :=
    funext fun x => congrArg (· == t.ref) (href x)
  rw [hpred]
  have hfind : s.teams.find? (fun x => x.ref == t.ref) = some t := h
  rw [hfind, Option.map_some, if_pos (beq_self_eq_true _)]

/-- Settles O32: claims and releases by the outcomes of their two bodies, the end of a wait by the engine's next try. -/
theorem claimsAndReleasesOfRanges : Obligations.ClaimsAndReleasesOfRanges := by
  unfold Obligations.ClaimsAndReleasesOfRanges
  refine ⟨fun w s c t => ?claims, fun w region => ?releases, fun s t x => ?ends⟩
  case claims =>
    intro mine queued
    have hmine (region : Bool) : mine region = claimOf region c := (claimOf_eq region c).symm
    refine ⟨fun hc ht => ⟨fun hfree hbehind => ?_, fun hok hwait => ?_, fun n hn => ?_⟩,
      fun hc ht => ⟨fun hok hwait => ?_, fun hfree hbehind => ?_, fun n hn => ?_⟩⟩
    · rw [hmine] at hbehind ⊢
      refine exec_of_done (body := claimBody false) (fun _ => rfl) rfl hc
        (claimBody_takes ht (fun n hn => ?_) hbehind fun n hn => (hfree n hn).2.2) rfl
      obtain ⟨hlt, htile, -⟩ := hfree n hn
      exact Team.refusesClaim_eq_false.2 ⟨hlt, fun hclaimed => absurd (List.contains_iff_mem.1 hclaimed) htile⟩
    · simp only [queued, hmine] at hwait ⊢
      refine exec_of_held (body := claimBody false) (fun _ => rfl) rfl hc (claimBody_waits ht (fun n hn => ?_) hwait)
      obtain ⟨hlt, hrel⟩ := hok n hn
      exact Team.refusesClaim_eq_false.2 ⟨hlt, fun hclaimed => hrel (List.contains_iff_mem.1 hclaimed)⟩
    · exact exec_of_stop (body := claimBody false) (fun _ => rfl) rfl hc (claimBody_refused (region := false) ht hn)
    · simp only [queued, hmine] at hwait ⊢
      refine exec_of_held (body := claimBody true) (fun _ => rfl) rfl hc (claimBody_waits ht (fun n hn => ?_) hwait)
      obtain ⟨hlt, hrel⟩ := hok n hn
      exact Team.refusesClaim_eq_false.2 ⟨hlt, fun hclaimed => hrel (Option.isSome_iff_ne_none.1 hclaimed)⟩
    · rw [hmine] at hbehind
      refine ⟨fun t => t.claim true c, fun x n hn => ?_, fun x n hn => ?_, ?_⟩
      · exact (x.tag?_claim c n).trans (if_pos hn)
      · exact (x.tag?_claim c n).trans (if_neg hn)
      · refine exec_of_done (body := claimBody true) (fun _ => rfl) rfl hc
          (claimBody_takes ht (fun n hn => ?_) hbehind fun n hn => (hfree n hn).2.2) rfl
        obtain ⟨hlt, htag, -⟩ := hfree n hn
        exact Team.refusesClaim_eq_false.2 ⟨hlt, fun hclaimed => absurd htag (Option.isSome_iff_ne_none.1 hclaimed)⟩
    · exact exec_of_stop (body := claimBody true) (fun _ => rfl) rfl hc (claimBody_refused (region := true) ht hn)
  case releases =>
    intro i s c t hc s0 mine past ht
    obtain ⟨op, ho, he⟩ : ∃ op, opFields i = some (op, w) ∧ ∀ s, exec i s = s.issue op w (releaseBody region) := by
      cases region
      · exact ⟨0xF1, rfl, fun _ => rfl⟩
      · exact ⟨0xF3, rfl, fun _ => rfl⟩
    have hmine : mine = claimOf region c := (claimOf_eq region c).symm
    have hpast : past = { claimOf region c with freed := true } := by rw [← hmine]
    rw [hpast, hmine]
    refine ⟨fun hended => ?_, fun hnew hgo => ⟨fun hbusy => ?_, fun hbusy => ?_⟩, fun n hnew hown hn => ?_⟩
    · exact exec_of_done he ho hc (releaseBody_ended ht hended) rfl
    · exact exec_of_held he ho hc ((releaseBody_accepted ht hnew hgo).trans (if_pos hbusy))
    · refine exec_of_done he ho hc ((releaseBody_accepted ht hnew hgo).trans ((if_neg (Bool.eq_false_iff.1 hbusy)).trans ?_)) rfl
      simp only [Team.free_claimOf]
    · exact exec_of_stop he ho hc (releaseBody_refused ht hnew hown hn)
  case ends =>
    intro used
    have hused : s.releaseBusy t x = true ↔ used := by
      cases hr : x.region with
      | true =>
        refine (State.releaseBusy_regions hr).trans ?_
        simp only [used, hr, if_true]
      | false =>
        refine (State.releaseBusy_tiles hr).trans ?_
        simp only [used, hr, Bool.false_eq_true, if_false]
    refine ⟨hused, fun ht hx hfreed hunused => ?_⟩
    obtain ⟨u, hu, hreleases, hregions, htiles⟩ := State.team?_retryEngine ht
    obtain ⟨hmem, hitems⟩ := State.freeEnded_released hx hfreed (Bool.eq_false_iff.2 fun h => hunused (hused.1 h))
    refine ⟨u, hu, hreleases ▸ hmem, fun n hlow hhigh => ?_⟩
    have hn := hitems n (Release.has_iff.2 ⟨hlow, hhigh⟩)
    rw [htiles, Team.tag?, hregions]
    exact hn

end Sys2Proof.Machine
end

section
/-!
The accumulator port (R251, R252): O35.
-/
namespace Sys2Proof.Machine

/-- The first cells of an access, by thread. -/
def portCells (s : State) (c : Ctx) (reg : Nat) : List (Nat × Nat × Nat) := c.steps.map fun i => (i, portCell s c reg i)

/-- The fibre's own queued operations write none of the cells of an access. -/
def State.portFree (s : State) (c : Ctx) (t : Team) (reg : Nat) : Prop :=
  ((s.fibreOps t.core c.r).all fun e => (opWrites t e.op e.w).all fun r => (portCells s c reg).all fun x =>
    !r.overlaps { r0 := x.2.1, c0 := x.2.2, rows := 1, cols := if portWide c then 2 else 1 }) = true

/-- The access takes place where each cell may be used and no operation of the fibre still writes one. -/
theorem portBody_of_free {pos reg : Nat} {act : Team → List (Nat × Nat × Nat) → Ctx → State → Effect} {c : Ctx} {s : State}
    {t : Team} (ht : s.team? c.r.team = some t) (hcells : ∀ x ∈ portCells s c reg, portFails t c reg x.2 = none)
    (hfree : s.portFree c t reg) : portBody pos reg act c s = act t (portCells s c reg) c s := by
  have hnone : (portCells s c reg).filterMap (fun x => (portFails t c reg x.2).map fun n => (x.1, n)) = [] :=
    List.filterMap_eq_nil_iff.2 fun x hx => by rw [hcells x hx, Option.map_none]
  have hidle : ((s.fibreOps t.core c.r).any fun e => (opWrites t e.op e.w).any fun r => (portCells s c reg).any fun x =>
      r.overlaps { r0 := x.2.1, c0 := x.2.2, rows := 1, cols := if portWide c then 2 else 1 }) = false := by
    unfold State.portFree at hfree
    rw [← Bool.not_eq_true', List.not_any_eq_all_not]
    simp only [List.not_any_eq_all_not]
    exact hfree
  unfold portCells at *
  simp only [portBody, ht, hnone, hidle, Bool.false_eq_true, if_false]

/-- The results of an instruction depend on the values of its steps alone. -/
theorem Ctx.results_congr {c : Ctx} {wide signed : Bool} {f g : Nat → DWord} (h : ∀ i ∈ c.steps, f i = g i) :
    c.results wide signed f = c.results wide signed g := by
  unfold Ctx.results
  refine List.flatMap_congr fun i hi => ?_
  rw [h i hi]

theorem find?_portCells {s : State} {c : Ctx} {reg i : Nat} (h : i ∈ c.steps) :
    (portCells s c reg).find? (fun x => x.1 == i) = some (i, portCell s c reg i) := by
  have hfind : c.steps.find? (fun j => j == i) = some i := by
    obtain ⟨j, hj⟩ := Option.isSome_iff_exists.1 (List.find?_isSome (p := fun j => j == i).2 ⟨i, h, beq_self_eq_true i⟩)
    have hji : j = i := beq_iff_eq.1 (List.find?_some (p := fun j => j == i) hj)
    exact hji ▸ hj
  rw [portCells, List.find?_map]
  exact congrArg (Option.map _) hfind

/-- A team without error marks has none in its accumulator rows. -/
theorem Team.rowsMarked_of_nil {t : Team} (h : t.marked = []) (l : List Rect) : t.rowsMarked l = false := by
  simp [Team.rowsMarked, h]

/-- Settles O35: both instructions by the access of their shared body. -/
theorem accumulatorPortReadsAndWrites : Obligations.AccumulatorPortReadsAndWrites := by
  unfold Obligations.AccumulatorPortReadsAndWrites
  intro w s c t cells free
  refine ⟨fun hc ht ⟨hcells, hfree⟩ hmarked => ?ard, fun hc ht ⟨hcells, hfree⟩ => ?awr⟩
  case ard =>
    intro value
    have hbody : ardBody c (s.begun c) = .done { s := s.begun c, later := some (c.results (portWide c) false value) } := by
      unfold ardBody
      refine (portBody_of_free ht hcells hfree).trans ?_
      simp only [Team.rowsMarked_of_nil hmarked, Bool.false_eq_true, if_false, Effect.done.injEq, Done.mk.injEq, true_and,
        and_true, Option.some.injEq]
      refine Ctx.results_congr fun i hi => ?_
      rw [find?_portCells hi]
    exact exec_of_done (fun _ => rfl) rfl hc hbody rfl
  case awr =>
    intro part
    have hpart (x : Nat × Nat × Nat) : (if portWide c then
        [(x.2.1, x.2.2, (srcA (s.begun c) c (portWide c) x.1).setWidth 32),
          (x.2.1, x.2.2 + 1, (srcA (s.begun c) c (portWide c) x.1 >>> 32).setWidth 32)]
        else [(x.2.1, x.2.2, (srcA (s.begun c) c (portWide c) x.1).setWidth 32)]) = part x := by
      have hlow (v : DWord) : v.extractLsb' 0 32 = v.setWidth 32 := (BitVec.setWidth_eq_extractLsb' (by decide)).symm
      have hhigh (v : DWord) : v.extractLsb' 32 32 = (v >>> 32).setWidth 32 := rfl
      simp only [part, hlow, hhigh]
      split <;> rfl
    have hbody : awrBody c (s.begun c) =
        .done { s := (s.begun c).writeCells c.r.team ((portCells (s.begun c) c c.w.d.toNat).flatMap part) } := by
      unfold awrBody
      refine (portBody_of_free ht hcells hfree).trans ?_
      simp only [hpart]
    exact exec_of_done (fun _ => rfl) rfl hc hbody rfl

end Sys2Proof.Machine
end

section
/-!
The pavilion (R314, R404 to R408): O54.
-/
namespace Sys2Proof.Machine

/-! ## Scopes and messages -/

/-- Entries stored one behind the other from key k: each has the valid bit, and no key below k changes. -/
theorem look_storeEntries (valid : Bool) (l : List ScopeDraft) (k : Nat) (m : Sparse ScopeEntry) (n : Nat) :
    let m' := (l.zipIdx k).foldl (fun m (x : ScopeDraft × Nat) =>
      put {} m x.2 { valid, hops := x.1.hops, gen := x.1.gen, members := x.1.members }) m
    (k ≤ n → n < k + l.length → (look {} m' n).valid = valid) ∧ (n < k → look {} m' n = look {} m n) := by
  induction l generalizing k m with
  | nil => exact ⟨fun h h' => absurd h' (by simpa using h), fun _ => rfl⟩
  | cons d l ih =>
    intro m'
    obtain ⟨hin, hbelow⟩ := ih (k + 1) (put {} m k { valid, hops := d.hops, gen := d.gen, members := d.members })
    refine ⟨fun hk hn => ?_, fun hk => ?_⟩
    · rcases Nat.eq_or_lt_of_le hk with rfl | hlt
      · exact (congrArg ScopeEntry.valid (hbelow (Nat.lt_succ_self k))).trans (by rw [look_put_self])
      · exact hin hlt (by rw [List.length_cons] at hn; omega)
    · exact (hbelow (Nat.lt_succ_of_lt hk)).trans (look_put_ne _ m _ (Nat.ne_of_lt hk))

/-- Stored entries have the valid bit that they are stored with (R314). -/
theorem State.storeScopes_valid (s : State) (l : List ScopeDraft) (valid : Bool) {n : Nat} (hn : n < l.length) :
    (look {} (s.storeScopes l valid).scopes n).valid = valid :=
  (look_storeEntries valid l 0 s.scopes n).1 (Nat.zero_le n) (by omega)

theorem State.clearScopes_valid (s : State) {x : Nat × ScopeEntry} (h : x ∈ s.clearScopes.scopes) : x.2.valid = false := by
  obtain ⟨y, -, rfl⟩ := List.mem_map.1 h
  rfl

@[simp] theorem State.sendMembers_acked (s : State) (m : PavMsg) : (s.sendMembers m).pav.acked = s.pav.acked :=
  foldl_keeps (fun s => s.pav.acked) (f := fun s p => s.send p m) (fun _ _ => rfl) _ s

theorem State.keyLinks_step_keeps (s : State) (q : Nat) :
    (if (s.portAt q).up && !(s.portAt q).keyed then s.modPort q fun p => { p with keyed := true } else s).scopes = s.scopes := by
  split <;> rfl

@[simp] theorem State.keyLinks_scopes (s : State) : s.keyLinks.scopes = s.scopes :=
  foldl_keeps State.scopes State.keyLinks_step_keeps _ s

/-- A leader that may commit has FABSTAT 3, and any other is as it was; who has acknowledged stays. -/
theorem State.commitIfReady_spec (s : State) : s.commitIfReady.pav.acked = s.pav.acked ∧
    s.commitIfReady.pav.fabstat = if s.pav.members.all (fun i => s.pav.acked.contains i) then 3 else s.pav.fabstat := by
  unfold State.commitIfReady
  by_cases h : (s.pav.members.all fun i => s.pav.acked.contains i) = true
  · simp only [h, if_true]
    exact ⟨s.sendMembers_acked _, rfl⟩
  · simp only [if_neg h, true_and]

/-! ## The clauses of O54 -/

theorem exec_helloPeriodEnd {s : State} (he : s.electing 2000 = true) (hl : s.pav.leader = none) {l : Nat} {rest : List Nat}
    (hids : s.verifiedIds = l :: rest) (hown : s.ownId ∈ s.verifiedIds) : exec .helloPeriodEnd s =
      .next (if l = s.ownId then s.leaderWork (l :: rest) else s.modPav fun p => { p with leader := some l }) := by
  show execHelloPeriodEnd s = _
  rw [hids] at hown
  simp [execHelloPeriodEnd, he, hl, hids, List.mem_cons.1 hown]

theorem exec_entriesReceived {s : State} {pkg : Nat} {entries : List ScopeDraft} (hf : s.pav.fabstat = 1)
    (hl : s.pav.leader = some pkg) (ho : pkg ≠ s.ownId) (hlen : entries.length = 3) (hin : entries.all s.includes = true) :
    ∃ t, exec (.entriesReceived pkg entries) s = .next t ∧ t.pav.draft = entries ∧
      (∀ n < 3, (look {} t.scopes n).valid = false) ∧ (some pkg, PavMsg.ack) ∈ t.pav.sent := by
  have hexec : exec (.entriesReceived pkg entries) s = execEntriesReceived pkg entries s := rfl
  rw [execEntriesReceived, if_pos ⟨hf, hl, ho, hlen, hin⟩] at hexec
  have hscopes := (s.storeScopes entries false).keyLinks_scopes
  generalize (s.storeScopes entries false).keyLinks = u at hexec hscopes
  refine ⟨_, hexec, rfl, fun n hn => ?_, List.mem_append_right _ (List.mem_singleton_self _)⟩
  show (look {} u.scopes n).valid = false
  rw [hscopes, State.storeScopes_valid _ _ _ (hlen ▸ hn)]

theorem exec_entryAckReceived {s : State} {pkg : Nat} (hf : s.pav.fabstat = 1) (hl : s.pav.leader = some s.ownId)
    (hm : pkg ∈ s.pav.members) (ha : pkg ∉ s.pav.acked) : ∃ t, exec (.entryAckReceived pkg) s = .next t ∧ pkg ∈ t.pav.acked ∧
      t.pav.fabstat = if s.pav.members.all (fun i => (s.pav.acked ++ [pkg]).contains i) then 3 else 1 := by
  have hacked : (if s.pav.acked.contains pkg then s.pav.acked else s.pav.acked ++ [pkg]) = s.pav.acked ++ [pkg] :=
    if_neg (by simpa using ha)
  obtain ⟨hkeep, hstat⟩ := State.commitIfReady_spec (s.modPav fun p =>
    { p with acked := if p.acked.contains pkg then p.acked else p.acked ++ [pkg] })
  refine ⟨_, congrArg Host.Outcome.next (if_pos ⟨hf, hl, by simpa using hm⟩), ?_, ?_⟩
  · exact hkeep.trans hacked ▸ List.mem_append_right _ (List.mem_singleton_self _)
  · rw [hstat]
    simp only [State.modPav, hacked, hf]

/-- The start sequence ends held, in minimal mode, or in a counted start (R404, R405). -/
theorem exec_packageReset (facts : StartFacts) (s : State) : ∃ t, exec (.packageReset facts) s = .next t ∧ t.now = 0 ∧
    t.mem = [] ∧ t.teams = [] ∧ t.pkgid = s.pkgid ∧ (facts.pavilionOk = false → t.pav.held = true) ∧
    (facts.pavilionOk = true → 3 ≤ s.pav.fsc → t.pav.minimal = true ∧ t.pav.fsc = s.pav.fsc) ∧
    (facts.pavilionOk = true → s.pav.fsc < 3 → t.pav.minimal = false ∧ t.pav.fsc = s.pav.fsc + 1 ∧
      t.pav.lodgeHeld = !(facts.imagesOk && facts.selfTestOk)) := by
  refine ⟨_, rfl, ?_⟩
  cases hp : facts.pavilionOk with
  | false => exact ⟨rfl, rfl, rfl, rfl, fun _ => rfl, fun h => absurd h Bool.false_ne_true, fun h => absurd h Bool.false_ne_true⟩
  | true =>
    simp only [Bool.not_true, Bool.false_eq_true, if_false]
    by_cases hfsc : 3 ≤ s.pav.fsc
    · rw [if_pos (show 3 ≤ s.fresh.pav.fsc from hfsc)]
      exact ⟨rfl, rfl, rfl, rfl, fun h => absurd h.symm Bool.false_ne_true, fun _ _ => ⟨rfl, rfl⟩, fun _ h => absurd hfsc (Nat.not_le.2 h)⟩
    · rw [if_neg (show ¬ 3 ≤ s.fresh.pav.fsc from hfsc)]
      cases hi : facts.imagesOk with
      | false => exact ⟨rfl, rfl, rfl, rfl, fun h => absurd h.symm Bool.false_ne_true, fun _ h => absurd h hfsc, fun _ _ => ⟨rfl, rfl, rfl⟩⟩
      | true =>
        cases ht : facts.selfTestOk with
        | false => exact ⟨rfl, rfl, rfl, rfl, fun h => absurd h.symm Bool.false_ne_true, fun _ h => absurd h hfsc, fun _ _ => ⟨rfl, rfl, rfl⟩⟩
        | true => exact ⟨rfl, rfl, rfl, rfl, fun h => absurd h.symm Bool.false_ne_true, fun _ h => absurd h hfsc, fun _ _ => ⟨rfl, rfl, rfl⟩⟩

/-- Settles O54: each step by the branch of its definition that the clause's hypotheses choose. -/
theorem pavilionStartsAndElects : Obligations.PavilionStartsAndElects := by
  unfold Obligations.PavilionStartsAndElects
  intro s facts h pkg gen entries members
  refine ⟨?start, ?hello, ?period, exec_entriesReceived, ?commit, exec_entryAckReceived, ?follower, ?merge, ?timeout,
    exec_packageReset facts s, ⟨_, rfl, rfl, rfl⟩, ?watchdog⟩
  case start =>
    refine ⟨_, rfl, fun hfab => ?_⟩
    rw [if_pos hfab]
    exact ⟨rfl, rfl, rfl, rfl, fun x hx => s.clearScopes_valid hx, rfl, List.mem_append_right _ (List.mem_singleton_self _)⟩
  case hello =>
    intro hv hfab hstat
    refine ⟨s.modPav fun p => p.hear h, ?_, List.mem_append_right _ (List.mem_singleton_self _)⟩
    show execHelloReceived h s = _
    simp [execHelloReceived, hv, hfab, hstat]
  case period =>
    refine fun he hl => ⟨fun l rest hids hown hne => ⟨_, exec_helloPeriodEnd he hl hids hown, ?_⟩, fun rest hids => ?_⟩
    · rw [if_neg hne]
      unfold State.electing at he
      exact ⟨rfl, beq_iff_eq.1 (Bool.and_eq_true_iff.1 he).1⟩
    · rw [exec_helloPeriodEnd he hl hids (hids ▸ List.mem_cons_self), if_pos rfl]
  case commit =>
    intro hf hl hd hg
    exact ⟨_, congrArg Host.Outcome.next (if_pos ⟨hf, hl, hd, hg⟩), rfl, rfl,
      fun n hn => s.storeScopes_valid s.pav.draft true hn⟩
  case follower =>
    exact fun hf => ⟨⟨_, congrArg Host.Outcome.next (if_pos hf), rfl⟩,
      fun hdue => ⟨_, congrArg Host.Outcome.next (if_pos ⟨hf, hdue⟩), rfl⟩,
      fun hl => ⟨_, congrArg Host.Outcome.next (if_pos ⟨hf, hl⟩), rfl⟩⟩
  case merge => exact fun hf => ⟨_, congrArg Host.Outcome.next (if_pos hf), rfl⟩
  case timeout => exact fun he => ⟨_, congrArg Host.Outcome.next (if_pos he), rfl, rfl⟩
  case watchdog =>
    intro due hw hdue
    have hexec : exec .startWatchdogExpiry s = execStartWatchdogExpiry s := rfl
    simp only [execStartWatchdogExpiry, hw, if_pos hdue] at hexec
    exact ⟨_, hexec, rfl, rfl, rfl, rfl⟩

end Sys2Proof.Machine
end

section
/-!
How waits end (R327 to R329, R335 to R337, R352, R401): O43.
-/
namespace Sys2Proof.Machine

/-! ## The steps of a wait -/

section
variable {s : State} {k : Nat} {w : Waiter} (hw : s.waiters[k]? = some w)

include hw in
theorem exec_pollRetry {due back : Nat} (hpoll : w.poll = some (due, back)) (hdue : due ≤ s.tick) (hr : w.reachable s = true) :
    exec (.pollRetry k) s = .next (match s.rereadBad w with
      | some u => u
      | none =>
        if satisfies (s.counter w.counter) w.threshold then s.complete w
        else
          let poll := if s.homeFull w.counter then some (s.tick + min (2 * back) 4096, min (2 * back) 4096) else none
          { s with waiters := s.waiters.set k { w with poll } }) := by
  have hexec : exec (.pollRetry k) s = execPollRetry k s := rfl
  have hgo : (decide (s.tick < due) || !w.reachable s) = false := by simp [hdue, hr]
  simp only [hexec, execPollRetry, hw, hpoll, hgo, Bool.false_eq_true, if_false]
  cases s.rereadBad w with
  | some u => rfl
  | none =>
    dsimp only
    cases s.homeFull w.counter <;> rfl

include hw in
theorem exec_remoteWakeup {loc : Nat} (hloc : w.counter = .mem loc) (hpeer : isPeer loc = true) :
    exec (.remoteWakeup k) s = .next (if s.peerOpen loc = false then s else if w.satisfied then s.complete w
      else if w.poll.isSome then s else s.remoteEnd w loc) := by
  have hexec : exec (.remoteWakeup k) s = execRemoteWakeup k s := rfl
  simp only [hexec, execRemoteWakeup, hw, hloc, hpeer, Bool.not_true, Bool.false_or, Bool.not_eq_true']

include hw in
theorem exec_waitKilled {pkg addr : Nat} (hpkg : pkg ≠ s.pkgid.toNat) (hport : s.anyPort = true) (hbm : addr + 8 ≤ 2 ^ 40)
    (ha : addr % 8 = 0) : exec (.peerRequest pkg addr (.waitKilled k)) s =
      .next (if s.heldAt (peerLoc pkg addr) w && !w.isGate then
        State.complete { s with waiters := s.waiters.erase w } { w with satisfied := true, killed := true } else s) := by
  have hin : outerInHbm addr (.waitKilled k) = true := by
    unfold outerInHbm
    exact Bool.and_eq_true_iff.2 ⟨decide_eq_true hbm, beq_iff_eq.2 ha⟩
  have hgo : (pkg == s.pkgid.toNat || !s.anyPort || !outerInHbm addr (.waitKilled k)) = false := by
    simp [hpkg, hport, hin]
  have hexec : exec (.peerRequest pkg addr (.waitKilled k)) s = execPeerRequest pkg addr (.waitKilled k) s := rfl
  simp only [hexec, execPeerRequest, hgo, Bool.false_eq_true, if_false, State.remoteKilled, hw]

end

theorem State.heldAt_iff (s : State) (loc : Nat) (w : Waiter) : s.heldAt loc w = true ↔
    (w.counter = .mem loc ∧ s.peerOpen loc = true ∧ w.satisfied = false ∧ w.poll = none) ∧ isPeer loc = true := by
  simp only [State.heldAt, Bool.and_eq_true, beq_iff_eq, Bool.not_eq_true', Option.isNone_iff_eq_none]
  tauto

theorem Waiter.reachable_iff (w : Waiter) (s : State) :
    w.reachable s = true ↔ ∀ loc, w.counter = .mem loc → s.peerOpen loc = true := by
  unfold Waiter.reachable
  cases w.counter <;> simp

/-- A value at a threshold or less than half the circle beyond it satisfies it (R325). -/
theorem satisfies_beyond (t : DWord) (n : Nat) : satisfies (t + BitVec.ofNat 64 (n % 2 ^ 63)) t = true := by
  rw [satisfies_iff, add_sub_cancel_left, BitVec.toNat_ofNat]
  omega

/-- A peer's wake-up leaves the counter satisfied: as it stands, or at a free value beyond the threshold (log 48). -/
theorem State.remoteEnd_spec {s : State} {w : Waiter} {loc : Nat} (hloc : w.counter = .mem loc) :
    let u : State := { s with waiters := s.waiters.erase w }
    (satisfies (s.wordAt loc) w.threshold = true → s.remoteEnd w loc = u.complete { w with satisfied := true }) ∧
    (satisfies (s.wordAt loc) w.threshold = false → ∃ v : DWord, satisfies v w.threshold = true ∧
      s.remoteEnd w loc = (State.writeNum { u with freeCtr := s.freeCtr + 1 } loc 8 v.toNat).complete
        { w with satisfied := true }) := by
  intro u
  have hcounter : s.counter w.counter = s.wordAt loc := by rw [hloc]; rfl
  simp only [State.remoteEnd, hcounter]
  exact ⟨fun h => if_pos h, fun h => ⟨_, satisfies_beyond w.threshold _, if_neg (Bool.not_eq_true _ ▸ h)⟩⟩

@[simp] theorem State.retry_waiters (s : State) (p : Hold → Bool) : (s.retry p).waiters = s.waiters :=
  foldl_keeps State.waiters (f := State.wakeCore) (fun s k => by
    unfold State.wakeCore
    dsimp only
    split <;> rfl) _ _

/-- Settles O43: each clause by the branch of its step. -/
theorem waitsEndAsTheirCountersSay : Obligations.WaitsEndAsTheirCountersSay := by
  unfold Obligations.WaitsEndAsTheirCountersSay
  intro s k w hw
  refine ⟨fun hsat hrem => ?wakeup, fun due back u hpoll hdue hr hbad => ?poisoned, fun due back hpoll hdue hr hbad => ?poll,
    fun f n hc hn hsat hpoll hmet => ?time, w.reachable_iff s, fun loc hloc hpeer => ?remote,
    fun pkg addr hpkg hport hbm ha hpeer => ?killed, fun asid => ?teardown⟩
  case wakeup =>
    have hexec : exec (.waitWakeup k) s = execWaitWakeup k s := rfl
    simp [hexec, execWaitWakeup, hw, hsat, hrem]
  case poisoned => rw [exec_pollRetry hw hpoll hdue hr, hbad]
  case poll =>
    have hexec := exec_pollRetry hw hpoll hdue hr
    simp only [hbad] at hexec
    refine ⟨fun hmet => hexec.trans (by rw [if_pos hmet]), fun hmet => ⟨_, hexec, ?_⟩⟩
    rw [hmet]
    rfl
  case time =>
    have hcounter : satisfies (s.counter w.counter) w.threshold = true := by rw [hc]; exact hmet
    have htime : w.onTime = true := by simp [Waiter.onTime, hc, hn]
    have hgo : (w.onTime && !w.satisfied && w.poll.isNone && satisfies (s.counter w.counter) w.threshold) = true := by
      simp [htime, hsat, hpoll, hcounter]
    have hexec : exec (.timebaseWaitSatisfied k) s = execTimebaseWaitSatisfied k s := rfl
    simp only [execTimebaseWaitSatisfied, hw, hgo, if_true] at hexec
    exact ⟨_, hexec, rfl⟩
  case remote =>
    have hexec := exec_remoteWakeup hw hloc hpeer
    obtain ⟨hmet, hahead⟩ := State.remoteEnd_spec (s := s) hloc
    refine ⟨fun ho => hexec.trans (by simp [ho]), fun ho hs => hexec.trans (by simp [ho, hs]),
      fun ho hs hp => hexec.trans ?_, fun ho hs hp => ?_⟩
    · simp [ho, hs, Option.isSome_iff_ne_none.2 hp]
    · have hend : exec (.remoteWakeup k) s = .next (s.remoteEnd w loc) := hexec.trans (by simp [ho, hs, hp])
      refine ⟨fun h => hend.trans (congrArg _ (hmet h)), fun h => ?_⟩
      obtain ⟨v, hv, heq⟩ := hahead h
      exact ⟨v, hv, hend.trans (congrArg _ heq)⟩
  case killed =>
    have hexec := exec_waitKilled hw hpkg hport hbm ha
    have hheld := s.heldAt_iff (peerLoc pkg addr) w
    refine ⟨fun hhere hgate => hexec.trans ?_, fun hnot => hexec.trans ?_⟩
    · rw [hheld.2 ⟨hhere, hpeer⟩, hgate]
      rfl
    · rw [if_neg]
      rw [Bool.and_eq_true, Bool.not_eq_true', hheld]
      rcases hnot with hnot | hgate
      · exact fun h => hnot h.1.1
      · exact fun h => by simp [hgate] at h
  case teardown =>
    refine ⟨_, rfl, (State.retry_waiters _ _).trans (List.filter_congr fun w _ => ?_)⟩
    cases w.agent <;> rfl

end Sys2Proof.Machine
end

section
/-!
User events on lodge harts (R336, R397, R398): O50.
-/
namespace Sys2Proof.Machine

/-! ## The table of user events -/

theorem State.unprotected_writeNum {s : State} (h : s.Unprotected) (a n v : Nat) : (s.writeNum a n v).Unprotected :=
  State.unprotected_writeLoc h a _

/-- A cause word keeps bit 63 alone. -/
theorem killedBit_getLsbD (w : DWord) : killedBit (w.getLsbD 63) = w &&& 0x8000000000000000 := by
  rw [show (0x8000000000000000 : DWord) = BitVec.twoPow 64 63 from rfl, BitVec.and_twoPow]
  cases w.getLsbD 63 <;> rfl

section
variable {s : State} (h : s.Unprotected) (tab : DWord) (asid : Nat) (p c : DWord)

include h

theorem State.unprotected_orEvent : (s.orEvent tab asid p c).Unprotected :=
  State.unprotected_writeNum (State.unprotected_writeNum h _ _ _) _ _ _

/-- The pending vectors of the entry. -/
theorem State.wordAt_orEvent_pending :
    (s.orEvent tab asid p c).wordAt (eventEntry tab asid) = s.wordAt (eventEntry tab asid) ||| p :=
  (State.wordAt_writeNum_of_disjoint (State.unprotected_writeNum h _ _ _) _ (.inl (le_refl _))).trans
    (s.wordAt_writeNum _ _)

/-- The cause word of the entry. -/
theorem State.wordAt_orEvent_cause :
    (s.orEvent tab asid p c).wordAt (eventEntry tab asid + 8) = s.wordAt (eventEntry tab asid + 8) ||| c :=
  (State.wordAt_writeNum _ _ _).trans
    (congrArg (· ||| c) (State.wordAt_writeNum_of_disjoint h _ (.inr (le_refl _))))

theorem State.wordAt_orEvent_of_disjoint {b : Nat} (hd : b + 8 ≤ eventEntry tab asid ∨ eventEntry tab asid + 16 ≤ b) :
    (s.orEvent tab asid p c).wordAt b = s.wordAt b :=
  (State.wordAt_writeNum_of_disjoint (State.unprotected_writeNum h _ _ _) _ (by omega)).trans
    (State.wordAt_writeNum_of_disjoint h _ (by omega))

end

theorem eventEntry_disjoint (tab : DWord) {i j : Nat} (h : i ≠ j) :
    eventEntry tab i + 16 ≤ eventEntry tab j ∨ eventEntry tab j + 16 ≤ eventEntry tab i := by
  unfold eventEntry
  omega

/-- The exchange through a table (R397). -/
theorem State.switchAsid_spec {s : State} (h : s.Unprotected) {hart : Nat} {x : BitVec 16}
    (htab : (s.hartAt hart).uevtab ≠ 0) (hx : x ≠ (s.hartAt hart).uevasid) :
    let k := s.hartAt hart
    let old := eventEntry k.uevtab k.uevasid.toNat
    let new := eventEntry k.uevtab x.toNat
    let t := s.switchAsid hart x
    t.wordAt old = s.wordAt old ||| k.uevp ∧ t.wordAt new = 0 ∧ t.wordAt (new + 8) = 0 ∧ (t.hartAt hart).uevasid = x ∧
      (t.hartAt hart).uevp = s.wordAt new ∧ (t.hartAt hart).uevc = s.wordAt (new + 8) &&& 0x8000000000000000 := by
  intro k old new t
  have hne : k.uevasid.toNat ≠ x.toNat := fun he => hx (BitVec.eq_of_toNat_eq he.symm)
  have happart : old + 16 ≤ new ∨ new + 16 ≤ old := eventEntry_disjoint k.uevtab hne
  let u := s.orEvent k.uevtab k.uevasid.toNat k.uevp k.uevc
  have hu : u.Unprotected := State.unprotected_orEvent h _ _ _ _
  have hu1 : (u.writeNum new 8 (0 : DWord).toNat).Unprotected := State.unprotected_writeNum hu _ _ _
  have hexchange : t = ((u.writeNum new 8 0).writeNum (new + 8) 8 0).modHart hart fun h =>
      { h with uevasid := x, uevp := u.wordAt new, uevc := killedBit ((u.wordAt (new + 8)).getLsbD 63) } := if_neg htab
  have hword (b : Nat) : t.wordAt b = ((u.writeNum new 8 (0 : DWord).toNat).writeNum (new + 8) 8 (0 : DWord).toNat).wordAt b := by
    rw [hexchange]
    rfl
  have hhart : (t.hartAt hart).uevasid = x ∧ (t.hartAt hart).uevp = u.wordAt new ∧
      (t.hartAt hart).uevc = killedBit ((u.wordAt (new + 8)).getLsbD 63) := by
    rw [hexchange, State.hartAt_modHart_self]
    exact ⟨rfl, rfl, rfl⟩
  have hloaded (b : Nat) (hb : b = new ∨ b = new + 8) : u.wordAt b = s.wordAt b :=
    State.wordAt_orEvent_of_disjoint h _ _ _ _ (show b + 8 ≤ old ∨ old + 16 ≤ b by omega)
  obtain ⟨hasid, hpending, hcause⟩ := hhart
  refine ⟨?_, ?_, ?_, hasid, hpending.trans (hloaded new (.inl rfl)), ?_⟩
  · rw [hword, State.wordAt_writeNum_of_disjoint hu1 _ (by omega), State.wordAt_writeNum_of_disjoint hu _ (by omega)]
    exact State.wordAt_orEvent_pending h _ _ _ _
  · rw [hword, State.wordAt_writeNum_of_disjoint hu1 _ (by omega), State.wordAt_writeNum]
  · rw [hword, State.wordAt_writeNum]
  · rw [hcause, hloaded _ (.inr rfl), killedBit_getLsbD]

/-! ## The steps of a hart that runs -/

theorem exec_userEventDelivery {s : State} {hart : Nat} (hr : s.hartRuns hart = true) {e : UserEvent} {rest : List UserEvent}
    (hin : (s.hartAt hart).inbox = e :: rest) : exec (.userEventDelivery hart) s =
      .next ((s.modHart hart fun h => { h with inbox := rest }).takeEvent hart e) := by
  have hexec : exec (.userEventDelivery hart) s = execUserEventDelivery hart s := rfl
  simp only [hexec, execUserEventDelivery, hin, hr, if_true]

theorem State.takeEvent_own {s : State} {hart : Nat} {e : UserEvent} (h : e.asid = (s.hartAt hart).uevasid.toNat) :
    s.takeEvent hart e = s.modHart hart fun h =>
      { h with uevp := h.uevp ||| (1#64 <<< (e.vector % 64)), uevc := h.uevc ||| killedBit e.killed } := if_pos h

theorem State.takeEvent_other {s : State} {hart : Nat} {e : UserEvent} (h : e.asid ≠ (s.hartAt hart).uevasid.toNat)
    (htab : (s.hartAt hart).uevtab ≠ 0) : s.takeEvent hart e =
      s.orEvent (s.hartAt hart).uevtab e.asid (1#64 <<< (e.vector % 64)) (killedBit e.killed) :=
  (if_neg h).trans (if_neg htab)

theorem exec_uevret {s : State} (hr : s.hartRuns s.hart = true) : exec .uevret s =
    .next (if (s.hartAt s.hart).mode = .user then s.modHart s.hart fun h => { h with pc := h.uevepc, uie := h.pie }
      else s.hartIllegal s.hart) := by
  have hexec : exec .uevret s = execUevret s := rfl
  simp only [hexec, execUevret, hr, Bool.not_true, Bool.false_eq_true, if_false]

theorem exec_uevasidWrite {s : State} {hart : Nat} (hr : s.hartRuns hart = true) (v : DWord) :
    exec (.uevasidWrite hart v) s = .next (if (s.hartAt hart).mode = .user then s.hartIllegal hart
      else if v.setWidth 16 = (s.hartAt hart).uevasid then s else s.switchAsid hart (v.setWidth 16)) := by
  have hexec : exec (.uevasidWrite hart v) s = execUevasidWrite hart v s := rfl
  simp only [hexec, execUevasidWrite, hr, Bool.not_true, Bool.false_eq_true, if_false]

theorem State.hartIllegal_pc (s : State) (hart : Nat) : ((s.hartIllegal hart).hartAt hart).pc = (s.hartAt hart).pc := by
  unfold State.hartIllegal State.hartTrap
  dsimp only
  rw [State.hartAt_modHart_self]
  rfl

theorem ne_zero_of_toNat {v : DWord} (h : v.toNat ≠ 0) : v ≠ 0 := fun hz => h (hz ▸ rfl)

/-- Settles O50: each step at the hart itself, or through the words of its table. -/
theorem userEventsReachTheirHarts : Obligations.UserEventsReachTheirHarts := by
  unfold Obligations.UserEventsReachTheirHarts
  intro s hart v hr h free
  refine ⟨fun e rest hin hasid => ?own, fun e rest hin hasid htab => ?table, fun hm hu hp => ?interrupt, fun hh hm => ?back,
    fun hh hm => ?barred, fun hm htab hne hfree => ?switch, fun hm => ?write, fun pa hp => ?poison⟩
  case own =>
    have hat := s.hartAt_modHart_self hart fun h => { h with inbox := rest }
    refine ⟨_, exec_userEventDelivery hr hin, ?_⟩
    rw [State.takeEvent_own (by rw [hat]; exact hasid), State.hartAt_modHart_self, hat]
    exact ⟨rfl, rfl, rfl⟩
  case table =>
    intro a hfree
    have hat := s.hartAt_modHart_self hart fun h => { h with inbox := rest }
    let u := s.modHart hart fun h => { h with inbox := rest }
    have hu : u.Unprotected := hfree
    refine ⟨_, exec_userEventDelivery hr hin, ?_⟩
    rw [State.takeEvent_other (by rw [hat]; exact hasid) (by rw [hat]; exact ne_zero_of_toNat htab), hat]
    exact ⟨State.wordAt_orEvent_pending hu _ _ _ _, State.wordAt_orEvent_cause hu _ _ _ _⟩
  case interrupt =>
    have hgo : ((s.hartAt hart).interrupted && s.hartRuns hart) = true := by
      rw [hr, Bool.and_true, Hart.interrupted, Bool.and_eq_true, Bool.and_eq_true, beq_iff_eq, bne_iff_ne]
      exact ⟨⟨hm, hu⟩, hp⟩
    refine ⟨_, congrArg Host.Outcome.next (if_pos hgo), ?_⟩
    rw [State.hartAt_modHart_self]
    exact ⟨rfl, hu, rfl, rfl⟩
  case back =>
    subst hh
    refine ⟨_, (exec_uevret hr).trans (congrArg _ (if_pos hm)), ?_⟩
    rw [State.hartAt_modHart_self]
    exact ⟨rfl, rfl⟩
  case barred =>
    subst hh
    exact ⟨_, _, (exec_uevret hr).trans (congrArg _ (if_neg hm)), s.exception_hartIllegal s.hart, s.hartIllegal_pc s.hart⟩
  case switch =>
    exact ⟨_, (exec_uevasidWrite hr v).trans (congrArg _ ((if_neg hm).trans (if_neg hne))),
      State.switchAsid_spec hfree (ne_zero_of_toNat htab) hne⟩
  case write => exact ⟨_, _, (exec_uevasidWrite hr v).trans (congrArg _ (if_pos hm)), s.exception_hartIllegal hart⟩
  case poison =>
    refine ⟨_, congrArg Host.Outcome.next (if_pos (Bool.and_eq_true_iff.2 ⟨hr, hp⟩)), ?_⟩
    rw [State.hartTrap, State.hartAt_modHart_self]

end Sys2Proof.Machine
end

section
/-!
The checkpoint engine (R422 to R426): O52.
-/
namespace Sys2Proof.Machine

/-! ## Slices of memory -/

section
variable {α : Type} (d : α)

theorem look_slice (m : Sparse α) (lo n x : Nat) : look d (slice m lo n) x = if x < n then look d m (lo + x) else d := by
  induction m with
  | nil => exact (ite_self d).symm
  | cons e m ih =>
    obtain ⟨k, v⟩ := e
    have ih : look d (((m.filter fun x => lo ≤ x.1 && x.1 < lo + n).map fun x => (x.1 - lo, x.2))) x =
        if x < n then look d m (lo + x) else d := ih
    by_cases hin : lo ≤ k ∧ k < lo + n
    · rw [slice, List.filter_cons_of_pos (by simpa using hin), List.map_cons, look, look, ih]
      by_cases hx : k - lo = x
      · rw [if_pos hx, if_pos (by omega), if_pos (by omega)]
      · rw [if_neg hx, if_neg (show ¬ k = lo + x by omega)]
    · rw [slice, List.filter_cons_of_neg (by simpa using hin), ih, look]
      by_cases hx : x < n
      · rw [if_pos hx, if_pos hx, if_neg (by omega)]
      · rw [if_neg hx, if_neg hx]

theorem length_dense (m : Sparse α) (k n : Nat) : (dense d m k n).length = n := by
  induction n generalizing m k with
  | zero => rw [dense]; rfl
  | succ n ih =>
    cases m with
    | nil => simp [dense]
    | cons e m =>
      rw [dense]
      split <;> simp [ih]

/-- The dense list of a table whose keys rise from k has its values. -/
theorem getD_dense {m : Sparse α} {k n i : Nat} (hm : m.Pairwise fun x y => x.1 < y.1) (hk : ∀ x ∈ m, k ≤ x.1) (hi : i < n) :
    (dense d m k n).getD i d = look d m (k + i) := by
  induction n generalizing m k i with
  | zero => omega
  | succ n ih =>
    cases m with
    | nil => simp [dense, look, List.getD_eq_getElem?_getD, hi]
    | cons e m =>
      obtain ⟨k', v⟩ := e
      obtain ⟨hfirst, hrest⟩ := List.pairwise_cons.1 hm
      have hk' : k ≤ k' := hk _ List.mem_cons_self
      rw [dense]
      by_cases he : k' = k
      · subst he
        rw [if_pos rfl, look]
        cases i with
        | zero => simp
        | succ i =>
          rw [if_neg (by omega), List.getD_cons_succ, ih hrest (fun x hx => hfirst x hx) (by omega)]
          congr 1
          omega
      · rw [if_neg he]
        cases i with
        | zero =>
          rw [List.getD_cons_zero, look_of_absent]
          rw [List.any_eq_false]
          intro x hx
          rcases List.mem_cons.1 hx with rfl | hx
          · simpa using he
          · have := hfirst x hx
            simp only at this
            simp
            omega
        | succ i =>
          rw [List.getD_cons_succ, ih hm (fun x hx => ?_) (by omega)]
          · congr 1
            omega
          · rcases List.mem_cons.1 hx with rfl | hx
            · show k + 1 ≤ k'
              omega
            · have := hfirst x hx
              simp only at this
              omega

end

/-! ## Pages of an engine -/

/-- A numbered list is left as it is by a map that changes entries below its first number alone. -/
theorem map_zipIdx_of_above {α : Type} {g : α × Nat → α} {k : Nat} (h : ∀ x i, k ≤ i → g (x, i) = x) (l : List α) :
    (l.zipIdx k).map g = l := by
  induction l generalizing k with
  | nil => rfl
  | cons x l ih => rw [List.zipIdx_cons, List.map_cons, h x k (le_refl k), ih fun y i hi => h y i (by omega)]

theorem Checkpoint.freeSlot_isSome {k : Checkpoint} {j : Nat} (hj : j < k.ckresz.toNat / 4096)
    (h : ∀ x ∈ k.pages, x.slot ≠ some j) : k.freeSlot.isSome = true := by
  have hnot : j ∉ k.slots := fun hm => by
    obtain ⟨x, hx, hslot⟩ := List.mem_filterMap.1 (List.mem_eraseDups.1 hm)
    exact h x hx hslot
  exact List.find?_isSome.2 ⟨j, List.mem_range.2 hj, by simpa using hnot⟩

/-- The first page that is not streamed goes next, where it may, or where no page lies in the reserve (R424). -/
theorem Checkpoint.nextPage_of_todo {k : Checkpoint} {x : CkPage × Nat} {l : List (CkPage × Nat)}
    (htodo : (k.pages.zipIdx.filter fun x => !x.1.streamed) = x :: l)
    (h : x.1.slot.isSome = true ∨ k.freeSlot.isSome = true ∨ ∀ y ∈ x :: l, y.1.slot = none) : k.nextPage = some x := by
  unfold Checkpoint.nextPage
  rw [htodo]
  cases hfree : k.freeSlot with
  | some j => rfl
  | none =>
    cases hslot : x.1.slot with
    | some j => simp [hslot]
    | none =>
      have hnone (y : CkPage × Nat) (hy : y ∈ x :: l) : y.1.slot = none := by
        rcases h with h | h | h
        · simp [hslot] at h
        · simp [hfree] at h
        · exact h y hy
      have hfind : ((x :: l).find? fun y => y.1.slot.isSome) = none := List.find?_eq_none.2 fun y hy => by simp [hnone y hy]
      simp only [Option.isNone_none, if_true, hfind]
      rfl

/-- A page whose command has moved it. -/
def CkPage.moved (p : CkPage) (data : List Host.Cell) : CkPage :=
  { p with image := some (p.image.getD data), streamed := true, slot := none }

theorem Checkpoint.moved_first {k : Checkpoint} {c : NvmeCmd} {p : CkPage} {l : List CkPage} (hp : k.pages = p :: l)
    (hc : c.page = 0) (hs : p.streamed = false) :
    k.moved c = { k with pages := p.moved c.data :: l, pagesDone := k.pagesDone + 1 } := by
  have himage : ((p :: l).zipIdx.map fun (x : CkPage × Nat) =>
      if x.2 = 0 && x.1.image.isNone then { x.1 with image := some c.data } else x.1) =
      { p with image := some (p.image.getD c.data) } :: l := by
    rw [List.zipIdx_cons, List.map_cons, map_zipIdx_of_above fun x i hi => if_neg (by simp; omega)]
    obtain ⟨insole, page, entry, block, slot, image, bad, streamed⟩ := p
    cases image <;> rfl
  unfold Checkpoint.moved
  rw [hp, hc, himage, Checkpoint.streamPage]
  simp only [List.getElem?_cons_zero, Option.map_some, Option.getD_some, hs, Bool.false_eq_true, if_false]
  rw [List.zipIdx_cons, List.map_cons, map_zipIdx_of_above fun x i hi => if_neg (by simp; omega)]
  rfl

/-! ## What writes leave of the engines -/

theorem eq_or_mem_of_mem_put {α : Type} [DecidableEq α] {d : α} {m : Sparse α} {k : Nat} {v : α} {e : Nat × α} (h : e ∈ put d m k v) :
    e = (k, v) ∨ e ∈ m := by
  induction m with
  | nil =>
    unfold put at h
    split at h
    · cases h
    · exact .inl (List.mem_singleton.1 h)
  | cons x m ih =>
    obtain ⟨k', v'⟩ := x
    unfold put at h
    split at h
    · split at h
      · exact (ih h).imp_right (List.mem_cons_of_mem _)
      · exact (List.mem_cons.1 h).imp_right (List.mem_cons_of_mem _)
    · split at h
      · exact List.mem_cons.1 h
      · rcases List.mem_cons.1 h with rfl | h
        · exact .inr List.mem_cons_self
        · exact (ih h).imp_right (List.mem_cons_of_mem _)

theorem State.unprotected_modCkpt {s : State} (h : s.Unprotected) {i : Nat} {f : Checkpoint → Checkpoint}
    (hf : ∀ p ∈ (f (s.ckptAt i)).pages, p.isProtected = false) : (s.modCkpt i f).Unprotected := by
  intro k hk p hp
  rcases eq_or_mem_of_mem_put hk with rfl | hk
  · exact hf p hp
  · exact h k hk p hp

theorem State.ckptAt_modCkpt_self (s : State) (i : Nat) (f : Checkpoint → Checkpoint) :
    (s.modCkpt i f).ckptAt i = f (s.ckptAt i) := by rw [State.ckptAt_modCkpt, if_pos rfl]

theorem State.ckptAt_congr {s t : State} (h : t.ckpt = s.ckpt) (i : Nat) : t.ckptAt i = s.ckptAt i := by
  rw [State.ckptAt, h, State.ckptAt]

theorem State.wakeRegion_ckpt (s : State) (r : Nat) : (s.wakeRegion r).ckpt = s.ckpt := by
  unfold State.wakeRegion
  split <;> rfl

theorem State.demand_ckpt (s : State) (o : Nat) : (s.demand o).ckpt = s.ckpt := by
  unfold State.demand
  dsimp only
  split
  · rfl
  · exact s.wakeRegion_ckpt _

theorem State.wakePage_ckpt (s : State) (ins : Bool) (p : Nat) : (s.wakePage ins p).ckpt = s.ckpt := by
  cases ins
  · rfl
  · exact s.demand_ckpt _

theorem State.wakePage_now (s : State) (ins : Bool) (p : Nat) : (s.wakePage ins p).now = s.now := by
  have h := s.wakePage_besideMemory ins p
  exact show (s.wakePage ins p).besideMemory.now = s.besideMemory.now by rw [h]

theorem State.putLoc_ckpt (s : State) (a : Nat) (bs : List Byte) : (s.putLoc a bs).ckpt = s.ckpt :=
  (State.evaluate_ckpt _ _).trans (s.throughSlice_ckpt a bs.length true)

theorem State.putLoc_now (s : State) (a : Nat) (bs : List Byte) : (s.putLoc a bs).now = s.now := by
  have h := s.putLoc_besideMemory a bs
  exact show (s.putLoc a bs).besideMemory.now = s.besideMemory.now by rw [h]

theorem State.writeEvent_ckpt {s : State} (h : s.Unprotected) (c : Nat) (e : EventRecord) : (s.writeEvent c e).ckpt = s.ckpt := by
  have hrecord (a : Nat) := State.writeLoc_ckpt h a e.bytes
  have hadd (a b : Nat) : ((s.writeLoc a e.bytes).addLoc b 1).ckpt = s.ckpt :=
    (State.writeLoc_ckpt (State.unprotected_writeLoc h a e.bytes) b _).trans (hrecord a)
  unfold State.writeEvent
  dsimp only
  split
  · exact hadd _ _
  · exact hadd _ _

theorem State.event_ckpt {s : State} (h : s.Unprotected) (c : Nat) (e : EventRecord) : (s.event c e).ckpt = s.ckpt := by
  unfold State.event
  dsimp only
  split
  · split <;> rfl
  · exact State.writeEvent_ckpt h c _

theorem State.logError_ckpt {s : State} (h : s.Unprotected) (c : Nat) (e : ErrorNote) : (s.logError c e).ckpt = s.ckpt := by
  unfold State.logError
  dsimp only
  split
  · exact State.writeLoc_ckpt h _ _
  · have hrecord (u : State) (hu : u.ckpt = s.ckpt) : (if e.uncorrected || e.level == 8 || e.level == 6 || e.level == 9 then
        u.event c { kind := 9, seq := e.seq, team := e.team, d0 := (s.col c).elwidx.setWidth 64, d1 := BitVec.ofNat 64 e.level }
        else u).ckpt = s.ckpt := by
      split
      · exact (State.event_ckpt (State.unprotected_of_ckpt h hu) c _).trans hu
      · exact hu
    refine hrecord _ ?_
    split
    · rfl
    · split
      · rfl
      · exact State.writeLoc_ckpt h _ _

/-! ## The next command -/

/-- A page list in which page n has this number of poisoned sectors. -/
def withBad (l : List CkPage) (n bad : Nat) : List CkPage := l.zipIdx.map fun (p, i) => if i = n then { p with bad } else p

/-- An engine's command of a page has been issued now: a Write of a capture, a Read of a restore (R422). -/
def State.Issued (s t : State) (sole n : Nat) (p : CkPage) : Prop := ∃ c, (t.ckptAt sole).nvme = some c ∧ c.issued = s.tick ∧
  c.retry = false ∧ c.write = ((t.ckptAt sole).busy == 1) ∧ c.page = n ∧ c.block = p.block

theorem State.issued_congr {s u t : State} {sole n : Nat} {p : CkPage} (h : u.tick = s.tick) (hi : u.Issued t sole n p) :
    s.Issued t sole n p := by
  unfold State.Issued at *
  rwa [← h]

/-- The command of a page is issued now, and of the engine nothing changes but it and the page's poisoned sectors. -/
theorem State.ckIssue_spec (s : State) (sole n : Nat) (p : CkPage) :
    let t := s.ckIssue sole n p
    s.Issued t sole n p ∧
    (∃ bad c, t.ckptAt sole = { s.ckptAt sole with nvme := some c, pages := withBad (s.ckptAt sole).pages n bad }) ∧
    t.mem = s.mem := by
  have hnow : (if p.image.isNone then s.wakePage p.insole p.page else s).now = s.now := by
    split
    · exact s.wakePage_now _ _
    · rfl
  have hmem : (if p.image.isNone then s.wakePage p.insole p.page else s).mem = s.mem := by
    split
    · exact s.wakePage_mem _ _
    · rfl
  have hckpt : (if p.image.isNone then s.wakePage p.insole p.page else s).ckptAt sole = s.ckptAt sole := by
    split
    · exact State.ckptAt_congr (s.wakePage_ckpt _ _) sole
    · rfl
  unfold State.Issued State.ckIssue
  dsimp only
  generalize (if p.image.isNone then s.wakePage p.insole p.page else s) = u at hnow hmem hckpt
  rw [State.ckptAt_modCkpt_self, hckpt]
  exact ⟨⟨_, rfl, congrArg (· / unitsPerTick) hnow, rfl, rfl, rfl, rfl⟩, ⟨_, _, rfl⟩, hmem⟩

theorem State.ckNext_of_page {s : State} {sole : Nat} {p : CkPage} {n : Nat} (h : (s.ckptAt sole).nextPage = some (p, n)) :
    s.ckNext sole = s.ckIssue sole n p := by
  rw [State.ckNext, h]

theorem State.ckNext_of_none {s : State} {sole : Nat} (h : (s.ckptAt sole).nextPage = none) : s.ckNext sole = s.ckDone sole := by
  rw [State.ckNext, h]

theorem withBad_first (p : CkPage) (l : List CkPage) (bad : Nat) : withBad (p :: l) 0 bad = { p with bad } :: l := by
  rw [withBad, List.zipIdx_cons, List.map_cons, map_zipIdx_of_above fun x i hi => if_neg (by omega)]
  rfl

theorem withBad_second (p q : CkPage) (l : List CkPage) (bad : Nat) :
    withBad (p :: q :: l) 1 bad = p :: { q with bad } :: l := by
  rw [withBad, List.zipIdx_cons, List.zipIdx_cons, List.map_cons, List.map_cons,
    map_zipIdx_of_above fun x i hi => if_neg (by omega)]
  rfl

/-! ## The start of an operation -/

/-- A page that nothing has been done with. -/
def CkPage.untouched (p : CkPage) : Prop := p.slot = none ∧ p.image = none ∧ p.bad = 0 ∧ p.streamed = false

theorem Checkpoint.untouched_of_mem_pageList {k : Checkpoint} {s : State} {p : CkPage} (h : p ∈ k.pageList s) : p.untouched := by
  obtain ⟨x, -, hp⟩ := List.mem_flatMap.1 h
  obtain ⟨n, -, rfl⟩ := List.mem_map.1 hp
  exact ⟨rfl, rfl, rfl, rfl⟩

/-- Of pages none of which is streamed or in the reserve, the first goes first. -/
theorem Checkpoint.nextPage_first {k : Checkpoint} {p : CkPage} {l : List CkPage} (hp : k.pages = p :: l)
    (h : ∀ x ∈ k.pages, x.streamed = false ∧ x.slot = none) : k.nextPage = some (p, 0) := by
  have hfirst := h p (hp ▸ List.mem_cons_self)
  refine Checkpoint.nextPage_of_todo (l := (l.zipIdx 1).filter fun x => !x.1.streamed) ?_ (.inr (.inr fun y hy => ?_))
  · rw [hp, List.zipIdx_cons, List.filter_cons_of_pos (by simp [hfirst.1])]
  · rcases List.mem_cons.1 hy with rfl | hy
    · exact hfirst.2
    · have hmem := List.fst_mem_of_mem_zipIdx (List.mem_filter.1 hy).1
      exact (h y.1 (hp ▸ List.mem_cons_of_mem _ hmem)).2

theorem State.ckCommand_busy {s : State} {sole : Nat} (hr : s.soleRuns sole = true) (hb : (s.ckptAt sole).busy ≠ 0) (cmd : Nat) :
    s.ckCommand sole cmd = s.modCkpt sole fun k => { k with ignored := true } := by
  simp [State.ckCommand, hr, hb]

/-- A command to an idle engine whose registers are well formed begins (R422). -/
theorem State.ckCommand_idle {s : State} {sole : Nat} (hr : s.soleRuns sole = true) (hb : (s.ckptAt sole).busy = 0)
    (he : (s.ckptAt sole).earlyCode s sole = none) (cmd : Nat) :
    let u := s.modCkpt sole fun k => { k with ignored := false, pagesDone := 0 }
    s.ckCommand sole cmd =
      if cmd = 1 then u.modCkpt sole fun k =>
        { k with busy := 1, faults := 0, t0 := some ((s.now + 1000 * unitsPerTick + unitsPerTick - 1) / unitsPerTick) }
      else (u.modCkpt sole fun k =>
        { k with busy := 2, pages := ((s.ckptAt sole).pageList s).map fun p => { p with image := some [] } }).ckNext sole := by
  intro u
  have he' : (s.ckptAt sole).earlyCode u sole = none := he
  unfold State.ckCommand
  simp only [hr, hb, Bool.not_true, Bool.false_eq_true, if_false, bne_self_eq_false]
  rw [show (s.ckptAt sole).earlyCode (s.modCkpt sole fun k => { k with ignored := false, pagesDone := 0 }) sole = none from he']
  rfl

theorem State.captureT0_due {s : State} {sole due : Nat} (ht : (s.ckptAt sole).t0 = some due) (hdue : due ≤ s.tick)
    (hlink : s.pcieDown.contains sole = false) : s.captureT0 sole =
      (s.modCkpt sole fun k => { k with t0 := none, pages := k.pageList s }).ckNext sole := by
  rw [State.captureT0, ht]
  simp only [hlink, if_neg (Nat.not_lt.2 hdue), Bool.false_eq_true, if_false]

/-! ## Pages copied aside (R424) -/

theorem State.contains_poisoned (s : State) {a n i : Nat} (hi : i < n) :
    (s.poisoned a n).contains ((a + i) / 32) = s.poison.contains ((a + i) / 32) := by
  have hsector : (a + i) / 32 ∈ sectorsOf a n := mem_sectorsOf.2 (by omega)
  rw [Bool.eq_iff_iff, List.contains_iff_mem, State.poisoned, List.mem_filter]
  simp [hsector]

/-- The image of a page: its bytes, with zeros for its poisoned sectors (R423). -/
theorem State.getD_pageImage (s : State) (p : CkPage) (hwf : Memory.wf s.mem = true) {i : Nat} (hi : i < 4096) :
    (dense 0 (s.pageImage p).1 0 4096).getD i 0 =
      if s.poison.contains ((s.pageLoc p + i) / 32) then 0 else byteAt s.mem (s.pageLoc p + i) := by
  have hcanon : canonical (0 : Byte) (s.pageImage p).1 = true := canonical_filter 0 _ _ (canonical_slice 0 _ _ _ hwf)
  rw [getD_dense 0 ((canonical_iff 0 _).1 hcanon).1 (fun x _ => Nat.zero_le _) hi, Nat.zero_add]
  have hfilter := look_filter (0 : Byte) (slice s.mem (s.pageLoc p) 4096)
    (fun x => !(s.poisoned (s.pageLoc p) 4096).contains ((s.pageLoc p + x) / 32)) i
  rw [s.contains_poisoned hi, look_slice, if_pos hi] at hfilter
  refine hfilter.trans ?_
  cases s.poison.contains ((s.pageLoc p + i) / 32) <;> rfl

theorem State.pageImage_congr (s : State) {p q : CkPage} (hi : p.insole = q.insole) (hp : p.page = q.page) :
    s.pageImage p = s.pageImage q := by
  have hloc : s.pageLoc p = s.pageLoc q := by rw [State.pageLoc, State.pageLoc, hi, hp]
  rw [State.pageImage, State.pageImage, hloc]

/-- A protected page is copied into the lowest free slot of the reserve. -/
theorem State.copyAside_spec {s : State} {sole n j : Nat} {p : CkPage} (hp : (s.ckptAt sole).pages[n]? = some p)
    (hprot : p.isProtected = true) (hfree : (s.ckptAt sole).freeSlot = some j) :
    let t := s.copyAside sole p.insole p.page
    (t.ckptAt sole).pages[n]? = some { p with image := some (s.pageImage p).1, bad := (s.pageImage p).2, slot := some j } ∧
    t.mem = putAll 0 s.mem ((s.ckptAt sole).ckres.toNat + 4096 * j) (dense 0 (s.pageImage p).1 0 4096) := by
  have hmine : (p.isProtected && p.insole == p.insole && p.page == p.page) = true := by simp [hprot]
  obtain ⟨q, hq⟩ := Option.isSome_iff_exists.1 (List.find?_isSome
    (p := fun x : CkPage => x.isProtected && x.insole == p.insole && x.page == p.page).2 ⟨p, List.mem_of_getElem? hp, hmine⟩)
  have hsame := List.find?_some hq
  simp only [Bool.and_eq_true, beq_iff_eq] at hsame
  unfold State.copyAside
  simp only [hq, s.pageImage_congr hsame.1.2 hsame.2, hfree]
  have hckpt (a : Nat) (bs : List Byte) : ((s.wakePage p.insole p.page).putLoc a bs).ckptAt sole = s.ckptAt sole :=
    State.ckptAt_congr ((State.putLoc_ckpt _ a bs).trans (s.wakePage_ckpt _ _)) sole
  rw [State.ckptAt_modCkpt_self, hckpt]
  refine ⟨?_, ?_⟩
  · simp only [List.getElem?_map, hp, Option.map_some, hmine, if_true]
  · exact (State.putLoc_mem _ _ _).trans (by rw [State.wakePage_mem])

/-! ## NVMe commands (R424 to R426) -/

section
variable {s : State} {sole : Nat} {c : NvmeCmd} (hc : (s.ckptAt sole).nvme = some c)

include hc

theorem exec_nvmeCommandCompletion (ok : Bool) (data : List Byte) : exec (.nvmeCommandCompletion sole ok data) s =
    .next (if c.issued + 10000 * msTicks < s.tick then s.ckFail sole 3
      else if ok then ((if (s.ckptAt sole).busy = 2 then s.restorePage (s.ckptAt sole) c data else s).modCkpt sole fun k =>
        k.moved c).ckNext sole
      else if c.retry then s.ckFail sole 2
      else s.modCkpt sole fun k => { k with nvme := some { c with retry := true, issued := s.tick } }) := by
  have hexec : exec (.nvmeCommandCompletion sole ok data) s = execNvmeCommandCompletion sole ok data s := rfl
  simp only [hexec, execNvmeCommandCompletion, hc, State.nvmeLate, decide_eq_true_eq]

theorem exec_nvmeTimeout (h : c.issued + 10000 * msTicks ≤ s.tick) :
    exec (.nvmeTimeout sole) s = .next (s.ckFail sole 3) := by
  have hexec : exec (.nvmeTimeout sole) s = execNvmeTimeout sole s := rfl
  simp only [hexec, execNvmeTimeout, hc, if_pos h]

end

/-- What a completed command leaves before its page counts as moved: a restored page stands at its home. -/
theorem State.restored_spec {s : State} {sole : Nat} (h : s.Unprotected) {c : NvmeCmd} (hc : c.page = 0) {p : CkPage}
    {l : List CkPage} (hp : (s.ckptAt sole).pages = p :: l) (data : List Byte) :
    let u := if (s.ckptAt sole).busy = 2 then s.restorePage (s.ckptAt sole) c data else s
    u.ckpt = s.ckpt ∧ u.now = s.now ∧ ((s.ckptAt sole).busy ≠ 2 → u.mem = s.mem) ∧
      ((s.ckptAt sole).busy = 2 → ∀ i < 4096, i < data.length → byteAt u.mem (s.pageLoc p + i) = data.getD i 0) := by
  intro u
  by_cases hb : (s.ckptAt sole).busy = 2
  · have hu : u = (s.wakePage p.insole p.page).writeLoc (s.pageLoc p) (data.take 4096) := by
      simp only [u, if_pos hb, State.restorePage, hc, hp, List.getElem?_cons_zero]
    have hw : (s.wakePage p.insole p.page).Unprotected := State.unprotected_of_ckpt h (s.wakePage_ckpt _ _)
    rw [hu]
    refine ⟨(State.writeLoc_ckpt hw _ _).trans (s.wakePage_ckpt _ _), ?_, fun hn => absurd hb hn, fun _ i hi hd => ?_⟩
    · rw [State.writeLoc_of_unprotected hw, State.putLoc_now, State.wakePage_now]
    · rw [State.byteAt_writeLoc _ _ _ _ (by rw [List.length_take]; omega), Nat.add_sub_cancel_left,
        List.getD_eq_getElem?_getD, List.getElem?_take_of_lt hi, ← List.getD_eq_getElem?_getD]
  · rw [show u = s from if_neg hb]
    exact ⟨rfl, rfl, fun _ => rfl, fun h2 => absurd h2 hb⟩

/-- After a page has moved the next goes, where the reserve has room or holds it. -/
theorem Checkpoint.nextPage_moved {k : Checkpoint} {c : NvmeCmd} {p q : CkPage} {l : List CkPage} (hp : k.pages = p :: q :: l)
    (hc : c.page = 0) (hps : p.streamed = false) (hqs : q.streamed = false)
    (hroom : q.slot.isSome = true ∨ ∃ j < k.ckresz.toNat / 4096, ∀ x ∈ q :: l, x.slot ≠ some j) :
    (k.moved c).nextPage = some (q, 1) := by
  rw [Checkpoint.moved_first hp hc hps]
  refine Checkpoint.nextPage_of_todo (l := (l.zipIdx 2).filter fun x => !x.1.streamed) ?_ ?_
  · rw [List.zipIdx_cons, List.filter_cons_of_neg (by simp [CkPage.moved]), List.zipIdx_cons,
      List.filter_cons_of_pos (by simp [hqs])]
  · refine hroom.imp_right fun ⟨j, hj, hslots⟩ => .inl (Checkpoint.freeSlot_isSome (j := j) hj fun x hx => ?_)
    rcases List.mem_cons.1 hx with rfl | hx
    · exact nofun
    · exact hslots x hx

theorem Checkpoint.nextPage_moved_last {k : Checkpoint} {c : NvmeCmd} {p : CkPage} (hp : k.pages = [p]) (hc : c.page = 0)
    (hs : p.streamed = false) : (k.moved c).nextPage = none := by
  rw [Checkpoint.moved_first hp hc hs]
  simp [Checkpoint.nextPage, CkPage.moved]

/-- A capture of one page writes that page's poisoned sectors into its range entry (R423). -/
theorem State.countPoison_single (s : State) {k : Checkpoint} {p : CkPage} (hb : k.busy = 1) (hp : k.pages = [p])
    (hs : p.streamed = true) : s.countPoison k = s.writeNum (k.ckrt.toNat + 32 * p.entry + 24) 4 p.bad := by
  have hone : [p.entry].eraseDups = [p.entry] := rfl
  simp [State.countPoison, hb, hp, hone, hs]

theorem State.countPoison_nil (s : State) {k : Checkpoint} (hp : k.pages = []) : s.countPoison k = s := by
  unfold State.countPoison
  rw [hp]
  split <;> rfl

/-- A failure of an engine that holds no page changes its state words alone. -/
theorem State.ckptAt_ckFail {s : State} (h : s.Unprotected) {sole : Nat} (hp : (s.ckptAt sole).pages = []) (code : Nat) :
    (s.ckFail sole code).ckptAt sole =
      { s.ckptAt sole with busy := 0, nvme := none, failed := true, code := BitVec.ofNat 8 code } := by
  let u := s.modCkpt sole fun k =>
    { k with busy := 0, pages := [], nvme := none, failed := true, code := BitVec.ofNat 8 code }
  have hu : u.Unprotected := State.unprotected_modCkpt h fun p hp => absurd hp List.not_mem_nil
  have hadd := State.unprotected_writeNum hu (s.ckptAt sole).ckcnt.toNat 8 (u.wordAt (s.ckptAt sole).ckcnt.toNat + 1).toNat
  have hfail : s.ckFail sole code = (u.addLoc (s.ckptAt sole).ckcnt.toNat 1).ckRecord sole code := by
    rw [State.ckFail, State.countPoison_nil _ hp]
  have hckpt : (s.ckFail sole code).ckpt = u.ckpt := by
    rw [hfail]
    exact (State.logError_ckpt hadd _ _).trans (State.writeLoc_ckpt hu _ _)
  rw [State.ckptAt_congr hckpt, State.ckptAt_modCkpt_self, ← hp]

/-- The end of an operation that has moved its one page: its count is written, and CKCNT rises (R423, R425). -/
theorem State.ckDone_spec {s : State} (h : s.Unprotected) {sole : Nat} {p : CkPage} (hb : (s.ckptAt sole).busy = 1)
    (hp : (s.ckptAt sole).pages = [p]) (hs : p.streamed = true) :
    let k := s.ckptAt sole
    let count := k.ckrt.toNat + 32 * p.entry + 24
    let t := s.ckDone sole
    k.ckcnt.toNat + 8 ≤ count ∨ count + 4 ≤ k.ckcnt.toNat →
    (t.ckptAt sole).busy = 0 ∧ (t.ckptAt sole).failed = false ∧ numAt t.mem count 4 = p.bad % 2 ^ 32 ∧
      t.wordAt k.ckcnt.toNat = s.wordAt k.ckcnt.toNat + 1 := by
  intro k count t hapart
  let u := s.modCkpt sole fun k => { k with busy := 0, pages := [], nvme := none, failed := false, code := 0 }
  have hu : u.Unprotected := State.unprotected_modCkpt h fun p hp => absurd hp List.not_mem_nil
  have hv := State.unprotected_writeNum hu count 4 p.bad
  have ht : t = (u.writeNum count 4 p.bad).addLoc k.ckcnt.toNat 1 := by
    show State.addLoc (State.countPoison _ _) _ _ = _
    rw [State.countPoison_single _ hb hp hs]
  have hckpt : t.ckptAt sole = u.ckptAt sole :=
    State.ckptAt_congr (ht ▸ (State.writeLoc_ckpt hv _ _).trans (State.writeLoc_ckpt hu _ _)) sole
  rw [hckpt, State.ckptAt_modCkpt_self, ht]
  refine ⟨rfl, rfl, ?_, ?_⟩
  · rw [State.addLoc, State.writeNum, State.writeLoc_mem_of_unprotected hv,
      numAt_putAll_of_disjoint _ _ _ _ _ (by rw [length_bytesLE]; omega), State.numAt_writeNum]
  · rw [State.addLoc, State.wordAt_writeNum, State.wordAt, State.writeNum, State.writeLoc_mem_of_unprotected hu,
      numAt_putAll_of_disjoint _ _ _ _ _ (by rw [length_bytesLE]; omega)]
    rfl

/-! ## O52 -/

/-- A command to an idle engine begins its operation: a capture at T0, a restore with its first page. -/
theorem exec_ckcmd_idle {s : State} {sole : Nat} (hb : (s.ckptAt sole).busy = 0) (hr : s.soleRuns sole = true)
    (he : (s.ckptAt sole).earlyCode s sole = none) :
    (∃ t, exec (.ckcmdCapture sole) s = .next t ∧ (t.ckptAt sole).busy = 1 ∧ (t.ckptAt sole).pagesDone = 0 ∧
      ∃ due, (t.ckptAt sole).t0 = some due ∧ s.now + 1000 * unitsPerTick ≤ due * unitsPerTick ∧
        due * unitsPerTick < s.now + 1001 * unitsPerTick) ∧
    (∀ p rest, (s.ckptAt sole).pageList s = p :: rest → ∃ t, exec (.ckcmdRestore sole) s = .next t ∧ (t.ckptAt sole).busy = 2 ∧
      s.Issued t sole 0 p) := by
  refine ⟨⟨_, congrArg Host.Outcome.next ((State.ckCommand_idle hr hb he 1).trans (if_pos rfl)), ?_⟩, fun p rest hp =>
    ⟨_, congrArg Host.Outcome.next ((State.ckCommand_idle hr hb he 2).trans (if_neg (by decide))), ?_⟩⟩
  · rw [State.ckptAt_modCkpt_self, State.ckptAt_modCkpt_self]
    refine ⟨rfl, rfl, _, rfl, ?_⟩
    rw [unitsPerTick]
    omega
  · generalize hu : State.modCkpt (State.modCkpt _ _ _) _ _ = u
    have hat : u.ckptAt sole = { s.ckptAt sole with
        ignored := false, pagesDone := 0, busy := 2, pages := ((s.ckptAt sole).pageList s).map fun p => { p with image := some [] } } := by
      rw [← hu, State.ckptAt_modCkpt_self, State.ckptAt_modCkpt_self]
    have hnext : (u.ckptAt sole).nextPage = some ({ p with image := some [] }, 0) := by
      refine Checkpoint.nextPage_first (l := rest.map fun p => { p with image := some [] }) (by rw [hat, hp]; rfl) fun x hx => ?_
      rw [hat] at hx
      obtain ⟨y, hy, rfl⟩ := List.mem_map.1 hx
      obtain ⟨hslot, -, -, hstreamed⟩ := Checkpoint.untouched_of_mem_pageList hy
      exact ⟨hstreamed, hslot⟩
    obtain ⟨hissues, ⟨bad, c, hckpt⟩, -⟩ := u.ckIssue_spec sole 0 { p with image := some [] }
    rw [State.ckNext_of_page hnext]
    exact ⟨by rw [hckpt, hat], by rw [← hu] at hissues ⊢; exact hissues⟩

/-- At T0 the first page's command goes out, and every page is protected (R424). -/
theorem exec_captureT0 {s : State} {sole due : Nat} {p : CkPage} {rest : List CkPage} (ht : (s.ckptAt sole).t0 = some due)
    (hdue : due ≤ s.tick) (hlink : s.pcieDown.contains sole = false) (hp : (s.ckptAt sole).pageList s = p :: rest) :
    ∃ t, exec (.captureT0 sole) s = .next t ∧ (t.ckptAt sole).t0 = none ∧
      s.Issued t sole 0 p ∧
      (t.ckptAt sole).pages.map (fun p => { p with bad := 0 }) = (s.ckptAt sole).pageList s ∧
      ∀ p ∈ (t.ckptAt sole).pages, p.isProtected = true := by
  refine ⟨_, congrArg Host.Outcome.next (State.captureT0_due ht hdue hlink), ?_⟩
  generalize hu : State.modCkpt _ _ _ = u
  have huntouched (x : CkPage) (hx : x ∈ p :: rest) : x.untouched := Checkpoint.untouched_of_mem_pageList (hp ▸ hx)
  have hat : u.ckptAt sole = { s.ckptAt sole with t0 := none, pages := p :: rest } := by
    rw [← hu, State.ckptAt_modCkpt_self, hp]
  have hnext : (u.ckptAt sole).nextPage = some (p, 0) := by
    refine Checkpoint.nextPage_first (l := rest) (by rw [hat]) fun x hx => ?_
    obtain ⟨hslot, -, -, hstreamed⟩ := huntouched x (by rw [hat] at hx; exact hx)
    exact ⟨hstreamed, hslot⟩
  obtain ⟨hissues, ⟨bad, c, hckpt⟩, -⟩ := u.ckIssue_spec sole 0 p
  have htick : u.tick = s.tick := by rw [← hu]; rfl
  rw [State.ckNext_of_page hnext]
  have hpages : ((u.ckIssue sole 0 p).ckptAt sole).pages = { p with bad } :: rest := by
    rw [hckpt, hat]
    exact withBad_first p rest bad
  refine ⟨by rw [hckpt, hat], State.issued_congr htick hissues, ?_, fun x hx => ?_⟩
  · have hclear (x : CkPage) (hx : x ∈ p :: rest) : ({ x with bad := 0 } : CkPage) = x := by
      obtain ⟨-, -, hbad, -⟩ := huntouched x hx
      rw [← hbad]
    rw [hpages, hp, List.map_cons, List.map_congr_left (g := id) fun x hx => hclear x (List.mem_cons_of_mem _ hx), List.map_id]
    exact congrArg (· :: rest) (hclear p List.mem_cons_self)
  · rw [hpages] at hx
    rcases List.mem_cons.1 hx with rfl | hx
    · obtain ⟨-, himage, -, hstreamed⟩ := huntouched p List.mem_cons_self
      simp [CkPage.isProtected, himage, hstreamed]
    · obtain ⟨-, himage, -, hstreamed⟩ := huntouched x (List.mem_cons_of_mem _ hx)
      simp [CkPage.isProtected, himage, hstreamed]

/-- The copy of a page lies in its slot of the reserve (R424). -/
theorem exec_reserveCopyComplete {s : State} {sole n j : Nat} {p : CkPage} (hp : (s.ckptAt sole).pages[n]? = some p)
    (hb : (s.ckptAt sole).busy = 1) (hprot : p.isProtected = true) (hfree : (s.ckptAt sole).freeSlot = some j)
    (hwf : Memory.wf s.mem = true) :
    ∃ t p', exec (.reserveCopyComplete sole n) s = .next t ∧ (t.ckptAt sole).pages[n]? = some p' ∧ p'.isProtected = false ∧
      p'.slot = some j ∧ p'.image = some (s.pageImage p).1 ∧ p'.bad = (s.poisoned (s.pageLoc p) 4096).length ∧
      ∀ i < 4096, byteAt t.mem ((s.ckptAt sole).ckres.toNat + 4096 * j + i) =
        if s.poison.contains ((s.pageLoc p + i) / 32) then 0 else byteAt s.mem (s.pageLoc p + i) := by
  obtain ⟨hpage, hmem⟩ := State.copyAside_spec hp hprot hfree
  have hexec : exec (.reserveCopyComplete sole n) s = .next (s.copyAside sole p.insole p.page) := by
    have hexec : exec (.reserveCopyComplete sole n) s = execReserveCopyComplete sole n s := rfl
    simp only [hexec, execReserveCopyComplete, hp]
    rw [if_pos ⟨hb, hprot, by rw [hfree]; rfl⟩]
  refine ⟨_, _, hexec, hpage, rfl, rfl, rfl, rfl, fun i hi => ?_⟩
  rw [hmem, byteAt_putAll, length_dense, if_pos (by omega), Nat.add_sub_cancel_left]
  exact s.getD_pageImage p hwf hi

/-- A completed command moves its page, and the next page's goes out. -/
theorem exec_nvmeMoved {s : State} {sole : Nat} {c : NvmeCmd} (hc : (s.ckptAt sole).nvme = some c)
    (hlate : s.tick ≤ c.issued + 10000 * msTicks) (data : List Byte) {p q : CkPage} {rest : List CkPage}
    (hp : (s.ckptAt sole).pages = p :: q :: rest) (h0 : c.page = 0) (hps : p.streamed = false) (hqs : q.streamed = false)
    (hfree : s.Unprotected)
    (hroom : q.slot.isSome = true ∨ ∃ j < (s.ckptAt sole).ckresz.toNat / 4096, ∀ x ∈ q :: rest, x.slot ≠ some j) :
    ∃ t p' q', exec (.nvmeCommandCompletion sole true data) s = .next t ∧
      (t.ckptAt sole).pagesDone = (s.ckptAt sole).pagesDone + 1 ∧
      s.Issued t sole 1 q ∧
      (t.ckptAt sole).pages = p' :: q' :: rest ∧ p'.streamed = true ∧ p'.slot = none ∧ q' = { q with bad := q'.bad } ∧
      ((s.ckptAt sole).busy = 2 → ∀ i < 4096, i < data.length → byteAt t.mem (s.pageLoc p + i) = data.getD i 0) ∧
      ((s.ckptAt sole).busy ≠ 2 → t.mem = s.mem) := by
  have hexec := exec_nvmeCommandCompletion hc true data
  rw [if_neg (Nat.not_lt.2 hlate), if_pos rfl] at hexec
  obtain ⟨huckpt, hunow, hukept, hurestored⟩ := State.restored_spec hfree h0 hp data
  generalize (if (s.ckptAt sole).busy = 2 then s.restorePage (s.ckptAt sole) c data else s) = u
    at hexec huckpt hunow hukept hurestored
  let v := u.modCkpt sole fun k => k.moved c
  have hat : v.ckptAt sole = (s.ckptAt sole).moved c := by
    rw [State.ckptAt_modCkpt_self, State.ckptAt_congr huckpt]
  rw [State.ckNext_of_page (p := q) (n := 1) (hat ▸ Checkpoint.nextPage_moved hp h0 hps hqs hroom)] at hexec
  obtain ⟨hissues, ⟨bad, c', hckpt⟩, hmem⟩ := v.ckIssue_spec sole 1 q
  rw [hat, Checkpoint.moved_first hp h0 hps] at hckpt
  have hpages : ((v.ckIssue sole 1 q).ckptAt sole).pages = p.moved c.data :: { q with bad } :: rest := by
    rw [hckpt]
    exact withBad_second _ q rest bad
  have htick : v.tick = s.tick := congrArg (· / unitsPerTick) hunow
  exact ⟨_, _, _, hexec, by rw [hckpt], State.issued_congr htick hissues, hpages, rfl, rfl, rfl,
    fun h2 i hi hd => (congrArg (byteAt · _) hmem).trans (hurestored h2 i hi hd), fun h2 => hmem.trans (hukept h2)⟩

/-- The last command of a capture ends it. -/
theorem exec_nvmeLast {s : State} {sole : Nat} {c : NvmeCmd} (hc : (s.ckptAt sole).nvme = some c)
    (hlate : s.tick ≤ c.issued + 10000 * msTicks) (data : List Byte) {p : CkPage} (hp : (s.ckptAt sole).pages = [p])
    (h0 : c.page = 0) (hb : (s.ckptAt sole).busy = 1) (hps : p.streamed = false) (hfree : s.Unprotected) :
    let k := s.ckptAt sole
    let count := k.ckrt.toNat + 32 * p.entry + 24
    k.ckcnt.toNat + 8 ≤ count ∨ count + 4 ≤ k.ckcnt.toNat →
    ∃ t, exec (.nvmeCommandCompletion sole true data) s = .next t ∧ (t.ckptAt sole).busy = 0 ∧
      (t.ckptAt sole).failed = false ∧ numAt t.mem count 4 = p.bad % 2 ^ 32 ∧
      t.wordAt k.ckcnt.toNat = s.wordAt k.ckcnt.toNat + 1 := by
  intro k count hapart
  have hexec := exec_nvmeCommandCompletion hc true data
  rw [if_neg (Nat.not_lt.2 hlate), if_pos rfl, if_neg (by rw [hb]; decide)] at hexec
  have hmoved := Checkpoint.moved_first hp h0 hps
  let v := s.modCkpt sole fun k => k.moved c
  have hat : v.ckptAt sole = k.moved c := State.ckptAt_modCkpt_self s sole _
  rw [State.ckNext_of_none (hat ▸ Checkpoint.nextPage_moved_last hp h0 hps)] at hexec
  have hv : v.Unprotected := State.unprotected_modCkpt hfree fun x hx => by
    rw [hmoved] at hx
    rw [List.mem_singleton.1 hx]
    rfl
  rw [hmoved] at hat
  have hdone := State.ckDone_spec hv (p := p.moved c.data) (sole := sole) (by rw [hat]; exact hb) (by rw [hat]) rfl
  rw [hat] at hdone
  exact ⟨_, hexec, hdone hapart⟩

/-- Settles O52: commands, T0, copies, NVMe commands and failures, each by the lemma about its step. -/
theorem checkpointEngineCapturesAndRestores : Obligations.CheckpointEngineCapturesAndRestores := by
  unfold Obligations.CheckpointEngineCapturesAndRestores
  intro s sole k free issues
  refine ⟨fun hb hr => ?busy, exec_ckcmd_idle, fun due p rest => exec_captureT0, fun n p j => exec_reserveCopyComplete,
    fun c data hc => ⟨fun ok hlate => ?late, exec_nvmeTimeout hc, fun hlate => ⟨fun hretry => ?retry, fun hretry => ?failed,
      fun p q rest hp h0 hps hqs hfree hroom => exec_nvmeMoved hc hlate data hp h0 hps hqs hfree hroom,
      fun p hp h0 hb hps hfree => exec_nvmeLast hc hlate data hp h0 hb hps hfree⟩⟩,
    fun code hp hfree => State.ckptAt_ckFail hfree hp code⟩
  case busy =>
    exact ⟨⟨_, congrArg Host.Outcome.next (State.ckCommand_busy hr hb 1), State.ckptAt_modCkpt_self s sole _⟩,
      ⟨_, congrArg Host.Outcome.next (State.ckCommand_busy hr hb 2), State.ckptAt_modCkpt_self s sole _⟩⟩
  case late => rw [exec_nvmeCommandCompletion hc, if_pos hlate]
  case retry =>
    rw [exec_nvmeCommandCompletion hc, if_neg (Nat.not_lt.2 hlate)]
    simp only [hretry, Bool.false_eq_true, if_false]
  case failed =>
    rw [exec_nvmeCommandCompletion hc, if_neg (Nat.not_lt.2 hlate)]
    simp only [hretry, Bool.false_eq_true, if_false, if_true]

end Sys2Proof.Machine
end

section
/-!
The governor of a column (R409, R411, R414 to R417): O47.
-/
namespace Sys2Proof.Machine

/-! ## The governing part of a column -/

/-- What the governor of a column goes by and sets. -/
def Column.governing (x : Column) : Nat × List (Nat × Nat) × BitVec 16 × BitVec 3 := (x.level, x.steps, x.temp, x.lmin)

/-- What a column keeps of a run of droop samples. -/
def Column.droop (x : Column) : Bool × Nat := (x.supCap, x.droopRun)

theorem beside_governing : Column.Beside Column.governing :=
  ⟨fun _ _ => rfl, fun _ _ => rfl, fun _ _ => rfl, fun _ _ => rfl, fun _ _ => rfl, fun _ _ _ => rfl⟩

theorem beside_droop : Column.Beside Column.droop :=
  ⟨fun _ _ => rfl, fun _ _ => rfl, fun _ _ => rfl, fun _ _ => rfl, fun _ _ => rfl, fun _ _ _ => rfl⟩

theorem besideBanks_droop : Column.BesideBanks Column.droop := ⟨fun _ _ _ => rfl, fun _ _ _ => rfl⟩

theorem State.droop_rebase (s : State) (c : Nat) : ((s.rebase c).col c).droop = (s.col c).droop :=
  State.col_setCol_keeps rfl

theorem State.governing_rebase (s : State) (c : Nat) : ((s.rebase c).col c).governing = (s.col c).governing :=
  State.col_setCol_keeps rfl

/-- A step that takes effect sets the level and leaves the rest of what the governor goes by. -/
theorem State.governing_takeStep (s : State) (c new sub : Nat) :
    ((s.takeStep c new sub).col c).governing = { s.col c with level := new }.governing := by
  have hset : ((((s.rebase c).modCol c fun y =>
      { y with level := new, throttles := y.throttles + 1, lastStep := some s.tick }).evaluateDevice 5).col c).governing =
        { s.col c with level := new }.governing := by
    refine (State.evaluate_col beside_governing _ _).trans ?_
    rw [State.col_modCol_self]
    exact congrArg (fun g => (new, g.2)) (s.governing_rebase c)
  exact (State.event_col beside_governing _ _ _).trans hset

theorem State.breq_takeStep (s : State) (c new sub : Nat) : (s.takeStep c new sub).breq = s.breq := by
  have hevent (u : State) (e : EventRecord) : (u.event c e).besideMemory.breq = u.besideMemory.breq := by
    rw [State.event_besideMemory]
  have hcount (u : State) : (u.evaluateDevice 5).besideMemory.breq = u.besideMemory.breq := by
    rw [State.evaluateDevice, State.evaluate_besideMemory]
  exact (hevent _ _).trans (hcount _)

/-- The level that a column has, or at times off a tick boundary the one that it has ordered. -/
def Column.levelAt (x : Column) (now : Nat) : Nat := if now % unitsPerTick = 0 then x.level else x.goal

/-- A column without ordered steps at a boundary has the level that it goes to. -/
theorem Column.levelAt_eq_goal {x : Column} {now : Nat} (h : now % unitsPerTick = 0 → x.steps = []) : x.levelAt now = x.goal := by
  unfold Column.levelAt
  split
  · next hb => rw [Column.goal, h hb]; rfl
  · rfl

/-- A step is taken at a boundary and ordered off it (R414); temperature and floor stay. -/
theorem State.stepLevel_spec (s : State) (c new sub : Nat) :
    let t := s.stepLevel c new sub
    (t.col c).levelAt s.now = new ∧ (t.col c).temp = (s.col c).temp ∧ (t.col c).lmin = (s.col c).lmin ∧ t.breq = s.breq := by
  unfold State.stepLevel Column.levelAt
  by_cases hb : s.now % unitsPerTick = 0
  · have h := s.governing_takeStep c new sub
    simp only [Column.governing, Prod.mk.injEq] at h
    obtain ⟨hlevel, -, htemp, hlmin⟩ := h
    simp only [hb, if_true]
    exact ⟨hlevel, htemp, hlmin, s.breq_takeStep c new sub⟩
  · simp only [hb, if_false]
    rw [State.col_modCol_self]
    exact ⟨by simp [Column.goal], rfl, rfl, rfl⟩

/-! ## Samples (R414, R415) -/

/-- A sample stores its temperature, and the level follows the step that it calls for, if any. -/
theorem State.takeSample_spec (s : State) (col u : Nat) (temp : BitVec 16)
    (hsteps : s.now % unitsPerTick = 0 → (s.col col).steps = []) :
    let t := s.takeSample col u temp
    (t.col col).temp = temp ∧ (t.col col).levelAt s.now =
      ((s.sampleStep { s.col col with temp, lastSample := some u }).map (·.1)).getD (s.col col).goal := by
  let v := s.modCol col fun x => { x with temp, lastSample := some u }
  have hcol : v.col col = { s.col col with temp, lastSample := some u } := s.col_modCol_self col _
  have hstep : v.sampleStep (v.col col) = s.sampleStep { s.col col with temp, lastSample := some u } := by rw [hcol]; rfl
  unfold State.takeSample
  dsimp only
  rw [show (s.modCol col fun x => { x with temp, lastSample := some u }) = v from rfl, hstep]
  cases s.sampleStep { s.col col with temp, lastSample := some u } with
  | some l =>
    obtain ⟨hlevel, htemp, -, -⟩ := v.stepLevel_spec col l.1 l.2
    exact ⟨htemp.trans (by rw [hcol]), hlevel⟩
  | none =>
    rw [hcol]
    exact ⟨rfl, Column.levelAt_eq_goal (x := { s.col col with temp, lastSample := some u }) hsteps⟩

section
variable {s : State} {x : Column}

theorem State.sampleStep_critical (h : x.tcrit.toNat ≤ x.temp.toNat) (hg : x.goal ≤ 7) :
    ((s.sampleStep x).map (·.1)).getD x.goal = 7 := by
  rw [State.sampleStep, if_pos (BitVec.le_def.2 h)]
  split
  · rfl
  · show x.goal = 7
    omega

theorem State.sampleStep_up (hc : x.temp.toNat < x.tcrit.toNat) (hu : x.tup.toNat ≤ x.temp.toNat) (hg : x.goal < 7)
    (hp : s.paced x = true) : ((s.sampleStep x).map (·.1)).getD x.goal = x.goal + 1 := by
  rw [State.sampleStep, if_neg (fun h => absurd (BitVec.le_def.1 h) (Nat.not_le.2 hc)), if_pos ⟨BitVec.le_def.2 hu, hg, hp⟩]
  rfl

theorem State.sampleStep_down (hc : x.temp.toNat < x.tcrit.toNat) (hu : x.temp.toNat < x.tup.toNat)
    (hd : x.temp.toNat ≤ x.tdn.toNat) (hl : x.lmin.toNat < x.goal) (hp : s.paced x = true) :
    ((s.sampleStep x).map (·.1)).getD x.goal = x.goal - 1 := by
  rw [State.sampleStep, if_neg (fun h => absurd (BitVec.le_def.1 h) (Nat.not_le.2 hc)),
    if_neg (fun h => absurd (BitVec.le_def.1 h.1) (Nat.not_le.2 hu)), if_pos ⟨BitVec.le_def.2 hd, hl, hp⟩]
  rfl

theorem State.sampleStep_unpaced (hc : x.temp.toNat < x.tcrit.toNat) (hp : s.paced x = false) :
    ((s.sampleStep x).map (·.1)).getD x.goal = x.goal := by
  rw [State.sampleStep, if_neg (fun h => absurd (BitVec.le_def.1 h) (Nat.not_le.2 hc)),
    if_neg (fun h => by simp [hp] at h), if_neg (fun h => by simp [hp] at h)]
  rfl

end

theorem exec_governorSample {s : State} {col : Nat} (h : s.sampleDue (s.col col).lastSample = true) (temp : Nat) :
    exec (.governorSample col temp) s = .next (s.takeSample col (s.tick / 1000) (BitVec.ofNat 16 temp)) := by
  have hexec : exec (.governorSample col temp) s = execGovernorSample col temp s := rfl
  rw [hexec, execGovernorSample, h]
  rfl

/-- The sixteenth sample of a run sets the cap, and the run goes on counting. -/
theorem State.supplyEvent_spec (s : State) (col mean : Nat) :
    ((s.supplyEvent col mean).col col).supCap = true ∧ ((s.supplyEvent col mean).col col).droopRun = (s.col col).droopRun := by
  have hset : ((s.supplyEvent col mean).col col).droop = (true, (s.col col).droopRun) := by
    refine (State.logError_col beside_droop (.inr besideBanks_droop) _ _).trans
      ((State.event_col beside_droop _ _ _).trans ?_)
    rw [State.col_modCol_self]
    exact congrArg (fun d : Bool × Nat => (true, d.2)) (s.droop_rebase col)
  exact Prod.mk.inj hset

/-- A droop sample over the limit counts on, and the sixteenth in a row sets the cap (R415). -/
theorem exec_supplyDroopSample_above {s : State} {col : Nat} (h : s.sampleDue (s.col col).lastDroop = true) {drop : Nat}
    (hd : Config.staticDrop col + 40 < drop) : ∃ t, exec (.supplyDroopSample col drop) s = .next t ∧
      (t.col col).droopRun = (s.col col).droopRun + 1 ∧
      (t.col col).supCap = ((s.col col).supCap || decide ((s.col col).droopRun = 15)) := by
  let u := (s.modCol col fun x => { x with lastDroop := some (s.tick / 1000) }).modCol col fun x =>
    { x with droopRun := x.droopRun + 1, droopSum := x.droopSum + drop }
  have hcol : u.col col = { s.col col with
      lastDroop := some (s.tick / 1000), droopRun := (s.col col).droopRun + 1, droopSum := (s.col col).droopSum + drop } := by
    rw [State.col_modCol_self, State.col_modCol_self]
  have hexec : exec (.supplyDroopSample col drop) s = .next (if (u.col col).droopRun = 16 then
      u.supplyEvent col ((u.col col).droopSum / 16) else u) := by
    have hexec : exec (.supplyDroopSample col drop) s = execSupplyDroopSample col drop s := rfl
    rw [hexec, execSupplyDroopSample, h]
    exact congrArg Host.Outcome.next (if_neg (Nat.not_le.2 hd))
  refine ⟨_, hexec, ?_⟩
  by_cases h16 : (s.col col).droopRun = 15
  · obtain ⟨hcap, hrun⟩ := u.supplyEvent_spec col ((u.col col).droopSum / 16)
    rw [if_pos (by rw [hcol]; exact congrArg (· + 1) h16), hcap, hrun, hcol, decide_eq_true h16, Bool.or_true]
    exact ⟨rfl, rfl⟩
  · rw [if_neg (by rw [hcol]; exact fun h => h16 (Nat.succ.inj h)), hcol, decide_eq_false h16, Bool.or_false]
    exact ⟨rfl, rfl⟩

/-! ## Writes of the governor's registers (R411) -/

/-- GOVCTL sets the floor and the boost request; the level rises to the floor, and follows it down before the first sample. -/
theorem State.writeGovctl_spec (s : State) (col : Nat) (v : DWord) (hsteps : s.now % unitsPerTick = 0 → (s.col col).steps = []) :
    let t := s.writeGovctl col v
    let low := (v.extractLsb' 8 3).toNat
    (t.col col).lmin = v.extractLsb' 8 3 ∧ look false t.breq (clusterOf col) = v.getLsbD 0 ∧
      (t.col col).levelAt s.now =
        if (s.col col).lastSample = none ∧ s.tick < 1000 then low else max (s.col col).goal low := by
  intro t low
  let u : State := State.modCol { s with breq := put false s.breq (clusterOf col) (v.getLsbD 0) } col fun x =>
    { x with lmin := v.extractLsb' 8 3 }
  have hcol : u.col col = { s.col col with lmin := v.extractLsb' 8 3 } := State.col_modCol_self _ _ _
  have hgoal : (u.col col).goal = (s.col col).goal := by rw [hcol]; rfl
  have hbreq : look false u.breq (clusterOf col) = v.getLsbD 0 := look_put_self _ _ _ _
  have hlow : fld v 10 8 = low := fld_eq_extractLsb' ..
  have ht : t = if (u.col col).goal < low then u.stepLevel col low 4
      else if (u.col col).lastSample.isNone && u.tick < 1000 && low < (u.col col).goal then
        (u.rebase col).modCol col fun x => { x with level := low, steps := [] }
      else u := by
    rw [← hlow]
    rfl
  rw [hgoal, hcol] at ht
  have htick : u.tick = s.tick := rfl
  dsimp only at ht
  by_cases hup : (s.col col).goal < low
  · obtain ⟨hlevel, -, hlmin, hkeep⟩ := u.stepLevel_spec col low 4
    rw [ht, if_pos hup]
    refine ⟨hlmin.trans (by rw [hcol]), hkeep ▸ hbreq, hlevel.trans ?_⟩
    rw [Nat.max_eq_right hup.le, ite_self]
  · rw [if_neg hup] at ht
    by_cases hfirst : (s.col col).lastSample = none ∧ s.tick < 1000
    · rw [if_pos hfirst]
      by_cases hdown : low < (s.col col).goal
      · rw [if_pos (by simp [hfirst.1, htick, hfirst.2, hdown])] at ht
        have hset : (t.col col).governing = { s.col col with lmin := v.extractLsb' 8 3, level := low, steps := [] }.governing := by
          rw [ht, State.col_modCol_self]
          have h := u.governing_rebase col
          rw [hcol] at h
          exact congrArg (fun g : Nat × List (Nat × Nat) × BitVec 16 × BitVec 3 => (low, [], g.2.2)) h
        simp only [Column.governing, Prod.mk.injEq] at hset
        obtain ⟨hlevel, hnone, -, hlmin⟩ := hset
        refine ⟨hlmin, by rw [ht]; exact hbreq, ?_⟩
        rw [Column.levelAt_eq_goal fun _ => hnone, Column.goal, hnone]
        exact hlevel
      · rw [if_neg (by simp [hdown])] at ht
        rw [ht, hcol]
        refine ⟨rfl, hbreq, (Column.levelAt_eq_goal (x := { s.col col with lmin := _ }) hsteps).trans ?_⟩
        show (s.col col).goal = low
        omega
    · rw [if_neg hfirst]
      rw [if_neg (by
        rw [Bool.and_eq_true, Bool.and_eq_true, Option.isNone_iff_eq_none, decide_eq_true_iff]
        exact fun h => hfirst h.1)] at ht
      rw [ht, hcol]
      refine ⟨rfl, hbreq, (Column.levelAt_eq_goal (x := { s.col col with lmin := _ }) hsteps).trans ?_⟩
      show (s.col col).goal = max _ low
      omega

theorem State.writeTtrip_of_ordered {s : State} {col : Nat} {v : DWord}
    (h : v.extractLsb' 16 16 < v.extractLsb' 0 16 ∧ v.extractLsb' 0 16 < v.extractLsb' 32 16) : s.writeTtrip col v =
      s.modCol col fun x => { x with tup := v.extractLsb' 0 16, tdn := v.extractLsb' 16 16, tcrit := v.extractLsb' 32 16 } := by
  unfold State.writeTtrip
  simp only [fld_eq_extractLsb', BitVec.ofNat_toNat, BitVec.setWidth_eq, Nat.reduceAdd, Nat.reduceSub, Nat.sub_zero]
  exact if_pos ⟨BitVec.lt_def.1 h.1, BitVec.lt_def.1 h.2⟩

theorem State.writeTtrip_of_unordered {s : State} {col : Nat} {v : DWord}
    (h : ¬(v.extractLsb' 16 16 < v.extractLsb' 0 16 ∧ v.extractLsb' 0 16 < v.extractLsb' 32 16)) : s.writeTtrip col v = s := by
  unfold State.writeTtrip
  simp only [fld_eq_extractLsb', Nat.reduceAdd, Nat.reduceSub, Nat.sub_zero]
  exact if_neg fun h' => h ⟨BitVec.lt_def.2 h'.1, BitVec.lt_def.2 h'.2⟩

/-- Settles O47: registers, samples, droop runs, gating and sleep, each by the lemma about its step. -/
theorem governorFollowsItsSamples : Obligations.GovernorFollowsItsSamples := by
  unfold Obligations.GovernorFollowsItsSamples
  refine ⟨fun s col v => ⟨fun hdn hup hr => ?trip, fun hn => ?ignored⟩, fun s col core temp v => ?_⟩
  case trip =>
    have hexec : exec (.ttripWrite col v) s = .next (s.writeTtrip col v) := congrArg Host.Outcome.next (if_pos hr)
    rw [State.writeTtrip_of_ordered ⟨hdn, hup⟩] at hexec
    refine ⟨_, hexec, ?_⟩
    rw [State.col_modCol_self]
    exact ⟨rfl, rfl, rfl⟩
  case ignored =>
    have hexec : exec (.ttripWrite col v) s = execTtripWrite col v s := rfl
    rw [hexec, execTtripWrite, State.writeTtrip_of_unordered hn, ite_self]
  intro c g new low hsteps
  refine ⟨fun hdue htemp => ?sample, fun hr => ?govctl, fun drop hdue => ⟨fun hd => ?below, exec_supplyDroopSample_above hdue⟩,
    fun hpg hg hi hdue => ?gate, fun bank hidle => ?sleep⟩
  case sample =>
    obtain ⟨hread, hlevel⟩ := s.takeSample_spec col (s.tick / 1000) (BitVec.ofNat 16 temp) hsteps
    have hnat : (BitVec.ofNat 16 temp).toNat = temp := by rw [BitVec.toNat_ofNat]; omega
    let x : Column := { s.col col with temp := BitVec.ofNat 16 temp, lastSample := some (s.tick / 1000) }
    have hx : x.temp.toNat = temp := hnat
    refine ⟨_, exec_governorSample hdue temp, by rw [hread, hnat], fun hc hg => hlevel.trans ?_,
      fun hc hu hg hp => hlevel.trans ?_, fun hc hu hd hl hp => hlevel.trans ?_, fun hc hp => hlevel.trans ?_⟩
    · exact State.sampleStep_critical (x := x) (by rw [hx]; exact hc) hg
    · exact State.sampleStep_up (x := x) (by rw [hx]; exact hc) (by rw [hx]; exact hu) hg hp
    · exact State.sampleStep_down (x := x) (by rw [hx]; exact hc) (by rw [hx]; exact hu) (by rw [hx]; exact hd) hl hp
    · exact State.sampleStep_unpaced (x := x) (by rw [hx]; exact hc) hp
  case govctl => exact ⟨_, congrArg Host.Outcome.next (if_pos hr), s.writeGovctl_spec col v hsteps⟩
  case below =>
    refine ⟨_, congrArg Host.Outcome.next ((if_neg (by rw [hdue]; decide)).trans (if_pos hd)), ?_⟩
    rw [State.col_modCol_self, State.col_modCol_self]
    exact ⟨rfl, rfl⟩
  case gate =>
    have hgo : ((s.col (colOf core)).pgen && !(s.core core).gated &&
        decide ((s.core core).idleFrom + (s.col (colOf core)).gidle.toNat ≤ s.tick) && s.coreIdle core) = true := by
      simp [hpg, hg, hi, hdue]
    refine ⟨_, congrArg Host.Outcome.next (if_pos hgo), ?_⟩
    rw [State.core, State.setCore, look_put_self]
    exact ⟨rfl, rfl, rfl, rfl, rfl⟩
  case sleep =>
    refine ⟨_, congrArg Host.Outcome.next (if_pos hidle), ?_⟩
    rw [State.col_modCol_self]

end Sys2Proof.Machine
end

section
/-!
Trap entry and the end of a launch (R357, R358, R366): O40.
-/
namespace Sys2Proof.Machine

/-! ## Room for the frozen table (R291) -/

/-- Whether a save pool has room depends on its column alone. -/
theorem takePool_isSome_congr {s t : State} {c : Nat} (h : t.col c = s.col c) (n : Nat) :
    (takePool t c n).isSome = (takePool s c n).isSome := by
  unfold takePool
  rw [h]
  split
  · rfl
  · rw [Option.isSome_map, Option.isSome_map]

/-- A fibre that has room for its table, or its pool, has it whatever else of the package changes. -/
theorem needSpill_of_room {s t u : State} {r : FibreRef} {c : Nat} {f g : Fibre} (h : needSpill s r c = some u)
    (hf : s.fibre? r = some f) (hg : t.fibre? r = some g) (hspill : g.spill = f.spill) (hhspill : g.hspill = f.hspill)
    (hhnd : g.hnd = f.hnd) (hcol : t.col c = s.col c) : ∃ v, needSpill t r c = some v := by
  unfold needSpill at h ⊢
  rw [hf] at h
  rw [hg]
  dsimp only at h ⊢
  rw [hhnd, hspill, hhspill]
  cases hhas : (if f.hnd then f.hspill else f.spill).isSome with
  | true => exact ⟨t, rfl⟩
  | false =>
    rw [hhas, if_neg Bool.false_ne_true] at h
    obtain ⟨x, hx, -⟩ := Option.map_eq_some_iff.1 h
    obtain ⟨y, hy⟩ := Option.isSome_iff_exists.1 ((takePool_isSome_congr hcol spillBytes).trans (by rw [hx]; rfl))
    exact ⟨_, by rw [if_neg Bool.false_ne_true, hy]; rfl⟩

/-- Room gives the fibre at most a spill block. -/
theorem fibre?_needSpill {s u : State} {r : FibreRef} {c : Nat} {f : Fibre} (hf : s.fibre? r = some f)
    (h : needSpill s r c = some u) : ∃ spill hspill, u.fibre? r = some { f with spill, hspill } := by
  unfold needSpill at h
  rw [hf] at h
  dsimp only at h
  cases hhas : (if f.hnd then f.hspill else f.spill).isSome
  · rw [hhas, if_neg Bool.false_ne_true] at h
    obtain ⟨⟨a, v⟩, hv, rfl⟩ := Option.map_eq_some_iff.mp h
    dsimp only
    rw [State.fibre?_modFibre, takePool_fibre? hv, hf, Option.map_some]
    · split <;> exact ⟨_, _, rfl⟩
    · intro x
      split <;> rfl
  · rw [hhas, if_pos rfl] at h
    cases h
    exact ⟨_, _, hf⟩

@[simp] theorem writeSpilled_teams (s : State) (r : FibreRef) : (writeSpilled s r).teams = s.teams := by
  unfold writeSpilled writeEntries
  split
  · rfl
  · split
    · rfl
    · exact foldl_keeps (·.teams) (fun s _ => s.writeLoc_teams _ _) _ s

theorem State.fibre?_congr {s t : State} (h : t.teams = s.teams) : t.fibre? = s.fibre? := by
  funext r
  rw [State.fibre?, State.group?, State.team?, h]
  rfl

/-! ## Handler entry (R357) -/

/-- A split as the trap of its fibre records it. -/
def Split.trapped (cause : Nat) (x : Split) : Split :=
  let x := recordSplit x
  if cause == 6 && x.st == .running then { x with missed := true } else x

/-- Recording a split sets what it does next, and nothing of its place in the table. -/
theorem Split.trapped_eq (cause : Nat) (x : Split) : ∃ st park again missed,
    x.trapped cause = { x with st, park, again, missed } ∧ (st = .running → x.st = .running) ∧
      (x.park = .none → st = x.st) := by
  have hrecord : ∃ st park again, recordSplit x = { x with st, park, again } ∧ (st = .running → x.st = .running) ∧
      (x.park = .none → st = x.st) := by
    unfold recordSplit
    split
    · next h => exact ⟨_, _, _, rfl, nofun, fun hp => by rw [hp] at h; cases h⟩
    · next h => exact ⟨_, _, _, rfl, nofun, fun hp => by rw [hp] at h; cases h⟩
    · exact ⟨_, _, _, rfl, id, fun _ => rfl⟩
  obtain ⟨st, park, again, h, hback, hstay⟩ := hrecord
  unfold Split.trapped
  rw [h]
  dsimp only
  split
  · exact ⟨_, _, _, _, rfl, hback, hstay⟩
  · exact ⟨_, _, _, _, rfl, hback, hstay⟩

/-- A map that makes no other split a running one keeps which one runs. -/
theorem runningOf_map {l : List Split} {x : Split} {g : Split → Split} (hback : ∀ y, (g y).st = .running → y.st = .running)
    (hx : runningOf l = some x) (hg : (g x).st = .running) : runningOf (l.map g) = some (g x) := by
  induction l with
  | nil => cases hx
  | cons y l ih =>
    unfold runningOf at hx ih ⊢
    rw [List.map_cons]
    rw [List.find?_cons] at hx
    split at hx
    · next hy =>
      cases hx
      rw [List.find?_cons_of_pos (by simpa using hg)]
    · next hy =>
      rw [List.find?_cons_of_neg (fun h => ?_), ih hx]
      rw [beq_iff_eq] at h
      rw [hback y h] at hy
      cases hy

/-- The fibre that enters its handler, as the trap leaves it before the entry. -/
def Fibre.trapped (f : Fibre) (cause : Nat) : Fibre :=
  { f with splits := f.splits.map fun x => { x.trapped cause with hw := none } }

/-- A trap outside the handler freezes its fibre's table, where the pool has room (R357). -/
theorem State.fibre?_takeTrap {s u : State} {r : FibreRef} {t : TrapInfo} {f : Fibre} {g : Group} (hf : s.fibre? r = some f)
    (hg : s.group? r = some g) (htvec : f.tvec ≠ 0) (hfrozen : f.frozen = none)
    (hroom : needSpill s r (colOf g.core) = some u) :
    ∃ spill hspill, (s.takeTrap r t).fibre? r = some (Fibre.enter { f.trapped t.cause with spill, hspill } t) := by
  have hhnd : f.hnd = false := by rw [Fibre.hnd, hfrozen]; rfl
  let s1 := (s.withdraw (WaitAgent.ofFibre r)).modFibre r fun f => { f with splits := f.splits.map fun x => x.trapped t.cause }
  let s2 := s1.modTeam r.team fun t => { t with claims := t.claims.filter fun x => x.fib != r }
  have hfibre1 : s1.fibre? r = some { f with splits := f.splits.map fun x => x.trapped t.cause } := by
    rw [State.fibre?_modFibre]
    · exact congrArg (Option.map _) hf
    · exact fun _ => rfl
  have hgroup1 : s1.group? r = some (g.modFibre r.fid fun f => { f with splits := f.splits.map fun x => x.trapped t.cause }) :=
    (State.group?_modFibre _ r _).trans (congrArg (Option.map _) hg)
  have hgroup2 : s2.group? r = s1.group? r := by
    unfold State.group?
    rw [State.team?_modTeam]
    · cases s1.team? r.team <;> rfl
    · exact fun _ => rfl
  have hfibre2 : s2.fibre? r = s1.fibre? r := by rw [State.fibre?, hgroup2]; rfl
  have hfibre3 : (s2.passSlot r true).fibre? r = some { f with splits := f.splits.map fun x => x.trapped t.cause } := by
    rw [State.fibre?_passSlot, hfibre2, hfibre1]
  have hcolumn : (s2.passSlot r true).columnOf r = colOf g.core := by
    have hpass (g : Group) : (if g.holder == some r.fid then g.passAt true (s2.coreCycle g.core) else g).core = g.core ∧
        (if g.holder == some r.fid then g.passAt true (s2.coreCycle g.core) else g).gid = g.gid := by
      split
      · obtain ⟨_, _, _, h⟩ := g.passAt_eq true (s2.coreCycle g.core)
        rw [h]
        exact ⟨rfl, rfl⟩
      · exact ⟨rfl, rfl⟩
    unfold State.columnOf State.passSlot
    rw [State.group?_modGroup_of_ref _ _ _ fun g => (hpass g).2, hgroup2, hgroup1]
    exact congrArg colOf (hpass _).1
  obtain ⟨v, hv⟩ := needSpill_of_room hroom hf hfibre3 rfl rfl rfl rfl
  obtain ⟨spill, hspill, hfibre⟩ := fibre?_needSpill hfibre3 hv
  have htake : s.takeTrap r t = (s2.passSlot r true).enterHandler r t := by
    unfold State.takeTrap
    rw [hf]
    dsimp only
    rw [if_neg htvec, hhnd, if_neg Bool.false_ne_true]
    rfl
  refine ⟨spill, hspill, ?_⟩
  rw [htake, State.enterHandler, hcolumn, hv]
  dsimp only
  rw [State.fibre?_modFibre, State.fibre?_congr (writeSpilled_teams _ _), State.fibre?_modFibre, hfibre, Option.map_some,
    Option.map_some, Fibre.trapped]
  · simp only [List.map_map]
    rfl
  · exact fun _ => rfl
  · exact fun _ => rfl

theorem rootMask_map {l : List Split} {g : Split → Split} (hpar : ∀ x, (g x).par = x.par) (hmask : ∀ x, (g x).mask = x.mask) :
    rootMask (l.map g) = rootMask l := by
  have hp : ((fun x : Split => x.par == noParent) ∘ g) = fun x => x.par == noParent := funext fun x => by simp [hpar]
  rw [rootMask, rootMask, List.find?_map, hp, Option.map_map]
  congr 2
  exact funext hmask

section
variable (f : Fibre) (cause : Nat)

/-- What a trap records of a split: its place in the table stays. -/
theorem Fibre.trapped_splits_map {β : Type} {p : Split → β}
    (hp : ∀ (x : Split) st park again missed hw, p { x with st, park, again, missed, hw } = p x) :
    (f.trapped cause).splits.map p = f.splits.map p := by
  rw [Fibre.trapped, List.map_map]
  refine List.map_congr_left fun x _ => ?_
  obtain ⟨st, park, again, missed, h, -⟩ := x.trapped_eq cause
  show p { x.trapped cause with hw := none } = p x
  rw [h]
  exact hp x st park again missed none

theorem Fibre.rootMask_trapped : rootMask (f.trapped cause).splits = rootMask f.splits := by
  refine rootMask_map (fun x => ?_) fun x => ?_
  all_goals
    obtain ⟨st, park, again, missed, h, -⟩ := x.trapped_eq cause
    rw [h]

/-- A running split that waits for nothing is the interrupted one. -/
theorem Fibre.run?_trapped {x : Split} (hx : f.run? = some x) (hpark : x.park = .none) :
    ∃ y, (f.trapped cause).run? = some y ∧ y.idx = x.idx := by
  have hrun : x.st = .running := beq_iff_eq.1 (List.find?_some (p := fun x : Split => x.st == .running) hx)
  refine ⟨_, runningOf_map (fun y => ?_) hx ?_, ?_⟩
  · obtain ⟨st, park, again, missed, h, hback, -⟩ := y.trapped_eq cause
    rw [h]
    exact hback
  · obtain ⟨st, park, again, missed, h, -, hstay⟩ := x.trapped_eq cause
    rw [h]
    exact (hstay hpark).trans hrun
  · obtain ⟨st, park, again, missed, h, -⟩ := x.trapped_eq cause
    rw [h]

end

/-! ## The end of a launch (R366) -/

/-- What of the launches stands in the package: the names of the resident teams, the saved teams and the columns. -/
def State.standing (s : State) : List TeamRef × List SavedTeam × Sparse Column := (s.teams.map (·.ref), s.saved, s.columns)

theorem State.wakeCore_standing (s : State) (k : Nat) : (s.wakeCore k).standing = s.standing := by
  unfold State.wakeCore
  dsimp only
  split <;> rfl

theorem State.retry_standing (s : State) (p : Hold → Bool) : (s.retry p).standing = s.standing := by
  refine (foldl_keeps State.standing State.wakeCore_standing _ _).trans ?_
  unfold State.standing
  simp only [List.map_map]
  rfl

theorem State.moveClass_standing (s : State) (cls : Nat) : (s.moveClass cls).standing = s.standing := by
  unfold State.moveClass
  dsimp only
  split
  · rfl
  · split
    · rfl
    · split <;> rfl

theorem State.settleRoutes_standing (s : State) : s.settleRoutes.standing = s.standing := by
  unfold State.settleRoutes State.reroute
  split
  · exact (State.retry_standing _ _).trans (foldl_keeps State.standing State.moveClass_standing _ s)
  · rfl

/-- Of a terminated launch nothing is resident, saved or queued any more. -/
theorem State.terminate_spec {s : State} {seq : Nat} {l : Launch} (hl : s.launch? seq = some l) (b : Blame) :
    let v := s.terminate seq b
    (∀ x ∈ v.teams, x.ref.seq ≠ seq) ∧ (∀ x ∈ v.saved, x.team.ref.seq ≠ seq) ∧
      (v.col l.col).queue.all (fun x => x.seq != seq) = true := by
  intro v
  have hlast : ∃ (u : State) (cores : Sparse Core) (p : Hold → Bool), v =
      ((State.retry { u with
          teams := u.teams.filter fun t => !(t.ref.seq == seq)
          saved := u.saved.filter fun t => !(t.team.ref.seq == seq)
          cores } p).modCol l.col fun c => { c with queue := c.queue.filter fun x => x.seq != seq }).settleRoutes := by
    show ∃ u cores p, s.terminate seq b = _
    unfold State.terminate
    rw [hl]
    exact ⟨_, _, _, rfl⟩
  obtain ⟨u, cores, p, hv⟩ := hlast
  generalize hu' : State.retry _ p = w at hv
  have hw := hu' ▸ State.retry_standing _ p
  have hstanding := (congrArg State.standing hv).trans (State.settleRoutes_standing _)
  unfold State.standing at hw hstanding
  simp only [Prod.mk.injEq] at hw hstanding
  obtain ⟨hteams, hsaved, -⟩ := hw
  obtain ⟨hvteams, hvsaved, hvcolumns⟩ := hstanding
  refine ⟨fun x hx => ?_, fun x hx => ?_, ?_⟩
  · have hmem : x.ref ∈ v.teams.map (·.ref) := List.mem_map.2 ⟨x, hx, rfl⟩
    rw [hvteams, State.modCol_teams, hteams] at hmem
    obtain ⟨y, hy, hyx⟩ := List.mem_map.1 hmem
    simpa [hyx] using (List.mem_filter.1 hy).2
  · rw [hvsaved] at hx
    have hx : x ∈ w.saved := hx
    rw [hsaved] at hx
    simpa using (List.mem_filter.1 hx).2
  · rw [State.col, hvcolumns]
    show ((w.modCol l.col _).col l.col).queue.all _ = true
    rw [State.col_modCol_self]
    exact List.all_eq_true.2 fun x hx => (List.mem_filter.1 hx).2

/-- Settles O40: the entry by the fibre that it leaves, and the end of the launch by what stands after it. -/
theorem trapEntryGoesToTheHandlerOrEnds : Obligations.TrapEntryGoesToTheHandlerOrEnds := by
  unfold Obligations.TrapEntryGoesToTheHandlerOrEnds
  refine ⟨fun s u r t f g hf hg htvec hfrozen hroom => ?enters, fun s r t f g l hf hg hl hend => ?ends⟩
  case enters =>
    obtain ⟨spill, hspill, hfibre⟩ := State.fibre?_takeTrap (t := t) hf hg htvec hfrozen hroom
    refine ⟨_, _, hfibre, rfl, rfl, rfl, rfl, rfl, rfl, rfl, ?_, rfl, ?_, ?_, fun x hx hpark => ?_, rfl, rfl, rfl, rfl, rfl, rfl⟩
    · exact congrArg (fun m => [rootSplit m f.tvec .running]) (f.rootMask_trapped t.cause)
    · exact (List.map_map ..).trans (f.trapped_splits_map t.cause fun _ _ _ _ _ _ => rfl)
    · exact (List.map_map ..).trans (f.trapped_splits_map t.cause fun _ _ _ _ _ _ => rfl)
    · obtain ⟨y, hy, hidx⟩ := f.run?_trapped t.cause hx hpark
      have hrun : ({ f.trapped t.cause with spill, hspill } : Fibre).run? = some y := hy
      have hlast : ({ f.trapped t.cause with spill, hspill } : Fibre).lastSplit = some y := by
        rw [Fibre.lastSplit, hrun]
        rfl
      rw [hrun, hlast]
      exact ⟨rfl, hidx⟩
  case ends =>
    have hterm : ∃ b, s.takeTrap r t = s.terminate r.team.seq b := by
      unfold State.takeTrap
      rw [hf]
      dsimp only
      by_cases htvec : f.tvec = 0
      · exact ⟨_, if_pos htvec⟩
      · exact ⟨_, (if_neg htvec).trans (if_pos (hend.resolve_left htvec))⟩
    obtain ⟨b, hb⟩ := hterm
    rw [hb]
    exact State.terminate_spec hl b

end Sys2Proof.Machine
end

section
/-!
The return from a handler (R357, R361): O18.
-/
namespace Sys2Proof.Machine

/-! ## TRET -/

/-- The frozen table comes back to the split that the trap interrupted, which goes on where it stood (log 69). -/
theorem resumes_iff (z : Frozen) (pc : DWord) : (!z.emptied.contains z.run && (findSplit z.splits z.run).any fun x => x.pc == pc) =
    true ↔ z.run ∉ z.emptied ∧ ∃ x, findSplit z.splits z.run = some x ∧ x.pc = pc := by
  rw [Bool.and_eq_true, Bool.not_eq_true', List.contains_eq_mem, decide_eq_false_iff_not, Option.any_eq_true]
  simp only [beq_iff_eq]

/-- The state in which TRET leaves the package before its split resumes. -/
def State.leftHandler (s : State) (c : Ctx) (z : Frozen) (pc : DWord) : State :=
  let t := (s.freeArea c.f.hspill).withdraw fun a => match a with
    | .thread r key _ => r == c.r && decide (128 ≤ key)
    | _ => false
  if z.run ∉ z.emptied ∧ ∃ x, findSplit z.splits z.run = some x ∧ x.pc = pc then t else t.forgetFreed c.r

theorem tretDone_eq (c : Ctx) (s : State) (z : Frozen) (pc : DWord) (sig : Word) : tretDone c s z pc sig =
    .done { s := s.leftHandler c z pc, flow := some { run := fun f => f.leave z pc sig } } := by
  unfold tretDone State.leftHandler
  dsimp only
  by_cases h : z.run ∉ z.emptied ∧ ∃ x, findSplit z.splits z.run = some x ∧ x.pc = pc
  · rw [if_pos h, if_pos ((resumes_iff z pc).2 h)] <;> rfl
  · rw [if_neg h, if_neg fun hb => h ((resumes_iff z pc).1 hb)] <;> rfl

section
variable {c : Ctx} {s : State} {z : Frozen} (hz : c.f.frozen = some z)

include hz

theorem tretBody_at (h : ¬(c.w.f.getLsbD 0 = true ∧ z.run ∉ z.emptied)) : tretBody c s =
    .done { s := s.leftHandler c z c.f.tpc, flow := some { run := fun f => f.leave z c.f.tpc z.fsig } } := by
  have hstay : ¬(c.w.f.getLsbD 0 && !z.emptied.contains z.run) = true := by
    simpa only [Bool.and_eq_true, Bool.not_eq_true', List.contains_eq_mem, decide_eq_false_iff_not] using h
  rw [tretBody, hz]
  dsimp only
  rw [if_neg hstay, tretDone_eq]

theorem tretBody_behind (h : c.w.f.getLsbD 0 = true ∧ z.run ∉ z.emptied) : tretBody c s =
    match s.fetchWord c.space c.f.tpc.toNat with
    | .fault cause reason => .stop (.lodge cause reason c.act [(0, c.f.tpc)])
    | .ok (x, s) => tretDone c s z (c.f.tpc + BitVec.ofNat 64 (4 * wordCount x)) (hash z.fsig x) := by
  have hskip : (c.w.f.getLsbD 0 && !z.emptied.contains z.run) = true := by
    simpa only [Bool.and_eq_true, Bool.not_eq_true', List.contains_eq_mem, decide_eq_false_iff_not] using h
  rw [tretBody, hz]
  dsimp only
  rw [if_pos hskip] <;> rfl

end

/-! ## A table under changes of where its entries lie -/

/-- An entry without where it lies. -/
def Split.placeless (x : Split) : Split := { x with hw := none }

/-- A change of where entries lie alone. -/
def placesOnly (g : Split → Split) : Prop := ∀ y, ∃ hw, g y = { y with hw }

theorem placesOnly.at (i : Nat) (h : Split → Option Nat) :
    placesOnly fun y => if y.idx == i then { y with hw := h y } else y := by
  intro y
  dsimp only
  split
  · exact ⟨_, rfl⟩
  · exact ⟨y.hw, rfl⟩

theorem placesOnly.comp {g k : Split → Split} (hg : placesOnly g) (hk : placesOnly k) : placesOnly (k ∘ g) := by
  intro y
  obtain ⟨a, ha⟩ := hg y
  obtain ⟨b, hb⟩ := hk (g y)
  exact ⟨b, by rw [Function.comp, hb, ha]⟩

theorem makeRoom_eq_map (l : List Split) : ∃ g, placesOnly g ∧ makeRoom l = l.map g := by
  have hid : placesOnly id := fun y => ⟨y.hw, rfl⟩
  unfold makeRoom
  split
  · exact ⟨id, hid, (List.map_id l).symm⟩
  · split
    · exact ⟨_, .at _ fun _ => none, rfl⟩
    · exact ⟨id, hid, (List.map_id l).symm⟩

/-- An entry that comes back into the hardware may put another out; nothing else changes (R291). -/
theorem fetchBack_eq_map (l : List Split) (i : Nat) : ∃ g, placesOnly g ∧ fetchBack l i = l.map g := by
  have hid : placesOnly id := fun y => ⟨y.hw, rfl⟩
  unfold fetchBack
  split
  · split
    · exact ⟨id, hid, (List.map_id l).symm⟩
    · obtain ⟨g, hg, hroom⟩ := makeRoom_eq_map l
      refine ⟨_, hg.comp (.at i fun _ => freeHw (makeRoom l)), ?_⟩
      rw [← List.map_map, ← hroom]
      rfl
  · exact ⟨id, hid, (List.map_id l).symm⟩

/-- Which entry runs does not depend on where entries lie. -/
theorem runningOf_placeless (l : List Split) : runningOf (l.map Split.placeless) = (runningOf l).map Split.placeless := by
  rw [runningOf, List.find?_map]
  rfl

/-! ## A trap undone -/

/-- The interrupted split as it resumes at an address with a signature. -/
def Split.resumed (pc : DWord) (sig : Word) (x : Split) : Split :=
  let again := x.again && pc == x.pc
  if x.slp then { x with pc, again, sig }
  else { x with st := .running, pc, again, park := if pc = x.pc then x.park.kept else .none }

/-- An entry as the frozen table holds it. -/
def Split.atRest (x : Split) : Split := { x with hw := none, st := if x.st == .running then .ready else x.st }

section
variable {f : Fibre} {x : Split}

/-- The entry of a running split saves its FSIG and its number. -/
theorem Fibre.frozen_enter (hx : f.run? = some x) (t : TrapInfo) : (f.enter t).frozen =
    some { splits := f.splits.map Split.atRest, fsig := f.fsig, run := x.idx } := by
  have hlast : f.lastSplit = some x := by rw [Fibre.lastSplit, hx]; rfl
  unfold Fibre.enter
  rw [hx, hlast]
  rfl

/-- Which entry runs is a matter of the table without the places. -/
theorem run_idx_congr {l m : List Split} (h : l.map Split.placeless = m.map Split.placeless) :
    (runningOf l).map (·.idx) = (runningOf m).map (·.idx) := by
  have hplace (l : List Split) : (runningOf l).map (·.idx) = (runningOf (l.map Split.placeless)).map (·.idx) := by
    rw [runningOf_placeless, Option.map_map]
    rfl
  rw [hplace l, h, ← hplace m]

/-- An entry comes back as it was, but for where it lies: the interrupted one running, the others as they were. -/
theorem Split.placeless_resumed {g : Split → Split} (hg : placesOnly g) {pc : DWord} {sig : Word} (hrun : x.st = .running)
    (hslp : x.slp = false) (hpark : x.park = .none) (hpc : pc = x.pc) {y : Split} (hy : y.st = .running → y = x)
    (hidx : y.idx = x.idx → y = x) :
    Split.placeless (if (g y.atRest).idx == x.idx then (g y.atRest).resumed pc sig else g y.atRest) = y.placeless := by
  obtain ⟨hw, h⟩ := hg y.atRest
  have hkept : (g y.atRest).idx = y.idx := by rw [h]; rfl
  by_cases he : y.idx = x.idx
  · obtain rfl := hidx he
    rw [if_pos (beq_iff_eq.2 hkept), h, hpc]
    simp [Split.placeless, Split.resumed, Split.atRest, hslp, hpark, Park.kept, ← hrun]
  · rw [if_neg (fun hb => he (hkept.symm.trans (beq_iff_eq.1 hb))), h]
    have hst : y.st ≠ .running := fun hr => he (congrArg Split.idx (hy hr))
    simp [Split.placeless, Split.atRest, hst]

/-- TRET at the trap's own address undoes the entry (R357, R361). -/
theorem Fibre.leave_enter {t : TrapInfo} (hx : f.run? = some x) (hslp : x.slp = false)
    (hpark : x.park = .none) (hpc : t.pc = x.pc) (hone : ∀ y ∈ f.splits, y.st = .running → y = x)
    (hnodup : (f.splits.map (·.idx)).Nodup) :
    ∃ z g, (f.enter t).frozen = some z ∧ (f.enter t).leave z t.pc z.fsig = .ok g ∧ g.fsig = f.fsig ∧ g.frozen = none ∧
      g.splits.map Split.placeless = f.splits.map Split.placeless ∧ (g.run?).map (·.idx) = some x.idx := by
  have hrun : x.st = .running := beq_iff_eq.1 (List.find?_some (p := fun x : Split => x.st == .running) hx)
  have hmem : x ∈ f.splits := List.mem_of_find?_eq_some hx
  obtain ⟨g, hg, hback⟩ := fetchBack_eq_map (f.splits.map Split.atRest) x.idx
  have hsplits : (modSplit (fetchBack (f.splits.map Split.atRest) x.idx) x.idx (Split.resumed t.pc f.fsig)).map Split.placeless =
      f.splits.map Split.placeless := by
    rw [hback, modSplit, List.map_map, List.map_map, List.map_map]
    exact List.map_congr_left fun y hy => Split.placeless_resumed hg hrun hslp hpark hpc (hone y hy)
      fun he => List.inj_on_of_nodup_map hnodup hy hmem he
  have hleave : (f.enter t).leave { splits := f.splits.map Split.atRest, fsig := f.fsig, run := x.idx } t.pc f.fsig =
      .ok { f.enter t with
        frozen := none, hspill := none, last := x.idx, fsig := f.fsig
        splits := modSplit (fetchBack (f.splits.map Split.atRest) x.idx) x.idx (Split.resumed t.pc f.fsig) } := rfl
  exact ⟨_, _, Fibre.frozen_enter hx t, hleave, rfl, rfl, hsplits,
    (run_idx_congr hsplits).trans (congrArg (Option.map _) hx)⟩

end

/-- Settles O18: TRET by the branch that its bit and the handler's exits choose, and its undoing of the entry split by
split. -/
theorem trapReturnRestoresTheFrozenTable : Obligations.TrapReturnRestoresTheFrozenTable := by
  unfold Obligations.TrapReturnRestoresTheFrozenTable
  refine ⟨fun w k y i hi => ?tret, fun f x t hfrozen hx hslp hpark hpc hone hnodup =>
    Fibre.leave_enter hx hslp hpark hpc (fun y hy => (hone y hy).2) hnodup⟩
  obtain ⟨v, ho, he⟩ : ∃ v, opFields i = some (0x0A, v) ∧ ∀ s, exec i s = s.issue 0x0A v tretBody := by
    rcases hi with rfl | rfl
    · exact ⟨_, rfl, fun _ => rfl⟩
    · exact ⟨_, rfl, fun _ => rfl⟩
  refine ⟨completesIf_of_done he ho fun c s _ _ hz => ⟨?outside, rfl⟩, fun s c z hc hz =>
    ⟨fun hstay => exec_of_done he ho hc (tretBody_at hz hstay) rfl, fun x t hskip hx => ?behind,
      fun cause reason hskip hx => ?fault⟩⟩
  case outside =>
    have hz : c.f.frozen = none := hz
    rw [tretBody, hz]
    rfl
  case behind =>
    refine exec_of_done he ho hc ((tretBody_behind hz hskip).trans ?_) rfl
    rw [hx]
    exact tretDone_eq ..
  case fault =>
    refine exec_of_stop he ho hc ((tretBody_behind hz hskip).trans ?_)
    rw [hx]

end Sys2Proof.Machine
end

section
/-!
SYSC, TCKPT and TLBINV (R364, R365, R369): O20.
-/
namespace Sys2Proof.Machine

/-! ## Threads of a mask in order -/

theorem mem_threads {m : Mask} {t : Nat} : t ∈ threads m ↔ m.getLsbD t = true := by
  rw [threads, List.mem_filter, List.mem_range]
  exact and_iff_right_of_imp BitVec.lt_of_getLsbD

theorem pairwise_threads (m : Mask) : (threads m).Pairwise (· < ·) := List.pairwise_lt_range.filter _

theorem threads_zero : threads 0 = [] :=
  List.eq_nil_iff_forall_not_mem.2 fun _ ht => Bool.false_ne_true ((BitVec.getLsbD_zero (w := 64)).symm.trans (mem_threads.1 ht))

theorem threads_setBit (m : Mask) {t : Nat} (ht : t < 64) : threads (setBit m t false) = (threads m).filter (· != t) := by
  rw [threads, threads, List.filter_filter]
  refine List.filter_congr fun x _ => ?_
  have h := bit_setBit m x false ht
  unfold bit at h
  rw [h]
  by_cases hx : x = t <;> simp [hx]

/-- The lowest thread comes first, and the others follow in order. -/
theorem threads_of_ne_zero {m : Mask} (h : m ≠ 0) :
    lowest m < 64 ∧ threads m = lowest m :: threads (setBit m (lowest m) false) ∧ ∀ t < lowest m, m.getLsbD t = false := by
  cases hl : threads m with
  | nil =>
    refine absurd (BitVec.eq_of_getLsbD_eq fun i _ => ?_) h
    show m.getLsbD i = (0#64).getLsbD i
    rw [BitVec.getLsbD_zero, ← Bool.not_eq_true, ← mem_threads, hl]
    exact List.not_mem_nil
  | cons a l =>
    have hlow : lowest m = a := by rw [lowest, hl]; rfl
    have hin : m.getLsbD a = true := mem_threads.1 (hl ▸ List.mem_cons_self)
    have ha : a < 64 := BitVec.lt_of_getLsbD hin
    have hsorted := hl ▸ pairwise_threads m
    obtain ⟨hfirst, -⟩ := List.pairwise_cons.1 hsorted
    rw [hlow, threads_setBit m ha, hl, List.filter_cons_of_neg (by simp),
      List.filter_eq_self.2 fun x hx => by simpa using (hfirst x hx).ne']
    refine ⟨ha, rfl, fun t ht => ?_⟩
    rw [← Bool.not_eq_true, ← mem_threads, hl]
    intro hmem
    rcases List.mem_cons.1 hmem with rfl | hmem
    · exact lt_irrefl _ ht
    · exact lt_asymm ht (hfirst t hmem)

/-- No thread of a mask lies below one that none of its threads precedes. -/
theorem and_below_eq_zero {m : Mask} {t : Nat} (ht : t < 64) (h : ∀ x < t, m.getLsbD x = false) :
    m &&& ((1#64 <<< t) - 1) = 0 := by
  have hmask : (1#64 <<< t) - 1#64 = BitVec.ofNat 64 (2 ^ t - 1) := by
    have hlt : 2 ^ t < 2 ^ 64 := Nat.pow_lt_pow_right (by decide) ht
    have hpos : 0 < 2 ^ t := Nat.two_pow_pos t
    refine BitVec.eq_of_toNat_eq ?_
    rw [BitVec.toNat_sub, BitVec.toNat_shiftLeft, BitVec.toNat_ofNat, BitVec.toNat_ofNat, Nat.shiftLeft_eq, Nat.one_mod,
      Nat.one_mul, Nat.mod_eq_of_lt hlt, Nat.mod_eq_of_lt (show 2 ^ t - 1 < 2 ^ 64 by omega)]
    omega
  refine BitVec.eq_of_getLsbD_eq fun i hi => ?_
  show (m &&& ((1#64 <<< t) - 1#64)).getLsbD i = (0#64).getLsbD i
  rw [hmask, BitVec.getLsbD_and, BitVec.getLsbD_ofNat, Nat.testBit_two_pow_sub_one, BitVec.getLsbD_zero]
  by_cases hit : i < t
  · rw [h i hit, Bool.false_and]
  · simp [hit]

/-! ## The entries of a SYSC (R364) -/

/-- A core with nothing buffered and nothing on its way has nothing to drain. -/
theorem State.drainHome_of_empty {s : State} {core : Nat} (hw : (s.core core).wcb = []) (hf : (s.core core).flight = []) :
    s.drainHome core = s := by
  have hdrain : s.drain core = s := by rw [State.drain, hw]; rfl
  rw [State.drainHome, hdrain, State.landAll, hf]
  rfl

/-- One entry of a SYSC, where the ring has room, the core's stores are acknowledged and no lower thread waits. -/
def syscStep (c : Ctx) (x : Column) (a : State × SyscRun) (t : Nat) : State × SyscRun :=
  if a.1.syscRingFull c.col || !a.1.acked c.core || a.2.todo &&& ((1#64 <<< t) - 1) != 0 then a
  else
    let loc := x.scbase.toNat + 64 * ((a.1.wordAt x.scprod.toNat).toNat % 2 ^ x.scsize)
    ((a.1.writeLoc loc (syscEntry c a.2.number t)).addLoc x.scprod.toNat 1,
      { a.2 with todo := setBit a.2.todo t false, entries := a.2.entries ++ [(t, loc)] })

theorem State.writeSysc_eq (s : State) (c : Ctx) (q : SyscRun) :
    s.writeSysc c q = (threads q.todo).foldl (syscStep c (s.col c.col)) (s.drainHome c.core, q) := rfl

theorem foldl_syscStep_of_kept {c : Ctx} {x : Column} {a : State × SyscRun}
    (h : (a.1.syscRingFull c.col || !a.1.acked c.core) = true) (l : List Nat) : l.foldl (syscStep c x) a = a := by
  induction l with
  | nil => rfl
  | cons t l ih =>
    rw [List.foldl_cons, show syscStep c x a t = a from if_pos (by rw [h]; rfl), ih]

theorem syscStep_congr {c : Ctx} {x y : Column} (h : x.hostRegs = y.hostRegs) : syscStep c x = syscStep c y := by
  have hbase : x.scbase = y.scbase := show x.hostRegs.scbase = y.hostRegs.scbase by rw [h]
  have hprod : x.scprod = y.scprod := show x.hostRegs.scprod = y.hostRegs.scprod by rw [h]
  have hsize : x.scsize = y.scsize := show x.hostRegs.scsize = y.hostRegs.scsize by rw [h]
  funext a t
  rw [syscStep, syscStep, hbase, hprod, hsize]

theorem State.core_writeLoc (s : State) (a : Nat) (bs : List Byte) (k : Nat) : (s.writeLoc a bs).core k = s.core k := by
  rw [State.core, State.writeLoc_cores, State.core]

/-- The first waiting thread's entry is written, and the rest go on from there. -/
theorem State.writeSysc_step {s : State} {c : Ctx} {q : SyscRun} (hw : (s.core c.core).wcb = []) (hf : (s.core c.core).flight = [])
    (htodo : q.todo ≠ 0) (hfull : s.syscRingFull c.col = false) :
    let x := s.col c.col
    let loc := x.scbase.toNat + 64 * ((s.wordAt x.scprod.toNat).toNat % 2 ^ x.scsize)
    let th := lowest q.todo
    s.writeSysc c q = State.writeSysc ((s.writeLoc loc (syscEntry c q.number th)).addLoc x.scprod.toNat 1) c
      { q with todo := q.todo &&& ~~~(1#64 <<< th), entries := q.entries ++ [(th, loc)] } := by
  intro x loc th
  obtain ⟨hth, hthreads, hbelow⟩ := threads_of_ne_zero htodo
  let u := (s.writeLoc loc (syscEntry c q.number th)).addLoc x.scprod.toNat 1
  have hcore : u.core c.core = s.core c.core := (State.core_writeLoc _ _ _ _).trans (s.core_writeLoc _ _ _)
  have hregs : (u.col c.col).hostRegs = x.hostRegs :=
    congrFun ((State.writeLoc_hostRegs _ _ _).trans (s.writeLoc_hostRegs _ _)) c.col
  have hacked : s.acked c.core = true := by rw [State.acked, hf]; rfl
  have hfirst : syscStep c x (s, q) th =
      (u, { q with todo := setBit q.todo th false, entries := q.entries ++ [(th, loc)] }) := by
    refine if_neg ?_
    rw [hfull, hacked, and_below_eq_zero hth hbelow]
    decide
  rw [State.writeSysc_eq, State.writeSysc_eq, State.drainHome_of_empty hw hf,
    State.drainHome_of_empty (by rw [hcore]; exact hw) (by rw [hcore]; exact hf), hthreads, List.foldl_cons, hfirst,
    syscStep_congr hregs]
  rfl

theorem State.syscRingFull_iff (s : State) (col : Nat) : s.syscRingFull col = true ↔
    (s.col col).scsize = 0 ∨ (s.wordAt (s.col col).scprod.toNat - (s.col col).sccons).toNat = 2 ^ (s.col col).scsize := by
  simp only [State.syscRingFull, Bool.or_eq_true, beq_iff_eq]

/-! ## The bytes of an entry (Table 20.4) -/

/-- Numbers with their widths, one behind the other. -/
def fieldsLE (l : List (Nat × Nat)) : List Byte := l.flatMap fun x => bytesLE x.1 x.2

theorem length_fieldsLE (l : List (Nat × Nat)) : (fieldsLE l).length = (l.map (·.2)).sum := by
  simp only [fieldsLE, List.length_flatMap, length_bytesLE]

/-- A field is read back behind those before it. -/
theorem natLE_fieldsLE {l : List (Nat × Nat)} {i v n o : Nat} (h : l[i]? = some (v, n)) (ho : ((l.take i).map (·.2)).sum = o) :
    natLE (((fieldsLE l).drop o).take n) = v % 256 ^ n := by
  obtain ⟨hi, hget⟩ := List.getElem?_eq_some_iff.1 h
  have hsplit : fieldsLE l = fieldsLE (l.take i) ++ (bytesLE v n ++ fieldsLE (l.drop (i + 1))) := by
    conv_lhs => rw [← List.take_append_drop i l, List.drop_eq_getElem_cons hi, hget]
    simp only [fieldsLE, List.flatMap_append, List.flatMap_cons]
  rw [hsplit, List.drop_left' (by rw [length_fieldsLE, ho]), List.take_left' (length_bytesLE v n), natLE_bytesLE]

/-- The fields of an entry. -/
def syscFields (c : Ctx) (n : BitVec 16) (th : Nat) : List (Nat × Nat) :=
  let arg (i : Nat) : Nat × Nat := ((readVec c.g c.f (c.w.a.toNat + i) th).toNat, 4)
  [(c.r.team.seq % 2 ^ 56, 8), (c.r.team.idx, 4), (c.core, 2), (c.r.gid, 1), (c.r.fid, 1), (th, 1), (0, 1), (n.toNat, 2), (0, 4),
    arg 0, arg 1, arg 2, arg 3, (0, 24)]

theorem syscEntry_eq_fieldsLE (c : Ctx) (n : BitVec 16) (th : Nat) : syscEntry c n th = fieldsLE (syscFields c n th) := by
  simp only [syscEntry, syscFields, fieldsLE, List.flatMap_cons, List.flatMap_nil, List.append_nil, List.append_assoc]

/-- An entry holds its fields one behind the other. -/
theorem syscEntry_words (c : Ctx) (n : BitVec 16) {th : Nat} (hth : th < 64) :
    let b := syscEntry c n th
    let word (o k : Nat) : Nat := natLE ((b.drop o).take k)
    b.length = 64 ∧ word 0 8 = c.r.team.seq % 2 ^ 56 ∧ word 8 4 = c.r.team.idx % 2 ^ 32 ∧ word 0x0C 2 = c.core % 65536 ∧
      word 0x0E 1 = c.r.gid % 256 ∧ word 0x0F 1 = c.r.fid % 256 ∧ word 0x10 1 = th ∧ word 0x11 1 = 0 ∧ word 0x12 2 = n.toNat ∧
      word 0x14 4 = 0 ∧ (∀ i < 4, word (0x18 + 4 * i) 4 = (readVec c.g c.f (c.w.a.toNat + i) th).toNat) ∧
      word 0x28 24 = 0 := by
  intro b word
  have hword {i v k o : Nat} (h : (syscFields c n th)[i]? = some (v, k))
      (ho : ([8, 4, 2, 1, 1, 1, 1, 2, 4, 4, 4, 4, 4, 24].take i).sum = o) : word o k = v % 256 ^ k := by
    simp only [word, b, syscEntry_eq_fieldsLE]
    exact natLE_fieldsLE h ((congrArg List.sum (List.map_take ..)).trans ho)
  have hnumber : n.toNat % 256 ^ 2 = n.toNat := Nat.mod_eq_of_lt n.isLt
  refine ⟨?length, (hword (i := 0) rfl rfl).trans (by omega), hword (i := 1) rfl rfl, hword (i := 2) rfl rfl,
    hword (i := 3) rfl rfl, hword (i := 4) rfl rfl, (hword (i := 5) rfl rfl).trans (by omega), (hword (i := 6) rfl rfl).trans (Nat.zero_mod _),
    (hword (i := 7) rfl rfl).trans hnumber, (hword (i := 8) rfl rfl).trans (Nat.zero_mod _), fun i hi => ?args, (hword (i := 13) rfl rfl).trans (Nat.zero_mod _)⟩
  case length =>
    simp only [b, syscEntry_eq_fieldsLE, length_fieldsLE]
    rfl
  case args =>
    have harg : word (0x18 + 4 * i) 4 = (readVec c.g c.f (c.w.a.toNat + i) th).toNat % 256 ^ 4 := by
      obtain rfl | rfl | rfl | rfl : i = 0 ∨ i = 1 ∨ i = 2 ∨ i = 3 := by omega
      · exact hword (i := 9) rfl rfl
      · exact hword (i := 10) rfl rfl
      · exact hword (i := 11) rfl rfl
      · exact hword (i := 12) rfl rfl
    exact harg.trans (Nat.mod_eq_of_lt (readVec c.g c.f (c.w.a.toNat + i) th).isLt)

/-! ## SYSC -/

theorem syscBody_of_parts {c : Ctx} {s : State} (h : c.parts ≠ 0) : syscBody c s =
    let t := syscRun s c
    let u := t.1.writeSysc c t.2
    .done (if u.2.todo = 0 ∧ u.2.entries = [] then
      { s := u.1, point := true, after := fun f => { f with sysc := none, counts := f.counts.complete 3 } }
    else
      { s := u.1, point := true, parks := true
        flow := some { run := fun f => .ok { f.markAgain with hold := .syscall, sysc := some u.2 } } }) := by
  have hparts : (c.parts == 0) = false := beq_eq_false_iff_ne.2 h
  unfold syscBody
  rw [hparts, if_neg Bool.false_ne_true]
  rcases syscRun s c with ⟨t, r⟩
  dsimp only
  rcases t.writeSysc c r with ⟨u, q⟩
  dsimp only
  by_cases hdone : q.todo = 0 ∧ q.entries = []
  · rw [if_pos hdone, if_pos (by simp [hdone])]
  · rw [if_neg hdone, if_neg (by simpa using hdone)]

/-! ## TCKPT -/

/-- A body that holds its fibre. -/
theorem holdsIf_of_held {i : Instr} {op : Nat} {w : Fields} {body : Ctx → State → Effect} {p : Ctx → State → Prop}
    {x : Ctx → State → State × Hold} (he : ∀ s, exec i s = s.issue op w body) (ho : opFields i = some (op, w))
    (hb : ∀ c s, p c s → body c s = .held (x c s).1 (x c s).2) : HoldsIf i p x :=
  fun _ _ h hp => exec_of_held he ho h (hb _ _ hp)

theorem tckptBody_eq (c : Ctx) (s : State) : tckptBody c s =
    if c.k.rollback = false then .done { s }
    else if c.f.ckptPass = true then
      .done { s, hashed := !c.f.ckptBack
              after := fun f => { f with ckptPass := false, ckptBack := false, fsig := if c.f.ckptBack then 0 else f.fsig } }
    else if ∃ p ∈ c.f.outstanding, p.due = none then .stalled ((c.f.outstanding.filter (·.due.isNone)).map (·.id))
    else .held s .checkpoint := by
  have hwaits : (!(c.f.outstanding.filter (·.due.isNone)).isEmpty) = true ↔ ∃ p ∈ c.f.outstanding, p.due = none := by
    rw [Bool.not_eq_true', ← Bool.not_eq_true, List.isEmpty_iff, List.filter_eq_nil_iff]
    simp
  unfold tckptBody
  cases c.k.rollback with
  | false => rfl
  | true =>
    cases c.f.ckptPass with
    | true => rfl
    | false =>
      by_cases h : ∃ p ∈ c.f.outstanding, p.due = none
      · simp only [if_pos h, if_pos (hwaits.2 h), Bool.not_true, Bool.false_eq_true, Bool.true_eq_false, if_false]
      · simp only [if_neg h, if_neg (fun hb => h (hwaits.1 hb)), Bool.not_true, Bool.false_eq_true, Bool.true_eq_false, if_false]

theorem State.wakeTeam_teams (s : State) (t : Team) : (s.wakeTeam t).teams = s.teams :=
  foldl_keeps State.teams (f := fun s (g : Group) => s.wakeCore g.core) (fun s g => by
    unfold State.wakeCore
    dsimp only
    split <;> rfl) _ s

/-- The last arrival opens its team's interval (R369). -/
theorem State.team?_openIfArrived {s : State} {r : TeamRef} {t : Team} (ht : s.team? r = some t) (ha : t.allArrived = true) :
    (s.openIfArrived r).team? r = some (openInterval t) := by
  have hopened : ((s.modTeam r openInterval).wakeTeam t).team? r = some (openInterval t) := by
    rw [State.team?, State.wakeTeam_teams]
    exact State.team?_modTeam_of_some ht openInterval fun _ => rfl
  unfold State.openIfArrived
  rw [ht]
  dsimp only
  rw [if_pos ha]
  exact hopened

/-- A field of the fibres of a team under a change of each fibre. -/
theorem map_fibres_map {β : Type} (gs : List Group) (go : Fibre → Fibre) (p : Fibre → β) :
    (gs.map fun (g : Group) => { g with fibres := g.fibres.map go }).map (·.fibres.map p) = gs.map (·.fibres.map (p ∘ go)) := by
  rw [List.map_map]
  refine List.map_congr_left fun g _ => ?_
  exact List.map_map ..

theorem openInterval_spec (t : Team) :
    (openInterval t).interval =
      some { groups := (openInterval t).groups.map recordGroup, slots := t.tiles, regions := t.regions } ∧
    (openInterval t).groups.map (·.fibres.map (·.hold)) =
      t.groups.map (·.fibres.map fun f => if f.hold = .checkpoint then .none else f.hold) ∧
    (openInterval t).groups.map (·.fibres.map (·.ckptPass)) =
      t.groups.map (·.fibres.map fun f => if f.hold = .checkpoint then true else f.ckptPass) := by
  refine ⟨rfl, (map_fibres_map _ _ _).trans ?_, (map_fibres_map _ _ _).trans ?_⟩
  all_goals
    refine List.map_congr_left fun g _ => List.map_congr_left fun f _ => ?_
    by_cases h : f.hold = .checkpoint <;> simp [h]

/-! ## TLBINV and shoot-downs (R174, R365) -/

theorem tlbinvBody_eq (c : Ctx) (s : State) : tlbinvBody c s =
    if s.flushStores.allAcked = false then .unacked s.flushStores (s.flushStores.cores.map (·.1))
    else
      let va := some (uniOperand s c c.w.a.toNat uniThread).toNat
      .done { s := match c.w.f.toNat % 4 with
        | 0 => s.flushStores.shoot (some c.asid) va
        | 1 => s.flushStores.shoot (some c.asid) none
        | 2 => s.flushStores.shoot (some ((uniOperand s.flushStores c c.w.b.toNat uniThread).setWidth 16).toNat) va
        | _ => s.flushStores.shoot none none } := by
  have hfield : fld c.w.f 1 0 = c.w.f.toNat % 4 := by
    rw [fld_eq_extractLsb', BitVec.extractLsb'_toNat, Nat.shiftRight_zero]
  have hasid (v : DWord) : v.toNat % 65536 = (v.setWidth 16).toNat := (BitVec.toNat_setWidth 16 v).symm
  unfold tlbinvBody
  simp only [hfield, hasid, Bool.not_eq_true'] <;> rfl

/-- A shoot-down that reaches no registered wait drops from every TLB what it reaches, and nothing else. -/
theorem State.tlb_shoot {s : State} {asid va : Option Nat} (h : ∀ x ∈ s.waiters, s.shootsWait asid va x = false) :
    (∀ k, ((s.shoot asid va).core k).tlb = (s.core k).tlb.filter fun e => !shootsEntry asid va e) ∧
    ∀ k, ((s.shoot asid va).col k).tlb = (s.col k).tlb.filter fun e => !shootsEntry asid va e := by
  let u : State := { s with cores := s.cores.map fun x => (x.1, { x.2 with reqs := x.2.reqs.map (s.staleCounter asid va) }) }
  have hshoot : s.shoot asid va = u.dropTlb (shootsEntry asid va) := by
    have hnone : (s.waiters.filter fun w => s.shootsWait asid va w) = [] :=
      List.filter_eq_nil_iff.2 fun x hx => Bool.not_eq_true _ ▸ h x hx
    rw [State.shoot, hnone]
    rfl
  rw [hshoot]
  refine ⟨fun k => ?_, fun k => ?_⟩
  · have hdrop := look_map ({} : Core) (fun x => { x with tlb := x.tlb.filter fun e => !shootsEntry asid va e }) rfl u.cores k
    have hstale := look_map ({} : Core) (fun x => { x with reqs := x.reqs.map (s.staleCounter asid va) }) rfl s.cores k
    refine (congrArg Core.tlb hdrop).trans ?_
    show (look {} u.cores k).tlb.filter _ = _
    rw [show look {} u.cores k = _ from hstale]
    rfl
  · exact congrArg Column.tlb
      (look_map ({} : Column) (fun x => { x with tlb := x.tlb.filter fun e => !shootsEntry asid va e }) rfl s.columns k)

/-- Settles O20: each instruction by what its body is, the ring by its steps, and the interval by the last arrival. -/
theorem syscallCheckpointAndShootdown : Obligations.SyscallCheckpointAndShootdown := by
  unfold Obligations.SyscallCheckpointAndShootdown
  intro w y
  refine ⟨?idle, ?sysc, fun s c q => ?ring, fun c n th => syscEntry_words c n, fun i hi => ?tckpt,
    fun s r t ht ha => ⟨_, State.team?_openIfArrived ht ha, openInterval_spec t⟩, ?tlbinv, ?waits,
    fun s asid va => State.tlb_shoot⟩
  case idle =>
    exact completesIf_of_done (fun _ => rfl) rfl fun c s _ _ h => ⟨if_pos (beq_iff_eq.2 h), rfl⟩
  case sysc =>
    refine completesIf_of_done (fun _ => rfl) rfl fun c s _ _ h => ⟨syscBody_of_parts h, ?_⟩
    dsimp only
    split <;> rfl
  case ring =>
    intro x loc th
    refine ⟨fun hf => ?_, fun hw hf => ⟨fun h => ?_, State.writeSysc_step hw hf⟩, s.syscRingFull_iff c.col⟩
    · refine (s.writeSysc_eq c q).trans (foldl_syscStep_of_kept ?_ _)
      simp [State.acked, hf]
    · rw [State.writeSysc_eq, State.drainHome_of_empty hw hf]
      rcases h with h | h
      · rw [h, threads_zero]
        rfl
      · exact foldl_syscStep_of_kept (by rw [h]; rfl) _
  case tckpt =>
    obtain ⟨v, ho, he⟩ : ∃ v, opFields i = some (0x11, v) ∧ ∀ s, exec i s = s.issue 0x11 v tckptBody := by
      rcases hi with rfl | rfl
      · exact ⟨_, rfl, fun _ => rfl⟩
      · exact ⟨_, rfl, fun _ => rfl⟩
    refine ⟨completesIf_of_done he ho fun c s _ _ h => ⟨(tckptBody_eq c s).trans (if_pos h), rfl⟩,
      completesIf_of_done he ho fun c s _ _ h => ⟨?_, rfl⟩, stallsIf_of_stalled he ho fun c s _ _ h => ?_,
      holdsIf_of_held he ho fun c s h => ?_⟩
    · rw [tckptBody_eq, if_neg (by simp [h.1]), if_pos h.2]
    · obtain ⟨hr, hp, hd⟩ := h
      rw [tckptBody_eq, if_neg (by simp [hr]), if_neg (by simp [hp]), if_pos hd]
    · obtain ⟨hr, hp, hd⟩ := h
      rw [tckptBody_eq, if_neg (by simp [hr]), if_neg (by simp [hp]), if_neg (by simpa using hd)]
  case tlbinv =>
    exact completesIf_of_done (fun _ => rfl) rfl fun c s _ _ h => ⟨(tlbinvBody_eq c s).trans (if_neg (by simp [h])), rfl⟩
  case waits =>
    exact awaitsIf_of_unacked (fun _ => rfl) rfl fun c s h => (tlbinvBody_eq c s).trans (if_pos h)

end Sys2Proof.Machine
end
